-- ==== Sys2Proof/Word.lean ====
section
/-! DEFINITION. The word types of the KX-2048 (R4, R7). -/

namespace Sys2Proof

/-- A byte of memory. -/
abbrev Byte := BitVec 8

/-- A lane register (R7). -/
abbrev Word := BitVec 32

/-- A group-wide register, a control register or a window register (R7, R11, R330). -/
abbrev DWord := BitVec 64

/-- A set of the sixteen lanes of a group, bit L for lane L. -/
abbrev Lanes := BitVec 16

end Sys2Proof
end

