-- ==== Sys2Proof/Config.lean ====
section
/-! DEFINITION. The free values: what the spec leaves open, as constants without a body, applied to a plain counter of the state or to the
operands that the value depends on (log 2). Nothing in Lean can prove a value of one. -/

namespace Sys2Proof

/-- The n-th free number: a choice the spec leaves open (R20, R22, R171, R186, R193, R340, R345). -/
opaque Config.freeNat : Nat → Nat

/-- The n-th free choice of yes or no: whether an event that may happen in a cycle does (R20). -/
opaque Config.freeBool : Nat → Bool

/-- The digest of the security core's ROM (R345: measurement 1). -/
opaque Config.romDigest : BitVec 256

/-- The difference δ of WSUM under a bucket size g, an epoch and a time, where the spec gives δ no width (R281: g of 32 or more). -/
opaque Config.wsumDelta : Nat → Nat → Nat → BitVec 64

/-- The unique device secret in fuses (R344). -/
opaque Config.uds : BitVec 256

/-- CDI1 from CDI0 and the SM3 digest of the runtime firmware (R344). -/
opaque Config.diceOne : BitVec 256 → BitVec 256 → BitVec 256

/-- The public key of the SM2 pair that a CDI gives (R344). -/
opaque Config.sm2Key : BitVec 256 → BitVec 512

/-- The bytes of the certificate chain of a DeviceID key and an Alias key (R344). -/
opaque Config.chainBytes : BitVec 512 → BitVec 512 → List (BitVec 8)

/-- The digest of a function's frozen configuration (R345: measurement 5). -/
opaque Config.configDigest : List (List Nat) → BitVec 256

end Sys2Proof
end

