-- ==== Sys2Proof/Machine/Tab.lean ====
section
/-! DEFINITION. Sparse tables in one canonical form, the bit-field helpers, and byte order (R4). -/

namespace Sys2Proof.Machine

/-- A table from keys to entries: keys strictly rising, and no entry equal to what an unlisted key reads as. -/
abbrev Tab (α : Type) := List (Nat × α)

/-- The entry at a key; `d k` where the key k is not listed. -/
def Tab.get {α : Type} (d : Nat → α) : Tab α → Nat → α
  | [], k => d k
  | (j, v) :: t, k => if k = j then v else Tab.get d t k

/-- Remove a key. -/
def Tab.del {α : Type} : Tab α → Nat → Tab α
  | [], _ => []
  | (j, w) :: t, k => if j = k then Tab.del t k else (j, w) :: Tab.del t k

/-- Write one entry; writing `d k` removes the key. What was written is read back from a table in any form. -/
def Tab.put {α : Type} [DecidableEq α] (d : Nat → α) : Tab α → Nat → α → Tab α
  | [], k, v => if v = d k then [] else [(k, v)]
  | (j, w) :: t, k, v =>
    if k < j then (if v = d k then (j, w) :: Tab.del t k else (k, v) :: (j, w) :: t)
    else if k = j then (if v = d k then Tab.del t k else (k, v) :: t)
    else (j, w) :: Tab.put d t k v

/-- The canonical form of a table whose keys all lie at or above `lo`. -/
def Tab.wfFrom {α : Type} [DecidableEq α] (d : Nat → α) : Nat → Tab α → Bool
  | _, [] => true
  | lo, (k, v) :: t => decide (lo ≤ k) && (!decide (v = d k) && Tab.wfFrom d (k + 1) t)

/-- The canonical form of a table. -/
def Tab.wf {α : Type} [DecidableEq α] (d : Nat → α) (t : Tab α) : Bool := Tab.wfFrom d 0 t

/-- What an unlisted byte of memory reads as: every full reset wipes memory to zero (R348). -/
def zeroByte : Nat → Byte := fun _ => 0

/-- Memory: a table of bytes. -/
abbrev Memory := Tab Byte

/-- The canonical form of memory. -/
def Memory.wf (m : Memory) : Bool := Tab.wf zeroByte m

/-- Bits hi down to lo of a number (R4: x⟨h:l⟩). -/
def bits (x hi lo : Nat) : Nat := x / 2 ^ lo % 2 ^ (hi + 1 - lo)

/-- Bit n of a number. -/
def bit (x n : Nat) : Bool := x / 2 ^ n % 2 == 1

/-- x with bits hi down to lo replaced by v. -/
def setBits (x hi lo v : Nat) : Nat :=
  x % 2 ^ lo + (v % 2 ^ (hi + 1 - lo)) * 2 ^ lo + x / 2 ^ (hi + 1) * 2 ^ (hi + 1)

/-- The n-bit two's-complement reading of x⟨n−1:0⟩ (R6: sext). -/
def sext (x n : Nat) : Int :=
  let y := x % 2 ^ n
  if 2 * y < 2 ^ n then (y : Int) else (y : Int) - (2 ^ n : Nat)

/-- An integer modulo 2^n. -/
def wrap (n : Nat) (x : Int) : Nat := (x % ((2 ^ n : Nat) : Int)).toNat

/-- R6: clamp(x, lo, hi). -/
def clamp (x lo hi : Int) : Int := if x < lo then lo else if hi < x then hi else x

/-- The number of one bits among the low n bits. -/
def popcount (x : Nat) : Nat → Nat
  | 0 => 0
  | n + 1 => (if bit x n then 1 else 0) + popcount x n

/-- The positions of the one bits among the low n bits, ascending. -/
def onesOf (x n : Nat) : List Nat := (List.range n).filter (fun i => bit x i)

/-- ⌈a / b⌉. -/
def ceilDiv (a b : Nat) : Nat := (a + b - 1) / b

/-- Little-endian bytes of x (R4). -/
def toBytes (x : Nat) : Nat → List Byte
  | 0 => []
  | n + 1 => BitVec.ofNat 8 x :: toBytes (x / 256) n

/-- The number that little-endian bytes hold (R4). -/
def ofBytes : List Byte → Nat
  | [] => 0
  | b :: t => b.toNat + 256 * ofBytes t

/-- Replace the entry at position i of a list. -/
def setAt {α : Type} : List α → Nat → α → List α
  | [], _, _ => []
  | _ :: t, 0, v => v :: t
  | x :: t, i + 1, v => x :: setAt t i v

/-- The entry at position i, or d. -/
def getAt {α : Type} (d : α) : List α → Nat → α
  | [], _ => d
  | x :: _, 0 => x
  | _ :: t, i + 1 => getAt d t i

/-- The first position at which p holds. -/
def findPos {α : Type} (p : α → Bool) : List α → Option Nat
  | [] => none
  | x :: t => if p x then some 0 else (findPos p t).map (· + 1)

end Sys2Proof.Machine
end

