-- ==== Sys2Proof/Syntax.lean ====
section
/-! DEFINITION. The instructions, filter instructions, events and commands of the KX-2048: one constructor of `Instr` for each row of
the opcode table. Operands are named as the spec names them; an encoding never reaches the machine. -/

namespace Sys2Proof

/-- The fields of the common header that the scheduler reads (R50): STALL, GP, GN, SBS and SBW. -/
structure Hdr where
  stall : Fin 16
  gp : Fin 8
  gn : Bool
  sbs : Fin 8
  sbw : BitVec 7
  deriving DecidableEq, Repr

/-- v0–v319 (R7). -/
abbrev VReg := Fin 320
/-- s0–s63 (R7). -/
abbrev SReg := Fin 64
/-- p0–p7 (R7). -/
abbrev PReg := Fin 8
/-- q0–q15 (R7). -/
abbrev QReg := Fin 16

/-- The control registers (R11). -/
inductive Ctl where
  | status | fpctl | flags | check
  deriving DecidableEq, Repr

/-- A source of a lane instruction (R52). -/
inductive Src where
  | v (r : VReg)
  | s (r : SReg)
  deriving DecidableEq, Repr

/-- The B operand of a lane instruction: a register, or IMM32 (R54). -/
inductive SrcI where
  | reg (r : Src)
  | imm (i : BitVec 32)
  deriving DecidableEq, Repr

/-- An s register, or IMM32: the B operand of BCST, RDLN and SCMP. -/
inductive SImm where
  | s (r : SReg)
  | imm (i : BitVec 32)
  deriving DecidableEq, Repr

/-- The B operand of SALU: an s register, IMM32 or IMM64 (R54, R59). -/
inductive GSrc where
  | s (r : SReg)
  | imm32 (i : BitVec 32)
  | imm64 (i : BitVec 64)
  deriving DecidableEq, Repr

/-- An operand of SMOV that names a register (R107). -/
inductive GReg where
  | s (r : SReg)
  | ctl (c : Ctl)
  deriving DecidableEq, Repr

/-- The source of SMOV (R107). -/
inductive SMovSrc where
  | reg (r : GReg)
  | imm32 (i : BitVec 32)
  | imm64 (i : BitVec 64)
  deriving DecidableEq, Repr

/-- The immediate of MOVI (R102). -/
inductive MovImm where
  | imm32 (i : BitVec 32)
  | imm64 (i : BitVec 64)
  deriving DecidableEq, Repr

/-- A predicate destination of VOTE (R147). -/
inductive PQ where
  | p (r : PReg)
  | q (r : QReg)
  deriving DecidableEq, Repr

/-- The integer types (Table 3.10). -/
inductive ITy where
  | i8 | i16 | i32 | i64 | n8 | n16 | n32 | n64
  deriving DecidableEq, Repr

/-- The raw bit types (Table 3.10). -/
inductive BTy where
  | b32 | b64
  deriving DecidableEq, Repr

/-- The types of LD, ST, LDAQ and STRL (R65). -/
inductive MTy where
  | int (t : ITy)
  | raw (t : BTy)
  deriving DecidableEq, Repr

/-- The types of LRED and PRFX (R155). -/
inductive RTy where
  | i32 | i64 | n32 | n64 | f32
  deriving DecidableEq, Repr

/-- The types of SHF, ATOM and ARED (R65). -/
inductive WTy where
  | i32 | i64 | n32 | n64 | b32 | b64
  deriving DecidableEq, Repr

/-- The floating-point formats (Table 2.1). -/
inductive Fmt where
  | f32 | f16 | bf16 | e4m3 | e5m2
  deriving DecidableEq, Repr

/-- The formats of an activation row (Table 12.3). -/
inductive FeedFmt where
  | f16 | bf16 | e4m3 | e5m2 | q4 | q8
  deriving DecidableEq, Repr

/-- The formats of a drained row (Table 12.3). -/
inductive DrainFmt where
  | f32 | f16 | bf16 | e4m3
  deriving DecidableEq, Repr

/-- Rounding modes (R30). -/
inductive Rm where
  | rn | rz | rp | rminf
  deriving DecidableEq, Repr

/-- Comparisons of ICMP and SCMP (Table 3.12). -/
inductive Cmp where
  | eq | ne | lt | le | gt | ge
  deriving DecidableEq, Repr

/-- Comparisons of FCMP (Table 3.12). -/
inductive FCmp where
  | eq | ne | lt | le | gt | ge | un | ord
  deriving DecidableEq, Repr

/-- Logic functions (Table 3.12). -/
inductive LogicFn where
  | and | or | xor | andn | orn | xnor | not
  deriving DecidableEq, Repr

/-- Shift functions (R86). -/
inductive ShfFn where
  | shl | shr | rol | ror
  deriving DecidableEq, Repr

/-- Bit counting functions (R89). -/
inductive BitcFn where
  | popc | clz | ctz | brev
  deriving DecidableEq, Repr

/-- Special functions (R96). -/
inductive SpcFn where
  | rcp | rsq | sqrt | exp2 | log2
  deriving DecidableEq, Repr

/-- SALU operations (R106). -/
inductive SaluFn where
  | add | sub | mul | and | or | xor | shl | shr | sar | mini | maxi | minn | maxn
  deriving DecidableEq, Repr

/-- MOVS sources (Table 4.4). -/
inductive MovsSrc where
  | lane | owner | slot | coord | wg
  deriving DecidableEq, Repr

/-- OWNQ fields (R150). -/
inductive OwnField where
  | index | vf | asid | awn
  deriving DecidableEq, Repr

/-- SHFL functions (R152). -/
inductive ShflFn where
  | idx | up | down | xor
  deriving DecidableEq, Repr

/-- Operations of LRED and PRFX (R155); xadd is for PRFX. -/
inductive RedOp where
  | add | min | max | and | or | xor | xadd
  deriving DecidableEq, Repr

/-- Integer atomic operations (R203). -/
inductive AtomOp where
  | add | min | max | and | or | xor | exch
  deriving DecidableEq, Repr

/-- Floating-point atomic operations (R205). -/
inductive AtomFOp where
  | add | min | max
  deriving DecidableEq, Repr

/-- Types of ATOMF (R205). -/
inductive AFmt where
  | f32 | f16 | bf16
  deriving DecidableEq, Repr

/-- Orders (R56). -/
inductive Ord4 where
  | rlx | acq | rel | ar
  deriving DecidableEq, Repr

/-- Orders of FENCE (R206). -/
inductive FenceOrd where
  | acq | rel | ar
  deriving DecidableEq, Repr

/-- Scopes (Table 9.2). -/
inductive Scope where
  | wg | cl | dev | sys
  deriving DecidableEq, Repr

/-- Element counts 1, 2 and 4 (R56: NREG). -/
inductive NReg where
  | x1 | x2 | x4
  deriving DecidableEq, Repr

/-- Scratch windows of SPTST and SPCST (R201). -/
inductive Win where
  | core | cluster | die
  deriving DecidableEq, Repr

/-- Arrival modes of BARV (R208). -/
inductive BarMode where
  | arrive | drop | join
  deriving DecidableEq, Repr

/-- Engine classes, in the FN coding of WAITC (R65). -/
inductive EClass where
  | cpy | wld | fed | drn | gth | col
  deriving DecidableEq, Repr

/-- Quadrant sets that QM may name (R58); `implied` is 0b0000. -/
inductive Qm where
  | implied | nw | ne | sw | se | n | s | w | e | all
  deriving DecidableEq, Repr

/-- A base operand: a v pair or an s register (R114). -/
abbrev Base := Src

/-- A memory operand: base + OFFSET, or the code-constant address of CW = 1 (R56). -/
inductive MAddr where
  | reg (b : Base) (off : BitVec 32)
  | const (off : BitVec 32)
  deriving DecidableEq, Repr

/-- PLOG in its p and its q form (R104). -/
inductive PlogArgs where
  | p (d a b : PReg)
  | q (d a b : QReg)
  deriving DecidableEq, Repr

/-- PSET in its p and its q form (R105). -/
inductive PsetArgs where
  | p (d : PReg) (a : Src)
  | q (d : QReg) (a : SReg)
  deriving DecidableEq, Repr

/-- VOTE by function (R147). -/
inductive VoteArgs where
  | all (d : PQ) (a : PReg)
  | any (d : PQ) (a : PReg)
  | ballot (d : Src) (a : PReg)
  | uni (d : PQ) (a : Src)
  deriving DecidableEq, Repr

/-- Completion fields of an X128 instruction: the barrier word of BREN, the task of TSEN, and the leader predicate LP (R57). -/
structure Async where
  bar : Option Base
  task : Option (Fin 4096)
  lp : PReg
  deriving DecidableEq, Repr

/-- EVLD fields (Table 14.12). -/
inductive EvField where
  | ts | cls | unit | vf | asid | kind | aux | val | lo | hi | drops
  deriving DecidableEq, Repr

/-- EALU operations (R276). -/
inductive EaluOp where
  | add | sub | and | or | xor | shl | shr | min | max | subs | mul
  deriving DecidableEq, Repr

/-- ECMP conditions (R276). -/
inductive EcmpOp where
  | eq | ne | ltn | len | gtn | gen | lti | gei
  deriving DecidableEq, Repr

/-- The B operand of EALU and ECMP: a register, or imm9. -/
inductive ESrc where
  | reg (r : Fin 16)
  | imm (i : BitVec 9)
  deriving DecidableEq, Repr

/-- The condition of EBF (R277); the unconditional form has a bit Z too, which decides nothing. -/
inductive EbfCond where
  | always (z : Bool) | nz (a : Fin 16) | z (a : Fin 16)
  deriving DecidableEq, Repr

/-- The count-min width k of CMSU and CMSQ, 1 to 13 (Table 14.11). -/
abbrev CmK := Fin 16

/-- Who issues an instruction: fragment `frag` of the group in slot `key` (core · 256 + group slot), sequencer context
`key` (cluster · 4 + k), or filter pipe `p` of a die. -/
inductive Issuer where
  | grp (key frag : Nat)
  | ctx (key : Nat)
  | pipe (die p : Nat)
  deriving DecidableEq, Repr

/-- A host access over the link (R190, R330): to device memory through the PF's window, to memory of the host itself,
or a read of a window register; and one of the debug master to device memory (R338, R349). -/
inductive HostAcc where
  | readMem (hpa n : Nat)
  | writeMem (hpa : Nat) (data : List Byte)
  | readHost (addr n : Nat)
  | writeHost (addr : Nat) (data : List Byte)
  | readReg (fn off n : Nat) (tbit : Bool)
  | readDebug (hpa n : Nat)
  | writeDebug (hpa : Nat) (data : List Byte)
  deriving DecidableEq, Repr

/-- An external flit's content as far as the machine acts on it (R319 to R329). -/
inductive PeerReq where
  | read (id hpa n : Nat)
  | write (id hpa : Nat) (data : List Byte)
  | atomic (id hpa : Nat) (ty : WTy) (op : AtomOp) (v : Nat) (cmp : Option Nat)
  | atomicf (id hpa : Nat) (ty : AFmt) (op : AtomFOp) (rm v : Nat)
  | reply (id : Nat) (data : List Byte)
  | contribution (comm tag rank : Nat) (kind ty opr root cnt part : Nat) (data : List Byte)
  | result (comm tag chunk stat part : Nat) (data : List Byte)
  deriving DecidableEq, Repr

/-- A step of a key's installation on a peer link (R324): in the slot for what this device sends; in that for what it receives, which is live with it; the sender's
switch to the new generation, of this device and of the peer. -/
inductive KeyStep where
  | outbound
  | inbound
  | switch
  | peerSwitch
  deriving DecidableEq, Repr

/-- A flit as its header names it (Table 19.2). -/
structure FlitName where
  kg : Bool
  fctr : Nat
  deriving DecidableEq, Repr

/-- From which peer an acknowledgement, refusal or stale flit comes, with its generation and counter, and whether its tag is right (R323 to R325). -/
structure Sealed where
  peer : Nat
  kg : Bool
  fctr : Nat
  tagOk : Bool
  deriving DecidableEq, Repr

/-- What a data flit carries: its request, whether more flits of its packet follow, and the pair's packet to the same granule before it (R317, R320). -/
structure Carried where
  req : PeerReq
  more : Bool
  prev : Option Nat
  deriving DecidableEq, Repr

/-- One direction of a pair (R323): what a peer sends (`inbound`), or what it is sent. -/
structure LinkSide where
  peer : Nat
  inbound : Bool
  deriving DecidableEq, Repr

/-- An external port at this device, or at the far end of one pair (R317). -/
structure PortEnd where
  port : Nat
  peer : Option Nat
  deriving DecidableEq, Repr

/-- A step of a key's installation on the link to a peer (R324). -/
structure KeyChange where
  peer : Nat
  step : KeyStep
  deriving DecidableEq, Repr

/-- What bring-up meets (R351): the module straps, and the version and digest of the security firmware's and the runtime firmware's image, none for one that fails its
check. -/
structure BringUp where
  straps : Nat
  sec : Option (Nat × Nat)
  rt : Option (Nat × Nat)
  deriving DecidableEq, Repr

/-- The instruction set: one constructor for each row of the opcode table. Encoded instructions of the Mladys set take the header fields first. -/
inductive Instr where
  /-- IADD: Adds two integer operands per active lane, wrapping or saturating. (R82) -/
  | iadd (h : Hdr) (ty : ITy) (sat : Bool) (d : VReg) (a : Src) (b : SrcI)
  /-- ISUB: Subtracts two integer operands per active lane, wrapping or saturating. (R82) -/
  | isub (h : Hdr) (ty : ITy) (sat : Bool) (d : VReg) (a : Src) (b : SrcI)
  /-- IMUL: Multiplies two integer operands per active lane, wrapping or saturating. (R82) -/
  | imul (h : Hdr) (ty : ITy) (sat : Bool) (d : VReg) (a : Src) (b : SrcI)
  /-- IMULH: Writes the upper half of the double-width integer product per active lane. (R82) -/
  | imulh (h : Hdr) (ty : ITy) (d : VReg) (a : Src) (b : SrcI)
  /-- IMIN: Writes the smaller of two integers per active lane. (R82) -/
  | imin (h : Hdr) (ty : ITy) (d : VReg) (a : Src) (b : SrcI)
  /-- IMAX: Writes the larger of two integers per active lane. (R82) -/
  | imax (h : Hdr) (ty : ITy) (d : VReg) (a : Src) (b : SrcI)
  /-- IMAD: Forms a times b plus c exactly per lane and writes it wrapped or saturated. (R83) -/
  | imad (h : Hdr) (ty : ITy) (sat : Bool) (d : VReg) (a b c : Src)
  /-- IABS: Writes the absolute value of an integer per active lane. (R84) -/
  | iabs (h : Hdr) (ty : ITy) (sat : Bool) (d : VReg) (a : Src)
  /-- LOP: Applies the bitwise logic function chosen by MOD per active lane. (R85) -/
  | lop (h : Hdr) (fn : LogicFn) (ty : BTy) (d : VReg) (a : Src) (b : SrcI)
  /-- SHF: Shifts or rotates the operand by a 32-bit count per active lane. (R86) -/
  | shf (h : Hdr) (fn : ShfFn) (ty : WTy) (d : VReg) (a : Src) (b : SrcI)
  /-- BFX: Extracts a bit field by position and width per active lane. (R87) -/
  | bfx (h : Hdr) (ty : ITy) (d : VReg) (a b c : Src)
  /-- BFI: Inserts a bit field into the base value per active lane. (R88) -/
  | bfi (h : Hdr) (ty : BTy) (d : VReg) (a b c : Src)
  /-- BITC: Counts or reverses the bits of a AND b per active lane. (R89) -/
  | bitc (h : Hdr) (fn : BitcFn) (ty : BTy) (d : VReg) (a : Src) (b : SrcI)
  /-- SEL: Selects A or B by a lane predicate. (R90) -/
  | sel (h : Hdr) (ty : BTy) (d : VReg) (a b : Src) (c : PReg)
  /-- ICMP: Compares two integers and writes a lane predicate. (R91) -/
  | icmp (h : Hdr) (ty : ITy) (cmp : Cmp) (d : PReg) (a : Src) (b : SrcI)
  /-- FADD: Adds two binary32 values with one rounding per active lane. (R92) -/
  | fadd (h : Hdr) (rm : Rm) (d : VReg) (a : Src) (b : SrcI)
  /-- FMUL: Multiplies two binary32 values with one rounding per active lane. (R92) -/
  | fmul (h : Hdr) (rm : Rm) (d : VReg) (a : Src) (b : SrcI)
  /-- FFMA: Computes a fused multiply-add with one rounding per active lane. (R92) -/
  | ffma (h : Hdr) (rm : Rm) (d : VReg) (a b c : Src)
  /-- FMNX: Writes the IEEE minimumNumber or maximumNumber per active lane. (R93) -/
  | fmnx (h : Hdr) (max : Bool) (d : VReg) (a : Src) (b : SrcI)
  /-- FCMP: Compares two binary32 values and writes a lane predicate. (R94) -/
  | fcmp (h : Hdr) (cmp : FCmp) (d : PReg) (a : Src) (b : SrcI)
  /-- FCLS: Writes a one-hot class word for a binary32 value. (R95) -/
  | fcls (h : Hdr) (d : VReg) (a : Src)
  /-- FSPC: Computes a correctly rounded special function with variable latency. (R96) -/
  | fspc (h : Hdr) (fn : SpcFn) (rm : Rm) (d : VReg) (a : Src)
  /-- HADD2: Adds two packed half-precision pairs. (R97) -/
  | hadd2 (h : Hdr) (bf : Bool) (rm : Rm) (d : VReg) (a : Src) (b : SrcI)
  /-- HMUL2: Multiplies two packed half-precision pairs. (R97) -/
  | hmul2 (h : Hdr) (bf : Bool) (rm : Rm) (d : VReg) (a : Src) (b : SrcI)
  /-- HFMA2: Fused multiply-adds two packed half-precision pairs. (R97) -/
  | hfma2 (h : Hdr) (bf : Bool) (rm : Rm) (d : VReg) (a b c : Src)
  /-- FDP4: Forms a four-way 8-bit float dot product plus C with one rounding. (R98) -/
  | fdp4 (h : Hdr) (e5 : Bool) (rm : Rm) (d : VReg) (a b c : Src)
  /-- CVTF: Converts between floating-point formats. (R99) -/
  | cvtf (h : Hdr) (dst src : Fmt) (rm : Rm) (sat : Bool) (d : VReg) (a : Src)
  /-- CVTI: Converts between integer and floating-point values. (R100) -/
  | cvti (h : Hdr) (toInt : Bool) (fty : AFmt) (ity : ITy) (rm : Rm) (d : VReg) (a : Src)
  /-- CVTQ: Decodes one Q4 or Q8 block element to binary32. (R101) -/
  | cvtq (h : Hdr) (q8 : Bool) (k : Fin 8) (d : VReg) (a b : Src)
  /-- MOV: Copies a register into a lane register. (R102) -/
  | mov (h : Hdr) (ty : BTy) (d : VReg) (a : Src)
  /-- MOVI: Writes an immediate into a lane register. (R102) -/
  | movi (h : Hdr) (ty : BTy) (d : VReg) (i : MovImm)
  /-- MOVS: Writes a special value such as lane or slot number. (R102) -/
  | movs (h : Hdr) (src : MovsSrc) (d : VReg)
  /-- MOVG: Moves the lowest active lane's value into an s register. (R103) -/
  | movg (h : Hdr) (ty : BTy) (d : SReg) (a : Src)
  /-- PLOG: Applies predicate logic to p or q registers. (R104) -/
  | plog (h : Hdr) (fn : LogicFn) (x : PlogArgs)
  /-- PSET: Sets a predicate from a register value. (R105) -/
  | pset (h : Hdr) (x : PsetArgs)
  /-- SALU: Performs a 64-bit group-wide arithmetic or logic operation. (R106) -/
  | salu (h : Hdr) (fn : SaluFn) (d a : SReg) (b : GSrc)
  /-- SMOV: Copies 64 bits between s and control registers or from an immediate. (R107) -/
  | smov (h : Hdr) (d : GReg) (a : SMovSrc)
  /-- SCMP: Compares two 64-bit s operands into a q register. (R108) -/
  | scmp (h : Hdr) (signed : Bool) (cmp : Cmp) (d : QReg) (a : SReg) (b : SImm)
  /-- SSEL: Selects between s registers by the class slot's q bit. (R109) -/
  | ssel (h : Hdr) (d a b : SReg) (c : QReg)
  /-- SLD: Loads group-wide values into s registers. (R110) -/
  | sld (h : Hdr) (ty : BTy) (n : NReg) (scope : Scope) (d : SReg) (m : MAddr)
  /-- BRA: Branches to a PC-relative target, splitting by class if guards differ. (R111) -/
  | bra (h : Hdr) (off : BitVec 32)
  /-- JMP: Jumps to a target held in an s register. (R111) -/
  | jmp (h : Hdr) (a : SReg)
  /-- CALL: Branches and writes the link address to an s register. (R111) -/
  | call (h : Hdr) (d : SReg) (off : BitVec 32)
  /-- RET: Returns to a target held in an s register. (R111) -/
  | ret (h : Hdr) (a : SReg)
  /-- EXIT: Removes the active lanes from the fragment, ending it when empty. (R112) -/
  | exit (h : Hdr)
  /-- NOP: Spends an issue cycle and its stall count. (R113) -/
  | nop (h : Hdr)
  /-- YIELD: Gives up the path slot to the oldest waiting fragment. (R113) -/
  | yield (h : Hdr)
  /-- LD: Loads 1, 2 or 4 elements per active lane after the probe. (R115) -/
  | ld (h : Hdr) (ty : MTy) (n : NReg) (acq : Bool) (scope : Scope) (d : VReg) (m : MAddr)
  /-- ST: Stores 1, 2 or 4 elements per active lane after the probe. (R115) -/
  | st (h : Hdr) (ty : MTy) (n : NReg) (rel : Bool) (scope : Scope) (m : MAddr) (data : Src)
  /-- BRD: Divergent branch that may push a knot and split the fragment. (R144) -/
  | brd (h : Hdr) (off : BitVec 32) (a : SReg)
  /-- KNOT: Pushes a reconvergence knot for the fragment's mask. (R145) -/
  | knot (h : Hdr) (off : BitVec 32)
  /-- JOIN: Arrives at the youngest matching knot and waits for its release. (R146) -/
  | join (h : Hdr)
  /-- VOTE: Votes all, any, ballot or uni within each class. (R147) -/
  | vote (h : Hdr) (x : VoteArgs)
  /-- ELECT: Elects the lowest active lane of each class. (R148) -/
  | elect (h : Hdr) (d : PReg)
  /-- MATCH: Writes the mask of same-class lanes holding equal values. (R149) -/
  | matchl (h : Hdr) (ty : BTy) (d a : VReg)
  /-- OWNQ: Writes a field of the lane's own owner-table entry. (R150) -/
  | ownq (h : Hdr) (fld : OwnField) (d : VReg)
  /-- FRAGQ: Writes the fragment's class mask or its count. (R151) -/
  | fragq (h : Hdr) (count : Bool) (d : VReg)
  /-- SHFL: Shuffles 32-bit values within a segment, filtered by class. (R152) -/
  | shfl (h : Hdr) (fn : ShflFn) (w : Fin 4) (d a : VReg) (b : SrcI)
  /-- BCST: Broadcasts one lane's value to the active lanes. (R153) -/
  | bcst (h : Hdr) (ty : BTy) (d a : VReg) (b : SImm)
  /-- RDLN: Reads one lane's value into an s register. (R154) -/
  | rdln (h : Hdr) (ty : BTy) (d : SReg) (a : VReg) (b : SImm)
  /-- LRED: Reduces values left to right within each class. (R155) -/
  | lred (h : Hdr) (op : RedOp) (ty : RTy) (d a : VReg)
  /-- PRFX: Computes an inclusive or exclusive scan within each class. (R155) -/
  | prfx (h : Hdr) (op : RedOp) (ty : RTy) (d a : VReg)
  /-- BACKOFF: Pauses the fragment and gives up its slot if others wait. (R156) -/
  | backoff (h : Hdr) (a : SReg)
  /-- LAUNCH_NOW: Leader lane submits a launch record to the device launch queue. (R157) -/
  | launchNow (h : Hdr) (d : VReg) (a : Base) (lp : PReg)
  /-- LAUNCH_ARM: Leader lane arms a task with a launch record and count. (R157) -/
  | launchArm (h : Hdr) (d : VReg) (a : Base) (b : Src) (count : BitVec 16) (lp : PReg)
  /-- LDAQ: Loads once per owner entry by its leader lane and shares the value. (R199) -/
  | ldaq (h : Hdr) (ty : MTy) (n : NReg) (acq : Bool) (scope : Scope) (d : VReg) (m : MAddr)
  /-- STRL: Stores once per owner entry from its leader lane. (R199) -/
  | strl (h : Hdr) (ty : MTy) (n : NReg) (rel : Bool) (scope : Scope) (m : MAddr) (data : Src)
  /-- TMOV: Moves a 16, 32 or 64 byte tile per lane between windows. (R200) -/
  | tmov (h : Hdr) (n : NReg) (src : MAddr) (dst : Base)
  /-- SPTST: Tests whether an address is a usable scratch pointer. (R201) -/
  | sptst (h : Hdr) (win : Win) (d : PReg) (b : Base) (off : BitVec 32)
  /-- SPCST: Converts between scratch offsets and generic addresses. (R202) -/
  | spcst (h : Hdr) (win : Win) (toOff : Bool) (d : VReg) (b : Base) (off : BitVec 32)
  /-- ATOM: Performs an integer atomic RMW per lane and returns the old value. (R203) -/
  | atom (h : Hdr) (ty : WTy) (op : AtomOp) (ord : Ord4) (scope : Scope) (d : VReg) (b : Base) (off : BitVec 32) (data : Src)
  /-- ARED: Performs an integer atomic RMW per lane returning nothing. (R203) -/
  | ared (h : Hdr) (ty : WTy) (op : AtomOp) (rel : Bool) (scope : Scope) (b : Base) (off : BitVec 32) (data : Src)
  /-- ACAS: Compares and swaps per lane, returning the old value. (R204) -/
  | acas (h : Hdr) (ty : BTy) (ord : Ord4) (scope : Scope) (d : VReg) (b : Base) (off : BitVec 32) (cmp new : Src)
  /-- ATOMF: Performs a floating-point atomic add, min or max per lane. (R205) -/
  | atomf (h : Hdr) (ty : AFmt) (op : AtomFOp) (ord : Ord4) (scope : Scope) (d : VReg) (b : Base) (off : BitVec 32) (data : Src)
  /-- FENCE: Orders go-related accesses as acquire, release or both. (R206) -/
  | fence (h : Hdr) (ord : FenceOrd) (scope : Scope)
  /-- BARI: Initialises a barrier word in count or byte mode. (R207) -/
  | bari (h : Hdr) (bytes rel : Bool) (scope : Scope) (b : Base) (off : BitVec 32) (data : Src)
  /-- BARV: Makes one release arrival per owner entry on a barrier word. (R208) -/
  | barv (h : Hdr) (mode : BarMode) (scope : Scope) (d : VReg) (b : Base) (off : BitVec 32)
  /-- BWAIT: Holds the fragment until each addressed barrier word changes phase. (R209) -/
  | bwait (h : Hdr) (scope : Scope) (b : Base) (off : BitVec 32) (data : Src)
  /-- BTEST: Reads a barrier word once and sets a predicate if its phase changed. (R210) -/
  | btest (h : Hdr) (scope : Scope) (d : PReg) (b : Base) (off : BitVec 32) (data : Src)
  /-- TPACK: Packs 20 two-bit trit fields into four five-trit bytes. (R243) -/
  | tpack (h : Hdr) (d : VReg) (a b : Src)
  /-- TUNPK: Unpacks four five-trit bytes into two-bit trit fields. (R243) -/
  | tunpk (h : Hdr) (d : VReg) (a : Src)
  /-- WLOAD: Starts loading a weight image into the pattern die and an image slot. (R244) -/
  | wload (h : Hdr) (a : Base) (slot : Fin 256) (qm : Qm) (line : Fin 4096) (x : Async)
  /-- AFEED: Starts decoding activation rows into the core's feed queue. (R246) -/
  | afeed (h : Hdr) (fmt : FeedFmt) (a : Base) (rows : Fin 64) (anc : BitVec 8) (stride : BitVec 16)
  /-- ADRAIN: Starts draining accumulator rows to core scratch. (R247) -/
  | adrain (h : Hdr) (fmt : DrainFmt) (a : Base) (row rows : Fin 1024) (stride : BitVec 16)
  /-- MLATCH: Latches an image slot into the shadow latch with a scale set. (R248) -/
  | mlatch (h : Hdr) (qm : Qm) (slot : Fin 256) (set : Fin 8)
  /-- MMUL: Runs a ternary pass on fed rows into accumulator rows. (R249) -/
  | mmul (h : Hdr) (ovr : Bool) (qm : Qm) (row : Fin 1024) (rows : Fin 64) (anc : BitVec 8)
  /-- MMULB: Runs a batched block-diagonal ternary pass. (R249) -/
  | mmulb (h : Hdr) (ovr : Bool) (qm : Qm) (row : Fin 1024) (rows : Fin 64) (anc : BitVec 8)
  /-- MZERO: Clears accumulator rows and their metadata. (R250) -/
  | mzero (h : Hdr) (qm : Qm) (row rows : Fin 1024)
  /-- BFENCE: Closes the open batch and opens the next. (R251) -/
  | bfence (h : Hdr) (d : SReg)
  /-- BWAITA: Holds the fragment until a sequencer batch completes. (R252) -/
  | bwaita (h : Hdr) (a : SReg)
  /-- WAITC: Holds until all but n engine operations of a class have reported. (R253) -/
  | waitc (h : Hdr) (cls : EClass) (n : Fin 256)
  /-- TSIG: Decrements a task counter after earlier writes perform. (R254) -/
  | tsig (h : Hdr) (task : Fin 4096) (lp : PReg)
  /-- TCOPY: Starts a tile copy described by a layout record. (R255) -/
  | tcopy (h : Hdr) (a : Base) (coords : Src) (x : Async)
  /-- GATH: Starts a gather of indexed elements. (R256) -/
  | gath (h : Hdr) (d a b : Base) (lsize : Fin 13) (count : Fin 1024) (x : Async)
  /-- COLL: Starts a collective operation described by a descriptor. (R327) -/
  | coll (h : Hdr) (a : Base) (task : Option (Fin 4096)) (lp : PReg)
  /-- TRAP: Parks the active lanes of each entry with TRAP_SW and delivers records. (R308) -/
  | trap (h : Hdr) (code : BitVec 32)
  /-- DBRK: Parks lanes with DEBUG_BREAK when a debugger is attached. (R308) -/
  | dbrk (h : Hdr) (code : BitVec 32)
  /-- RETT: Ends a trap handler after all engine counters reach zero. (R309) -/
  | rett (h : Hdr)
  /-- MFSR: Reads a system register into an s register. (R306) -/
  | mfsr (h : Hdr) (d a : SReg) (i : BitVec 16)
  /-- MTSR: Writes a system register from a handler. (R306) -/
  | mtsr (h : Hdr) (a : SReg) (i : BitVec 16) (v : SReg)
  /-- CKPT: Sets the checkpoint number and clears the retired count. (R310) -/
  | ckpt (h : Hdr) (a : SReg)
  /-- EVTX: Sends one software event per owner entry to the EFC. (R311) -/
  | evtx (h : Hdr) (a b : Src)
  /-- EVLD: Loads a field of the event record into a filter register. (R275) -/
  | evld (d : Fin 16) (f : EvField)
  /-- EMOV: Copies one filter register to another. (R275) -/
  | emov (d a : Fin 16)
  /-- EMOVI: Writes an immediate into a filter register or part of it. (R275) -/
  | emovi (d : Fin 16) (k : Fin 5) (i : BitVec 14)
  /-- EALU: Performs 64-bit filter arithmetic. (R276) -/
  | ealu (op : EaluOp) (d a : Fin 16) (b : ESrc)
  /-- ECMP: Compares filter values and writes 1 or 0. (R276) -/
  | ecmp (c : EcmpOp) (d a : Fin 16) (b : ESrc)
  /-- EBF: Branches forward conditionally or always. (R277) -/
  | ebf (c : EbfCond) (off : Fin 64)
  /-- EHASH: Mixes a key with a seed into a hash. (R278) -/
  | ehash (d a seed : Fin 16)
  /-- HINC: Adds a value to a sketch histogram word, saturating. (R279) -/
  | hinc (a b : Fin 16) (base : BitVec 14)
  /-- HMAX: Raises a sketch word to a maximum value. (R279) -/
  | hmax (a b : Fin 16) (base : BitVec 14)
  /-- CMSU: Updates four rows of a count-min sketch. (R280) -/
  | cmsu (a b : Fin 16) (k : CmK) (base : BitVec 10)
  /-- CMSQ: Queries the minimum of four count-min rows. (R280) -/
  | cmsq (d a : Fin 16) (k : CmK) (base : BitVec 10)
  /-- WSUM: Updates a windowed bucket sum and returns it. (R281) -/
  | wsum (d a b : Fin 16) (base : BitVec 14)
  /-- TRIG: Pulses a granted trigger line for one EFC cycle. (R282) -/
  | trig (line : Fin 8)
  /-- EMIT: Writes a record into the slot's output ring. (R282) -/
  | emit (a : Fin 14) (tag : Fin 16)
  /-- EEND: Ends the filter run and returns unused steps. (R282) -/
  | eend
  /-- RESULT_WRITEBACK: A variable-latency result is written and its scoreboard slot decremented. (R21) -/
  | resultWriteback (op : Nat) (lanes : Lanes) (err : Bool)
  /-- STORE_SOURCE_READ: A store's source registers are read and its slot decremented. (R21) -/
  | storeSourceRead (op : Nat)
  /-- WRITE_PERFORM: A write reaches the home of its location and becomes visible. (R186) -/
  | writePerform (op elem : Nat)
  /-- RMW_PERFORM: An atomic or arrival RMW is carried out at its unit. (R193) -/
  | rmwPerform (op elem : Nat)
  /-- RELEASE_PERFORM: A release performs once acknowledgements or flush markers are gathered. (R187) -/
  | releasePerform (op : Nat)
  /-- TRANSLATION_FILL: A translation fill or walk returns and the probe decides its lanes. (R172) -/
  | translationFill (core vf asid page : Nat)
  /-- PATH_SLOT_HOLD_LIMIT: A slot held 65 cycles by a scoreboard hold is given up. (R132) -/
  | pathSlotHoldLimit (grp frag : Nat)
  /-- PATH_SLOT_ISSUE_LIMIT: A slot is given up after 256 issued instructions. (R132) -/
  | pathSlotIssueLimit (grp frag : Nat)
  /-- MARKET_VISIT: The market visits a launch queue, seeds a workgroup and fills its group. (R121) -/
  | marketVisit
  /-- ADMISSION: A workgroup is admitted to a core after its reads return. (R118) -/
  | admission (unit : Nat)
  /-- WAVE_START: The next wave of a deterministic launch starts when all can be admitted. (R137) -/
  | waveStart (launch : Nat)
  /-- WORKGROUP_END: A workgroup ends when its lanes exited and its operations completed. (R118) -/
  | workgroupEnd (wg : Nat)
  /-- GROUP_END: A group ends after its last fragment and outstanding operations. (R112) -/
  | groupEnd (grp : Nat)
  /-- LAUNCH_COMPLETE: A launch completes, reports status and may decrement a task. (R136) -/
  | launchComplete (launch : Nat)
  /-- COPY_START: The copy engine takes an operation from a copy-issue queue. (R236) -/
  | copyStart (cluster : Nat)
  /-- COPY_COMPLETE: A copy completes, adds bytes, decrements its task and reports. (R235) -/
  | copyComplete (op : Nat) (err : Bool)
  /-- FEED_ROW_APPEND: The feeder decodes one row and appends it to the feed queue. (R246) -/
  | feedRowAppend (core : Nat)
  /-- DRAIN_ROW: The drain engine converts and writes one accumulator row. (R247) -/
  | drainRow (core : Nat)
  /-- DRAIN_COMPLETE: An ADRAIN completes and releases its range-scoreboard entry. (R247) -/
  | drainComplete (op : Nat)
  /-- BATCH_COMPLETE: A batch completes once its writes perform and BDONE counts it. (R231) -/
  | batchComplete (ctx : Nat)
  /-- BATCH_CHARGE_LIMIT: A batch charged 65,536 cycles is closed automatically. (R231) -/
  | batchChargeLimit (ctx : Nat)
  /-- CONTEXT_STOP: A requested stop takes effect at a batch boundary. (R232) -/
  | contextStop (ctx : Nat)
  /-- BARV_RETURN: Every arrival of a BARV returns and the fragment leaves its hold. (R208) -/
  | barvReturn (who : Issuer)
  /-- BWAIT_COMPLETE: A BWAIT reads a changed phase and releases its fragment. (R209) -/
  | bwaitComplete (who : Issuer)
  /-- BTEST_RETURN: BTEST's reads return and the predicate is set. (R210) -/
  | btestReturn (who : Issuer)
  /-- BWAITA_COMPLETE: The awaited batch completes and BWAITA releases its fragment. (R252) -/
  | bwaitaComplete (who : Issuer)
  /-- WAITC_COMPLETE: The covered operations report and WAITC completes or parks a failure. (R253) -/
  | waitcComplete (who : Issuer)
  /-- RETT_COMPLETE: RETT completes the save or restore once engine counters are zero. (R309) -/
  | rettComplete (grp : Nat)
  /-- FAULT_RECORD_DELIVERY: A fault record is written to the owner's fault ring when room exists. (R287) -/
  | faultRecordDelivery (fn : Nat) (hostFail : Bool)
  /-- STATUS_ENTRY_WRITE: The device writes a status entry and advances PROD. (R333) -/
  | statusEntryWrite (fn : Nat) (hostFail : Bool)
  /-- FLTRES_RESUME: Resumes the parked fragment named by a token. (R288) -/
  | fltresResume (fn : Nat) (token : BitVec 32)
  /-- FLTRES_KILL: Retires the fault domain of the record named by a token. (R288) -/
  | fltresKill (fn : Nat) (token : BitVec 32)
  /-- SLICE_END: Stops admissions below a node and lets its work run out. (R289) -/
  | sliceEnd (fn : Nat)
  /-- SLICE_END_COMPLETE: Nothing below the node is resident and launch RCBs become saved. (R289) -/
  | sliceEndComplete (fn : Nat)
  /-- PREEMPT: Requests hard pre-emption of workgroups on one core. (R290) -/
  | preempt (fn : Nat)
  /-- HANDLER_START: A settled victim group is saved by the device and its handler starts. (R291) -/
  | handlerStart (grp : Nat)
  /-- RESUME: Re-admits saved workgroups and continues launches from NEXTWG. (R294) -/
  | resume (fn : Nat)
  /-- RESTORE_ADMISSION: A saved workgroup is re-admitted and runs the restore entry. (R294) -/
  | restoreAdmission (unit : Nat)
  /-- RETIRE: Retires the named node and its workgroups. (R120) -/
  | retire (fn : Nat)
  /-- INVAL: Invalidates the function's RTB entries for an ASID and range. (R171) -/
  | inval (fn : Nat)
  /-- SETFA: Changes frame attributes, wiping the frames under the new key. (R337) -/
  | setfa (fn : Nat)
  /-- KEYGEN: Draws and loads a fresh key set for a key index. (R340) -/
  | keygen (fn : Nat)
  /-- KEYDEL: Unloads a key index not named by any frame. (R340) -/
  | keydel (fn : Nat)
  /-- LATE: Re-measures and restarts runtime firmware without reset. (R346) -/
  | late (fn : Nat) (signed : Bool) (version running family : Nat)
  /-- CONFSET: Records the confidential mode for the next full reset. (R347) -/
  | confset (fn : Nat)
  /-- RESET: Performs a full reset with scrub. (R348) -/
  | reset (fn : Nat)
  /-- ROTATE: Starts a link key rotation toward a peer. (R324) -/
  | rotate (fn : Nat)
  /-- DTLIM_EXPIRY: A deterministic workgroup still resident after DTLIM is retired with PREEMPT. (R296) -/
  | dtlimExpiry (fn : Nat)
  /-- CORE_FENCE: An uncorrectable error in core storage fences the core and moves its work. (R300) -/
  | coreFence (core : Nat) (hit : List Nat)
  /-- FLR: Function-level reset retires and scrubs a VF. (R343) -/
  | flr (vf : Nat)
  /-- LOCK_INTERFACE: Freezes a TDI's configuration. (R342) -/
  | lockInterface (vf : Nat)
  /-- START_INTERFACE: Moves a locked TDI to RUN and enables its queues. (R342) -/
  | startInterface (vf : Nat)
  /-- STOP_INTERFACE: Resets a TDI under R343 and returns it to CONFIG_UNLOCKED. (R342) -/
  | stopInterface (vf : Nat)
  /-- GET_VERSION: SPDM request for supported versions. (R345) -/
  | getVersion (fn : Nat)
  /-- GET_CAPABILITIES: SPDM request for capabilities. (R345) -/
  | getCapabilities (fn : Nat)
  /-- NEGOTIATE_ALGORITHMS: SPDM request to select algorithms. (R345) -/
  | negotiateAlgorithms (fn : Nat)
  /-- GET_DIGESTS: SPDM request for certificate chain digests. (R345) -/
  | getDigests (fn : Nat)
  /-- GET_CERTIFICATE: SPDM request for a certificate chain. (R345) -/
  | getCertificate (fn : Nat)
  /-- CHALLENGE: SPDM challenge for authentication. (R345) -/
  | challenge (fn : Nat)
  /-- GET_MEASUREMENTS: SPDM request for measurement blocks. (R345) -/
  | getMeasurements (fn index : Nat)
  /-- KEY_EXCHANGE: SPDM request opening a session key exchange. (R345) -/
  | keyExchange (fn : Nat)
  /-- FINISH: SPDM request completing session establishment. (R345) -/
  | finish (fn : Nat)
  /-- KEY_UPDATE: SPDM request updating session keys. (R345) -/
  | keyUpdate (fn : Nat)
  /-- HEARTBEAT: SPDM session keep-alive. (R345) -/
  | heartbeat (fn : Nat)
  /-- END_SESSION: SPDM request ending a session. (R345) -/
  | endSession (fn : Nat)
  /-- IDE_KM: IDE key management message setting stream keys. (R341) -/
  | ideKm (fn stream : Nat)
  /-- HOST_ACCESS: A host access reaches device memory or a window register over the link. (R190) -/
  | hostAccess (a : HostAcc)
  /-- HOST_COMPLETION_TIMEOUT: A host request is given up at the PCIe completion timeout. (R353) -/
  | hostCompletionTimeout (op : Nat)
  /-- GO: Starts a context as a new launch or resumes a stopped one. (R220) -/
  | go (fn ctx : Nat) (val : BitVec 64)
  /-- STOP: Requests a context stop at the next batch boundary. (R232) -/
  | stop (fn ctx : Nat)
  /-- LAUNCH_QUEUE_ENABLE: Enables a launch queue unless another queue of the owner has a different awning. (R332) -/
  | launchQueueEnable (fn q : Nat) (val : BitVec 64)
  /-- RING_ENABLE: Re-enables a status or fault ring so waiting entries are written. (R333) -/
  | ringEnable (fn ring : Nat) (val : BitVec 64)
  /-- CLUSTER_ENTRY_WRITE: Writes a cluster's fusion and quadrant owners unless busy. (R335) -/
  | clusterEntryWrite (cluster : Nat) (val : BitVec 64)
  /-- SCRATCH_RANGE_WRITE: Writes a scratch range unless it overlaps another. (R335) -/
  | scratchRangeWrite (die : Bool) (unit idx : Nat) (val : BitVec 64)
  /-- FNSTAT_WRITE: Clears sticky FNSTAT bits by W1C. (R331) -/
  | fnstatWrite (fn : Nat) (val : BitVec 64)
  /-- SLOT_ARM: Verifies a filter slot and arms it if it passes. (R273) -/
  | slotArm (fn die slot : Nat) (val : BitVec 64)
  /-- SLOT_DISARM: Disarms a slot so no further run starts. (R266) -/
  | slotDisarm (fn die slot : Nat) (val : BitVec 64)
  /-- EFSC_READ: A read of EFSC after disarm waits for started runs to end. (R284) -/
  | efscRead (fn die slot : Nat)
  /-- EFBG_READ: Reads EFBG and clears BDROP. (R269) -/
  | efbgRead (fn die v : Nat)
  /-- EFRP_READ: Reads the ring pointers and clears RDROP. (R271) -/
  | efrpRead (fn die ring : Nat)
  /-- FDROP_READ: Reads and clears a source's FDROP counter. (R263) -/
  | fdropRead (fn die src : Nat)
  /-- CLAIM: Claims a trace unit or counter bank. (R355) -/
  | claim (fn core : Nat) (bank : Bool)
  /-- RELEASE: Releases a held unit, stopping the trace unit. (R355) -/
  | release (fn core : Nat) (bank : Bool)
  /-- RVK: PF requests revocation of a VF's claim. (R356) -/
  | rvk (fn core : Nat) (bank : Bool)
  /-- REVOCATION_COMPLETE: The revocation status entry is written and the unit passes to the PF. (R356) -/
  | revocationComplete (core : Nat) (bank : Bool)
  /-- DBCMD_STOP: Stops a named group. (R358) -/
  | dbcmdStop (fn : Nat) (val : BitVec 64)
  /-- DBCMD_STEP: Steps one fragment of a stopped group by one instruction. (R302) -/
  | dbcmdStep (fn : Nat) (val : BitVec 64)
  /-- DBCMD_GO: Releases a group's debug stop. (R358) -/
  | dbcmdGo (fn : Nat) (val : BitVec 64)
  /-- PRECISE_STOP: A group stops when RETIRED would exceed SRET at the armed checkpoint. (R359) -/
  | preciseStop (grp fn : Nat)
  /-- TUCTL_WRITE: Configures and enables a trace unit, starting it if no start line is set. (R361) -/
  | tuctlWrite (fn core : Nat) (val : BitVec 64)
  /-- TUCTL_READ: Reads TUCTL and clears DROP. (R361) -/
  | tuctlRead (fn core : Nat)
  /-- TBDATA_READ: Reads 8 trace bytes and advances RD. (R361) -/
  | tbdataRead (fn core : Nat)
  /-- TRACE_TRIGGER: A trigger pulse starts or stops a trace unit or writes a TRIG packet. (R361) -/
  | traceTrigger (die : Nat)
  /-- CBSEL_WRITE: Selects a counter's event and zeroes the counter. (R365) -/
  | cbselWrite (fn core i : Nat) (val : BitVec 64)
  /-- REGISTER_WRITE: A write to a register with no row of its own. (R5) -/
  | registerWrite (fn off n : Nat) (val : BitVec 64) (tbit : Bool)
  /-- EVENT_RECORD: A source copies an event into its FIFO or drops it. (R263) -/
  | eventRecord (die : Nat) (rec : BitVec 128)
  /-- NOELIG_RUN_END: A stall run ends or reaches 65,535 cycles and an event is written. (R261) -/
  | noeligRunEnd (sched : Nat)
  /-- HIST_INTERVAL_END: A histogram interval ends, latches bins and emits HIST events. (R262) -/
  | histIntervalEnd (sched : Nat)
  /-- EFC_DISPATCH: The EFC takes a FIFO head and matches it to armed slots. (R264) -/
  | efcDispatch (die : Nat)
  /-- FILTER_RUN_START: A matched run starts in a free pipe if budget allows. (R269) -/
  | filterRunStart (die : Nat)
  /-- BUDGET_WINDOW_START: A 1 µs window starts and LEFT is reloaded from BUDG. (R268) -/
  | budgetWindowStart
  /-- POWER_EVALUATION: The power controller evaluates every 100 µs and may change P-state. (R350) -/
  | powerEvaluation (watts tj : Nat) (over10 under10 : Bool)
  /-- FLIT_RECEIVE: An in-package path receives a flit, checking its CRC. (R315) -/
  | flitReceive (path op elem : Nat) (crcOk : Bool)
  /-- PATH_DOWN: Eight failed retries take a path down and move traffic to its sibling. (R316) -/
  | pathDown (path : Nat)
  /-- DATA_FLIT: An external data flit is opened, acknowledged and delivered in order. (R320) -/
  | dataFlit (peer : Nat) (kg : Bool) (fctr seq : Nat) (tagOk : Bool) (c : Carried)
  /-- MARKER_FLIT: A flush marker is received and the peer replies when complete. (R321) -/
  | markerFlit (peer : Nat) (kg : Bool) (fctr seq : Nat) (count : Option Nat) (tagOk : Bool)
  /-- ACK_FLIT: An acknowledgement frees the sender's stored flits. (R320) -/
  | ackFlit (peer : Sealed) (seq : Nat)
  /-- REFUSAL_FLIT: A refused request is reported fatally to the issuing owner. (R319) -/
  | refusalFlit (peer : Sealed) (seq : Nat)
  /-- STALE_FLIT: A stale reply makes the sender reseal data or drop a contribution. (R324) -/
  | staleFlit (peer : Sealed) (flit : FlitName)
  /-- RETRANSMIT_TIMEOUT: A packet unacknowledged for 20 µs is sent again. (R320) -/
  | retransmitTimeout (peer seq : Nat)
  /-- TRANSPORT_GIVE_UP: 64 retransmissions or 10 ms without progress give up the request. (R320) -/
  | transportGiveUp (peer seq : Nat)
  /-- ROTATION_REQUEST: FCTR reaching 2^46 asks the security core for a rotation. (R323) -/
  | rotationRequest (peer : Nat)
  /-- KEY_GRACE_EXPIRY: KGRACE after the switch the old key slot is retired. (R324) -/
  | keyGraceExpiry (side : LinkSide)
  /-- CHUNK_REDUCE: A unit folds all contributions of a chunk and sends the result. (R327) -/
  | chunkReduce (coll chunk : Nat)
  /-- COLL_COMPLETE: A member writes DST and STAT and reports to COL. (R327) -/
  | collComplete (coll : Nat)
  /-- CTMO_EXPIRY: Missing contributions after CTMO complete the collective as timed out. (R327) -/
  | ctmoExpiry (coll : Nat)
  /-- POWER_ON: Power-on runs bring-up and the full wipe. (R351) -/
  | powerOn (b : BringUp)
  /-- PERST: PERST# assertion causes a full reset and wipe. (R348) -/
  | perst
  /-- LIFE_CYCLE_CHANGE: A fuse write moves the life-cycle state and wipes the device. (R348) -/
  | lifeCycleChange
  /-- D3HOT_ENTRY: Entering D3hot stops work and retires resident owners. (R349) -/
  | d3hotEntry
  /-- D3COLD: Power removal leading to a full reset. (R349) -/
  | d3cold
  /-- D3HOT_EXIT: The device returns from D3hot to D0, leaving DRAM self-refresh so that work can run again. (R349) -/
  | d3hotExit
  /-- DEBUG_STATE_CHANGE: The debug state moves between CLOSED, GUEST and OPEN, changing what the debug master and each function may reach. (R349) -/
  | debugStateChange (dbg : Fin 4)
  /-- FIRMWARE_IMAGE_LOAD: A good firmware image is loaded after a failed check, ending the CRS answers to configuration requests. (R344) -/
  | firmwareImageLoad (good : Bool) (version image : Nat)
  /-- EXTERNAL_PORT_DOWN: An external port stops being live, so packets are no longer sprayed over it and markers skip it. (R317) -/
  | externalPortDown (x : PortEnd)
  /-- EXTERNAL_PORT_UP: An external port becomes live at both ends and joins the ports over which the pair's packets are sprayed. (R317) -/
  | externalPortUp (x : PortEnd)
  /-- KEY_INSTALLED: The new link key is installed at both ends of a pair, so the sender switches generation, or a rekey ends and traffic resumes. (R324) -/
  | keyInstalled (k : KeyChange)
  /-- NAK_FLIT: A NAK of an FCTR arrives at the sender after a tag failure, and the sender sends that flit again unchanged. (R325) -/
  | nakFlit (peer : Nat) (flit : FlitName)
  deriving DecidableEq, Repr

end Sys2Proof
end

