-- ==== Sys2Proof/Machine/State.lean ====
section
/-! DEFINITION. The state of the KX-2048 as plain data: what the spec gives the machine, and at the end the model's own fields. Every
collection is a table in canonical form (Tab), so equal states are equal data. -/

namespace Sys2Proof.Machine

/-- An instant or a count; unbounded here, where the spec gives 64-bit counters (log 7). -/
abbrev Cycle := Nat

/-- State of a split-table entry (Table 5.4: FST). -/
inductive FState where
  | free | live | joining | parked
  deriving DecidableEq, Repr

/-- A register file of a group (R7). -/
inductive RFile where
  | v | s | p | q | status | fpctl | flags | check
  deriving DecidableEq, Repr

/-- One register result of one lane (or of the group, lane 0 standing for it). A q or control result writes the bits of `msk`. -/
structure Out where
  file : RFile
  reg : Nat
  lane : Nat
  val : Nat
  msk : Nat
  deriving DecidableEq, Repr

/-- A fixed-latency result (R19): readable from cycle `ready`, and the scoreboard slot that covers it with the split entries that hold
a copy of the counter (R21, R128). The list of a group stands in issue order; `age` is the cycle of issue (R22). -/
structure Pend where
  ready : Cycle
  age : Cycle
  outs : List Out
  slot : Nat
  heirs : List Nat
  deriving DecidableEq, Repr

/-- One element of an access of one lane (R115): its generic address, where it lives, how many bytes, the register it fills or comes from, and the value read
or to be written. `cmp` is ACAS's compare value, TMOV's source key, and otherwise whether the register is an s register; `sent` says that a
packet for it is with a peer link (R320). -/
structure Elem where
  lane : Nat
  idx : Nat
  gaddr : Nat
  key : Nat
  n : Nat
  reg : Nat
  val : Nat
  cmp : Nat
  got : Bool
  done : Bool
  sent : Bool
  deriving DecidableEq, Repr

/-- What an outstanding access does when it performs. -/
inductive OpKind where
  /-- Register results known at issue (R20). -/
  | result
  /-- LD, LDAQ, SLD: read when written back; `signed` extends (R115). -/
  | load (signed : Bool)
  /-- ST, STRL, BARI. -/
  | store
  /-- TMOV: elements are read, then written. -/
  | tmov
  /-- ATOM, ARED. -/
  | rmw (ty : WTy) (op : AtomOp)
  /-- ACAS. -/
  | cas
  /-- ATOMF, with the rounding mode of issue (R205). -/
  | rmwf (ty : AFmt) (op : AtomFOp) (rm : Nat)
  /-- BARV's arrivals (R196). -/
  | arrive (mode : BarMode)
  /-- FENCE (R206). -/
  | fence (ord : FenceOrd)
  /-- TSIG (R254). -/
  | signal (die task vf asid : Nat)
  /-- The reading of an engine instruction's source registers, which its slot covers (R240). -/
  | operands
  /-- The reading, as a load, of the 64-byte record that an instruction names, where it lies in a peer's memory (R157, R255, R318, R327). -/
  | fetch
  deriving DecidableEq, Repr

/-- A location that an access of a narrow scope has touched ahead of an operation that ppo orders before it (R180, R184, R185): until that operation
ends, the agents that the scope includes (R179) do not touch it, and agents outside may. `who` issued the access, for the workgroups `wg`. `trail` is a group
that has followed: it has touched the location since, and carries no order that the scopes of R185 count to the overtaken operation. -/
structure Pass where
  key : Nat
  n : Nat
  wrote : Bool
  scope : Scope
  who : Issuer
  wg : List Nat
  trail : Option Nat
  deriving DecidableEq, Repr

/-- An outstanding variable-latency result, access or release (R20, R186, R187, R193). `age` is the cycle of issue (R22); `passed` holds what has
overtaken it. -/
structure Op where
  who : Issuer
  age : Cycle
  passed : List Pass
  kind : OpKind
  slot : Nat
  heirs : List Nat
  elems : List Elem
  outs : List Out
  read : Bool
  acq : Bool
  rel : Bool
  released : Bool
  marked : Bool
  scope : Scope
  after : List Nat
  vf : Nat
  asid : Nat
  pc : Nat
  wg : List Nat
  deriving DecidableEq, Repr

/-- The operation of an engine instruction, with its operands as read at issue (R240). A copy that has started holds its layout record in `rec_`;
WLOAD's `line` is the base line P and `qm` its region. -/
inductive EngKind where
  | tcopy (addr rec_ : Nat) (coords : List Int)
  | gath (dst src idx size count : Nat)
  | wload (src slot qm line : Nat)
  | feed (fmt : FeedFmt) (addr rows anc stride : Nat)
  | drain (fmt : DrainFmt) (addr row rows stride : Nat)
  | coll (addr desc : Nat)
  deriving DecidableEq, Repr

/-- The accesses that pass the probe (R172). -/
inductive Access where
  | ld (ty : MTy) (m : Nat) (acq : Bool) (d : Nat) (shared : Bool)
  | st (ty : MTy) (m : Nat) (rel : Bool) (data : Src) (shared : Bool)
  | sld (ty : BTy) (m : Nat) (d : Nat)
  | tmov (k : Nat)
  | atom (ty : WTy) (op : AtomOp) (ord : Ord4) (d : Nat)
  | ared (ty : WTy) (op : AtomOp) (rel : Bool) (data : Src)
  | acas (ty : BTy) (ord : Ord4) (d : Nat)
  | atomf (ty : AFmt) (op : AtomFOp) (ord : Ord4) (d : Nat)
  | bari (bytes rel : Bool) (data : Src)
  | barv (mode : BarMode) (d : Nat)
  | bwait
  | btest (d : Nat)
  | launch (d : Nat) (arm : Bool) (task count : Nat)
  | engine (kind : EngKind) (bar task : Option Nat)
  deriving DecidableEq, Repr

/-- What one lane asks of an access: its address, a second address (TMOV), and its operands. -/
structure LaneReq where
  lane : Nat
  addr : Nat
  addr2 : Nat
  x : Nat
  y : Nat
  deriving DecidableEq, Repr

/-- A fault of one lane, by cause value (Table 16.1), with the address it names. -/
structure LaneFault where
  lane : Nat
  cause : Nat
  addr : Nat
  deriving DecidableEq, Repr

/-- A translation whose fill found a fault: for one owner, GVA and permission. -/
structure FillFault where
  vf : Nat
  asid : Nat
  addr : Nat
  need : Nat
  cause : Nat
  deriving DecidableEq, Repr

/-- A translation that a probe waits for: owner, the owner's KEY, the GVA and its page, the permission needed (1 R, 2 W, 4 A). -/
structure Miss where
  vf : Nat
  asid : Nat
  key : Nat
  addr : Nat
  page : Nat
  need : Nat
  deriving DecidableEq, Repr

/-- An access at its probe (R172): operands as read at issue, the fills still awaited, and the faults that fills have found; of the pages that an engine's span is
probed by, those that have `passed`, as address and permission (R256). `op` is the reading of a
record in a peer's memory that it waits for, `data` what that has read. -/
structure MemReq where
  acc : Access
  scope : Scope
  hdr : Hdr
  act : Nat
  lanes : List LaneReq
  missing : List Miss
  faults : List FillFault
  op : Option Nat
  data : Option Nat
  passed : List (Nat × Nat)
  deriving DecidableEq, Repr

/-- Why a fragment is held in its path slot after its instruction was selected (R132, R133). -/
inductive Hold where
  | none
  /-- An RTB miss (R172). -/
  | probe (r : MemReq)
  /-- BARV, until every arrival returns (R208). -/
  | barv (op : Nat) (r : MemReq)
  /-- BWAIT, until every word changes phase (R209); the words and the phase each lane names. -/
  | bwait (r : MemReq)
  /-- BTEST, until its reads return (R210). -/
  | btest (r : MemReq)
  /-- BWAITA for a batch of a context (R252). -/
  | bwaita (hdr : Hdr) (ctx batch act : Nat)
  /-- WAITC, for the operations of a class with numbers below `limit` (R253). -/
  | waitc (hdr : Hdr) (cls : EClass) (limit act : Nat)
  /-- RETT, until the engine counters are zero (R309). -/
  | rett (hdr : Hdr)
  deriving DecidableEq, Repr

/-- A fragment: its split-table entry (Table 5.4), issue state (Table 16.6), scoreboard counters (R21) and hold. `born` gives the age order;
`target` says that the PC was set by a transfer (R14); `sbm` names the slots last set by a memory access
(Table 14.3). -/
structure Frag where
  fst : FState
  slot : Nat
  kix : Nat
  born : Nat
  mask : Nat
  pc : Nat
  gate : Cycle
  sb : Tab Nat
  iss : Nat
  holdSince : Option Cycle
  hold : Hold
  target : Bool
  sbm : Nat
  deriving DecidableEq, Repr

def Frag.empty : Frag :=
  { fst := .free, slot := 0, kix := 0, born := 0, mask := 0, pc := 0, gate := 0, sb := [], iss := 0, holdSince := none, hold := .none,
    target := false, sbm := 0 }

/-- A knot (Table 5.5); `ord` is its place in push order. -/
structure Knot where
  valid : Bool
  mask : Nat
  arr : Nat
  pc : Nat
  ord : Nat
  deriving DecidableEq, Repr

def Knot.empty : Knot := { valid := false, mask := 0, arr := 0, pc := 0, ord := 0 }

/-- An owner-table entry (Table 5.3), and the workgroup that it stands for: its number in `wgs`, its first lane, and the index
within the workgroup of lane 0 of the group (R125), its ASID context as read at admission (R167), and the HPAs of its launch's RCBs. -/
structure Owner where
  valid : Bool
  cls : Nat
  vf : Nat
  asid : Nat
  awn : Nat
  prio : Nat
  key : Nat
  sbase : Nat
  slen : Nat
  wg : Nat
  id : Nat
  lanes : Nat
  base : Int
  ctx : Nat
  chain : List Nat
  deriving DecidableEq, Repr

def Owner.empty : Owner :=
  { valid := false, cls := 0, vf := 0, asid := 0, awn := 0, prio := 0, key := 0, sbase := 0, slen := 0, wg := 0, id := 0, lanes := 0,
    base := 0, ctx := 0, chain := [] }

/-- A recorded engine failure of an owner-table entry (R241, R287): its record and NFAIL. -/
structure Failure where
  cls : EClass
  num : Nat
  cause : Nat
  addr : Nat
  pc : Nat
  nfail : Nat
  deriving DecidableEq, Repr

/-- A guest handler that a root handler has interrupted (R291): its function, code, save areas, eviction unit, which entry it runs, its
fragment, its FLAGS and its save-area header. -/
structure Guest where
  fn : Nat
  code : Nat
  area : Nat
  warea : Nat
  unit : Nat
  idx : Nat
  restore : Bool
  frag : Frag
  flags : DWord
  header : Tab DWord
  deriving DecidableEq, Repr

/-- A handler that runs in a victim group (R291, R292), as group `idx` of eviction unit `unit`. `frozen` holds the words of blocks 0x01 to 0x06 of
Table 17.2 by register number, `header` those of block 0x08, `shadow` the bank that s56 to s63 name, `inner` the bank of an interrupted
guest handler (block 0x07). `owners` and `pres` are what the device keeps of the victim's owner table and lanes, `vstatus` and `vflags` of
its STATUS and FLAGS, `clk` its logical clock (R139). -/
structure Handler where
  fn : Nat
  level : Nat
  restore : Bool
  cause : Nat
  code : Nat
  area : Nat
  warea : Nat
  unit : Nat
  idx : Nat
  owners : Tab Owner
  pres : Nat
  frozen : Tab DWord
  header : Tab DWord
  shadow : Tab DWord
  inner : Tab DWord
  guest : Option Guest
  clk : Nat
  failed : Bool
  vstatus : DWord
  vflags : DWord
  deriving DecidableEq, Repr

/-- A debug stop (R301, R358): who asked for it, the split entry of a step still to issue with the logical clock at its request, and 1 + the logical clock at
the last release, which a precise stop does not repeat (R359). -/
structure Stop where
  stopped : Bool
  fn : Nat
  step : Option Nat
  base : Nat
  passed : Nat
  deriving DecidableEq, Repr

def Stop.none : Stop := { stopped := false, fn := 0, step := Option.none, base := 0, passed := 0 }

/-- A vector group (R7, R10, R123 to R132), or the one-lane group of a sequencer context (R219). Lane registers are keyed by
16 · register + lane. For R22, `landed` holds the fixed-latency results of the cycle, and `mix`, while an instruction reads its operands, the s
registers of which some lanes read what an outstanding write brings. -/
structure Group where
  live : Bool
  order : Nat
  code : Nat
  regs : Nat
  v : Tab Word
  s : Tab DWord
  p : Tab Lanes
  q : Tab Lanes
  status : DWord
  fpctl : DWord
  flags : DWord
  check : DWord
  owners : Tab Owner
  pres : Nat
  frags : Tab Frag
  births : Nat
  knots : Tab Knot
  pushes : Nat
  waiting : List Nat
  pend : List Pend
  landed : List Pend
  mix : Tab (DWord × Nat)
  eng : Tab Nat
  engNum : Tab Nat
  fails : Tab Failure
  parkRec : Tab Nat
  retired : DWord
  ckptn : Nat
  clk : Nat
  wave : Option Nat
  gnum : Nat
  ocrd : Nat
  evict : Bool
  handler : Option Handler
  stop : Stop
  ending : Bool
  peersW : List Nat
  rpl : Bool
  deriving DecidableEq, Repr

def Failure.none : Failure := { cls := .cpy, num := 0, cause := 0, addr := 0, pc := 0, nfail := 0 }

def Group.empty : Group :=
  { live := false, order := 0, code := 0, regs := 0, v := [], s := [], p := [], q := [], status := 0, fpctl := 0, flags := 0, check := 0,
    owners := [], pres := 0, frags := [], births := 0, knots := [], pushes := 0, waiting := [], pend := [], landed := [], mix := [], eng := [], engNum := [], fails := [],
    parkRec := [], retired := 0, ckptn := 0, clk := 0, wave := none, gnum := 0, ocrd := 0, evict := false, handler := none,
    stop := Stop.none, ending := false, peersW := [], rpl := false }

/-- What a row of an array operation does to its entries: add, overwrite (MZERO too), or write the scale set of number `row`. -/
inductive PassKind where
  | add
  | set
  | scale
  deriving DecidableEq, Repr

/-- One row of a pass, of MZERO (no values: zeros) or of a latch's scales, issued and not yet performed in the bank (R222, R224, R228, R231); `cols` is
the mask of the columns still to perform. -/
structure PassRow where
  core : Nat
  row : Nat
  batch : Nat
  kind : PassKind
  vals : List Int
  cols : Nat
  deriving DecidableEq, Repr

/-- A sequencer context (R219 to R221, R231, R232). Its registers, its scoreboard and its PC (SQPC) stand in `g`, whose fragment 0 is the
context's instruction stream. While its code object is read from a peer's memory (R318), `load` is the operation that reads and `loaded` holds what has been read, by
location, as value + 1. -/
structure Ctx where
  g : Group
  code : DWord
  entry : DWord
  arg : DWord
  fpc : Nat
  state : Nat
  cause : Nat
  asidw : Nat
  bdone : Nat
  vf : Nat
  asid : Nat
  key : Nat
  owned : Bool
  batch : Nat
  nonempty : Bool
  closed : List (Nat × Nat)
  closedAt : Option DWord
  leftHold : Option DWord
  charge : Nat
  chain : Bool
  lastRows : Nat
  pendL : Nat
  latched : Bool
  stopping : Bool
  passes : List PassRow
  starts : Nat
  load : Option Nat
  loaded : Tab Nat
  deriving DecidableEq, Repr

def Ctx.empty : Ctx :=
  { g := Group.empty, code := 0, entry := 0, arg := 0, fpc := 0, state := 0, cause := 0, asidw := 0, bdone := 0, vf := 0, asid := 0, key := 0,
    owned := false, batch := 0, nonempty := false, closed := [], closedAt := none, leftHold := none, charge := 0, chain := false, lastRows := 0, pendL := 0, latched := false,
    stopping := false, passes := [], starts := 0, load := none, loaded := [] }

/-- A run of cycles in which a scheduler found no group eligible (R261): its reason, the oldest group (its order + 1, 0 for EMPTY), that group's slot and the owner
of its entry 0, the first cycle and the length. -/
structure Stall where
  cause : Nat
  grp : Nat
  slot : Nat
  vf : Nat
  asid : Nat
  start : Cycle
  len : Nat
  deriving DecidableEq, Repr

/-- A scheduler (R133): deficit counters, the order in which functions were chosen (most recent first), its stall run and the run that has ended (R261), its
histogram (R262) with the words latched at the last interval's end (R366: bins, then HINTV), and the cycle up to which these are counted. -/
structure Sched where
  def_ : Tab Int
  recent : List Nat
  run : Option Stall
  ended : List Stall
  hist : Tab Nat
  histStart : Cycle
  latched : Tab Nat
  seen : Cycle
  deriving DecidableEq, Repr

def Sched.empty : Sched :=
  { def_ := [], recent := [], run := none, ended := [], hist := [], histStart := 0, latched := [], seen := 0 }

/-- An entry of a range translation buffer (R171): the GVAs [lo, hi) of one owner, what they add (mod 2^64), where they lead (0 an HPA,
1 the host, 2 + p peer p: R318), the effective permissions, and the pair of ATTR and key (ATTR · 1024 + key, 0 clear). -/
structure RtbEntry where
  vf : Nat
  asid : Nat
  lo : Nat
  hi : Nat
  add : Nat
  tgt : Nat
  pair : Nat
  r : Bool
  w : Bool
  a : Bool
  deriving DecidableEq, Repr

/-- An entry of the range scoreboard (R194). -/
structure RangeEntry where
  grp : Nat
  lo : Nat
  hi : Nat
  op : Nat
  deriving DecidableEq, Repr

/-- A row of a feed queue (R211, R223): 128 grid values, and the anchor. -/
structure FeedRow where
  vals : List Int
  anc : Nat
  deriving DecidableEq, Repr

/-- A grant of core scratch (R119, R126): segment base and length in bytes, the workgroup, and its inbound counter (R242). -/
structure Seg where
  base : Nat
  len : Nat
  wg : Nat
  dead : Bool
  deriving DecidableEq, Repr

/-- The engines and tables of one core (R171, R194, R211, R236). -/
structure Core where
  fenced : Bool
  rtb : List RtbEntry
  ranges : List RangeEntry
  copyQ : List Nat
  feedQ : List Nat
  drainQ : List Nat
  rows : List FeedRow
  segs : List Seg
  accs : List Seg
  feedErr : Bool
  deriving DecidableEq, Repr

def Core.empty : Core :=
  { fenced := false, rtb := [], ranges := [], copyQ := [], feedQ := [], drainQ := [], rows := [], segs := [], accs := [], feedErr := false }

/-- An engine operation (R240 to R242), from its issue to its report. `num` is its number within its class in its group, `owner` the leader's
owner-table entry, `ocrd` and `hnd` the core that the group counts as its own and whether a handler issued it (R292, R295), `after` what was
outstanding before it (R182: Start). `taken` says that its engine has taken it from its queue, in the order of `turn`; `steps` counts rows done, `reads` and
`early` hold the elements read (their values + 1) and those written, `sent` those handed to a peer's link; `stale` says that a later WLOAD bars V (R244), `dest` is
the core-scratch interval that it writes (R194). -/
structure EngOp where
  cls : EClass
  num : Nat
  grp : Nat
  ent : Nat
  lane : Nat
  owner : Owner
  core : Nat
  ocrd : Nat
  hnd : Bool
  det : Bool
  pc : Nat
  kind : EngKind
  bar : Option Nat
  task : Option Nat
  since : Cycle
  after : List Nat
  taken : Bool
  turn : Nat
  steps : Nat
  reads : Tab Nat
  early : List Nat
  sent : List Nat
  stale : Bool
  dest : Option (Nat × Nat)
  bytes : Nat
  fail : Option (Nat × Nat)
  done : Bool
  deriving DecidableEq, Repr

/-- A latch of a region (R222): what MLATCH loaded; trits by column, physical rows in order. -/
structure Latch where
  loaded : Bool
  kind : Nat
  rows : Nat
  cols : List (List Int)
  set : Nat
  deriving DecidableEq, Repr

def Latch.empty : Latch := { loaded := false, kind := 0, rows := 0, cols := [], set := 0 }

/-- A code object in a cluster's code buffer (R76, R166). -/
structure Code where
  cluster : Nat
  vf : Nat
  addr : Nat
  dgst : List Byte
  text : List Byte
  consts : List Byte
  regs : Nat
  scr : Nat
  msafe : Bool
  det : Bool
  deriving DecidableEq, Repr

def Code.empty : Code :=
  { cluster := 0, vf := 0, addr := 0, dgst := [], text := [], consts := [], regs := 0, scr := 0, msafe := false, det := false }

/-- Where a launch came from: a queue (function, queue), a device launch queue, or a task (die, number). -/
inductive Origin where
  | queue (fn q idx : Nat)
  | dev (die vf : Nat)
  | task (die n : Nat)
  deriving DecidableEq, Repr

/-- A launch in progress (R116 to R121, R136, R137): its record, its chain of RCBs (GPAs of levels 3, 2 and 1), and its progress. -/
structure Launch where
  rec_ : Nat
  code : Nat
  vf : Nat
  asid : Nat
  awn : Nat
  pool : Nat
  cres : Bool
  key : Nat
  prio : Nat
  origin : Origin
  chain : List Nat
  elig : Bool
  next : Nat
  done : Nat
  waveEnd : Nat
  held : Bool
  retired : Bool
  restored : Nat
  status : Nat
  rpl : Bool
  deriving DecidableEq, Repr

/-- A resident or saved workgroup, which is a level-4 RCB (R117, R118, R165, R293). -/
structure Wg where
  launch : Nat
  num : Nat
  core : Nat
  origin : Nat
  lanes : Nat
  slots : Nat
  groups : List Nat
  left : Nat
  seg : Nat
  acr : Nat
  accBase : Nat
  blk : Option Nat
  age : Nat
  saved : Bool
  saving : Bool
  area : Nat
  pool : Nat
  ended : Bool
  wr : List (Nat × Nat)
  deriving DecidableEq, Repr

/-- A record submitted on the device (R157): under which owner, in which launch's priority class, and after which accesses of its group; `rec_` is what
LAUNCH.now has read. -/
structure DevRec where
  addr : Nat
  vf : Nat
  asid : Nat
  key : Nat
  awn : Nat
  prio : Nat
  task : Option (Nat × Nat)
  rec_ : Option Nat
  after : List Nat
  deriving DecidableEq, Repr

/-- A task-table entry (Table 5.7), with the awning, key and priority class of the owner that armed it (R157). -/
structure Task where
  lrec : Nat
  tst : Nat
  vf : Nat
  asid : Nat
  awn : Nat
  key : Nat
  prio : Nat
  cnt : Nat
  after : List Nat
  deriving DecidableEq, Repr

def Task.empty : Task := { lrec := 0, tst := 0, vf := 0, asid := 0, awn := 0, key := 0, prio := 0, cnt := 0, after := [] }

/-- A record that the market has seeded and that is to be admitted (R118, R369). -/
structure Admit where
  launch : Nat
  wg : Nat
  core : Nat
  slot : Nat
  first : Nat
  merged : Bool
  ent : Nat
  deriving DecidableEq, Repr

/-- A fault record of a function (R286, R287): waiting, delivered, and how it was resolved; `home` is the group slot whose position it takes. -/
structure FRec where
  word : Nat
  cause : Nat
  parked : Option (Nat × Nat)
  node : Nat
  notice : Bool
  delivered : Bool
  resolved : Nat
  home : Option Nat
  deriving DecidableEq, Repr

/-- A command that a function has outstanding, or work it started (R336, R289, R290); `noRun` says that the save pool had no run for a candidate (R334). -/
structure Cmd where
  op : Nat
  args : List Nat
  node : Nat
  start : Cycle
  victims : List Nat
  short : Bool
  noRun : Bool
  seq : Nat
  begun : Bool
  deriving DecidableEq, Repr

/-- What the device holds for one function outside its window registers (R287, R333, R336, R342, R345): among it the nodes under a slice end that it asked
for (R289; a node is numbered 0 for the root, otherwise its HPA + 1), the save-pool blocks in use (R334), the FLR in progress (1) or STOP_INTERFACE (2), and how many
completions its AER has logged (R341). -/
structure Func where
  token : Nat
  recs : Tab FRec
  faultWait : List Nat
  statWait : List Nat
  cmd : Option Cmd
  work : List Cmd
  tdis : Nat
  session : Nat
  lastMsg : Nat
  lastResp : Nat
  blocks : List Nat
  stops : List Nat
  fnReset : Nat
  guestOk : Bool
  aer : Nat
  deriving DecidableEq, Repr

def Func.empty : Func :=
  { token := 0, recs := [], faultWait := [], statWait := [], cmd := none, work := [], tdis := 0, session := 0, lastMsg := 0, lastResp := 0,
    blocks := [], stops := [], fnReset := 0, guestOk := false, aer := 0 }

/-- One step of the future: an issue by a fragment, context or pipe, an instruction whose probe goes on (R172), an event, or the begin of an EFC cycle
at a time, or the choices of the cycle, once what comes from outside has taken effect. -/
inductive Item where
  | issue (w : Issuer)
  | resume (w : Issuer)
  | event (i : Instr)
  | clock (t : Nat)
  | plan
  deriving DecidableEq, Repr

/-- A record in a source's FIFO (R263): the event, the carry count it took, and the time from which the EFC may dispatch it (R264). -/
structure EvRec where
  word : BitVec 128
  carry : Nat
  fromTime : Nat
  deriving DecidableEq, Repr

/-- A source's event FIFO (R263); `busy` counts the runs of its previous record that have neither ended nor been refused (R264). -/
structure Fifo where
  recs : List EvRec
  carry : Nat
  busy : Nat
  deriving DecidableEq, Repr

def Fifo.empty : Fifo := { recs := [], carry := 0, busy := 0 }

/-- A filter run (R264, R269, R272): matched, or in a pipe with its registers, PC and steps. `readyT` is the time of its next
instruction, `nlen`, `own` and `code` the NLEN, OWN and code words 0 to NLEN of its slot when it started: what is written into the slot after a disarming does not
reach it (R266, R273; log 52). `old` says that the slot has been disarmed since (R284). -/
structure Run where
  slot : Nat
  src : Nat
  word : BitVec 128
  carry : Nat
  regs : Tab DWord
  pc : Nat
  steps : Nat
  window : Nat
  readyT : Nat
  nlen : Nat
  own : Nat
  code : List Nat
  old : Bool
  deriving DecidableEq, Repr

/-- The event filter coprocessor of a die: the source after the one last dispatched, matched runs in order, the four pipes, the trigger
lines raised, the window, and the BUDG that loaded each LEFT. -/
structure Efc where
  next : Nat
  waiting : List Run
  pipes : Tab (Option Run)
  trig : Nat
  window : Nat
  loaded : Tab Nat
  deriving DecidableEq, Repr

def Efc.empty : Efc := { next := 0, waiting := [], pipes := [], trig := 0, window := 0, loaded := [] }

/-- A core's trace unit (R355, R361, R362): its claim with each function's last result (Table 22.2), Table 22.6, the packets lost since the last
one written, whether LOSS is due for packets that have been dropped, the cycle of the previous packet, the stream position of the previous SYNC, whether a SYNC is due, and `snap`, the packets that a SYNC of this cycle writes:
the traced group as it stood at the start of the cycle. -/
structure TraceUnit where
  hold : Option Nat
  rvk : Bool
  cst : Tab Nat
  en : Bool
  run : Bool
  gsl : Nat
  tsta : Nat
  tstp : Nat
  drop : Nat
  wr : Nat
  rd : Nat
  lost : Nat
  gap : Bool
  last : Cycle
  syncAt : Nat
  need : Bool
  snap : List (List Byte)
  deriving DecidableEq, Repr

def TraceUnit.empty : TraceUnit :=
  { hold := none, rvk := false, cst := [], en := false, run := false, gsl := 0, tsta := 0, tstp := 0, drop := 0, wr := 0, rd := 0, lost := 0, gap := false,
    last := 0, syncAt := 0, need := false, snap := [] }

/-- A core's counter bank (R355, R365): its claim, CBSEL and the value of each counter. -/
structure Bank where
  hold : Option Nat
  rvk : Bool
  cst : Tab Nat
  sel : Tab DWord
  val : Tab Nat
  deriving DecidableEq, Repr

def Bank.empty : Bank := { hold := none, rvk := false, cst := [], sel := [], val := [] }

/-- What a packet to a peer is for (R319 to R321, R327): element `elem` of operation `op`, a reply, a part of a contribution or of a chunk's result of a
collective, or one of `count` flush markers for a release. -/
inductive PackKind where
  | access (op elem : Nat)
  | reply (id : Nat) (data : List Byte)
  | contribution (coll part : Nat)
  | result (coll chunk part : Nat)
  | marker (op count : Nat)
  deriving DecidableEq, Repr

/-- A packet that waits for its acknowledgement (R317, R320, R323): sequence number, what it is, the generation and the counter of the first of its `flits` flits, how often
and when it was last sent. -/
structure Packet where
  seq : Nat
  kind : PackKind
  kg : Bool
  fctr : Nat
  flits : Nat
  tries : Nat
  sentAt : Nat
  deriving DecidableEq, Repr

/-- A packet that has arrived and waits for its turn (R320): its sequence number, that of the pair's packet to the same granule before it, and its request. -/
structure Inbound where
  seq : Nat
  prev : Option Nat
  req : PeerReq
  deriving DecidableEq, Repr

/-- Markers of one sequence number that have arrived (R321): how many there are to be, and the generation and counter of those that have come. -/
structure Markers where
  seq : Nat
  count : Nat
  got : List (Bool × Nat)
  deriving DecidableEq, Repr

/-- One peer link (R317 to R325): the next sequence number, the packets not acknowledged, the reads acknowledged and not answered, and when the pair last made progress;
the ports that are live at the far end. Of what is sent: the key slots (0 empty, 1 live, 2 retired), the generation in use and its counter, whether a rotation is
asked for, whether its key waits in the slot not in use, and the time of the last switch. Of what is received: the key slots, the newest generation, and the time of
the peer's switch; the tag failures since the last key, those of this device's flits that the peer has told of (R325), the rekeys, whether one runs and whether the pair is down. And what has arrived: the next sequence number
to deliver, those delivered ahead of it, packets that wait for others of their granule, and markers. -/
structure Peer where
  seq : Nat
  out : List Packet
  waiting : List Packet
  progress : Nat
  ports : Nat
  slot0 : Nat
  slot1 : Nat
  kg : Bool
  fctr : Nat
  asked : Bool
  fresh : Bool
  switched : Option Nat
  in0 : Nat
  in1 : Nat
  inKg : Bool
  inSwitched : Option Nat
  tagFail : List (Bool × Nat)
  naks : List (Bool × Nat)
  rekeys : List Nat
  rekeying : Bool
  down : Bool
  inNext : Nat
  seen : List Nat
  held : List Inbound
  markers : List Markers
  deriving DecidableEq, Repr

def Peer.empty : Peer :=
  { seq := 0, out := [], waiting := [], progress := 0, ports := 4095, slot0 := 0, slot1 := 0, kg := false, fctr := 0, asked := false, fresh := false, switched := none,
    in0 := 0, in1 := 0, inKg := false, inSwitched := none, tagFail := [], naks := [], rekeys := [], rekeying := false, down := false, inNext := 0, seen := [], held := [],
    markers := [] }

/-- An eviction unit (R290 to R294, R314): a workgroup with its groups, or a group with its workgroups. `areas` and `garea` are the GVAs of their save
areas, `lens` the blocks of 64 KiB that each takes (R334); `groups` holds what the device keeps of each saved group, `left` how many are still to be saved; `resumed` says that it waits for its
re-admission, `failed` that a handler has faulted, `cause` is 0x22 or 0x29; `notes` are writes of STAT that wait for SETFA: area, fragment and value (R337). -/
structure Saved where
  fn : Nat
  rqn : Nat
  wgs : List Nat
  grps : List Nat
  areas : List Nat
  lens : List Nat
  garea : List Nat
  groups : List Group
  left : Nat
  resumed : Bool
  failed : Bool
  cause : Nat
  node : Option Nat
  notes : List (Nat × Nat × Nat)
  deriving DecidableEq, Repr

/-- A part of a contribution to a collective, as a unit received it (R317, R327, R329); `stale` says that it arrived under a key no longer live. -/
structure Contrib where
  comm : Nat
  tag : Nat
  rank : Nat
  kind : Nat
  ty : Nat
  opr : Nat
  root : Nat
  cnt : Nat
  part : Nat
  data : List Byte
  stale : Bool
  deriving DecidableEq, Repr

/-- A part of what a member receives of a chunk of a result, with the chunk's outcome (R317, Table 19.5). -/
structure ChunkRes where
  comm : Nat
  tag : Nat
  chunk : Nat
  stat : Nat
  part : Nat
  data : List Byte
  deriving DecidableEq, Repr

/-- What the security core, the power controller and the I/O die hold (R317, R341, R344 to R351, R367): confidential mode and the mode recorded for the
next full reset, the life-cycle state (0 TEST), the power state (0 D0, 1 D3hot, 2 D3cold, 3 stopped at 120 °C), the P-state, the peer ID, whether
configuration requests are answered with CRS, which images the ROM and the security firmware have started, the firmware versions and digests, CDI0 and CDI1, the
IDE streams bound (function · 64 + stream), the throttle log and its next entry, the external ports that are live, the length of the arithmetic cycle in
progress, and the count of corrected errors in the management telemetry (R298). -/
structure Sec where
  conf : Bool
  confNext : Bool
  lcs : Nat
  power : Nat
  pstate : Nat
  peerId : Nat
  crs : Bool
  secOk : Bool
  rtOk : Bool
  secVer : Nat
  secImg : Nat
  rtVer : Nat
  rtImg : Nat
  cdi0 : BitVec 256
  cdi1 : BitVec 256
  streams : Tab Nat
  log : Tab DWord
  logNext : Nat
  ports : Nat
  span : Nat
  corrected : Nat
  deriving DecidableEq, Repr

/-- DESIGN CHOICE (log 5): the state of a device that has been brought up, in life-cycle state TEST, not confidential, in D0 and P0, peer ID 0, all twelve
ports live. -/
def Sec.reset : Sec :=
  { conf := false, confNext := false, lcs := 0, power := 0, pstate := 0, peerId := 0, crs := false, secOk := true, rtOk := true, secVer := 0, secImg := 0,
    rtVer := 0, rtImg := 0, cdi0 := 0, cdi1 := 0, streams := [], log := [], logNext := 0, ports := 4095, span := 3080, corrected := 0 }

/-- Reset values of the window registers that hold what is written: DTLIM and CTMO (Table 20.5), KGRACE and the core masks (R335),
HLOG of EFHI (Table 14.8); every other register reads 0. -/
def winReset (key : Nat) : DWord :=
  let off := key % 67108864
  if 4194304 ≤ off ∧ off < 4198400 ∧ off % 64 = 8 then BitVec.ofNat 64 (1700000 * 536870912)
  else if 4194304 ≤ off ∧ off < 4198400 ∧ off % 64 = 16 then BitVec.ofNat 64 (100000 * 4294967296)
  else if 4227072 ≤ off ∧ off < 4243456 then 1
  else if off = 4292608 then 1000
  else if 16777216 ≤ off ∧ off % 8388608 = 23296 then BitVec.ofNat 64 16
  else 0

/-- DESIGN CHOICE (log 9): the spec gives no value that firmware writes into the root. Its budgets bound nothing, its WT is 0, its FD is 1. -/
def rootReset : Nat :=
  4294967295 * 2 ^ 352 + 4294967295 * 2 ^ 320 + 4294967295 * 2 ^ 288 + 4294967295 * 2 ^ 256 + 2048 * 2 ^ 240 + 2 ^ 57

/-- The whole machine. -/
structure State where
  /-- Memory of every level (R160): see Machine/Ops for the key of each location. -/
  mem : Memory
  /-- The arithmetic-clock cycle counter (R259, R305). -/
  cycle : Cycle
  /-- Elapsed time in units of 1/2618 ns, of which EFC cycles, microseconds and arithmetic cycles are made (R1, R265, R350). -/
  time : Nat
  /-- Group slots, keyed core · 256 + slot (Table 4.4). -/
  groups : Tab Group
  /-- Sequencer contexts, keyed cluster · 4 + k (R219). -/
  ctxs : Tab Ctx
  /-- Schedulers, keyed core · 4 + i (R133). -/
  scheds : Tab Sched
  /-- Cores, keyed by MOVS.coord (Table 4.4). -/
  cores : Tab Core
  /-- Accumulators: 48-bit values (R44), keyed (core · 1024 + row) · 128 + column. -/
  acc : Tab Int
  /-- Accumulator row metadata (Table 11.5), keyed core · 1024 + row. -/
  accMeta : Tab Nat
  /-- Scale sets (R211), keyed (core · 8 + set) · 128 + column. -/
  scales : Tab Word
  /-- Latches (R222), keyed 2 · context + (0 active, 1 shadow), of the context that leads the region. -/
  latches : Tab Latch
  /-- Image tables (Table 11.3), keyed cluster · 256 + slot. -/
  images : Tab DWord
  /-- Code objects in the code buffers (R76, R166), by number. -/
  codes : Tab Code
  /-- Outstanding results, accesses and releases (R20, R186, R187), by number in order of issue. -/
  ops : Tab (Option Op)
  /-- Engine operations from issue to report (R240), by number in order of issue. -/
  engs : Tab (Option EngOp)
  /-- Launches in progress (R116), by number. -/
  launches : Tab (Option Launch)
  /-- Resident and saved workgroups: the level-4 RCBs (R117), by number. -/
  wgs : Tab (Option Wg)
  /-- Device launch queues of 32 records (R157), keyed die · 64 + function. -/
  devq : Tab (List DevRec)
  /-- Task tables (Table 5.7), keyed die · 4096 + task. -/
  tasks : Tab Task
  /-- Workgroups that the market has seeded or filled and that wait for their admission (R118, R369). -/
  admits : List Admit
  /-- The queue after the last seed's (R121), as function · 16 + queue, then the device queues, then dispatched tasks. -/
  mktNext : Nat
  /-- The core on which the market last placed a new group (R121); DESIGN CHOICE: at reset the search begins at core 0 (log 6). -/
  mktCore : Nat
  /-- Launch records of dispatched tasks that the market is to take (R136). -/
  dispatched : List DevRec
  /-- Functions 0 to 63 (R330 to R336). -/
  fns : Tab Func
  /-- Registers of the function windows that hold what was written (R330), keyed function · 2^26 + offset. -/
  win : Tab DWord
  /-- Frame attributes (R170): ATTR · 1024 + key, by 64 KiB frame; 0 is clear. -/
  frames : Tab Nat
  /-- Root slots in use (R339). -/
  slotsUsed : Nat
  /-- The counters of integrity frames (R339), as raises since SETFA made them fresh (log 47): of a line by HPA / 64, of a counter line by 2^44 + HPA / 512, and
  of a frame's root by 2^45 + HPA / 65536. -/
  integ : Tab Nat
  /-- Loaded key indices (R340): 0 not loaded, otherwise 1 + the owner. -/
  keys : Tab Nat
  /-- Event FIFOs (R263), keyed die · 65536 + CLS · 4096 + UNIT. -/
  fifos : Tab Fifo
  /-- Event filter coprocessors, by die (R264 to R272). -/
  efcs : Tab Efc
  /-- Trace units, by core (R361). -/
  traces : Tab TraceUnit
  /-- Counter banks, by core (R365). -/
  banks : Tab Bank
  /-- The debug state (R349): 0 CLOSED, 1 GUEST, 2 OPEN; CLOSED at reset (log 5). -/
  dbg : Nat
  /-- The root RCB, which the device holds itself (R117, R118): 1,024 bits (Table 5.2). -/
  root : Nat
  /-- The core after the one whose queue the copy engine of a cluster last took from (R236). -/
  copyTurn : Tab Nat
  /-- Peer links, by peer ID (R317 to R325). -/
  peers : Tab Peer
  /-- Eviction units, from their selection to the restore (R290 to R294, R314), by number. -/
  saved : Tab (Option Saved)
  /-- Contributions that the collective unit holds (R327). -/
  contribs : List Contrib
  /-- Chunks of results that have arrived (R327). -/
  results : List ChunkRes
  /-- In-package paths (R315, R316), keyed 2 · pair + path: 0, or 256 where the path is down, or the consecutive failures of the flit that is being sent again + 512 ·
  (1 + the number of that flit). -/
  paths : Tab Nat
  /-- The security core, the power controller and the I/O die. -/
  sec : Sec
  /-- MSI-X messages raised (R333, R341), keyed 2 · function + vector. -/
  msix : Tab Nat
  /-- MODEL'S OWN: who issues the encoded instruction that exec runs (log 1). -/
  turn : Issuer
  /-- MODEL'S OWN: what the steps before the next tick do (log 1). -/
  agenda : List Item
  /-- MODEL'S OWN: what the outside world will do, with the cycle from which it happens (log 1). -/
  inputs : List (Nat × Instr)
  /-- MODEL'S OWN: lines of the pattern die in which the outside world has left an uncorrectable error (log 1), keyed (cluster · 256 + column) · 4096 + line. -/
  badLines : Tab Nat
  /-- MODEL'S OWN: 64-byte lines of memory that hold an uncorrectable error, or fail their integrity check (R170, R298, R299; log 47), by key / 64. -/
  badMem : Tab Nat
  /-- MODEL'S OWN: the locations that will come to hold an uncorrectable error, with the cycle from which they do (R298, log 47). -/
  errors : List (Nat × Nat)
  /-- MODEL'S OWN: the time at which the EFC cycle in progress began (R264, log 1). -/
  efcNow : Nat
  /-- MODEL'S OWN: what the last read over the host link returned (R330, R341); none for Unsupported Request, or where a read has not completed. -/
  hostReply : Option (List Byte)
  /-- MODEL'S OWN: how many free values have been drawn (log 2). DESIGN CHOICE. -/
  fresh : Nat
  /-- MODEL'S OWN: the next number of an operation, launch, workgroup or code copy (log 1). -/
  nextId : Nat
  deriving DecidableEq, Repr

/-- The machine right after a full reset: every table is wiped (R348). -/
def State.reset : State :=
  { mem := [], cycle := 0, time := 0, groups := [], ctxs := [], scheds := [], cores := [], acc := [], accMeta := [],
    scales := [], latches := [], images := [], codes := [], ops := [], engs := [], launches := [], wgs := [], devq := [],
    tasks := [], admits := [], mktNext := 0, mktCore := 2047, dispatched := [], fns := [], win := [], frames := [],
    slotsUsed := 0, integ := [], keys := [], fifos := [], efcs := [], traces := [], banks := [], dbg := 0, root := rootReset, copyTurn := [],
    peers := [], saved := [], contribs := [], results := [], paths := [], sec := Sec.reset, msix := [], turn := .grp 0 0,
    agenda := [], inputs := [], badLines := [], badMem := [], errors := [], efcNow := 0, hostReply := none, fresh := 0, nextId := 1 }

/-- Why a step has no next state. -/
inductive Fault where
  /-- Raised by a step or an instruction whose issuer (State.turn) names no fragment, context or filter pipe that could issue: no run from
  reset reaches it, since the agenda names only live issuers. Safe: the machine stops where the spec gives nothing to do. -/
  | noIssuer
  deriving DecidableEq, Repr

/-- Why an instruction has no meaning here. -/
inductive Refusal where
  /-- Raised by an arm of exec whose instruction has no meaning yet. Safe. -/
  | notModelled (mnemonic : String)
  deriving DecidableEq, Repr

/-- One write to the state: the only way in which a meaning changes it. -/
inductive Effect where
  | mem (k : Nat) (v : Byte)
  | cycle (v : Cycle)
  | time (v : Nat)
  | groups (k : Nat) (v : Group)
  | ctxs (k : Nat) (v : Ctx)
  | scheds (k : Nat) (v : Sched)
  | cores (k : Nat) (v : Core)
  | acc (k : Nat) (v : Int)
  | accMeta (k : Nat) (v : Nat)
  | scales (k : Nat) (v : Word)
  | latches (k : Nat) (v : Latch)
  | images (k : Nat) (v : DWord)
  | codes (k : Nat) (v : Code)
  | ops (k : Nat) (v : (Option Op))
  | engs (k : Nat) (v : (Option EngOp))
  | launches (k : Nat) (v : (Option Launch))
  | wgs (k : Nat) (v : (Option Wg))
  | devq (k : Nat) (v : (List DevRec))
  | tasks (k : Nat) (v : Task)
  | admits (v : List Admit)
  | mktNext (v : Nat)
  | mktCore (v : Nat)
  | dispatched (v : List DevRec)
  | fns (k : Nat) (v : Func)
  | win (k : Nat) (v : DWord)
  | frames (k : Nat) (v : Nat)
  | slotsUsed (v : Nat)
  | integ (k : Nat) (v : Nat)
  | raise (k n : Nat)
  | keys (k : Nat) (v : Nat)
  | fifos (k : Nat) (v : Fifo)
  | efcs (k : Nat) (v : Efc)
  | traces (k : Nat) (v : TraceUnit)
  | banks (k : Nat) (v : Bank)
  | dbg (v : Nat)
  | root (v : Nat)
  | copyTurn (k : Nat) (v : Nat)
  | peers (k : Nat) (v : Peer)
  | saved (k : Nat) (v : (Option Saved))
  | contribs (v : List Contrib)
  | results (v : List ChunkRes)
  | paths (k : Nat) (v : Nat)
  | sec (v : Sec)
  | msix (k : Nat) (v : Nat)
  | turn (v : Issuer)
  | agenda (v : List Item)
  | inputs (v : List (Nat × Instr))
  | badLines (k : Nat) (v : Nat)
  | badMem (k : Nat) (v : Nat)
  | errors (v : List (Nat × Nat))
  | efcNow (v : Nat)
  | hostReply (v : Option (List Byte))
  | fresh (v : Nat)
  | nextId (v : Nat)
  | memClear (lo n : Nat)
  | wipe (v : Sec)
  deriving DecidableEq, Repr

/-- Memory that a wipe leaves: the host's, which is not the device's. -/
def keepHost : Memory → Memory
  | [] => []
  | p :: t => if p.1 < 18446744073709551616 then keepHost t else p :: keepHost t

/-- Zero the bytes [lo, lo + n). -/
def clearRange (lo n : Nat) : Memory → Memory
  | [] => []
  | p :: t => if lo ≤ p.1 ∧ p.1 < lo + n then clearRange lo n t else p :: clearRange lo n t

/-- Raise a 64-bit counter (R339). -/
def raised (t : Tab Nat) (k : Nat) : Tab Nat := Tab.put (fun _ => 0) t k ((Tab.get (fun _ => 0) t k + 1) % 2 ^ 64)

/-- A write of n bytes at an HPA raises the counters of each line that it touches and that lies in an integrity frame: of the line, of its counter line, and of
the root (R339). -/
def State.raises (s : State) (k n : Nat) : Tab Nat :=
  if s.slotsUsed = 0 then s.integ
  else
    (List.range ((k + n - 1) / 64 + 1 - k / 64)).foldl (fun t j =>
      let line := k / 64 + j
      if (Tab.get (fun _ => 0) s.frames (line / 1024)) / 1024 = 2 then
        raised (raised (raised t line) (17592186044416 + line / 8)) (35184372088832 + line / 1024)
      else t) s.integ

/-- The wipe of R348: everything that the device holds returns to its reset value; the model's own fields (but for events still to be written) and the host's
memory stay, `v` is what
the security core keeps. -/
def State.wiped (s : State) (v : Sec) : State :=
  { State.reset with mem := keepHost s.mem, sec := v, turn := s.turn, agenda := s.agenda, inputs := s.inputs.filter (fun p => match p.2 with | .eventRecord _ _ => false | _ => true), errors := s.errors, hostReply := s.hostReply, msix := s.msix, fresh := s.fresh, nextId := s.nextId }

/-- Carry out one write. -/
def Effect.run (s : State) : Effect → State
  | .mem k v => { s with mem := Tab.put (zeroByte) s.mem k v }
  | .cycle v => { s with cycle := v }
  | .time v => { s with time := v }
  | .groups k v => { s with groups := Tab.put (fun _ => Group.empty) s.groups k v }
  | .ctxs k v => { s with ctxs := Tab.put (fun _ => Ctx.empty) s.ctxs k v }
  | .scheds k v => { s with scheds := Tab.put (fun _ => Sched.empty) s.scheds k v }
  | .cores k v => { s with cores := Tab.put (fun _ => Core.empty) s.cores k v }
  | .acc k v => { s with acc := Tab.put (fun _ => 0) s.acc k v }
  | .accMeta k v => { s with accMeta := Tab.put (fun _ => 0) s.accMeta k v }
  | .scales k v => { s with scales := Tab.put (fun _ => 0) s.scales k v }
  | .latches k v => { s with latches := Tab.put (fun _ => Latch.empty) s.latches k v }
  | .images k v => { s with images := Tab.put (fun _ => 0) s.images k v }
  | .codes k v => { s with codes := Tab.put (fun _ => Code.empty) s.codes k v }
  | .ops k v => { s with ops := Tab.put (fun _ => none) s.ops k v }
  | .engs k v => { s with engs := Tab.put (fun _ => none) s.engs k v }
  | .launches k v => { s with launches := Tab.put (fun _ => none) s.launches k v }
  | .wgs k v => { s with wgs := Tab.put (fun _ => none) s.wgs k v }
  | .devq k v => { s with devq := Tab.put (fun _ => []) s.devq k v }
  | .tasks k v => { s with tasks := Tab.put (fun _ => Task.empty) s.tasks k v }
  | .admits v => { s with admits := v }
  | .mktNext v => { s with mktNext := v }
  | .mktCore v => { s with mktCore := v }
  | .dispatched v => { s with dispatched := v }
  | .fns k v => { s with fns := Tab.put (fun _ => Func.empty) s.fns k v }
  | .win k v => { s with win := Tab.put (winReset) s.win k v }
  | .frames k v => { s with frames := Tab.put (fun _ => 0) s.frames k v }
  | .slotsUsed v => { s with slotsUsed := v }
  | .integ k v => { s with integ := Tab.put (fun _ => 0) s.integ k v }
  | .raise k n => { s with integ := s.raises k n }
  | .keys k v => { s with keys := Tab.put (fun _ => 0) s.keys k v }
  | .fifos k v => { s with fifos := Tab.put (fun _ => Fifo.empty) s.fifos k v }
  | .efcs k v => { s with efcs := Tab.put (fun _ => Efc.empty) s.efcs k v }
  | .traces k v => { s with traces := Tab.put (fun _ => TraceUnit.empty) s.traces k v }
  | .banks k v => { s with banks := Tab.put (fun _ => Bank.empty) s.banks k v }
  | .dbg v => { s with dbg := v }
  | .root v => { s with root := v }
  | .copyTurn k v => { s with copyTurn := Tab.put (fun _ => 0) s.copyTurn k v }
  | .peers k v => { s with peers := Tab.put (fun _ => Peer.empty) s.peers k v }
  | .saved k v => { s with saved := Tab.put (fun _ => none) s.saved k v }
  | .contribs v => { s with contribs := v }
  | .results v => { s with results := v }
  | .paths k v => { s with paths := Tab.put (fun _ => 0) s.paths k v }
  | .sec v => { s with sec := v }
  | .msix k v => { s with msix := Tab.put (fun _ => 0) s.msix k v }
  | .turn v => { s with turn := v }
  | .agenda v => { s with agenda := v }
  | .inputs v => { s with inputs := v }
  | .badLines k v => { s with badLines := Tab.put (fun _ => 0) s.badLines k v }
  | .badMem k v => { s with badMem := Tab.put (fun _ => 0) s.badMem k v }
  | .errors v => { s with errors := v }
  | .efcNow v => { s with efcNow := v }
  | .hostReply v => { s with hostReply := v }
  | .fresh v => { s with fresh := v }
  | .nextId v => { s with nextId := v }
  | .memClear lo n => { s with mem := clearRange lo n s.mem }
  | .wipe v => s.wiped v

/-- Carry out writes in order. -/
def runAll (s : State) : List Effect → State
  | [] => s
  | e :: l => runAll (e.run s) l

/-- Read the table mem. -/
def State.memAt (s : State) (k : Nat) : Byte := Tab.get (zeroByte) s.mem k

/-- Read the table groups. -/
def State.groupsAt (s : State) (k : Nat) : Group := Tab.get (fun _ => Group.empty) s.groups k

/-- Read the table ctxs. -/
def State.ctxsAt (s : State) (k : Nat) : Ctx := Tab.get (fun _ => Ctx.empty) s.ctxs k

/-- Read the table scheds. -/
def State.schedsAt (s : State) (k : Nat) : Sched := Tab.get (fun _ => Sched.empty) s.scheds k

/-- Read the table cores. -/
def State.coresAt (s : State) (k : Nat) : Core := Tab.get (fun _ => Core.empty) s.cores k

/-- Read the table acc. -/
def State.accAt (s : State) (k : Nat) : Int := Tab.get (fun _ => 0) s.acc k

/-- Read the table accMeta. -/
def State.accMetaAt (s : State) (k : Nat) : Nat := Tab.get (fun _ => 0) s.accMeta k

/-- Read the table scales. -/
def State.scalesAt (s : State) (k : Nat) : Word := Tab.get (fun _ => 0) s.scales k

/-- Read the table latches. -/
def State.latchesAt (s : State) (k : Nat) : Latch := Tab.get (fun _ => Latch.empty) s.latches k

/-- Read the table images. -/
def State.imagesAt (s : State) (k : Nat) : DWord := Tab.get (fun _ => 0) s.images k

/-- Read the table codes. -/
def State.codesAt (s : State) (k : Nat) : Code := Tab.get (fun _ => Code.empty) s.codes k

/-- Read the table ops. -/
def State.opsAt (s : State) (k : Nat) : Option Op := Tab.get (fun _ => none) s.ops k

/-- Read the table engs. -/
def State.engsAt (s : State) (k : Nat) : Option EngOp := Tab.get (fun _ => none) s.engs k

/-- Read the table launches. -/
def State.launchesAt (s : State) (k : Nat) : Option Launch := Tab.get (fun _ => none) s.launches k

/-- Read the table wgs. -/
def State.wgsAt (s : State) (k : Nat) : Option Wg := Tab.get (fun _ => none) s.wgs k

/-- Read the table devq. -/
def State.devqAt (s : State) (k : Nat) : List DevRec := Tab.get (fun _ => []) s.devq k

/-- Read the table tasks. -/
def State.tasksAt (s : State) (k : Nat) : Task := Tab.get (fun _ => Task.empty) s.tasks k

/-- Read the table fns. -/
def State.fnsAt (s : State) (k : Nat) : Func := Tab.get (fun _ => Func.empty) s.fns k

/-- Read the table win. -/
def State.winAt (s : State) (k : Nat) : DWord := Tab.get (winReset) s.win k

/-- Read the table frames. -/
def State.framesAt (s : State) (k : Nat) : Nat := Tab.get (fun _ => 0) s.frames k

/-- Read the table integ. -/
def State.integAt (s : State) (k : Nat) : Nat := Tab.get (fun _ => 0) s.integ k

/-- Read the table keys. -/
def State.keysAt (s : State) (k : Nat) : Nat := Tab.get (fun _ => 0) s.keys k

/-- Read the table fifos. -/
def State.fifosAt (s : State) (k : Nat) : Fifo := Tab.get (fun _ => Fifo.empty) s.fifos k

/-- Read the table efcs. -/
def State.efcsAt (s : State) (k : Nat) : Efc := Tab.get (fun _ => Efc.empty) s.efcs k

/-- Read the table traces. -/
def State.tracesAt (s : State) (k : Nat) : TraceUnit := Tab.get (fun _ => TraceUnit.empty) s.traces k

/-- Read the table banks. -/
def State.banksAt (s : State) (k : Nat) : Bank := Tab.get (fun _ => Bank.empty) s.banks k

/-- Read the table copyTurn. -/
def State.copyTurnAt (s : State) (k : Nat) : Nat := Tab.get (fun _ => 0) s.copyTurn k

/-- Read the table peers. -/
def State.peersAt (s : State) (k : Nat) : Peer := Tab.get (fun _ => Peer.empty) s.peers k

/-- Read the table saved. -/
def State.savedAt (s : State) (k : Nat) : Option Saved := Tab.get (fun _ => none) s.saved k

/-- Read the table paths. -/
def State.pathsAt (s : State) (k : Nat) : Nat := Tab.get (fun _ => 0) s.paths k

/-- Read the table msix. -/
def State.msixAt (s : State) (k : Nat) : Nat := Tab.get (fun _ => 0) s.msix k

/-- Read the table badLines. -/
def State.badLinesAt (s : State) (k : Nat) : Nat := Tab.get (fun _ => 0) s.badLines k

/-- Read the table badMem. -/
def State.badMemAt (s : State) (k : Nat) : Nat := Tab.get (fun _ => 0) s.badMem k

/-- Every table of the state is in canonical form. -/
def State.canonical (s : State) : Bool :=
  Tab.wf (zeroByte) s.mem &&
  Tab.wf (fun _ => Group.empty) s.groups &&
  Tab.wf (fun _ => Ctx.empty) s.ctxs &&
  Tab.wf (fun _ => Sched.empty) s.scheds &&
  Tab.wf (fun _ => Core.empty) s.cores &&
  Tab.wf (fun _ => 0) s.acc &&
  Tab.wf (fun _ => 0) s.accMeta &&
  Tab.wf (fun _ => 0) s.scales &&
  Tab.wf (fun _ => Latch.empty) s.latches &&
  Tab.wf (fun _ => 0) s.images &&
  Tab.wf (fun _ => Code.empty) s.codes &&
  Tab.wf (fun _ => none) s.ops &&
  Tab.wf (fun _ => none) s.engs &&
  Tab.wf (fun _ => none) s.launches &&
  Tab.wf (fun _ => none) s.wgs &&
  Tab.wf (fun _ => []) s.devq &&
  Tab.wf (fun _ => Task.empty) s.tasks &&
  Tab.wf (fun _ => Func.empty) s.fns &&
  Tab.wf (winReset) s.win &&
  Tab.wf (fun _ => 0) s.frames &&
  Tab.wf (fun _ => 0) s.integ &&
  Tab.wf (fun _ => 0) s.keys &&
  Tab.wf (fun _ => Fifo.empty) s.fifos &&
  Tab.wf (fun _ => Efc.empty) s.efcs &&
  Tab.wf (fun _ => TraceUnit.empty) s.traces &&
  Tab.wf (fun _ => Bank.empty) s.banks &&
  Tab.wf (fun _ => 0) s.copyTurn &&
  Tab.wf (fun _ => Peer.empty) s.peers &&
  Tab.wf (fun _ => none) s.saved &&
  Tab.wf (fun _ => 0) s.paths &&
  Tab.wf (fun _ => 0) s.msix &&
  Tab.wf (fun _ => 0) s.badLines &&
  Tab.wf (fun _ => 0) s.badMem

end Sys2Proof.Machine
end

