-- ==== Sys2Proof/Machine/Types.lean ====
section
/-! DEFINITION. Widths, signedness and element counts of the types an instruction may name (R25, R56, Tables 2.1 and 3.10), and the row
lengths of Table 12.3. -/

namespace Sys2Proof.Machine

/-- Width of an integer type in bits. -/
def ityBits : ITy → Nat
  | .i8 | .n8 => 8
  | .i16 | .n16 => 16
  | .i32 | .n32 => 32
  | .i64 | .n64 => 64

/-- .i types are signed, .n types are not (R25). -/
def itySigned : ITy → Bool
  | .i8 | .i16 | .i32 | .i64 => true
  | .n8 | .n16 | .n32 | .n64 => false

/-- Width of a raw type in bits. -/
def btyBits : BTy → Nat
  | .b32 => 32
  | .b64 => 64

/-- Width of a memory type in bits. -/
def mtyBits : MTy → Nat
  | .int t => ityBits t
  | .raw t => btyBits t

/-- Whether loads of the type sign-extend (R25, R115). -/
def mtySigned : MTy → Bool
  | .int t => itySigned t
  | .raw _ => false

/-- Width of a reduction type in bits. -/
def rtyBits : RTy → Nat
  | .i32 | .n32 | .f32 => 32
  | .i64 | .n64 => 64

/-- Signedness of a reduction type. -/
def rtySigned : RTy → Bool
  | .i32 | .i64 => true
  | .n32 | .n64 | .f32 => false

/-- Width of an atomic or shift type in bits. -/
def wtyBits : WTy → Nat
  | .i32 | .n32 | .b32 => 32
  | .i64 | .n64 | .b64 => 64

/-- Signedness of an atomic or shift type. -/
def wtySigned : WTy → Bool
  | .i32 | .i64 => true
  | .n32 | .n64 | .b32 | .b64 => false

/-- Whether an atomic or shift type is a raw bit string. -/
def wtyRaw : WTy → Bool
  | .b32 | .b64 => true
  | .i32 | .i64 | .n32 | .n64 => false

/-- Number of registers an operand of n bits occupies (R8), which is also the alignment of its number. -/
def regsOf (n : Nat) : Nat := if n = 64 then 2 else 1

/-- Element count of NREG (R56). -/
def nregCount : NReg → Nat
  | .x1 => 1
  | .x2 => 2
  | .x4 => 4

/-- The QM bit mask (R58); 0 names the implied region. -/
def qmMask : Qm → Nat
  | .implied => 0
  | .nw => 1
  | .ne => 2
  | .sw => 4
  | .se => 8
  | .n => 3
  | .s => 12
  | .w => 5
  | .e => 10
  | .all => 15

/-- Bytes of an activation row (Table 12.3). -/
def feedRowLen : FeedFmt → Nat
  | .f16 | .bf16 => 256
  | .e4m3 | .e5m2 => 128
  | .q4 => 68
  | .q8 => 132

/-- Bytes of a drained row (Table 12.3). -/
def drainRowLen : DrainFmt → Nat
  | .f32 => 512
  | .f16 | .bf16 => 256
  | .e4m3 => 128

/-- The pairs of operation and type that ATOM and ARED assign (R203). -/
def atomPair (ty : WTy) (op : AtomOp) : Bool :=
  match op with
  | .add => true
  | .min | .max => !wtyRaw ty
  | .and | .or | .xor | .exch => wtyRaw ty

/-- The operations assigned under a type of LRED and PRFX (R155); xadd is for PRFX. -/
def redPair (prfx : Bool) (ty : RTy) (op : RedOp) : Bool :=
  match op with
  | .add | .min | .max => true
  | .and | .or | .xor => decide (ty ≠ .f32)
  | .xadd => prfx

/-- A stride that R245 accepts for a row length. -/
def strideOk (len s : Nat) : Bool := decide (s = 0 ∨ (s % 4 = 0 ∧ len ≤ s))

end Sys2Proof.Machine
end

