-- ==== Sys2Proof/Machine/Regs.lean ====
section
/-! DEFINITION. One home for every access to a group's registers, fragments, path slots and knots (R7 to R11, R16, R19 to R22, R124, R127
to R132). Everything here is a function of one group; Machine/Ops joins the pieces over the whole state. -/

namespace Sys2Proof.Machine

/-! ## Lane sets -/

/-- The mask of one lane. -/
def laneBit (l : Nat) : Nat := 2 ^ l

/-- Lanes of a ∩ b. -/
def mAnd (a b : Nat) : Nat := a &&& b

/-- Lanes of a that are not in b. -/
def mDiff (a b : Nat) : Nat := a &&& (0xFFFF ^^^ (b &&& 0xFFFF))

/-- Lanes of a ∪ b. -/
def mOr (a b : Nat) : Nat := a ||| b

/-- The lanes of a mask, ascending. -/
def lanesOf (m : Nat) : List Nat := onesOf m 16

/-- The lowest-numbered lane of a mask (0 of an empty mask). -/
def lowest (m : Nat) : Nat := (lanesOf m).headD 0

/-- The mask of the lanes for which f holds. -/
def maskWhere (f : Nat → Bool) : Nat := ((List.range 16).filter f).foldl (fun m l => m + 2 ^ l) 0

/-! ## Defaults of a group's own tables -/

def Group.frag (g : Group) (i : Nat) : Frag := Tab.get (fun _ => Frag.empty) g.frags i
def Group.setFrag (g : Group) (i : Nat) (f : Frag) : Group := { g with frags := Tab.put (fun _ => Frag.empty) g.frags i f }
def Group.knot (g : Group) (i : Nat) : Knot := Tab.get (fun _ => Knot.empty) g.knots i
def Group.setKnot (g : Group) (i : Nat) (k : Knot) : Group := { g with knots := Tab.put (fun _ => Knot.empty) g.knots i k }
def Group.owner (g : Group) (e : Nat) : Owner := Tab.get (fun _ => Owner.empty) g.owners e
def Group.setOwner (g : Group) (e : Nat) (o : Owner) : Group := { g with owners := Tab.put (fun _ => Owner.empty) g.owners e o }
def Group.fail (g : Group) (e : Nat) : Failure := Tab.get (fun _ => Failure.none) g.fails e
def Group.setFail (g : Group) (e : Nat) (f : Failure) : Group := { g with fails := Tab.put (fun _ => Failure.none) g.fails e f }
/-- The counter of an engine class, in the coding of WAITC (R240). -/
def Group.engCount (g : Group) (c : Nat) : Nat := Tab.get (fun _ => 0) g.eng c
def Group.setEng (g : Group) (c n : Nat) : Group := { g with eng := Tab.put (fun _ => 0) g.eng c n }

/-- Number of an engine class (Table 3.11). -/
def eclassNum : EClass → Nat
  | .cpy => 0
  | .wld => 1
  | .fed => 2
  | .drn => 3
  | .gth => 4
  | .col => 5

/-! ## Registers -/

/-- Lane L of v register r (R7). -/
def Group.readV (g : Group) (r l : Nat) : Word := Tab.get (fun _ => 0) g.v (16 * r + l)

/-- Lane L of p register r; p0 reads 1 (R7). -/
def Group.readP (g : Group) (r l : Nat) : Bool := r == 0 || (Tab.get (fun _ => (0 : Lanes)) g.p r).getLsbD l

/-- q register r; q0 reads 0xFFFF (R7). -/
def Group.readQ (g : Group) (r : Nat) : Lanes := if r = 0 then 0xFFFF else Tab.get (fun _ => 0) g.q r

/-- s register r; s0 reads 0 (R7), and while a handler runs, s56 to s63 name its shadow bank (R291). -/
def Group.readS (g : Group) (r : Nat) : DWord :=
  if r = 0 then 0
  else match g.handler with
    | some h => if 56 ≤ r then Tab.get (fun _ => 0) h.shadow r else Tab.get (fun _ => 0) g.s r
    | none => Tab.get (fun _ => 0) g.s r

/-- A control register (R11). -/
def Group.readCtl (g : Group) : Ctl → DWord
  | .status => g.status
  | .fpctl => g.fpctl
  | .flags => g.flags
  | .check => g.check

/-- W1C bits of FLAGS (Table 1.4). -/
def flagsW1c : DWord := 0x73F

/-- W1C bits of STATUS: FILT (Table 1.2). -/
def statusW1c : DWord := 0xFFFF00000000

/-- Write one register result. Constants discard writes (R7); a v, p or s result replaces the register of its lane; a q result writes the
class slots of `msk` (R79). For STATUS and FLAGS, msk 0 is a software write, which clears W1C bits, and msk 1 sets bits (R11, R107). FPCTL
and CHECK keep their RW fields. -/
def Group.writeOut (g : Group) (o : Out) : Group :=
  match o.file with
  | .v => { g with v := Tab.put (fun _ => 0) g.v (16 * o.reg + o.lane) (BitVec.ofNat 32 o.val) }
  | .s =>
    if o.reg = 0 then g
    else match g.handler with
      | some h =>
        if 56 ≤ o.reg then { g with handler := some { h with shadow := Tab.put (fun _ => 0) h.shadow o.reg (BitVec.ofNat 64 o.val) } }
        else { g with s := Tab.put (fun _ => 0) g.s o.reg (BitVec.ofNat 64 o.val) }
      | none => { g with s := Tab.put (fun _ => 0) g.s o.reg (BitVec.ofNat 64 o.val) }
  | .p =>
    if o.reg = 0 then g
    else
      let old := (Tab.get (fun _ => (0 : Lanes)) g.p o.reg).toNat
      let m := mDiff old (laneBit o.lane)
      { g with p := Tab.put (fun _ => 0) g.p o.reg (BitVec.ofNat 16 (if o.val = 0 then m else mOr m (laneBit o.lane))) }
  | .q =>
    if o.reg = 0 then g
    else
      let old := (Tab.get (fun _ => (0 : Lanes)) g.q o.reg).toNat
      { g with q := Tab.put (fun _ => 0) g.q o.reg (BitVec.ofNat 16 (mOr (mDiff old o.msk) (mAnd o.val o.msk))) }
  | .status =>
    if o.msk = 0 then { g with status := g.status &&& ~~~(BitVec.ofNat 64 o.val &&& statusW1c) }
    else { g with status := g.status ||| BitVec.ofNat 64 o.val }
  | .flags =>
    if o.msk = 0 then { g with flags := g.flags &&& ~~~(BitVec.ofNat 64 o.val &&& flagsW1c) }
    else { g with flags := g.flags ||| (BitVec.ofNat 64 o.val &&& flagsW1c) }
  | .fpctl => { g with fpctl := BitVec.ofNat 64 (o.val % 4) }
  | .check => { g with check := BitVec.ofNat 64 (o.val % 2) }

/-- Whether a result sets sticky bits; such results follow the others of their cycle, so that a bit set and cleared in one cycle ends at 1
(R11). -/
def Out.sets (o : Out) : Bool := (o.file == .status || o.file == .flags) && o.msk != 0

/-- Write results in order. -/
def Group.writeOuts (g : Group) (l : List Out) : Group :=
  let h := (l.filter (fun o => !o.sets)).foldl Group.writeOut g
  (l.filter Out.sets).foldl Group.writeOut h

/-! ## Owners and classes -/

/-- The owner-table index of a lane (R123); 16 where no valid entry holds it. -/
def Group.entOf (g : Group) (l : Nat) : Nat :=
  ((List.range 16).find? (fun e => (g.owner e).valid && bit (g.owner e).lanes l)).getD 16

/-- The entry of a lane. -/
def Group.ownerOf (g : Group) (l : Nat) : Owner := g.owner (g.entOf l)

/-- The class slot of a lane, four bits (R124, Table 5.3). -/
def Group.clsOf (g : Group) (l : Nat) : Nat := (g.ownerOf l).cls % 16

/-- The lanes of a mask in the same class as lane l (R141). -/
def Group.cls (g : Group) (m l : Nat) : Nat := maskWhere (fun k => bit m k && g.clsOf k == g.clsOf l)

/-- The class slots present in a mask. -/
def Group.classes (g : Group) (m : Nat) : List Nat := (List.range 16).filter (fun c => (lanesOf m).any (fun l => g.clsOf l == c))

/-- The mask of the class slots present in a mask. -/
def Group.classMask (g : Group) (m : Nat) : Nat := (g.classes m).foldl (fun x c => x + 2 ^ c) 0

/-- Whether a mask spans more than one class (R80). -/
def Group.mixed (g : Group) (m : Nat) : Bool := decide (1 < (g.classes m).length)

/-- The lanes of an owner-table entry. -/
def Group.entLanes (g : Group) (e : Nat) : Nat := (g.owner e).lanes

/-- The owner-table entries with a lane in a mask, ascending. -/
def Group.entsOf (g : Group) (m : Nat) : List Nat :=
  (List.range 16).filter (fun e => (g.owner e).valid && (g.owner e).lanes &&& m != 0)

/-- The entries in use; a handler has one owner (R291). -/
def Group.entCount (g : Group) : Nat := if g.handler.isSome then 1 else g.status.toNat / 256 % 16 + 1

/-! ## Guards (R16) -/

/-- The active lanes of a lane instruction. -/
def Group.act (g : Group) (m : Nat) (h : Hdr) : Nat := maskWhere (fun l => bit m l && (g.readP h.gp.val l != h.gn))

/-- The class slots of the fragment in which a group-wide guard holds. -/
def Group.actQ (g : Group) (m : Nat) (h : Hdr) : Nat :=
  ((g.classes m).filter (fun c => (g.readQ h.gp.val).getLsbD c != h.gn)).foldl (fun x c => x + 2 ^ c) 0

/-! ## Fixed-latency results (R19, R22) -/

/-- Scoreboard slot k of a fragment (R21). -/
def Frag.slotAt (f : Frag) (k : Nat) : Nat := Tab.get (fun _ => 0) f.sb k
def Frag.setSlot (f : Frag) (k n : Nat) : Frag := { f with sb := Tab.put (fun _ => 0) f.sb k n }

/-- A covered event takes 1 from slot k of every fragment that holds a copy (R128). -/
def Group.decSlot (g : Group) (heirs : List Nat) (k : Nat) : Group :=
  if k = 0 then g
  else heirs.foldl (fun g i => g.setFrag i ((g.frag i).setSlot k ((g.frag i).slotAt k - 1))) g

/-- Make the results that are readable by a cycle take their registers, and release their slots. -/
def Group.commit (g : Group) (cyc : Nat) : Group :=
  let due := g.pend.filter (fun p => decide (p.ready ≤ cyc))
  let g1 := { g with pend := g.pend.filter (fun p => decide (cyc < p.ready)), landed := due }
  let g2 := g1.writeOuts (due.foldr (fun p l => p.outs ++ l) [])
  due.foldl (fun g p => g.decSlot p.heirs p.slot) g2

/-- Whether two results write one register of one lane, or one group-wide register; sticky and W1C registers aside. -/
def Out.same (a b : Out) : Bool :=
  a.file == b.file && a.reg == b.reg && (match a.file with
    | .v | .p => a.lane == b.lane
    | .s | .q => true
    | _ => false)

/-- Results of variable latency, of an instruction issued in cycle `age`, land in cycle `cyc`: what a younger instruction has written in the same
cycle stays (R22). -/
def Group.landLate (g : Group) (cyc age : Nat) (l : List Out) : Group :=
  let now := g.landed.filter fun p => p.ready == cyc
  let young := (now.filter fun p => decide (age < p.age)).flatMap fun p => p.outs.filter fun o => l.any o.same
  { (g.writeOuts l).writeOuts young with landed := now ++ [{ ready := cyc, age := age, outs := l, slot := 0, heirs := [] }] }

/-! ## Path slots (R132) -/

/-- The split entries of live fragments. -/
def Group.liveFrags (g : Group) : List Nat := (List.range 16).filter (fun i => (g.frag i).fst == .live)

/-- The entries in use. -/
def Group.usedFrags (g : Group) : List Nat := (List.range 16).filter (fun i => (g.frag i).fst != .free)

/-- The free entries, ascending. -/
def Group.freeFrags (g : Group) : List Nat := (List.range 16).filter (fun i => (g.frag i).fst == .free)

/-- The free path slots; in replay mode a group has one (R360). -/
def Group.freeSlots (g : Group) : List Nat :=
  (if g.rpl then [1] else [1, 2]).filter (fun n => !(g.usedFrags.any (fun i => (g.frag i).slot == n)))

/-- Give free slots to the front of the waiting order. -/
def Group.fill (g : Group) : Nat → Group
  | 0 => g
  | n + 1 =>
    match g.freeSlots, g.waiting with
    | k :: _, i :: w =>
      Group.fill ({ g with waiting := w }.setFrag i { g.frag i with slot := k, iss := 0 }) n
    | _, _ => g

/-- A live fragment takes a free slot, or the back of the waiting order. -/
def Group.enqueue (g : Group) (i : Nat) : Group :=
  Group.fill { g with waiting := g.waiting ++ [i] } 2

/-- A fragment leaves its slot or its place in the waiting order. -/
def Group.unslot (g : Group) (i : Nat) : Group :=
  { (g.setFrag i { g.frag i with slot := 0 }) with waiting := g.waiting.filter (fun j => j != i) }

/-- A fragment gives up its slot where others wait (R132: YIELD, BACKOFF, the limits). -/
def Group.giveUp (g : Group) (i : Nat) : Group :=
  if g.waiting.isEmpty || (g.frag i).slot == 0 then g else (g.unslot i).enqueue i

/-- Free an entry. -/
def Group.freeFrag (g : Group) (i : Nat) : Group :=
  Group.fill ((g.unslot i).setFrag i Frag.empty) 2

/-! ## Fragments and knots -/

/-- How the holders of counters change: `fork i j` copies entry i's counters to j (R128), `join l i` merges the entries l into i (R130),
`drop i` ends entry i. -/
inductive Heir where
  | fork (i j : Nat)
  | join (l : List Nat) (i : Nat)
  | drop (i : Nat)
  deriving DecidableEq, Repr

/-- The holders of a counter after a change. -/
def Heir.apply (l : List Nat) : Heir → List Nat
  | .fork i j => if i ∈ l then l ++ [j] else l
  | .join p i => if p.any (fun j => decide (j ∈ l)) then (l.filter (fun j => !decide (j ∈ p) && j != i)) ++ [i] else l
  | .drop i => l.filter (fun j => j != i)

/-- A group and the changes to be made to the holders of its counters. -/
structure GH where
  g : Group
  hs : List Heir
  deriving DecidableEq, Repr

/-- Apply the changes to the group's own pending results. -/
def Group.heirs (g : Group) (hs : List Heir) : Group :=
  { g with pend := g.pend.map (fun p => { p with heirs := hs.foldl Heir.apply p.heirs }) }

/-- A new fragment split from i (R128): copies of its counters and stall gate, the youngest age. -/
def GH.newFrag (x : GH) (i j mask pc : Nat) (target : Bool) (gate : Nat) (st : FState) : GH :=
  let f := x.g.frag i
  let n : Frag := { fst := st, slot := 0, kix := 0, born := x.g.births, mask := mask, pc := pc, gate := gate, sb := f.sb, iss := 0,
                    holdSince := none, hold := .none, target := target, sbm := f.sbm }
  { g := { x.g with births := x.g.births + 1 }.setFrag j n, hs := x.hs ++ [.fork i j] }

/-- Split a live fragment in two (R128): its entry keeps the part that holds its lowest lane. `pcA` and `pcB` are the PCs of lanes a and b, with
their stall gates and whether a transfer set them. -/
def GH.split (x : GH) (i a b pcA pcB gateA gateB : Nat) (tA tB : Bool) : GH :=
  let f := x.g.frag i
  let j := x.g.freeFrags.headD 16
  if bit a (lowest f.mask) then
    let y := x.newFrag i j b pcB tB gateB .live
    { y with g := (y.g.setFrag i { y.g.frag i with mask := a, pc := pcA, target := tA, gate := gateA }).enqueue j }
  else
    let y := x.newFrag i j a pcA tA gateA .live
    { y with g := (y.g.setFrag i { y.g.frag i with mask := b, pc := pcB, target := tB, gate := gateB }).enqueue j }

/-- The youngest valid knot at a PC whose mask meets m (R130). -/
def Group.findKnot (g : Group) (pc m : Nat) : Option Nat :=
  ((List.range 32).filter (fun k => (g.knot k).valid && (g.knot k).pc == pc && (g.knot k).mask &&& m != 0)).foldl
    (fun r k => match r with
      | none => some k
      | some j => if (g.knot j).ord < (g.knot k).ord then some k else some j) none

/-- A free knot entry (R129). -/
def Group.freeKnot (g : Group) : Option Nat := (List.range 32).find? (fun k => !(g.knot k).valid)

/-- Push a knot (R129). -/
def Group.push (g : Group) (k pc mask : Nat) : Group :=
  { g with pushes := g.pushes + 1 }.setKnot k { valid := true, mask := mask, arr := 0, pc := pc, ord := g.pushes }

/-- Release knot k (R130): its waiting fragments merge into the entry of the oldest. -/
def GH.release (x : GH) (k cyc : Nat) : GH :=
  let kn := x.g.knot k
  let parts := (List.range 16).filter (fun i => (x.g.frag i).fst == .joining && (x.g.frag i).kix == k)
  match parts with
  | [] => { x with g := x.g.setKnot k Knot.empty }
  | i0 :: r =>
    let e := r.foldl (fun b i => if (x.g.frag i).born < (x.g.frag b).born then i else b) i0
    let gate := parts.foldl (fun m i => max m (x.g.frag i).gate) (cyc + 1)
    let g1 := parts.foldl (fun g i => g.setFrag i Frag.empty) (x.g.setKnot k Knot.empty)
    let m : Frag := { fst := .live, slot := 0, kix := 0, born := (x.g.frag e).born, mask := kn.arr, pc := kn.pc + 8, gate := gate, sb := [],
                      iss := 0, holdSince := none, hold := .none, target := false, sbm := 0 }
    { g := (g1.setFrag e m).enqueue e, hs := x.hs ++ [.join parts e] }

/-- Apply the release test to every knot (R130, R131). DESIGN CHOICE: knots released in one cycle are released in ascending order of their entries, which
decides who takes a slot first (log 45). -/
def GH.settle (x : GH) (cyc : Nat) : GH :=
  (List.range 32).foldl (fun y k =>
    let kn := y.g.knot k
    if kn.valid && kn.mask == 0 then { y with g := y.g.setKnot k Knot.empty }
    else if kn.valid && kn.arr == kn.mask then y.release k cyc
    else y) x

/-- Lanes leave every knot that holds them (R131), before the release test. -/
def Group.leaveKnots (g : Group) (m : Nat) : Group :=
  (List.range 32).foldl (fun g k =>
    let kn := g.knot k
    if kn.valid then g.setKnot k { kn with mask := mDiff kn.mask m, arr := mDiff kn.arr m } else g) g

/-- Lanes leave every fragment and knot, as EXIT makes them leave (R112, R120, R131). A probe that holds the lanes that remain is taken again over
these (R352). Slots that become free together go to the front of the waiting order in ascending order (R132, R159). -/
def GH.leave (x : GH) (m cyc : Nat) : GH :=
  let y := (List.range 16).foldl (fun (y : GH) i =>
    let f := y.g.frag i
    if f.fst == .free || f.mask &&& m == 0 then y
    else if mDiff f.mask m = 0 then { g := (y.g.unslot i).setFrag i Frag.empty, hs := y.hs ++ [.drop i] }
    else
      let hold := match f.hold with
        | .probe r => .probe { r with missing := [] }
        | h => h
      { y with g := y.g.setFrag i { f with mask := mDiff f.mask m, hold := hold } }) { x with g := { x.g with pres := mDiff x.g.pres m } }
  GH.settle { y with g := (y.g.fill 2).leaveKnots m } cyc

end Sys2Proof.Machine
end

