-- ==== Sys2Proof/Machine/Ops.lean ====
section
/-! DEFINITION. The named operations over the whole state: programs of writes, the key of every location, issue and its accounting (R15,
R16, R19, R21), outstanding results (R20), fault records (R286, R287), taking a fault (R173, R312, R221, R304) and retirement (R120). -/

namespace Sys2Proof.Machine

/-! ## Programs of writes -/

/-- What a meaning does: from a state, the writes that it makes. -/
abbrev Prog := State → List Effect

def Prog.skip : Prog := fun _ => []

/-- The writes of p, then those of q on the state that p leaves. -/
def Prog.seq (p q : Prog) : Prog := fun s => let e := p s; e ++ q (runAll s e)

/-- A program that depends on the state it meets. -/
def Prog.on (f : State → Prog) : Prog := fun s => f s s

def Prog.when (b : Bool) (p : Prog) : Prog := if b then p else Prog.skip

/-- One program for each element, in order. -/
def Prog.each {α : Type} (f : α → Prog) : List α → Prog
  | [] => Prog.skip
  | a :: t => Prog.seq (f a) (Prog.each f t)

/-- Programs in order. -/
def Prog.all : List Prog → Prog
  | [] => Prog.skip
  | p :: t => Prog.seq p (Prog.all t)

/-- One write. -/
def Prog.put (e : Effect) : Prog := fun _ => [e]

/-- The next state of a program. -/
def Prog.go (p : Prog) (s : State) : Host.Outcome State Fault Refusal := .next (runAll s (p s))

/-! ## Positions and keys of locations (R160, R161, R163, Table 4.4) -/

/-- The core (MOVS.coord) of a group slot's key. -/
def coreOfGrp (k : Nat) : Nat := k / 256
/-- The cluster of a core. -/
def clusterOf (core : Nat) : Nat := core / 4
/-- The die of a core. -/
def dieOf (core : Nat) : Nat := core / 512
/-- The die of a cluster. -/
def dieOfCluster (cl : Nat) : Nat := cl / 128

def dieKey (die off : Nat) : Nat := 281474976710656 + die * 33554432 + off
def clusterKey (cl off : Nat) : Nat := 562949953421312 + cl * 2097152 + off
def coreKey (core off : Nat) : Nat := 1125899906842624 + core * 262144 + off
/-- A byte of a line of the pattern die (R213). -/
def patternKey (cl col line byte : Nat) : Nat := 2251799813685248 + ((cl * 256 + col) * 4096 + line) * 8 + byte
/-- A sketch word of a die's filter coprocessor (R270). -/
def sketchKey (die w : Nat) : Nat := 4503599627370496 + die * 262144 + 8 * w
/-- A byte of a die's ring memory (R271). -/
def ringKey (die off : Nat) : Nat := 4503600701112320 + die * 1048576 + off
/-- A byte of a core's trace buffer (R361). -/
def traceKey (core off : Nat) : Nat := 9007199254740992 + core * 16384 + off
/-- A byte of host memory. -/
def hostKey (addr : Nat) : Nat := 18446744073709551616 + addr

/-- A byte of a peer's memory, at an HPA (R318). -/
def isPeer (key : Nat) : Bool := decide (2 ^ 80 ≤ key)
def peerOf (key : Nat) : Nat := (key - 2 ^ 80) / 2 ^ 48

/-- Whether some line of memory among n bytes holds an uncorrectable error (R299); a scratch is not memory. -/
def State.lineBad (s : State) (k n : Nat) : Bool :=
  decide (k < 281474976710656) && s.badMem.any fun p => decide (k / 64 ≤ p.1) && decide (p.1 ≤ (k + n - 1) / 64)

/-- Read n bytes from a key. -/
def State.bytes (s : State) (k : Nat) : Nat → List Byte
  | 0 => []
  | n + 1 => s.memAt k :: s.bytes (k + 1) n

/-- The number held in n bytes, little-endian (R4). -/
def State.load (s : State) (k n : Nat) : Nat := ofBytes (s.bytes k n)

/-- The bytes of a write, from a key upwards. -/
def putBytes : Nat → List Byte → List Effect
  | _, [] => []
  | k, b :: t => .mem k b :: putBytes (k + 1) t

/-- One write of bytes from a key upwards; in integrity frames it raises the counters (R339). -/
def storeBytes (k : Nat) (l : List Byte) : List Effect := putBytes k l ++ if l.isEmpty then [] else [.raise k l.length]

/-- Store a number in n bytes. -/
def Prog.store (k n v : Nat) : Prog := fun _ => storeBytes k (toBytes v n)

/-! ## Window registers (R330) -/

/-- A register of a function's window. -/
def State.reg (s : State) (fn off : Nat) : DWord := s.winAt (fn * 67108864 + off)
def Prog.reg (fn off : Nat) (v : Nat) : Prog := Prog.put (.win (fn * 67108864 + off) (BitVec.ofNat 64 v))
/-- A field of a register. -/
def State.regBits (s : State) (fn off hi lo : Nat) : Nat := bits (s.reg fn off).toNat hi lo
/-- Set sticky bits of FNSTAT (Table 20.6). -/
def Prog.fnstat (fn bit_ : Nat) : Prog := Prog.on fun s => Prog.reg fn 8 ((s.reg fn 8).toNat ||| 2 ^ bit_)
/-- An EFC register of a die (Table 14.9), held once for all windows. -/
def State.efc (s : State) (die off : Nat) : Nat := (s.reg 0 (16777216 + 8388608 * die + off)).toNat
def Prog.efc (die off v : Nat) : Prog := Prog.reg 0 (16777216 + 8388608 * die + off) v

/-- Whether every request of a function to or from the host is refused: a TDI in ERROR (R342). -/
def State.refuses (s : State) (fn : Nat) : Bool := (s.fnsAt fn).tdis == 3
/-- A write of the host to a register of a function's window. -/
def hostWrite (fn : Nat) (p : Prog) (s : State) : Host.Outcome State Fault Refusal := if s.refuses fn then .next s else p.go s
/-- A read of the host; a refused one returns nothing (UR). -/
def hostRead (fn : Nat) (p : Prog) (s : State) : Host.Outcome State Fault Refusal :=
  if s.refuses fn then .next (runAll s [.hostReply none]) else p.go s

/-! ## Free values (log 2) -/

/-- Draw a free number below n and go on with it. -/
def Prog.free (n : Nat) (k : Nat → Prog) : Prog :=
  Prog.on fun s => Prog.seq (Prog.put (.fresh (s.fresh + 1))) (k (Config.freeNat s.fresh % n))

/-- The j-th of a block of free numbers. -/
def State.freeAt (s : State) (j : Nat) : Nat := Config.freeNat (s.fresh + j)

/-- An input that has not taken effect comes again in the next cycle. -/
def Prog.again (i : Instr) : Prog := fun s => [.inputs ((s.cycle + 1, i) :: s.inputs)]

/-! ## Events (R259 to R263) -/

/-- An event record (Table 14.1). -/
def evWord (ts cls unit vf asid kind aux val : Nat) : BitVec 128 :=
  BitVec.ofNat 128 (val % 2 ^ 32 + (aux % 2 ^ 16) * 2 ^ 32 + (kind % 64) * 2 ^ 48 + (asid % 2 ^ 20) * 2 ^ 54 + (vf % 64) * 2 ^ 74 +
    (unit % 4096) * 2 ^ 80 + (cls % 16) * 2 ^ 92 + (ts % 2 ^ 32) * 2 ^ 96)

/-- A source copies an event into its FIFO, or drops it (R263). -/
def Prog.event (die : Nat) (w : BitVec 128) : Prog := fun s =>
  let src := w.toNat / 2 ^ 80 % 65536
  let k := die * 65536 + src
  let f := s.fifosAt k
  if f.recs.length < 16 then
    [.fifos k { f with recs := f.recs ++ [{ word := w, carry := f.carry, fromTime := s.time }], carry := 0 }]
  else
    let off := 16777216 + 8388608 * die + 1048576 + 8 * src
    .fifos k { f with carry := min (f.carry + 1) 65535 } ::
      Prog.reg 0 off (min ((s.reg 0 off).toNat + 1) 4294967295) s

/-- An event of this cycle. -/
def Prog.eventNow (die cls unit vf asid kind aux val : Nat) : Prog :=
  Prog.on fun s => Prog.event die (evWord s.cycle cls unit vf asid kind aux val)

/-! ## Issuers -/

/-- The group of registers an issuer runs in. -/
def State.grp (s : State) : Issuer → Group
  | .grp k _ => s.groupsAt k
  | .ctx k => (s.ctxsAt k).g
  | .pipe _ _ => Group.empty

/-- Write it back. -/
def Prog.grp (w : Issuer) (g : Group) : Prog := fun s =>
  match w with
  | .grp k _ => [.groups k g]
  | .ctx k => [.ctxs k { s.ctxsAt k with g := g }]
  | .pipe _ _ => []

/-- The split entry of an issuer. -/
def fragOf : Issuer → Nat
  | .grp _ i => i
  | .ctx _ => 0
  | .pipe _ _ => 0

/-- Whether two issuers are one memory agent (R176): the group, or the context. -/
def sameAgent : Issuer → Issuer → Bool
  | .grp k _, .grp j _ => k == j
  | .ctx k, .ctx j => k == j
  | _, _ => false

/-- The core an issuer runs on; a context's is the core of the quadrant it leads. -/
def coreOf : Issuer → Nat
  | .grp k _ => coreOfGrp k
  | .ctx k => k
  | .pipe _ _ => 0

/-- Change the holders of the counters that outstanding operations of an agent cover (R128, R130). -/
def Prog.heirs (w : Issuer) (hs : List Heir) : Prog := fun s =>
  if hs.isEmpty then []
  else s.ops.filterMap fun p =>
    match p.2 with
    | some o => if sameAgent o.who w then some (.ops p.1 (some { o with heirs := hs.foldl Heir.apply o.heirs })) else none
    | none => none

/-! ## A group and its handler (R291) -/

/-- The owner table of a group's workgroups, which a running handler's does not replace (R291). -/
def Group.ownerTable (g : Group) : Tab Owner :=
  match g.handler with
  | some h => h.owners
  | none => g.owners
def Group.trueOwner (g : Group) (e : Nat) : Owner := Tab.get (fun _ => Owner.empty) g.ownerTable e
/-- The lanes present, in a group or in its frozen state. -/
def Group.truePres (g : Group) : Nat :=
  match g.handler with
  | some h => h.pres
  | none => g.pres

/-- The logical clock of a group's own instructions, which a handler's do not raise (R139). -/
def Group.trueClk (g : Group) : Nat :=
  match g.handler with
  | some h => h.clk
  | none => g.clk
/-- The lanes of an entry that are left; all of them in a group that has still to start. -/
def Group.entPres (g : Group) (e : Nat) : Nat := (g.trueOwner e).lanes &&& (if g.live then g.truePres else 0xFFFF)

/-! ## Debug access (R349, R354, R357, Table 20.8) -/

/-- Whether a function may debug its own groups: OPEN, or GUEST; in confidential mode a TDI that is locked may only if its session enabled it
before LOCK. -/
def State.guestFor (s : State) (fn : Nat) : Bool :=
  s.dbg == 2 || (s.dbg == 1 && (!s.sec.conf || (s.fnsAt fn).tdis == 0 || (s.fnsAt fn).guestOk))

/-- Whether a function may stop a group: every group in OPEN, and otherwise one whose valid entries are all its own (R358). -/
def State.mayStop (s : State) (fn : Nat) (g : Group) : Bool :=
  s.guestFor fn && (s.dbg == 2 || (List.range 16).all fun e => !(g.trueOwner e).valid || (g.trueOwner e).vf == fn)

/-- Whether a precise stop of a function is due at a group (R359): the next instruction would make RETIRED exceed SRET. -/
def State.preciseDue (s : State) (k fn : Nat) : Bool :=
  let g := s.groupsAt k
  let a := (s.reg fn 0x800008).toNat
  bit a 63 && g.live && g.handler.isNone && !g.stop.stopped && g.stop.passed != g.clk + 1 && s.mayStop fn g && g.ckptn == bits a 31 0 &&
    g.retired == s.reg fn 0x800010 &&
    (List.range 16).any fun e => (g.owner e).valid && (g.owner e).vf == fn && (g.owner e).asid == bits a 62 43 && (g.owner e).lanes &&& g.pres != 0

/-- Whether a debug stop, or a precise stop that is due, keeps a held instruction in its hold (R301, R302, R359): it would issue as it leaves. A group that is being
evicted has lost its stop (R358). -/
def State.keeps (s : State) (w : Issuer) : Bool :=
  match w with
  | .grp k i =>
    let g := s.groupsAt k
    !g.evict && ((g.stop.stopped && g.stop.step != some i) || (List.range 64).any (s.preciseDue k))
  | _ => false

/-! ## Trace packets (R361 to R363) -/

/-- Bytes of the stream not yet read. -/
def TraceUnit.pending (u : TraceUnit) : Nat := (u.wr + 4294967296 - u.rd) % 4294967296

/-- Fill of the 64-byte block that a packet of n bytes would cross (R362). -/
def TraceUnit.padFor (u : TraceUnit) (n : Nat) : Nat := if 64 < u.wr % 64 + n then 64 - u.wr % 64 else 0

/-- Whether a trace unit records (R354, R361): it is held and started, and the slot that it selects holds a group which the holder may debug. -/
def State.recording (s : State) (core : Nat) : Bool :=
  let u := Tab.get (fun _ => TraceUnit.empty) s.traces core
  let g := s.groupsAt (core * 256 + u.gsl)
  match u.hold with
  | none => false
  | some v => u.en && u.run && g.live && s.guestFor v &&
      (s.dbg == 2 || (List.range 16).all fun e => !(g.trueOwner e).valid || (g.trueOwner e).vf == v)

/-- Write one packet, or drop it where it does not fit (R361): the unit, and the bytes that it writes from its old WR. The packets lost are counted from the last one
written, and LOSS is due for them. -/
def TraceUnit.add (x : TraceUnit × List Byte) (pkt : List Byte) : TraceUnit × List Byte :=
  let u := x.1
  let p := u.padFor pkt.length
  let n := p + pkt.length
  if n ≤ 16384 - u.pending then
    ({ u with wr := (u.wr + n) % 4294967296, lost := 0 }, x.2 ++ List.replicate p 0 ++ pkt)
  else ({ u with drop := min (u.drop + 1) 4294967295, lost := min (u.lost + 1) 65535, gap := true }, x.2)

/-- The header of a packet with its delta (R362). -/
def traceHead (pt d : Nat) : List Byte :=
  if d < 15 then [BitVec.ofNat 8 (pt * 16 + d)] else BitVec.ofNat 8 (pt * 16 + 15) :: toBytes d 2

/-- The code of a fragment's state (Table 5.4: FST). -/
def fstCode : FState → Nat
  | .free => 0
  | .live => 1
  | .joining => 2
  | .parked => 3

/-- SYNC and the FRAG packets that follow it (Table 22.7). -/
def tracePackets (g : Group) (slot cyc : Nat) : List (List Byte) :=
  (0xF0 :: (toBytes cyc 8 ++ [BitVec.ofNat 8 slot, BitVec.ofNat 8 g.usedFrags.length, 0, 0])) ::
    g.usedFrags.map fun i =>
      let f := g.frag i
      0x70 :: BitVec.ofNat 8 (i * 16 + fstCode f.fst * 4 + f.slot) :: (toBytes f.mask 2 ++ toBytes f.pc 4)

/-- What a SYNC of this cycle writes (Table 22.7): the state at the start of the cycle, or, of a group that has entered the slot since, that at its start. -/
def TraceUnit.syncPackets (u : TraceUnit) (g : Group) (cyc : Nat) : List (List Byte) := if u.snap.isEmpty then tracePackets g u.gsl cyc else u.snap

/-- A unit writes SYNC and its FRAG packets: deltas count from it, unless it is dropped. -/
def TraceUnit.sync (x : TraceUnit × List Byte) (g : Group) (cyc : Nat) : TraceUnit × List Byte :=
  match x.1.syncPackets g cyc with
  | [] => x
  | h :: t =>
    let y := TraceUnit.add x h
    if y.1.wr = x.1.wr then ({ y.1 with need := true }, y.2)
    else
      let z := t.foldl TraceUnit.add y
      ({ z.1 with syncAt := (x.1.wr + x.1.padFor h.length) % 4294967296, need := false, last := cyc }, z.2)

/-- Whether SYNC goes ahead of a packet of n bytes (R362): it is asked for, the delta is beyond a packet's, or the packet would open the first block after 1,024
bytes since the last SYNC. -/
def TraceUnit.syncDue (u : TraceUnit) (cyc n : Nat) : Bool :=
  let p := (u.wr + u.padFor n) % 4294967296
  decide (65535 < cyc - u.last) || (p % 64 == 0 && decide (1024 ≤ (p + 4294967296 - u.syncAt) % 4294967296))

/-- Packets lost are told of, and SYNC follows, once there is room for 16 bytes and for the packet (R361). A SYNC that is due comes ahead of LOSS (R362). -/
def TraceUnit.loss (x : TraceUnit × List Byte) (g : Group) (cyc : Nat) : TraceUnit × List Byte :=
  let y := if x.1.syncDue cyc ((traceHead 0xB (cyc - x.1.last)).length + 2) then TraceUnit.sync x g cyc else x
  let pkt := traceHead 0xB (cyc - y.1.last) ++ toBytes x.1.lost 2
  if x.1.gap = false ∨ 16384 - x.1.pending < 16 ∨ 65535 < cyc - y.1.last ∨ 16384 - y.1.pending < y.1.padFor pkt.length + pkt.length then x
  else
    let z := TraceUnit.add y pkt
    TraceUnit.sync ({ z.1 with gap := false, last := cyc }, z.2) g cyc

/-- The stream bytes that a unit has written go to the buffer of its core. -/
def traceStore (core wr : Nat) (l : List Byte) : List Effect :=
  (l.zipIdx).map fun b => .mem (traceKey core ((wr + b.2) % 16384)) b.1

/-- A unit's state after it has written from position `wr`. -/
def Prog.traceSet (core wr : Nat) (x : TraceUnit × List Byte) : Prog := fun _ => .traces core x.1 :: traceStore core wr x.2

/-- Write SYNC in a unit that records (R361, R362). -/
def Prog.traceSync (core : Nat) : Prog := Prog.on fun s =>
  let u := Tab.get (fun _ => TraceUnit.empty) s.traces core
  if s.recording core then
    Prog.traceSet core u.wr (TraceUnit.sync (u, []) (s.groupsAt (core * 256 + u.gsl)) s.cycle)
  else Prog.put (.traces core { u with need := true })

/-- A group has entered group slot k: if its core's unit traces the slot, it begins with SYNC (R361). -/
def Prog.traceEnter (k : Nat) : Prog := Prog.on fun s =>
  let u := Tab.get (fun _ => TraceUnit.empty) s.traces (k / 256)
  Prog.when (u.gsl == k % 256 && (u.en || u.hold.isSome)) (Prog.seq (Prog.put (.traces (k / 256) { u with snap := [] })) (Prog.traceSync (k / 256)))

/-- Room has returned in the buffer of a core's unit: packets lost are told of (R361). -/
def Prog.traceRoom (core : Nat) : Prog := Prog.on fun s =>
  let u := Tab.get (fun _ => TraceUnit.empty) s.traces core
  Prog.when (s.recording core) (Prog.traceSet core u.wr (TraceUnit.loss (u, []) (s.groupsAt (core * 256 + u.gsl)) s.cycle))

/-- What a unit that records does with a packet (R362): LOSS and SYNC that are due come first; one whose delta cannot be encoded is dropped. -/
def TraceUnit.write (u : TraceUnit) (g : Group) (cyc pt : Nat) (body : List Byte) : TraceUnit × List Byte :=
  let x := TraceUnit.loss (u, []) g cyc
  let y := if x.1.need || x.1.syncDue cyc ((traceHead pt (cyc - x.1.last)).length + body.length) then TraceUnit.sync x g cyc else x
  if 65535 < cyc - y.1.last then ({ y.1 with drop := min (y.1.drop + 1) 4294967295, lost := min (y.1.lost + 1) 65535, gap := true }, y.2)
  else
    let z := TraceUnit.add y (traceHead pt (cyc - y.1.last) ++ body)
    ({ z.1 with last := if z.1.wr = y.1.wr then y.1.last else cyc }, z.2)

/-- Write a packet of a core's unit, which records (R362). -/
def Prog.packet (core pt : Nat) (body : List Byte) : Prog := Prog.on fun s =>
  let u := Tab.get (fun _ => TraceUnit.empty) s.traces core
  Prog.when (s.recording core) (Prog.traceSet core u.wr (u.write (s.groupsAt (core * 256 + u.gsl)) s.cycle pt body))

/-- Write a packet about a group, if its core's unit traces its slot. -/
def Prog.trace (w : Issuer) (pt : Nat) (body : List Byte) : Prog := Prog.on fun s =>
  match w with
  | .grp k _ =>
    Prog.when ((Tab.get (fun _ => TraceUnit.empty) s.traces (k / 256)).gsl == k % 256 && s.recording (k / 256))
      (Prog.packet (k / 256) pt body)
  | _ => Prog.skip

/-- TKN (Table 22.7). -/
def Prog.traceTaken (w : Issuer) (ent : Nat) (taken : Bool) : Prog :=
  Prog.trace w 0x1 [BitVec.ofNat 8 (ent * 16 + (if taken then 1 else 0))]
/-- IND. -/
def Prog.traceInd (w : Issuer) (ent pc : Nat) : Prog := Prog.trace w 0x2 (BitVec.ofNat 8 (ent * 16) :: toBytes pc 4)
/-- SPLIT: the reason is 0 BRD, 1 class split, 2 park, 3 JOIN outside the knot. -/
def Prog.traceSplit (w : Issuer) (kept new reason : Nat) (target : Bool) (mask : Nat) : Prog :=
  Prog.trace w 0x3 (BitVec.ofNat 8 (kept * 16 + new) :: BitVec.ofNat 8 (reason * 64 + (if target then 32 else 0)) :: toBytes mask 2)
/-- MERGE. -/
def Prog.traceMerge (w : Issuer) (ent mask : Nat) : Prog := Prog.trace w 0x4 (BitVec.ofNat 8 (ent * 16) :: toBytes mask 2)
/-- EXIT. -/
def Prog.traceExit (w : Issuer) (ent mask : Nat) : Prog := Prog.trace w 0x5 (BitVec.ofNat 8 (ent * 16) :: toBytes mask 2)

/-- A packet with its split entry enters a list that is in the order of entries, behind those of its own. -/
def inEntries (a : Nat × Prog) : List (Nat × Prog) → List (Nat × Prog)
  | [] => [a]
  | b :: t => if b.1 ≤ a.1 then b :: inEntries a t else a :: b :: t

/-- Write a group back with the changes to its counters' holders, and then the packets of the instruction in ascending split entry (R362): those given, and a MERGE for
each release (R363). DESIGN CHOICE: a SPLIT stands at its kept entry (log 52). -/
def Prog.ghTold (w : Issuer) (x : GH) (l : List (Nat × Prog)) : Prog :=
  let merges := x.hs.filterMap fun h => match h with
    | .join _ e => some (e, Prog.traceMerge w e (x.g.frag e).mask)
    | _ => none
  Prog.all [Prog.grp w (x.g.heirs x.hs), Prog.heirs w x.hs, Prog.each (·.2) ((l ++ merges).foldl (fun t a => inEntries a t) [])]

/-- Write a group back with the changes to its counters' holders; a release writes its MERGE packet (R363). -/
def Prog.gh (w : Issuer) (x : GH) : Prog := Prog.ghTold w x []

/-! ## Issue (R15 to R18) -/

/-- An instruction as it issues: who, its group and fragment, its header and its length in bytes; `mem` says that the slot it sets counts as
one of memory (Table 14.3: SB_MEM). -/
structure Ex where
  w : Issuer
  g : Group
  i : Nat
  f : Frag
  h : Hdr
  len : Nat
  cyc : Nat
  mem : Bool

/-- The issuing fragment, live; a context runs while its STATE is 0b01 (Table 11.4a). -/
def Ex.of (s : State) (h : Hdr) (len : Nat) : Option Ex :=
  match s.turn with
  | .grp k i =>
    let g := s.groupsAt k
    if g.live && (g.frag i).fst == .live then
      some { w := .grp k i, g := g, i := i, f := g.frag i, h := h, len := len, cyc := s.cycle, mem := false }
    else none
  | .ctx k =>
    let c := s.ctxsAt k
    if c.state == 1 && (c.g.frag 0).fst == .live then
      some { w := .ctx k, g := c.g, i := 0, f := c.g.frag 0, h := h, len := len, cyc := s.cycle, mem := false }
    else none
  | .pipe _ _ => none

/-- An encoded instruction: it runs for the issuer whose turn it is. -/
def issue (h : Hdr) (len : Nat) (s : State) (p : Ex → Prog) : Host.Outcome State Fault Refusal :=
  match Ex.of s h len with
  | none => .fault .noIssuer
  | some x => (p x).go s

def Ex.isCtx (x : Ex) : Bool :=
  match x.w with
  | .ctx _ => true
  | _ => false

/-- The active lanes of a lane instruction (R16). -/
def Ex.act (x : Ex) : Nat := x.g.act x.f.mask x.h
/-- The class slots in which a group-wide guard holds (R16). -/
def Ex.actQ (x : Ex) : Nat := x.g.actQ x.f.mask x.h

/-- The fragment after its instruction has issued: the next PC, the stall gate (R15), the SBS slot where `sets` (R21). -/
def Ex.after (x : Ex) (sets : Bool) : Frag :=
  let f := { x.f with pc := x.f.pc + x.len, target := false, gate := x.cyc + x.h.stall.val + 1, iss := x.f.iss + 1, holdSince := none,
                      hold := .none }
  let k := x.h.sbs.val
  if sets && k != 0 then
    { f.setSlot k (f.slotAt k + 1) with sbm := if x.mem then f.sbm ||| 2 ^ k else if bit f.sbm k then f.sbm - 2 ^ k else f.sbm }
  else f

/-- The group after an issue: RETIRED (Table 17.2) and the logical clock (R139) count it. -/
def Ex.issued (x : Ex) (sets : Bool) : Group :=
  { x.g.setFrag x.i (x.after sets) with retired := x.g.retired + 1, clk := x.g.clk + 1 }

/-- Add a fixed-latency result to the group. -/
def Group.later (g : Group) (p : Pend) : Group := { g with pend := g.pend ++ [p] }

/-- The group after an instruction of fixed latency λ (R19); `active` says that it has an active lane or class slot, and sets its slot
(R16). -/
def Ex.fixedG (x : Ex) (lat : Nat) (active : Bool) (outs : List Out) : Group :=
  let g := x.issued active
  if outs.isEmpty && (x.h.sbs.val == 0 || !active) then g
  else g.later { ready := x.cyc + lat, age := x.cyc, outs := outs, slot := if active then x.h.sbs.val else 0, heirs := [x.i] }

/-- Finish an instruction of fixed latency. -/
def Ex.fixed (x : Ex) (lat : Nat) (active : Bool) (outs : List Out) : Prog := Prog.grp x.w (x.fixedG lat active outs)

/-- Finish an instruction that writes no register. DEDUCED: a slot that it sets is released in the cycle after issue, as R240 says of an
instruction without effect (log 8). -/
def Ex.plain (x : Ex) (active : Bool) : Prog := x.fixed 2 active []

/-- A register file's entries: for the checking scoreboard (R23). -/
structure Foot where
  file : RFile
  reg : Nat
  lanes : Nat
  deriving DecidableEq, Repr

/-- Whether a result to come lies in a footprint. Constants are no register writes (R7). -/
def Foot.meets (ft : Foot) (o : Out) : Bool :=
  ft.file == o.file && ft.reg == o.reg && !(o.reg == 0 && (o.file == .s || o.file == .p || o.file == .q)) && !o.sets &&
    (match o.file with
     | .v | .p => bit ft.lanes o.lane
     | _ => true)

/-- R23: a register read or written whose fixed-latency result is not yet readable, or whose variable-latency write is outstanding. -/
def Ex.hazard (x : Ex) (s : State) (feet : List Foot) : Bool :=
  x.g.check.toNat % 2 == 1 &&
    feet.any fun ft =>
      x.g.pend.any (fun p => decide (x.cyc < p.ready) && p.outs.any ft.meets) ||
      s.ops.any (fun p => match p.2 with
        | some o => sameAgent o.who x.w && o.outs.any ft.meets
        | none => false)

/-- The guard's register, as a footprint: p for a lane instruction. -/
def Ex.guardP (x : Ex) : Foot := { file := .p, reg := x.h.gp.val, lanes := x.f.mask }
def Ex.guardQ (x : Ex) : Foot := { file := .q, reg := x.h.gp.val, lanes := 0xFFFF }

/-! ## Operations outstanding (R20, R21) -/

/-- The split entries whose fragments an agent's operation is go-before, and its number: operations of one agent in order of issue. -/
def State.agentOps (s : State) (w : Issuer) : List (Nat × Op) :=
  s.ops.filterMap fun p => match p.2 with
    | some o => if sameAgent o.who w then some (p.1, o) else none
    | none => none

/-- The operations that a fragment's next access is ordered after (R180, R206): acquires and acquiring fences that are go-before it, and,
where it writes, releasing fences too. -/
def State.acquires (s : State) (w : Issuer) (i : Nat) (writes : Bool) : List Nat :=
  ((s.agentOps w).filter fun p => decide (i ∈ p.2.heirs) && (p.2.acq || (match p.2.kind with
    | .fence .rel => writes
    | .fence _ => true
    | _ => false))).map (·.1)

/-- The operations that are go-before a fragment's next instruction (R187). -/
def State.goBefore (s : State) (w : Issuer) (i : Nat) : List Nat :=
  ((s.agentOps w).filter fun p => decide (i ∈ p.2.heirs)).map (·.1)

/-- Start an outstanding operation. -/
def Prog.newOp (o : Op) : Prog := Prog.on fun s => fun _ => [.ops s.nextId (some o), .nextId (s.nextId + 1)]

/-- An operation of the issuing fragment, with defaults. -/
def Ex.op (x : Ex) (kind : OpKind) (outs : List Out) (elems : List Elem) : Op :=
  { who := x.w, age := x.cyc, passed := [], kind := kind, slot := x.h.sbs.val, heirs := [x.i], elems := elems, outs := outs, read := false, acq := false, rel := false,
    released := false, marked := false, scope := .dev, after := [], vf := 0, asid := 0, pc := x.f.pc, wg := [] }

/-- Finish an instruction whose results, known at issue, have variable latency (R20, R142). With no result to write it sets no slot (R16). -/
def Ex.variable (x : Ex) (g : Group) (outs : List Out) : Prog :=
  if outs.isEmpty then Prog.grp x.w g else Prog.seq (Prog.grp x.w g) (Prog.newOp (x.op .result outs []))

/-! ## Causes (Table 16.1) -/

def cIllegalOp : Nat := 0x01
def cIllegalField : Nat := 0x02
def cPadTarget : Nat := 0x03
def cStallShort : Nat := 0x04
def cKnotOverflow : Nat := 0x05
def cUniformity : Nat := 0x06
def cXlatMiss : Nat := 0x08
def cXlatDenied : Nat := 0x09
def cXlatInvalid : Nat := 0x0A
def cAliasAttr : Nat := 0x0B
def cBadWindow : Nat := 0x0C
def cForeignScratch : Nat := 0x0D
def cScratchBound : Nat := 0x0E
def cMisaligned : Nat := 0x0F
def cWriteRange : Nat := 0x10
def cBarrierFormat : Nat := 0x11
def cTritCode : Nat := 0x14
def cAnchorMismatch : Nat := 0x15
def cMixedFeed : Nat := 0x16
def cAccBound : Nat := 0x17
def cFormatLatch : Nat := 0x18
def cLayoutRecord : Nat := 0x1C
def cEngineFault : Nat := 0x1D
def cTrapSw : Nat := 0x20
def cDebugBreak : Nat := 0x21
def cPreempt : Nat := 0x22
def cUncorrectable : Nat := 0x28
def cCoreFenced : Nat := 0x29

/-- The classes of Table 16.1 that let a record be resumed (R285). -/
def resumable (c : Nat) : Bool := decide (c ∈ [0x04, 0x08, 0x09, 0x0B, 0x1D, 0x20, 0x21])

/-- Precedence of causes (R17, R172, R173, R192); causes that the rules leave unordered rank by value after these. -/
def causeRank (c : Nat) : Nat :=
  match findPos (· == c) [0x03, 0x01, 0x02, 0x04, 0x06, 0x0F, 0x0C, 0x11, 0x0D, 0x0E, 0x0A, 0x08, 0x09, 0x0B, 0x10] with
  | some n => n
  | none => 100 + c

/-! ## Fault records (R286, R287) -/

/-- A fault record (Table 16.2). -/
def recWord (addr token pc mask sec cause vf asid ent die clu core slot frag nfail : Nat) (sq : Bool) : Nat :=
  1 + (if sq then 1 else 0) * 2 ^ 24 + (nfail % 2 ^ 16) * 2 ^ 25 + (frag % 16) * 2 ^ 41 + (slot % 256) * 2 ^ 45 + (core % 4) * 2 ^ 53 +
    (clu % 128) * 2 ^ 55 + (die % 4) * 2 ^ 62 + (ent % 16) * 2 ^ 66 + (asid % 2 ^ 20) * 2 ^ 70 + (vf % 64) * 2 ^ 90 + (cause % 256) * 2 ^ 96 +
    (sec % 256) * 2 ^ 104 + (mask % 2 ^ 16) * 2 ^ 112 + (pc % 2 ^ 32) * 2 ^ 128 + (token % 2 ^ 32) * 2 ^ 160 + (addr % 2 ^ 64) * 2 ^ 192

/-- The position fields of a group's records: die, cluster, core and group slot. -/
def grpPos (w : Issuer) : Nat × Nat × Nat × Nat :=
  match w with
  | .grp k _ => (dieOf (k / 256), clusterOf (k / 256) % 128, k / 256 % 4, k % 256)
  | .ctx k => (k / 512, k / 4 % 128, k % 4, 0)
  | .pipe d _ => (d, 0, 0, 0)

/-- The group slot at the position that a record holds; none of a context's. -/
def recHome (w : Nat) : Option Nat := if bit w 24 then none else some ((bits w 63 53) * 256 + bits w 52 45)
/-- A record with the position of a group slot (R286). -/
def atHome (w k : Nat) : Nat := setBits (setBits w 63 53 (k / 256)) 52 45 (k % 256)

/-- The next token of a function: a 32-bit counter that skips 0 (R287). -/
def nextToken (t : Nat) : Nat := if (t + 1) % 2 ^ 32 = 0 then 1 else (t + 1) % 2 ^ 32

def noRec : FRec := { word := 0, cause := 0, parked := none, node := 0, notice := false, delivered := false, resolved := 0, home := none }
/-- The record that a token names. -/
def Func.recAt (f : Func) (t : Nat) : FRec := Tab.get (fun _ => noRec) f.recs t
def Func.setRec (f : Func) (t : Nat) (r : FRec) : Func := { f with recs := Tab.put (fun _ => noRec) f.recs t r }

/-- The group of a slot is no more: its records keep the position that it had (R286). -/
def Prog.leaveSlot (k : Nat) : Prog := fun s => s.fns.filterMap fun p =>
  let l : Tab FRec := p.2.recs.map fun x => (x.1, if x.2.home = some k then { x.2 with word := if x.2.delivered then x.2.word else atHome x.2.word k, home := none } else x.2)
  if l == p.2.recs then none else some (Effect.fns p.1 { p.2 with recs := l })

/-- A record for a function's fault queue: it takes the next token and waits for delivery (R287). -/
def Prog.record (vf : Nat) (word : Nat) (cause : Nat) (parked : Option (Nat × Nat)) (node : Nat) (notice : Bool) : Prog := fun s =>
  let f := s.fnsAt vf
  let t := nextToken f.token
  let r : FRec := { word := word + t * 2 ^ 160, cause := cause, parked := parked, node := node, notice := notice, delivered := false,
                    resolved := 0, home := recHome word }
  [.fns vf ({ f with token := t, faultWait := f.faultWait ++ [t] }.setRec t r)]

/-! ## Region control blocks and retirement (R117, R120) -/

/-- FD of a node (Table 5.2, bit 57). -/
def State.nodeFD (s : State) (a : Nat) : Bool := bit (s.load (a + 7) 1) 1

/-- Write STATE of a node (bits 39:38). -/
def Prog.nodeState (a v : Nat) : Prog := Prog.on fun s => Prog.store (a + 4) 1 (setBits (s.load (a + 4) 1) 7 6 v)

def State.launch (s : State) (n : Nat) : Option Launch := s.launchesAt n
def State.wg (s : State) (n : Nat) : Option Wg := s.wgsAt n

/-- The chain of RCBs of a workgroup: HPAs from its launch RCB up to the partition's. -/
def State.wgChain (s : State) (n : Nat) : List Nat :=
  match s.wg n with
  | some w => (match s.launch w.launch with | some l => l.chain | none => [])
  | none => []

/-- The nearest node whose FD is 1, going up; none is the root, whose FD reads 1 (R120). -/
def State.domain (s : State) (chain : List Nat) : Option Nat := chain.find? s.nodeFD

/-- Whether a launch lies below a node; none is the root. -/
def Launch.below (l : Launch) (node : Option Nat) : Bool :=
  match node with
  | none => true
  | some a => decide (a ∈ l.chain)

/-- The workgroups below a node. -/
def State.wgsBelow (s : State) (node : Option Nat) : List Nat :=
  s.wgs.filterMap fun p => match p.2 with
    | some w => (match s.launch w.launch with | some l => if l.below node && !w.ended then some p.1 else none | none => none)
    | none => none

/-- The first workgroup's launch RCB of an owner-table entry: what a Notice keeps (R288). -/
def State.entNode (s : State) (o : Owner) : Nat := (s.wgChain o.id).headD 0

/-- A Notice of an engine failure for the owner of an entry without a lane (R241, R287). -/
def Prog.noticeOf (w : Issuer) (o : Owner) (e : Nat) (fl : Failure) : Prog := Prog.on fun s =>
  let (d, c, k, sl) := grpPos w
  Prog.seq
    (Prog.record o.vf (recWord fl.addr 0 fl.pc 0 fl.cause cEngineFault o.vf o.asid e d c k sl 0 fl.nfail false) cEngineFault none (s.entNode o) true)
    (Prog.eventNow d 3 (c * 4 + k) o.vf o.asid cEngineFault 0 fl.pc)

/-- A Notice for a kept engine failure of an entry (R241, R287); the entry keeps none afterwards. -/
def Prog.notice (w : Issuer) (e : Nat) : Prog := Prog.on fun s =>
  let g := s.grp w
  Prog.when ((g.fail e).cause != 0) (Prog.seq (Prog.noticeOf w (g.owner e) e (g.fail e)) (Prog.grp w (g.setFail e Failure.none)))

/-- Lanes end in a group (R112, R120, R352): they leave every fragment and knot. -/
def Prog.leave (w : Issuer) (m : Nat) : Prog := Prog.on fun s => Prog.gh w (GH.leave { g := s.grp w, hs := [] } m s.cycle)

/-- Lanes of entry `i` exit (R112), with the EXIT packet: when an owner-table entry has no lane left its kept failure is delivered as a Notice (R241). -/
def Prog.leaveLanes (w : Issuer) (i m : Nat) : Prog := Prog.on fun s =>
  Prog.seq (Prog.ghTold w (GH.leave { g := s.grp w, hs := [] } m s.cycle) [(i, Prog.traceExit w i m)])
    (Prog.each (fun e => Prog.on fun t => Prog.when (((t.grp w).owner e).lanes &&& (t.grp w).pres == 0) (Prog.notice w e)) ((s.grp w).entsOf m))

/-- The split entry that holds a lane, with its PC; frozen in a handler. -/
def Group.homeFrag (g : Group) (l : Nat) : Nat × Nat :=
  match g.handler with
  | some h =>
    let w := fun i => (Tab.get (fun _ => (0 : DWord)) h.frozen (0x0100 + i)).toNat
    let i := ((List.range 16).find? fun i => bits (w i) 63 62 != 0 && bit (bits (w i) 47 32) l).getD 0
    (i, bits (w i) 31 2 * 4)
  | none =>
    let i := ((List.range 16).find? fun i => (g.frag i).fst != .free && bit (g.frag i).mask l).getD 0
    (i, (g.frag i).pc)

/-- The record that a retirement gives an entry of a group whose lanes it ends (R287). In a group that has still to start, their PC is the entry of their
launch (log 46). -/
def Prog.endRecord (w : Issuer) (g : Group) (e cause : Nat) : Prog := Prog.on fun s =>
  let o := g.trueOwner e
  let m := g.entPres e
  let start := match s.wg o.id with
    | some x => (match s.launch x.launch with | some l => bits l.rec_ 255 224 / 4 * 4 | none => 0)
    | none => 0
  let fr := if g.live then g.homeFrag (lowest m) else (0, start)
  let (d, c, k, sl) := grpPos w
  Prog.when (o.valid && m != 0)
    (Prog.record o.vf (recWord 0 0 fr.2 m 0 cause o.vf o.asid e d c k sl fr.1 0 false) cause none (s.entNode o) false)

/-- The groups with an owner-table entry that stands for one of the workgroups, with those entries. -/
def State.entriesOf (s : State) (wgs : List Nat) : List (Nat × List Nat) :=
  s.groups.filterMap fun p =>
    let es := (List.range 16).filter (fun e => (p.2.trueOwner e).valid && decide ((p.2.trueOwner e).id ∈ wgs))
    if es.isEmpty then none else some (p.1, es)

/-- Lanes leave the frozen state of a handler (R120, R131): masks, knots, the owner table. Where no entry is left the handler ends too. -/
def Group.thawLanes (g : Group) (h : Handler) (es : List Nat) (m : Nat) : Group :=
  let word := fun (t : Tab DWord) k => (Tab.get (fun _ => (0 : DWord)) t k).toNat
  let put := fun (t : Tab DWord) k v => Tab.put (fun _ => (0 : DWord)) t k (BitVec.ofNat 64 v)
  let f1 := (List.range 16).foldl (fun t i =>
    let x := word t (0x0100 + i)
    let mk := mDiff (bits x 47 32) m
    put t (0x0100 + i) (if mk = 0 then 0 else setBits x 47 32 mk)) h.frozen
  let f2 := (List.range 32).foldl (fun t i =>
    let x := word t (0x0300 + i)
    let mk := mDiff (bits x 63 48) m
    put t (0x0300 + i) (if mk = 0 then 0 else setBits (setBits x 63 48 mk) 47 32 (mDiff (bits x 47 32) m))) f1
  let f3 := es.foldl (fun t e => [0, 1, 2, 3].foldl (fun t w => put t (0x0600 + 4 * e + w) 0) (put t (0x0400 + 2 * e) (word t (0x0400 + 2 * e) / 2 * 2))) f2
  let os := es.foldl (fun t e => Tab.put (fun _ => Owner.empty) t e { Tab.get (fun _ => Owner.empty) t e with valid := false }) h.owners
  let h1 := { h with frozen := f3, owners := os, pres := mDiff h.pres m }
  if os.all fun p => !p.2.valid then { g with handler := none, owners := os, pres := 0, frags := [], waiting := [], knots := [] }
  else { g with handler := some h1 }

/-- Lanes of retired entries end in one group (R120, R352), and their kept failures are discarded (R241): `cause` 0 makes no record (R343), and `skip` names
the entries of the faulting fragment (R287). -/
def Prog.endEntries (k : Nat) (es : List Nat) (cause : Nat) (skip : List (Nat × Nat)) : Prog := Prog.on fun s =>
  let g := s.groupsAt k
  let m := es.foldl (fun m e => m ||| (g.trueOwner e).lanes) 0 &&& g.truePres
  Prog.seq
    (Prog.each (fun e => Prog.when (cause != 0 && !decide ((k, e) ∈ skip)) (Prog.endRecord (.grp k 0) g e cause)) es)
    (match g.handler with
     | some h => Prog.put (.groups k (es.foldl (fun g e => g.setFail e Failure.none) (g.thawLanes h es m)))
     | none =>
       Prog.seq (Prog.when g.live (Prog.leave (.grp k 0) m))
         (Prog.on fun t =>
           let h := t.groupsAt k
           Prog.put (.groups k (es.foldl (fun h e => (h.setOwner e { h.owner e with valid := false }).setFail e Failure.none) h))))

/-- Whether a handler runs for group `idx` of a unit, or has interrupted a guest handler that does. -/
def Handler.runs (h : Handler) (unit idx : Nat) : Bool := (h.unit == unit && h.idx == idx) || h.guest.any fun x => x.unit == unit && x.idx == idx

/-- Whether what a unit keeps of its group `idx` is only a copy: the group is on a core, being restored, or has been saved again by a root handler that interrupted
its guest handler. -/
def State.elsewhere (s : State) (unit idx : Nat) : Bool :=
  s.groups.any (fun p => p.2.live && p.2.handler.any fun h => h.runs unit idx) ||
    s.saved.any fun p => p.1 != unit && (match p.2 with
      | some u => u.groups.any fun g => g.handler.any fun h => h.runs unit idx
      | none => false)

/-- Entries of saved groups end with the workgroups that they stand for (R287): their records name the place from which the group was saved. A group that is
elsewhere has its records there. -/
def Prog.endSaved (ws : List Nat) (cause : Nat) : Prog := Prog.on fun s =>
  Prog.when (cause != 0) (Prog.each (fun (p : Nat × Option Saved) => match p.2 with
    | some u => Prog.each (fun (x : (Group × Nat) × Nat) => Prog.when (!s.elsewhere p.1 x.2)
        (Prog.each (fun e => Prog.when (x.1.1.live && decide ((x.1.1.trueOwner e).id ∈ ws)) (Prog.endRecord (.grp x.1.2 0) x.1.1 e cause)) (List.range 16))) (u.groups.zip u.grps).zipIdx
    | none => Prog.skip) s.saved)

/-! ## The start of a group (R10, R122 to R125, R227) -/

/-- Whether two entries are in one class (R124). -/
def sameClass (a b : Owner) : Bool :=
  if a.awn = 0 ∧ b.awn = 0 then a.vf == b.vf && a.asid == b.asid else a.awn == b.awn

/-- Class slots in the order of the lowest entry of each class (R124). -/
def classSlots : List Owner → List (Owner × Nat) → Nat → List (Owner × Nat)
  | [], done, _ => done
  | o :: t, done, n =>
    match done.find? fun p => sameClass p.1 o with
    | some p => classSlots t (done ++ [(o, p.2)]) n
    | none => classSlots t (done ++ [(o, n)]) (n + 1)

/-- The launch arguments of one lane (R125). -/
def argRegs (g : Group) (args wgn : Nat) (o : Owner) : List (Nat × Word) :=
  (onesOf o.lanes 16).flatMap fun (l : Nat) =>
    [(l, BitVec.ofNat 32 args), (16 + l, BitVec.ofNat 32 (args / 4294967296)), (32 + l, BitVec.ofNat 32 wgn),
     (48 + l, BitVec.ofNat 32 (o.base + (l : Int)).toNat)].filter fun p => p.1 / 16 < g.regs

/-- GROUP_START (R10, R125): once no workgroup of the group is still to be admitted, its registers are zeroed, the launch arguments are written and
its first fragment issues from ENTRY, bits 1:0 zero (R13). One whose workgroups have all been retired gives its slot back. -/
def Prog.groupStart (k : Nat) : Prog := Prog.on fun s =>
  let g := s.groupsAt k
  let waits := s.admits.any fun a => match s.wgsAt a.wg with
    | some w => decide (k ∈ w.groups)
    | none => false
  let es := (List.range 16).filter fun e => (g.owner e).valid
  if g.live || g.owners.isEmpty || waits then Prog.skip
  else if es.isEmpty then Prog.seq (Prog.put (.groups k Group.empty)) (Prog.leaveSlot k)
  else
    let os := (classSlots (es.map g.owner) [] 0).map (·.2)
    let launchOf := fun (o : Owner) => match s.wgsAt o.id with
      | some w => s.launchesAt w.launch
      | none => none
    let rec_ := fun (o : Owner) => match launchOf o with | some l => l.rec_ | none => 0
    let ids := es.map fun e => match s.wgsAt (g.owner e).id with | some w => w.launch | none => 0
    let o0 := g.owner (es.headD 0)
    let r0 := rec_ o0
    let g1 := (es.zip os).foldl (fun (g : Group) p => g.setOwner p.1 { g.owner p.1 with cls := p.2 }) g
    let pres := es.foldl (fun m e => m ||| (g.owner e).lanes) 0
    let vs := es.flatMap fun e => let o := g.owner e; argRegs g (bits (rec_ o) 447 384) o.wg o
    let v := vs.foldl (fun (t : Tab Word) p => Tab.put (fun _ => 0) t p.1 p.2) []
    let s1 := if ids.all (fun i => i == ids.headD 0) then Tab.put (fun _ => 0) [] 1 (BitVec.ofNat 64 (bits r0 447 384)) else []
    let acc := match s.wgsAt o0.id with | some w => if w.acr = 0 then 0 else w.accBase | none => 0
    let det := bit r0 149
    let f : Frag := { Frag.empty with fst := .live, mask := pres, pc := bits r0 255 224 / 4 * 4, gate := s.cycle + 1 }
    let st := (if det then 1 else 0) + (if (s.codesAt g.code).msafe then 2 else 0) + (es.length - 1) * 256
    let g2 := ({ g1 with live := true, order := s.nextId, pres := pres, v := v, s := Tab.put (fun _ => 0) s1 2 (BitVec.ofNat 64 acc),
                         status := BitVec.ofNat 64 st, births := 1, wave := if det then some (ids.headD 0) else none,
                         rpl := es.any fun e => match launchOf (g.owner e) with | some l => l.rpl | none => false }.setFrag 0 f).enqueue 0
    Prog.seq (fun _ => [.groups k g2, .nextId (s.nextId + 1)])
      (Prog.traceEnter k)

/-- Whether an engine operation with a destination in a segment has not completed: the segment's inbound counter is not zero (R242). -/
def State.inbound (s : State) (core : Nat) (g : Seg) : Bool :=
  s.engs.any fun p => match p.2 with
    | some e => e.core == core && !e.done && e.dest.any fun d => decide (d.1 < g.base + g.len) && decide (g.base < d.2)
    | none => false

/-- Release the segments of a core whose workgroups have ended and which nothing enters (R242). -/
def Prog.freeSegs (core : Nat) : Prog := Prog.on fun s =>
  let c := s.coresAt core
  Prog.put (.cores core { c with segs := c.segs.filter fun g => !(g.dead && !s.inbound core g) })

/-- A workgroup that has not been admitted is discarded (R120): what the market had set aside for it is free again, and its group may start
without it. -/
def Prog.discard (n : Nat) : Prog := Prog.on fun s =>
  match s.wgsAt n with
  | none => Prog.skip
  | some w =>
    let c := s.coresAt w.core
    Prog.seq
      (fun _ => [.wgs n none, .admits (s.admits.filter fun a => a.wg != n),
        .cores w.core { c with segs := c.segs.filter fun x => x.wg != n, accs := c.accs.filter fun x => x.wg != n }])
      (Prog.each Prog.groupStart w.groups)

/-- Retire a node (R120): every workgroup below it ends, what is not yet admitted is discarded, and STATE becomes 0b10. A saved workgroup ends
too, without a lane. -/
def Prog.retire (node : Option Nat) (cause : Nat) (skip : List (Nat × Nat)) : Prog := Prog.on fun s =>
  let all := s.wgsBelow node
  let waiting := fun n => s.admits.any fun a => a.wg == n && !(match s.wgsAt n with | some w => w.saved | none => false)
  let ws := all.filter fun n => !waiting n
  Prog.all [
    Prog.each (fun (p : Nat × Option Launch) => match p.2 with
      | some l => Prog.when (l.below node) (Prog.put (.launches p.1 (some { l with retired := true })))
      | none => Prog.skip) s.launches,
    Prog.each Prog.discard (all.filter waiting),
    Prog.each (fun (p : Nat × List Nat) => Prog.seq (Prog.endEntries p.1 p.2 cause skip) (Prog.groupStart p.1)) (s.entriesOf ws),
    Prog.endSaved ws cause,
    Prog.each (fun n => Prog.on fun t => match t.wg n with
      | some w =>
        Prog.seq (Prog.put (.wgs n (some { w with ended := true })))
          (match t.launch w.launch with
           | some l => Prog.eventNow (dieOf w.core) 2 (w.core % 512) l.vf l.asid 2 w.lanes w.num
           | none => Prog.skip)
      | none => Prog.skip) ws,
    match node with
    | some a => Prog.nodeState a 2
    | none => Prog.on fun t => Prog.put (.root (setBits t.root 39 38 2))]

/-- Retire the fault domain of an owner-table entry (R120). -/
def Prog.retireEntry (w : Issuer) (e cause : Nat) (skip : List (Nat × Nat)) : Prog := Prog.on fun s =>
  Prog.retire (s.domain (s.wgChain ((s.grp w).owner e).id)) cause skip

/-! ## Taking a fault (R17, R173, R221, R304, R312) -/

/-- One parked fragment to be formed: the owner-table entry, its lanes, its faulting lanes, and the cause and address of the record. -/
structure ParkPart where
  ent : Nat
  lanes : Nat
  bad : Nat
  cause : Nat
  addr : Nat
  deriving DecidableEq, Repr

/-- The entries that park (R173): all active lanes of each entry with a faulting one, the cause of highest precedence, and the address of
the lowest faulting lane. -/
def parkParts (g : Group) (mask act : Nat) (faults : List LaneFault) : List ParkPart :=
  let bad := maskWhere (fun l => faults.any (fun x => x.lane == l))
  (g.entsOf bad).map fun e =>
    let m := (g.owner e).lanes
    let mine := faults.filter (fun x => bit m x.lane)
    let best := mine.foldl (fun c x => if causeRank x.cause < causeRank c then x.cause else c) ((mine.map (·.cause)).headD 0)
    let low := mine.foldl (fun b x => if x.lane < b.lane then x else b) (mine.headD { lane := 16, cause := 0, addr := 0 })
    { ent := e, lanes := m &&& mask &&& (act ||| bad), bad := m &&& bad, cause := best, addr := low.addr }

/-- Form the parked fragments of F (R312): F's entry keeps the lanes that do not park; each part takes the lowest free entry, and F's own
entry becomes the first part where every lane parks. The answer names each part's entry; a slot that becomes free is still to be filled. -/
def GH.park (x : GH) (i pc : Nat) (parts : List ParkPart) : GH × List (ParkPart × Nat) :=
  let f := x.g.frag i
  let all := parts.foldl (fun m p => m ||| p.lanes) 0
  let keep := mDiff f.mask all
  let own := keep == 0
  let start : GH × List (ParkPart × Nat) := (x, [])
  let (y, l) := parts.foldl (fun (st : GH × List (ParkPart × Nat)) p =>
    if own && st.2.isEmpty then (st.1, [(p, i)])
    else
      let j := st.1.g.freeFrags.headD 15
      let z := st.1.newFrag i j p.lanes pc false f.gate .parked
      (z, st.2 ++ [(p, j)])) start
  let g1 :=
    if own then
      match l with
      | (p, _) :: _ =>
        (y.g.setFrag i { y.g.frag i with fst := .parked, mask := p.lanes, pc := pc, hold := .none, holdSince := none, target := false }).unslot i
      | [] => y.g
    else y.g.setFrag i { y.g.frag i with mask := keep }
  ({ y with g := g1 }, l)

/-- Closed batches of a context complete, in their order, as far as everything that they have issued has performed (R231): one that has issued nothing completes with
the batch before it (R251). -/
def Prog.batchesDone (k : Nat) : Prog := Prog.on fun s =>
  let done := (s.ctxsAt k).closed.takeWhile fun b => (s.ctxsAt k).passes.all fun r => r.batch != b.1
  Prog.each (fun (b : Nat × Nat) => Prog.on fun t =>
    let c := t.ctxsAt k
    Prog.seq (Prog.put (.ctxs k { c with closed := c.closed.drop 1, bdone := (c.bdone + 1) % 4294967296 }))
      (Prog.eventNow (k / 512) 6 (k % 512) c.vf c.asid 1 (min b.2 65535) b.1)) done

/-- Close the open batch of a context (R231): the next one opens, its chain ends, and its BATCH event is written (R260). -/
def Prog.closeBatch (k : Nat) : Prog := Prog.on fun s =>
  let c := s.ctxsAt k
  Prog.seq (Prog.put (.ctxs k { c with batch := (c.batch + 1) % 4294967296, nonempty := false, charge := 0, chain := false, pendL := 0,
                                       closed := c.closed ++ [(c.batch, c.charge)], closedAt := some c.g.retired }))
    (Prog.seq (Prog.eventNow (k / 512) 6 (k % 512) c.vf c.asid 0 (min c.charge 65535) c.batch) (Prog.batchesDone k))

/-- A context faults: its batch closes, and it stops at a PC. -/
def Prog.ctxHalt (k cause pc : Nat) : Prog :=
  Prog.seq (Prog.closeBatch k) (Prog.on fun s =>
    let c := s.ctxsAt k
    Prog.put (.ctxs k { c with state := 2, cause := cause, fpc := pc, stopping := false,
                               g := c.g.setFrag 0 { c.g.frag 0 with pc := pc, hold := .none, holdSince := none } }))

/-- The sequencer's reaction to a fault (R221): STATE 0b10, CAUSE and SQPC; the open batch is closed; the owner's VF is notified. -/
def Prog.ctxFault (k cause sec addr pc : Nat) : Prog :=
  Prog.seq (Prog.ctxHalt k cause pc) (Prog.on fun s =>
    let c := s.ctxsAt k
    Prog.all [
      Prog.record c.vf (recWord addr 0 pc 1 sec cause c.vf c.asid 0 (k / 512) (k / 4 % 128) 0 0 (k % 4) 0 true) cause none 0 false,
      Prog.eventNow (k / 512) 3 (512 + k / 4 % 128) c.vf c.asid cause 1 pc])

/-- A fault in a handler leaves its group stopped, with its frozen state; the request fails (R304). -/
def Prog.failHandler (k : Nat) (g : Group) (h : Handler) : Prog := Prog.on fun s =>
  Prog.seq (Prog.put (.groups k { g with handler := some { h with failed := true }, stop := { g.stop with stopped := true } }))
    (match s.savedAt h.unit with
     | some u => Prog.put (.saved h.unit (some { u with failed := true }))
     | none => Prog.skip)

/-- Take a fault: the lanes of the entries that have a faulting lane park, one record each is made, a fatal cause retires its fault domain
(R285, R287), a context stops (R221) and a handler leaves its group stopped (R304). `g` is the group with the fragment's counters and PC
as they stood before the instruction, and `cont` is what the instruction does for the lanes that remain, once the others have parked; `nfail` is NFAIL of the records.
Slots that become free in the cycle are filled together (R132, R159): with a fatal cause, once the domain has retired. -/
def Prog.faultN (w : Issuer) (g : Group) (act sec nfail : Nat) (faults : List LaneFault) (cont : Prog) : Prog :=
  let i := fragOf w
  let f := g.frag i
  match w with
  | .ctx k =>
    let low := faults.headD { lane := 0, cause := 0, addr := 0 }
    Prog.seq (Prog.grp w g) (Prog.ctxFault k low.cause sec low.addr f.pc)
  | .pipe _ _ => Prog.skip
  | .grp k _ =>
    match g.handler with
    | some h => Prog.failHandler k g h
    | none => Prog.on fun s =>
      let parts := parkParts g f.mask act faults
      let (y, made) := GH.park { g := g, hs := [] } i f.pc parts
      let parked := parts.foldl (fun m p => m ||| p.lanes) 0
      let fatal := made.any fun q => !resumable q.1.cause
      let settle := fun (g : Group) => GH.settle { g := g.fill 2, hs := [] } s.cycle
      let z := { y with g := y.g.leaveKnots parked }
      let z := if fatal then z else { settle z.g with hs := z.hs ++ (settle z.g).hs }
      let (d, c, co, sl) := grpPos w
      let skip := parts.map fun p => (k, p.ent)
      Prog.all [
        Prog.ghTold w z (made.map fun q => (i, Prog.traceSplit w i q.2 2 false q.1.lanes)),
        Prog.when (mDiff f.mask parked != 0) cont,
        Prog.each (fun (q : ParkPart × Nat) =>
          let o := g.owner q.1.ent
          Prog.all [
            Prog.on fun t => Prog.put (.groups k { t.groupsAt k with
              parkRec := Tab.put (fun _ => 0) (t.groupsAt k).parkRec q.2 (nextToken (t.fnsAt o.vf).token) }),
            Prog.on fun t => Prog.record o.vf (recWord q.1.addr 0 f.pc q.1.bad sec q.1.cause o.vf o.asid q.1.ent d c co sl q.2 nfail false) q.1.cause
              (some (k, q.2)) (t.entNode o) false,
            Prog.eventNow d 3 (c * 4 + co) o.vf o.asid q.1.cause q.1.bad f.pc]) made,
        Prog.each (fun (q : ParkPart × Nat) => Prog.when (!resumable q.1.cause) (Prog.retireEntry w q.1.ent q.1.cause skip)) made,
        Prog.when fatal (Prog.on fun t => Prog.when ((t.groupsAt k).live && (t.groupsAt k).handler.isNone) (Prog.gh w (settle (t.groupsAt k))))]

/-- Take a fault whose records count no engine failure. -/
def Prog.fault (w : Issuer) (g : Group) (act sec : Nat) (faults : List LaneFault) (cont : Prog) : Prog := Prog.faultN w g act sec 0 faults cont

/-- Every lane of the fragment faults with one cause before anything of the instruction takes effect: the decode causes, STALL_SHORT and
UNIFORMITY (R17, R80). -/
def Ex.faultAll (x : Ex) (cause sec addr : Nat) : Prog :=
  Prog.fault x.w x.g x.f.mask sec ((lanesOf x.f.mask).map fun l => { lane := l, cause := cause, addr := addr }) Prog.skip

/-- The group with an issue counted that leaves the fragment where it is (R139, Table 17.2). -/
def Ex.counted (x : Ex) : Ex := { x with g := { x.g with retired := x.g.retired + 1, clk := x.g.clk + 1 } }

/-- The issue as it stands after some of its lanes have parked: its count is already made. -/
def Ex.again (x : Ex) (s : State) : Ex :=
  let g := s.grp x.w
  { x with g := { g with retired := g.retired - 1, clk := g.clk - 1 }, f := g.frag x.i }

/-- Some active lanes fault on their data (R17, R173): their entries' active lanes park, and `rest` finishes the instruction for the
others. -/
def Ex.faultLanes (x : Ex) (sec : Nat) (faults : List LaneFault) (rest : Ex → Prog) : Prog :=
  if faults.isEmpty then rest x
  else Prog.fault x.w x.counted.g x.act sec faults (Prog.on fun t => rest (x.again t))

/-- An instruction's checks before it executes (R23, R80): STALL_SHORT, then UNIFORMITY where it is marked. DESIGN CHOICE: a marked instruction of a mixed
fragment faults whatever its guard (log 46). -/
def Ex.check (x : Ex) (feet : List Foot) (marked : Bool) (p : Prog) : Prog := Prog.on fun s =>
  if x.hazard s feet then x.faultAll cStallShort 0 0
  else if marked && x.g.mixed x.f.mask then x.counted.faultAll cUniformity 0 0
  else p

/-- An instruction outside its stream's set (R63, R219): SEC is the lowest bit of OP (R67). -/
def Ex.only (x : Ex) (grp ctx : Bool) (p : Prog) : Prog :=
  if (if x.isCtx then ctx else grp) then p else x.faultAll cIllegalOp 2 0

end Sys2Proof.Machine
end

