-- ==== Sys2Proof/Machine/Operands.lean ====
section
/-! DEFINITION. Operand forms of the instructions (R8, R25, R28, R54, R78): how a source is read, which register entries a result takes, and which
entries the checking scoreboard watches (R23). -/

namespace Sys2Proof.Machine

/-! ## Sources -/

/-- s register r as lane l reads it: where a write of variable latency is outstanding, a lane may read what that brings (R22). -/
def Group.laneS (g : Group) (r l : Nat) : DWord :=
  match g.mix.find? fun p => p.1 == r with
  | some p => if bit p.2.2 l then p.2.1 else g.readS r
  | none => g.readS r

/-- Lane l of an n-bit source (R78). -/
def Group.srcVal (g : Group) (l n : Nat) : Src → Nat
  | .v r =>
    if n = 64 then (g.readV r.val l).toNat + 4294967296 * (g.readV (r.val + 1) l).toNat
    else (g.readV r.val l).toNat % 2 ^ n
  | .s r => (g.laneS r.val l).toNat % 2 ^ n

/-- IMM32 as an n-bit operand; `z` says that a 64-bit reading zero-extends it (R54: .n64). -/
def immVal (n : Nat) (z : Bool) (i : BitVec 32) : Nat :=
  if n = 64 then (if z then i.toNat else wrap 64 (sext i.toNat 32)) else i.toNat % 2 ^ n

/-- Lane l of an n-bit B operand. -/
def Group.srcIVal (g : Group) (l n : Nat) (z : Bool) : SrcI → Nat
  | .reg r => g.srcVal l n r
  | .imm i => immVal n z i

/-- An n-bit pattern as the integer of its type (R25). -/
def readInt (n : Nat) (signed : Bool) (x : Nat) : Int := if signed then sext x n else ((x % 2 ^ n : Nat) : Int)

/-- The least value of an integer type (R25). -/
def minOf (n : Nat) (signed : Bool) : Int := if signed then -((2 ^ (n - 1) : Nat) : Int) else 0
/-- The greatest value of an integer type. -/
def maxOf (n : Nat) (signed : Bool) : Int := if signed then ((2 ^ (n - 1) : Nat) : Int) - 1 else ((2 ^ n : Nat) : Int) - 1

/-- B of SALU at 64 bits (R106). -/
def Group.gsrcVal (g : Group) : GSrc → Nat
  | .s r => (g.readS r.val).toNat
  | .imm32 i => immVal 64 false i
  | .imm64 i => i.toNat

/-- Length in bytes of an instruction with this B operand (R53, R54). -/
def srcILen : SrcI → Nat
  | .reg _ => 8
  | .imm _ => 12
def simmLen : SImm → Nat
  | .s _ => 8
  | .imm _ => 12
def gsrcLen : GSrc → Nat
  | .s _ => 8
  | .imm32 _ => 12
  | .imm64 _ => 16

/-! ## Results -/

/-- An n-bit result as the register word that holds it (R25, R78). -/
def extend32 (n : Nat) (signed : Bool) (x : Nat) : Nat := if signed then wrap 32 (sext x n) else x % 2 ^ n

/-- A v result of lane l: one register, or a pair for 64 bits (R8, R78). -/
def vOut (r l n : Nat) (signed : Bool) (x : Nat) : List Out :=
  if n = 64 then [{ file := .v, reg := r, lane := l, val := x % 4294967296, msk := 0 },
                  { file := .v, reg := r + 1, lane := l, val := x / 4294967296 % 4294967296, msk := 0 }]
  else [{ file := .v, reg := r, lane := l, val := extend32 n signed x, msk := 0 }]

/-- A p result of lane l. -/
def pOut (r l : Nat) (b : Bool) : List Out := [{ file := .p, reg := r, lane := l, val := if b then 1 else 0, msk := 0 }]

/-- An s result. -/
def sOut (r x : Nat) : List Out := [{ file := .s, reg := r, lane := 0, val := x, msk := 0 }]

/-- A q result: bits `msk` of the register become those of `val` (R79). -/
def qOut (r val msk : Nat) : List Out := [{ file := .q, reg := r, lane := 0, val := val, msk := msk }]

/-- The value of a result register of an operation: its own, or that of the element it comes from. -/
def Op.value (o : Op) (t : Out) : Out :=
  match o.kind with
  | .result => t
  | _ =>
    match o.elems.find? fun e => e.lane == t.msk && (e.reg == t.reg || (e.n == 8 && t.file == .v && e.reg + 1 == t.reg)) with
    | some e =>
      let v := match t.file with
        | .v => if e.n = 8 then (if e.reg = t.reg then e.val % 4294967296 else e.val / 4294967296)
                else extend32 (8 * e.n) (match o.kind with | .load sg => sg | _ => false) e.val
        | _ => e.val
      { t with val := v, msk := 0 }
    | none => t

/-- Whether a result's value is there to be written. -/
def Op.ready (o : Op) (t : Out) : Bool :=
  match o.kind with
  | .result => true
  | _ => o.elems.all fun e => e.lane != t.msk || e.got

/-- What the outstanding writes of an agent's s registers bring, where that is known (R22). -/
def State.lateS (s : State) (w : Issuer) : List (Nat × DWord) :=
  (s.agentOps w).flatMap fun p => (p.2.outs.filter fun t => t.file == .s && p.2.ready t).map fun t => (t.reg, BitVec.ofNat 64 (p.2.value t).val)

/-- How an agent's s registers are read now: free lanes read what outstanding writes bring (R22). -/
def State.mixOf (s : State) (w : Issuer) : Tab (DWord × Nat) := (s.lateS w).zipIdx.map fun p => (p.1.1, p.1.2, s.freeAt p.2 % 65536)

/-- The free choices of such a reading are drawn. -/
def Prog.mixDrawn (w : Issuer) : Prog := Prog.on fun s =>
  Prog.when (!(s.lateS w).isEmpty) (Prog.put (.fresh (s.fresh + (s.lateS w).length)))

/-! ## Footprints (R23) -/

/-- The entries of a v operand of n bits. -/
def vFoot (r n mask : Nat) : List Foot :=
  (List.range (regsOf n)).map fun i => { file := .v, reg := r + i, lanes := mask }
def pFoot (r mask : Nat) : List Foot := [{ file := .p, reg := r, lanes := mask }]
def qFoot (r : Nat) : List Foot := [{ file := .q, reg := r, lanes := 0xFFFF }]
def sFoot (r : Nat) : List Foot := [{ file := .s, reg := r, lanes := 0xFFFF }]
def srcFoot (n mask : Nat) : Src → List Foot
  | .v r => vFoot r.val n mask
  | .s r => sFoot r.val
def srcIFoot (n mask : Nat) : SrcI → List Foot
  | .reg r => srcFoot n mask r
  | .imm _ => []
def ctlFoot : Ctl → List Foot
  | .status => [{ file := .status, reg := 0, lanes := 0xFFFF }]
  | .fpctl => [{ file := .fpctl, reg := 0, lanes := 0xFFFF }]
  | .flags => [{ file := .flags, reg := 0, lanes := 0xFFFF }]
  | .check => [{ file := .check, reg := 0, lanes := 0xFFFF }]
def gregFoot : GReg → List Foot
  | .s r => sFoot r.val
  | .ctl c => ctlFoot c

/-! ## The shape of a lane instruction -/

/-- A lane instruction of fixed latency (R16, R19, R77): `outs` gives the results of an active lane. -/
def laneFixed (h : Hdr) (len : Nat) (s : State) (lat : Nat) (feet : Nat → List Foot) (outs : Group → Nat → List Out) :
    Host.Outcome State Fault Refusal :=
  issue h len s fun x => x.only true false
    (x.check (x.guardP :: feet x.f.mask) false
      (x.fixed lat (x.act != 0) ((lanesOf x.act).flatMap (outs x.g))))

/-- A lane instruction whose results have variable latency (R20, R142). -/
def laneVar (h : Hdr) (len : Nat) (s : State) (feet : Nat → List Foot) (outs : Ex → List Out) :
    Host.Outcome State Fault Refusal :=
  issue h len s fun x => x.only true false
    (x.check (x.guardP :: feet x.f.mask) false (x.variable (x.issued (x.act != 0)) (if x.act = 0 then [] else outs x)))

/-- A group-wide instruction of fixed latency (R16, R79, R80). -/
def groupFixed (h : Hdr) (len : Nat) (s : State) (ctx : Bool) (lat : Nat) (feet : List Foot) (marked : Bool) (outs : Ex → List Out) :
    Host.Outcome State Fault Refusal :=
  issue h len s fun x => x.only true ctx
    (x.check (x.guardQ :: feet) marked (x.fixed lat (x.actQ != 0) (if x.actQ = 0 then [] else outs x)))

end Sys2Proof.Machine
end

