-- ==== Sys2Proof/Machine/Flags.lean ====
section
/-! DEFINITION. The flag results (Tables 1.4 and 2.2, R11, R12, R26): which FLAGS bits an instruction sets, as register results that OR into the
register. -/

namespace Sys2Proof.Machine

/-- Bits of FLAGS (Table 1.4). -/
def fNV : Nat := 0x1
def fDZ : Nat := 0x2
def fOF : Nat := 0x4
def fUF : Nat := 0x8
def fNX : Nat := 0x10
def fISAT : Nat := 0x20
def fINX : Nat := 0x100
def fSAT : Nat := 0x200
def fOVF : Nat := 0x400

/-- Flags that an instruction sets (R12), if any. -/
def flagOut (bits : Nat) : List Out :=
  if bits = 0 then [] else [{ file := .flags, reg := 0, lane := 0, val := bits, msk := 1 }]

/-- STATUS.FILT of lane l, set by a cross-lane result (Table 1.2, R141). -/
def filtOut (l : Nat) : List Out := [{ file := .status, reg := 0, lane := l, val := 2 ^ (32 + l), msk := 1 }]

/-- Narrow an exact integer to its type (R26, R82): clamped under saturation, which sets ISAT where it changes the value, wrapped
otherwise. -/
def narrow (n : Nat) (signed sat : Bool) (x : Int) : Nat × Nat :=
  if sat then
    let y := clamp x (minOf n signed) (maxOf n signed)
    (wrap n y, if y = x then 0 else fISAT)
  else (wrap n x, 0)

/-- A narrowed v result with its flags. -/
def intOut (r l n : Nat) (signed sat : Bool) (x : Int) : List Out :=
  let (y, f) := narrow n signed sat x
  vOut r l n signed y ++ flagOut f

end Sys2Proof.Machine
end

