-- ==== Sys2Proof/Machine/Float.lean ====
section
/-! DEFINITION. Floating-point arithmetic (R27 to R35, R92 to R100, R368): every result is formed as an exact dyadic number, rounded once. -/

namespace Sys2Proof.Machine

/-! ## Formats (Table 2.1) -/

/-- Exponent bits. -/
def expBits : Fmt → Nat
  | .f32 => 8
  | .f16 => 5
  | .bf16 => 8
  | .e4m3 => 4
  | .e5m2 => 5
/-- Fraction bits. -/
def fracBits : Fmt → Nat
  | .f32 => 23
  | .f16 => 10
  | .bf16 => 7
  | .e4m3 => 3
  | .e5m2 => 2
def fmtBits (f : Fmt) : Nat := 1 + expBits f + fracBits f
def bias (f : Fmt) : Nat := 2 ^ (expBits f - 1) - 1
/-- The sign bit. -/
def signBit (f : Fmt) : Nat := 2 ^ (expBits f + fracBits f)
/-- The code of infinity; E4M3 has none (its rules never ask for it). -/
def infBits (f : Fmt) : Nat := (2 ^ expBits f - 1) * 2 ^ fracBits f
/-- The canonical NaN. -/
def nanBits (f : Fmt) : Nat :=
  match f with
  | .e4m3 => 0x7F
  | _ => infBits f + 2 ^ (fracBits f - 1)
/-- The largest finite value. -/
def maxBits (f : Fmt) : Nat :=
  match f with
  | .e4m3 => 0x7E
  | _ => infBits f - 1

def afmt : AFmt → Fmt
  | .f32 => .f32
  | .f16 => .f16
  | .bf16 => .bf16

/-- A decoded value (R27): a NaN, an infinity, or ±m · 2^e. -/
inductive Fp where
  | nan (sig : Bool)
  | inf (neg : Bool)
  | fin (neg : Bool) (m : Nat) (e : Int)
  deriving DecidableEq, Repr

/-- The sign of a code, with its bit restored. -/
def withSign (f : Fmt) (neg : Bool) (x : Nat) : Nat := if neg then signBit f + x else x

/-- Decode a code (R27, R368). -/
def decodeFp (f : Fmt) (x : Nat) : Fp :=
  let fb := fracBits f
  let neg := bit x (expBits f + fb)
  let ex := x / 2 ^ fb % 2 ^ expBits f
  let fr := x % 2 ^ fb
  if f = .e4m3 ∧ ex = 15 ∧ fr = 7 then .nan false
  else if f ≠ .e4m3 ∧ ex = 2 ^ expBits f - 1 then (if fr = 0 then .inf neg else .nan (decide (fr < 2 ^ (fb - 1))))
  else if ex = 0 then .fin neg fr (1 - (bias f : Int) - (fb : Int))
  else .fin neg (fr + 2 ^ fb) ((ex : Int) - (bias f : Int) - (fb : Int))

/-! ## Rounding (R30, R31, R34) -/

/-- m · 2^e in units of 2^q, rounded by the mode; and whether it is inexact (R30). -/
def roundUnits (rm : Rm) (neg : Bool) (m : Nat) (e q : Int) : Nat × Bool :=
  if q ≤ e then (m * 2 ^ (e - q).toNat, false)
  else
    let d := 2 ^ (q - e).toNat
    let t := m / d
    let r := m % d
    let up := match rm with
      | .rn => decide (d < 2 * r) || (decide (2 * r = d) && t % 2 == 1)
      | .rz => false
      | .rp => !neg && r != 0
      | .rminf => neg && r != 0
    (if up then t + 1 else t, r != 0)

/-- Whether an overflow becomes an infinity (R31). -/
def toInf (rm : Rm) (neg : Bool) : Bool :=
  match rm with
  | .rn => true
  | .rz => false
  | .rp => !neg
  | .rminf => neg

/-- Round ±m · 2^e, m > 0, to a format: the code and the flags (R30, R31, R34). `sat` is the saturation variant of E4M3. OF is set wherever the exact value exceeds the
greatest finite one and is not the result, also where it rounds down to that. -/
def fpRound (f : Fmt) (rm : Rm) (sat neg : Bool) (m : Nat) (e : Int) : Nat × Nat :=
  let fb := (fracBits f : Int)
  let emin := 1 - (bias f : Int)
  let top := (Nat.log2 m : Int) + e
  let qu := top - fb
  let q := max qu (emin - fb)
  let (n, inexact) := roundUnits rm neg m e q
  let code := ((q - (emin - fb)).toNat) * 2 ^ fracBits f + n
  if maxBits f < code then
    if toInf rm neg then
      (if f = .e4m3 then (if sat then (withSign f neg 0x7E, fOF + fNX) else (0x7F, fOF + fNX + fNV))
       else (withSign f neg (infBits f), fOF + fNX))
    else (withSign f neg (maxBits f), fOF + fNX)
  else
    let ku := (roundUnits rm neg m e qu).1
    let tiny := decide (top < emin) && decide (ku < 2 ^ (emin - qu).toNat)
    let beyond := inexact && code == maxBits f && decide (n * 2 ^ (q - e).toNat < m)
    (withSign f neg code, (if inexact then fNX else 0) + (if tiny && inexact then fUF else 0) + (if beyond then fOF else 0))

/-- A zero whose sign the operands leave open (R32). -/
def openZero (f : Fmt) (rm : Rm) : Nat := withSign f (rm == .rminf) 0

/-- Round an exact sum of finite terms (R30, R32): a zero keeps a sign that every term has when all are zero. -/
def sumRound (f : Fmt) (rm : Rm) (terms : List (Bool × Nat × Int)) : Nat × Nat :=
  let e0 := terms.foldl (fun b t => if t.2.2 < b then t.2.2 else b) ((terms.map (·.2.2)).headD 0)
  let tot : Int := terms.foldl (fun x t =>
    let v : Int := ((t.2.1 * 2 ^ (t.2.2 - e0).toNat : Nat) : Int)
    if t.1 then x - v else x + v) 0
  if tot ≠ 0 then fpRound f rm false (decide (tot < 0)) tot.natAbs e0
  else if terms.all (fun t => t.2.1 == 0 && t.1) then (withSign f true 0, 0)
  else if terms.all (fun t => t.2.1 == 0 && !t.1) then (0, 0)
  else (openZero f rm, 0)

/-! ## Operations -/

/-- Whether a value is a NaN, and whether it signals. -/
def Fp.isNan : Fp → Bool
  | .nan _ => true
  | _ => false
def Fp.isSnan : Fp → Bool
  | .nan s => s
  | _ => false
def Fp.isInf : Fp → Bool
  | .inf _ => true
  | _ => false
def Fp.isZero : Fp → Bool
  | .fin _ m _ => m == 0
  | _ => false
def Fp.neg : Fp → Bool
  | .nan _ => false
  | .inf n => n
  | .fin n _ _ => n
/-- The finite term a value stands for. -/
def Fp.term : Fp → Bool × Nat × Int
  | .fin n m e => (n, m, e)
  | _ => (false, 0, 0)

/-- The exact product of two finite values. -/
def Fp.prod (a b : Fp) : Fp :=
  match a, b with
  | .fin n m e, .fin k p g => .fin (n != k) (m * p) (e + g)
  | _, _ => .fin false 0 0

/-- NV where an operand signals (R33). -/
def nvOf (l : List Fp) : Nat := if l.any Fp.isSnan then fNV else 0

/-- a + b (R92). -/
def fpAdd (f : Fmt) (rm : Rm) (x y : Nat) : Nat × Nat :=
  let a := decodeFp f x
  let b := decodeFp f y
  if a.isNan || b.isNan then (nanBits f, nvOf [a, b])
  else if a.isInf && b.isInf && a.neg != b.neg then (nanBits f, fNV)
  else if a.isInf then (withSign f a.neg (infBits f), 0)
  else if b.isInf then (withSign f b.neg (infBits f), 0)
  else sumRound f rm [a.term, b.term]

/-- a · b (R92). -/
def fpMul (f : Fmt) (rm : Rm) (x y : Nat) : Nat × Nat :=
  let a := decodeFp f x
  let b := decodeFp f y
  if a.isNan || b.isNan then (nanBits f, nvOf [a, b])
  else if (a.isInf && b.isZero) || (a.isZero && b.isInf) then (nanBits f, fNV)
  else if a.isInf || b.isInf then (withSign f (a.neg != b.neg) (infBits f), 0)
  else sumRound f rm [(a.prod b).term]

/-- a · b + c, rounded once (R92). -/
def fpFma (f : Fmt) (rm : Rm) (x y z : Nat) : Nat × Nat :=
  let a := decodeFp f x
  let b := decodeFp f y
  let c := decodeFp f z
  if (a.isInf && b.isZero) || (a.isZero && b.isInf) then (nanBits f, fNV)
  else if a.isNan || b.isNan || c.isNan then (nanBits f, nvOf [a, b, c])
  else
    let pn := a.neg != b.neg
    let pinf := a.isInf || b.isInf
    if pinf && c.isInf && pn != c.neg then (nanBits f, fNV)
    else if pinf then (withSign f pn (infBits f), 0)
    else if c.isInf then (withSign f c.neg (infBits f), 0)
    else sumRound f rm [(a.prod b).term, c.term]

/-- The order of codes in which −0 lies below +0. -/
def orderKey (f : Fmt) (x : Nat) : Int :=
  let mag := x % signBit f
  if bit x (expBits f + fracBits f) then -(mag : Int) - 1 else (mag : Int)

/-- minimumNumber and maximumNumber (R93). -/
def fpMinMax (f : Fmt) (max : Bool) (x y : Nat) : Nat × Nat :=
  let a := decodeFp f x
  let b := decodeFp f y
  let nv := nvOf [a, b]
  if a.isNan && b.isNan then (nanBits f, nv)
  else if a.isNan then (y, nv)
  else if b.isNan then (x, nv)
  else if (if max then decide (orderKey f y ≤ orderKey f x) else decide (orderKey f x ≤ orderKey f y)) then (x, nv)
  else (y, nv)

/-- The comparisons of FCMP (R94). -/
def fpCmp (c : FCmp) (x y : Nat) : Bool × Nat :=
  let a := decodeFp .f32 x
  let b := decodeFp .f32 y
  let un := a.isNan || b.isNan
  let ka := if a.isZero then 0 else orderKey .f32 x
  let kb := if b.isZero then 0 else orderKey .f32 y
  let sig := nvOf [a, b]
  match c with
  | .eq => (!un && decide (ka = kb), sig)
  | .ne => (un || decide (ka ≠ kb), sig)
  | .lt => (!un && decide (ka < kb), if un then fNV else 0)
  | .le => (!un && decide (ka ≤ kb), if un then fNV else 0)
  | .gt => (!un && decide (kb < ka), if un then fNV else 0)
  | .ge => (!un && decide (kb ≤ ka), if un then fNV else 0)
  | .un => (un, sig)
  | .ord => (!un, sig)

/-- The class word of FCLS (R95). -/
def fpClass (x : Nat) : Nat :=
  match decodeFp .f32 x with
  | .inf n => if n then 2 ^ 0 else 2 ^ 7
  | .nan s => if s then 2 ^ 8 else 2 ^ 9
  | .fin n m _ =>
    if m = 0 then (if n then 2 ^ 3 else 2 ^ 4)
    else if m < 2 ^ 23 then (if n then 2 ^ 2 else 2 ^ 5)
    else if n then 2 ^ 1 else 2 ^ 6

/-- Element j of a packed 16-bit operand (R28). -/
def half (x j : Nat) : Nat := x / 2 ^ (16 * j) % 65536

/-- Both elements of a packed operation, with the flags ORed (R97). -/
def packed2 (op : Nat → Nat × Nat) : Nat × Nat :=
  let (x, f) := op 0
  let (y, g) := op 1
  (x + 65536 * y, f ||| g)

/-- FDP4's dot product (R98). -/
def fpDot4 (f : Fmt) (rm : Rm) (x y z : Nat) : Nat × Nat :=
  let el := fun (w i : Nat) => decodeFp f (w / 2 ^ (8 * i) % 256)
  let as_ := (List.range 4).map (el x)
  let bs := (List.range 4).map (el y)
  let c := decodeFp .f32 z
  let ps := as_.zip bs
  let zi := ps.any fun p => (p.1.isZero && p.2.isInf) || (p.1.isInf && p.2.isZero)
  let nanAB := (as_ ++ bs).any Fp.isNan
  let fine := ps.filter fun p => !p.1.isNan && !p.2.isNan && !((p.1.isZero && p.2.isInf) || (p.1.isInf && p.2.isZero))
  let infs := (fine.filter fun p => p.1.isInf || p.2.isInf).map (fun p => p.1.neg != p.2.neg) ++
    (if c.isInf then [c.neg] else [])
  let both := decide (true ∈ infs) && decide (false ∈ infs)
  if nanAB || c.isNan || zi || both then
    (nanBits .f32, if nanAB || c.isSnan || zi || both then fNV else 0)
  else match infs with
    | n :: _ => (withSign .f32 n (infBits .f32), 0)
    | [] => sumRound .f32 rm (c.term :: ps.map (fun p => (p.1.prod p.2).term))

/-! ## Conversions (R35, R99, R100) -/

/-- CVTF (R35, R99). -/
def fpConvert (dst src : Fmt) (rm : Rm) (sat : Bool) (x : Nat) : Nat × Nat :=
  match decodeFp src x with
  | .nan sig => (nanBits dst, if sig then fNV else 0)
  | .inf n =>
    if dst = .e4m3 then (if sat then (withSign dst n 0x7E, fOF + fNX) else (0x7F, fNV))
    else (withSign dst n (infBits dst), 0)
  | .fin n m e => if m = 0 then (withSign dst n 0, 0) else fpRound dst rm sat n m e

/-- Float to integer (R35, R100). -/
def fpToInt (src : Fmt) (n : Nat) (signed : Bool) (rm : Rm) (x : Nat) : Nat × Nat :=
  match decodeFp src x with
  | .nan _ => (0, fNV)
  | .inf neg => (wrap n (if neg then minOf n signed else maxOf n signed), fNV)
  | .fin neg m e =>
    let (u, inexact) := roundUnits rm neg m e 0
    let v : Int := if neg then -(u : Int) else (u : Int)
    let y := clamp v (minOf n signed) (maxOf n signed)
    if y = v then (wrap n v, if inexact then fNX else 0) else (wrap n y, fNV)

/-- Integer to float (R35, R100). The integer zero gives +0. -/
def intToFp (dst : Fmt) (rm : Rm) (v : Int) : Nat × Nat :=
  if v = 0 then (0, 0) else fpRound dst rm false (decide (v < 0)) v.natAbs 0

/-! ## Special functions (R96) -/

/-- ⌊√n⌋ by Newton's steps from a start above it; `fuel` bounds them. -/
def isqrtFrom (n : Nat) : Nat → Nat → Nat
  | 0, x => x
  | fuel + 1, x =>
    let y := (x + n / x) / 2
    if y < x then isqrtFrom n fuel y else x

def isqrt (n : Nat) : Nat := if n = 0 then 0 else isqrtFrom n 400 (2 ^ (Nat.log2 n / 2 + 1))

/-- Round a positive number of which m · 2^e is the part cut off below 2^e, and which is m · 2^e itself where `exact`. -/
def cutRound (rm : Rm) (neg : Bool) (m : Nat) (e : Int) (exact : Bool) : Nat × Nat :=
  if exact then fpRound .f32 rm false neg m e else fpRound .f32 rm false neg (2 * m + 1) (e - 1)

/-- The bits of fixed-point work. -/
def fixBits : Nat := 320

/-- ⌊ln 2 · 2^320⌋. -/
def ln2Fix : Nat := 1480553391661173448385607439722553250922680800745876974795605978609098082859138712941075737848984

/-- Σ t^k / k!, from term k, in units of 2^−320. -/
def expSeries (t : Nat) : Nat → Nat → Nat → Nat
  | 0, _, _ => 0
  | fuel + 1, k, term => term + expSeries t fuel (k + 1) (term * t / 2 ^ fixBits / (k + 1))

/-- 2^x for 0 ≤ x < 1, both in units of 2^−320. -/
def exp2Fix (x : Nat) : Nat := expSeries (x * ln2Fix / 2 ^ fixBits) 80 0 (2 ^ fixBits)

/-- Σ z^(2k+1) / (2k+1), in units of 2^−320. -/
def atanhSeries (z2 : Nat) : Nat → Nat → Nat → Nat
  | 0, _, _ => 0
  | fuel + 1, k, p => p / (2 * k + 1) + atanhSeries z2 fuel (k + 1) (p * z2 / 2 ^ fixBits)

/-- log2 of m / 2^l for 2^l ≤ m < 2^(l+1), in units of 2^−320. -/
def log2Fix (m l : Nat) : Nat :=
  let z := (m - 2 ^ l) * 2 ^ fixBits / (m + 2 ^ l)
  let at_ := atanhSeries (z * z / 2 ^ fixBits) 110 0 z
  2 * at_ * 2 ^ fixBits / ln2Fix

/-- The special functions, rounded once (R96, Table 4.2). DEDUCED: 320 bits of exp2 and log2 decide every rounding of binary32 (log 21). -/
def fpSpecial (fn : SpcFn) (rm : Rm) (x : Nat) : Nat × Nat :=
  match decodeFp .f32 x with
  | .nan sig => (nanBits .f32, if sig then fNV else 0)
  | .inf n =>
    (match fn with
     | .rcp => (withSign .f32 n 0, 0)
     | .rsq => if n then (nanBits .f32, fNV) else (0, 0)
     | .sqrt | .log2 => if n then (nanBits .f32, fNV) else (infBits .f32, 0)
     | .exp2 => if n then (0, 0) else (infBits .f32, 0))
  | .fin n m e =>
    if m = 0 then
      (match fn with
       | .rcp | .rsq => (withSign .f32 n (infBits .f32), fDZ)
       | .sqrt => (withSign .f32 n 0, 0)
       | .exp2 => (0x3F800000, 0)
       | .log2 => (withSign .f32 true (infBits .f32), fDZ))
    else match fn with
      | .rcp =>
        let k := Nat.log2 m + 64
        cutRound rm n (2 ^ k / m) (-(k : Int) - e) (2 ^ k % m == 0)
      | .rsq =>
        if n then (nanBits .f32, fNV)
        else
          let m2 := if e % 2 = 0 then m else 2 * m
          let e2 := if e % 2 = 0 then e else e - 1
          let k := Nat.log2 m2 + 64
          let r := isqrt (2 ^ (2 * k) / m2)
          cutRound rm false r (-(k : Int) - e2 / 2) (r * r * m2 == 2 ^ (2 * k))
      | .sqrt =>
        if n then (nanBits .f32, fNV)
        else
          let m2 := if e % 2 = 0 then m else 2 * m
          let e2 := if e % 2 = 0 then e else e - 1
          let r := isqrt (m2 * 2 ^ 128)
          cutRound rm false r (e2 / 2 - 64) (r * r == m2 * 2 ^ 128)
      | .exp2 =>
        if 0 ≤ e ∨ m % 2 ^ (-e).toNat = 0 then
          let k : Int := if 0 ≤ e then ((m * 2 ^ min e.toNat 16 : Nat) : Int) else ((m / 2 ^ (-e).toNat : Nat) : Int)
          fpRound .f32 rm false false 1 (clamp (if n then -k else k) (-400) 400)
        else
          let whole := m / 2 ^ (-e).toNat
          let frac := (m % 2 ^ (-e).toNat) * 2 ^ fixBits / 2 ^ (-e).toNat
          let k : Int := clamp (if n then -(whole : Int) - 1 else (whole : Int)) (-400) 400
          let y := exp2Fix (if n then 2 ^ fixBits - frac else frac)
          cutRound rm false y (k - (fixBits : Int)) false
      | .log2 =>
        if n then (nanBits .f32, fNV)
        else
          let l := Nat.log2 m
          let k : Int := (l : Int) + e
          if m = 2 ^ l then (if k = 0 then (0, 0) else fpRound .f32 rm false (decide (k < 0)) k.natAbs 0)
          else
            let v : Int := k * ((2 ^ fixBits : Nat) : Int) + (log2Fix m l : Int)
            cutRound rm (decide (v < 0)) (if v < 0 then v.natAbs - 1 else v.natAbs) (-(fixBits : Int)) false

end Sys2Proof.Machine
end

