-- ==== Sys2Proof/Machine/FloatOps.lean ====
section
/-! DEFINITION. The floating-point and conversion lane instructions (R92 to R101). -/

namespace Sys2Proof.Machine

/-- A v result of n bits with its flags. -/
def fpOut (r l : Nat) (y : Nat × Nat) : List Out := vOut r l 32 false y.1 ++ flagOut y.2

/-- The two-operand shape of FADD, FMUL, FMNX, HADD2 and HMUL2. -/
def fpOp2 (h : Hdr) (lat : Nat) (d : VReg) (a : Src) (b : SrcI) (f : Nat → Nat → Nat × Nat) (s : State) :
    Host.Outcome State Fault Refusal :=
  laneFixed h (srcILen b) s lat (fun m => vFoot d.val 32 m ++ srcFoot 32 m a ++ srcIFoot 32 m b) fun g l =>
    fpOut d.val l (f (g.srcVal l 32 a) (g.srcIVal l 32 false b))

/-- The three-operand shape of FFMA, HFMA2 and FDP4. -/
def fpOp3 (h : Hdr) (lat : Nat) (d : VReg) (a b c : Src) (f : Nat → Nat → Nat → Nat × Nat) (s : State) :
    Host.Outcome State Fault Refusal :=
  laneFixed h 12 s lat (fun m => vFoot d.val 32 m ++ srcFoot 32 m a ++ srcFoot 32 m b ++ srcFoot 32 m c) fun g l =>
    fpOut d.val l (f (g.srcVal l 32 a) (g.srcVal l 32 b) (g.srcVal l 32 c))

/-- FADD (R92). -/
def execFadd (h : Hdr) (rm : Rm) (d : VReg) (a : Src) (b : SrcI) (s : State) : Host.Outcome State Fault Refusal :=
  fpOp2 h 5 d a b (fpAdd .f32 rm) s

/-- FMUL (R92). -/
def execFmul (h : Hdr) (rm : Rm) (d : VReg) (a : Src) (b : SrcI) (s : State) : Host.Outcome State Fault Refusal :=
  fpOp2 h 5 d a b (fpMul .f32 rm) s

/-- FFMA (R92). -/
def execFfma (h : Hdr) (rm : Rm) (d : VReg) (a b c : Src) (s : State) : Host.Outcome State Fault Refusal :=
  fpOp3 h 5 d a b c (fpFma .f32 rm) s

/-- FMNX (R93). -/
def execFmnx (h : Hdr) (max : Bool) (d : VReg) (a : Src) (b : SrcI) (s : State) : Host.Outcome State Fault Refusal :=
  fpOp2 h 5 d a b (fpMinMax .f32 max) s

/-- FCMP (R94). -/
def execFcmp (h : Hdr) (cmp : FCmp) (d : PReg) (a : Src) (b : SrcI) (s : State) : Host.Outcome State Fault Refusal :=
  laneFixed h (srcILen b) s 5 (fun m => pFoot d.val m ++ srcFoot 32 m a ++ srcIFoot 32 m b) fun g l =>
    let y := fpCmp cmp (g.srcVal l 32 a) (g.srcIVal l 32 false b)
    pOut d.val l y.1 ++ flagOut y.2

/-- FCLS (R95). -/
def execFcls (h : Hdr) (d : VReg) (a : Src) (s : State) : Host.Outcome State Fault Refusal :=
  laneFixed h 8 s 5 (fun m => vFoot d.val 32 m ++ srcFoot 32 m a) fun g l => vOut d.val l 32 false (fpClass (g.srcVal l 32 a))

/-- FSPC (R96): variable latency. -/
def execFspc (h : Hdr) (fn : SpcFn) (rm : Rm) (d : VReg) (a : Src) (s : State) : Host.Outcome State Fault Refusal :=
  laneVar h 8 s (fun m => vFoot d.val 32 m ++ srcFoot 32 m a) fun x =>
    (lanesOf x.act).flatMap fun l => fpOut d.val l (fpSpecial fn rm (x.g.srcVal l 32 a))

/-- The type of a packed instruction (R97). -/
def packFmt (bf : Bool) : Fmt := if bf then .bf16 else .f16

/-- IMM32 supplies both elements, so it is read as a 32-bit operand (R97). HADD2. -/
def execHadd2 (h : Hdr) (bf : Bool) (rm : Rm) (d : VReg) (a : Src) (b : SrcI) (s : State) : Host.Outcome State Fault Refusal :=
  fpOp2 h 5 d a b (fun x y => packed2 fun j => fpAdd (packFmt bf) rm (half x j) (half y j)) s

/-- HMUL2 (R97). -/
def execHmul2 (h : Hdr) (bf : Bool) (rm : Rm) (d : VReg) (a : Src) (b : SrcI) (s : State) : Host.Outcome State Fault Refusal :=
  fpOp2 h 5 d a b (fun x y => packed2 fun j => fpMul (packFmt bf) rm (half x j) (half y j)) s

/-- HFMA2 (R97). -/
def execHfma2 (h : Hdr) (bf : Bool) (rm : Rm) (d : VReg) (a b c : Src) (s : State) : Host.Outcome State Fault Refusal :=
  fpOp3 h 5 d a b c (fun x y z => packed2 fun j => fpFma (packFmt bf) rm (half x j) (half y j) (half z j)) s

/-- FDP4 (R98). -/
def execFdp4 (h : Hdr) (e5 : Bool) (rm : Rm) (d : VReg) (a b c : Src) (s : State) : Host.Outcome State Fault Refusal :=
  fpOp3 h 6 d a b c (fpDot4 (if e5 then .e5m2 else .e4m3) rm) s

/-- CVTF (R99). -/
def execCvtf (h : Hdr) (dst src : Fmt) (rm : Rm) (sat : Bool) (d : VReg) (a : Src) (s : State) : Host.Outcome State Fault Refusal :=
  laneFixed h 8 s 5 (fun m => vFoot d.val 32 m ++ srcFoot 32 m a) fun g l =>
    fpOut d.val l (fpConvert dst src rm sat (g.srcVal l (fmtBits src) a))

/-- CVTI (R100). -/
def execCvti (h : Hdr) (toInt : Bool) (fty : AFmt) (ity : ITy) (rm : Rm) (d : VReg) (a : Src) (s : State) :
    Host.Outcome State Fault Refusal :=
  let n := ityBits ity
  let sg := itySigned ity
  let f := afmt fty
  if toInt then
    laneFixed h 8 s 5 (fun m => vFoot d.val n m ++ srcFoot (fmtBits f) m a) fun g l =>
      let y := fpToInt f n sg rm (g.srcVal l (fmtBits f) a)
      vOut d.val l n sg y.1 ++ flagOut y.2
  else
    laneFixed h 8 s 5 (fun m => vFoot d.val 32 m ++ srcFoot n m a) fun g l =>
      fpOut d.val l (intToFp f rm (readInt n sg (g.srcVal l n a)))

/-! ## Block elements (R36 to R38) -/

/-- The magnitude of a Q4 code of the types with a sign bit, in halves (Table 2.3). -/
def q4Half (ty code : Nat) : Nat :=
  match ty with
  | 1 => getAt 0 [0, 1, 2, 3, 4, 6, 8, 12] (code % 8)
  | 2 => getAt 0 [0, 2, 4, 8, 16, 32, 64, 128] (code % 8)
  | _ => getAt 0 [0, 2, 4, 6, 8, 10, 16, 32] (code % 8)

/-- A Q4 code under a scale byte: m · 2^e (R36, R37). -/
def q4Value (scale code : Nat) : Int × Int :=
  let x : Int := ((scale % 64 : Nat) : Int) - 32
  if scale / 64 % 4 = 0 then (sext code 4, x)
  else
    let m : Int := (q4Half (scale / 64 % 4) code : Int)
    (if bit code 3 then -m else m, x - 1)

/-- A Q8 code under a scale byte (R38). -/
def q8Value (scale code : Nat) : Int × Int := (sext code 8, ((scale % 64 : Nat) : Int) - 32)

/-- An exact value as binary32; a zero is +0 (R101). -/
def blockBits (v : Int × Int) : Nat := if v.1 = 0 then 0 else (fpRound .f32 .rn false (decide (v.1 < 0)) v.1.natAbs v.2).1

/-- CVTQ (R101): a Q8 scale of another type faults in its lane (R38). -/
def execCvtq (h : Hdr) (q8 : Bool) (k : Fin 8) (d : VReg) (a b : Src) (s : State) : Host.Outcome State Fault Refusal :=
  issue h 8 s fun x => x.only true false
    (x.check (x.guardP :: vFoot d.val 32 x.f.mask ++ srcFoot 32 x.f.mask a ++ srcFoot 32 x.f.mask b) false
      (let bad := if q8 then (lanesOf x.act).filter (fun l => x.g.srcVal l 8 a / 64 != 0) else []
       x.faultLanes 0 (bad.map fun l => { lane := l, cause := cFormatLatch, addr := 0 }) fun y =>
        y.fixed 6 (y.act != 0) ((lanesOf y.act).flatMap fun l =>
          let sc := y.g.srcVal l 8 a
          let w := y.g.srcVal l 32 b
          vOut d.val l 32 false (blockBits
            (if q8 then q8Value sc (w / 2 ^ (8 * k.val) % 256) else q4Value sc (w / 2 ^ (4 * k.val) % 16))))))

end Sys2Proof.Machine
end

