-- ==== Sys2Proof/WellFormed.lean ====
section
/-! DEFINITION. The encoded instructions whose fields the spec accepts together: even pairs (R8), aligned registers (R56, R110, R115), the
pairs of function and type that are assigned (R67), strides (R245) and aligned offsets (R61). The limit that a kernel's .regs
sets (R9) depends on the state and is the decoder's (DecCtx). An event has no encoding and is always well formed. -/

namespace Sys2Proof

open Sys2Proof.Machine

/-- A lane register aligned to n registers. -/
def vAt (n : Nat) (r : VReg) : Bool := decide (r.val % n = 0)

/-- A source whose v register is aligned to n registers; an s register is one register wide. -/
def srcAt (n : Nat) : Src → Bool
  | .v r => decide (r.val % n = 0)
  | .s _ => true

/-- A B operand whose v register is aligned to n registers. -/
def srcIAt (n : Nat) : SrcI → Bool
  | .reg r => srcAt n r
  | .imm _ => true

/-- A base is an even pair or an s register (R114). -/
def baseOk : Base → Bool := srcAt 2

/-- The base of a memory operand. -/
def maddrOk : MAddr → Bool
  | .reg b _ => baseOk b
  | .const _ => true

/-- Store data: v registers aligned to what moves, or s registers whose number is a multiple of the element count (R115). -/
def storeData (w m : Nat) : Src → Bool
  | .v r => decide (r.val % (m * regsOf w) = 0)
  | .s r => decide (r.val % m = 0)

/-- A PC-relative offset is a multiple of 4 (R61). -/
def offOk (off : BitVec 32) : Bool := decide (off.toNat % 4 = 0)

/-- The barrier operand of BREN. -/
def asyncOk (x : Async) : Bool :=
  match x.bar with
  | none => true
  | some b => baseOk b

/-- JOIN and RETT take no guard (R146, R303). -/
def noGuard (h : Hdr) : Bool := decide (h.gp.val = 0) && !h.gn

/-- A well-formed operand of MOVI: IMM64 only under .b64 (Table 4.3). -/
def moviOk (ty : BTy) (d : VReg) : MovImm → Bool
  | .imm32 _ => vAt (regsOf (btyBits ty)) d
  | .imm64 _ => decide (ty = .b64) && vAt 2 d

/-- TCOPY's coordinates: v aligned to 4, or s even (Table 12.1). -/
def coordsOk : Src → Bool
  | .v r => decide (r.val % 4 = 0)
  | .s r => decide (r.val % 2 = 0)

/-- The forms that the spec's encodings admit. -/
def Instr.wf : Instr → Bool
  | .iadd _ ty _ d a b | .isub _ ty _ d a b | .imul _ ty _ d a b | .imulh _ ty d a b | .imin _ ty d a b | .imax _ ty d a b =>
    vAt (regsOf (ityBits ty)) d && srcAt (regsOf (ityBits ty)) a && srcIAt (regsOf (ityBits ty)) b
  | .imad _ ty _ d a b c =>
    vAt (regsOf (ityBits ty)) d && srcAt (regsOf (ityBits ty)) a && srcAt (regsOf (ityBits ty)) b && srcAt (regsOf (ityBits ty)) c
  | .iabs _ ty _ d a => itySigned ty && vAt (regsOf (ityBits ty)) d && srcAt (regsOf (ityBits ty)) a
  | .lop _ fn ty d a b =>
    vAt (regsOf (btyBits ty)) d && srcAt (regsOf (btyBits ty)) a &&
      (if fn = .not then decide (b = .reg (.v 0)) else srcIAt (regsOf (btyBits ty)) b)
  | .shf _ _ ty d a _ => vAt (regsOf (wtyBits ty)) d && srcAt (regsOf (wtyBits ty)) a
  | .bfx _ ty d a _ _ => decide (32 ≤ ityBits ty) && vAt (regsOf (ityBits ty)) d && srcAt (regsOf (ityBits ty)) a
  | .bfi _ ty d a b _ => vAt (regsOf (btyBits ty)) d && srcAt (regsOf (btyBits ty)) a && srcAt (regsOf (btyBits ty)) b
  | .bitc _ fn ty d a b =>
    vAt (if fn = .brev then regsOf (btyBits ty) else 1) d && srcAt (regsOf (btyBits ty)) a && srcIAt (regsOf (btyBits ty)) b
  | .sel _ ty d a b _ => vAt (regsOf (btyBits ty)) d && srcAt (regsOf (btyBits ty)) a && srcAt (regsOf (btyBits ty)) b
  | .icmp _ ty _ _ a b => srcAt (regsOf (ityBits ty)) a && srcIAt (regsOf (ityBits ty)) b
  | .cvtf _ dst src _ sat _ _ => decide (dst ≠ src) && (!sat || decide (dst = .e4m3))
  | .cvti _ toInt _ ity _ d a =>
    if toInt then vAt (regsOf (ityBits ity)) d else srcAt (regsOf (ityBits ity)) a
  | .cvtq _ q8 k _ _ _ => !q8 || decide (k.val ≤ 3)
  | .mov _ ty d a => vAt (regsOf (btyBits ty)) d && srcAt (regsOf (btyBits ty)) a
  | .movi _ ty d i => moviOk ty d i
  | .movg _ ty _ a => srcAt (regsOf (btyBits ty)) a
  | .plog _ fn x =>
    match x with
    | .p _ _ b => fn ≠ .not || decide (b = 0)
    | .q _ _ b => fn ≠ .not || decide (b = 0)
  | .sld _ _ n _ d m =>
    decide (d.val % nregCount n = 0) && (match m with | .reg (.v _) _ => false | .reg (.s _) _ => true | .const _ => true)
  | .bra _ off | .call _ _ off | .brd _ off _ | .knot _ off => offOk off
  | .ld _ ty n _ _ d m | .ldaq _ ty n _ _ d m => vAt (nregCount n * regsOf (mtyBits ty)) d && maddrOk m
  | .st _ ty n _ _ m x | .strl _ ty n _ _ m x => storeData (mtyBits ty) (nregCount n) x && maddrOk m
  | .join h | .rett h => noGuard h
  | .matchl _ ty _ a => vAt (regsOf (btyBits ty)) a
  | .bcst _ ty d a _ => vAt (regsOf (btyBits ty)) d && vAt (regsOf (btyBits ty)) a
  | .rdln _ ty _ a _ => vAt (regsOf (btyBits ty)) a
  | .lred _ op ty d a => redPair false ty op && vAt (regsOf (rtyBits ty)) d && vAt (regsOf (rtyBits ty)) a
  | .prfx _ op ty d a => redPair true ty op && vAt (regsOf (rtyBits ty)) d && vAt (regsOf (rtyBits ty)) a
  | .launchNow _ _ a _ => baseOk a
  | .launchArm _ _ a _ _ _ => baseOk a
  | .tmov _ _ src dst => maddrOk src && baseOk dst
  | .sptst _ _ _ b _ => baseOk b
  | .spcst _ _ _ d b _ => vAt 2 d && baseOk b
  | .atom _ ty op _ _ d b _ x =>
    atomPair ty op && vAt (regsOf (wtyBits ty)) d && baseOk b && srcAt (regsOf (wtyBits ty)) x
  | .ared _ ty op _ _ b _ x =>
    atomPair ty op && decide (op ≠ .exch) && baseOk b && srcAt (regsOf (wtyBits ty)) x
  | .acas _ ty _ _ d b _ x y =>
    vAt (regsOf (btyBits ty)) d && baseOk b && srcAt (regsOf (btyBits ty)) x && srcAt (regsOf (btyBits ty)) y
  | .atomf _ _ _ _ _ _ b _ _ => baseOk b
  | .bari _ _ _ _ b _ _ => baseOk b
  | .barv _ _ _ _ b _ => baseOk b
  | .bwait _ _ b _ _ => baseOk b
  | .btest _ _ _ b _ _ => baseOk b
  | .tunpk _ d _ => vAt 2 d
  | .wload _ a _ _ _ x => baseOk a && asyncOk x
  | .afeed _ fmt a _ _ s => baseOk a && strideOk (feedRowLen fmt) s.toNat
  | .adrain _ fmt a _ _ s => baseOk a && strideOk (drainRowLen fmt) s.toNat
  | .tcopy _ a c x => baseOk a && coordsOk c && asyncOk x
  | .gath _ d a b _ _ x => baseOk d && baseOk a && baseOk b && asyncOk x
  | .coll _ a _ _ => baseOk a
  | .emovi _ k i => decide (k.val ≠ 4 ∨ i.toNat < 256)
  | .ebf _ off => decide (off.val ≠ 0)
  | .cmsu _ _ k _ | .cmsq _ _ k _ => decide (1 ≤ k.val ∧ k.val ≤ 13)
  | .fadd .. | .fmul .. | .ffma .. | .fmnx .. | .fcmp .. | .fcls .. | .fspc .. | .hadd2 .. | .hmul2 .. | .hfma2 .. | .fdp4 ..
  | .movs .. | .pset .. | .salu .. | .smov .. | .scmp .. | .ssel .. | .jmp .. | .ret .. | .exit .. | .nop .. | .yield ..
  | .vote .. | .elect .. | .ownq .. | .fragq .. | .shfl .. | .backoff .. | .fence .. | .tpack .. | .mlatch .. | .mmul ..
  | .mmulb .. | .mzero .. | .bfence .. | .bwaita .. | .waitc .. | .tsig .. | .trap .. | .dbrk .. | .mfsr .. | .mtsr ..
  | .ckpt .. | .evtx .. | .evld .. | .emov .. | .ealu .. | .ecmp .. | .ehash .. | .hinc .. | .hmax .. | .wsum .. | .trig ..
  | .emit .. | .eend .. | .resultWriteback .. | .storeSourceRead .. | .writePerform .. | .rmwPerform .. | .releasePerform ..
  | .translationFill .. | .pathSlotHoldLimit .. | .pathSlotIssueLimit .. | .marketVisit .. | .admission .. | .waveStart ..
  | .workgroupEnd .. | .groupEnd .. | .launchComplete .. | .copyStart .. | .copyComplete .. | .feedRowAppend .. | .drainRow ..
  | .drainComplete .. | .batchComplete .. | .batchChargeLimit .. | .contextStop .. | .barvReturn .. | .bwaitComplete ..
  | .btestReturn .. | .bwaitaComplete .. | .waitcComplete .. | .rettComplete .. | .faultRecordDelivery ..
  | .statusEntryWrite .. | .fltresResume .. | .fltresKill .. | .sliceEnd .. | .sliceEndComplete .. | .preempt ..
  | .handlerStart .. | .resume .. | .restoreAdmission .. | .retire .. | .inval .. | .setfa .. | .keygen .. | .keydel ..
  | .late .. | .confset .. | .reset .. | .rotate .. | .dtlimExpiry .. | .coreFence .. | .flr .. | .lockInterface ..
  | .startInterface .. | .stopInterface .. | .getVersion .. | .getCapabilities .. | .negotiateAlgorithms .. | .getDigests ..
  | .getCertificate .. | .challenge .. | .getMeasurements .. | .keyExchange .. | .finish .. | .keyUpdate .. | .heartbeat ..
  | .endSession .. | .ideKm .. | .hostAccess .. | .hostCompletionTimeout .. | .go .. | .stop .. | .launchQueueEnable ..
  | .ringEnable .. | .clusterEntryWrite .. | .scratchRangeWrite .. | .fnstatWrite .. | .slotArm .. | .slotDisarm ..
  | .efscRead .. | .efbgRead .. | .efrpRead .. | .fdropRead .. | .claim .. | .release .. | .rvk .. | .revocationComplete ..
  | .dbcmdStop .. | .dbcmdStep .. | .dbcmdGo .. | .preciseStop .. | .tuctlWrite .. | .tuctlRead .. | .tbdataRead ..
  | .traceTrigger .. | .cbselWrite .. | .registerWrite .. | .eventRecord .. | .noeligRunEnd .. | .histIntervalEnd ..
  | .efcDispatch .. | .filterRunStart .. | .budgetWindowStart .. | .powerEvaluation .. | .flitReceive .. | .pathDown ..
  | .dataFlit .. | .markerFlit .. | .ackFlit .. | .refusalFlit .. | .staleFlit .. | .retransmitTimeout .. | .transportGiveUp ..
  | .rotationRequest .. | .keyGraceExpiry .. | .chunkReduce .. | .collComplete .. | .ctmoExpiry .. | .powerOn .. | .perst ..
  | .lifeCycleChange .. | .d3hotEntry .. | .d3cold .. | .d3hotExit .. | .debugStateChange .. | .firmwareImageLoad ..
  | .externalPortDown .. | .externalPortUp .. | .keyInstalled .. | .nakFlit .. => true

end Sys2Proof
end

