-- ==== Sys2Proof/Decode.lean ====
section
/-! DEFINITION. The decoder and the encoder, from the encoding tables of the spec (R48 to R67, R140, R191, R238, R303, R272). A word is
taken apart into the fields of its format (Raw), and the fields are read by the clause of the opcode. Every refusal says which
fault it is and the lowest bit of an offending field, which SEC reports (R67). -/

namespace Sys2Proof

open Sys2Proof.Machine

/-- Why a word is no instruction, with the lowest bit that lies in an offending field (R67). -/
inductive DecErr where
  /-- ILLEGAL_OP. -/
  | op (sec : Nat)
  /-- ILLEGAL_FIELD. -/
  | field (sec : Nat)
  deriving DecidableEq, Repr

/-- What decoding depends on beyond the word: the registers allocated (R9, R219), whether the stream is a sequencer's (R63, R219),
whether the group runs its trap handler (R304), and the region that a sequencer's QM may name (R219). -/
structure DecCtx where
  lim : Nat
  seq : Bool
  th : Option Bool
  qm : Option Nat
  deriving DecidableEq, Repr

/-- The context that accepts every encoding the formats admit. -/
def DecCtx.any : DecCtx := { lim := 320, seq := false, th := none, qm := none }

/-- A field's reading: its value, or the lowest bit of an offending field. -/
inductive Chk (α : Type) where
  | ok (a : α)
  | bad (sec : Nat)
  deriving DecidableEq, Repr

/-- Apply a reading to the next field; the lowest offending bit is kept. -/
def Chk.ap {α β : Type} (f : Chk (α → β)) (x : Chk α) : Chk β :=
  match f, x with
  | .ok g, .ok a => .ok (g a)
  | .ok _, .bad q => .bad q
  | .bad p, .ok _ => .bad p
  | .bad p, .bad q => .bad (min p q)

/-- A check that gives no operand. -/
def Chk.skip {α : Type} (f : Chk α) (x : Chk Unit) : Chk α :=
  match f, x with
  | .ok a, .ok _ => .ok a
  | .ok _, .bad q => .bad q
  | .bad p, .ok _ => .bad p
  | .bad p, .bad q => .bad (min p q)

/-- The seven formats (R53 to R59). -/
inductive Format where
  | v3 | i96 | q96 | m128 | x128 | y128 | i128
  deriving DecidableEq, Repr

/-- LEN of a format (R60). -/
def Format.len : Format → Nat
  | .v3 => 0
  | .i96 | .q96 => 1
  | .m128 | .x128 | .y128 | .i128 => 2

/-- Bits of an instruction with this LEN (R14). -/
def lenBits (len : Nat) : Nat := if len = 0 then 64 else if len = 1 then 96 else 128

/-- Widths of the fields above bit 63, from bit 64 upwards (Tables 3.4 to 3.7). -/
def Format.widths : Format → List Nat
  | .v3 => []
  | .i96 => [32]
  | .q96 => [9, 23]
  | .m128 => [32, 2, 2, 1, 1, 9, 1, 2, 14]
  | .x128 => [9, 12, 2, 3, 1, 1, 4, 32]
  | .y128 => [10, 10, 4, 8, 2, 14, 16]
  | .i128 => [64]

/-- Widths of bits 63:0, from bit 0 upwards: LEN OP STALL GP GN SBS SBW D A B FN MOD (Tables 3.1 and 3.3). -/
def baseWidths : List Nat := [2, 8, 4, 3, 1, 3, 7, 9, 9, 9, 6, 3]

/-- The fields of a number, lowest first. -/
def fieldsOf : List Nat → Nat → List Nat
  | [], _ => []
  | w :: ws, x => x % 2 ^ w :: fieldsOf ws (x / 2 ^ w)

/-- The number that fields make, lowest first. -/
def joinFields : List Nat → List Nat → Nat
  | w :: ws, v :: vs => v % 2 ^ w + 2 ^ w * joinFields ws vs
  | _, _ => 0

/-- The fields of one instruction. -/
structure Raw where
  stall : Nat
  gp : Nat
  gn : Nat
  sbs : Nat
  sbw : Nat
  d : Nat
  a : Nat
  b : Nat
  fn : Nat
  mod : Nat
  ext : List Nat
  deriving DecidableEq, Repr

/-- Field i above bit 63. -/
def Raw.x (r : Raw) (i : Nat) : Nat := getAt 0 r.ext i

/-- Take bits apart by a format. -/
def rawOfWord (f : Format) (w : Nat) : Raw :=
  let l := fieldsOf (baseWidths ++ f.widths) w
  { stall := getAt 0 l 2, gp := getAt 0 l 3, gn := getAt 0 l 4, sbs := getAt 0 l 5, sbw := getAt 0 l 6, d := getAt 0 l 7,
    a := getAt 0 l 8, b := getAt 0 l 9, fn := getAt 0 l 10, mod := getAt 0 l 11, ext := l.drop 12 }

/-- The opcodes of Table 3.9. -/
inductive Opc where
  | iadd | isub | imul | imulh | imad | imin | imax | iabs | lop | shf | bfx | bfi | bitc | sel | icmp | fadd | fmul | ffma
  | fmnx | fcmp | fcls | fspc | hadd2 | hmul2 | hfma2 | fdp4 | cvtf | cvti | cvtq | mov | movi | movs | movg | plog | pset
  | salu | smov | scmp | ssel | sld | bra | jmp | call | ret | exit | nop | yield | brd | join | vote | shfl | lred | bcst
  | rdln | prfx | matchl | ownq | fragq | elect | backoff | launch | knot | ld | st | ldaq | strl | tmov | sptst | spcst
  | atom | acas | ared | atomf | fence | bari | barv | bwait | btest | tpack | tunpk | wload | afeed | adrain | mlatch
  | mmul | mmulb | mzero | bfence | bwaita | tcopy | gath | waitc | tsig | coll | trap | rett | mfsr | mtsr | dbrk | ckpt
  | evtx
  deriving DecidableEq, Repr

/-- The OP code (Table 3.9). -/
def Opc.code : Opc → Nat
  | .iadd => 0x00
  | .isub => 0x01
  | .imul => 0x02
  | .imulh => 0x03
  | .imad => 0x04
  | .imin => 0x05
  | .imax => 0x06
  | .iabs => 0x07
  | .lop => 0x08
  | .shf => 0x09
  | .bfx => 0x0A
  | .bfi => 0x0B
  | .bitc => 0x0C
  | .sel => 0x0D
  | .icmp => 0x0E
  | .fadd => 0x40
  | .fmul => 0x41
  | .ffma => 0x42
  | .fmnx => 0x43
  | .fcmp => 0x44
  | .fcls => 0x45
  | .fspc => 0x46
  | .hadd2 => 0x48
  | .hmul2 => 0x49
  | .hfma2 => 0x4A
  | .fdp4 => 0x4B
  | .cvtf => 0x50
  | .cvti => 0x51
  | .cvtq => 0x52
  | .mov => 0x60
  | .movi => 0x61
  | .movs => 0x62
  | .movg => 0x63
  | .plog => 0x64
  | .pset => 0x65
  | .salu => 0x80
  | .smov => 0x81
  | .scmp => 0x82
  | .ssel => 0x83
  | .sld => 0x84
  | .bra => 0x88
  | .jmp => 0x89
  | .call => 0x8A
  | .ret => 0x8B
  | .exit => 0x8C
  | .nop => 0x8D
  | .yield => 0x8E
  | .brd => 0xA0
  | .join => 0xA1
  | .vote => 0xA2
  | .shfl => 0xA3
  | .lred => 0xA4
  | .bcst => 0xA5
  | .rdln => 0xA6
  | .prfx => 0xA7
  | .matchl => 0xA8
  | .ownq => 0xA9
  | .fragq => 0xAA
  | .elect => 0xAB
  | .backoff => 0xAC
  | .launch => 0xAD
  | .knot => 0xAE
  | .ld => 0xC0
  | .st => 0xC1
  | .ldaq => 0xC2
  | .strl => 0xC3
  | .tmov => 0xC4
  | .sptst => 0xC5
  | .spcst => 0xC6
  | .atom => 0xC8
  | .acas => 0xC9
  | .ared => 0xCA
  | .atomf => 0xCB
  | .fence => 0xCC
  | .bari => 0xD0
  | .barv => 0xD1
  | .bwait => 0xD2
  | .btest => 0xD3
  | .tpack => 0xE0
  | .tunpk => 0xE1
  | .wload => 0xE2
  | .afeed => 0xE3
  | .adrain => 0xE4
  | .mlatch => 0xE5
  | .mmul => 0xE6
  | .mmulb => 0xE7
  | .mzero => 0xE8
  | .bfence => 0xE9
  | .bwaita => 0xEA
  | .tcopy => 0xEB
  | .gath => 0xEC
  | .waitc => 0xED
  | .tsig => 0xEE
  | .coll => 0xEF
  | .trap => 0xF0
  | .rett => 0xF1
  | .mfsr => 0xF2
  | .mtsr => 0xF3
  | .dbrk => 0xF4
  | .ckpt => 0xF5
  | .evtx => 0xF6

/-- The formats an opcode accepts (Table 3.8). -/
def Opc.formats : Opc → List Format
  | .iadd | .isub | .imul | .imulh | .imin | .imax | .lop | .shf | .bitc | .icmp | .fadd | .fmul | .fmnx | .fcmp | .hadd2
  | .hmul2 | .scmp | .shfl | .bcst | .rdln => [.v3, .i96]
  | .imad | .bfx | .bfi | .sel | .ffma | .hfma2 | .fdp4 | .ssel => [.q96]
  | .iabs | .fcls | .fspc | .cvtf | .cvti | .cvtq | .mov | .movs | .movg | .plog | .pset | .jmp | .ret | .exit | .nop
  | .yield | .join | .vote | .lred | .prfx | .matchl | .ownq | .fragq | .elect | .backoff | .tpack | .tunpk | .bfence
  | .bwaita | .rett | .ckpt | .evtx => [.v3]
  | .movi => [.i96, .i128]
  | .salu | .smov => [.v3, .i96, .i128]
  | .sld | .ld | .st | .ldaq | .strl | .tmov | .sptst | .spcst | .atom | .acas | .ared | .atomf | .fence | .bari | .barv
  | .bwait | .btest => [.m128]
  | .bra | .call | .brd | .knot | .waitc | .trap | .mfsr | .mtsr | .dbrk => [.i96]
  | .launch | .wload | .tcopy | .gath | .tsig | .coll => [.x128]
  | .afeed | .adrain | .mlatch | .mmul | .mmulb | .mzero => [.y128]

/-- The opcode map (Table 3.9). -/
def opcTable : List Opc :=
  ([.iadd, .isub, .imul, .imulh, .imad, .imin, .imax, .iabs, .lop, .shf, .bfx, .bfi, .bitc, .sel, .icmp, .fadd, .fmul, .ffma,
   .fmnx, .fcmp, .fcls, .fspc, .hadd2, .hmul2, .hfma2, .fdp4, .cvtf, .cvti, .cvtq, .mov, .movi, .movs, .movg, .plog, .pset,
   .salu, .smov, .scmp, .ssel, .sld, .bra, .jmp, .call, .ret, .exit, .nop, .yield, .brd]) ++
  ([.join, .vote, .shfl, .lred, .bcst, .rdln, .prfx, .matchl, .ownq, .fragq, .elect, .backoff, .launch, .knot, .ld, .st,
   .ldaq, .strl, .tmov, .sptst, .spcst, .atom, .acas, .ared, .atomf, .fence, .bari, .barv, .bwait, .btest, .tpack, .tunpk,
   .wload, .afeed, .adrain, .mlatch, .mmul, .mmulb, .mzero, .bfence, .bwaita, .tcopy, .gath, .waitc, .tsig, .coll, .trap,
   .rett, .mfsr, .mtsr, .dbrk, .ckpt, .evtx])

/-- The opcode that a code names (R62). -/
def opcOf (n : Nat) : Option Opc := opcTable.find? (fun o => o.code == n)

/-- The format an opcode has at a LEN (R60: no opcode has two formats of one length). -/
def Opc.format (o : Opc) (len : Nat) : Option Format := o.formats.find? (fun f => f.len == len)

/-- The instructions a sequencer context accepts (Table 11.4). -/
def seqAccepts (o : Opc) : Bool :=
  decide (o ∈ ([.salu, .smov, .scmp, .ssel, .sld, .bra, .jmp, .call, .ret, .plog, .pset, .nop, .yield, .exit, .bari, .barv, .bwait, .btest, .fence, .tsig, .mlatch, .mmul, .mmulb, .mzero, .bfence] : List Opc))

/-- The instructions that belong to sequencer streams alone (R63). -/
def seqOnly (o : Opc) : Bool :=
  decide (o ∈ ([.mlatch, .mmul, .mmulb, .mzero, .bfence] : List Opc))

/-- Whether the stream's set holds the opcode (R63, R219) and the handler state lets it execute (R304). -/
def opcAllowed (cx : DecCtx) (o : Opc) : Bool :=
  (if cx.seq then seqAccepts o else !seqOnly o || cx.th.isNone) &&
    (match cx.th with
     | none => true
     | some th => if o = .rett ∨ o = .mtsr then th else if o = .trap ∨ o = .dbrk then !th else true)

/-- Integer type codes (Table 3.10). -/
def ityOf : Nat → Option ITy
  | 0 => some .i8
  | 1 => some .i16
  | 2 => some .i32
  | 3 => some .i64
  | 4 => some .n8
  | 5 => some .n16
  | 6 => some .n32
  | 7 => some .n64
  | _ => none

/-- The code of an integer type (Table 3.10). -/
def ityCode : ITy → Nat
  | .i8 => 0
  | .i16 => 1
  | .i32 => 2
  | .i64 => 3
  | .n8 => 4
  | .n16 => 5
  | .n32 => 6
  | .n64 => 7

/-- Raw type codes (Table 3.10). -/
def btyOf : Nat → Option BTy
  | 8 => some .b32
  | 9 => some .b64
  | _ => none

/-- The code of a raw type. -/
def btyCode : BTy → Nat
  | .b32 => 8
  | .b64 => 9

/-- Types 0x00 to 0x09 (Table 3.11: LD, ST). -/
def mtyOf : Nat → Option MTy
  | 0 => some (.int .i8)
  | 1 => some (.int .i16)
  | 2 => some (.int .i32)
  | 3 => some (.int .i64)
  | 4 => some (.int .n8)
  | 5 => some (.int .n16)
  | 6 => some (.int .n32)
  | 7 => some (.int .n64)
  | 8 => some (.raw .b32)
  | 9 => some (.raw .b64)
  | _ => none

/-- The code of a memory type. -/
def mtyCode : MTy → Nat
  | .int .i8 => 0
  | .int .i16 => 1
  | .int .i32 => 2
  | .int .i64 => 3
  | .int .n8 => 4
  | .int .n16 => 5
  | .int .n32 => 6
  | .int .n64 => 7
  | .raw .b32 => 8
  | .raw .b64 => 9

/-- Types of LRED and PRFX (Table 3.11). -/
def rtyOf : Nat → Option RTy
  | 2 => some .i32
  | 3 => some .i64
  | 6 => some .n32
  | 7 => some .n64
  | 12 => some .f32
  | _ => none

/-- The code of a reduction type. -/
def rtyCode : RTy → Nat
  | .i32 => 2
  | .i64 => 3
  | .n32 => 6
  | .n64 => 7
  | .f32 => 12

/-- Types of SHF, ATOM and ARED (Table 3.11). -/
def wtyOf : Nat → Option WTy
  | 2 => some .i32
  | 3 => some .i64
  | 6 => some .n32
  | 7 => some .n64
  | 8 => some .b32
  | 9 => some .b64
  | _ => none

/-- The code of such a type. -/
def wtyCode : WTy → Nat
  | .i32 => 2
  | .i64 => 3
  | .n32 => 6
  | .n64 => 7
  | .b32 => 8
  | .b64 => 9

/-- Types of ATOMF (Table 3.11). -/
def afmtOf : Nat → Option AFmt
  | 12 => some .f32
  | 13 => some .f16
  | 14 => some .bf16
  | _ => none

/-- The code of an ATOMF type. -/
def afmtCode : AFmt → Nat
  | .f32 => 12
  | .f16 => 13
  | .bf16 => 14

/-- Formats in the FN of CVTF (Table 3.11). -/
def fmtxOf : Nat → Option Fmt
  | 0 => some .f32
  | 1 => some .f16
  | 2 => some .bf16
  | 3 => some .e4m3
  | 4 => some .e5m2
  | _ => none

/-- The CVTF code of a format. -/
def fmtxCode : Fmt → Nat
  | .f32 => 0
  | .f16 => 1
  | .bf16 => 2
  | .e4m3 => 3
  | .e5m2 => 4

/-- Float types in the FN of CVTI (Table 3.11). -/
def cvtiFmtOf : Nat → Option AFmt
  | 0 => some .f32
  | 1 => some .f16
  | 2 => some .bf16
  | _ => none

/-- The CVTI code of a float type. -/
def cvtiFmtCode : AFmt → Nat
  | .f32 => 0
  | .f16 => 1
  | .bf16 => 2

/-- Formats of AFEED (Table 3.11). -/
def feedOf : Nat → Option FeedFmt
  | 13 => some .f16
  | 14 => some .bf16
  | 16 => some .e4m3
  | 17 => some .e5m2
  | 20 => some .q4
  | 21 => some .q8
  | _ => none

/-- The code of an AFEED format. -/
def feedCode : FeedFmt → Nat
  | .f16 => 13
  | .bf16 => 14
  | .e4m3 => 16
  | .e5m2 => 17
  | .q4 => 20
  | .q8 => 21

/-- Formats of ADRAIN (Table 3.11). -/
def drainOf : Nat → Option DrainFmt
  | 12 => some .f32
  | 13 => some .f16
  | 14 => some .bf16
  | 16 => some .e4m3
  | _ => none

/-- The code of an ADRAIN format. -/
def drainCode : DrainFmt → Nat
  | .f32 => 12
  | .f16 => 13
  | .bf16 => 14
  | .e4m3 => 16

/-- Rounding codes (Table 1.3). -/
def rmOf : Nat → Option Rm
  | 0 => some .rn
  | 1 => some .rz
  | 2 => some .rp
  | 3 => some .rminf
  | _ => none

/-- The code of a rounding mode. -/
def rmCode : Rm → Nat
  | .rn => 0
  | .rz => 1
  | .rp => 2
  | .rminf => 3

/-- Comparisons of ICMP and SCMP (Table 3.12). -/
def cmpOf : Nat → Option Cmp
  | 0 => some .eq
  | 1 => some .ne
  | 2 => some .lt
  | 3 => some .le
  | 4 => some .gt
  | 5 => some .ge
  | _ => none

/-- The code of a comparison. -/
def cmpCode : Cmp → Nat
  | .eq => 0
  | .ne => 1
  | .lt => 2
  | .le => 3
  | .gt => 4
  | .ge => 5

/-- Comparisons of FCMP (Table 3.12). -/
def fcmpOf : Nat → Option FCmp
  | 0 => some .eq
  | 1 => some .ne
  | 2 => some .lt
  | 3 => some .le
  | 4 => some .gt
  | 5 => some .ge
  | 6 => some .un
  | 7 => some .ord
  | _ => none

/-- The code of an FCMP comparison. -/
def fcmpCode : FCmp → Nat
  | .eq => 0
  | .ne => 1
  | .lt => 2
  | .le => 3
  | .gt => 4
  | .ge => 5
  | .un => 6
  | .ord => 7

/-- Logic functions (Table 3.12). -/
def logicOf : Nat → Option LogicFn
  | 0 => some .and
  | 1 => some .or
  | 2 => some .xor
  | 3 => some .andn
  | 4 => some .orn
  | 5 => some .xnor
  | 6 => some .not
  | _ => none

/-- The code of a logic function. -/
def logicCode : LogicFn → Nat
  | .and => 0
  | .or => 1
  | .xor => 2
  | .andn => 3
  | .orn => 4
  | .xnor => 5
  | .not => 6

/-- Shift functions (R86). -/
def shfOf : Nat → Option ShfFn
  | 0 => some .shl
  | 1 => some .shr
  | 2 => some .rol
  | 3 => some .ror
  | _ => none

/-- The code of a shift function. -/
def shfCode : ShfFn → Nat
  | .shl => 0
  | .shr => 1
  | .rol => 2
  | .ror => 3

/-- Bit counting functions (R89). -/
def bitcOf : Nat → Option BitcFn
  | 0 => some .popc
  | 1 => some .clz
  | 2 => some .ctz
  | 3 => some .brev
  | _ => none

/-- The code of a bit counting function. -/
def bitcCode : BitcFn → Nat
  | .popc => 0
  | .clz => 1
  | .ctz => 2
  | .brev => 3

/-- Special functions (Table 3.11). -/
def spcOf : Nat → Option SpcFn
  | 0 => some .rcp
  | 1 => some .rsq
  | 2 => some .sqrt
  | 3 => some .exp2
  | 4 => some .log2
  | _ => none

/-- The code of a special function. -/
def spcCode : SpcFn → Nat
  | .rcp => 0
  | .rsq => 1
  | .sqrt => 2
  | .exp2 => 3
  | .log2 => 4

/-- SALU operations (Table 3.11). -/
def saluOf : Nat → Option SaluFn
  | 0 => some .add
  | 1 => some .sub
  | 2 => some .mul
  | 3 => some .and
  | 4 => some .or
  | 5 => some .xor
  | 6 => some .shl
  | 7 => some .shr
  | 8 => some .sar
  | 9 => some .mini
  | 10 => some .maxi
  | 11 => some .minn
  | 12 => some .maxn
  | _ => none

/-- The code of a SALU operation. -/
def saluCode : SaluFn → Nat
  | .add => 0
  | .sub => 1
  | .mul => 2
  | .and => 3
  | .or => 4
  | .xor => 5
  | .shl => 6
  | .shr => 7
  | .sar => 8
  | .mini => 9
  | .maxi => 10
  | .minn => 11
  | .maxn => 12

/-- MOVS sources (Table 4.4). -/
def movsOf : Nat → Option MovsSrc
  | 0 => some .lane
  | 1 => some .owner
  | 2 => some .slot
  | 3 => some .coord
  | 4 => some .wg
  | _ => none

/-- The code of a MOVS source. -/
def movsCode : MovsSrc → Nat
  | .lane => 0
  | .owner => 1
  | .slot => 2
  | .coord => 3
  | .wg => 4

/-- OWNQ fields (Table 3.11). -/
def ownOf : Nat → Option OwnField
  | 0 => some .index
  | 1 => some .vf
  | 2 => some .asid
  | 3 => some .awn
  | _ => none

/-- The code of an OWNQ field. -/
def ownCode : OwnField → Nat
  | .index => 0
  | .vf => 1
  | .asid => 2
  | .awn => 3

/-- SHFL functions (Table 3.11). -/
def shflOf : Nat → Option ShflFn
  | 0 => some .idx
  | 1 => some .up
  | 2 => some .down
  | 3 => some .xor
  | _ => none

/-- The code of a SHFL function. -/
def shflCode : ShflFn → Nat
  | .idx => 0
  | .up => 1
  | .down => 2
  | .xor => 3

/-- Operations of LRED and PRFX (R155). -/
def redOf : Nat → Option RedOp
  | 0 => some .add
  | 1 => some .min
  | 2 => some .max
  | 3 => some .and
  | 4 => some .or
  | 5 => some .xor
  | 6 => some .xadd
  | _ => none

/-- The code of a reduction. -/
def redCode : RedOp → Nat
  | .add => 0
  | .min => 1
  | .max => 2
  | .and => 3
  | .or => 4
  | .xor => 5
  | .xadd => 6

/-- Atomic operations (Table 3.12). -/
def atomOpOf : Nat → Option AtomOp
  | 0 => some .add
  | 1 => some .min
  | 2 => some .max
  | 3 => some .and
  | 4 => some .or
  | 5 => some .xor
  | 6 => some .exch
  | _ => none

/-- The code of an atomic operation. -/
def atomOpCode : AtomOp → Nat
  | .add => 0
  | .min => 1
  | .max => 2
  | .and => 3
  | .or => 4
  | .xor => 5
  | .exch => 6

/-- Operations of ATOMF (Table 3.12). -/
def atomfOf : Nat → Option AtomFOp
  | 0 => some .add
  | 1 => some .min
  | 2 => some .max
  | _ => none

/-- The code of an ATOMF operation. -/
def atomfCode : AtomFOp → Nat
  | .add => 0
  | .min => 1
  | .max => 2

/-- Orders (R56). -/
def ordOf : Nat → Option Ord4
  | 0 => some .rlx
  | 1 => some .acq
  | 2 => some .rel
  | 3 => some .ar
  | _ => none

/-- The code of an order. -/
def ordCode : Ord4 → Nat
  | .rlx => 0
  | .acq => 1
  | .rel => 2
  | .ar => 3

/-- Orders of FENCE (Table 10.1). -/
def fenceOf : Nat → Option FenceOrd
  | 1 => some .acq
  | 2 => some .rel
  | 3 => some .ar
  | _ => none

/-- The code of a FENCE order. -/
def fenceCode : FenceOrd → Nat
  | .acq => 1
  | .rel => 2
  | .ar => 3

/-- Scopes (R56). -/
def scopeOf : Nat → Option Scope
  | 0 => some .wg
  | 1 => some .cl
  | 2 => some .dev
  | 3 => some .sys
  | _ => none

/-- The code of a scope. -/
def scopeCode : Scope → Nat
  | .wg => 0
  | .cl => 1
  | .dev => 2
  | .sys => 3

/-- Element counts (R56). -/
def nregOf : Nat → Option NReg
  | 0 => some .x1
  | 1 => some .x2
  | 2 => some .x4
  | _ => none

/-- The code of an element count. -/
def nregCode : NReg → Nat
  | .x1 => 0
  | .x2 => 1
  | .x4 => 2

/-- Windows of SPTST and SPCST (Table 3.11). -/
def winOf : Nat → Option Win
  | 0 => some .core
  | 1 => some .cluster
  | 2 => some .die
  | _ => none

/-- The code of a window. -/
def winCode : Win → Nat
  | .core => 0
  | .cluster => 1
  | .die => 2

/-- Arrival modes (Table 3.12). -/
def barmOf : Nat → Option BarMode
  | 0 => some .arrive
  | 1 => some .drop
  | 2 => some .join
  | _ => none

/-- The code of an arrival mode. -/
def barmCode : BarMode → Nat
  | .arrive => 0
  | .drop => 1
  | .join => 2

/-- Engine classes (Table 3.11). -/
def classOf : Nat → Option EClass
  | 0 => some .cpy
  | 1 => some .wld
  | 2 => some .fed
  | 3 => some .drn
  | 4 => some .gth
  | 5 => some .col
  | _ => none

/-- The code of an engine class. -/
def classCode : EClass → Nat
  | .cpy => 0
  | .wld => 1
  | .fed => 2
  | .drn => 3
  | .gth => 4
  | .col => 5

/-- QM values (R58). -/
def qmOf : Nat → Option Qm
  | 0 => some .implied
  | 1 => some .nw
  | 2 => some .ne
  | 4 => some .sw
  | 8 => some .se
  | 3 => some .n
  | 12 => some .s
  | 5 => some .w
  | 10 => some .e
  | 15 => some .all
  | _ => none

/-- The code of a quadrant set. -/
def qmCode : Qm → Nat
  | .implied => 0
  | .nw => 1
  | .ne => 2
  | .sw => 4
  | .se => 8
  | .n => 3
  | .s => 12
  | .w => 5
  | .e => 10
  | .all => 15

/-- EVLD fields (Table 14.12). -/
def evOf : Nat → Option EvField
  | 0 => some .ts
  | 1 => some .cls
  | 2 => some .unit
  | 3 => some .vf
  | 4 => some .asid
  | 5 => some .kind
  | 6 => some .aux
  | 7 => some .val
  | 8 => some .lo
  | 9 => some .hi
  | 10 => some .drops
  | _ => none

/-- The code of an EVLD field. -/
def evCode : EvField → Nat
  | .ts => 0
  | .cls => 1
  | .unit => 2
  | .vf => 3
  | .asid => 4
  | .kind => 5
  | .aux => 6
  | .val => 7
  | .lo => 8
  | .hi => 9
  | .drops => 10

/-- EALU operations (R276). -/
def ealuOf : Nat → Option EaluOp
  | 0 => some .add
  | 1 => some .sub
  | 2 => some .and
  | 3 => some .or
  | 4 => some .xor
  | 5 => some .shl
  | 6 => some .shr
  | 7 => some .min
  | 8 => some .max
  | 9 => some .subs
  | 10 => some .mul
  | _ => none

/-- The code of an EALU operation. -/
def ealuCode : EaluOp → Nat
  | .add => 0
  | .sub => 1
  | .and => 2
  | .or => 3
  | .xor => 4
  | .shl => 5
  | .shr => 6
  | .min => 7
  | .max => 8
  | .subs => 9
  | .mul => 10

/-- ECMP conditions (R276). -/
def ecmpOf : Nat → Option EcmpOp
  | 0 => some .eq
  | 1 => some .ne
  | 2 => some .ltn
  | 3 => some .len
  | 4 => some .gtn
  | 5 => some .gen
  | 6 => some .lti
  | 7 => some .gei
  | _ => none

/-- The code of an ECMP condition. -/
def ecmpCode : EcmpOp → Nat
  | .eq => 0
  | .ne => 1
  | .ltn => 2
  | .len => 3
  | .gtn => 4
  | .gen => 5
  | .lti => 6
  | .gei => 7

/-- CVTF's FN: destination and source, unequal (Table 3.11). -/
def cvtfOf (n : Nat) : Option (Fmt × Fmt) :=
  match fmtxOf (n / 8), fmtxOf (n % 8) with
  | some d, some s => if d = s then none else some (d, s)
  | _, _ => none

/-- CVTI's FN: direction, float type and integer type (Table 3.11). -/
def cvtiOf (n : Nat) : Option (Bool × AFmt × ITy) :=
  match cvtiFmtOf (n / 8 % 4), ityOf (n % 8) with
  | some f, some i => some (n / 32 == 1, f, i)
  | _, _ => none

/-- The signed types that IABS accepts (Table 3.11). -/
def sityOf (n : Nat) : Option ITy := if n < 4 then ityOf n else none

/-- The 32- and 64-bit types that BFX accepts (Table 3.11). -/
def wityOf (n : Nat) : Option ITy := if n = 2 ∨ n = 3 ∨ n = 6 ∨ n = 7 then ityOf n else none

/-- An FN with two assigned values; the second reads true. -/
def two (x y n : Nat) : Option Bool := if n = x then some false else if n = y then some true else none

/-- An FN with one assigned value. -/
def only (x n : Nat) : Option Unit := if n = x then some () else none

/-- An FN assigned below a bound. -/
def below (k n : Nat) : Option Nat := if n < k then some n else none

/-- A number below n, by reduction. -/
def finOf (n : Nat) (h : 0 < n) (x : Nat) : Fin n := ⟨x % n, Nat.mod_lt _ h⟩

/-- A field with a list of assigned values. -/
def pick {α : Type} (pos : Nat) (f : Nat → Option α) (n : Nat) : Chk α :=
  match f n with
  | some a => .ok a
  | none => .bad pos

/-- A field that must hold one value. -/
def isF (pos v x : Nat) : Chk Unit := if x = v then .ok () else .bad pos

/-- A field that must be zero (R52, R67). -/
def zF (pos x : Nat) : Chk Unit := isF pos 0 x

/-- A field whose values lie below n. -/
def under (pos n : Nat) (h : 0 < n) (x : Nat) : Chk (Fin n) := if x < n then .ok (finOf n h x) else .bad pos

/-- A v code below the allocation (R9), aligned to n registers (R8). -/
def vF (pos lim n c : Nat) : Chk VReg :=
  if h : c < 320 then (if c < lim ∧ c % n = 0 then .ok ⟨c, h⟩ else .bad pos) else .bad pos

/-- An s code (Table 3.2), aligned to n. -/
def sF (pos n c : Nat) : Chk SReg :=
  if h : c - 0x140 < 64 then (if 0x140 ≤ c ∧ (c - 0x140) % n = 0 then .ok ⟨c - 0x140, h⟩ else .bad pos) else .bad pos

/-- A p code. -/
def pF (pos c : Nat) : Chk PReg :=
  if h : c - 0x180 < 8 then (if 0x180 ≤ c then .ok ⟨c - 0x180, h⟩ else .bad pos) else .bad pos

/-- A q code. -/
def qF (pos c : Nat) : Chk QReg :=
  if h : c - 0x190 < 16 then (if 0x190 ≤ c then .ok ⟨c - 0x190, h⟩ else .bad pos) else .bad pos

/-- A v or s code; a v register aligned to n, an s register to m. -/
def srcF (pos lim n m c : Nat) : Chk Src :=
  if c < 320 then (Chk.ok Src.v).ap (vF pos lim n c) else (Chk.ok Src.s).ap (sF pos m c)

/-- A p or q code (R147). -/
def pqF (pos c : Nat) : Chk PQ := if c < 0x190 then (Chk.ok PQ.p).ap (pF pos c) else (Chk.ok PQ.q).ap (qF pos c)

/-- An s or control-register code (R107). -/
def gF (pos c : Nat) : Chk GReg :=
  if c = 0x1A0 then .ok (.ctl .status) else if c = 0x1A1 then .ok (.ctl .fpctl) else if c = 0x1A2 then .ok (.ctl .flags)
  else if c = 0x1A3 then .ok (.ctl .check) else (Chk.ok GReg.s).ap (sF pos 1 c)

def dZ (r : Raw) : Chk Unit := zF 28 r.d
def aZ (r : Raw) : Chk Unit := zF 37 r.a
def bZ (r : Raw) : Chk Unit := zF 46 r.b
def mZ (r : Raw) : Chk Unit := zF 61 r.mod
/-- EXT bits that the entry does not assign (R55). -/
def extZ (r : Raw) : Chk Unit := zF 73 (r.x 1)
def dV (cx : DecCtx) (n : Nat) (r : Raw) : Chk VReg := vF 28 cx.lim n r.d
def aV (cx : DecCtx) (n : Nat) (r : Raw) : Chk VReg := vF 37 cx.lim n r.a
def aS (cx : DecCtx) (n : Nat) (r : Raw) : Chk Src := srcF 37 cx.lim n 1 r.a
def bS (cx : DecCtx) (n : Nat) (r : Raw) : Chk Src := srcF 46 cx.lim n 1 r.b
def cS (cx : DecCtx) (n : Nat) (r : Raw) : Chk Src := srcF 64 cx.lim n 1 (r.x 0)
/-- IMM32 of I96 (R54). -/
def immF (r : Raw) : Chk (BitVec 32) := .ok (BitVec.ofNat 32 (r.x 0))
/-- B, or IMM32 in I96 with B zero (R54). -/
def bSI (cx : DecCtx) (f : Format) (n : Nat) (r : Raw) : Chk SrcI :=
  if f = .i96 then ((Chk.ok SrcI.imm).ap (immF r)).skip (bZ r) else (Chk.ok SrcI.reg).ap (bS cx n r)
def bSm (f : Format) (r : Raw) : Chk SImm :=
  if f = .i96 then ((Chk.ok SImm.imm).ap (immF r)).skip (bZ r) else (Chk.ok SImm.s).ap (sF 46 1 r.b)
/-- B of SALU (R54, R59). -/
def bG (f : Format) (r : Raw) : Chk GSrc :=
  if f = .i96 then ((Chk.ok GSrc.imm32).ap (immF r)).skip (bZ r)
  else if f = .i128 then ((Chk.ok GSrc.imm64).ap (Chk.ok (BitVec.ofNat 64 (r.x 0)))).skip (bZ r)
  else (Chk.ok GSrc.s).ap (sF 46 1 r.b)
/-- The source of SMOV: A, or an immediate with A zero (R107). -/
def aG (f : Format) (r : Raw) : Chk SMovSrc :=
  if f = .i96 then ((Chk.ok SMovSrc.imm32).ap (immF r)).skip (aZ r)
  else if f = .i128 then ((Chk.ok SMovSrc.imm64).ap (Chk.ok (BitVec.ofNat 64 (r.x 0)))).skip (aZ r)
  else (Chk.ok SMovSrc.reg).ap (gF 37 r.a)
/-- The immediate of MOVI; DEDUCED: the field that offends in I128 under .b32 is FN (log 12). -/
def moviImm (f : Format) (t : BTy) (r : Raw) : Chk MovImm :=
  if f = .i96 then (Chk.ok MovImm.imm32).ap (immF r)
  else ((Chk.ok MovImm.imm64).ap (Chk.ok (BitVec.ofNat 64 (r.x 0)))).skip (if t = .b64 then .ok () else .bad 55)
def m01 (r : Raw) : Chk Bool := pick 61 (two 0 1) r.mod
/-- Wrap or saturate (Table 3.12). -/
def mSat (r : Raw) : Chk Bool := m01 r
def mRm (r : Raw) : Chk Rm := pick 61 rmOf r.mod
/-- MOD⟨1:0⟩ of CVTF (R99). -/
def mRmS (r : Raw) : Chk Rm := pick 61 rmOf (r.mod % 4)
/-- MOD⟨2⟩ of CVTF, assigned only when the destination is e4m3 (R99). -/
def mSatBit (d : Fmt) (r : Raw) : Chk Bool := if r.mod < 4 then .ok false else if d = .e4m3 then .ok true else .bad 61
/-- The element index of CVTQ (R101). -/
def mK (q8 : Bool) (r : Raw) : Chk (Fin 8) := if q8 ∧ 3 < r.mod then .bad 61 else .ok (finOf 8 (by decide) r.mod)
/-- LOP's function; not is V3 only (R85). -/
def mLop (f : Format) (r : Raw) : Chk LogicFn := if r.mod = 6 ∧ f ≠ .v3 then .bad 61 else pick 61 logicOf r.mod
/-- SHFL's width (R152). -/
def mW (r : Raw) : Chk (Fin 4) := under 61 4 (by decide) r.mod
def mRed (prfx : Bool) (t : RTy) (r : Raw) : Chk RedOp :=
  match redOf r.mod with
  | none => .bad 61
  | some op => if redPair prfx t op then .ok op else .bad 61
def mAtom (exch : Bool) (t : WTy) (r : Raw) : Chk AtomOp :=
  match atomOpOf r.mod with
  | none => .bad 61
  | some op => if atomPair t op ∧ (exch ∨ op ≠ .exch) then .ok op else .bad 61
/-- A PC-relative offset (R61). -/
def offI (r : Raw) : Chk (BitVec 32) := if r.x 0 % 4 = 0 then immF r else .bad 64

/-- Alignment that an NREG code asks of a register. -/
def nregAt (n : Nat) : Nat := if n = 1 then 2 else if n = 2 then 4 else 1
def offM (r : Raw) : Chk (BitVec 32) := .ok (BitVec.ofNat 32 (r.x 0))
def scopeF (r : Raw) : Chk Scope := pick 96 scopeOf (r.x 1)
/-- TMOV, SPTST and SPCST require SCOPE 0b00 (R191). -/
def scopeZ (r : Raw) : Chk Unit := zF 96 (r.x 1)
def ord4 (r : Raw) : Chk Ord4 := pick 98 ordOf (r.x 2)
/-- Relaxed, or the one other order an entry accepts. -/
def ord2 (v : Nat) (r : Raw) : Chk Bool := pick 98 (two 0 v) (r.x 2)
def ordIn (l : List Nat) (r : Raw) : Chk Unit := if r.x 2 ∈ l then .ok () else .bad 98
def nregZ (r : Raw) : Chk Unit := zF 112 (r.x 7)
def cMZ (r : Raw) : Chk Unit := zF 102 (r.x 5)
/-- The reserved bits of M128 (Table 3.5). -/
def mRes (r : Raw) : Chk Unit := ((zF 101 (r.x 4)).skip (zF 111 (r.x 6))).skip (zF 114 (r.x 8))
/-- CW = 1 is accepted by few instructions (R191), and always needs A zero (R56). -/
def noCw (r : Raw) : Chk Unit := (zF 100 (r.x 3)).skip (if r.x 3 = 1 ∧ r.a ≠ 0 then .bad 37 else .ok ())
/-- A base register (R114). -/
def baseF (cx : DecCtx) (r : Raw) : Chk Base := srcF 37 cx.lim 2 1 r.a
/-- A memory operand (R56). -/
def maddr (cx : DecCtx) (r : Raw) : Chk MAddr :=
  if r.x 3 = 1 then ((Chk.ok MAddr.const).ap (offM r)).skip (aZ r) else ((Chk.ok MAddr.reg).ap (baseF cx r)).ap (offM r)
/-- SLD's operand: an s base (R110). -/
def maddrS (r : Raw) : Chk MAddr :=
  if r.x 3 = 1 then ((Chk.ok MAddr.const).ap (offM r)).skip (aZ r)
  else ((Chk.ok (fun s o => MAddr.reg (.s s) o)).ap (sF 37 1 r.a)).ap (offM r)

/-- The reserved bits of X128 (Table 3.6). -/
def xRes (r : Raw) : Chk Unit := (zF 85 (r.x 2)).skip (zF 92 (r.x 6))
def lpF (r : Raw) : Chk PReg := .ok (finOf 8 (by decide) (r.x 3))
/-- TSEN and TASK (R57). -/
def taskF (r : Raw) : Chk (Option (Fin 4096)) :=
  if r.x 4 = 1 then .ok (some (finOf 4096 (by decide) (r.x 1))) else (Chk.ok none).skip (zF 73 (r.x 1))
/-- BREN and C (R57, Table 12.1). -/
def barF (cx : DecCtx) (r : Raw) : Chk (Option Base) :=
  if r.x 5 = 1 then (Chk.ok some).ap (srcF 64 cx.lim 2 1 (r.x 0)) else (Chk.ok none).skip (zF 64 (r.x 0))
def asyncF (cx : DecCtx) (r : Raw) : Chk Async := (((Chk.ok Async.mk).ap (barF cx r)).ap (taskF r)).ap (lpF r)
/-- Fields that LAUNCH leaves zero (R157). -/
def launchRes (r : Raw) : Chk Unit :=
  ((((zF 64 (r.x 0)).skip (zF 73 (r.x 1))).skip (zF 90 (r.x 4))).skip (zF 91 (r.x 5))).skip (xRes r)

/-- The lowest bits of the Y128 fields (Table 3.7). -/
def yPos (i : Nat) : Nat := getAt 0 [64, 74, 84, 88, 96, 98, 112] i
/-- Y128 fields that must be zero (Table 12.2). -/
def yZ : List Nat → Raw → Chk Unit
  | [], _ => .ok ()
  | i :: l, r => (zF (yPos i) (r.x i)).skip (yZ l r)
/-- IMM16 as a stride (R245). -/
def strideF (len : Nat) (r : Raw) : Chk (BitVec 16) := if strideOk len (r.x 6) then .ok (BitVec.ofNat 16 (r.x 6)) else .bad 112
/-- QM (R58), and in a sequencer 0 or the context's region (R219). -/
def qmF (cx : DecCtx) (r : Raw) : Chk Qm :=
  match cx.qm with
  | some m => if r.x 2 = 0 ∨ r.x 2 = m then pick 84 qmOf (r.x 2) else .bad 84
  | none => pick 84 qmOf (r.x 2)
def acmF (r : Raw) : Chk Bool := pick 96 (two 0 1) (r.x 4)

/-- The instruction that an opcode's fields name; none where FN is unassigned (R65). DEDUCED: where a field of IMM32 or IMM16 is divided (WLOAD, GATH, LAUNCH, MFSR, MTSR,
MLATCH), the SEC of an illegal part is that part's lowest bit, not the whole field's (R67, log 13). -/
def parse (cx : DecCtx) (f : Format) (r : Raw) (h : Hdr) (o : Opc) : Option (Chk Instr) :=
  match o with
  | .iadd =>
    match ityOf r.fn with
    | none => none
    | some t =>
      some ((Chk.ok (Instr.iadd h t)) |>.ap (mSat r) |>.ap (dV cx (regsOf (ityBits t)) r)
      |>.ap (aS cx (regsOf (ityBits t)) r) |>.ap (bSI cx f (regsOf (ityBits t)) r))
  | .isub =>
    match ityOf r.fn with
    | none => none
    | some t =>
      some ((Chk.ok (Instr.isub h t)) |>.ap (mSat r) |>.ap (dV cx (regsOf (ityBits t)) r)
      |>.ap (aS cx (regsOf (ityBits t)) r) |>.ap (bSI cx f (regsOf (ityBits t)) r))
  | .imul =>
    match ityOf r.fn with
    | none => none
    | some t =>
      some ((Chk.ok (Instr.imul h t)) |>.ap (mSat r) |>.ap (dV cx (regsOf (ityBits t)) r)
      |>.ap (aS cx (regsOf (ityBits t)) r) |>.ap (bSI cx f (regsOf (ityBits t)) r))
  | .imulh =>
    match ityOf r.fn with
    | none => none
    | some t =>
      some ((Chk.ok (Instr.imulh h t)) |>.skip (mZ r) |>.ap (dV cx (regsOf (ityBits t)) r)
      |>.ap (aS cx (regsOf (ityBits t)) r) |>.ap (bSI cx f (regsOf (ityBits t)) r))
  | .imad =>
    match ityOf r.fn with
    | none => none
    | some t =>
      some ((Chk.ok (Instr.imad h t)) |>.ap (mSat r) |>.ap (dV cx (regsOf (ityBits t)) r)
      |>.ap (aS cx (regsOf (ityBits t)) r) |>.ap (bS cx (regsOf (ityBits t)) r)
      |>.ap (cS cx (regsOf (ityBits t)) r) |>.skip (extZ r))
  | .imin =>
    match ityOf r.fn with
    | none => none
    | some t =>
      some ((Chk.ok (Instr.imin h t)) |>.skip (mZ r) |>.ap (dV cx (regsOf (ityBits t)) r)
      |>.ap (aS cx (regsOf (ityBits t)) r) |>.ap (bSI cx f (regsOf (ityBits t)) r))
  | .imax =>
    match ityOf r.fn with
    | none => none
    | some t =>
      some ((Chk.ok (Instr.imax h t)) |>.skip (mZ r) |>.ap (dV cx (regsOf (ityBits t)) r)
      |>.ap (aS cx (regsOf (ityBits t)) r) |>.ap (bSI cx f (regsOf (ityBits t)) r))
  | .iabs =>
    match sityOf r.fn with
    | none => none
    | some t =>
      some ((Chk.ok (Instr.iabs h t)) |>.ap (mSat r) |>.ap (dV cx (regsOf (ityBits t)) r)
      |>.ap (aS cx (regsOf (ityBits t)) r) |>.skip (bZ r))
  | .lop =>
    match btyOf r.fn with
    | none => none
    | some t =>
      some (((((Chk.ok (Instr.lop h)).ap (mLop f r)).ap (Chk.ok t)).ap (dV cx (regsOf (btyBits t)) r)).ap (aS cx (regsOf (btyBits t)) r)
      |>.ap (if r.mod = 6 ∧ f = .v3 then (Chk.ok (SrcI.reg (.v 0))).skip (bZ r) else bSI cx f (regsOf (btyBits t)) r))
  | .shf =>
    match wtyOf r.fn with
    | none => none
    | some t =>
      some ((Chk.ok (Instr.shf h)) |>.ap (pick 61 shfOf r.mod) |>.ap (Chk.ok t) |>.ap (dV cx (regsOf (wtyBits t)) r)
      |>.ap (aS cx (regsOf (wtyBits t)) r) |>.ap (bSI cx f 1 r))
  | .bfx =>
    match wityOf r.fn with
    | none => none
    | some t =>
      some ((Chk.ok (Instr.bfx h t)) |>.skip (mZ r) |>.ap (dV cx (regsOf (ityBits t)) r) |>.ap (aS cx (regsOf (ityBits t)) r)
      |>.ap (bS cx 1 r) |>.ap (cS cx 1 r) |>.skip (extZ r))
  | .bfi =>
    match btyOf r.fn with
    | none => none
    | some t =>
      some ((Chk.ok (Instr.bfi h t)) |>.skip (mZ r) |>.ap (dV cx (regsOf (btyBits t)) r) |>.ap (aS cx (regsOf (btyBits t)) r)
      |>.ap (bS cx (regsOf (btyBits t)) r) |>.ap (cS cx 1 r) |>.skip (extZ r))
  | .bitc =>
    match btyOf r.fn with
    | none => none
    | some t =>
      some ((Chk.ok (Instr.bitc h)) |>.ap (pick 61 bitcOf r.mod) |>.ap (Chk.ok t)
      |>.ap (dV cx (if r.mod = 3 then regsOf (btyBits t) else 1) r) |>.ap (aS cx (regsOf (btyBits t)) r)
      |>.ap (bSI cx f (regsOf (btyBits t)) r))
  | .sel =>
    match btyOf r.fn with
    | none => none
    | some t =>
      some ((Chk.ok (Instr.sel h t)) |>.skip (mZ r) |>.ap (dV cx (regsOf (btyBits t)) r) |>.ap (aS cx (regsOf (btyBits t)) r)
      |>.ap (bS cx (regsOf (btyBits t)) r) |>.ap (pF 64 (r.x 0)) |>.skip (extZ r))
  | .icmp =>
    match ityOf r.fn with
    | none => none
    | some t =>
      some ((Chk.ok (Instr.icmp h t)) |>.ap (pick 61 cmpOf r.mod) |>.ap (pF 28 r.d) |>.ap (aS cx (regsOf (ityBits t)) r)
      |>.ap (bSI cx f (regsOf (ityBits t)) r))
  | .fadd =>
    match only 0x0C r.fn with
    | none => none
    | some _u =>
      some ((Chk.ok (Instr.fadd h)) |>.ap (mRm r) |>.ap (dV cx 1 r) |>.ap (aS cx 1 r) |>.ap (bSI cx f 1 r))
  | .fmul =>
    match only 0x0C r.fn with
    | none => none
    | some _u =>
      some ((Chk.ok (Instr.fmul h)) |>.ap (mRm r) |>.ap (dV cx 1 r) |>.ap (aS cx 1 r) |>.ap (bSI cx f 1 r))
  | .ffma =>
    match only 0x0C r.fn with
    | none => none
    | some _u =>
      some ((Chk.ok (Instr.ffma h)) |>.ap (mRm r) |>.ap (dV cx 1 r) |>.ap (aS cx 1 r) |>.ap (bS cx 1 r) |>.ap (cS cx 1 r)
      |>.skip (extZ r))
  | .fmnx =>
    match only 0x0C r.fn with
    | none => none
    | some _u =>
      some ((Chk.ok (Instr.fmnx h)) |>.ap (m01 r) |>.ap (dV cx 1 r) |>.ap (aS cx 1 r) |>.ap (bSI cx f 1 r))
  | .fcmp =>
    match only 0x0C r.fn with
    | none => none
    | some _u =>
      some ((Chk.ok (Instr.fcmp h)) |>.ap (pick 61 fcmpOf r.mod) |>.ap (pF 28 r.d) |>.ap (aS cx 1 r) |>.ap (bSI cx f 1 r))
  | .fcls =>
    match only 0x0C r.fn with
    | none => none
    | some _u =>
      some ((Chk.ok (Instr.fcls h)) |>.skip (mZ r) |>.ap (dV cx 1 r) |>.ap (aS cx 1 r) |>.skip (bZ r))
  | .fspc =>
    match spcOf r.fn with
    | none => none
    | some n =>
      some ((Chk.ok (Instr.fspc h n)) |>.ap (mRm r) |>.ap (dV cx 1 r) |>.ap (aS cx 1 r) |>.skip (bZ r))
  | .hadd2 =>
    match two 0x0D 0x0E r.fn with
    | none => none
    | some bf =>
      some ((Chk.ok (Instr.hadd2 h bf)) |>.ap (mRm r) |>.ap (dV cx 1 r) |>.ap (aS cx 1 r) |>.ap (bSI cx f 1 r))
  | .hmul2 =>
    match two 0x0D 0x0E r.fn with
    | none => none
    | some bf =>
      some ((Chk.ok (Instr.hmul2 h bf)) |>.ap (mRm r) |>.ap (dV cx 1 r) |>.ap (aS cx 1 r) |>.ap (bSI cx f 1 r))
  | .hfma2 =>
    match two 0x0D 0x0E r.fn with
    | none => none
    | some bf =>
      some ((Chk.ok (Instr.hfma2 h bf)) |>.ap (mRm r) |>.ap (dV cx 1 r) |>.ap (aS cx 1 r) |>.ap (bS cx 1 r) |>.ap (cS cx 1 r)
      |>.skip (extZ r))
  | .fdp4 =>
    match two 0x10 0x11 r.fn with
    | none => none
    | some e5 =>
      some ((Chk.ok (Instr.fdp4 h e5)) |>.ap (mRm r) |>.ap (dV cx 1 r) |>.ap (aS cx 1 r) |>.ap (bS cx 1 r) |>.ap (cS cx 1 r)
      |>.skip (extZ r))
  | .cvtf =>
    match cvtfOf r.fn with
    | none => none
    | some ds =>
      some ((Chk.ok (Instr.cvtf h ds.1 ds.2)) |>.ap (mRmS r) |>.ap (mSatBit ds.1 r) |>.ap (dV cx 1 r) |>.ap (aS cx 1 r)
      |>.skip (bZ r))
  | .cvti =>
    match cvtiOf r.fn with
    | none => none
    | some k =>
      some ((Chk.ok (Instr.cvti h k.1 k.2.1 k.2.2)) |>.ap (mRm r) |>.ap (dV cx (if k.1 then regsOf (ityBits k.2.2) else 1) r)
      |>.ap (aS cx (if k.1 then 1 else regsOf (ityBits k.2.2)) r) |>.skip (bZ r))
  | .cvtq =>
    match two 0x14 0x15 r.fn with
    | none => none
    | some q8 =>
      some ((Chk.ok (Instr.cvtq h q8)) |>.ap (mK q8 r) |>.ap (dV cx 1 r) |>.ap (aS cx 1 r) |>.ap (bS cx 1 r))
  | .mov =>
    match btyOf r.fn with
    | none => none
    | some t =>
      some ((Chk.ok (Instr.mov h t)) |>.skip (mZ r) |>.ap (dV cx (regsOf (btyBits t)) r) |>.ap (aS cx (regsOf (btyBits t)) r)
      |>.skip (bZ r))
  | .movi =>
    match btyOf r.fn with
    | none => none
    | some t =>
      some ((Chk.ok (Instr.movi h t)) |>.skip (mZ r) |>.ap (dV cx (regsOf (btyBits t)) r) |>.ap (moviImm f t r)
      |>.skip (aZ r) |>.skip (bZ r))
  | .movs =>
    match movsOf r.fn with
    | none => none
    | some m =>
      some ((Chk.ok (Instr.movs h m)) |>.skip (mZ r) |>.ap (dV cx 1 r) |>.skip (aZ r) |>.skip (bZ r))
  | .movg =>
    match btyOf r.fn with
    | none => none
    | some t =>
      some ((Chk.ok (Instr.movg h t)) |>.skip (mZ r) |>.ap (sF 28 1 r.d) |>.ap (aS cx (regsOf (btyBits t)) r) |>.skip (bZ r))
  | .plog =>
    match two 0x00 0x01 r.fn with
    | none => none
    | some q =>
      some (((Chk.ok (Instr.plog h)).ap (pick 61 logicOf r.mod)).ap
      (if q then
        (((Chk.ok PlogArgs.q).ap (qF 28 r.d)).ap (qF 37 r.a)).ap (if r.mod = 6 then (Chk.ok (0 : QReg)).skip (bZ r) else qF 46 r.b)
      else
        (((Chk.ok PlogArgs.p).ap (pF 28 r.d)).ap (pF 37 r.a)).ap (if r.mod = 6 then (Chk.ok (0 : PReg)).skip (bZ r) else pF 46 r.b)))
  | .pset =>
    match two 0x00 0x01 r.fn with
    | none => none
    | some q =>
      some ((((Chk.ok (Instr.pset h)).skip (mZ r)).ap
      (if q then ((Chk.ok PsetArgs.q).ap (qF 28 r.d)).ap (sF 37 1 r.a) else ((Chk.ok PsetArgs.p).ap (pF 28 r.d)).ap (aS cx 1 r))).skip (bZ r))
  | .salu =>
    match saluOf r.fn with
    | none => none
    | some n =>
      some ((Chk.ok (Instr.salu h n)) |>.skip (mZ r) |>.ap (sF 28 1 r.d) |>.ap (sF 37 1 r.a) |>.ap (bG f r))
  | .smov =>
    match only 0x09 r.fn with
    | none => none
    | some _u =>
      some ((Chk.ok (Instr.smov h)) |>.skip (mZ r) |>.ap (gF 28 r.d) |>.ap (aG f r) |>.skip (bZ r))
  | .scmp =>
    match two 0x07 0x03 r.fn with
    | none => none
    | some sg =>
      some ((Chk.ok (Instr.scmp h sg)) |>.ap (pick 61 cmpOf r.mod) |>.ap (qF 28 r.d) |>.ap (sF 37 1 r.a) |>.ap (bSm f r))
  | .ssel =>
    match only 0x09 r.fn with
    | none => none
    | some _u =>
      some ((Chk.ok (Instr.ssel h)) |>.skip (mZ r) |>.ap (sF 28 1 r.d) |>.ap (sF 37 1 r.a) |>.ap (sF 46 1 r.b)
      |>.ap (qF 64 (r.x 0)) |>.skip (extZ r))
  | .sld =>
    match btyOf r.fn with
    | none => none
    | some t =>
      some ((Chk.ok (Instr.sld h t)) |>.skip (mZ r) |>.ap (pick 112 nregOf (r.x 7)) |>.ap (scopeF r)
      |>.ap (sF 28 (nregAt (r.x 7)) r.d) |>.ap (maddrS r) |>.skip (bZ r) |>.skip (cMZ r) |>.skip (ordIn [0] r)
      |>.skip (mRes r))
  | .bra =>
    if r.fn = 0 then some ((Chk.ok (Instr.bra h)) |>.skip (mZ r) |>.ap (offI r) |>.skip (dZ r) |>.skip (aZ r) |>.skip (bZ r)) else none
  | .jmp =>
    if r.fn = 0 then some ((Chk.ok (Instr.jmp h)) |>.skip (mZ r) |>.ap (sF 37 1 r.a) |>.skip (dZ r) |>.skip (bZ r)) else none
  | .call =>
    if r.fn = 0 then some ((Chk.ok (Instr.call h)) |>.skip (mZ r) |>.ap (sF 28 1 r.d) |>.ap (offI r) |>.skip (aZ r) |>.skip (bZ r)) else none
  | .ret =>
    if r.fn = 0 then some ((Chk.ok (Instr.ret h)) |>.skip (mZ r) |>.ap (sF 37 1 r.a) |>.skip (dZ r) |>.skip (bZ r)) else none
  | .exit =>
    if r.fn = 0 then some ((Chk.ok (Instr.exit h)) |>.skip (mZ r) |>.skip (dZ r) |>.skip (aZ r) |>.skip (bZ r)) else none
  | .nop =>
    if r.fn = 0 then some ((Chk.ok (Instr.nop h)) |>.skip (mZ r) |>.skip (dZ r) |>.skip (aZ r) |>.skip (bZ r)) else none
  | .yield =>
    if r.fn = 0 then some ((Chk.ok (Instr.yield h)) |>.skip (mZ r) |>.skip (dZ r) |>.skip (aZ r) |>.skip (bZ r)) else none
  | .brd =>
    if r.fn = 0 then some ((Chk.ok (Instr.brd h)) |>.skip (mZ r) |>.ap (offI r) |>.ap (sF 37 1 r.a) |>.skip (dZ r) |>.skip (bZ r)) else none
  | .join =>
    if r.fn = 0 then some ((Chk.ok (Instr.join h)) |>.skip (mZ r) |>.skip (dZ r) |>.skip (aZ r) |>.skip (bZ r) |>.skip (zF 14 r.gp)
      |>.skip (zF 17 r.gn)) else none
  | .vote =>
    match below 4 r.fn with
    | none => none
    | some n =>
      some ((((Chk.ok (Instr.vote h)).skip (mZ r)).ap
      (if n = 0 then ((Chk.ok VoteArgs.all).ap (pqF 28 r.d)).ap (pF 37 r.a)
       else if n = 1 then ((Chk.ok VoteArgs.any).ap (pqF 28 r.d)).ap (pF 37 r.a)
       else if n = 2 then ((Chk.ok VoteArgs.ballot).ap (srcF 28 cx.lim 1 1 r.d)).ap (pF 37 r.a)
       else ((Chk.ok VoteArgs.uni).ap (pqF 28 r.d)).ap (aS cx 1 r))).skip (bZ r))
  | .shfl =>
    match shflOf r.fn with
    | none => none
    | some n =>
      some ((Chk.ok (Instr.shfl h n)) |>.ap (mW r) |>.ap (dV cx 1 r) |>.ap (aV cx 1 r) |>.ap (bSI cx f 1 r))
  | .lred =>
    match rtyOf r.fn with
    | none => none
    | some t =>
      some ((Chk.ok (Instr.lred h)) |>.ap (mRed false t r) |>.ap (Chk.ok t) |>.ap (dV cx (regsOf (rtyBits t)) r)
      |>.ap (aV cx (regsOf (rtyBits t)) r) |>.skip (bZ r))
  | .bcst =>
    match btyOf r.fn with
    | none => none
    | some t =>
      some ((Chk.ok (Instr.bcst h t)) |>.skip (mZ r) |>.ap (dV cx (regsOf (btyBits t)) r)
      |>.ap (aV cx (regsOf (btyBits t)) r) |>.ap (bSm f r))
  | .rdln =>
    match btyOf r.fn with
    | none => none
    | some t =>
      some ((Chk.ok (Instr.rdln h t)) |>.skip (mZ r) |>.ap (sF 28 1 r.d) |>.ap (aV cx (regsOf (btyBits t)) r) |>.ap (bSm f r))
  | .prfx =>
    match rtyOf r.fn with
    | none => none
    | some t =>
      some ((Chk.ok (Instr.prfx h)) |>.ap (mRed true t r) |>.ap (Chk.ok t) |>.ap (dV cx (regsOf (rtyBits t)) r)
      |>.ap (aV cx (regsOf (rtyBits t)) r) |>.skip (bZ r))
  | .matchl =>
    match btyOf r.fn with
    | none => none
    | some t =>
      some ((Chk.ok (Instr.matchl h t)) |>.skip (mZ r) |>.ap (dV cx 1 r) |>.ap (aV cx (regsOf (btyBits t)) r) |>.skip (bZ r))
  | .ownq =>
    match ownOf r.fn with
    | none => none
    | some n =>
      some ((Chk.ok (Instr.ownq h n)) |>.skip (mZ r) |>.ap (dV cx 1 r) |>.skip (aZ r) |>.skip (bZ r))
  | .fragq =>
    match two 0 1 r.fn with
    | none => none
    | some n =>
      some ((Chk.ok (Instr.fragq h n)) |>.skip (mZ r) |>.ap (dV cx 1 r) |>.skip (aZ r) |>.skip (bZ r))
  | .elect =>
    if r.fn = 0 then some ((Chk.ok (Instr.elect h)) |>.skip (mZ r) |>.ap (pF 28 r.d) |>.skip (aZ r) |>.skip (bZ r)) else none
  | .backoff =>
    if r.fn = 0 then some ((Chk.ok (Instr.backoff h)) |>.skip (mZ r) |>.ap (sF 37 1 r.a) |>.skip (dZ r) |>.skip (bZ r)) else none
  | .launch =>
    if r.fn = 0 then some
      (if r.mod = 0 then
        ((((((Chk.ok (Instr.launchNow h)).ap (dV cx 1 r)).ap (baseF cx r)).ap (lpF r)).skip (bZ r)).skip (zF 96 (r.x 7))).skip (launchRes r)
      else
        (((((((Chk.ok (Instr.launchArm h)).ap (dV cx 1 r)).ap (baseF cx r)).ap (bS cx 1 r)).ap (Chk.ok (BitVec.ofNat 16 (r.x 7)))).ap (lpF r)).skip
          (isF 61 1 r.mod)).skip (zF 112 (r.x 7 / 65536)) |>.skip (launchRes r)) else none
  | .knot =>
    if r.fn = 0 then some ((Chk.ok (Instr.knot h)) |>.skip (mZ r) |>.ap (offI r) |>.skip (dZ r) |>.skip (aZ r) |>.skip (bZ r)) else none
  | .ld =>
    match mtyOf r.fn with
    | none => none
    | some t =>
      some ((Chk.ok (Instr.ld h t)) |>.skip (mZ r) |>.ap (pick 112 nregOf (r.x 7)) |>.ap (ord2 1 r) |>.ap (scopeF r)
      |>.ap (dV cx (nregAt (r.x 7) * regsOf (mtyBits t)) r) |>.ap (maddr cx r) |>.skip (bZ r) |>.skip (cMZ r)
      |>.skip (mRes r))
  | .st =>
    match mtyOf r.fn with
    | none => none
    | some t =>
      some ((Chk.ok (Instr.st h t)) |>.skip (mZ r) |>.ap (pick 112 nregOf (r.x 7)) |>.ap (ord2 2 r) |>.ap (scopeF r)
      |>.ap (maddr cx r) |>.ap (srcF 28 cx.lim (nregAt (r.x 7) * regsOf (mtyBits t)) (nregAt (r.x 7)) r.d)
      |>.skip (bZ r) |>.skip (cMZ r) |>.skip (mRes r))
  | .ldaq =>
    match mtyOf r.fn with
    | none => none
    | some t =>
      some ((Chk.ok (Instr.ldaq h t)) |>.skip (mZ r) |>.ap (pick 112 nregOf (r.x 7)) |>.ap (ord2 1 r) |>.ap (scopeF r)
      |>.ap (dV cx (nregAt (r.x 7) * regsOf (mtyBits t)) r) |>.ap (maddr cx r) |>.skip (bZ r) |>.skip (cMZ r)
      |>.skip (mRes r))
  | .strl =>
    match mtyOf r.fn with
    | none => none
    | some t =>
      some ((Chk.ok (Instr.strl h t)) |>.skip (mZ r) |>.ap (pick 112 nregOf (r.x 7)) |>.ap (ord2 2 r) |>.ap (scopeF r)
      |>.ap (maddr cx r) |>.ap (srcF 28 cx.lim (nregAt (r.x 7) * regsOf (mtyBits t)) (nregAt (r.x 7)) r.d)
      |>.skip (bZ r) |>.skip (cMZ r) |>.skip (mRes r))
  | .tmov =>
    if r.fn = 0 then some ((Chk.ok (Instr.tmov h)) |>.skip (mZ r) |>.ap (pick 112 nregOf (r.x 7)) |>.ap (maddr cx r)
      |>.ap (srcF 102 cx.lim 2 1 (r.x 5)) |>.skip (dZ r) |>.skip (bZ r) |>.skip (scopeZ r) |>.skip (ordIn [0] r)
      |>.skip (mRes r)) else none
  | .sptst =>
    match winOf r.fn with
    | none => none
    | some n =>
      some ((Chk.ok (Instr.sptst h n)) |>.skip (mZ r) |>.ap (pF 28 r.d) |>.ap (baseF cx r) |>.ap (offM r) |>.skip (bZ r)
      |>.skip (cMZ r) |>.skip (scopeZ r) |>.skip (nregZ r) |>.skip (noCw r) |>.skip (ordIn [0] r)
      |>.skip (mRes r))
  | .spcst =>
    match winOf r.fn with
    | none => none
    | some n =>
      some ((Chk.ok (Instr.spcst h n)) |>.ap (m01 r) |>.ap (dV cx 2 r) |>.ap (baseF cx r) |>.ap (offM r) |>.skip (bZ r)
      |>.skip (cMZ r) |>.skip (scopeZ r) |>.skip (nregZ r) |>.skip (noCw r) |>.skip (ordIn [0] r)
      |>.skip (mRes r))
  | .atom =>
    match wtyOf r.fn with
    | none => none
    | some t =>
      some ((Chk.ok (Instr.atom h t)) |>.ap (mAtom true t r) |>.ap (ord4 r) |>.ap (scopeF r)
      |>.ap (dV cx (regsOf (wtyBits t)) r) |>.ap (baseF cx r) |>.ap (offM r) |>.ap (bS cx (regsOf (wtyBits t)) r)
      |>.skip (cMZ r) |>.skip (nregZ r) |>.skip (noCw r) |>.skip (mRes r))
  | .acas =>
    match btyOf r.fn with
    | none => none
    | some t =>
      some ((Chk.ok (Instr.acas h t)) |>.skip (mZ r) |>.ap (ord4 r) |>.ap (scopeF r) |>.ap (dV cx (regsOf (btyBits t)) r)
      |>.ap (baseF cx r) |>.ap (offM r) |>.ap (bS cx (regsOf (btyBits t)) r)
      |>.ap (srcF 102 cx.lim (regsOf (btyBits t)) 1 (r.x 5)) |>.skip (nregZ r) |>.skip (noCw r) |>.skip (mRes r))
  | .ared =>
    match wtyOf r.fn with
    | none => none
    | some t =>
      some ((Chk.ok (Instr.ared h t)) |>.ap (mAtom false t r) |>.ap (ord2 2 r) |>.ap (scopeF r) |>.ap (baseF cx r)
      |>.ap (offM r) |>.ap (srcF 28 cx.lim (regsOf (wtyBits t)) 1 r.d) |>.skip (bZ r) |>.skip (cMZ r)
      |>.skip (nregZ r) |>.skip (noCw r) |>.skip (mRes r))
  | .atomf =>
    match afmtOf r.fn with
    | none => none
    | some t =>
      some ((Chk.ok (Instr.atomf h t)) |>.ap (pick 61 atomfOf r.mod) |>.ap (ord4 r) |>.ap (scopeF r) |>.ap (dV cx 1 r)
      |>.ap (baseF cx r) |>.ap (offM r) |>.ap (bS cx 1 r) |>.skip (cMZ r) |>.skip (nregZ r) |>.skip (noCw r)
      |>.skip (mRes r))
  | .fence =>
    if r.fn = 0 then some ((Chk.ok (Instr.fence h)) |>.skip (mZ r) |>.ap (pick 98 fenceOf (r.x 2)) |>.ap (scopeF r) |>.skip (dZ r)
      |>.skip (aZ r) |>.skip (bZ r) |>.skip (cMZ r) |>.skip (zF 64 (r.x 0)) |>.skip (nregZ r)
      |>.skip (zF 100 (r.x 3)) |>.skip (mRes r)) else none
  | .bari =>
    if r.fn = 0 then some ((Chk.ok (Instr.bari h)) |>.ap (m01 r) |>.ap (ord2 2 r) |>.ap (scopeF r) |>.ap (baseF cx r) |>.ap (offM r)
      |>.ap (srcF 28 cx.lim 1 1 r.d) |>.skip (bZ r) |>.skip (cMZ r) |>.skip (nregZ r) |>.skip (noCw r)
      |>.skip (mRes r)) else none
  | .barv =>
    if r.fn = 0 then some ((Chk.ok (Instr.barv h)) |>.ap (pick 61 barmOf r.mod) |>.ap (scopeF r) |>.ap (dV cx 1 r) |>.ap (baseF cx r)
      |>.ap (offM r) |>.skip (bZ r) |>.skip (cMZ r) |>.skip (nregZ r) |>.skip (noCw r) |>.skip (ordIn [0] r)
      |>.skip (mRes r)) else none
  | .bwait =>
    if r.fn = 0 then some ((Chk.ok (Instr.bwait h)) |>.skip (mZ r) |>.ap (scopeF r) |>.ap (baseF cx r) |>.ap (offM r) |>.ap (bS cx 1 r)
      |>.skip (dZ r) |>.skip (cMZ r) |>.skip (nregZ r) |>.skip (noCw r) |>.skip (ordIn [0] r) |>.skip (mRes r)) else none
  | .btest =>
    if r.fn = 0 then some ((Chk.ok (Instr.btest h)) |>.skip (mZ r) |>.ap (scopeF r) |>.ap (pF 28 r.d) |>.ap (baseF cx r) |>.ap (offM r)
      |>.ap (bS cx 1 r) |>.skip (cMZ r) |>.skip (nregZ r) |>.skip (noCw r) |>.skip (ordIn [0] r) |>.skip (mRes r)) else none
  | .tpack =>
    if r.fn = 0 then some ((Chk.ok (Instr.tpack h)) |>.skip (mZ r) |>.ap (dV cx 1 r) |>.ap (aS cx 1 r) |>.ap (bS cx 1 r)) else none
  | .tunpk =>
    if r.fn = 0 then some ((Chk.ok (Instr.tunpk h)) |>.skip (mZ r) |>.ap (dV cx 2 r) |>.ap (aS cx 1 r) |>.skip (bZ r)) else none
  | .wload =>
    if r.fn = 0 then some ((Chk.ok (Instr.wload h)) |>.skip (mZ r) |>.ap (baseF cx r) |>.ap (Chk.ok (finOf 256 (by decide) (r.x 7 % 256)))
      |>.ap (pick 104 qmOf (r.x 7 / 256 % 16)) |>.ap (Chk.ok (finOf 4096 (by decide) (r.x 7 / 4096 % 4096)))
      |>.ap (asyncF cx r) |>.skip (zF 120 (r.x 7 / 16777216)) |>.skip (dZ r) |>.skip (bZ r) |>.skip (xRes r)) else none
  | .afeed =>
    match feedOf r.fn with
    | none => none
    | some t =>
      some ((Chk.ok (Instr.afeed h t)) |>.skip (mZ r) |>.ap (baseF cx r) |>.ap (under 74 64 (by decide) (r.x 1))
      |>.ap (Chk.ok (BitVec.ofNat 8 (r.x 3))) |>.ap (strideF (feedRowLen t) r) |>.skip (dZ r) |>.skip (bZ r)
      |>.skip (yZ [0, 2, 4, 5] r))
  | .adrain =>
    match drainOf r.fn with
    | none => none
    | some t =>
      some ((Chk.ok (Instr.adrain h t)) |>.skip (mZ r) |>.ap (baseF cx r) |>.ap (Chk.ok (finOf 1024 (by decide) (r.x 0)))
      |>.ap (Chk.ok (finOf 1024 (by decide) (r.x 1))) |>.ap (strideF (drainRowLen t) r) |>.skip (dZ r)
      |>.skip (bZ r) |>.skip (yZ [2, 3, 4, 5] r))
  | .mlatch =>
    if r.fn = 0 then some ((Chk.ok (Instr.mlatch h)) |>.skip (mZ r) |>.ap (qmF cx r) |>.ap (Chk.ok (finOf 256 (by decide) (r.x 6 % 256)))
      |>.ap (Chk.ok (finOf 8 (by decide) (r.x 6 / 256 % 8))) |>.skip (zF 123 (r.x 6 / 2048)) |>.skip (dZ r)
      |>.skip (aZ r) |>.skip (bZ r) |>.skip (yZ [0, 1, 3, 4, 5] r)) else none
  | .mmul =>
    if r.fn = 0 then some ((Chk.ok (Instr.mmul h)) |>.skip (mZ r) |>.ap (acmF r) |>.ap (qmF cx r)
      |>.ap (Chk.ok (finOf 1024 (by decide) (r.x 0))) |>.ap (under 74 64 (by decide) (r.x 1))
      |>.ap (Chk.ok (BitVec.ofNat 8 (r.x 3))) |>.skip (dZ r) |>.skip (aZ r) |>.skip (bZ r) |>.skip (yZ [5, 6] r)) else none
  | .mmulb =>
    if r.fn = 0 then some ((Chk.ok (Instr.mmulb h)) |>.skip (mZ r) |>.ap (acmF r) |>.ap (qmF cx r)
      |>.ap (Chk.ok (finOf 1024 (by decide) (r.x 0))) |>.ap (under 74 64 (by decide) (r.x 1))
      |>.ap (Chk.ok (BitVec.ofNat 8 (r.x 3))) |>.skip (dZ r) |>.skip (aZ r) |>.skip (bZ r) |>.skip (yZ [5, 6] r)) else none
  | .mzero =>
    if r.fn = 0 then some ((Chk.ok (Instr.mzero h)) |>.skip (mZ r) |>.ap (qmF cx r) |>.ap (Chk.ok (finOf 1024 (by decide) (r.x 0)))
      |>.ap (Chk.ok (finOf 1024 (by decide) (r.x 1))) |>.skip (dZ r) |>.skip (aZ r) |>.skip (bZ r)
      |>.skip (yZ [3, 4, 5, 6] r)) else none
  | .bfence =>
    if r.fn = 0 then some ((Chk.ok (Instr.bfence h)) |>.skip (mZ r) |>.ap (sF 28 1 r.d) |>.skip (aZ r) |>.skip (bZ r)) else none
  | .bwaita =>
    if r.fn = 0 then some ((Chk.ok (Instr.bwaita h)) |>.skip (mZ r) |>.ap (sF 37 1 r.a) |>.skip (dZ r) |>.skip (bZ r)) else none
  | .tcopy =>
    if r.fn = 0 then some ((Chk.ok (Instr.tcopy h)) |>.skip (mZ r) |>.ap (baseF cx r) |>.ap (srcF 46 cx.lim 4 2 r.b) |>.ap (asyncF cx r)
      |>.skip (zF 96 (r.x 7)) |>.skip (dZ r) |>.skip (xRes r)) else none
  | .gath =>
    if r.fn = 0 then some ((Chk.ok (Instr.gath h)) |>.skip (mZ r) |>.ap (srcF 28 cx.lim 2 1 r.d) |>.ap (baseF cx r)
      |>.ap (srcF 46 cx.lim 2 1 r.b) |>.ap (under 96 13 (by decide) (r.x 7 % 16))
      |>.ap (Chk.ok (finOf 1024 (by decide) (r.x 7 / 16 % 1024))) |>.ap (asyncF cx r)
      |>.skip (zF 110 (r.x 7 / 16384)) |>.skip (xRes r)) else none
  | .waitc =>
    match classOf r.fn with
    | none => none
    | some n =>
      some ((Chk.ok (Instr.waitc h n)) |>.skip (mZ r) |>.ap (under 64 256 (by decide) (r.x 0)) |>.skip (dZ r) |>.skip (aZ r)
      |>.skip (bZ r))
  | .tsig =>
    if r.fn = 0 then some ((Chk.ok (Instr.tsig h)) |>.skip (mZ r) |>.ap (if r.x 4 = 0 ∧ r.x 1 ≠ 0 then .bad 73 else .ok (finOf 4096 (by decide) (r.x 1))) |>.ap (lpF r)
      |>.skip (isF 90 1 (r.x 4)) |>.skip (zF 91 (r.x 5)) |>.skip (zF 64 (r.x 0)) |>.skip (zF 96 (r.x 7))
      |>.skip (dZ r) |>.skip (aZ r) |>.skip (bZ r) |>.skip (xRes r)) else none
  | .coll =>
    if r.fn = 0 then some ((Chk.ok (Instr.coll h)) |>.skip (mZ r) |>.ap (baseF cx r) |>.ap (taskF r) |>.ap (lpF r) |>.skip (zF 91 (r.x 5))
      |>.skip (zF 64 (r.x 0)) |>.skip (zF 96 (r.x 7)) |>.skip (dZ r) |>.skip (bZ r) |>.skip (xRes r)) else none
  | .trap =>
    if r.fn = 0 then some ((Chk.ok (Instr.trap h)) |>.skip (mZ r) |>.ap (immF r) |>.skip (dZ r) |>.skip (aZ r) |>.skip (bZ r)) else none
  | .rett =>
    if r.fn = 0 then some ((Chk.ok (Instr.rett h)) |>.skip (mZ r) |>.skip (dZ r) |>.skip (aZ r) |>.skip (bZ r) |>.skip (zF 14 r.gp)
      |>.skip (zF 17 r.gn)) else none
  | .mfsr =>
    if r.fn = 0 then some ((Chk.ok (Instr.mfsr h)) |>.skip (mZ r) |>.ap (sF 28 1 r.d) |>.ap (sF 37 1 r.a)
      |>.ap (Chk.ok (BitVec.ofNat 16 (r.x 0))) |>.skip (zF 80 (r.x 0 / 65536)) |>.skip (bZ r)) else none
  | .mtsr =>
    if r.fn = 0 then some ((Chk.ok (Instr.mtsr h)) |>.skip (mZ r) |>.ap (sF 37 1 r.a) |>.ap (Chk.ok (BitVec.ofNat 16 (r.x 0)))
      |>.skip (zF 80 (r.x 0 / 65536)) |>.ap (sF 28 1 r.d) |>.skip (bZ r)) else none
  | .dbrk =>
    if r.fn = 0 then some ((Chk.ok (Instr.dbrk h)) |>.skip (mZ r) |>.ap (immF r) |>.skip (dZ r) |>.skip (aZ r) |>.skip (bZ r)) else none
  | .ckpt =>
    if r.fn = 0 then some ((Chk.ok (Instr.ckpt h)) |>.skip (mZ r) |>.ap (sF 37 1 r.a) |>.skip (dZ r) |>.skip (bZ r)) else none
  | .evtx =>
    if r.fn = 0 then some ((Chk.ok (Instr.evtx h)) |>.skip (mZ r) |>.ap (aS cx 1 r) |>.ap (bS cx 1 r) |>.skip (dZ r)) else none

/-- The header fields that the scheduler reads. -/
def hdrOf (r : Raw) : Hdr :=
  { stall := finOf 16 (by decide) r.stall, gp := finOf 8 (by decide) r.gp, gn := r.gn == 1, sbs := finOf 8 (by decide) r.sbs,
    sbw := BitVec.ofNat 7 r.sbw }

/-- Decode the bits of one instruction (LEN is not 0b11): an ILLEGAL_OP is reported before an ILLEGAL_FIELD (R67). -/
def decodeCore (cx : DecCtx) (w : Nat) : Except DecErr Instr :=
  match opcOf (w / 4 % 256) with
  | none => .error (.op 2)
  | some o =>
    match o.format (w % 4) with
    | none => .error (.op 0)
    | some f =>
      if opcAllowed cx o then
        let r := rawOfWord f w
        match parse cx f r (hdrOf r) o with
        | none => .error (.op 55)
        | some (.ok i) => .ok i
        | some (.bad p) => .error (.field p)
      else .error (.op 2)

/-- Why a filter word is refused: the VERR code of Table 14.12. -/
abbrev FErr := Nat

/-- EALU and ECMP's B operand: imm9 with EB zero, or a register with imm9 zero (Table 14.11). -/
def esrcOf (eb m i : Nat) : Except FErr ESrc :=
  if m = 1 then (if eb = 0 then .ok (.imm (BitVec.ofNat 9 i)) else .error 2)
  else if i = 0 then .ok (.reg (finOf 16 (by decide) eb)) else .error 2

/-- Decode a filter word (Tables 14.10 and 14.11); the error is the code that verification writes (R273). DEDUCED: fields marked
0 are examined before sub-field values (log 13). -/
def decodeFilter (w : Nat) : Except FErr Instr :=
  let ed := w / 4194304 % 16
  let ea := w / 262144 % 16
  let eb := w / 16384 % 16
  let im := w % 16384
  let d : Fin 16 := finOf 16 (by decide) ed
  let a : Fin 16 := finOf 16 (by decide) ea
  let b : Fin 16 := finOf 16 (by decide) eb
  match w / 67108864 with
  | 1 =>
    if ea = 0 ∧ eb = 0 ∧ im / 16 = 0 then (match evOf (im % 16) with | some f => .ok (.evld d f) | none => .error 3) else .error 2
  | 2 => if eb = 0 ∧ im = 0 then .ok (.emov d a) else .error 2
  | 3 =>
    if eb = 0 then
      (if ea < 5 then
        (if ea = 4 ∧ 256 ≤ im then .error 2 else .ok (.emovi d (finOf 5 (by decide) ea) (BitVec.ofNat 14 im)))
       else .error 3)
    else .error 2
  | 4 =>
    match esrcOf eb (im / 512 % 2) (im % 512) with
    | .error e => .error e
    | .ok x => (match ealuOf (im / 1024) with | some op => .ok (.ealu op d a x) | none => .error 3)
  | 5 =>
    match esrcOf eb (im / 512 % 2) (im % 512) with
    | .error e => .error e
    | .ok x => (match ecmpOf (im / 1024) with | some op => .ok (.ecmp op d a x) | none => .error 3)
  | 6 =>
    if ed = 0 ∧ eb = 0 ∧ im / 256 = 0 then
      (if im / 128 = 1 then
        (if ea ≠ 0 then .error 2 else if im % 64 = 0 then .error 3 else .ok (.ebf (.always (im / 64 % 2 == 1)) (finOf 64 (by decide) im)))
       else if im % 64 = 0 then .error 3
       else if im / 64 % 2 = 1 then .ok (.ebf (.z a) (finOf 64 (by decide) im))
       else .ok (.ebf (.nz a) (finOf 64 (by decide) im)))
    else .error 2
  | 7 => if eb = 0 ∧ im / 16 = 0 then .ok (.ehash d a (finOf 16 (by decide) im)) else .error 2
  | 8 => if ed = 0 then .ok (.hinc a b (BitVec.ofNat 14 im)) else .error 2
  | 9 => if ed = 0 then .ok (.hmax a b (BitVec.ofNat 14 im)) else .error 2
  | 10 =>
    if ed = 0 then
      (if 1 ≤ im / 1024 ∧ im / 1024 ≤ 13 then .ok (.cmsu a b (finOf 16 (by decide) (im / 1024)) (BitVec.ofNat 10 im)) else .error 3)
    else .error 2
  | 11 =>
    if eb = 0 then
      (if 1 ≤ im / 1024 ∧ im / 1024 ≤ 13 then .ok (.cmsq d a (finOf 16 (by decide) (im / 1024)) (BitVec.ofNat 10 im)) else .error 3)
    else .error 2
  | 12 => .ok (.wsum d a b (BitVec.ofNat 14 im))
  | 13 => if ed = 0 ∧ ea = 0 ∧ eb = 0 ∧ im / 8 = 0 then .ok (.trig (finOf 8 (by decide) im)) else .error 2
  | 14 =>
    if ed = 0 ∧ eb = 0 ∧ im / 16 = 0 then
      (if ea < 14 then .ok (.emit (finOf 14 (by decide) ea) (finOf 16 (by decide) im)) else .error 3)
    else .error 2
  | 15 => if ed = 0 ∧ ea = 0 ∧ eb = 0 ∧ im = 0 then .ok .eend else .error 2
  | _ => .error 1

/-- The decoder on an instruction's bits: filter words have 32 bits, and the Mladys set has 64 or more. -/
def decodeTableWord (nbits w : Nat) : Option Instr :=
  if nbits = 32 then (match decodeFilter w with | .ok i => some i | .error _ => none)
  else if w % 4 = 3 then none
  else match decodeCore DecCtx.any w with
    | .ok i => some i
    | .error _ => none

/-! ## The encoder -/

def vC (r : VReg) : Nat := r.val
def sC (r : SReg) : Nat := 0x140 + r.val
def pC (r : PReg) : Nat := 0x180 + r.val
def qC (r : QReg) : Nat := 0x190 + r.val
/-- The register code of a source (Table 3.2). -/
def srcC : Src → Nat
  | .v r => vC r
  | .s r => sC r
def pqC : PQ → Nat
  | .p r => pC r
  | .q r => qC r
def gC : GReg → Nat
  | .s r => sC r
  | .ctl .status => 0x1A0
  | .ctl .fpctl => 0x1A1
  | .ctl .flags => 0x1A2
  | .ctl .check => 0x1A3
def flag (b : Bool) : Nat := if b then 1 else 0

/-- The fields of an instruction of format f. -/
def mk (h : Hdr) (d a b fn mod : Nat) (ext : List Nat) : Raw :=
  { stall := h.stall.val, gp := h.gp.val, gn := flag h.gn, sbs := h.sbs.val, sbw := h.sbw.toNat, d := d, a := a, b := b, fn := fn,
    mod := mod, ext := ext }

/-- Bits of an instruction from its fields. -/
def wordOf (o : Opc) (f : Format) (r : Raw) : Nat :=
  joinFields (baseWidths ++ f.widths)
    ([f.len, o.code, r.stall, r.gp, r.gn, r.sbs, r.sbw, r.d, r.a, r.b, r.fn, r.mod] ++ r.ext)

/-- V3, or I96 when B is an immediate. -/
def encI (o : Opc) (h : Hdr) (d a fn mod : Nat) : SrcI → Opc × Format × Raw
  | .reg b => (o, .v3, mk h d a (srcC b) fn mod [])
  | .imm i => (o, .i96, mk h d a 0 fn mod [i.toNat])
def encSm (o : Opc) (h : Hdr) (d a fn mod : Nat) : SImm → Opc × Format × Raw
  | .s b => (o, .v3, mk h d a (sC b) fn mod [])
  | .imm i => (o, .i96, mk h d a 0 fn mod [i.toNat])
/-- M128 fields (Table 3.5). -/
def encM (o : Opc) (h : Hdr) (d a b fn mod off scope ord cw c nreg : Nat) : Opc × Format × Raw :=
  (o, .m128, mk h d a b fn mod [off, scope, ord, cw, 0, c, 0, nreg, 0])
/-- M128 with a memory operand. -/
def encMA (o : Opc) (h : Hdr) (d : Nat) (m : MAddr) (b fn mod scope ord c nreg : Nat) : Opc × Format × Raw :=
  match m with
  | .reg x off => encM o h d (srcC x) b fn mod off.toNat scope ord 0 c nreg
  | .const off => encM o h d 0 b fn mod off.toNat scope ord 1 c nreg
/-- X128 fields (Table 3.6). -/
def encX (o : Opc) (h : Hdr) (d a b mod c : Nat) (task : Option (Fin 4096)) (lp : PReg) (bren imm : Nat) : Opc × Format × Raw :=
  (o, .x128, mk h d a b 0 mod [c, (match task with | some t => t.val | none => 0), 0, lp.val,
    (match task with | some _ => 1 | none => 0), bren, 0, imm])
def encA (o : Opc) (h : Hdr) (d a b : Nat) (x : Async) (imm : Nat) : Opc × Format × Raw :=
  match x.bar with
  | some c => encX o h d a b 0 (srcC c) x.task x.lp 1 imm
  | none => encX o h d a b 0 0 x.task x.lp 0 imm
/-- Y128 fields (Table 3.7). -/
def encY (o : Opc) (h : Hdr) (a fn row nrow qm anc acm imm : Nat) : Opc × Format × Raw :=
  (o, .y128, mk h 0 a 0 fn 0 [row, nrow, qm, anc, acm, 0, imm])

/-- The fields of an instruction of the Mladys set; none for a filter instruction and an event. -/
def fields : Instr → Option (Opc × Format × Raw)
  | .iadd h t s d a b => some (encI .iadd h (vC d) (srcC a) (ityCode t) (flag s) b)
  | .isub h t s d a b => some (encI .isub h (vC d) (srcC a) (ityCode t) (flag s) b)
  | .imul h t s d a b => some (encI .imul h (vC d) (srcC a) (ityCode t) (flag s) b)
  | .imulh h t d a b => some (encI .imulh h (vC d) (srcC a) (ityCode t) 0 b)
  | .imin h t d a b => some (encI .imin h (vC d) (srcC a) (ityCode t) 0 b)
  | .imax h t d a b => some (encI .imax h (vC d) (srcC a) (ityCode t) 0 b)
  | .imad h t s d a b c => some (.imad, .q96, mk h (vC d) (srcC a) (srcC b) (ityCode t) (flag s) [srcC c, 0])
  | .iabs h t s d a => some (.iabs, .v3, mk h (vC d) (srcC a) 0 (ityCode t) (flag s) [])
  | .lop h f t d a b =>
    if f = .not then some (.lop, .v3, mk h (vC d) (srcC a) 0 (btyCode t) 6 [])
    else some (encI .lop h (vC d) (srcC a) (btyCode t) (logicCode f) b)
  | .shf h f t d a b => some (encI .shf h (vC d) (srcC a) (wtyCode t) (shfCode f) b)
  | .bfx h t d a b c => some (.bfx, .q96, mk h (vC d) (srcC a) (srcC b) (ityCode t) 0 [srcC c, 0])
  | .bfi h t d a b c => some (.bfi, .q96, mk h (vC d) (srcC a) (srcC b) (btyCode t) 0 [srcC c, 0])
  | .bitc h f t d a b => some (encI .bitc h (vC d) (srcC a) (btyCode t) (bitcCode f) b)
  | .sel h t d a b c => some (.sel, .q96, mk h (vC d) (srcC a) (srcC b) (btyCode t) 0 [pC c, 0])
  | .icmp h t c d a b => some (encI .icmp h (pC d) (srcC a) (ityCode t) (cmpCode c) b)
  | .fadd h m d a b => some (encI .fadd h (vC d) (srcC a) 12 (rmCode m) b)
  | .fmul h m d a b => some (encI .fmul h (vC d) (srcC a) 12 (rmCode m) b)
  | .ffma h m d a b c => some (.ffma, .q96, mk h (vC d) (srcC a) (srcC b) 12 (rmCode m) [srcC c, 0])
  | .fmnx h m d a b => some (encI .fmnx h (vC d) (srcC a) 12 (flag m) b)
  | .fcmp h c d a b => some (encI .fcmp h (pC d) (srcC a) 12 (fcmpCode c) b)
  | .fcls h d a => some (.fcls, .v3, mk h (vC d) (srcC a) 0 12 0 [])
  | .fspc h f m d a => some (.fspc, .v3, mk h (vC d) (srcC a) 0 (spcCode f) (rmCode m) [])
  | .hadd2 h bf m d a b => some (encI .hadd2 h (vC d) (srcC a) (13 + flag bf) (rmCode m) b)
  | .hmul2 h bf m d a b => some (encI .hmul2 h (vC d) (srcC a) (13 + flag bf) (rmCode m) b)
  | .hfma2 h bf m d a b c => some (.hfma2, .q96, mk h (vC d) (srcC a) (srcC b) (13 + flag bf) (rmCode m) [srcC c, 0])
  | .fdp4 h e5 m d a b c => some (.fdp4, .q96, mk h (vC d) (srcC a) (srcC b) (16 + flag e5) (rmCode m) [srcC c, 0])
  | .cvtf h x y m s d a => some (.cvtf, .v3, mk h (vC d) (srcC a) 0 (8 * fmtxCode x + fmtxCode y) (rmCode m + 4 * flag s) [])
  | .cvti h ti f i m d a =>
    some (.cvti, .v3, mk h (vC d) (srcC a) 0 (32 * flag ti + 8 * cvtiFmtCode f + ityCode i) (rmCode m) [])
  | .cvtq h q8 k d a b => some (.cvtq, .v3, mk h (vC d) (srcC a) (srcC b) (20 + flag q8) k.val [])
  | .mov h t d a => some (.mov, .v3, mk h (vC d) (srcC a) 0 (btyCode t) 0 [])
  | .movi h t d (.imm32 i) => some (.movi, .i96, mk h (vC d) 0 0 (btyCode t) 0 [i.toNat])
  | .movi h t d (.imm64 i) => some (.movi, .i128, mk h (vC d) 0 0 (btyCode t) 0 [i.toNat])
  | .movs h m d => some (.movs, .v3, mk h (vC d) 0 0 (movsCode m) 0 [])
  | .movg h t d a => some (.movg, .v3, mk h (sC d) (srcC a) 0 (btyCode t) 0 [])
  | .plog h f (.p d a b) => some (.plog, .v3, mk h (pC d) (pC a) (if f = .not then 0 else pC b) 0 (logicCode f) [])
  | .plog h f (.q d a b) => some (.plog, .v3, mk h (qC d) (qC a) (if f = .not then 0 else qC b) 1 (logicCode f) [])
  | .pset h (.p d a) => some (.pset, .v3, mk h (pC d) (srcC a) 0 0 0 [])
  | .pset h (.q d a) => some (.pset, .v3, mk h (qC d) (sC a) 0 1 0 [])
  | .salu h f d a (.s b) => some (.salu, .v3, mk h (sC d) (sC a) (sC b) (saluCode f) 0 [])
  | .salu h f d a (.imm32 i) => some (.salu, .i96, mk h (sC d) (sC a) 0 (saluCode f) 0 [i.toNat])
  | .salu h f d a (.imm64 i) => some (.salu, .i128, mk h (sC d) (sC a) 0 (saluCode f) 0 [i.toNat])
  | .smov h d (.reg a) => some (.smov, .v3, mk h (gC d) (gC a) 0 9 0 [])
  | .smov h d (.imm32 i) => some (.smov, .i96, mk h (gC d) 0 0 9 0 [i.toNat])
  | .smov h d (.imm64 i) => some (.smov, .i128, mk h (gC d) 0 0 9 0 [i.toNat])
  | .scmp h s c d a b => some (encSm .scmp h (qC d) (sC a) (if s then 3 else 7) (cmpCode c) b)
  | .ssel h d a b c => some (.ssel, .q96, mk h (sC d) (sC a) (sC b) 9 0 [qC c, 0])
  | .sld h t n sc d m => some (encMA .sld h (sC d) m 0 (btyCode t) 0 (scopeCode sc) 0 0 (nregCode n))
  | .bra h o => some (.bra, .i96, mk h 0 0 0 0 0 [o.toNat])
  | .jmp h a => some (.jmp, .v3, mk h 0 (sC a) 0 0 0 [])
  | .call h d o => some (.call, .i96, mk h (sC d) 0 0 0 0 [o.toNat])
  | .ret h a => some (.ret, .v3, mk h 0 (sC a) 0 0 0 [])
  | .exit h => some (.exit, .v3, mk h 0 0 0 0 0 [])
  | .nop h => some (.nop, .v3, mk h 0 0 0 0 0 [])
  | .yield h => some (.yield, .v3, mk h 0 0 0 0 0 [])
  | .ld h t n q sc d m => some (encMA .ld h (vC d) m 0 (mtyCode t) 0 (scopeCode sc) (flag q) 0 (nregCode n))
  | .st h t n q sc m x => some (encMA .st h (srcC x) m 0 (mtyCode t) 0 (scopeCode sc) (2 * flag q) 0 (nregCode n))
  | .brd h o a => some (.brd, .i96, mk h 0 (sC a) 0 0 0 [o.toNat])
  | .knot h o => some (.knot, .i96, mk h 0 0 0 0 0 [o.toNat])
  | .join h => some (.join, .v3, mk h 0 0 0 0 0 [])
  | .vote h (.all d a) => some (.vote, .v3, mk h (pqC d) (pC a) 0 0 0 [])
  | .vote h (.any d a) => some (.vote, .v3, mk h (pqC d) (pC a) 0 1 0 [])
  | .vote h (.ballot d a) => some (.vote, .v3, mk h (srcC d) (pC a) 0 2 0 [])
  | .vote h (.uni d a) => some (.vote, .v3, mk h (pqC d) (srcC a) 0 3 0 [])
  | .elect h d => some (.elect, .v3, mk h (pC d) 0 0 0 0 [])
  | .matchl h t d a => some (.matchl, .v3, mk h (vC d) (vC a) 0 (btyCode t) 0 [])
  | .ownq h f d => some (.ownq, .v3, mk h (vC d) 0 0 (ownCode f) 0 [])
  | .fragq h c d => some (.fragq, .v3, mk h (vC d) 0 0 (flag c) 0 [])
  | .shfl h f w d a b => some (encI .shfl h (vC d) (vC a) (shflCode f) w.val b)
  | .bcst h t d a b => some (encSm .bcst h (vC d) (vC a) (btyCode t) 0 b)
  | .rdln h t d a b => some (encSm .rdln h (sC d) (vC a) (btyCode t) 0 b)
  | .lred h o t d a => some (.lred, .v3, mk h (vC d) (vC a) 0 (rtyCode t) (redCode o) [])
  | .prfx h o t d a => some (.prfx, .v3, mk h (vC d) (vC a) 0 (rtyCode t) (redCode o) [])
  | .backoff h a => some (.backoff, .v3, mk h 0 (sC a) 0 0 0 [])
  | .launchNow h d a lp => some (encX .launch h (vC d) (srcC a) 0 0 0 none lp 0 0)
  | .launchArm h d a b n lp => some (encX .launch h (vC d) (srcC a) (srcC b) 1 0 none lp 0 n.toNat)
  | .ldaq h t n q sc d m => some (encMA .ldaq h (vC d) m 0 (mtyCode t) 0 (scopeCode sc) (flag q) 0 (nregCode n))
  | .strl h t n q sc m x => some (encMA .strl h (srcC x) m 0 (mtyCode t) 0 (scopeCode sc) (2 * flag q) 0 (nregCode n))
  | .tmov h n m x => some (encMA .tmov h 0 m 0 0 0 0 0 (srcC x) (nregCode n))
  | .sptst h w d b o => some (encM .sptst h (pC d) (srcC b) 0 (winCode w) 0 o.toNat 0 0 0 0 0)
  | .spcst h w t d b o => some (encM .spcst h (vC d) (srcC b) 0 (winCode w) (flag t) o.toNat 0 0 0 0 0)
  | .atom h t p q sc d b o x =>
    some (encM .atom h (vC d) (srcC b) (srcC x) (wtyCode t) (atomOpCode p) o.toNat (scopeCode sc) (ordCode q) 0 0 0)
  | .ared h t p q sc b o x =>
    some (encM .ared h (srcC x) (srcC b) 0 (wtyCode t) (atomOpCode p) o.toNat (scopeCode sc) (2 * flag q) 0 0 0)
  | .acas h t q sc d b o x y =>
    some (encM .acas h (vC d) (srcC b) (srcC x) (btyCode t) 0 o.toNat (scopeCode sc) (ordCode q) 0 (srcC y) 0)
  | .atomf h t p q sc d b o x =>
    some (encM .atomf h (vC d) (srcC b) (srcC x) (afmtCode t) (atomfCode p) o.toNat (scopeCode sc) (ordCode q) 0 0 0)
  | .fence h q sc => some (encM .fence h 0 0 0 0 0 0 (scopeCode sc) (fenceCode q) 0 0 0)
  | .bari h m q sc b o x => some (encM .bari h (srcC x) (srcC b) 0 0 (flag m) o.toNat (scopeCode sc) (2 * flag q) 0 0 0)
  | .barv h m sc d b o => some (encM .barv h (vC d) (srcC b) 0 0 (barmCode m) o.toNat (scopeCode sc) 0 0 0 0)
  | .bwait h sc b o x => some (encM .bwait h 0 (srcC b) (srcC x) 0 0 o.toNat (scopeCode sc) 0 0 0 0)
  | .btest h sc d b o x => some (encM .btest h (pC d) (srcC b) (srcC x) 0 0 o.toNat (scopeCode sc) 0 0 0 0)
  | .tpack h d a b => some (.tpack, .v3, mk h (vC d) (srcC a) (srcC b) 0 0 [])
  | .tunpk h d a => some (.tunpk, .v3, mk h (vC d) (srcC a) 0 0 0 [])
  | .wload h a s q l x => some (encA .wload h 0 (srcC a) 0 x (s.val + 256 * qmCode q + 4096 * l.val))
  | .afeed h f a n c s => some (encY .afeed h (srcC a) (feedCode f) 0 n.val 0 c.toNat 0 s.toNat)
  | .adrain h f a w n s => some (encY .adrain h (srcC a) (drainCode f) w.val n.val 0 0 0 s.toNat)
  | .mlatch h q s k => some (encY .mlatch h 0 0 0 0 (qmCode q) 0 0 (s.val + 256 * k.val))
  | .mmul h o q w n c => some (encY .mmul h 0 0 w.val n.val (qmCode q) c.toNat (flag o) 0)
  | .mmulb h o q w n c => some (encY .mmulb h 0 0 w.val n.val (qmCode q) c.toNat (flag o) 0)
  | .mzero h q w n => some (encY .mzero h 0 0 w.val n.val (qmCode q) 0 0 0)
  | .bfence h d => some (.bfence, .v3, mk h (sC d) 0 0 0 0 [])
  | .bwaita h a => some (.bwaita, .v3, mk h 0 (sC a) 0 0 0 [])
  | .waitc h c n => some (.waitc, .i96, mk h 0 0 0 (classCode c) 0 [n.val])
  | .tsig h t lp => some (encX .tsig h 0 0 0 0 0 (some t) lp 0 0)
  | .tcopy h a c x => some (encA .tcopy h 0 (srcC a) (srcC c) x 0)
  | .gath h d a b z n x => some (encA .gath h (srcC d) (srcC a) (srcC b) x (z.val + 16 * n.val))
  | .coll h a t lp => some (encX .coll h 0 (srcC a) 0 0 0 t lp 0 0)
  | .trap h c => some (.trap, .i96, mk h 0 0 0 0 0 [c.toNat])
  | .dbrk h c => some (.dbrk, .i96, mk h 0 0 0 0 0 [c.toNat])
  | .rett h => some (.rett, .v3, mk h 0 0 0 0 0 [])
  | .mfsr h d a i => some (.mfsr, .i96, mk h (sC d) (sC a) 0 0 0 [i.toNat])
  | .mtsr h a i v => some (.mtsr, .i96, mk h (sC v) (sC a) 0 0 0 [i.toNat])
  | .ckpt h a => some (.ckpt, .v3, mk h 0 (sC a) 0 0 0 [])
  | .evtx h a b => some (.evtx, .v3, mk h 0 (srcC a) (srcC b) 0 0 [])
  | .evld .. | .emov .. | .emovi .. | .ealu .. | .ecmp .. | .ebf .. | .ehash .. | .hinc .. | .hmax .. | .cmsu .. | .cmsq ..
  | .wsum .. | .trig .. | .emit .. | .eend .. | .resultWriteback .. | .storeSourceRead .. | .writePerform ..
  | .rmwPerform .. | .releasePerform .. | .translationFill .. | .pathSlotHoldLimit .. | .pathSlotIssueLimit ..
  | .marketVisit .. | .admission .. | .waveStart .. | .workgroupEnd .. | .groupEnd .. | .launchComplete .. | .copyStart ..
  | .copyComplete .. | .feedRowAppend .. | .drainRow .. | .drainComplete .. | .batchComplete .. | .batchChargeLimit ..
  | .contextStop .. | .barvReturn .. | .bwaitComplete .. | .btestReturn .. | .bwaitaComplete .. | .waitcComplete ..
  | .rettComplete .. | .faultRecordDelivery .. | .statusEntryWrite .. | .fltresResume .. | .fltresKill .. | .sliceEnd ..
  | .sliceEndComplete .. | .preempt .. | .handlerStart .. | .resume .. | .restoreAdmission .. | .retire .. | .inval ..
  | .setfa .. | .keygen .. | .keydel .. | .late .. | .confset .. | .reset .. | .rotate .. | .dtlimExpiry .. | .coreFence ..
  | .flr .. | .lockInterface .. | .startInterface .. | .stopInterface .. | .getVersion .. | .getCapabilities ..
  | .negotiateAlgorithms .. | .getDigests .. | .getCertificate .. | .challenge .. | .getMeasurements .. | .keyExchange ..
  | .finish .. | .keyUpdate .. | .heartbeat .. | .endSession .. | .ideKm .. | .hostAccess .. | .hostCompletionTimeout ..
  | .go .. | .stop .. | .launchQueueEnable .. | .ringEnable .. | .clusterEntryWrite .. | .scratchRangeWrite ..
  | .fnstatWrite .. | .slotArm .. | .slotDisarm .. | .efscRead .. | .efbgRead .. | .efrpRead .. | .fdropRead .. | .claim ..
  | .release .. | .rvk .. | .revocationComplete .. | .dbcmdStop .. | .dbcmdStep .. | .dbcmdGo .. | .preciseStop ..
  | .tuctlWrite .. | .tuctlRead .. | .tbdataRead .. | .traceTrigger .. | .cbselWrite .. | .registerWrite ..
  | .eventRecord .. | .noeligRunEnd .. | .histIntervalEnd .. | .efcDispatch .. | .filterRunStart .. | .budgetWindowStart ..
  | .powerEvaluation .. | .flitReceive .. | .pathDown .. | .dataFlit .. | .markerFlit .. | .ackFlit .. | .refusalFlit ..
  | .staleFlit .. | .retransmitTimeout .. | .transportGiveUp .. | .rotationRequest .. | .keyGraceExpiry .. | .chunkReduce ..
  | .collComplete .. | .ctmoExpiry .. | .powerOn .. | .perst .. | .lifeCycleChange .. | .d3hotEntry .. | .d3cold ..
  | .d3hotExit .. | .debugStateChange .. | .firmwareImageLoad .. | .externalPortDown .. | .externalPortUp ..
  | .keyInstalled .. | .nakFlit .. => none

/-- A filter word from its fields (Table 14.10). -/
def fword (eop ed ea eb im : Nat) : Nat := im + 16384 * eb + 262144 * ea + 4194304 * ed + 67108864 * eop

def esrcEb : ESrc → Nat
  | .reg r => r.val
  | .imm _ => 0
def esrcIm : ESrc → Nat
  | .reg _ => 0
  | .imm i => 512 + i.toNat

/-- The word of a filter instruction (Table 14.11). -/
def filterWord : Instr → Option Nat
  | .evld d f => some (fword 1 d.val 0 0 (evCode f))
  | .emov d a => some (fword 2 d.val a.val 0 0)
  | .emovi d k i => some (fword 3 d.val k.val 0 i.toNat)
  | .ealu o d a b => some (fword 4 d.val a.val (esrcEb b) (1024 * ealuCode o + esrcIm b))
  | .ecmp o d a b => some (fword 5 d.val a.val (esrcEb b) (1024 * ecmpCode o + esrcIm b))
  | .ebf (.always z) o => some (fword 6 0 0 0 (128 + (if z then 64 else 0) + o.val))
  | .ebf (.nz a) o => some (fword 6 0 a.val 0 o.val)
  | .ebf (.z a) o => some (fword 6 0 a.val 0 (64 + o.val))
  | .ehash d a s => some (fword 7 d.val a.val 0 s.val)
  | .hinc a b i => some (fword 8 0 a.val b.val i.toNat)
  | .hmax a b i => some (fword 9 0 a.val b.val i.toNat)
  | .cmsu a b k i => some (fword 10 0 a.val b.val (1024 * k.val + i.toNat))
  | .cmsq d a k i => some (fword 11 d.val a.val 0 (1024 * k.val + i.toNat))
  | .wsum d a b i => some (fword 12 d.val a.val b.val i.toNat)
  | .trig l => some (fword 13 0 0 0 l.val)
  | .emit a t => some (fword 14 0 a.val 0 t.val)
  | .eend => some (fword 15 0 0 0 0)
  | .iadd .. | .isub .. | .imul .. | .imulh .. | .imin .. | .imax .. | .imad .. | .iabs .. | .lop .. | .shf .. | .bfx ..
  | .bfi .. | .bitc .. | .sel .. | .icmp .. | .fadd .. | .fmul .. | .ffma .. | .fmnx .. | .fcmp .. | .fcls .. | .fspc ..
  | .hadd2 .. | .hmul2 .. | .hfma2 .. | .fdp4 .. | .cvtf .. | .cvti .. | .cvtq .. | .mov .. | .movi .. | .movs .. | .movg ..
  | .plog .. | .pset .. | .salu .. | .smov .. | .scmp .. | .ssel .. | .sld .. | .bra .. | .jmp .. | .call .. | .ret ..
  | .exit .. | .nop .. | .yield .. | .ld .. | .st .. | .brd .. | .knot .. | .join .. | .vote .. | .elect .. | .matchl ..
  | .ownq .. | .fragq .. | .shfl .. | .bcst .. | .rdln .. | .lred .. | .prfx .. | .backoff .. | .launchNow ..
  | .launchArm .. | .ldaq .. | .strl .. | .tmov .. | .sptst .. | .spcst .. | .atom .. | .ared .. | .acas .. | .atomf ..
  | .fence .. | .bari .. | .barv .. | .bwait .. | .btest .. | .tpack .. | .tunpk .. | .wload .. | .afeed .. | .adrain ..
  | .mlatch .. | .mmul .. | .mmulb .. | .mzero .. | .bfence .. | .bwaita .. | .waitc .. | .tsig .. | .tcopy .. | .gath ..
  | .coll .. | .trap .. | .dbrk .. | .rett .. | .mfsr .. | .mtsr .. | .ckpt .. | .evtx .. | .resultWriteback ..
  | .storeSourceRead .. | .writePerform .. | .rmwPerform .. | .releasePerform .. | .translationFill ..
  | .pathSlotHoldLimit .. | .pathSlotIssueLimit .. | .marketVisit .. | .admission .. | .waveStart .. | .workgroupEnd ..
  | .groupEnd .. | .launchComplete .. | .copyStart .. | .copyComplete .. | .feedRowAppend .. | .drainRow ..
  | .drainComplete .. | .batchComplete .. | .batchChargeLimit .. | .contextStop .. | .barvReturn .. | .bwaitComplete ..
  | .btestReturn .. | .bwaitaComplete .. | .waitcComplete .. | .rettComplete .. | .faultRecordDelivery ..
  | .statusEntryWrite .. | .fltresResume .. | .fltresKill .. | .sliceEnd .. | .sliceEndComplete .. | .preempt ..
  | .handlerStart .. | .resume .. | .restoreAdmission .. | .retire .. | .inval .. | .setfa .. | .keygen .. | .keydel ..
  | .late .. | .confset .. | .reset .. | .rotate .. | .dtlimExpiry .. | .coreFence .. | .flr .. | .lockInterface ..
  | .startInterface .. | .stopInterface .. | .getVersion .. | .getCapabilities .. | .negotiateAlgorithms .. | .getDigests ..
  | .getCertificate .. | .challenge .. | .getMeasurements .. | .keyExchange .. | .finish .. | .keyUpdate .. | .heartbeat ..
  | .endSession .. | .ideKm .. | .hostAccess .. | .hostCompletionTimeout .. | .go .. | .stop .. | .launchQueueEnable ..
  | .ringEnable .. | .clusterEntryWrite .. | .scratchRangeWrite .. | .fnstatWrite .. | .slotArm .. | .slotDisarm ..
  | .efscRead .. | .efbgRead .. | .efrpRead .. | .fdropRead .. | .claim .. | .release .. | .rvk .. | .revocationComplete ..
  | .dbcmdStop .. | .dbcmdStep .. | .dbcmdGo .. | .preciseStop .. | .tuctlWrite .. | .tuctlRead .. | .tbdataRead ..
  | .traceTrigger .. | .cbselWrite .. | .registerWrite .. | .eventRecord .. | .noeligRunEnd .. | .histIntervalEnd ..
  | .efcDispatch .. | .filterRunStart .. | .budgetWindowStart .. | .powerEvaluation .. | .flitReceive .. | .pathDown ..
  | .dataFlit .. | .markerFlit .. | .ackFlit .. | .refusalFlit .. | .staleFlit .. | .retransmitTimeout ..
  | .transportGiveUp .. | .rotationRequest .. | .keyGraceExpiry .. | .chunkReduce .. | .collComplete .. | .ctmoExpiry ..
  | .powerOn .. | .perst .. | .lifeCycleChange .. | .d3hotEntry .. | .d3cold .. | .d3hotExit .. | .debugStateChange ..
  | .firmwareImageLoad .. | .externalPortDown .. | .externalPortUp .. | .keyInstalled .. | .nakFlit .. => none

/-- The bits of an instruction and their number; none for an event, which has no encoding. -/
def encode (i : Instr) : Option (Nat × Nat) :=
  match fields i with
  | some (o, f, r) => some (lenBits f.len, wordOf o f r)
  | none => (filterWord i).map (fun w => (32, w))

end Sys2Proof
end

