-- ==== Sys2Proof/Machine/Partition.lean ====
section
/-! DEFINITION. The partition map (R335), the regions of a cluster (R212, Table 11.1) and the access tables (R338): readings of the PF's
window registers. -/

namespace Sys2Proof.Machine

/-- The cluster entry (R335). -/
def State.clusterEntry (s : State) (cl : Nat) : Nat := (s.reg 0 (4194304 + 4096 + 8 * cl)).toNat
/-- FUSE of a cluster. -/
def State.fuse (s : State) (cl : Nat) : Nat := bits (s.clusterEntry cl) 63 61
/-- The function that owns quadrant k of a cluster: QNW, QNE, QSW, QSE. -/
def quadOwner (entry k : Nat) : Nat := bits entry (60 - 6 * k) (55 - 6 * k)
/-- The core mask of a core (R335). -/
def State.coreMask (s : State) (core : Nat) : Nat := (s.reg 0 (4194304 + 32768 + 8 * core)).toNat
/-- Range i of the cluster-scratch ranges of a cluster. -/
def State.clusterRange (s : State) (cl i : Nat) : Nat := (s.reg 0 (4194304 + 8192 + 8 * (4 * cl + i))).toNat
/-- Range i of the die-scratch ranges of a die. -/
def State.dieRange (s : State) (die i : Nat) : Nat := (s.reg 0 (4194304 + 24576 + 8 * (32 * die + i))).toNat
/-- The function mask of a 1 GiB region of memory (R338). -/
def State.accessMask (s : State) (region : Nat) : Nat := (s.reg 0 (4194304 + 65536 + 8 * region)).toNat

/-- Partition register i of a function (Table 20.5), held in the PF's window. -/
def State.part (s : State) (fn i : Nat) : Nat := (s.reg 0 (4194304 + 64 * fn + 8 * i)).toNat

/-- A scratch range's V, VF, BASE and LEN (R335). -/
def rangeV (x : Nat) : Bool := bit x 63
def rangeVf (x : Nat) : Nat := bits x 62 57
def rangeBase (x : Nat) : Nat := bits x 56 48
def rangeLen (x : Nat) : Nat := bits x 47 38

/-- Whether [o, o + n) lies inside a range of the function, in units of `u` bytes (R164). -/
def rangeHolds (u vf o n x : Nat) : Bool :=
  rangeV x && rangeVf x == vf && decide (rangeBase x * u ≤ o) && decide (o + n ≤ (rangeBase x + rangeLen x) * u)

/-- The cluster-scratch check of R164. -/
def State.clusterScratchOk (s : State) (cl vf o n : Nat) : Bool := (List.range 4).any fun i => rangeHolds 4096 vf o n (s.clusterRange cl i)
/-- The die-scratch check of R164. -/
def State.dieScratchOk (s : State) (die vf o n : Nat) : Bool := (List.range 32).any fun i => rangeHolds 65536 vf o n (s.dieRange die i)

/-- The configured region that holds quadrant k, as a QM mask (R212, R335). -/
def regionOf (fuse k : Nat) : Nat :=
  let north := decide (k < 2)
  let west := decide (k % 2 = 0)
  match fuse with
  | 1 => if north then 3 else 2 ^ k
  | 2 => if north then 2 ^ k else 12
  | 3 => if north then 3 else 12
  | 4 => if west then 5 else 2 ^ k
  | 5 => if west then 2 ^ k else 10
  | 6 => if west then 5 else 10
  | 7 => 15
  | _ => 2 ^ k

/-- The quadrant whose context leads a region: the lowest-numbered (R219). -/
def leaderOf (mask : Nat) : Nat := (onesOf mask 4).headD 0

/-- The region that a context leads, or none where it is disabled (R219). -/
def State.ctxRegion (s : State) (k : Nat) : Option Nat :=
  let m := regionOf (s.fuse (k / 4)) (k % 4)
  if leaderOf m = k % 4 then some m else none

/-- The context that leads the region holding a core's quadrant. -/
def State.leadCtx (s : State) (core : Nat) : Nat :=
  4 * clusterOf core + leaderOf (regionOf (s.fuse (clusterOf core)) (core % 4))

/-- Quadrants that feed a region (Table 11.1). -/
def feedersOf (mask : Nat) : List Nat :=
  match mask with
  | 3 => [0]
  | 12 => [2]
  | 5 => [0, 2]
  | 10 => [1, 3]
  | 15 => [0, 2]
  | _ => [leaderOf mask]

/-- Quadrants whose banks a region writes, west before east (Table 11.1). -/
def banksOf (mask : Nat) : List Nat :=
  match mask with
  | 3 => [0, 1]
  | 12 => [2, 3]
  | 5 => [2]
  | 10 => [3]
  | 15 => [2, 3]
  | _ => [leaderOf mask]

/-- Fill F of a region (Table 11.1). -/
def fillOf (mask : Nat) : Nat := if mask = 15 then 520 else if mask = 3 ∨ mask = 12 ∨ mask = 5 ∨ mask = 10 then 392 else 264
/-- A tall region has 256 rows, a wide one 256 columns (R212). -/
def isTall (mask : Nat) : Bool := mask == 5 || mask == 10 || mask == 15
def isWide (mask : Nat) : Bool := mask == 3 || mask == 12 || mask == 15

end Sys2Proof.Machine
end

