-- ==== Sys2Proof/Machine/Fetch.lean ====
section
/-! DEFINITION. Fetching and decoding the next instruction of a fragment, a context or a filter pipe (R13, R14, R48, R49, R67, R272). -/

namespace Sys2Proof.Machine

/-- What fetch finds: an instruction and its PC, or a decode fault with its PC, SEC and cause. -/
inductive Fetched where
  | instr (i : Instr) (pc : Nat)
  | fault (cause sec pc : Nat)
  deriving DecidableEq, Repr

/-- The number in n bytes of a text at an offset. -/
def textAt (text : List Byte) (pc n : Nat) : Nat := ofBytes ((text.drop pc).take n)

/-- The first word at or after pc that is no pad word, or the text's end; `fuel` bounds the pads (R14, R49). -/
def skipPads (text : List Byte) (len : Nat) : Nat → Nat → Nat
  | 0, pc => pc
  | fuel + 1, pc => if pc + 4 ≤ len ∧ textAt text pc 1 % 4 = 3 then skipPads text len fuel (pc + 4) else pc

/-! ## The numbers of system registers (R304, R305) -/

/-- Registers of a block (Table 17.2). -/
def sysCount : Nat → Nat
  | 0 => 3
  | 1 => 16
  | 2 => 16
  | 3 => 32
  | 4 => 32
  | 5 => 64
  | 6 => 64
  | 7 => 8
  | 8 => 8
  | _ => 0

/-- Whether a number names a register. -/
def sysAssigned (n : Nat) : Bool := decide (n < 65536) && decide (n % 256 < sysCount (n / 256))

/-- The number that an instruction names (R305). -/
def Group.sysNum (g : Group) (a : SReg) (i : Nat) : Nat := (i + (g.readS a.val).toNat % 4294967296) % 4294967296

/-- The fault of naming a register (R304, R305): the cause. -/
def Group.sysFault (g : Group) (n : Nat) (write : Bool) : Option Nat :=
  if !sysAssigned n then some cIllegalField
  else match g.handler with
    | none => if n / 256 = 0 then none else some cIllegalOp
    | some h =>
      if n / 256 = 7 && h.level < 2 then some cIllegalOp
      else if write && (n / 256 == 0 || n / 256 == 8) then some cIllegalField
      else none

/-- An instruction with an illegal field that also names a system register which R304 or R305 rejects with ILLEGAL_OP raises that (R17, R67). -/
def Group.worse (g : Group) (w : Nat) : Bool :=
  let r := rawOfWord .i96 w
  match opcOf (w / 4 % 256), sF 37 1 r.a with
  | some .mfsr, .ok a => g.sysFault (g.sysNum a (r.x 0)) false == some cIllegalOp
  | some .mtsr, .ok a => g.sysFault (g.sysNum a (r.x 0)) true == some cIllegalOp
  | _, _ => false

/-- Fetch at a PC (R14); `target` says that a transfer set it, and `worse` that a word with an illegal field has an illegal operation too. -/
def fetchText (cx : DecCtx) (worse : Nat → Bool) (text : List Byte) (pc0 : Nat) (target : Bool) : Fetched :=
  let len := text.length
  if target && decide (pc0 + 4 ≤ len) && textAt text pc0 1 % 4 == 3 then .fault cPadTarget 0 pc0
  else
    let pc := skipPads text len (len / 4) pc0
    if len < pc + 4 then .fault cIllegalOp 0xFF (max pc len)
    else
      let n := lenBits (textAt text pc 1 % 4) / 8
      if 32 < pc % 32 + n then .fault cIllegalOp 0xFF pc
      else if len < pc + n then .fault cIllegalOp 0xFF len
      else match decodeCore cx (textAt text pc n) with
        | .ok i => .instr i pc
        | .error (.op p) => .fault cIllegalOp p pc
        | .error (.field p) => if worse (textAt text pc n) then .fault cIllegalOp 0xFF pc else .fault cIllegalField p pc

/-- The text an issuer fetches from: its code object's, or the handler's while one runs (R48, R292). -/
def State.textOf (s : State) (g : Group) : List Byte :=
  match g.handler with
  | some h => (s.codesAt h.code).text
  | none => (s.codesAt g.code).text

/-- What decoding depends on, for an issuer (R9, R63, R219, R304). -/
def State.decCtx (s : State) (w : Issuer) : DecCtx :=
  match w with
  | .ctx k => { lim := 16, seq := true, th := some false, qm := some ((s.ctxRegion k).getD 0) }
  | _ => { lim := (s.grp w).regs, seq := false, th := some ((s.grp w).status.toNat / 4 % 2 == 1), qm := none }

/-- The word of filter instruction n of a slot (Table 14.9). -/
def State.filterCode (s : State) (die slot n : Nat) : Nat :=
  (s.efc die (256 * slot + 8 * (n / 2))) / 2 ^ (32 * (n % 2)) % 2 ^ 32

/-- The next instruction of an issuer. A filter that runs has passed verification, so its words, held since its start, decode (R266, R273). -/
def State.fetch (s : State) (w : Issuer) : Option Fetched :=
  match w with
  | .pipe d p =>
    match Tab.get (fun _ => none) (s.efcsAt d).pipes p with
    | none => none
    | some r => match decodeFilter (getAt 0 r.code r.pc) with
      | .ok i => some (.instr i r.pc)
      | .error _ => none
  | _ =>
    let g := s.grp w
    let f := g.frag (fragOf w)
    some (fetchText (s.decCtx w) g.worse (s.textOf g) f.pc f.target)

/-- Give an issuer its turn at a PC. Free lanes read what outstanding writes of s registers bring (R22). -/
def Prog.turnAt (w : Issuer) (pc : Nat) : Prog := Prog.on fun s =>
  match w with
  | .pipe _ _ => Prog.put (.turn w)
  | _ =>
    let g := s.grp w
    let f := g.frag (fragOf w)
    Prog.all [
      Prog.put (.turn w),
      Prog.grp w { g.setFrag (fragOf w) { f with pc := pc, target := false } with mix := s.mixOf w },
      fun _ => Prog.mixDrawn w s]

/-- A decode fault of an issuer (R17, R67): every lane of the fragment. -/
def Prog.decodeFault (w : Issuer) (cause sec pc : Nat) : Prog := Prog.on fun s =>
  let g := s.grp w
  let f := g.frag (fragOf w)
  let g' := g.setFrag (fragOf w) { f with pc := pc, target := false }
  Prog.fault w g' f.mask sec ((lanesOf f.mask).map fun l => { lane := l, cause := cause, addr := 0 }) Prog.skip

/-- Whether an issuer can issue: a live fragment of a live group, a running context, or a pipe with a run whose next
instruction is due in the EFC cycle in progress. -/
def State.canIssue (s : State) (w : Issuer) : Bool :=
  match w with
  | .grp k i => (s.groupsAt k).live && ((s.groupsAt k).frag i).fst == .live
  | .ctx k => (s.ctxsAt k).state == 1 && ((s.ctxsAt k).g.frag 0).fst == .live
  | .pipe d p => match Tab.get (fun _ => none) (s.efcsAt d).pipes p with
    | some r => decide (r.readyT ≤ s.efcNow)
    | none => false

end Sys2Proof.Machine
end

