-- ==== Sys2Proof/Machine/Integer.lean ====
section
/-! DEFINITION. The integer lane instructions (R82 to R91). -/

namespace Sys2Proof.Machine

/-- The shape of the two-operand instructions of Table 4.1. -/
def intOp (h : Hdr) (ty : ITy) (sat : Bool) (lat : Nat) (d : VReg) (a : Src) (b : SrcI) (f : Int → Int → Int) (s : State) :
    Host.Outcome State Fault Refusal :=
  let n := ityBits ty
  let sg := itySigned ty
  laneFixed h (srcILen b) s lat (fun m => vFoot d.val n m ++ srcFoot n m a ++ srcIFoot n m b) fun g l =>
    intOut d.val l n sg sat (f (readInt n sg (g.srcVal l n a)) (readInt n sg (g.srcIVal l n (ty == .n64) b)))

/-- IADD (R82). -/
def execIadd (h : Hdr) (ty : ITy) (sat : Bool) (d : VReg) (a : Src) (b : SrcI) (s : State) : Host.Outcome State Fault Refusal :=
  intOp h ty sat 4 d a b (fun x y => x + y) s

/-- ISUB (R82). -/
def execIsub (h : Hdr) (ty : ITy) (sat : Bool) (d : VReg) (a : Src) (b : SrcI) (s : State) : Host.Outcome State Fault Refusal :=
  intOp h ty sat 4 d a b (fun x y => x - y) s

/-- IMUL (R82). -/
def execImul (h : Hdr) (ty : ITy) (sat : Bool) (d : VReg) (a : Src) (b : SrcI) (s : State) : Host.Outcome State Fault Refusal :=
  intOp h ty sat 6 d a b (fun x y => x * y) s

/-- IMULH (R82): the upper half of the product. -/
def execImulh (h : Hdr) (ty : ITy) (d : VReg) (a : Src) (b : SrcI) (s : State) : Host.Outcome State Fault Refusal :=
  intOp h ty false 6 d a b (fun x y => (x * y).fdiv ((2 ^ ityBits ty : Nat) : Int)) s

/-- IMIN (R82). -/
def execImin (h : Hdr) (ty : ITy) (d : VReg) (a : Src) (b : SrcI) (s : State) : Host.Outcome State Fault Refusal :=
  intOp h ty false 4 d a b (fun x y => if x ≤ y then x else y) s

/-- IMAX (R82). -/
def execImax (h : Hdr) (ty : ITy) (d : VReg) (a : Src) (b : SrcI) (s : State) : Host.Outcome State Fault Refusal :=
  intOp h ty false 4 d a b (fun x y => if x ≤ y then y else x) s

/-- IMAD (R83). -/
def execImad (h : Hdr) (ty : ITy) (sat : Bool) (d : VReg) (a b c : Src) (s : State) : Host.Outcome State Fault Refusal :=
  let n := ityBits ty
  let sg := itySigned ty
  laneFixed h 12 s 6 (fun m => vFoot d.val n m ++ srcFoot n m a ++ srcFoot n m b ++ srcFoot n m c) fun g l =>
    intOut d.val l n sg sat
      (readInt n sg (g.srcVal l n a) * readInt n sg (g.srcVal l n b) + readInt n sg (g.srcVal l n c))

/-- IABS (R84). -/
def execIabs (h : Hdr) (ty : ITy) (sat : Bool) (d : VReg) (a : Src) (s : State) : Host.Outcome State Fault Refusal :=
  let n := ityBits ty
  laneFixed h 8 s 4 (fun m => vFoot d.val n m ++ srcFoot n m a) fun g l =>
    let x := readInt n true (g.srcVal l n a)
    intOut d.val l n (itySigned ty) sat (if x < 0 then -x else x)

/-- The logic functions on n-bit patterns (R85, R104). -/
def logicFn (fn : LogicFn) (n a b : Nat) : Nat :=
  let inv := fun x => (2 ^ n - 1) ^^^ (x % 2 ^ n)
  match fn with
  | .and => a &&& b
  | .or => a ||| b
  | .xor => a ^^^ b
  | .andn => a &&& inv b
  | .orn => a ||| inv b
  | .xnor => inv (a ^^^ b)
  | .not => inv a

/-- LOP (R85). -/
def execLop (h : Hdr) (fn : LogicFn) (ty : BTy) (d : VReg) (a : Src) (b : SrcI) (s : State) : Host.Outcome State Fault Refusal :=
  let n := btyBits ty
  laneFixed h (srcILen b) s 4 (fun m => vFoot d.val n m ++ srcFoot n m a ++ srcIFoot n m b) fun g l =>
    vOut d.val l n false (logicFn fn n (g.srcVal l n a) (g.srcIVal l n false b))

/-- The shift and rotate functions (R86). -/
def shiftFn (fn : ShfFn) (n : Nat) (arith : Bool) (a k : Nat) : Nat :=
  match fn with
  | .shl => if n ≤ k then 0 else a * 2 ^ k % 2 ^ n
  | .shr =>
    if arith then wrap n ((sext a n).fdiv ((2 ^ min k (n - 1) : Nat) : Int))
    else if n ≤ k then 0 else a / 2 ^ k
  | .rol => (a * 2 ^ (k % n)) % 2 ^ n + a / 2 ^ (n - k % n)
  | .ror => a / 2 ^ (k % n) + (a * 2 ^ (n - k % n)) % 2 ^ n

/-- SHF (R86). -/
def execShf (h : Hdr) (fn : ShfFn) (ty : WTy) (d : VReg) (a : Src) (b : SrcI) (s : State) : Host.Outcome State Fault Refusal :=
  let n := wtyBits ty
  laneFixed h (srcILen b) s 4 (fun m => vFoot d.val n m ++ srcFoot n m a ++ srcIFoot 32 m b) fun g l =>
    vOut d.val l n (wtySigned ty) (shiftFn fn n (wtySigned ty) (g.srcVal l n a) (g.srcIVal l 32 false b))

/-- The field that BFX extracts (R87). -/
def bfxFn (n : Nat) (signed : Bool) (a b c : Nat) : Nat :=
  let p := min b n
  let w := min c (n - p)
  let f := a / 2 ^ p % 2 ^ w
  if w = 0 then 0 else if signed then wrap n (sext f w) else f

/-- BFX (R87). -/
def execBfx (h : Hdr) (ty : ITy) (d : VReg) (a b c : Src) (s : State) : Host.Outcome State Fault Refusal :=
  let n := ityBits ty
  laneFixed h 12 s 4 (fun m => vFoot d.val n m ++ srcFoot n m a ++ srcFoot 32 m b ++ srcFoot 32 m c) fun g l =>
    vOut d.val l n (itySigned ty) (bfxFn n (itySigned ty) (g.srcVal l n a) (g.srcVal l 32 b) (g.srcVal l 32 c))

/-- The value that BFI forms (R88). -/
def bfiFn (n a b c : Nat) : Nat :=
  let p := min (c % 256) n
  let w := min (c / 256 % 256) (n - p)
  if w = 0 then a else setBits a (p + w - 1) p b

/-- BFI (R88). -/
def execBfi (h : Hdr) (ty : BTy) (d : VReg) (a b c : Src) (s : State) : Host.Outcome State Fault Refusal :=
  let n := btyBits ty
  laneFixed h 12 s 4 (fun m => vFoot d.val n m ++ srcFoot n m a ++ srcFoot n m b ++ srcFoot 32 m c) fun g l =>
    vOut d.val l n false (bfiFn n (g.srcVal l n a) (g.srcVal l n b) (g.srcVal l 32 c))

/-- Zero bits above the highest one bit of an n-bit pattern. -/
def clz (n x : Nat) : Nat :=
  match (onesOf x n).getLast? with
  | some i => n - 1 - i
  | none => n

/-- Zero bits below the lowest one bit. -/
def ctz (n x : Nat) : Nat := (onesOf x n).headD n

/-- The pattern with bit i moved to bit n − 1 − i. -/
def brev (n x : Nat) : Nat := (onesOf x n).foldl (fun y i => y + 2 ^ (n - 1 - i)) 0

/-- BITC (R89). -/
def execBitc (h : Hdr) (fn : BitcFn) (ty : BTy) (d : VReg) (a : Src) (b : SrcI) (s : State) : Host.Outcome State Fault Refusal :=
  let n := btyBits ty
  let m := if fn = .brev then n else 32
  laneFixed h (srcILen b) s 4 (fun k => vFoot d.val m k ++ srcFoot n k a ++ srcIFoot n k b) fun g l =>
    let x := g.srcVal l n a &&& g.srcIVal l n false b
    vOut d.val l m false (match fn with
      | .popc => popcount x n
      | .clz => clz n x
      | .ctz => ctz n x
      | .brev => brev n x)

/-- SEL (R90). -/
def execSel (h : Hdr) (ty : BTy) (d : VReg) (a b : Src) (c : PReg) (s : State) : Host.Outcome State Fault Refusal :=
  let n := btyBits ty
  laneFixed h 12 s 4 (fun m => vFoot d.val n m ++ srcFoot n m a ++ srcFoot n m b ++ pFoot c.val m) fun g l =>
    vOut d.val l n false (if g.readP c.val l then g.srcVal l n a else g.srcVal l n b)

/-- The comparisons of ICMP and SCMP (Table 3.12). -/
def cmpFn (c : Cmp) (x y : Int) : Bool :=
  match c with
  | .eq => decide (x = y)
  | .ne => decide (x ≠ y)
  | .lt => decide (x < y)
  | .le => decide (x ≤ y)
  | .gt => decide (y < x)
  | .ge => decide (y ≤ x)

/-- ICMP (R91). -/
def execIcmp (h : Hdr) (ty : ITy) (cmp : Cmp) (d : PReg) (a : Src) (b : SrcI) (s : State) : Host.Outcome State Fault Refusal :=
  let n := ityBits ty
  let sg := itySigned ty
  laneFixed h (srcILen b) s 4 (fun m => pFoot d.val m ++ srcFoot n m a ++ srcIFoot n m b) fun g l =>
    pOut d.val l (cmpFn cmp (readInt n sg (g.srcVal l n a)) (readInt n sg (g.srcIVal l n (ty == .n64) b)))

end Sys2Proof.Machine
end

