-- ==== Sys2Proof/Machine/Moves.lean ====
section
/-! DEFINITION. Moves and predicate operations (R102 to R105). -/

namespace Sys2Proof.Machine

/-- MOV (R102). -/
def execMov (h : Hdr) (ty : BTy) (d : VReg) (a : Src) (s : State) : Host.Outcome State Fault Refusal :=
  let n := btyBits ty
  laneFixed h 8 s 2 (fun m => vFoot d.val n m ++ srcFoot n m a) fun g l => vOut d.val l n false (g.srcVal l n a)

/-- The immediate of MOVI at n bits (R54, R59). -/
def movImmVal (n : Nat) : MovImm → Nat
  | .imm32 i => immVal n false i
  | .imm64 i => i.toNat
def movImmLen : MovImm → Nat
  | .imm32 _ => 12
  | .imm64 _ => 16

/-- MOVI (R102). -/
def execMovi (h : Hdr) (ty : BTy) (d : VReg) (i : MovImm) (s : State) : Host.Outcome State Fault Refusal :=
  let n := btyBits ty
  laneFixed h (movImmLen i) s 2 (fun m => vFoot d.val n m) fun _ l => vOut d.val l n false (movImmVal n i)

/-- A MOVS source for a lane (Table 4.4): the coordinates are those of the lane's own core, also while a handler runs (R295). -/
def movsVal (x : Ex) (g : Group) (l : Nat) : MovsSrc → Nat
  | .lane => l
  | .owner => g.entOf l
  | .slot => (match x.w with | .grp k _ => k % 256 | _ => 0)
  | .coord => g.ocrd
  | .wg => (g.ownerOf l).wg

/-- MOVS (R102, Table 4.4). -/
def execMovs (h : Hdr) (src : MovsSrc) (d : VReg) (s : State) : Host.Outcome State Fault Refusal :=
  issue h 8 s fun x => x.only true false
    (x.check (x.guardP :: vFoot d.val 32 x.f.mask) false
      (x.fixed 2 (x.act != 0) ((lanesOf x.act).flatMap fun l => vOut d.val l 32 false (movsVal x x.g l src))))

/-- MOVG (R102, R103): a lane instruction, marked under R80, of variable latency. -/
def execMovg (h : Hdr) (ty : BTy) (d : SReg) (a : Src) (s : State) : Host.Outcome State Fault Refusal :=
  let n := btyBits ty
  issue h 8 s fun x => x.only true false
    (x.check (x.guardP :: sFoot d.val ++ srcFoot n x.f.mask a) true
      (x.variable (x.issued (x.act != 0)) (if x.act = 0 then [] else sOut d.val (x.g.srcVal (lowest x.act) n a))))

/-- A logic function on single bits. -/
def logicBit (fn : LogicFn) (a b : Bool) : Bool := logicFn fn 1 (if a then 1 else 0) (if b then 1 else 0) == 1

/-- The class slots of a mask for which f holds, as the bits of a q register. -/
def slotsWhere (m : Nat) (f : Nat → Bool) : Nat := m &&& maskWhere f

/-- PLOG (R104): a lane instruction on p registers, group-wide on q registers. -/
def execPlog (h : Hdr) (fn : LogicFn) (x : PlogArgs) (s : State) : Host.Outcome State Fault Refusal :=
  match x with
  | .p d a b =>
    issue h 8 s fun x => x.only true true
      (x.check (x.guardP :: (pFoot d.val x.f.mask ++ pFoot a.val x.f.mask ++ pFoot b.val x.f.mask)) false
        (x.fixed 2 (x.act != 0) ((lanesOf x.act).flatMap fun l => pOut d.val l (logicBit fn (x.g.readP a.val l) (x.g.readP b.val l)))))
  | .q d a b =>
    groupFixed h 8 s true 2 (qFoot d.val ++ qFoot a.val ++ qFoot b.val) false fun x =>
      qOut d.val (slotsWhere x.actQ fun k => logicBit fn ((x.g.readQ a.val).getLsbD k) ((x.g.readQ b.val).getLsbD k)) x.actQ

/-- PSET (R105). -/
def execPset (h : Hdr) (x : PsetArgs) (s : State) : Host.Outcome State Fault Refusal :=
  match x with
  | .p d a =>
    issue h 8 s fun x => x.only true true
      (x.check (x.guardP :: (pFoot d.val x.f.mask ++ srcFoot 32 x.f.mask a)) false
        (x.fixed 2 (x.act != 0) ((lanesOf x.act).flatMap fun l => pOut d.val l (x.g.srcVal l 32 a != 0))))
  | .q d a =>
    groupFixed h 8 s true 2 (qFoot d.val ++ sFoot a.val) false fun x =>
      qOut d.val (slotsWhere x.actQ fun k => (x.g.readS a.val).getLsbD k) x.actQ

end Sys2Proof.Machine
end

