-- ==== Sys2Proof/Machine/GroupOps.lean ====
section
/-! DEFINITION. The group-wide operations on s, q and control registers (R106 to R109). -/

namespace Sys2Proof.Machine

/-- The functions of SALU (R106). -/
def saluFn (fn : SaluFn) (a b : Nat) : Nat :=
  let sa := sext a 64
  let sb := sext b 64
  match fn with
  | .add => wrap 64 ((a : Int) + b)
  | .sub => wrap 64 ((a : Int) - b)
  | .mul => wrap 64 ((a : Int) * b)
  | .and => a &&& b
  | .or => a ||| b
  | .xor => a ^^^ b
  | .shl => if 64 ≤ b then 0 else a * 2 ^ b % 2 ^ 64
  | .shr => if 64 ≤ b then 0 else a / 2 ^ b
  | .sar => wrap 64 (sa.fdiv ((2 ^ min b 63 : Nat) : Int))
  | .mini => if sa ≤ sb then a else b
  | .maxi => if sa ≤ sb then b else a
  | .minn => min a b
  | .maxn => max a b

def gsrcFoot : GSrc → List Foot
  | .s r => sFoot r.val
  | .imm32 _ => []
  | .imm64 _ => []

/-- SALU (R106). -/
def execSalu (h : Hdr) (fn : SaluFn) (d a : SReg) (b : GSrc) (s : State) : Host.Outcome State Fault Refusal :=
  groupFixed h (gsrcLen b) s true 2 (sFoot d.val ++ sFoot a.val ++ gsrcFoot b) (h.gp.val != 0) fun x =>
    sOut d.val (saluFn fn (x.g.readS a.val).toNat (x.g.gsrcVal b))

/-- A register that SMOV writes; msk 0 is a software write (R11, R107). -/
def gregOut (d : GReg) (x : Nat) : List Out :=
  match d with
  | .s r => sOut r.val x
  | .ctl .status => [{ file := .status, reg := 0, lane := 0, val := x, msk := 0 }]
  | .ctl .fpctl => [{ file := .fpctl, reg := 0, lane := 0, val := x, msk := 0 }]
  | .ctl .flags => [{ file := .flags, reg := 0, lane := 0, val := x, msk := 0 }]
  | .ctl .check => [{ file := .check, reg := 0, lane := 0, val := x, msk := 0 }]

/-- A source of SMOV. -/
def Group.smovVal (g : Group) : SMovSrc → Nat
  | .reg (.s r) => (g.readS r.val).toNat
  | .reg (.ctl c) => (g.readCtl c).toNat
  | .imm32 i => immVal 64 false i
  | .imm64 i => i.toNat
def smovLen : SMovSrc → Nat
  | .reg _ => 8
  | .imm32 _ => 12
  | .imm64 _ => 16
def smovFoot : SMovSrc → List Foot
  | .reg r => gregFoot r
  | .imm32 _ => []
  | .imm64 _ => []

/-- SMOV (R107). -/
def execSmov (h : Hdr) (d : GReg) (a : SMovSrc) (s : State) : Host.Outcome State Fault Refusal :=
  groupFixed h (smovLen a) s true 2 (gregFoot d ++ smovFoot a) (h.gp.val != 0) fun x => gregOut d (x.g.smovVal a)

/-- B of SCMP at 64 bits (R54, R108). -/
def Group.simmVal (g : Group) (z : Bool) : SImm → Nat
  | .s r => (g.readS r.val).toNat
  | .imm i => immVal 64 z i
def simmFoot : SImm → List Foot
  | .s r => sFoot r.val
  | .imm _ => []

/-- SCMP (R108): every bit of qD that R79 lets it write. -/
def execScmp (h : Hdr) (signed : Bool) (cmp : Cmp) (d : QReg) (a : SReg) (b : SImm) (s : State) : Host.Outcome State Fault Refusal :=
  groupFixed h (simmLen b) s true 2 (qFoot d.val ++ sFoot a.val ++ simmFoot b) false fun x =>
    qOut d.val (if cmpFn cmp (readInt 64 signed (x.g.readS a.val).toNat) (readInt 64 signed (x.g.simmVal (!signed) b)) then x.actQ else 0)
      x.actQ

/-- SSEL (R109): k is the class slot of the executing fragment, which is one class (R80). -/
def execSsel (h : Hdr) (d a b : SReg) (c : QReg) (s : State) : Host.Outcome State Fault Refusal :=
  groupFixed h 12 s true 2 (sFoot d.val ++ sFoot a.val ++ sFoot b.val ++ qFoot c.val) true fun x =>
    sOut d.val (if (x.g.readQ c.val).getLsbD (x.g.clsOf (lowest x.f.mask)) then (x.g.readS a.val).toNat else (x.g.readS b.val).toNat)

end Sys2Proof.Machine
end

