-- ==== Sys2Proof/Machine/Control.lean ====
section
/-! DEFINITION. Uniform control flow (R81, R111 to R113). -/

namespace Sys2Proof.Machine

/-- PC + sext(IMM32) as a 32-bit offset (R61). -/
def relTarget (pc : Nat) (off : BitVec 32) : Nat := (pc + off.toNat) % 4294967296

/-- The lanes of a mask whose class slots are in a set. -/
def Group.lanesIn (g : Group) (m slots : Nat) : Nat := maskWhere fun l => bit m l && bit slots (g.clsOf l)

/-- The group after an issue without a result (R16, R21), of which the covered event happens in the next cycle (log 8). -/
def Ex.plainG (x : Ex) (active : Bool) : Group := x.fixedG 2 active []

/-- The group with the fragment going to a target: fetch is redirected (R14, R81). -/
def Ex.jumped (x : Ex) (g : Group) (pc : Nat) : Group :=
  g.setFrag x.i { g.frag x.i with pc := pc, target := true, gate := x.cyc + x.h.stall.val + 3 }

/-- A group-wide transfer of the class slots `hold` to `pc` (R111): the whole fragment takes it, or none of it, or the fragment splits by
class. `link` is the register result of a CALL that is taken. -/
def Ex.transfer (x : Ex) (pc : Nat) (link : List Out) : Prog :=
  let hold := x.actQ
  let all := x.g.classMask x.f.mask
  let g0 := if link.isEmpty || hold = 0 then x.plainG (hold != 0) else x.fixedG 2 true link
  if hold = all then Prog.grp x.w (x.jumped g0 pc)
  else if hold = 0 then Prog.grp x.w g0
  else
    let t := x.g.lanesIn x.f.mask hold
    let gate := x.cyc + x.h.stall.val
    let y := GH.split { g := g0, hs := [] } x.i t (mDiff x.f.mask t) pc (x.f.pc + x.len) (gate + 3) (gate + 1) true false
    let j := x.g.freeFrags.headD 16
    let low := bit t (lowest x.f.mask)
    Prog.seq (Prog.gh x.w y) (Prog.traceSplit x.w x.i j 1 (!low) (if low then mDiff x.f.mask t else t))

/-- The entry whose fragment goes to the target (R111): F's own, or the new one where a class split leaves F with the lanes that do not (R363). -/
def Ex.jumper (x : Ex) : Nat :=
  if x.actQ = x.g.classMask x.f.mask ∨ bit (x.g.lanesIn x.f.mask x.actQ) (lowest x.f.mask) = true then x.i else x.g.freeFrags.headD 16

/-- TKN of a guarded transfer whose classes agree (R363). -/
def Ex.traceGuarded (x : Ex) : Prog :=
  let all := x.g.classMask x.f.mask
  Prog.when ((x.h.gp.val != 0 || x.h.gn) && (x.actQ == 0 || x.actQ == all)) (Prog.traceTaken x.w x.i (x.actQ == all))

/-- BRA (R111). -/
def execBra (h : Hdr) (off : BitVec 32) (s : State) : Host.Outcome State Fault Refusal :=
  issue h 12 s fun x => x.only true true
    (x.check [x.guardQ] false (Prog.seq (x.transfer (relTarget x.f.pc off) []) x.traceGuarded))

/-- The target of JMP and RET with its checks (R111): made where the guard holds in a class slot, and a failing one faults the lanes of
those slots; SEC is 0xFF (R67). -/
def Ex.jumpTo (x : Ex) (a : SReg) (p : Nat → Prog) : Prog := Prog.on fun s =>
  let v := (x.g.readS a.val).toNat
  if x.actQ != 0 && (decide (4294967296 ≤ v) || v % 4 != 0 || decide ((s.textOf x.g).length ≤ v)) then
    let t := x.g.lanesIn x.f.mask x.actQ
    Prog.fault x.w x.counted.g t 0xFF ((lanesOf t).map fun l => { lane := l, cause := cIllegalOp, addr := 0 })
      (Prog.on fun t => let y := x.again t; Prog.grp x.w (y.plainG false))
  else p v

/-- JMP (R111). -/
def execJmp (h : Hdr) (a : SReg) (s : State) : Host.Outcome State Fault Refusal :=
  issue h 8 s fun x => x.only true true
    (x.check (x.guardQ :: sFoot a.val) false (x.jumpTo a fun v =>
      Prog.seq (x.transfer v []) (Prog.when (x.actQ != 0) (Prog.traceInd x.w x.jumper v))))

/-- CALL's link address (R111): the first word at or after PC + 12 that is no pad word, or the text length. -/
def linkOf (text : List Byte) (pc : Nat) : Nat :=
  let n := skipPads text text.length (text.length / 4) (pc + 12)
  if text.length < n + 4 then text.length else n

/-- CALL (R111): marked under R80 when GP is not 0. -/
def execCall (h : Hdr) (d : SReg) (off : BitVec 32) (s : State) : Host.Outcome State Fault Refusal :=
  issue h 12 s fun x => x.only true true
    (x.check (x.guardQ :: sFoot d.val) (h.gp.val != 0) (Prog.on fun t =>
      Prog.seq (x.transfer (relTarget x.f.pc off) (sOut d.val (linkOf (t.textOf x.g) x.f.pc))) x.traceGuarded))

/-- RET (R111). -/
def execRet (h : Hdr) (a : SReg) (s : State) : Host.Outcome State Fault Refusal :=
  issue h 8 s fun x => x.only true true
    (x.check (x.guardQ :: sFoot a.val) false (x.jumpTo a fun v =>
      Prog.all [x.transfer v [], x.traceGuarded, Prog.when (x.actQ != 0) (Prog.traceInd x.w x.jumper v)]))

/-- EXIT (R112, R131): its active lanes leave; a context whose lane leaves returns to idle, after its open batch is closed (R221).
DEDUCED: a batch that has opened at a close and has no array instruction is not closed again (log 22). -/
def execExit (h : Hdr) (s : State) : Host.Outcome State Fault Refusal :=
  issue h 8 s fun x => x.only true true
    (x.check [x.guardP] false
      (Prog.seq (Prog.grp x.w (x.plainG (x.act != 0)))
        (Prog.when (x.act != 0) (match x.w with
          | .ctx k =>
            Prog.seq (Prog.on fun t => Prog.when ((t.ctxsAt k).nonempty || (t.ctxsAt k).closedAt.isNone) (Prog.closeBatch k)) (Prog.on fun t =>
              let c := t.ctxsAt k
              Prog.put (.ctxs k { c with state := 0, stopping := false, g := { c.g with frags := [], pres := 0 } }))
          | _ => Prog.leaveLanes x.w x.i x.act))))

/-- NOP (R113): a lane instruction without effect. -/
def execNop (h : Hdr) (s : State) : Host.Outcome State Fault Refusal :=
  issue h 8 s fun x => x.only true true (x.check [x.guardP] false (x.plain (x.act != 0)))

/-- YIELD (R113, R132): the slot goes to the oldest waiting fragment. -/
def execYield (h : Hdr) (s : State) : Host.Outcome State Fault Refusal :=
  issue h 8 s fun x => x.only true true
    (x.check [x.guardQ] false
      (let g := x.plainG (x.actQ != 0)
       Prog.grp x.w (if x.actQ != 0 then g.giveUp x.i else g)))

end Sys2Proof.Machine
end

