-- ==== Sys2Proof/Machine/Parallel.lean ====
section
/-! DEFINITION. Divergence and reconvergence, votes and queries, data exchange, reductions and scans, BACKOFF (R140 to R156). -/

namespace Sys2Proof.Machine

/-! ## Divergence (R144 to R146) -/

/-- Push a knot for F's mask, or fault with KNOT_OVERFLOW (R129); `p` goes on with the group that holds the knot. -/
def Ex.pushKnot (x : Ex) (pc : Nat) (p : Ex → Prog) : Prog :=
  match x.g.freeKnot with
  | none => x.counted.faultAll cKnotOverflow 0 0
  | some k => p { x with g := x.g.push k (pc / 4 * 4) x.f.mask }

/-- BRD (R144). -/
def execBrd (h : Hdr) (off : BitVec 32) (a : SReg) (s : State) : Host.Outcome State Fault Refusal :=
  issue h 12 s fun x => x.only true false
    (x.check (x.guardP :: sFoot a.val) false (Prog.on fun st =>
      let v := (x.g.readS a.val).toNat
      let t := x.act
      let pc := relTarget x.f.pc off
      let go : Ex → Prog := fun y =>
        let g0 := y.plainG (t != 0)
        if t = y.f.mask then Prog.seq (Prog.grp y.w (y.jumped g0 pc)) (Prog.traceTaken y.w y.i true)
        else if t = 0 then Prog.seq (Prog.grp y.w g0) (Prog.traceTaken y.w y.i false)
        else
          let gate := y.cyc + y.h.stall.val
          let low := bit t (lowest y.f.mask)
          Prog.seq
            (Prog.gh y.w (GH.split { g := g0, hs := [] } y.i t (mDiff y.f.mask t) pc (y.f.pc + 12) (gate + 3) (gate + 1) true false))
            (Prog.traceSplit y.w y.i (y.g.freeFrags.headD 16) 0 (!low) (if low then mDiff y.f.mask t else t))
      if a.val = 0 then go x
      else if decide (4294967296 ≤ v) || v % 4 != 0 || decide ((st.textOf x.g).length ≤ v) then x.counted.faultAll cIllegalOp 0xFF 0
      else x.pushKnot v go))

/-- KNOT (R145): SEC 64 where the JOIN address lies at or beyond the end of the text (R67). -/
def execKnot (h : Hdr) (off : BitVec 32) (s : State) : Host.Outcome State Fault Refusal :=
  issue h 12 s fun x => x.only true false
    (x.check [x.guardP] false (Prog.on fun st =>
      let pc := relTarget x.f.pc off
      if x.act = 0 then x.plain false
      else if (st.textOf x.g).length ≤ pc then x.counted.faultAll cIllegalOp 64 0
      else x.pushKnot pc fun y => y.plain true))

/-- Whether all seven counters of a fragment are zero. -/
def Frag.quiet (f : Frag) : Bool := f.sb.isEmpty

/-- The knot that a JOIN of this fragment meets (R130). -/
def Group.joinKnot (g : Group) (i : Nat) : Option Nat := g.findKnot (g.frag i).pc (g.frag i).mask

/-- F arrives at knot k (R130): its other lanes go on as a fragment of their own, split under R128, then its lanes in MASK enter ARR, wait and give up
their slot. -/
def Ex.arrive (x : Ex) (k : Nat) : Prog :=
  let kn := x.g.knot k
  let t := x.f.mask &&& kn.mask
  let out := mDiff x.f.mask t
  let g0 := (x.issued false).setKnot k { kn with arr := kn.arr ||| t }
  let wait := fun (f : Frag) => { f with fst := .joining, kix := k, mask := t }
  if out = 0 then
    let g1 := (g0.setFrag x.i (wait (g0.frag x.i))).unslot x.i
    Prog.gh x.w (GH.settle { g := Group.fill g1 2, hs := [] } x.cyc)
  else
    let f1 := g0.frag x.i
    let j := g0.freeFrags.headD 16
    let y : GH :=
      if bit t (lowest x.f.mask) then
        let z := GH.newFrag { g := g0, hs := [] } x.i j out f1.pc false f1.gate .live
        let g1 := z.g.enqueue j
        { z with g := Group.fill ((g1.setFrag x.i (wait (g1.frag x.i))).unslot x.i) 2 }
      else
        let z := GH.newFrag { g := g0, hs := [] } x.i j t f1.pc false f1.gate .joining
        let g1 := z.g.setFrag j { z.g.frag j with kix := k }
        { z with g := g1.setFrag x.i { g1.frag x.i with mask := out } }
    Prog.ghTold x.w (y.settle x.cyc) [(x.i, Prog.traceSplit x.w x.i j 3 false (if bit t (lowest x.f.mask) then out else t))]

/-- JOIN (R130, R146): without a knot it acts like NOP; with one, F stalls here until its counters are zero, then arrives. -/
def execJoin (h : Hdr) (s : State) : Host.Outcome State Fault Refusal :=
  issue h 8 s fun x => x.only true false
    (match x.g.joinKnot x.i with
     | none => x.plain true
     | some k => if x.f.quiet then x.arrive k else Prog.skip)

/-! ## Votes and queries (R147 to R151) -/

/-- act ∩ cls(L) of each class with a lane in act, with its class slot. -/
def Ex.parts (x : Ex) : List (Nat × Nat) := (x.g.classes x.act).map fun c => (c, maskWhere fun l => bit x.act l && x.g.clsOf l == c)

/-- A p or q result of a vote (R147): `f` is the result of a class's active lanes. -/
def pqOut (x : Ex) (d : PQ) (f : Nat → Bool) : List Out :=
  match d with
  | .p r => x.parts.flatMap fun c => (lanesOf c.2).flatMap fun l => pOut r.val l (f c.2)
  | .q r =>
    qOut r.val (x.parts.foldl (fun m c => if f c.2 then m + 2 ^ c.1 else m) 0) (x.parts.foldl (fun m c => m + 2 ^ c.1) 0)

def pqFoot (m : Nat) : PQ → List Foot
  | .p r => pFoot r.val m
  | .q r => qFoot r.val

/-- The lanes of a mask in which pA is true. -/
def Group.trueIn (g : Group) (p m : Nat) : Nat := maskWhere fun l => bit m l && g.readP p l

/-- VOTE (R147); its ballot into an s register is marked (R143). -/
def execVote (h : Hdr) (x : VoteArgs) (s : State) : Host.Outcome State Fault Refusal :=
  match x with
  | .all d a => laneVar h 8 s (fun m => pqFoot m d ++ pFoot a.val m) fun x => pqOut x d fun c => x.g.trueIn a.val c == c
  | .any d a => laneVar h 8 s (fun m => pqFoot m d ++ pFoot a.val m) fun x => pqOut x d fun c => x.g.trueIn a.val c != 0
  | .uni d a =>
    laneVar h 8 s (fun m => pqFoot m d ++ srcFoot 32 m a) fun x =>
      pqOut x d fun c => (lanesOf c).all fun l => x.g.srcVal l 32 a == x.g.srcVal (lowest c) 32 a
  | .ballot (.v d) a =>
    laneVar h 8 s (fun m => vFoot d.val 32 m ++ pFoot a.val m) fun x =>
      x.parts.flatMap fun c => (lanesOf c.2).flatMap fun l => vOut d.val l 32 false (x.g.trueIn a.val c.2)
  | .ballot (.s d) a =>
    issue h 8 s fun x => x.only true false
      (x.check (x.guardP :: (sFoot d.val ++ pFoot a.val x.f.mask)) true
        (x.variable (x.issued (x.act != 0)) (if x.act = 0 then [] else sOut d.val (x.g.trueIn a.val x.act))))

/-- ELECT (R148). -/
def execElect (h : Hdr) (d : PReg) (s : State) : Host.Outcome State Fault Refusal :=
  laneVar h 8 s (fun m => pFoot d.val m) fun x =>
    x.parts.flatMap fun c => (lanesOf c.2).flatMap fun l => pOut d.val l (l == lowest c.2)

/-- MATCH (R149). -/
def execMatchl (h : Hdr) (ty : BTy) (d a : VReg) (s : State) : Host.Outcome State Fault Refusal :=
  let n := btyBits ty
  laneVar h 8 s (fun m => vFoot d.val 32 m ++ vFoot a.val n m) fun x =>
    x.parts.flatMap fun c => (lanesOf c.2).flatMap fun l =>
      vOut d.val l 32 false (maskWhere fun k => bit c.2 k && x.g.srcVal k n (.v a) == x.g.srcVal l n (.v a))

/-- OWNQ (R150). -/
def execOwnq (h : Hdr) (fld : OwnField) (d : VReg) (s : State) : Host.Outcome State Fault Refusal :=
  laneVar h 8 s (fun m => vFoot d.val 32 m) fun x =>
    (lanesOf x.act).flatMap fun l =>
      let o := x.g.ownerOf l
      vOut d.val l 32 false (match fld with
        | .index => x.g.entOf l
        | .vf => o.vf
        | .asid => o.asid
        | .awn => o.awn)

/-- FRAGQ (R151): over F's mask, not act. -/
def execFragq (h : Hdr) (count : Bool) (d : VReg) (s : State) : Host.Outcome State Fault Refusal :=
  laneVar h 8 s (fun m => vFoot d.val 32 m) fun x =>
    (lanesOf x.act).flatMap fun l =>
      let m := x.g.cls x.f.mask l
      vOut d.val l 32 false (if count then popcount m 16 else m)

/-! ## Data exchange (R152 to R154) -/

/-- The point-to-point rule (R141, R6): lane l's result from source lane k, with the filter bit. -/
def Ex.exchange (x : Ex) (d a n l k : Nat) : List Out :=
  if !bit x.act k then vOut d l n false 0
  else if x.g.clsOf k == x.g.clsOf l then
    vOut d l n false (if n = 64 then (x.g.readV a k).toNat + 4294967296 * (x.g.readV (a + 1) k).toNat else (x.g.readV a k).toNat)
  else vOut d l n false 0 ++ filtOut l

/-- The source lane of SHFL (R152). -/
def shflLane (fn : ShflFn) (w l b : Nat) : Nat :=
  let base := l - l % w
  match fn with
  | .idx => base + b % w
  | .xor => base + ((l - base) ^^^ (b % w))
  | .up => if b ≤ l - base then l - b else l
  | .down => if l + b < base + w then l + b else l

/-- SHFL (R152). -/
def execShfl (h : Hdr) (fn : ShflFn) (w : Fin 4) (d a : VReg) (b : SrcI) (s : State) : Host.Outcome State Fault Refusal :=
  laneVar h (srcILen b) s (fun m => vFoot d.val 32 m ++ vFoot a.val 32 m ++ srcIFoot 32 m b) fun x =>
    (lanesOf x.act).flatMap fun l =>
      x.exchange d.val a.val 32 l (shflLane fn (16 / 2 ^ w.val) l (x.g.srcIVal l 32 false b))

/-- The lane that BCST and RDLN name (R153, R154). -/
def Group.laneArg (g : Group) (b : SImm) : Nat := g.simmVal false b % 16

/-- BCST (R153). -/
def execBcst (h : Hdr) (ty : BTy) (d a : VReg) (b : SImm) (s : State) : Host.Outcome State Fault Refusal :=
  let n := btyBits ty
  laneVar h (simmLen b) s (fun m => vFoot d.val n m ++ vFoot a.val n m ++ simmFoot b) fun x =>
    (lanesOf x.act).flatMap fun l => x.exchange d.val a.val n l (x.g.laneArg b)

/-- RDLN (R154), marked (R143). -/
def execRdln (h : Hdr) (ty : BTy) (d : SReg) (a : VReg) (b : SImm) (s : State) : Host.Outcome State Fault Refusal :=
  let n := btyBits ty
  issue h (simmLen b) s fun x => x.only true false
    (x.check (x.guardP :: (sFoot d.val ++ vFoot a.val n x.f.mask ++ simmFoot b)) true
      (let k := x.g.laneArg b
       x.variable (x.issued (x.act != 0))
        (if x.act = 0 then [] else sOut d.val (if bit x.act k then x.g.srcVal k n (.v a) else 0))))

/-! ## Reductions and scans (R155) -/

/-- The rounding that FPCTL.DRM names (Table 1.3). -/
def drmOf (fpctl : DWord) : Rm :=
  match fpctl.toNat % 4 with
  | 0 => .rn
  | 1 => .rz
  | 2 => .rp
  | _ => .rminf

/-- The combining step, with its flags (R155). -/
def redStep (op : RedOp) (ty : RTy) (rm : Rm) (a b : Nat) : Nat × Nat :=
  let n := rtyBits ty
  let sg := rtySigned ty
  match ty with
  | .f32 =>
    (match op with
     | .min => fpMinMax .f32 false a b
     | .max => fpMinMax .f32 true a b
     | _ => fpAdd .f32 rm a b)
  | _ =>
    (match op with
     | .add | .xadd => ((a + b) % 2 ^ n, 0)
     | .min => (if readInt n sg a ≤ readInt n sg b then a else b, 0)
     | .max => (if readInt n sg a ≤ readInt n sg b then b else a, 0)
     | .and => (a &&& b, 0)
     | .or => (a ||| b, 0)
     | .xor => (a ^^^ b, 0))

/-- r_0: a signalling NaN becomes the canonical NaN and sets NV under .f32. -/
def redFirst (ty : RTy) (a : Nat) : Nat × Nat :=
  if ty = .f32 ∧ (decodeFp .f32 a).isSnan then (nanBits .f32, fNV) else (a, 0)

/-- The running results r_1, r_2, …, each with its step's flags. -/
def scanFrom (op : RedOp) (ty : RTy) (rm : Rm) : Nat → List Nat → List (Nat × Nat)
  | _, [] => []
  | r, x :: t => let y := redStep op ty rm r x; y :: scanFrom op ty rm y.1 t

/-- All r_j of a class's values. -/
def scanAll (op : RedOp) (ty : RTy) (rm : Rm) : List Nat → List (Nat × Nat)
  | [] => []
  | x :: t => let y := redFirst ty x; y :: scanFrom op ty rm y.1 t

/-- The results of LRED and PRFX over the classes of act: `pick` gives lane j's result from all r_j. A signalling NaN x_0 sets NV whatever m is; DEDUCED: under
xadd the last step, whose sum no lane writes, sets no flag (log 42). -/
def Ex.reduce (x : Ex) (op : RedOp) (ty : RTy) (d a : VReg) (pick : List (Nat × Nat) → Nat → Nat) : List Out :=
  let n := rtyBits ty
  x.parts.flatMap fun c =>
    let r := scanAll op ty (drmOf x.g.fpctl) ((lanesOf c.2).map fun l => x.g.srcVal l n (.v a))
    let used := if op = .xadd then r.take (max 1 (r.length - 1)) else r
    ((lanesOf c.2).zipIdx.flatMap fun p => vOut d.val p.1 n false (pick r p.2)) ++ flagOut (used.foldl (fun m y => m ||| y.2) 0)

/-- The registers that a reduction reads and writes: FPCTL too, whose DRM rounds the additions of .f32 (R142, R155). -/
def redFoot (op : RedOp) (ty : RTy) (d a : VReg) (m : Nat) : List Foot :=
  vFoot d.val (rtyBits ty) m ++ vFoot a.val (rtyBits ty) m ++ (if ty = .f32 ∧ (op = .add ∨ op = .xadd) then ctlFoot .fpctl else [])

/-- LRED (R155). -/
def execLred (h : Hdr) (op : RedOp) (ty : RTy) (d a : VReg) (s : State) : Host.Outcome State Fault Refusal :=
  laneVar h 8 s (redFoot op ty d a) fun x =>
    x.reduce op ty d a fun r _ => (r.getLastD (0, 0)).1

/-- PRFX (R155). -/
def execPrfx (h : Hdr) (op : RedOp) (ty : RTy) (d a : VReg) (s : State) : Host.Outcome State Fault Refusal :=
  laneVar h 8 s (redFoot op ty d a) fun x =>
    x.reduce op ty d a fun r j => if op = .xadd then (if j = 0 then 0 else (getAt (0, 0) r (j - 1)).1) else (getAt (0, 0) r j).1

/-! ## Issue control (R156) -/

/-- BACKOFF (R156). -/
def execBackoff (h : Hdr) (a : SReg) (s : State) : Host.Outcome State Fault Refusal :=
  issue h 8 s fun x => x.only true false
    (x.check (x.guardQ :: sFoot a.val) false
      (if x.actQ = 0 then x.plain false
       else
        let g := x.plainG true
        let n := min ((x.g.readS a.val).toNat % 4294967296) 4095
        Prog.grp x.w ((g.setFrag x.i { g.frag x.i with gate := (g.frag x.i).gate + n }).giveUp x.i)))

end Sys2Proof.Machine
end

