-- ==== Sys2Proof/Machine/Translate.lean ====
section
/-! DEFINITION. Windows, the scratch checks, and the two stages of translation (R161 to R171, R318, R338, R340). -/

namespace Sys2Proof.Machine

/-! ## Host physical memory (R161) -/

/-- The end of far memory that software may use: the metadata of the root slots lies above it. DESIGN CHOICE: firmware configures all
65,536 slots (log 9). -/
def farTop : Nat := 2199023255552 - 65536 * 18432

/-- Whether Table 8.2 assigns an HPA to memory. -/
def hpaMapped (a : Nat) : Bool :=
  (decide (a < 274877906944) && decide (a % 68719476736 < 51539607552)) || (decide (1099511627776 ≤ a) && decide (a < farTop))

/-- A byte of a peer's memory, which the machine reaches by its links only. -/
def peerKey (peer hpa : Nat) : Nat := 2 ^ 80 + peer * 2 ^ 48 + hpa

/-- Whether SETFA holds new fills of a frame (R337): it has begun, and step 5 of the frame is not done. -/
def State.frameHeld (s : State) (frame : Nat) : Bool := match (s.fnsAt 0).cmd with
  | some c => c.op == 6 && c.begun && decide (getAt 0 c.args 0 / 65536 + c.node ≤ frame) && decide (frame < getAt 0 c.args 0 / 65536 + getAt 0 c.args 1)
  | none => false

/-- What stands for the cause where a translation waits for SETFA (R337); no fault of Table 16.1. -/
def cHeld : Nat := 0x100

/-- Read n bytes of a table at an HPA; a line that fails its check cannot be read (R170, R299). -/
def State.readHpa (s : State) (a n : Nat) : Except Nat Nat :=
  if !hpaMapped a then .error cXlatInvalid else if s.lineBad a n then .error cUncorrectable else .ok (s.load a n)

/-! ## Windows (R163) -/

/-- Where a generic address leads. -/
inductive Place where
  | global (gva : Nat)
  | const (off : Nat)
  | priv (off : Nat)
  | die (die off : Nat)
  | cluster (cl off : Nat)
  | core (core off : Nat)
  deriving DecidableEq, Repr

/-- Table 8.3; none is BAD_WINDOW. -/
def decodeWindow (a : Nat) : Option Place :=
  match bits a 63 56 with
  | 0x00 => some (.global (bits a 55 0))
  | 0xF9 => if bits a 55 32 = 0 then some (.const (bits a 31 0)) else none
  | 0xFA => if bits a 55 32 = 0 then some (.priv (bits a 31 0)) else none
  | 0xFB => if bits a 53 25 = 0 then some (.die (bits a 55 54) (bits a 24 0)) else none
  | 0xFC => if bits a 46 21 = 0 then some (.cluster (bits a 55 47) (bits a 20 0)) else none
  | 0xFD => if bits a 44 18 = 0 then some (.core (bits a 55 45) (bits a 17 0)) else none
  | _ => none

def Place.isScratch : Place → Bool
  | .die _ _ | .cluster _ _ | .core _ _ => true
  | _ => false

/-- The checks of R164 on core `core`, on the own core `ocrd` that R295 gives and, in a handler, under R292: the key of the location, or the
cause. -/
def State.scratchOn (s : State) (core ocrd : Nat) (hnd : Bool) (o : Owner) (n : Nat) : Place → Except Nat Nat
  | .core c off =>
    if c ≠ ocrd then .error cForeignScratch
    else if hnd then (if 262144 < off + n then .error cScratchBound else .ok (coreKey core off))
    else if 64 * o.slen < off + n then .error cScratchBound
    else .ok (coreKey core (64 * o.sbase + off))
  | .cluster cl off =>
    if cl ≠ clusterOf ocrd then .error cForeignScratch
    else if s.clusterScratchOk cl o.vf off n then .ok (clusterKey cl off) else .error cScratchBound
  | .die d off => if s.dieScratchOk d o.vf off n then .ok (dieKey d off) else .error cScratchBound
  | _ => .error cBadWindow

/-- The checks of R164 for an issuer. -/
def State.scratchAt (s : State) (w : Issuer) (g : Group) (o : Owner) (n : Nat) (p : Place) : Except Nat Nat :=
  s.scratchOn (coreOf w) g.ocrd g.handler.isSome o n p

/-! ## Range tables and page tables (R168, R169) -/

/-- One stage's answer for an input address: the inputs [lo, hi) that it covers, the output, and what it carries; `perm` has R 1, W 2, A 4. -/
structure Stage where
  lo : Nat
  hi : Nat
  out : Nat
  key : Nat
  attr : Nat
  perm : Nat
  walked : Bool
  deriving DecidableEq, Repr

/-- The binary search of R168: how many of the entries from lo to hi have a BASE at or below x, the entries being sorted. The pivots are free
where the table is long enough to have a choice (`q`), so that a table that is not sorted may give any outcome. -/
def searchBase (base : Nat → Except Nat Nat) (x : Nat) : Nat → Nat → Nat → Nat → Except Nat Nat
  | 0, _, lo, _ => .ok lo
  | fuel + 1, q, lo, hi =>
    if hi ≤ lo then .ok lo
    else
      let n := hi - lo
      let mid := if n = 1 then lo else lo + (n / 2 + q % 2048) % n
      match base mid with
      | .error c => .error c
      | .ok b => if b ≤ x then searchBase base x fuel (q / 2048) (mid + 1) hi else searchBase base x fuel (q / 2048) lo mid

/-- A malformed range entry with V = 1 (R168). -/
def rangeBad (w : Nat) : Bool :=
  bits w 255 248 != 0 || bits w 191 184 != 0 || bits w 63 16 != 0 || bits w 203 192 != 0 || bits w 139 128 != 0 || bits w 75 64 != 0 ||
    decide (bits w 183 128 ≤ bits w 247 192) || bits w 5 4 == 3

/-- Search a range table of n entries that `rd` reads. -/
def rangeLookup (rd : Nat → Nat → Except Nat Nat) (tab n x q : Nat) : Except Nat (Option Stage) :=
  match searchBase (fun k => (rd (tab + 32 * k) 32).map fun w => bits w 247 192) x n q 0 n with
  | .error c => .error c
  | .ok 0 => .ok none
  | .ok (k + 1) =>
    match rd (tab + 32 * k) 32 with
    | .error c => .error c
    | .ok w =>
      if !bit w 0 then .ok none
      else if rangeBad w then .error cXlatInvalid
      else if bits w 183 128 ≤ x ∨ x < bits w 247 192 then .ok none
      else .ok (some { lo := bits w 247 192, hi := bits w 183 128, out := (x + bits w 127 64) % 2 ^ 48, key := bits w 15 6, attr := bits w 5 4,
                       perm := bits w 3 1, walked := false })

/-- The faults of one page-table entry at a level: none, or the cause (R169). DESIGN CHOICE: an entry with V = 0 is not looked at further, and ATTR 0b11, which
R169 does not name, ends no walk (log 52). -/
def pteFault (level w : Nat) : Option Nat :=
  if !bit w 0 then some cXlatMiss
  else if bits w 51 48 != 0 || bits w 11 8 != 0 || bit w 4 then some cXlatInvalid
  else if bit w 5 != (level == 0) then some cXlatInvalid
  else if level ≠ 0 then
    (if bits w 63 52 != 0 || bits w 7 6 != 0 || bits w 3 1 != 0 then some cXlatInvalid else none)
  else if bits w 7 6 == 3 then some cXlatInvalid
  else if (w % 2 ^ 48) / 4096 % (if bits w 7 6 = 0 then 1 else if bits w 7 6 = 1 then 16 else 512) ≠ 0 then some cXlatInvalid
  else none

/-- Bytes of a leaf page. -/
def leafSize (w : Nat) : Nat := if bits w 7 6 = 0 then 4096 else if bits w 7 6 = 1 then 65536 else 2097152

/-- The walk of R169 from a table at a level. DESIGN CHOICE: of the repeated entries of a large leaf the indexed one is used (log 52). -/
def walkFrom (rd : Nat → Nat → Except Nat Nat) (x : Nat) : Nat → Nat → Except Nat Stage
  | level, tab =>
    match rd (tab + 8 * bits x (22 + 11 * level) (12 + 11 * level)) 8 with
    | .error c => .error c
    | .ok w =>
      match pteFault level w with
      | some c => .error c
      | none =>
        match level with
        | 0 =>
          let sz := leafSize w
          let page := bits w 47 12 * 4096
          .ok { lo := x / sz * sz, hi := x / sz * sz + sz, out := (page + x % sz) % 2 ^ 48, key := bits w 63 54, attr := bits w 53 52,
                perm := bits w 3 1, walked := true }
        | l + 1 => walkFrom rd x l (bits w 47 12 * 4096)

/-- One stage: its range table, then its page tables (R168, R169). -/
def lookupStage (rd : Nat → Nat → Except Nat Nat) (tab n root x q : Nat) : Except Nat Stage :=
  match rangeLookup rd tab n x q with
  | .error c => .error c
  | .ok (some st) => .ok st
  | .ok none => if root = 0 then .error cXlatMiss else walkFrom rd x 3 root

/-- Stage 2 of a function (R167, Table 20.4). DESIGN CHOICE: bits above 47 of a GPA that the directory, a context or a table holds are dropped (log 52). -/
def State.stage2 (s : State) (vf gpa q : Nat) : Except Nat Stage :=
  lookupStage s.readHpa (s.reg vf 196608).toNat (s.regBits vf 196616 63 53) (s.reg vf 196624).toNat (gpa % 2 ^ 48) q

/-- Where a GPA of a function leads; one in a frame that SETFA holds waits (R337). -/
def State.gpaAt (s : State) (vf q a : Nat) : Except Nat Nat :=
  match s.stage2 vf a q with
  | .error c => .error c
  | .ok st => if s.frameHeld (st.out / 65536) then .error cHeld else .ok st.out

/-- Read n bytes at a GPA of a function, where the structures of stage 1 lie; bytes past the end of a page are translated by themselves (R3). DESIGN CHOICE: such a
read asks stage 2 for no R, and neither for a key nor for a frame's attribute (log 52). -/
def State.readGpa (s : State) (vf q a n : Nat) : Except Nat Nat :=
  let k := min n (4096 - a % 4096)
  match s.gpaAt vf q a with
  | .error c => .error c
  | .ok p =>
    if k = n then s.readHpa p n
    else match s.readHpa p k, s.gpaAt vf q (a + k) with
      | .error c, _ => .error c
      | _, .error c => .error c
      | .ok x, .ok p2 => (s.readHpa p2 (n - k)).map fun y => x + y * 256 ^ k

/-- The HPA of a GPA of a function (R117). -/
def State.gpaToHpa (s : State) (vf q a : Nat) : Except Nat Nat :=
  match s.gpaAt vf q a with
  | .error c => .error c
  | .ok p => if hpaMapped p then .ok p else .error cXlatInvalid

/-- The ASID context of an owner (R167, Table 8.4). -/
def State.asidContext (s : State) (vf asid q : Nat) : Except Nat Nat :=
  match s.readGpa vf q ((s.reg vf 196632).toNat + 8 * (asid / 1024 % 1024)) 8 with
  | .error c => .error c
  | .ok leaf => s.readGpa vf q (leaf + 64 * (asid % 1024)) 64

/-- Whether an ASID context is valid for a launch (R167). -/
def contextOk (w : Nat) : Bool :=
  bit w 0 && bits w 327 320 == 0 && bits w 270 1 == 0 && !(bits w 319 304 != 0 && bits w 303 292 == 0)

/-- Stage 1 of an owner. -/
def State.stage1 (s : State) (vf asid gva q : Nat) : Except Nat Stage :=
  match s.asidContext vf asid q with
  | .error c => .error c
  | .ok w =>
    if !bit w 0 then .error cXlatInvalid
    else lookupStage (s.readGpa vf q) (bits w 511 448) (bits w 291 281) (bits w 447 384) gva q

/-! ## Apertures (R318) -/

/-- A valid aperture entry that is malformed. -/
def apertureBad (w : Nat) : Bool :=
  bits w 255 248 != 0 || bits w 191 184 != 0 || bits w 63 26 != 0 || bits w 15 5 != 0 || bits w 203 192 != 0 || bits w 139 128 != 0 ||
    decide (bits w 183 128 ≤ bits w 247 192)

/-- The aperture of a function that covers a GPA; where several do, a free one of them. -/
def State.aperture (s : State) (vf gpa q : Nat) : Except Nat (Option Nat) :=
  let tab := (s.reg vf 196640).toNat
  if tab = 0 then .ok none
  else if !hpaMapped tab then .error cXlatInvalid
  else if s.lineBad tab 2048 then .error cUncorrectable
  else
    let l := ((List.range 64).map fun k => s.load (tab + 32 * k) 32).filter fun w => bit w 0
    if l.any apertureBad then .error cXlatInvalid
    else
      match l.filter fun w => decide (bits w 247 192 ≤ gpa) && decide (gpa < bits w 183 128) with
      | [] => .ok none
      | [w] => .ok (some w)
      | w :: t => .ok (some (getAt w (w :: t) (q % (t.length + 1))))

/-! ## The fill (R170, R171) -/

/-- A fill: an entry, and whether tables were walked; or the cause. -/
inductive FillRes where
  | ok (e : RtbEntry) (walked : Bool)
  | bad (cause : Nat)
  deriving DecidableEq, Repr

/-- Whether a key index is loaded and owned by a function (R340). -/
def State.keyOk (s : State) (vf attr key : Nat) : Bool := attr == 0 || s.keysAt key == vf + 1

/-- Whether the region of an HPA admits a function (R338). -/
def State.admits_ (s : State) (vf hpa : Nat) : Bool := bit (s.accessMask (hpa / 2 ^ 30 % 2048)) vf

/-- The pair of ATTR and key, 0 where clear. -/
def pairOf (attr key : Nat) : Nat := if attr = 0 then 0 else attr * 1024 + key

/-- The checks of one address that an entry serves, in the order of R172 (R161, R170, R322, R338, R340): its key. -/
def State.useEntry (s : State) (e : RtbEntry) (gva need : Nat) (hostOk : Bool) : Except Nat Nat :=
  let perm := (if e.r then 1 else 0) + (if e.w then 2 else 0) + (if e.a then 4 else 0)
  let lacks := perm &&& need != need
  match e.tgt with
  | 0 =>
    let hpa := (gva + e.add) % 2 ^ 48
    if !hpaMapped hpa || !s.keyOk e.vf (e.pair / 1024) (e.pair % 1024) then .error cXlatInvalid
    else if lacks || !s.admits_ e.vf hpa then .error cXlatDenied
    else if s.framesAt (hpa / 65536) ≠ e.pair then .error cAliasAttr
    else .ok hpa
  | 1 => if lacks || (need == 4 && !hostOk) then .error cXlatDenied else .ok (hostKey ((gva + e.add) % 2 ^ 64))
  | p + 2 => if lacks then .error cXlatDenied else .ok (peerKey p ((gva + e.add) % 2 ^ 48))

/-- The entry of a stage 1 answer and what follows it: the GVAs around `gva` for which both hold. -/
def joinEntry (vf asid gva : Nat) (a : Stage) (lo2 hi2 out tgt pair perm : Nat) : RtbEntry :=
  { vf := vf, asid := asid, lo := gva - min (gva - a.lo) (a.out - lo2), hi := gva + min (a.hi - gva) (hi2 - a.out),
    add := (out + 2 ^ 64 - gva) % 2 ^ 64, tgt := tgt, pair := pair, r := bit perm 0, w := bit perm 1, a := bit perm 2 }

/-- A fill for an owner (R170): `need` is the permission that the access needs. A fill that ends in a fault enters nothing (R313). -/
def State.fill (s : State) (vf asid key gva need q : Nat) : FillRes :=
  match s.stage1 vf asid gva q with
  | .error c => .bad c
  | .ok a =>
    let k1 := if a.key = 1023 then key else a.key
    match s.aperture vf a.out q with
    | .error c => .bad c
    | .ok (some w) =>
      let perm := a.perm &&& bits w 3 1
      if perm &&& need != need then .bad cXlatDenied
      else if a.attr ≠ 0 then .bad cAliasAttr
      else
        let tgt := if bit w 4 then 1 else bits w 25 16 + 2
        .ok (joinEntry vf asid gva a (bits w 247 192) (bits w 183 128) ((a.out + bits w 127 64) % 2 ^ 64) tgt 0 perm) a.walked
    | .ok none =>
      match s.stage2 vf a.out q with
      | .error c => .bad c
      | .ok b =>
        let perm := a.perm &&& b.perm
        if !hpaMapped b.out || !s.keyOk vf a.attr k1 || !s.keyOk vf b.attr b.key then .bad cXlatInvalid
        else if !s.admits_ vf b.out || perm &&& need != need then .bad cXlatDenied
        else if a.attr ≠ b.attr ∨ (a.attr ≠ 0 ∧ k1 ≠ b.key) ∨ s.framesAt (b.out / 65536) ≠ pairOf b.attr b.key then .bad cAliasAttr
        else .ok (joinEntry vf asid gva a b.lo b.hi b.out 0 (pairOf b.attr b.key) perm) (a.walked || b.walked)

/-- Whether a fill leads into a frame that SETFA holds, whatever its checks would say (R337). -/
def State.fillHeld (s : State) (vf asid gva q : Nat) : Bool :=
  match s.stage1 vf asid gva q with
  | .error c => c == cHeld
  | .ok a =>
    match s.aperture vf a.out q with
    | .ok none => (match s.stage2 vf a.out q with
      | .ok b => s.frameHeld (b.out / 65536)
      | .error _ => false)
    | _ => false

/-- Translate one address of an owner without an RTB: for engines, the market and the rings (R234, R333, R369). -/
def State.translate (s : State) (vf asid key gva need q : Nat) : Except Nat Nat :=
  if s.fillHeld vf asid gva q then .error cHeld
  else match s.fill vf asid key gva need q with
  | .bad c => .error c
  | .ok e _ => s.useEntry e gva need false

/-- Whether an entry leads an address into a frame that SETFA holds. -/
def State.entryHeld (s : State) (e : RtbEntry) (gva : Nat) : Bool := e.tgt == 0 && s.frameHeld ((gva + e.add) % 2 ^ 48 / 65536)

/-- The RTB entry of a core that covers an address of an owner, if no frame is held there. -/
def State.rtbFind (s : State) (core vf asid gva : Nat) : Option RtbEntry :=
  (s.coresAt core).rtb.find? fun e => e.vf == vf && e.asid == asid && decide (e.lo ≤ gva) && decide (gva < e.hi) && !s.entryHeld e gva

end Sys2Proof.Machine
end

