-- ==== Sys2Proof/Machine/Records.lean ====
section
/-! DEFINITION. What the device reads to start work: code objects with their SM3 digest (R76), launch records (R116), region control blocks
(R117, R118) and the check of a record in the order of R333. -/

namespace Sys2Proof.Machine

/-! ## Reads of the device (R234, R333, R369) -/

/-- The pieces in which a link carries n bytes: up to eight, at offsets. -/
def eights (n : Nat) : List (Nat × Nat) := (List.range (ceilDiv n 8)).map fun i => (8 * i, min 8 (n - 8 * i))

/-- What stands for the cause where n bytes of a peer's memory must be read first; no fault of Table 16.1. -/
def cAway (key n : Nat) : Nat := 2 ^ 200 * (n + 1) + key
/-- What such a cause names. -/
def awayOf (c : Nat) : Option (Nat × Nat) := if c < 2 ^ 200 then none else some (c % 2 ^ 200, c / 2 ^ 200 - 1)

/-- The bytes at a location for a read of the device, from what has been read of a peer's memory (`via`, by location, as value + 1). Where there is no such reading, a
peer's memory ends the read as refused (log 11); a line that fails its check ends it, too (R299). -/
def State.readAt (s : State) (via : Option (Tab Nat)) (p k : Nat) : Except Nat (List Byte) :=
  if isPeer p then match via with
    | none => .error cUncorrectable
    | some t =>
      if (eights k).all fun x => Tab.get (fun _ => 0) t (p + x.1) != 0 then
        .ok ((eights k).flatMap fun x => toBytes (Tab.get (fun _ => 0) t (p + x.1) - 1) x.2)
      else .error (cAway p k)
  else if s.lineBad p k then .error cUncorrectable
  else .ok (s.bytes p k)

/-- Read n bytes from a GVA of an owner, page by page. -/
def State.readVia (s : State) (via : Option (Tab Nat)) (vf asid key q : Nat) : Nat → Nat → Nat → Except Nat (List Byte)
  | 0, _, _ => .ok []
  | fuel + 1, a, n =>
    if n = 0 then .ok []
    else
      let k := min n (4096 - a % 4096)
      match s.translate vf asid key (a % 2 ^ 56) 1 q with
      | .error c => .error c
      | .ok p => match s.readAt via p k with
        | .error c => .error c
        | .ok b => match s.readVia via vf asid key q fuel (a + k) (n - k) with
          | .error c => .error c
          | .ok r => .ok (b ++ r)

/-- Read n bytes from a GVA of an owner, none of them a peer's. -/
def State.readVirt (s : State) (vf asid key q : Nat) : Nat → Nat → Nat → Except Nat (List Byte) := s.readVia none vf asid key q

/-- Read n bytes at a generic address that must be global. -/
def State.readGlobalVia (s : State) (via : Option (Tab Nat)) (vf asid key q a n : Nat) : Except Nat (List Byte) :=
  match decodeWindow (a % 2 ^ 64) with
  | some (.global g) => s.readVia via vf asid key q (n / 4096 + 2) g n
  | _ => .error cBadWindow
def State.readGlobal (s : State) (vf asid key q a n : Nat) : Except Nat (List Byte) := s.readGlobalVia none vf asid key q a n

/-! ## SM3 -/

/-- Rotate a 32-bit number left. -/
def rotl32 (x n : Nat) : Nat :=
  let y := x % 4294967296 * 2 ^ (n % 32)
  y % 4294967296 + y / 4294967296

def not32 (x : Nat) : Nat := 4294967295 - x % 4294967296

/-- The message words W0 to W67 of a block, from the last sixteen in reverse order. -/
def sm3Words : Nat → List Nat → List Nat
  | 0, l => l
  | n + 1, l =>
    let x := getAt 0 l 15 ^^^ getAt 0 l 8 ^^^ rotl32 (getAt 0 l 2) 15
    let p := x ^^^ rotl32 x 15 ^^^ rotl32 x 23
    sm3Words n ((p ^^^ rotl32 (getAt 0 l 12) 7 ^^^ getAt 0 l 5) :: l)

/-- One round of the compression function on (a, …, h). -/
def sm3Round (j w w4 : Nat) (v : List Nat) : List Nat :=
  match v with
  | [a, b, c, d, e, f, g, h] =>
    let t := if j < 16 then 0x79CC4519 else 0x7A879D8A
    let s1 := rotl32 ((rotl32 a 12 + e + rotl32 t j) % 4294967296) 7
    let s2 := s1 ^^^ rotl32 a 12
    let ff := if j < 16 then a ^^^ b ^^^ c else (a &&& b) ||| (a &&& c) ||| (b &&& c)
    let gg := if j < 16 then e ^^^ f ^^^ g else (e &&& f) ||| (not32 e &&& g)
    let t1 := (ff + d + s2 + (w ^^^ w4)) % 4294967296
    let t2 := (gg + h + s1 + w) % 4294967296
    [t1, a, rotl32 b 9, c, t2 ^^^ rotl32 t2 9 ^^^ rotl32 t2 17, e, rotl32 f 19, g]
  | _ => v

def sm3Rounds : Nat → Nat → List Nat → List Nat → List Nat
  | 0, _, _, v => v
  | n + 1, j, w, v => sm3Rounds n (j + 1) (w.drop 1) (sm3Round j (getAt 0 w 0) (getAt 0 w 4) v)

/-- Big-endian words of bytes. -/
def beWords : List Byte → List Nat
  | a :: b :: c :: d :: t => (a.toNat * 16777216 + b.toNat * 65536 + c.toNat * 256 + d.toNat) :: beWords t
  | _ => []

def sm3Block (v : List Nat) (blk : List Byte) : List Nat :=
  (sm3Rounds 64 0 ((sm3Words 52 (beWords blk).reverse).reverse) v).zipWith (fun x y => x ^^^ y) v

def sm3Blocks : Nat → List Byte → List Nat → List Nat
  | 0, _, v => v
  | n + 1, m, v => sm3Blocks n (m.drop 64) (sm3Block v (m.take 64))

/-- The 32 digest bytes of SM3 in output order (R76). -/
def sm3 (m : List Byte) : List Byte :=
  let n := m.length
  let z := (119 - n % 64) % 64
  let p := m ++ (0x80 : Byte) :: (List.replicate z 0 ++ (toBytes (8 * n) 8).reverse)
  let v := sm3Blocks (p.length / 64) p
    [0x7380166F, 0x4914B2B9, 0x172442D7, 0xDA8A0600, 0xA96F30BC, 0x163138AA, 0xE38DEE4D, 0xB0FB0E4E]
  v.flatMap fun x => (toBytes x 4).reverse

/-- HMAC-SM3 under a 32-byte key (R344). -/
def hmacSm3 (key msg : List Byte) : List Byte :=
  let pad := fun (x : Nat) => (key ++ List.replicate 32 0).map fun b => b ^^^ BitVec.ofNat 8 x
  sm3 (pad 0x5C ++ sm3 (pad 0x36 ++ msg))

/-- A digest or a secret as a number. -/
def digestOf (l : List Byte) : BitVec 256 := BitVec.ofNat 256 (ofBytes l)

/-! ## Code objects (R76) -/

/-- Why a code object does not load: it cannot be read, or its header or digest is wrong. -/
inductive CodeErr where
  | unreadable (cause : Nat)
  | bad
  deriving DecidableEq, Repr

/-- Sections (offset, length) that do not overlap, empty ones apart. -/
def sectionsApart : List (Nat × Nat) → Bool
  | [] => true
  | a :: t => t.all (fun b => a.2 == 0 || b.2 == 0 || decide (a.1 + a.2 ≤ b.1) || decide (b.1 + b.2 ≤ a.1)) && sectionsApart t

/-- Whether a header is valid, digest apart (Table 3.16). -/
def headerOk (h : Nat) : Bool :=
  bits h 15 0 == 0x4D1D && bits h 31 16 == 1 && bits h 44 34 == 0 && bits h 575 64 == 0 &&
    bits h 607 576 % 128 == 0 && decide (128 ≤ bits h 607 576) && bits h 639 608 % 4 == 0 && decide (4 ≤ bits h 639 608) &&
    decide (bits h 639 608 ≤ 16777216) && bits h 671 640 % 8 == 0 && bits h 735 704 % 64 == 0 && decide (bits h 50 45 ≤ 39) &&
    decide (bits h 63 51 ≤ 4096) &&
    sectionsApart [(0, 128), (bits h 607 576, bits h 639 608), (bits h 671 640, bits h 703 672), (bits h 735 704, bits h 767 736)]

/-- Load a code object for an owner into a cluster's code buffer. DESIGN CHOICE: an address that is not a multiple of 256 is a failed check before anything is
read (log 48). -/
def State.loadCodeVia (s : State) (via : Option (Tab Nat)) (vf asid key q cluster addr : Nat) : Except CodeErr Code :=
  if addr % 256 ≠ 0 then .error .bad
  else match s.readGlobalVia via vf asid key q addr 128 with
    | .error c => .error (.unreadable c)
    | .ok hb =>
      let h := ofBytes hb
      if !headerOk h then .error .bad
      else match s.readGlobalVia via vf asid key q (addr + bits h 607 576) (bits h 639 608),
                 s.readGlobalVia via vf asid key q (addr + bits h 671 640) (bits h 703 672),
                 s.readGlobalVia via vf asid key q (addr + bits h 735 704) (bits h 767 736) with
        | .error c, _, _ => .error (.unreadable c)
        | _, .error c, _ => .error (.unreadable c)
        | _, _, .error c => .error (.unreadable c)
        | .ok text, .ok consts, .ok data =>
          if sm3 (hb.take 96 ++ List.replicate 32 0 ++ text ++ consts ++ data) ≠ hb.drop 96 then .error .bad
          else .ok { cluster := cluster, vf := vf, addr := addr, dgst := hb.drop 96, text := text, consts := consts,
                     regs := 8 * (bits h 50 45 + 1), scr := bits h 63 51, msafe := bit h 32, det := bit h 33 }

/-- Load a code object none of which is in a peer's memory. -/
def State.loadCode (s : State) (vf asid key q cluster addr : Nat) : Except CodeErr Code := s.loadCodeVia none vf asid key q cluster addr

/-- Whether a group or a context of its cluster runs from a copy (R76, R166). -/
def State.pins (s : State) (n : Nat) (c : Code) : Bool :=
  s.groups.any (fun q => clusterOf (q.1 / 256) == c.cluster && (q.2.live || !q.2.owners.isEmpty) && q.2.code == n) ||
    s.ctxs.any (fun q => q.1 / 4 == c.cluster && q.2.state != 0 && q.2.g.code == n)

/-- The copy of a code object in a cluster's buffer that a group or a context pins (R76, R166). -/
def State.pinned (s : State) (cl : Nat) (c : Code) : Option Nat :=
  (s.codes.find? fun p => p.2.cluster == cl && p.2.addr == c.addr && p.2.dgst == c.dgst && s.pins p.1 p.2).map (·.1)

/-- A code object for the market (R76, R369): a pinned copy with its address and the DGST of its header, in a cluster's buffer (512: in any), and otherwise what is
loaded. -/
def State.codeFor (s : State) (vf asid key q cluster addr : Nat) : Except CodeErr Code :=
  let copy := match s.readGlobal vf asid key q addr 128 with
    | .ok hb => s.codes.find? fun (p : Nat × Code) => (cluster == 512 || p.2.cluster == cluster) && p.2.addr == addr && p.2.dgst == hb.drop 96 && s.pins p.1 p.2
    | .error _ => none
  match copy with
  | some p => .ok p.2
  | none => s.loadCode vf asid key q cluster addr

/-! ## Region control blocks (R117, R118) -/

/-- The RCB of a node: none is the root, which the device holds. -/
def State.rcb (s : State) (node : Option Nat) : Nat :=
  match node with
  | some a => s.load a 128
  | none => s.root

/-- The effective value of an overridable field over a chain of RCBs that ends at the root (R118): OVR bit b, field bits hi to lo. -/
def effective (b hi lo : Nat) : List Nat → Nat
  | [] => 0
  | [r] => bits r hi lo
  | r :: t => if bit r (48 + b) then bits r hi lo else effective b hi lo t

/-- The RCBs of a chain, with the root. -/
def State.rcbs (s : State) (chain : List Nat) : List Nat := chain.map (fun a => s.load a 128) ++ [s.root]

/-- The HPA of an RCB that a GPA of a function names, if it is aligned, can be read and has a level; a line that fails its check cannot be read (R299). -/
def State.rcbAt (s : State) (fn q a lvl : Nat) : Except Nat Nat :=
  match s.gpaToHpa fn q a with
  | .error c => .error c
  | .ok p => if s.lineBad p 128 then .error cUncorrectable else if a % 128 = 0 ∧ bits (s.load p 128) 63 61 = lvl then .ok p else .error cXlatInvalid

/-- The chain of a launch RCB: HPAs of levels 3, 2 and 1 (R117), or why there is none. -/
def State.chainOf (s : State) (fn lrcb q : Nat) : Except Nat (List Nat) :=
  match s.rcbAt fn q lrcb 3 with
  | .error c => .error c
  | .ok a3 =>
    match s.rcbAt fn q (bits (s.load a3 128) 511 448) 2, s.rcbAt 0 q (s.part fn 0) 1 with
    | .ok a2, .ok a1 => .ok [a3, a2, a1]
    | .error c, _ => .error c
    | _, .error c => .error c

/-! ## The check of a launch record (R116, R333) -/

/-- Fields of a launch record (Table 5.1). -/
def recCode (r : Nat) : Nat := bits r 511 448
def recArgs (r : Nat) : Nat := bits r 447 384
def recWrt (r : Nat) : Nat := bits r 383 320
def recLrcb (r : Nat) : Nat := bits r 319 256
def recEntry (r : Nat) : Nat := bits r 255 224
def recNwg (r : Nat) : Nat := bits r 223 192
/-- Lanes per workgroup. -/
def recLanes (r : Nat) : Nat := bits r 191 180 + 1
/-- Lane registers. -/
def recRegs (r : Nat) : Nat := 8 * (bits r 179 174 + 1)
def recScr (r : Nat) : Nat := bits r 173 161
def recAcr (r : Nat) : Nat := bits r 160 150
def recDet (r : Nat) : Bool := bit r 149
def recNomrg (r : Nat) : Bool := bit r 148
def recNwr (r : Nat) : Nat := bits r 147 144
def recTask (r : Nat) : Option Nat := if bit r 143 then some (bits r 142 131) else none

/-- The fields that R116 rejects by themselves. -/
def recFieldsOk (r : Nat) : Bool :=
  bits r 130 0 == 0 && recNwg r != 0 && decide (recNwr r ≤ 8) && decide (bits r 179 174 ≤ 39) && decide (recScr r ≤ 4096) &&
    decide (recAcr r ≤ 1024)

/-- An accepted record: its bits, its code object, its chain, its ASID context and its effective PRIO. -/
structure Accepted where
  rec_ : Nat
  code : Code
  chain : List Nat
  ctx : Nat
  prio : Nat
  deriving DecidableEq, Repr

/-- A rejection: its code (R333) and the record, if it was read; code cHeld where its reading waits for SETFA (R337). -/
structure Rejected where
  code : Nat
  rec_ : Option Nat
  deriving DecidableEq, Repr

/-- The word of n bytes, as a number. -/
def okNat (x : Except Nat (List Byte)) : Except Nat Nat := x.map ofBytes

/-- The checks of R333, in order, on what the reading of a record gave. -/
def State.checkRead (s : State) (fn asid : Nat) (rec_ : Except Nat Nat) (q : Nat) : Except Rejected Accepted :=
  let ctx := s.asidContext fn asid q
  let key := match ctx with | .ok w => bits w 280 271 | .error _ => 0
  match rec_ with
  | .error c => .error { code := if c = cHeld then cHeld else 6, rec_ := none }
  | .ok r =>
    if !recFieldsOk r then .error { code := 1, rec_ := some r }
    else match s.chainOf fn (recLrcb r) q with
      | .error c => .error { code := if c = cHeld then cHeld else 3, rec_ := some r }
      | .ok chain =>
        let prio := effective 6 60 58 (s.rcbs chain)
        if bits (s.part fn 1) 63 61 < prio then .error { code := 7, rec_ := some r }
        else match ctx with
          | .error c => .error { code := if c = cHeld then cHeld else 4, rec_ := some r }
          | .ok w =>
            if !contextOk w then .error { code := 4, rec_ := some r }
            else match s.codeFor fn asid key q 512 (recCode r) with
              | .error (.unreadable c) => .error { code := if c = cHeld then cHeld else 6, rec_ := some r }
              | .error .bad => .error { code := 8, rec_ := some r }
              | .ok co =>
                if recRegs r ≠ co.regs ∨ recScr r ≠ co.scr then .error { code := 2, rec_ := some r }
                else if recDet r && !co.det then .error { code := 5, rec_ := some r }
                else .ok { rec_ := r, code := co, chain := chain, ctx := w, prio := prio }

/-- Read a record and check it. `host` says that it lies in host memory. -/
def State.checkRecord (s : State) (fn asid addr : Nat) (host : Bool) (q : Nat) : Except Rejected Accepted :=
  let key := match s.asidContext fn asid q with | .ok w => bits w 280 271 | .error _ => 0
  s.checkRead fn asid (if host then .ok (s.load (hostKey addr) 64) else okNat (s.readGlobal fn asid key q addr 64)) q

end Sys2Proof.Machine
end

