-- ==== Sys2Proof/Machine/Access.lean ====
section
/-! DEFINITION. The probe of an access and its start (R163 to R173, R192 to R194, R199, R312). -/

namespace Sys2Proof.Machine

/-! ## What an access asks -/

/-- One contiguous piece that an access addresses: `need` is 1 for R, 2 for W, 4 for A; `barrier` marks a barrier instruction, `hostOk` an atomic
that a host aperture carries (R322), and `read` a piece that the lane itself reads, not its engine. -/
structure Want where
  addr : Nat
  n : Nat
  need : Nat
  align : Nat
  barrier : Bool
  hostOk : Bool
  read : Bool
  deriving DecidableEq, Repr

def wantOf (addr n need : Nat) : Want := { addr := addr, n := n, need := need, align := n, barrier := false, hostOk := false, read := need != 2 }

/-- Width of a floating-point atomic in bytes (R205). -/
def aBytes : AFmt → Nat
  | .f32 => 4
  | .f16 | .bf16 => 2
def aFmt : AFmt → Fmt
  | .f32 => .f32
  | .f16 => .f16
  | .bf16 => .bf16

/-- What one lane addresses. -/
def wantsOf (a : Access) (r : LaneReq) : List Want :=
  match a with
  | .ld ty m _ _ _ => [wantOf r.addr (m * (mtyBits ty / 8)) 1]
  | .st ty m _ _ _ => [wantOf r.addr (m * (mtyBits ty / 8)) 2]
  | .sld ty m _ => [wantOf r.addr (m * (btyBits ty / 8)) 1]
  | .tmov k => [wantOf r.addr k 1, wantOf r.addr2 k 2]
  | .atom ty op _ _ => [{ wantOf r.addr (wtyBits ty / 8) 4 with hostOk := op == .add || op == .exch }]
  | .ared ty op _ _ => [{ wantOf r.addr (wtyBits ty / 8) 4 with hostOk := op == .add || op == .exch }]
  | .acas ty _ _ => [{ wantOf r.addr (btyBits ty / 8) 4 with hostOk := true }]
  | .atomf ty _ _ _ => [wantOf r.addr (aBytes ty) 4]
  | .bari _ _ _ => [{ wantOf r.addr 8 2 with barrier := true }]
  | .barv _ _ => [{ wantOf r.addr 8 2 with barrier := true }]
  | .bwait => [{ wantOf r.addr 8 1 with barrier := true }]
  | .btest _ => [{ wantOf r.addr 8 1 with barrier := true }]
  | .launch _ _ _ _ => [wantOf r.addr 64 1]
  | .engine _ _ _ => []

/-! ## The outcome of one piece (R172) -/

/-- A location, a code constant, a fault, or a translation to wait for. -/
inductive Got where
  | at (key : Nat)
  | const (off : Nat)
  | bad (cause : Nat)
  | miss (m : Miss)
  deriving DecidableEq, Repr

/-- The constants that an issuer reads (R166, R292). -/
def State.constsOf (s : State) (g : Group) : List Byte :=
  match g.handler with
  | some h => (s.codesAt h.code).consts
  | none => (s.codesAt g.code).consts

/-- The GVA of a private access (R165), or none where the owner has none there: a context has no workgroup, and so no block (log 32). DESIGN CHOICE: a sum of
2^56 or more wraps (log 46). -/
def State.privGva (s : State) (o : Owner) (lane off n : Nat) : Option Nat :=
  let pstr := bits o.ctx 319 304
  if pstr = 0 ∨ 64 * pstr < off + n then none
  else
    (s.wg o.id).map fun w => (bits o.ctx 383 328 + (w.blk.getD 0 * 4096 + (o.base + lane).toNat) * 64 * pstr + off) % 2 ^ 56

/-- Whether a write of a workgroup, where it is deterministic, lies in one of its ranges (R138). -/
def State.inRanges (s : State) (det : Bool) (o : Owner) (gva n : Nat) : Bool :=
  !det || (match s.wg o.id with
    | some w => w.wr.any fun r => decide (r.1 ≤ gva) && decide (gva + n ≤ r.1 + r.2)
    | none => false)

/-- The pieces of a span that is probed as one access: by page of its GVAs where it is translated, whole in a scratch (R171, R240). -/
def State.spanWants (s : State) (o : Owner) (lane a n need : Nat) : List Want :=
  let one := [{ wantOf a n need with align := 1, read := false }]
  let cut := fun (gva : Nat) => (List.range ((gva % 4096 + n + 4095) / 4096)).map fun k =>
    let lo := if k = 0 then 0 else 4096 * k - gva % 4096
    { wantOf ((a + lo) % 2 ^ 64) (min (4096 * (k + 1) - gva % 4096) n - lo) need with align := 1, read := false }
  match decodeWindow a with
  | some (.global g) => cut g
  | some (.priv off) => (match s.privGva o lane off n with
    | some g => cut g
    | none => one)
  | _ => one

/-- Whether the write of a span lies in one range of its workgroup, where that is needed (R138). -/
def State.spanRanged (s : State) (g : Group) (o : Owner) (a n : Nat) : Bool :=
  match decodeWindow a with
  | some (.global gva) => s.inRanges (bit g.status.toNat 0 && g.handler.isNone) o gva n
  | _ => true

/-- A location that a lane's own access reads must hold no uncorrectable error (R299). What its engine reads is the engine's to check (R241). -/
def State.sound (s : State) (t : Want) (x : Got) : Got :=
  match x with
  | .at k => if t.read && s.lineBad k t.n then .bad cUncorrectable else x
  | _ => x

/-- A global or private piece, through the RTB and the fills that have failed. -/
def State.globalGot (s : State) (w : Issuer) (g : Group) (faults : List FillFault) (o : Owner) (t : Want) (gva : Nat) (ranged : Bool) : Got :=
  match s.rtbFind (coreOf w) o.vf o.asid gva with
  | some e =>
    (match s.useEntry e gva t.need t.hostOk with
     | .error c => .bad c
     | .ok k => if ranged && t.need != 1 && !s.inRanges (bit g.status.toNat 0 && g.handler.isNone) o gva t.n then .bad cWriteRange else .at k)
  | none =>
    match faults.find? fun f => f.vf == o.vf && f.asid == o.asid && f.addr == gva && f.need == t.need with
    | some f => .bad f.cause
    | none => .miss { vf := o.vf, asid := o.asid, key := o.key, addr := gva, page := gva / 4096, need := t.need }

/-- One piece of a lane. -/
def State.got (s : State) (w : Issuer) (g : Group) (faults : List FillFault) (lane : Nat) (t : Want) : Got :=
  if t.addr % t.align ≠ 0 then .bad cMisaligned
  else
    match decodeWindow t.addr with
    | none => .bad cBadWindow
    | some pl =>
      if t.barrier && !pl.isScratch then .bad cBarrierFormat
      else
        let o := g.ownerOf lane
        match pl with
        | .const off =>
          if (s.constsOf g).length < off + t.n then .bad cXlatInvalid else if t.need ≠ 1 then .bad cXlatDenied else .const off
        | .priv off =>
          (match s.privGva o lane off t.n with
           | none => .bad cXlatInvalid
           | some gva => s.sound t (s.globalGot w g faults o t gva false))
        | .global gva => s.sound t (s.globalGot w g faults o t gva true)
        | _ =>
          match s.scratchAt w g o t.n pl with
          | .error c => .bad c
          | .ok k => .at k

/-- The outcome of a lane: its locations, a record to be read from a peer first, the translations it waits for, its fault, or that the instruction must wait and
be tried afresh. -/
inductive LaneGot where
  | ok (l : List Got)
  | fetch (addr key : Nat)
  | retry
  | wait (l : List Miss)
  | bad (f : LaneFault)
  deriving DecidableEq, Repr

/-- The fault of highest precedence among a lane's pieces. -/
def worst (lane : Nat) (l : List (Want × Got)) : Option LaneFault :=
  l.foldl (fun (b : Option LaneFault) p =>
    match p.2 with
    | .bad c =>
      (match b with
       | some f => if causeRank c < causeRank f.cause then some { lane := lane, cause := c, addr := p.1.addr } else b
       | none => some { lane := lane, cause := c, addr := p.1.addr })
    | _ => b) none

/-- A lane's own BARRIER_FORMAT at the probe: BARI's count (R207), or BARV's second word of an entry (R208). -/
def formatFault (g : Group) (r : MemReq) (q : LaneReq) : Bool :=
  match r.acc with
  | .bari _ _ _ => q.x % 4294967296 == 0 || decide (65535 < q.x % 4294967296)
  | .barv _ _ => r.lanes.any fun p => g.entOf p.lane == g.entOf q.lane && p.addr != q.addr
  | _ => false

/-- The outcome of some pieces of a lane: a fault that ranks before translation decides at once; otherwise every fill is awaited (R172). -/
def State.piecesGot (s : State) (w : Issuer) (g : Group) (faults : List FillFault) (lane : Nat) (fmt : Option Want) (ts : List Want) : LaneGot :=
  let l := ts.map fun t => (t, s.got w g faults lane t)
  let l := match fmt with
    | some t => (t, .bad cBarrierFormat) :: l
    | none => l
  let ms := l.filterMap fun p => match p.2 with | .miss m => some m | _ => none
  match worst lane l with
  | some f => if !ms.isEmpty && decide (causeRank cScratchBound < causeRank f.cause) then .wait ms else .bad f
  | none => if ms.isEmpty then .ok (l.map (·.2)) else .wait ms

/-! ## In-package paths (R315, R316) -/

/-- The I/O die, where the external ports and the collective unit are. -/
def ioDie : Nat := 4

/-- The die of a location's home: 4 is the I/O die, to which far memory, the host and the peers belong. -/
def homeDie (key : Nat) : Nat :=
  if key < 274877906944 then key / 68719476736
  else if key < 281474976710656 then 4
  else if key < 562949953421312 then (key - 281474976710656) / 33554432
  else if key < 1125899906842624 then (key - 562949953421312) / 2097152 / 128
  else if key < 2251799813685248 then (key - 1125899906842624) / 262144 / 512
  else 4

/-- Number of a pair of the five dies. -/
def pairIdx (a b : Nat) : Nat := let lo := min a b; lo * (9 - lo) / 2 + (max a b - lo - 1)

/-- The path, 2 · pair + 0 or 1, of the traffic between a die and a location's home on another (R315): by parity, or the sibling of one that is down; none for a
home on the same die. -/
def State.pathFor (s : State) (die key : Nat) : Option Nat :=
  if homeDie key = die then none
  else
    let base := 2 * pairIdx die (homeDie key)
    let n := base + popcount (key / 256) 8 % 2
    some (if s.pathsAt n = 256 then 2 * base + 1 - n else n)

/-- Whether both paths between a die and a location's home are down (R316). -/
def State.pairDown (s : State) (die key : Nat) : Bool :=
  homeDie key != die && (let n := 2 * pairIdx die (homeDie key); s.pathsAt n == 256 && s.pathsAt (n + 1) == 256)

/-- Whether no flit of the path is being sent again, or is lost, ahead of an access (R316). -/
def State.pathClear (s : State) (die key : Nat) : Bool := match s.pathFor die key with
  | some n => s.pathsAt n == 0
  | none => true

/-! ## Narrow scopes (R179 to R181, R184, R185) -/

/-- The workgroups of an agent. -/
def State.agentWgs (s : State) (w : Issuer) : List Nat :=
  match w with
  | .grp k _ => (List.range 16).filterMap fun e => let o := (s.groupsAt k).trueOwner e; if o.valid then some o.id else none
  | _ => []

/-- Whether the scope of an event of one agent includes another (R179, Table 9.2); an agent comes with its workgroups. An engine operation counts with the group
that started it. -/
def scopeHas (who : Issuer) (wgs : List Nat) (c : Scope) (other : Issuer) (wgs' : List Nat) : Bool :=
  sameAgent who other || (match c with
    | .wg => wgs'.any fun n => decide (n ∈ wgs)
    | .cl => clusterOf (coreOf who) == clusterOf (coreOf other)
    | .dev | .sys => true)

/-- Whether the scope of a pass includes an agent. -/
def Pass.includes (q : Pass) (who : Issuer) (wg : List Nat) : Bool := scopeHas q.who q.wg q.scope who wg

/-- Whether a pass conflicts with an access of n bytes by an agent that its scope includes; two reads do not conflict. -/
def Pass.meets (q : Pass) (who : Issuer) (wg : List Nat) (key n : Nat) (write : Bool) : Bool :=
  (write || q.wrote) && decide (key < q.key + q.n) && decide (q.key < key + n) && q.includes who wg

/-- Whether an agent must leave n bytes alone: an access of a scope that includes it has touched them ahead of an operation that ppo puts first and that has
not ended; `after` names the operations that order the agent's access anyway. -/
def State.reserved (s : State) (who : Issuer) (after : List Nat) (key n : Nat) (write : Bool) : Bool :=
  s.ops.any fun p => match p.2 with
    | some a => !decide (p.1 ∈ after) && a.passed.any fun q => q.meets who (s.agentWgs who) key n write
    | none => false

/-! ## Issue checks of engine instructions (R240, R241, R244, R245, R247, R255, R256, R327) -/

def LaneGot.andThen (x : LaneGot) (f : List Got → LaneGot) : LaneGot :=
  match x with
  | .ok l => f l
  | y => y

/-- A check that may fault. -/
def LaneGot.need (ok : Bool) (lane cause addr : Nat) (f : LaneGot) : LaneGot :=
  if ok then f else .bad { lane := lane, cause := cause, addr := addr }

def inScratch (a : Nat) : Bool := match decodeWindow a with
  | some pl => pl.isScratch
  | none => false

/-- The check of a barrier address (R244). -/
def LaneGot.needBar (bar : Option Nat) (lane : Nat) (f : LaneGot) : LaneGot :=
  match bar with
  | none => f
  | some a => .need (a % 8 == 0) lane cMisaligned a (.need (inScratch a) lane cBarrierFormat a f)

/-- A malformed layout record (R233). -/
def layoutBad (r : Nat) : Bool :=
  let nd := bits r 457 456
  let esz := 2 ^ bits r 449 448
  let ext := fun d => bits r (143 + 16 * d) (128 + 16 * d)
  let box := fun d => bits r (303 + 16 * d) (288 + 16 * d)
  let str := fun i => bits r (223 + 32 * i) (192 + 32 * i)
  let dtr := fun i => bits r (383 + 32 * i) (352 + 32 * i)
  bits r 511 458 != 0 || bits r 455 450 != 0 ||
    [0, 1, 2, 3].any (fun d => if d ≤ nd then ext d == 0 || box d == 0 else ext d != 0 || box d != 0) ||
    bits r 63 0 % esz != 0 || bits r 127 64 % esz != 0 || [0, 1, 2].any (fun i => str i % esz != 0 || dtr i % esz != 0) ||
    decide (2 ^ 24 < esz * ((List.range (nd + 1)).map box).foldl (· * ·) 1)

/-- The region that WLOAD names: QM, or the configured region of the issuing core (R244). -/
def State.wloadRegion (s : State) (core qm : Nat) : Nat := if qm = 0 then regionOf (s.fuse (clusterOf core)) (core % 4) else qm

/-- Whether a region is configured in a core's cluster and belongs to a function's partition (R212, R244). -/
def State.regionOk (s : State) (core vf m : Nat) : Bool :=
  let cl := clusterOf core
  m != 0 && regionOf (s.fuse cl) (leaderOf m) == m && (onesOf m 4).all fun k => quadOwner (s.clusterEntry cl) k == vf

/-- The ownership rule of R223: the group has one owner, which owns the region of the core. -/
def State.ownsRegion (s : State) (g : Group) (core : Nat) (o : Owner) : Bool :=
  let c := s.ctxsAt (s.leadCtx core)
  c.owned && c.vf == o.vf && c.asid == o.asid &&
    (List.range 16).all fun e => !(g.owner e).valid || ((g.owner e).vf == o.vf && (g.owner e).asid == o.asid)

/-- A collective descriptor that COLL refuses (R327), given its communicator entry. -/
def descBad (d comm vf : Nat) : Bool :=
  let n := bits comm 56 51 + 1
  let ty := bits d 319 314
  let float := decide (ty = 0x0C ∨ ty = 0x0D ∨ ty = 0x0E)
  bits d 310 64 != 0 || bits d 55 0 != 0 || bits d 63 56 != 0 || bits d 383 352 == 0 || decide (2 ^ 24 < bits d 383 352) ||
    !(float || decide (ty = 0x02 ∨ ty = 0x03 ∨ ty = 0x06 ∨ ty = 0x07)) || decide ((if float then 2 else 5) < bits d 313 311) ||
    (bits d 321 320 == 1 && bits d 383 352 % n != 0) || decide (n ≤ bits d 327 322) || !bit comm 63 || bits comm 62 57 != vf

/-- The record of 64 bytes that a lane's access has found: it stands in memory or among the constants, or has been read from a peer. -/
def State.recordAt (s : State) (g : Group) (data : Option Nat) (l : List Got) : Nat :=
  match data, l with
  | some r, _ => r
  | none, .at k :: _ => s.load k 64
  | none, .const off :: _ => ofBytes (((s.constsOf g).drop off).take 64)
  | none, _ => 0

/-- Communicator entry i (Table 19.3), held in the PF's window (log 15). -/
def State.comm (s : State) (i : Nat) : Nat := (s.reg 0 (4194304 + 0x19000 + 8 * i)).toNat
/-- Position i of the member list. -/
def State.member (s : State) (i : Nat) : Nat := (s.reg 0 (4194304 + 0x1A000 + 8 * i)).toNat % 1024

/-- Where a core-scratch destination lies, as a half-open interval of physical offsets (R194): from the leader's base. -/
def tileSpan (g : Group) (o : Owner) (a : Nat) (below above : Int) : Option (Nat × Nat) :=
  match decodeWindow a with
  | some (.core c off) =>
    if c = g.ocrd then
      let b := (if g.handler.isSome then (off : Int) else ((64 * o.sbase + off : Nat) : Int))
      some ((b + below).toNat, (b + above).toNat)
    else none
  | _ => none

/-- The lowest and highest byte of a tile against its first one (R234). -/
def tileExtent (r : Nat) : Int × Int :=
  let esz := 2 ^ bits r 449 448
  let nd := bits r 457 456
  let step := fun (d : Nat) => (((if d = 0 then (esz : Int) else sext (bits r (351 + 32 * d) (320 + 32 * d)) 32)))
  let l := (List.range (nd + 1)).map fun d => step d * ((bits r (303 + 16 * d) (288 + 16 * d) : Int) - 1)
  (l.foldl (fun x y => if y < 0 then x + y else x) 0, l.foldl (fun x y => if 0 < y then x + y else x) 0 + esz)

/-- The core-scratch interval that an engine operation writes (R194), given its record where it has one. -/
def EngKind.dest (k : EngKind) (g : Group) (o : Owner) (r : Nat) : Option (Nat × Nat) :=
  match k with
  | .tcopy _ _ _ => let x := tileExtent r; tileSpan g o (bits r 127 64) x.1 x.2
  | .gath d _ _ size count => tileSpan g o d 0 (size * count)
  | .drain fmt a _ rows stride => tileSpan g o a 0 ((rows - 1) * stride + drainRowLen fmt)
  | _ => none

/-- Bytes of a collective's result at this member, at most 2^24 elements from each of N = NM + 1 members, eight bytes each (R327): all-gather has those of every
member. -/
def collSpan (d comm : Nat) : Nat :=
  let w := if bits d 319 314 = 0x03 ∨ bits d 319 314 = 0x07 then 8 else if bits d 319 314 = 0x0D ∨ bits d 319 314 = 0x0E then 2 else 4
  let n := bits comm 56 51 + 1
  bits d 383 352 * w * (if bits d 321 320 = 2 then n else 1) / (if bits d 321 320 = 1 then n else 1)

/-- The core-scratch interval that counts for the inbound counter of a segment (R242): that of the range scoreboard, or of a collective's DST. -/
def EngKind.inbound (k : EngKind) (g : Group) (o : Owner) (r comm : Nat) : Option (Nat × Nat) :=
  match k with
  | .coll _ _ => tileSpan g o (bits r 447 384) 0 (collSpan r comm)
  | _ => k.dest g o r

/-- Class of an engine operation (Table 12.1). -/
def EngKind.cls : EngKind → EClass
  | .tcopy _ _ _ => .cpy
  | .gath _ _ _ _ _ => .gth
  | .wload _ _ _ _ => .wld
  | .feed _ _ _ _ _ => .fed
  | .drain _ _ _ _ _ => .drn
  | .coll _ _ => .col

/-- Whether an engine instruction finds its queue and its counter with room (R236, R240). -/
def State.engineRoom (s : State) (w : Issuer) (g : Group) (k : EngKind) : Bool :=
  let c := s.coresAt (coreOf w)
  decide (g.engCount (eclassNum k.cls) < 255) && (match k with
    | .feed _ _ _ _ _ => decide (c.feedQ.length < 16)
    | .drain _ _ _ _ _ => decide (c.drainQ.length < 16)
    | .coll _ _ => true
    | _ => decide (c.copyQ.length < 64))

/-- Whether a location of core scratch lies under an older copy of its group (R182: Range, R194). -/
def State.rangeAt (s : State) (w : Issuer) (key n : Nat) : Bool := match w with
  | .grp k _ =>
    let lo := key - coreKey (coreOfGrp k) 0
    decide (coreKey (coreOfGrp k) 0 ≤ key) && decide (lo < 262144) &&
      (s.coresAt (coreOfGrp k)).ranges.any fun e => e.grp == k && decide (e.lo < lo + n) && decide (lo < e.hi)
  | _ => false

/-- Whether a record may be read now: acquires that are go-before it have ended (R180), older accesses of its group to its granule have performed
(R186), no older copy covers it (R194), no access of a narrow scope bars it (R185), and its path is clear (R315). -/
def State.recordFree (s : State) (w : Issuer) (i : Nat) : List Got → Bool
  | .at k :: _ => (s.acquires w i false).isEmpty && s.pathClear (dieOf (coreOf w)) k && !s.rangeAt w k 64 && !s.reserved w [] k 64 false && !(s.agentOps w).any fun p => p.2.elems.any fun e => !e.done &&
      (if k < 281474976710656 then e.key / 256 == k / 256 else e.key / 8 * 8 < k + 64 && k < e.key / 8 * 8 + 8)
  | _ => true

/-- Whether a record lies over a pair of paths that are both down (R316). -/
def State.recordLost (s : State) (w : Issuer) : List Got → Bool
  | .at k :: _ => s.pairDown (dieOf (coreOf w)) k
  | _ => false

/-- Go on with a record at an address, once it can be read: one in a peer's memory is asked for (R157, R255, R318, R327), one that both paths have lost cannot be
read (R316). -/
def State.withRecord (s : State) (w : Issuer) (g : Group) (i lane a : Nat) (data : Option Nat) (l : List Got) (f : Nat → LaneGot) : LaneGot :=
  let away : Option Nat := match l with
    | .at k :: _ => if isPeer k then some k else none
    | _ => none
  match data, away with
  | none, some k => .fetch a k
  | none, none =>
    if s.recordLost w l then .bad { lane := lane, cause := cUncorrectable, addr := a }
    else if s.recordFree w i l then f (s.recordAt g none l) else .retry
  | some r, _ => f r

/-- What a started operation still needs: an entry of the range scoreboard for a core-scratch destination (R194), and room. -/
def State.engineReady (s : State) (w : Issuer) (g : Group) (k : EngKind) (o : Owner) (r : Nat) (l : List Got) : LaneGot :=
  if !s.engineRoom w g k || ((k.dest g o r).isSome && decide (32 ≤ (s.coresAt (coreOf w)).ranges.length)) then .retry else .ok l

/-- The pieces of GATH's index list and destination (R256). -/
def State.gathWants (s : State) (o : Owner) (lane : Nat) : EngKind → List Want
  | .gath d _ idx size count => s.spanWants o lane idx (4 * count) 1 ++ s.spanWants o lane d (count * size) 2
  | _ => []

/-- Those that the probe has still to find: a page that it has found needs its RTB entry no longer. -/
def State.gathLeft (s : State) (o : Owner) (lane : Nat) (k : EngKind) (passed : List (Nat × Nat)) : List Want :=
  (s.gathWants o lane k).filter fun t => !decide ((t.addr, t.need) ∈ passed)

/-- The issue checks of an engine instruction, in the order of its entry; `passed` names pages that its probe has found. -/
def State.engineGot (s : State) (w : Issuer) (g : Group) (faults : List FillFault) (passed : List (Nat × Nat)) (data : Option Nat) (i lane : Nat) (k : EngKind) (bar : Option Nat) : LaneGot :=
  let o := g.ownerOf lane
  let core := coreOf w
  let pieces := fun ts => s.piecesGot w g faults lane none ts
  match k with
  | .wload a _ qm _ =>
    .need (a % 64 == 0) lane cMisaligned a ((pieces [{ wantOf a 64 1 with read := false }]).andThen fun l =>
      .need (s.regionOk core o.vf (s.wloadRegion core qm)) lane cMixedFeed a (.needBar bar lane (s.engineReady w g k o 0 l)))
  | .feed fmt a rows _ stride =>
    .need (a % 4 == 0) lane cMisaligned a
      (.need (s.ownsRegion g core o && decide (core % 4 ∈ feedersOf (regionOf (s.fuse (clusterOf core)) (core % 4)))) lane cMixedFeed a
        (.need (bits a 63 56 == 0xFD) lane cBadWindow a
          ((pieces [{ wantOf a ((rows - 1) * stride + feedRowLen fmt) 1 with align := 1 }]).andThen fun l => s.engineReady w g k o 0 l)))
  | .drain fmt a row rows stride =>
    let run := match s.wg o.id with | some x => (x.accBase, x.acr) | none => (0, 0)
    .need (a % 4 == 0) lane cMisaligned a
      (.need (s.ownsRegion g core o) lane cMixedFeed a
        (.need (decide (row + rows ≤ 1024) && decide (run.1 ≤ row) && decide (row + rows ≤ run.1 + run.2)) lane cAccBound a
          (.need (bits a 63 56 == 0xFD) lane cBadWindow a
            ((pieces [{ wantOf a ((rows - 1) * stride + drainRowLen fmt) 2 with align := 1 }]).andThen fun l => s.engineReady w g k o 0 l))))
  | .tcopy a _ _ =>
    .need (a % 64 == 0) lane cMisaligned a ((pieces [wantOf a 64 1]).andThen fun l =>
      s.withRecord w g i lane a data l fun r =>
        .need (!layoutBad r) lane cLayoutRecord a (.needBar bar lane (s.engineReady w g k o r l)))
  | .gath d src idx size count =>
    .need (d % size == 0) lane cMisaligned d (.need (src % size == 0) lane cMisaligned src (.need (idx % 4 == 0) lane cMisaligned idx
      ((pieces (s.gathLeft o lane k passed)).andThen fun l =>
        .need (s.spanRanged g o d (count * size)) lane cWriteRange d (.needBar bar lane (s.engineReady w g k o 0 l)))))
  | .coll a _ =>
    .need (a % 64 == 0) lane cMisaligned a ((pieces [wantOf a 64 1]).andThen fun l =>
      s.withRecord w g i lane a data l fun d =>
        .need (!descBad d (s.comm (bits d 335 328)) o.vf) lane cLayoutRecord a (s.engineReady w g k o 0 l))

/-- The outcome of one lane. -/
def State.laneGot (s : State) (w : Issuer) (g : Group) (r : MemReq) (q : LaneReq) : LaneGot :=
  match r.acc with
  | .engine k bar _ => s.engineGot w g r.faults r.passed r.data (fragOf w) q.lane k bar
  | .launch _ arm _ _ =>
    (s.piecesGot w g r.faults q.lane none (wantsOf r.acc q)).andThen fun l =>
      if arm then .ok l
      else s.withRecord w g (fragOf w) q.lane q.addr r.data l fun x => match s.checkRead (g.ownerOf q.lane).vf (g.ownerOf q.lane).asid (.ok x) 0 with
        | .error e => if e.code = cHeld then .retry else .ok l
        | .ok _ => .ok l
  | _ => s.piecesGot w g r.faults q.lane (if formatFault g r q then some { wantOf q.addr 8 1 with align := 1 } else none) (wantsOf r.acc q)

/-! ## Starting an access -/

/-- The workgroups of the lanes of an access. -/
def Group.wgsOf (g : Group) (m : Nat) : List Nat := (g.entsOf m).map fun e => (g.owner e).id

/-- An operation of an access, with the orderings that hold it back (R180, R187, R206). -/
def Ex.memOp (x : Ex) (s : State) (kind : OpKind) (r : MemReq) (elems : List Elem) (outs : List Out) (acq rel writes read : Bool) : Op :=
  let before := if rel then s.goBefore x.w x.i else s.acquires x.w x.i writes
  { x.op kind outs elems with acq := acq, rel := rel, scope := r.scope, after := before, read := read, wg := x.g.wgsOf (r.act &&& x.f.mask) }

/-- One element. -/
def elemOf (lane idx gaddr key n reg val cmp : Nat) (got : Bool) : Elem :=
  { lane := lane, idx := idx, gaddr := gaddr, key := key, n := n, reg := reg, val := val, cmp := cmp, got := got, done := false, sent := false }

/-- The elements of a load or store of one lane: m elements of n bytes (R115). A constant's value is known at once. -/
def State.laneElems (s : State) (g : Group) (m n d step sreg : Nat) (q : LaneReq × List Got) : List Elem :=
  (List.range m).map fun i =>
    match q.2 with
    | .at k :: _ => elemOf q.1.lane i (q.1.addr + i * n) (k + i * n) n (d + i * step) 0 sreg false
    | .const off :: _ =>
      { elemOf q.1.lane i (q.1.addr + i * n) 0 n (d + i * step) (ofBytes (((s.constsOf g).drop (off + i * n)).take n)) sreg true with done := true }
    | _ => elemOf q.1.lane i q.1.addr 0 n d 0 sreg false

/-- The location of a lane's first and second piece. -/
def keyOf (l : List Got) : Nat := match l with | .at k :: _ => k | _ => 0
def key2Of (l : List Got) : Nat := match l with | _ :: .at k :: _ => k | _ => 0

/-- The v registers that a load fills in the lanes of an entry, or in one lane; `msk` names the lane whose elements they hold. -/
def loadOuts (lanes : List Nat) (src m n d : Nat) : List Out :=
  lanes.flatMap fun l => (List.range (m * regsOf (8 * n))).map fun i => { file := .v, reg := d + i, lane := l, val := 0, msk := src }

/-- The order of a read-modify-write as acquire and release. -/
def ordAcq : Ord4 → Bool
  | .acq | .ar => true
  | _ => false
def ordRel : Ord4 → Bool
  | .rel | .ar => true
  | _ => false

def srcReg : Src → Nat
  | .v r => r.val
  | .s r => r.val
/-- 1 for an s register. -/
def srcIsS : Src → Nat
  | .v _ => 0
  | .s _ => 1
/-- Registers from one element to the next (R115). -/
def srcStep (n : Nat) : Src → Nat
  | .v _ => regsOf (8 * n)
  | .s _ => 1

def readMode (fpctl : DWord) : Nat := fpctl.toNat % 4

/-- The value of a store's source register, for one element; 2 in `cmp` says that it was read at issue. -/
def Group.srcElem (g : Group) (e : Elem) : Nat :=
  if e.cmp = 2 then e.val
  else if e.cmp = 1 then (g.laneS e.reg e.lane).toNat % 2 ^ (8 * e.n)
  else if e.n = 8 then (g.readV e.reg e.lane).toNat + 4294967296 * (g.readV (e.reg + 1) e.lane).toNat
  else (g.readV e.reg e.lane).toNat % 2 ^ (8 * e.n)

/-- The m source elements of n bytes of lane l. -/
def srcElems (m n l : Nat) (data : Src) : List Elem :=
  (List.range m).map fun i => elemOf l i 0 0 n (srcReg data + i * srcStep n data) 0 (srcIsS data) false

/-- Whether a register of a source element has a fixed-latency result that is still to be readable. -/
def Pend.feeds (p : Pend) (e : Elem) : Bool :=
  p.outs.any fun o => if e.cmp = 1 then o.file == .s && o.reg == e.reg
    else o.file == .v && o.lane == e.lane && (o.reg == e.reg || (e.n == 8 && o.reg == e.reg + 1))

/-- What a store reads of its source at issue (R19): where it issues before a fixed-latency result of a source register is readable, the previous contents of the
lane's source registers, as 1 + 2 · the elements, 64 bits each; 0 where the registers are read later (R20). -/
def Ex.early (x : Ex) (m n l : Nat) (data : Src) : Nat :=
  let es := srcElems m n l data
  if es.any fun e => x.g.pend.any fun p => decide (x.cyc < p.ready) && p.feeds e then
    1 + 2 * es.foldl (fun v e => v + x.g.srcElem e * 2 ^ (64 * e.idx)) 0
  else 0

/-- An element whose source was read at issue. -/
def Elem.early (e : Elem) (x : Nat) : Elem := if x = 0 then e else { e with val := x / 2 / 2 ^ (64 * e.idx) % 2 ^ (8 * e.n), cmp := 2 }

/-- One RMW element for each lane. -/
def rmwElems (l : List (LaneReq × List Got)) (n d : Nat) (val cmp : LaneReq → Nat) : List Elem :=
  l.map fun q => elemOf q.1.lane 0 q.1.addr (keyOf q.2) n d (val q.1) (cmp q.1) false

/-- The result registers of a returning atomic. -/
def rmwOuts (l : List (LaneReq × List Got)) (n d : Nat) : List Out := l.flatMap fun q => loadOuts [q.1.lane] q.1.lane 1 n d

/-- The fragment stays at its instruction, in a hold (R132, R172). -/
def Ex.holdG (x : Ex) (h : Hold) : Group :=
  x.g.setFrag x.i { x.f with hold := h, holdSince := some (x.f.holdSince.getD x.cyc) }

/-- Check a launch record and put it into the device launch queue (R157): its status. -/
def Prog.launchNow (x : Ex) (q : LaneReq) (r d q0 : Nat) : Prog := Prog.on fun s =>
  let o := x.g.ownerOf q.lane
  let k := dieOf (coreOf x.w) * 64 + o.vf
  let st : Nat := match s.checkRead o.vf o.asid (.ok r) q0 with
    | .error _ => 1
    | .ok _ => if 32 ≤ (s.devqAt k).length then 3 else 0
  let rec_ : DevRec := { addr := q.addr, vf := o.vf, asid := o.asid, key := o.key, awn := o.awn, prio := o.prio, task := none, rec_ := some r,
                         after := s.goBefore x.w x.i }
  let rej : Prog := match s.checkRead o.vf o.asid (.ok r) q0 with
    | .error e => Prog.eventNow (dieOf (coreOf x.w)) 2 0xFFF o.vf o.asid 3 (match e.rec_ with | some r => recLanes r | none => 0) e.code
    | .ok _ => Prog.skip
  Prog.all [
    Prog.grp x.w (x.issued true),
    Prog.when (st = 0) (Prog.put (.devq k (s.devqAt k ++ [rec_]))),
    rej,
    Prog.newOp (x.op .result (vOut d q.lane 32 false st) [])]

/-- Dispatch a task (R136): the market is to take its record. -/
def Prog.dispatch (die t : Nat) : Prog := Prog.on fun s =>
  let k := die * 4096 + t
  let tk := s.tasksAt k
  Prog.seq (Prog.put (.tasks k { tk with tst := 2, cnt := 0 }))
    (Prog.put (.dispatched (s.dispatched ++
      [{ addr := tk.lrec, vf := tk.vf, asid := tk.asid, key := tk.key, awn := tk.awn, prio := tk.prio, task := some (die, t), rec_ := none, after := tk.after }])))

/-- A decrement of a task's counter (R136). -/
def Prog.decTask (die t vf : Nat) : Prog := Prog.on fun s =>
  let k := die * 4096 + t
  let tk := s.tasksAt k
  if tk.tst = 1 ∧ tk.vf = vf then
    (if tk.cnt ≤ 1 then Prog.dispatch die t else Prog.put (.tasks k { tk with cnt := tk.cnt - 1 }))
  else Prog.skip

/-- Arm a task (R157). -/
def Prog.launchArm (x : Ex) (q : LaneReq) (d task count : Nat) : Prog := Prog.on fun s =>
  let o := x.g.ownerOf q.lane
  let die := dieOf (coreOf x.w)
  let k := die * 4096 + task
  let free := (s.tasksAt k).tst == 0
  Prog.all [
    Prog.grp x.w (x.issued true),
    Prog.when free (Prog.seq
      (Prog.put (.tasks k { lrec := q.addr, tst := 1, vf := o.vf, asid := o.asid, awn := o.awn, key := o.key, prio := o.prio, cnt := count, after := s.goBefore x.w x.i }))
      (Prog.when (count = 0) (Prog.dispatch die task))),
    Prog.newOp (x.op .result (vOut d q.lane 32 false (if free then 0 else 2)) [])]

/-- An engine operation starts (R240): it adds 1 to its counter, takes its range-scoreboard entry (R194) and enters its queue; a slot covers the reading
of the source registers. -/
def Ex.startEngine (x : Ex) (q : LaneReq) (data : Option Nat) (l : List Got) (k : EngKind) (bar task : Option Nat) : Prog := Prog.on fun s =>
  let o := x.g.ownerOf q.lane
  let c := eclassNum k.cls
  let core := coreOf x.w
  let rc := s.recordAt x.g data l
  let k1 := match k with
    | .tcopy a _ cs => .tcopy a rc cs
    | .coll a _ => .coll a rc
    | .wload a sl qm ln => .wload a sl (s.wloadRegion core qm) ln
    | y => y
  let num := Tab.get (fun _ => 0) x.g.engNum c
  let id := s.nextId
  let grp := match x.w with | .grp n _ => n | _ => 0
  let e : EngOp := { cls := k.cls, num := num, grp := grp, ent := x.g.entOf q.lane, lane := q.lane, owner := o, core := core, ocrd := x.g.ocrd,
                     hnd := x.g.handler.isSome, det := bit x.g.status.toNat 0 && x.g.handler.isNone, pc := x.f.pc, kind := k1, bar := bar, task := task, since := s.cycle,
                     after := s.goBefore x.w x.i, taken := false, turn := 0, steps := 0, reads := [], early := [], sent := [], stale := false, dest := k1.inbound x.g o rc (s.comm (bits rc 335 328)),
                     bytes := 0, fail := none, done := false }
  let g1 := (x.issued true).setEng c (x.g.engCount c + 1)
  let g2 := { g1 with engNum := Tab.put (fun _ => 0) g1.engNum c (num + 1) }
  let cr := s.coresAt core
  let cr1 := match k1.dest x.g o rc with
    | some iv => { cr with ranges := cr.ranges ++ [{ grp := grp, lo := iv.1, hi := iv.2, op := id }] }
    | none => cr
  let cr2 := match k with
    | .feed _ _ _ _ _ => { cr1 with feedQ := cr1.feedQ ++ [id] }
    | .drain _ _ _ _ _ => { cr1 with drainQ := cr1.drainQ ++ [id] }
    | .coll _ _ => cr1
    | _ => { cr1 with copyQ := cr1.copyQ ++ [id] }
  Prog.all [
    Prog.grp x.w g2,
    fun _ => [.engs id (some e), .nextId (id + 1), .cores core cr2],
    Prog.when (x.h.sbs.val != 0) (Prog.newOp (x.op .operands [] []))]

/-- An access whose probe has ended: the instruction leaves the scheduler and its operation starts. -/
def Ex.start (x0 : Ex) (r : MemReq) (l : List (LaneReq × List Got)) : Prog := Prog.on fun s =>
  let x := { x0 with mem := true }
  let y := { x0 with mem := false }
  let go := fun (z : Ex) (o : Op) => Prog.seq (Prog.grp z.w (z.issued true)) (Prog.newOp o)
  match r.acc with
  | .ld ty m acq d shared =>
    let n := mtyBits ty / 8
    let es := l.flatMap (s.laneElems x.g m n d (regsOf (8 * n)) 0)
    let outs := l.flatMap fun q =>
      loadOuts (if shared then lanesOf ((x.g.owner (x.g.entOf q.1.lane)).lanes &&& r.act &&& x.f.mask) else [q.1.lane]) q.1.lane m n d
    go x (x.memOp s (.load (mtySigned ty)) r es outs acq false false true)
  | .st ty m rel data _ =>
    let n := mtyBits ty / 8
    go y (y.memOp s .store r (l.flatMap fun q => (s.laneElems y.g m n (srcReg data) (srcStep n data) (srcIsS data) q).map (·.early q.1.x)) [] false rel true false)
  | .sld ty m d =>
    let n := btyBits ty / 8
    let es := l.flatMap (s.laneElems x.g m n d 1 0)
    let outs := (List.range m).map fun i => { file := .s, reg := d + i, lane := 0, val := 0, msk := (l.map (·.1.lane)).headD 0 }
    go x (x.memOp s (.load false) r es outs false false false true)
  | .tmov k =>
    let es := l.flatMap fun q => (List.range (k / 8)).map fun j =>
      match q.2 with
      | .const off :: _ =>
        elemOf q.1.lane j (q.1.addr2 + 8 * j) (key2Of q.2 + 8 * j) 8 0 (ofBytes (((s.constsOf x.g).drop (off + 8 * j)).take 8)) 0 true
      | _ => elemOf q.1.lane j (q.1.addr2 + 8 * j) (key2Of q.2 + 8 * j) 8 0 0 (keyOf q.2 + 8 * j) false
    go x (x.memOp s .tmov r es [] false false true true)
  | .atom ty op ord d =>
    let n := wtyBits ty / 8
    go x (x.memOp s (.rmw ty op) r (rmwElems l n d (·.x) (fun _ => 0)) (rmwOuts l n d) (ordAcq ord) (ordRel ord) true true)
  | .ared ty op rel data =>
    go x (x.memOp s (.rmw ty op) r (l.flatMap fun q => (rmwElems [q] (wtyBits ty / 8) (srcReg data) (fun _ => 0) (fun _ => srcIsS data)).map (·.early q.1.x)) [] false rel
      true false)
  | .acas ty ord d =>
    let n := btyBits ty / 8
    go x (x.memOp s .cas r (rmwElems l n d (·.y) (·.x)) (rmwOuts l n d) (ordAcq ord) (ordRel ord) true true)
  | .atomf ty op ord d =>
    let n := aBytes ty
    go x (x.memOp s (.rmwf ty op ((l.map (·.1.y)).headD 0)) r (rmwElems l n d (·.x) (fun _ => 0)) (rmwOuts l n d) (ordAcq ord) (ordRel ord) true true)
  | .bari bytes rel _ =>
    let word := fun (q : LaneReq) => (if bytes then 2 ^ 62 else 0) + q.x % 65536 * 2 ^ 46
    let es := l.map fun q => elemOf q.1.lane 0 q.1.addr (keyOf q.2) 8 0 (word q.1) 0 true
    go y (y.memOp s .store r es [] false rel true false)
  | .barv mode _ =>
    let firsts := l.filter fun q => !l.any fun p => x.g.entOf p.1.lane == x.g.entOf q.1.lane && decide (p.1.lane < q.1.lane)
    let es := firsts.map fun q => elemOf q.1.lane (x.g.entOf q.1.lane) q.1.addr (keyOf q.2) 8 0 0 0 false
    let o := x.memOp s (.arrive mode) r es [] false true true true
    Prog.seq (Prog.grp x.w (x.holdG (.barv s.nextId r))) (Prog.newOp { o with slot := 0 })
  | .bwait => Prog.grp x.w (x.holdG (.bwait { r with lanes := l.map fun q => { q.1 with addr2 := keyOf q.2 } }))
  | .btest _ => Prog.grp x.w (x.holdG (.btest { r with lanes := l.map fun q => { q.1 with addr2 := keyOf q.2 } }))
  | .launch d arm task count =>
    match l with
    | q :: _ =>
      if arm then Prog.launchArm y q.1 d task count
      else Prog.free (2 ^ 64) fun q0 => Prog.launchNow y q.1 (s.recordAt y.g r.data q.2) d q0
    | [] => Prog.skip
  | .engine k bar task =>
    match l with
    | q :: _ => y.startEngine q.1 r.data q.2 k bar task
    | [] => Prog.skip

/-- Whether some lane's instruction must be tried afresh. -/
def anyRetry (l : List (LaneReq × LaneGot)) : Bool := l.any fun p => p.2 == .retry

/-- Whether an access meets an entry of the range scoreboard of its group (R194). -/
def State.rangeHeld (s : State) (w : Issuer) (g : Group) (acc : Access) (lanes : List LaneReq) : Bool :=
  match w with
  | .grp k _ =>
    let core := coreOfGrp k
    let rs := (s.coresAt core).ranges.filter fun e => e.grp == k
    !rs.isEmpty && lanes.any fun q => (wantsOf acc q).any fun t =>
      match decodeWindow t.addr with
      | some (.core c off) =>
        (match s.scratchAt w g (g.ownerOf q.lane) t.n (.core c off) with
         | .ok key =>
           let o := key - coreKey core 0
           rs.any fun e => decide (e.lo < o + t.n) && decide (o < e.hi)
         | .error _ => false)
      | _ => false
  | _ => false

/-- The reading of a record in a peer's memory, as a load of the leader (R157, R255, R327). -/
def Ex.fetchOp (x : Ex) (s : State) (r : MemReq) (a k : Nat) : Op :=
  let lane := match r.lanes with | q :: _ => q.lane | [] => 0
  { x.op .fetch [] ((List.range 8).map fun j => elemOf lane j (a + 8 * j) (k + 8 * j) 8 0 0 0 false) with
    slot := 0, read := true, scope := r.scope, after := s.acquires x.w x.i false, wg := x.g.wgsOf (2 ^ lane) }

/-- The lanes of a request that are still there (R352). SLD's address is the group's. -/
def MemReq.left (r : MemReq) (mask : Nat) : MemReq :=
  { r with lanes := match r.acc with
      | .sld _ _ _ => r.lanes.map fun q => { q with lane := lowest mask }
      | _ => r.lanes.filter fun q => bit mask q.lane }

/-- The pages that the probe of GATH has found. -/
def State.pagesGot (s : State) (w : Issuer) (g : Group) (r : MemReq) : List (Nat × Nat) := match r.acc with
  | .engine k _ _ => r.lanes.flatMap fun q => ((s.gathLeft (g.ownerOf q.lane) q.lane k r.passed).filter fun t => match s.got w g r.faults q.lane t with
    | .at _ => true
    | _ => false).map fun t => (t.addr, t.need)
  | _ => []

/-- The probe in the hold for its misses; GATH's pages are filled one after the other, so that they need no more of the RTB than one entry. -/
def State.awaiting (s : State) (w : Issuer) (g : Group) (r : MemReq) (misses : List Miss) : MemReq := match r.acc with
  | .engine _ _ _ => { r with missing := misses.take 1, passed := r.passed ++ s.pagesGot w g r }
  | _ => { r with missing := misses.eraseDups }

/-- Take the probe of an access (R172, R173): wait for its fills, or park the entries with faulting lanes and carry out the rest. A fault of SLD is
one of every lane. An instruction that has been selected stays held while something else keeps it back (R133, R194). DESIGN CHOICE: where LAUNCH's leader
faults, no other lane takes its place (log 46). -/
def Ex.probe (x : Ex) (r0 : MemReq) : Prog := Prog.on fun s =>
  let r := r0.left x.f.mask
  let outs := r.lanes.map fun q => (q, s.laneGot x.w x.g r q)
  let misses := outs.flatMap fun p => match p.2 with | .wait l => l | _ => []
  let oks := outs.filterMap fun p => match p.2 with | .ok l => some (p.1, l) | _ => none
  let away := outs.findSome? fun p => match p.2 with | .fetch a k => some (a, k) | _ => none
  let bad1 : List LaneFault := outs.filterMap fun p => match p.2 with | .bad f => some f | _ => none
  let bads : List LaneFault := match r.acc with
    | .sld _ _ _ => bad1.flatMap fun f => (lanesOf x.f.mask).map fun l => { f with lane := l }
    | _ => bad1
  let held := match ((s.grp x.w).frag x.i).hold with | .probe _ => true | _ => false
  if r.lanes.isEmpty then x.plain false
  else if anyRetry outs || (held && s.rangeHeld x.w x.g r.acc r.lanes) then
    Prog.grp x.w (if held then x.holdG (.probe { r with missing := [] }) else x.g.setFrag x.i { x.f with holdSince := some (x.f.holdSince.getD x.cyc) })
  else if !misses.isEmpty then Prog.grp x.w (x.holdG (.probe (s.awaiting x.w x.g r misses)))
  else match away with
  | some (a, k) => Prog.seq (Prog.grp x.w (x.holdG (.probe { r with missing := [], op := some s.nextId }))) (Prog.newOp (x.fetchOp s r a k))
  | none =>
    if bads.isEmpty then x.start r oks
    else
      Prog.fault x.w x.counted.g r.act 0 bads (Prog.on fun t =>
        let y := x.again t
        let rest := oks.filter fun q => bit y.f.mask q.1.lane
        if rest.isEmpty then y.plain false else y.start { r with lanes := rest.map (·.1) } rest)

/-- Whether FENCE.acq or FENCE.ar keeps a fragment's next access from issuing: a read that is go-before the fence has not taken its value (R206). -/
def State.fenceHeld (s : State) (w : Issuer) (i : Nat) : Bool :=
  (s.agentOps w).any fun p => decide (i ∈ p.2.heirs) && (match p.2.kind with
    | .fence .rel => false
    | .fence _ => p.2.after.any fun j => match s.opsAt j with
      | some a => (match a.kind with | .store | .result | .operands | .fence _ | .signal _ _ _ _ => false | _ => a.elems.any (!·.got))
      | none => false
    | _ => false)

/-- Issue an access: held before issue by the range scoreboard (R194) and by a fence (R206), without effect where no lane takes part (R16), otherwise
probed. -/
def Ex.access (x : Ex) (acc : Access) (scope : Scope) (act : Nat) (lanes : List LaneReq) : Prog := Prog.on fun s =>
  if lanes.isEmpty then x.plain false
  else if s.rangeHeld x.w x.g acc lanes || s.fenceHeld x.w x.i then Prog.skip
  else x.probe { acc := acc, scope := scope, hdr := x.h, act := act, lanes := lanes, missing := [], faults := [], op := none, data := none, passed := [] }

end Sys2Proof.Machine
end

