-- ==== Sys2Proof/Machine/Memory.lean ====
section
/-! DEFINITION. LD, ST, SLD, and the memory, atomic and barrier instructions (R114, R115, R191 to R210), LAUNCH (R157). -/

namespace Sys2Proof.Machine

/-! ## Addresses -/

/-- The address of lane l (R56, R114). -/
def Group.addrOf (g : Group) (l : Nat) : MAddr → Nat
  | .reg b off => (g.srcVal l 64 b + immVal 64 false off) % 2 ^ 64
  | .const off => (0xF9 * 2 ^ 56 + immVal 64 false off) % 2 ^ 64

def maddrFoot (m : Nat) : MAddr → List Foot
  | .reg b _ => srcFoot 64 m b
  | .const _ => []

def nregNum : NReg → Nat := nregCount

/-- One request of each lane of a mask. -/
def Ex.reqs (_ : Ex) (m : Nat) (f : Nat → LaneReq) : List LaneReq := (lanesOf m).map f

def laneReq (l addr addr2 x y : Nat) : LaneReq := { lane := l, addr := addr, addr2 := addr2, x := x, y := y }

/-- The leaders of R199: the lowest active lane of each entry. -/
def Ex.leaders (x : Ex) : Nat := maskWhere fun l => bit x.act l && lowest ((x.g.owner (x.g.entOf l)).lanes &&& x.act) == l

/-- Footprints of m elements of n bits from a register. -/
def dataFoot (m n mask : Nat) : Src → List Foot
  | .v r => (List.range m).flatMap fun i => vFoot (r.val + i * regsOf n) n mask
  | .s r => (List.range m).flatMap fun i => sFoot (r.val + i)

/-- A lane access: the checks, then the probe. -/
def laneAccess (h : Hdr) (s : State) (ctx : Bool) (feet : Nat → List Foot) (acc : Access) (scope : Scope) (reqs : Ex → List LaneReq) :
    Host.Outcome State Fault Refusal :=
  issue h 16 s fun x => x.only true ctx (x.check (x.guardP :: feet x.f.mask) false (x.access acc scope x.act (reqs x)))

/-! ## Loads and stores -/

/-- LD (R114, R115). -/
def execLd (h : Hdr) (ty : MTy) (n : NReg) (acq : Bool) (scope : Scope) (d : VReg) (m : MAddr) (s : State) :
    Host.Outcome State Fault Refusal :=
  laneAccess h s false (fun k => dataFoot (nregNum n) (mtyBits ty) k (.v d) ++ maddrFoot k m) (.ld ty (nregNum n) acq d.val false) scope
    fun x => x.reqs x.act fun l => laneReq l (x.g.addrOf l m) 0 0 0

/-- ST (R114, R115). -/
def execSt (h : Hdr) (ty : MTy) (n : NReg) (rel : Bool) (scope : Scope) (m : MAddr) (data : Src) (s : State) :
    Host.Outcome State Fault Refusal :=
  laneAccess h s false (fun k => dataFoot (nregNum n) (mtyBits ty) k data ++ maddrFoot k m) (.st ty (nregNum n) rel data false) scope
    fun x => x.reqs x.act fun l => laneReq l (x.g.addrOf l m) 0 (x.early (nregNum n) (mtyBits ty / 8) l data) 0

/-- LDAQ (R199): once for each entry, by its leader. -/
def execLdaq (h : Hdr) (ty : MTy) (n : NReg) (acq : Bool) (scope : Scope) (d : VReg) (m : MAddr) (s : State) :
    Host.Outcome State Fault Refusal :=
  laneAccess h s false (fun k => dataFoot (nregNum n) (mtyBits ty) k (.v d) ++ maddrFoot k m) (.ld ty (nregNum n) acq d.val true) scope
    fun x => x.reqs x.leaders fun l => laneReq l (x.g.addrOf l m) 0 0 0

/-- STRL (R199). -/
def execStrl (h : Hdr) (ty : MTy) (n : NReg) (rel : Bool) (scope : Scope) (m : MAddr) (data : Src) (s : State) :
    Host.Outcome State Fault Refusal :=
  laneAccess h s false (fun k => dataFoot (nregNum n) (mtyBits ty) k data ++ maddrFoot k m) (.st ty (nregNum n) rel data true) scope
    fun x => x.reqs x.leaders fun l => laneReq l (x.g.addrOf l m) 0 (x.early (nregNum n) (mtyBits ty / 8) l data) 0

/-- SLD (R110): the group's one address, under its sole owner. -/
def execSld (h : Hdr) (ty : BTy) (n : NReg) (scope : Scope) (d : SReg) (m : MAddr) (s : State) : Host.Outcome State Fault Refusal :=
  let k := nregNum n
  issue h 16 s fun x => x.only true true
    (x.check (x.guardQ :: (((List.range k).flatMap fun i => sFoot (d.val + i)) ++ maddrFoot 0xFFFF m)) (h.gp.val != 0)
      (let a := x.g.addrOf (lowest x.f.mask) m
       if x.actQ = 0 then x.plain false
       else if 1 < x.g.entCount ∧ bits a 63 56 ≠ 0xF9 then x.counted.faultAll cUniformity 0 0
       else x.access (.sld ty k d.val) scope x.f.mask [laneReq (lowest x.f.mask) a 0 0 0]))

/-- TMOV (R200). -/
def execTmov (h : Hdr) (n : NReg) (src : MAddr) (dst : Base) (s : State) : Host.Outcome State Fault Refusal :=
  laneAccess h s false (fun k => maddrFoot k src ++ srcFoot 64 k dst) (.tmov (16 * nregNum n)) .wg
    fun x => x.reqs x.act fun l => laneReq l (x.g.addrOf l src) (x.g.srcVal l 64 dst) 0 0

/-! ## Scratch pointers -/

/-- Whether an address decodes to a window. -/
def Place.inWin : Place → Win → Bool
  | .core _ _, .core => true
  | .cluster _ _, .cluster => true
  | .die _ _, .die => true
  | _, _ => false

/-- SPTST (R201). -/
def execSptst (h : Hdr) (win : Win) (d : PReg) (b : Base) (off : BitVec 32) (s : State) : Host.Outcome State Fault Refusal :=
  issue h 16 s fun x => x.only true false
    (x.check (x.guardP :: (pFoot d.val x.f.mask ++ srcFoot 64 x.f.mask b)) false (Prog.on fun st =>
      x.variable (x.issued (x.act != 0)) ((lanesOf x.act).flatMap fun l =>
        pOut d.val l (match decodeWindow (x.g.addrOf l (.reg b off)) with
          | some pl => pl.inWin win && (match st.scratchAt x.w x.g (x.g.ownerOf l) 1 pl with | .ok _ => true | .error _ => false)
          | none => false))))

/-- The offset field of a scratch place. -/
def Place.offset : Place → Nat
  | .core _ o | .cluster _ o | .die _ o | .const o | .priv o => o
  | .global g => g

/-- SPCST's result for an address (R202). -/
def spcstVal (win : Win) (toOff : Bool) (core o : Nat) : Nat :=
  if toOff then
    (match decodeWindow o with
     | some pl => if pl.inWin win then pl.offset else 2 ^ 64 - 1
     | none => 2 ^ 64 - 1)
  else
    match win with
    | .core => if o < 262144 then 0xFD * 2 ^ 56 + core * 2 ^ 45 + o else 0
    | .cluster => if o < 2097152 then 0xFC * 2 ^ 56 + clusterOf core * 2 ^ 47 + o else 0
    | .die => if o < 33554432 then 0xFB * 2 ^ 56 + dieOf core * 2 ^ 54 + o else 0

/-- SPCST (R202). -/
def execSpcst (h : Hdr) (win : Win) (toOff : Bool) (d : VReg) (b : Base) (off : BitVec 32) (s : State) : Host.Outcome State Fault Refusal :=
  issue h 16 s fun x => x.only true false
    (x.check (x.guardP :: (vFoot d.val 64 x.f.mask ++ srcFoot 64 x.f.mask b)) false
      (x.variable (x.issued (x.act != 0)) ((lanesOf x.act).flatMap fun l =>
        vOut d.val l 64 false (spcstVal win toOff x.g.ocrd (x.g.addrOf l (.reg b off))))))

/-! ## Atomics -/

/-- ATOM (R203). -/
def execAtom (h : Hdr) (ty : WTy) (op : AtomOp) (ord : Ord4) (scope : Scope) (d : VReg) (b : Base) (off : BitVec 32) (data : Src) (s : State) :
    Host.Outcome State Fault Refusal :=
  let n := wtyBits ty
  laneAccess h s false (fun k => vFoot d.val n k ++ srcFoot 64 k b ++ srcFoot n k data) (.atom ty op ord d.val) scope
    fun x => x.reqs x.act fun l => laneReq l (x.g.addrOf l (.reg b off)) 0 (x.g.srcVal l n data) 0

/-- ARED (R203). -/
def execAred (h : Hdr) (ty : WTy) (op : AtomOp) (rel : Bool) (scope : Scope) (b : Base) (off : BitVec 32) (data : Src) (s : State) :
    Host.Outcome State Fault Refusal :=
  laneAccess h s false (fun k => srcFoot 64 k b ++ srcFoot (wtyBits ty) k data) (.ared ty op rel data) scope
    fun x => x.reqs x.act fun l => laneReq l (x.g.addrOf l (.reg b off)) 0 (x.early 1 (wtyBits ty / 8) l data) 0

/-- ACAS (R204). -/
def execAcas (h : Hdr) (ty : BTy) (ord : Ord4) (scope : Scope) (d : VReg) (b : Base) (off : BitVec 32) (cmp new : Src) (s : State) :
    Host.Outcome State Fault Refusal :=
  let n := btyBits ty
  laneAccess h s false (fun k => vFoot d.val n k ++ srcFoot 64 k b ++ srcFoot n k cmp ++ srcFoot n k new) (.acas ty ord d.val) scope
    fun x => x.reqs x.act fun l => laneReq l (x.g.addrOf l (.reg b off)) 0 (x.g.srcVal l n cmp) (x.g.srcVal l n new)

/-- ATOMF (R205), with the rounding mode of its issue. -/
def execAtomf (h : Hdr) (ty : AFmt) (op : AtomFOp) (ord : Ord4) (scope : Scope) (d : VReg) (b : Base) (off : BitVec 32) (data : Src)
    (s : State) : Host.Outcome State Fault Refusal :=
  laneAccess h s false (fun k => vFoot d.val 32 k ++ srcFoot 64 k b ++ srcFoot 32 k data ++ if op = .add then ctlFoot .fpctl else []) (.atomf ty op ord d.val) scope
    fun x => x.reqs x.act fun l => laneReq l (x.g.addrOf l (.reg b off)) 0 (x.g.srcVal l (8 * aBytes ty) data) (readMode x.g.fpctl)

/-! ## Fences and barriers -/

/-- What a fence waits for (R180, R206): reads for .acq, everything go-before it otherwise. -/
def State.fenceAfter (s : State) (w : Issuer) (i : Nat) (ord : FenceOrd) : List Nat :=
  match ord with
  | .acq => ((s.agentOps w).filter fun p => decide (i ∈ p.2.heirs) && (match p.2.kind with
      | .load _ | .rmw _ _ | .cas | .rmwf _ _ _ | .tmov | .fetch => true
      | _ => false)).map (·.1)
  | _ => s.goBefore w i

/-- FENCE (R206): its event completes once what it waits for has performed. -/
def execFence (h : Hdr) (ord : FenceOrd) (scope : Scope) (s : State) : Host.Outcome State Fault Refusal :=
  issue h 16 s fun x => x.only true true
    (x.check [x.guardP] false
      (if x.act = 0 then x.plain false
       else Prog.on fun st => Prog.seq (x.plain true)
        (Prog.newOp { x.op (.fence ord) [] [] with slot := 0, scope := scope, after := st.fenceAfter x.w x.i ord, read := true,
                                                   wg := x.g.wgsOf x.act })))

/-- BARI (R207). -/
def execBari (h : Hdr) (bytes rel : Bool) (scope : Scope) (b : Base) (off : BitVec 32) (data : Src) (s : State) :
    Host.Outcome State Fault Refusal :=
  laneAccess h s true (fun k => srcFoot 64 k b ++ srcFoot 32 k data) (.bari bytes rel data) scope
    fun x => x.reqs x.act fun l => laneReq l (x.g.addrOf l (.reg b off)) 0 (x.g.srcVal l 32 data) 0

/-- BARV (R208): one arrival for each entry; the fragment is held until every arrival has returned. -/
def execBarv (h : Hdr) (mode : BarMode) (scope : Scope) (d : VReg) (b : Base) (off : BitVec 32) (s : State) :
    Host.Outcome State Fault Refusal :=
  laneAccess h s true (fun k => vFoot d.val 32 k ++ srcFoot 64 k b) (.barv mode d.val) scope
    fun x => x.reqs x.act fun l => laneReq l (x.g.addrOf l (.reg b off)) 0 0 0

/-- BWAIT (R209): the fragment is held until every word it addresses has changed phase. -/
def execBwait (h : Hdr) (scope : Scope) (b : Base) (off : BitVec 32) (data : Src) (s : State) : Host.Outcome State Fault Refusal :=
  laneAccess h s true (fun k => srcFoot 64 k b ++ srcFoot 32 k data) .bwait scope
    fun x => x.reqs x.act fun l => laneReq l (x.g.addrOf l (.reg b off)) 0 (x.g.srcVal l 32 data % 2) 0

/-- BTEST (R210). -/
def execBtest (h : Hdr) (scope : Scope) (d : PReg) (b : Base) (off : BitVec 32) (data : Src) (s : State) : Host.Outcome State Fault Refusal :=
  laneAccess h s true (fun k => pFoot d.val k ++ srcFoot 64 k b ++ srcFoot 32 k data) (.btest d.val) scope
    fun x => x.reqs x.act fun l => laneReq l (x.g.addrOf l (.reg b off)) 0 (x.g.srcVal l 32 data % 2) 0

/-! ## Device-side launch -/

/-- The leader of R57: the lowest active lane in which pLP is true. -/
def Ex.leader (x : Ex) (lp : PReg) : Option Nat := (lanesOf x.act).find? fun l => x.g.readP lp.val l

/-- LAUNCH.now (R157). -/
def execLaunchNow (h : Hdr) (d : VReg) (a : Base) (lp : PReg) (s : State) : Host.Outcome State Fault Refusal :=
  issue h 16 s fun x => x.only true false
    (x.check (x.guardP :: (vFoot d.val 32 x.f.mask ++ srcFoot 64 x.f.mask a ++ pFoot lp.val x.f.mask)) false
      (match x.leader lp with
       | none => x.plain (x.act != 0)
       | some l => x.access (.launch d.val false 0 0) .dev x.act [laneReq l (x.g.srcVal l 64 a) 0 0 0]))

/-- LAUNCH.arm (R157): the task is B⟨11:0⟩ of the leader. -/
def execLaunchArm (h : Hdr) (d : VReg) (a : Base) (b : Src) (count : BitVec 16) (lp : PReg) (s : State) : Host.Outcome State Fault Refusal :=
  issue h 16 s fun x => x.only true false
    (x.check (x.guardP :: (vFoot d.val 32 x.f.mask ++ srcFoot 64 x.f.mask a ++ srcFoot 32 x.f.mask b ++ pFoot lp.val x.f.mask)) false
      (match x.leader lp with
       | none => x.plain (x.act != 0)
       | some l =>
         x.access (.launch d.val true (x.g.srcVal l 32 b % 4096) count.toNat) .dev x.act [laneReq l (x.g.srcVal l 64 a) 0 0 0]))

end Sys2Proof.Machine
end

