-- ==== Sys2Proof/Machine/Perform.lean ====
section
/-! DEFINITION. What outstanding operations do when they perform (R20 to R22, R186 to R190, R193, R196, R298, R299, R319 to R322): the events from
RESULT_WRITEBACK to BTEST_RETURN, and TRANSLATION_FILL (R172). -/

namespace Sys2Proof.Machine

/-! ## Peer links -/

/-- The greatest count of flits that a key seals (R323). A packet that meets it is not sealed before the next key is installed. -/
def fctrEnd : Nat := 140737488355327

/-- Bytes that one external flit carries (Table 19.2), and a packet at most, of 16 of them (R317). -/
def flitBytes : Nat := 232
def packetBytes : Nat := 3712

/-- Hand a packet of `len` bytes to a peer link (R317, R320, R323): it takes as many flits as its bytes fill (log 51). One that would pass the end of the count is not
sealed. Markers carry the pair's current sequence number (R321). -/
def Prog.peerSend (peer : Nat) (kind : PackKind) (len : Nat) : Prog := Prog.on fun s =>
  let p := s.peersAt peer
  let marker := match kind with | .marker _ _ => true | _ => false
  let n := max 1 (ceilDiv len flitBytes)
  let sealed := decide (p.fctr + n ≤ fctrEnd)
  Prog.put (.peers peer { p with
    seq := if marker then p.seq else (p.seq + 1) % 4294967296, fctr := if sealed then p.fctr + n else fctrEnd,
    progress := if p.out.isEmpty && p.waiting.isEmpty then s.time else p.progress,
    out := p.out ++ [{ seq := p.seq, kind := kind, kg := p.kg, fctr := if sealed then p.fctr else fctrEnd, flits := n, tries := 0, sentAt := s.time }] })

/-- The parts of a payload that a packet each carries: at least one. -/
def partsOf (len : Nat) : Nat := max 1 (ceilDiv len packetBytes)

/-- A payload is handed to a link in as many packets as it needs. -/
def Prog.peerParts (peer len : Nat) (kind : Nat → PackKind) : Prog :=
  Prog.each (fun i => Prog.peerSend peer (kind i) (min packetBytes (len - packetBytes * i))) (List.range (partsOf len))

/-- A group has written to a peer (R321). -/
def Group.wroteTo (g : Group) (peer : Nat) : Group := { g with peersW := if peer ∈ g.peersW then g.peersW else g.peersW ++ [peer] }

/-! ## When an element may perform -/

/-- The granule of a location: 256 bytes of memory (R186), 8 bytes of a scratch (R162). -/
def granule (key : Nat) : Nat := if key < 281474976710656 ∨ 18446744073709551616 ≤ key then key / 256 * 256 else key / 8 * 8

/-- Whether an operation still has an element to carry out in a granule; TMOV's sources count with its destinations. -/
def Op.touches (o : Op) (gran : Nat) : Bool :=
  o.elems.any fun e => !e.done && (granule e.key == gran || (o.kind == .tmov && !e.got && granule e.cmp == gran))

/-- Whether an operation that another waits for still holds it back (R180, R187, R206): FENCE.acq waits only for values to be taken, and FENCE.rel orders TMOV's
writes but not its reads. -/
def State.holdsBack (s : State) (o : Op) (reading : Bool) (j : Nat) : Bool :=
  match s.opsAt j with
  | none => false
  | some a => match o.kind, a.kind with
    | .fence .acq, _ => a.elems.any (!·.got)
    | .tmov, .fence .rel => !reading
    | _, _ => true

/-- Nothing that an operation waits for holds it back. -/
def State.afterOk (s : State) (o : Op) : Bool := o.after.all fun i => !s.holdsBack o false i

/-- No older access of the same agent is left in the granule (R186), and its path is clear. -/
def State.granuleFree (s : State) (id : Nat) (o : Op) (key : Nat) : Bool :=
  s.pathClear (grpPos o.who).1 key && !(s.agentOps o.who).any fun p => decide (p.1 < id) && p.2.touches (granule key)

/-- Whether nothing but its own choices keeps an operation from ending. -/
def State.endsFreely (s : State) (j : Nat) (a : Op) : Bool :=
  s.afterOk a && (!a.rel || a.released) &&
    a.elems.all fun e => e.done || (!isPeer e.key && s.granuleFree j a e.key && !s.reserved a.who (j :: a.after) e.key e.n true)

/-- The scopes of the ppo edges from an operation to a later one that waits for it, where the later one may perform ahead of it: an acquire orders what follows it,
and a release what precedes it, of which R187 lets it overtake reads only. None where it may not. -/
def Op.edgeScopes (o a : Op) : Option (List Scope) :=
  let load := match a.kind with | .load _ => true | _ => false
  let reads := load || (match a.kind with | .rmw _ _ | .cas | .rmwf _ _ _ => true | _ => false)
  let l := (if a.acq then [a.scope] else []) ++ (if o.rel then [o.scope] else [])
  if !reads || (o.rel && !load) || l.any (· == .sys) then none else some l

/-- Whether some operation that has been overtaken still has to touch some bytes. -/
def State.overtakenAt (s : State) (key n : Nat) : Bool :=
  s.ops.any fun p => match p.2 with
    | some a => !a.passed.isEmpty && a.elems.any fun e => !e.done && decide (key < e.key + e.n) && decide (e.key < key + n)
    | none => false

/-- The passes with which an access of n bytes may perform now (R180, R185): none of them where nothing holds it back, no answer where it must wait. -/
def State.passes (s : State) (o : Op) (key n : Nat) (write : Bool) : Option (List (Nat × Pass)) :=
  (o.after.filter (s.holdsBack o (!write))).foldr (fun j r =>
    match r, s.opsAt j with
    | some l, some a =>
      (match o.edgeScopes a with
       | some sc =>
         if s.endsFreely j a && !s.overtakenAt key n then
           some (sc.map (fun c => (j, { key := key, n := n, wrote := write, scope := c, who := o.who, wg := s.agentWgs o.who, trail := none })) ++ l)
         else none
       | none => none)
    | _, _ => none) (some [])

/-- Whether the scope of an operation includes the agent of another (R179). -/
def State.reaches (s : State) (o a : Op) : Bool := scopeHas o.who (s.agentWgs o.who) o.scope a.who (s.agentWgs a.who)

/-- Whether a group follows an operation that has been overtaken: it has touched what the overtaking access touched, and the operation has not ended. Until then it
issues nothing, and what it has issued brings no order to that operation (R185). -/
def State.follower (s : State) (k : Nat) : Bool :=
  s.ops.any fun p => match p.2 with
    | some a => a.passed.any fun q => q.trail == some k
    | none => false

/-- The same of an issuer. -/
def State.followedBy (s : State) (w : Issuer) : Bool := match w with
  | .grp k _ => s.follower k
  | _ => false

/-- Whether a plain access, number `id`, of a group may be that of a follower: its group is at work, none of its own accesses has overtaken another, and no engine
operation, launch or task is ordered after it. -/
def State.mayFollow (s : State) (id : Nat) (o : Op) : Bool := match o.who, o.kind with
  | .grp k _, .load _ | .grp k _, .store | .grp k _, .rmw _ _ | .grp k _, .cas | .grp k _, .rmwf _ _ _ =>
    let g := s.groupsAt k
    g.live && g.handler.isNone && !g.evict && !g.liveFrags.isEmpty && (s.agentOps o.who).all (fun p => p.2.passed.isEmpty) &&
      s.engs.all (fun p => match p.2 with | some e => e.done || e.grp != k | none => true) &&
      !(s.devq.any fun p => p.2.any fun r => decide (id ∈ r.after)) && !(s.dispatched.any fun r => decide (id ∈ r.after)) &&
      !s.tasks.any fun p => decide (id ∈ p.2.after)
  | _, _ => false

/-- How an access of operation `o` stands to one operation `a` that has been overtaken: the pass that it adds, if any; no answer where it must wait. An access that
conflicts with the overtaking one may follow it, unless it orders what comes after it for the agent of `a`; what a follower releases to that agent counts as
touched too, so that `a` cannot meet it. -/
def State.follow (s : State) (id : Nat) (o : Op) (key n : Nat) (write : Bool) (a : Op) : Option (Option Pass) :=
  match a.passed.find? (fun q => q.meets o.who (s.agentWgs o.who) key n write), o.who with
  | some q, .grp k _ =>
    if s.reaches o a && (o.acq || o.rel) || !s.mayFollow id o then none
    else some (some { q with key := key, n := n, wrote := write, trail := some k })
  | some _, _ => none
  | none, .grp k _ =>
    (match a.passed.find? fun q => q.trail == some k with
     | none => some none
     | some q =>
       if !s.reaches o a || !(o.acq || o.rel) then some none
       else if o.acq || a.elems.any (fun e => !e.done && decide (key < e.key + e.n) && decide (e.key < key + n)) then none
       else some (some { q with key := key, n := n, wrote := write }))
  | none, _ => some none

/-- What an access adds to the operations that have been overtaken (R181, R185); no answer where it must wait. -/
def State.follows (s : State) (id : Nat) (o : Op) (key n : Nat) (write : Bool) : Option (List (Nat × Pass)) :=
  s.ops.foldr (fun p r => match r, p.2 with
    | some l, some a =>
      if p.1 = id ∨ p.1 ∈ o.after then r
      else (match s.follow id o key n write a with
        | none => none
        | some none => some l
        | some (some q) => some ((p.1, q) :: l))
    | _, _ => r) (some [])

/-- Whether, and ahead of what, an access of an operation may perform now: a release once it has been performed (R187), older accesses of its agent to the granule
first (R186). -/
def State.touching (s : State) (id : Nat) (o : Op) (key n : Nat) (write : Bool) : Option (List (Nat × Pass)) :=
  if (!o.rel || o.released) && s.granuleFree id o key then
    (match s.follows id o key n write, s.passes o key n write with
     | some [], some l => if l.isEmpty || !s.followedBy o.who then some l else none
     | some l, some [] => some l
     | _, _ => none)
  else none

/-- Whether a release waits because its group follows an operation to whose agent it would bring order; a release of an access is checked as it touches its
location. -/
def State.followHeld (s : State) (o : Op) : Bool := match o.who, o.kind with
  | .grp _ _, .store | .grp _ _, .rmw _ _ | .grp _ _, .cas | .grp _ _, .rmwf _ _ _ => false
  | .grp k _, _ => s.ops.any fun p => match p.2 with
    | some a => s.reaches o a && a.passed.any fun q => q.trail == some k
    | none => false
  | _, _ => false

/-- An operation is overtaken. -/
def Prog.passed (l : List (Nat × Pass)) : Prog := Prog.each (fun p => Prog.on fun s => match s.opsAt p.1 with
  | some a => Prog.put (.ops p.1 (some { a with passed := a.passed ++ [p.2] }))
  | none => Prog.skip) l

/-- Whether a release may perform (R187): what it waits for has ended, or consists of reads that it may overtake. -/
def State.releasable (s : State) (o : Op) : Bool :=
  o.after.all fun j => !s.holdsBack o false j || (match s.opsAt j with
    | some a => (o.edgeScopes a).isSome
    | none => true)

/-! ## Ending an operation -/

/-- The covered event of an operation happens: its scoreboard slot loses 1 (R21). -/
def Prog.slotEvent (id : Nat) : Prog := Prog.on fun s =>
  match s.opsAt id with
  | none => Prog.skip
  | some o => Prog.seq (Prog.grp o.who ((s.grp o.who).decSlot o.heirs o.slot)) (Prog.put (.ops id (some { o with slot := 0 })))

/-- Whether a fragment is held for an operation: BARV's arrivals (R208), or the reading of a record; or a context waits for its code. -/
def State.heldFor (s : State) (id : Nat) (o : Op) : Bool :=
  (match o.who with
   | .ctx k => (s.ctxsAt k).load == some id
   | _ => false) || (List.range 16).any fun i => match ((s.grp o.who).frag i).hold with
    | .barv j _ => j == id
    | .probe r => r.op == some id
    | _ => false

/-- An operation with nothing left to do ends. -/
def Prog.tidy (id : Nat) : Prog := Prog.on fun s =>
  match s.opsAt id with
  | none => Prog.skip
  | some o =>
    let finished := o.outs.isEmpty && o.elems.all (·.done) && o.slot == 0 && (match o.kind with
      | .arrive _ | .fetch => !s.heldFor id o
      | .fence _ | .signal _ _ _ _ | .operands => false
      | _ => true)
    Prog.when finished (Prog.put (.ops id none))

/-- Change an element. -/
def Op.setElem (o : Op) (i : Nat) (e : Elem) : Op := { o with elems := setAt o.elems i e }

/-! ## RESULT_WRITEBACK (R20, R21, R142, R298, R299) -/

/-- The elements that the results of some lanes come from. -/
def Op.sources (o : Op) (lanes : Nat) (e : Elem) : Bool := match o.kind with
  | .tmov => bit lanes e.lane
  | _ => o.outs.any fun t => bit lanes t.lane && t.msk == e.lane

/-- The lanes of a result write: lane results of their lane, group results with the first lane that the event names. -/
def Out.inLanes (t : Out) (lanes : Nat) : Bool :=
  match t.file with
  | .v | .p | .status => bit lanes t.lane
  | _ => lanes != 0

/-- Results of some lanes are written (R22); the slot loses 1 with the last. -/
def Prog.writeBack (id lanes : Nat) : Prog := Prog.on fun s =>
  match s.opsAt id with
  | none => Prog.skip
  | some o =>
    let now := o.outs.filter fun t => t.inLanes lanes && o.ready t
    let o' := { o with outs := o.outs.filter fun t => !(t.inLanes lanes && o.ready t) }
    Prog.all [
      Prog.grp o.who ((s.grp o.who).landLate s.cycle o.age (now.map o.value)),
      Prog.put (.ops id (some o')),
      Prog.when (!now.isEmpty && o'.outs.isEmpty) (Prog.slotEvent id),
      Prog.tidy id]

/-- A fatal UNCORRECTABLE record for the entries of some lanes of an operation (R299, R319), and the retirement of their domains (R120). No fragment parks, so there is
no FAULT event (R260). -/
def Prog.uncorrectable (w : Issuer) (lanes pc addr : Nat) : Prog := Prog.on fun s =>
  match w with
  | .ctx k => Prog.ctxFault k cUncorrectable 0 addr pc
  | .pipe _ _ => Prog.skip
  | .grp k _ =>
    let g := s.groupsAt k
    let (d, c, co, sl) := grpPos w
    let es := g.entsOf lanes
    let skip := es.map fun e => (k, e)
    match g.handler with
    | some h => Prog.failHandler k g h
    | none => Prog.each (fun e =>
      let o := g.owner e
      let m := o.lanes &&& lanes
      Prog.all [
        Prog.record o.vf (recWord addr 0 pc m 0 cUncorrectable o.vf o.asid e d c co sl 0 0 false) cUncorrectable none (s.entNode o) false,
        Prog.retireEntry w e cUncorrectable skip]) es

/-- What an error leaves of an operation: its lanes write nothing. -/
def Prog.dropLanes (id lanes : Nat) : Prog := Prog.on fun s =>
  match s.opsAt id with
  | none => Prog.skip
  | some o =>
    let o' := { o with outs := o.outs.filter (fun t => !t.inLanes lanes),
                       elems := o.elems.map fun e => if o.sources lanes e || bit lanes e.lane then { e with got := true, done := true } else e }
    Prog.all [
      Prog.put (.ops id (some o')),
      Prog.when (o'.outs.isEmpty && o'.elems.all (·.done)) (Prog.slotEvent id),
      Prog.tidy id]

/-- The split entry whose fragment holds some lanes of an operation and has issued nothing since (R17). -/
def State.stillAt (s : State) (id : Nat) (o : Op) (lanes : Nat) : Option Nat :=
  let g := s.grp o.who
  if g.handler.isSome || (s.agentOps o.who).any fun p => decide (id < p.1) && p.2.pc == o.pc then none
  else (o.heirs.filter fun i => (g.frag i).fst == .live && (g.frag i).hold == .none && !(g.frag i).target && (g.frag i).pc == o.pc + 16).find? fun i =>
    mDiff lanes (g.frag i).mask == 0

/-- The lanes that read a line with an uncorrectable error (R299): the fault is precise where their fragment stands behind the instruction; where it has gone on, the
record alone tells of it (log 47). -/
def Prog.readError (id : Nat) (o : Op) (m addr : Nat) : Prog := Prog.on fun s =>
  Prog.seq (Prog.dropLanes id m)
    (match s.stillAt id o m, o.who with
     | some i, .grp k _ => Prog.on fun t =>
       let g := t.groupsAt k
       Prog.fault (.grp k i) (g.setFrag i { g.frag i with pc := o.pc }) m 0 ((lanesOf m).map fun l => { lane := l, cause := cUncorrectable, addr := addr })
         (Prog.on fun u => Prog.put (.groups k ((u.groupsAt k).setFrag i { (u.groupsAt k).frag i with pc := o.pc + 16 })))
     | _, _ => Prog.uncorrectable o.who m o.pc addr)

/-- The lanes that an element of an operation is read for; SLD's is read for every lane of its fragment. -/
def State.readers (s : State) (o : Op) (e : Elem) : Nat :=
  let g := s.grp o.who
  o.outs.foldl (fun m t => if t.msk ≠ e.lane then m else match t.file with
    | .v => m ||| 2 ^ t.lane
    | .s => o.heirs.foldl (fun n i => n ||| (g.frag i).mask) m
    | _ => m) (2 ^ e.lane)

/-- Read an element at its home; one of a peer is asked for (R319), and a line that fails its check is an error of the lanes that read it (R170, R299). -/
def Prog.readElem (id i : Nat) : Prog := Prog.on fun s =>
  match s.opsAt id with
  | none => Prog.skip
  | some o =>
    match o.elems[i]? with
    | none => Prog.skip
    | some e =>
      let key := if o.kind = .tmov then e.cmp else e.key
      if e.got then Prog.skip
      else match s.touching id { o with rel := false } key e.n false with
        | none => Prog.skip
        | some ps =>
          if isPeer key then
            Prog.when (!e.sent && ps.isEmpty)
              (Prog.seq (Prog.put (.ops id (some (o.setElem i { e with sent := true })))) (Prog.peerSend (peerOf key) (.access id i) 8))
          else if s.lineBad key e.n then Prog.readError id o (s.readers o e) e.gaddr
          else
            let e' := { e with got := true, val := s.load key e.n, done := o.kind != .tmov }
            Prog.seq (Prog.passed ps) (Prog.put (.ops id (some (o.setElem i e'))))

/-- RESULT_WRITEBACK (R21): results of the lanes land, loads take their values, TMOV its sources. With no lane, one element of the operation, a free
one, takes its value before its lane's others. With `err`, the line that the lanes read is uncorrectable (R299); so is one that an ARED or another atomic reads
(R170). -/
def execResultWriteback (op : Nat) (lanes : Lanes) (err : Bool) (s : State) : Host.Outcome State Fault Refusal :=
  match s.opsAt op with
  | none => .next s
  | some o =>
    let m := lanes.toNat
    let isRead := match o.kind with | .load _ | .tmov | .fetch => true | _ => false
    let atomic := match o.kind with | .rmw _ _ | .cas | .rmwf _ _ _ => true | _ => false
    let hit := o.elems.filter fun e => (if isRead && !o.outs.isEmpty then o.sources m e else bit m e.lane && (isRead || (atomic && !e.done))) && !isPeer e.key
    if err then
      (match hit with
       | [] => .next s
       | e :: _ => (Prog.readError op o m e.gaddr).go s)
    else if m = 0 then
      (if isRead then (Prog.seq (Prog.free (max 1 o.elems.length) fun i => Prog.readElem op i) (Prog.tidy op)).go s else (Prog.tidy op).go s)
    else
      (Prog.seq (Prog.when isRead (Prog.each (fun i => match o.elems[i]? with
          | some e => Prog.when (o.sources m e) (Prog.readElem op i)
          | none => Prog.skip) (List.range o.elems.length)))
        (Prog.writeBack op m)).go s

/-! ## STORE_SOURCE_READ (R21) -/

/-- STORE_SOURCE_READ (R21, R203): the source registers are read, where they were not at issue, and the slot loses 1. A lane may read what an outstanding write of
an s register brings (R22). -/
def execStoreSourceRead (op : Nat) (s : State) : Host.Outcome State Fault Refusal :=
  match s.opsAt op with
  | none => .next s
  | some o =>
    if o.read then .next s
    else if o.kind = .operands then (Prog.seq (Prog.slotEvent op) (Prog.put (.ops op none))).go s
    else
      let g := { s.grp o.who with mix := s.mixOf o.who }
      let o' := { o with read := true, elems := o.elems.map fun e => if e.got then e else
                    { e with val := g.srcElem e, got := o.kind == .store } }
      (Prog.all [fun _ => Prog.mixDrawn o.who s, Prog.put (.ops op (some o')), Prog.slotEvent op]).go s

/-! ## WRITE_PERFORM (R186) -/

/-- A write is handed to a peer's link; its group has written to that peer (R321). -/
def Prog.sendElem (id i : Nat) (o : Op) (e : Elem) : Prog := Prog.on fun s =>
  let p := peerOf e.key
  let g := s.grp o.who
  Prog.when (!e.sent) (Prog.all [
    Prog.put (.ops id (some (o.setElem i { e with sent := true }))),
    Prog.grp o.who (g.wroteTo p),
    Prog.peerSend p (.access id i) 8])

/-- An element of a store or of TMOV performs. -/
def Prog.writeElem (id i : Nat) : Prog := Prog.on fun s =>
  match s.opsAt id with
  | none => Prog.skip
  | some o =>
    match o.elems[i]? with
    | none => Prog.skip
    | some e =>
      match if e.done || !o.read || !e.got then none else s.touching id o e.key e.n true with
      | none => Prog.skip
      | some ps =>
      if isPeer e.key then Prog.when ps.isEmpty (Prog.sendElem id i o e)
      else
        let o' := o.setElem i { e with done := true }
        Prog.all [
          Prog.passed ps,
          Prog.store e.key e.n e.val,
          Prog.put (.ops id (some o')),
          Prog.when (o.kind == .tmov && o'.elems.all (·.done)) (Prog.slotEvent id),
          Prog.tidy id]

/-! ## RMW_PERFORM (R193, R196) -/

/-- The new value of an integer atomic of n bits (R203). -/
def atomNew (ty : WTy) (op : AtomOp) (old v : Nat) : Nat :=
  let n := wtyBits ty
  let rd := readInt n (wtySigned ty)
  match op with
  | .add => (old + v) % 2 ^ n
  | .min => if rd old ≤ rd v then old else v
  | .max => if rd v ≤ rd old then old else v
  | .and => old &&& v
  | .or => old ||| v
  | .xor => old ^^^ v
  | .exch => v

/-- The new value of a floating-point atomic, with its flags (R205). -/
def atomFNew (ty : AFmt) (op : AtomFOp) (rm old v : Nat) : Nat × Nat :=
  match op with
  | .add => fpAdd (aFmt ty) (drmOf (BitVec.ofNat 64 rm)) old v
  | .min => fpMinMax (aFmt ty) false old v
  | .max => fpMinMax (aFmt ty) true old v

/-- Fields of a barrier word (Table 10.4). -/
def barPH (w : Nat) : Nat := bits w 63 63
def barBM (w : Nat) : Nat := bits w 62 62
def barEXP (w : Nat) : Nat := bits w 61 46
def barARR (w : Nat) : Nat := bits w 45 30
def barDLT (w : Nat) : Int := sext (bits w 29 14) 16
def barWord (ph bm exp arr : Nat) (dlt : Int) : Nat :=
  ph * 2 ^ 63 + bm * 2 ^ 62 + exp % 65536 * 2 ^ 46 + arr % 65536 * 2 ^ 30 + wrap 16 dlt * 2 ^ 14
/-- R195: reserved bits zero and ARR < EXP. -/
def barOk (w : Nat) : Bool := bits w 13 0 == 0 && decide (barARR w < barEXP w)

/-- An arrival (R196): the new word, or none for BARRIER_FORMAT. -/
def arrival (mode : BarMode) (x : Nat) : Option Nat :=
  if !barOk x || barBM x == 1 then none
  else
    let d := barDLT x + (match mode with | .drop => -1 | .join => 1 | .arrive => 0)
    if d < -32768 ∨ 32767 < d then none
    else
      let a := barARR x + 1
      if a = barEXP x then
        let e := (barEXP x : Int) + d
        if e < 1 ∨ 65535 < e then none else some (barWord (1 - barPH x) 0 e.toNat 0 0)
      else some (barWord (barPH x) 0 (barEXP x) a d)

/-- The effect of an RMW on an element: what it writes, if anything, the element after it, and flags. -/
def rmwResult (k : OpKind) (e : Elem) (old : Nat) : Option Nat × Elem × Nat :=
  let e1 := { e with got := true, done := true, val := old }
  match k with
  | .rmw ty op => (some (atomNew ty op old e.val), e1, 0)
  | .cas => (if old = e.cmp then some e.val else none, e1, 0)
  | .rmwf ty op rm => let r := atomFNew ty op rm old e.val; (some r.1, e1, r.2)
  | .arrive mode => (arrival mode old, { e1 with val := barPH old, cmp := if (arrival mode old).isNone then 1 else 0 }, 0)
  | _ => (none, e, 0)

/-- An RMW is carried out at its unit (R193). -/
def Prog.rmwElem (id i : Nat) : Prog := Prog.on fun s =>
  match s.opsAt id with
  | none => Prog.skip
  | some o =>
    match o.elems[i]? with
    | none => Prog.skip
    | some e =>
      let isRmw := match o.kind with | .rmw _ _ | .cas | .rmwf _ _ _ | .arrive _ => true | _ => false
      match if !isRmw || e.done || !o.read then none else s.touching id o e.key e.n true with
      | none => Prog.skip
      | some ps =>
      if isPeer e.key then Prog.when ps.isEmpty (Prog.sendElem id i o e)
      else if s.lineBad e.key e.n then Prog.readError id o (s.readers o e) e.gaddr
      else
        let r := rmwResult o.kind e (s.load e.key e.n)
        Prog.all [
          Prog.passed ps,
          (match r.1 with | some v => Prog.store e.key e.n v | none => Prog.skip),
          Prog.put (.ops id (some (o.setElem i r.2.1))),
          Prog.when (r.2.2 != 0) (Prog.grp o.who ((s.grp o.who).writeOuts (flagOut r.2.2))),
          Prog.tidy id]

/-- RMW_PERFORM (R193). -/
def execRmwPerform (op elem : Nat) (s : State) : Host.Outcome State Fault Refusal := (Prog.rmwElem op elem).go s

/-! ## Leaving a hold -/

/-- The held instruction of an issuer as it leaves its hold (R132). -/
def Ex.held (s : State) (w : Issuer) (h : Hdr) (len : Nat) (mem : Bool) : Ex :=
  let g := s.grp w
  let i := fragOf w
  let f := g.frag i
  let f' := { f with hold := .none }
  { w := w, g := g.setFrag i f', i := i, f := f', h := h, len := len, cyc := s.cycle, mem := mem }

/-- Leave a hold with some lanes at fault: their entries park, and `rest` finishes the others (R173). -/
def Ex.leaveHold (x : Ex) (act : Nat) (faults : List LaneFault) (rest : Ex → Prog) : Prog :=
  if faults.isEmpty then rest x
  else Prog.fault x.w x.counted.g act 0 faults (Prog.on fun t => rest (x.again t))

/-- BARV_RETURN (R208): every arrival of the entries that are left has returned (R352). A debug stop keeps the hold, here and in the other events that end one. -/
def execBarvReturn (who : Issuer) (s : State) : Host.Outcome State Fault Refusal :=
  match ((s.grp who).frag (fragOf who)).hold with
  | .barv id r =>
    (match s.opsAt id with
     | some o =>
       let x := Ex.held s who r.hdr 16 true
       let lanes := r.lanes.filter fun q => bit x.f.mask q.lane
       if s.keeps who || o.elems.any fun e => !e.done && lanes.any fun q => x.g.entOf q.lane == e.idx then .next s
       else
         let elem := fun (q : LaneReq) => o.elems.find? fun e => e.idx == x.g.entOf q.lane
         let bad := lanes.filter fun q => match elem q with | some e => e.cmp == 1 | none => false
         let d := match r.acc with | .barv _ d => d | _ => 0
         (Prog.all [Prog.when (o.elems.all (·.done)) (Prog.put (.ops id none)),
           (x.leaveHold r.act (bad.map fun q => { lane := q.lane, cause := cBarrierFormat, addr := q.addr }) fun y =>
             let ok := lanes.filter fun q => bit y.f.mask q.lane && !bad.any fun b => b.lane == q.lane
             y.variable (y.issued (!ok.isEmpty)) (ok.flatMap fun q => match elem q with
               | some e => vOut d q.lane 32 false e.val
               | none => [])),
           (match who with
            | .ctx k => Prog.on fun t => Prog.put (.ctxs k { t.ctxsAt k with leftHold := some (t.ctxsAt k).g.retired })
            | _ => Prog.skip)]).go s
     | none => .next s)
  | _ => .next s

/-- Whether the read of a barrier word may be made now: acquires that are go-before it have ended (R180), older accesses of its group to the word have
performed (R186), and no pass bars it (R185). -/
def State.barReadOk (s : State) (who : Issuer) (q : LaneReq) : Bool :=
  (s.acquires who (fragOf who) false).isEmpty && s.pathClear (grpPos who).1 q.addr2 && !s.reserved who [] q.addr2 8 false && !s.followedBy who &&
    !(s.agentOps who).any fun p => p.2.touches (granule q.addr2)

/-- Whether the word of a lane lies over a pair of paths that are both down (R316). -/
def State.barLost (s : State) (who : Issuer) (q : LaneReq) : Bool := s.pairDown (grpPos who).1 q.addr2

/-- BWAIT_COMPLETE (R209): the words of some free lanes are read; lanes that find a flip wait no longer, a malformed word faults, so does one that both paths have lost
(R316), and the fragment is released when no lane waits. -/
def execBwaitComplete (who : Issuer) (s : State) : Host.Outcome State Fault Refusal :=
  match ((s.grp who).frag (fragOf who)).hold with
  | .bwait r =>
    if s.keeps who then .next s else
    (Prog.free 65536 fun skip => Prog.on fun s =>
      let x := Ex.held s who r.hdr 16 false
      let (lost, lanes) := (r.lanes.filter fun q => bit x.f.mask q.lane).partition (s.barLost who)
      let now := lanes.filter fun q => !bit skip q.lane && s.barReadOk who q
      let bad := now.filter fun q => !barOk (s.load q.addr2 8)
      let left := lanes.filter fun q => !decide (q ∈ now) || (barOk (s.load q.addr2 8) && barPH (s.load q.addr2 8) == q.x)
      x.leaveHold r.act ((lost.map fun q => { lane := q.lane, cause := cUncorrectable, addr := q.addr }) ++
          bad.map fun q => { lane := q.lane, cause := cBarrierFormat, addr := q.addr }) fun y =>
        let wait := left.filter fun q => bit y.f.mask q.lane
        if wait.isEmpty then y.plain true else Prog.grp y.w (y.holdG (.bwait { r with lanes := wait }))).go s
  | _ => .next s

/-- A lane of BTEST that has read its word. -/
def LaneReq.took (q : LaneReq) : Bool := decide (2 ^ 64 ≤ q.y)

/-- BTEST_RETURN (R210): the words of some free lanes are read, each lane's once and in any order (R176); once every lane has read, BTEST finishes. -/
def execBtestReturn (who : Issuer) (s : State) : Host.Outcome State Fault Refusal :=
  match ((s.grp who).frag (fragOf who)).hold with
  | .btest r =>
    if s.keeps who then .next s else
    (Prog.free 65536 fun skip => Prog.on fun s =>
      let x := Ex.held s who r.hdr 16 true
      let (lost, rest) := (r.lanes.filter fun q => bit x.f.mask q.lane).partition fun q => !q.took && s.barLost who q
      let lanes := rest.map fun q =>
        if !q.took && !bit skip q.lane && s.barReadOk who q then { q with y := 2 ^ 64 + s.load q.addr2 8 } else q
      if !lanes.all (·.took) then Prog.grp x.w (x.holdG (.btest { r with lanes := lost ++ lanes }))
      else
        let word := fun (q : LaneReq) => q.y % 2 ^ 64
        let bad := lanes.filter fun q => !barOk (word q)
        let d := match r.acc with | .btest d => d | _ => 0
        x.leaveHold r.act ((lost.map fun q => { lane := q.lane, cause := cUncorrectable, addr := q.addr }) ++
            bad.map fun q => { lane := q.lane, cause := cBarrierFormat, addr := q.addr }) fun y =>
          let ok := lanes.filter fun q => bit y.f.mask q.lane && barOk (word q)
          y.variable (y.issued (!ok.isEmpty)) (ok.flatMap fun q => pOut d q.lane (barPH (word q) != q.x))).go s
  | _ => .next s

/-! ## TRANSLATION_FILL (R170 to R172, R313) -/

/-- The issuers on a core whose fragments are held by a probe, with what they hold. -/
def State.probers (s : State) (core : Nat) : List (Issuer × MemReq) :=
  (s.groups.flatMap fun p => if coreOfGrp p.1 = core ∧ p.2.live then
      p.2.frags.filterMap fun q => match q.2.hold with
        | .probe r => some (.grp p.1 q.1, r)
        | _ => none
    else []) ++
  (match ((s.ctxsAt core).g.frag 0).hold with
   | .probe r => [(.ctx core, r)]
   | _ => [])

/-- What a probe in progress addresses: of an engine instruction its record, or its index list and destination (R240). -/
def State.probeWants (s : State) (g : Group) (r : MemReq) (q : LaneReq) : List Want :=
  match r.acc with
  | .engine k _ _ =>
    (match k with
     | .tcopy a _ _ | .wload a _ _ _ | .coll a _ => [wantOf a 64 1]
     | .gath _ _ _ _ _ => s.gathLeft (g.ownerOf q.lane) q.lane k r.passed
     | _ => [])
  | a => wantsOf a q

/-- Whether an RTB entry is one that a probe in progress uses (R171). -/
def State.rtbUsed (s : State) (core : Nat) (e : RtbEntry) : Bool :=
  (s.probers core).any fun p =>
    let g := s.grp p.1
    p.2.lanes.any fun q =>
      let o := g.ownerOf q.lane
      o.vf == e.vf && o.asid == e.asid && (s.probeWants g p.2 q).any fun t =>
        match decodeWindow t.addr with
        | some (.global a) => decide (e.lo ≤ a) && decide (a < e.hi)
        | some (.priv off) =>
          (match s.privGva o q.lane off t.n with
           | some a => decide (e.lo ≤ a) && decide (a < e.hi)
           | none => false)
        | _ => false

/-- Enter a fill in the RTB of a core (R171): where it is full, a free one of the entries that no probe uses is replaced. -/
def Prog.rtbEnter (core : Nat) (e : RtbEntry) (q : Nat) : Prog := Prog.on fun s =>
  let c := s.coresAt core
  if c.rtb.length < 64 then Prog.put (.cores core { c with rtb := c.rtb ++ [e] })
  else
    let idle := (List.range c.rtb.length).filter fun i => match c.rtb[i]? with
      | some x => !s.rtbUsed core x
      | none => false
    let k := getAt 0 idle (q % max 1 idle.length)
    Prog.put (.cores core { c with rtb := setAt c.rtb k e })

/-- Whether a fill has room: an entry free, or one that no probe uses. -/
def State.rtbRoom (s : State) (core : Nat) : Bool :=
  let c := s.coresAt core
  decide (c.rtb.length < 64) || c.rtb.any fun x => !s.rtbUsed core x

/-- The answer of one fill goes to the probes that wait for it. -/
def MemReq.answer (r : MemReq) (m : Miss) (fault : Option Nat) : MemReq :=
  if m ∈ r.missing then
    { r with missing := r.missing.filter (fun x => x != m),
             faults := match fault with
               | some c => r.faults ++ [{ vf := m.vf, asid := m.asid, addr := m.addr, need := m.need, cause := c }]
               | none => r.faults }
  else r

/-- The fill of one miss returns: it enters the RTB with its XLAT event (R260), or its fault reaches the probes that wait. One in a frame that SETFA
holds waits (R337). -/
def Prog.fillMiss (core : Nat) (m : Miss) : Prog := Prog.free (2 ^ 200) fun q => Prog.on fun s =>
  let gva := m.addr
  let since := ((s.probers core).filterMap fun p => if m ∈ p.2.missing then ((s.grp p.1).frag (fragOf p.1)).holdSince else none).headD s.cycle
  let res : Option FillRes := match s.rtbFind core m.vf m.asid gva with
    | some _ => none
    | none => some (s.fill m.vf m.asid m.key gva m.need q)
  let fault := match res with
    | some (.bad c) => some c
    | _ => none
  if res.isSome && s.fillHeld m.vf m.asid gva q then Prog.skip
  else Prog.seq
    (match res with
     | some (.ok e walked) =>
       Prog.seq (Prog.rtbEnter core e q)
         (Prog.eventNow (dieOf core) 4 (core % 512) m.vf m.asid (if walked then 1 else 0) (min (s.cycle - since) 65535) m.page)
     | _ => Prog.skip)
    (Prog.each (fun (p : Issuer × MemReq) => Prog.on fun t =>
      let g := t.grp p.1
      let i := fragOf p.1
      Prog.grp p.1 (g.setFrag i { g.frag i with hold := .probe (p.2.answer m fault) })) (s.probers core))

/-- TRANSLATION_FILL (R172): the fills of one page of an owner return on a core. A probe that waits for nothing else ends in the next cycle. -/
def execTranslationFill (core vf asid page : Nat) (s : State) : Host.Outcome State Fault Refusal :=
  let ms := (((s.probers core).flatMap fun p => p.2.missing).filter fun m => m.vf == vf && m.asid == asid && m.page == page).eraseDups
  if ms.isEmpty || !s.rtbRoom core then .next s else (Prog.each (Prog.fillMiss core) ms).go s

/-- The record of a reading that has come back from a peer. -/
def Op.fetched (o : Op) : Option Nat := if o.elems.all (·.got) then some (ofBytes (o.elems.flatMap fun e => toBytes e.val e.n)) else none

/-- The probe of a held instruction is taken again, once its fills and its record have come (R172). -/
def Prog.probeAgain (w : Issuer) : Prog := Prog.on fun s =>
  let go := fun (r : MemReq) => Prog.on fun t => (Ex.held t w r.hdr 16 false).probe r
  match ((s.grp w).frag (fragOf w)).hold with
  | .probe r =>
    if !r.missing.isEmpty || s.keeps w then Prog.skip
    else match r.op with
      | none => go r
      | some id => match s.opsAt id with
        | none => go { r with op := none }
        | some o => match o.fetched with
          | none => Prog.skip
          | some v => Prog.seq (Prog.put (.ops id none)) (go { r with op := none, data := some v })
  | _ => Prog.skip

/-- The issuers whose probes are taken again in a cycle. -/
def State.probing (s : State) : List Issuer :=
  let due := fun (f : Frag) => match f.hold with
    | .probe r => r.missing.isEmpty && f.fst == .live && (match r.op with
      | some id => (match s.opsAt id with | some o => o.fetched.isSome | none => true)
      | none => true)
    | _ => false
  (s.groups.flatMap fun p => if p.2.live && !s.follower p.1 then p.2.frags.filterMap fun q => if due q.2 then some (.grp p.1 q.1) else none else []) ++
    s.ctxs.filterMap fun p => if p.2.state = 1 ∧ due (p.2.g.frag 0) = true then some (.ctx p.1) else none

/-! ## Path-slot limits (R132) -/

/-- Whether a fragment has held its slot for 256 issues. -/
def Group.issuedOut (g : Group) (i : Nat) : Bool := let f := g.frag i; decide (256 ≤ f.iss) && f.slot != 0 && f.fst == .live && !g.stop.stopped

/-- Whether the hold of a fragment in a slot has lasted 65 cycles; not in replay mode (R360), nor in a group that a debugger has stopped (R301). -/
def Group.heldOut (g : Group) (cyc i : Nat) : Bool :=
  let f := g.frag i
  f.slot != 0 && f.fst == .live && !g.rpl && !g.stop.stopped && f.holdSince.any fun c => decide (65 ≤ cyc - c)

/-- The fragments at a limit give up their slots in one cycle, in ascending entry (R132, R159). -/
def Group.giveUps (g : Group) (l : List Nat) : Group :=
  if g.waiting.isEmpty then g
  else let h := l.foldl Group.unslot g; Group.fill { h with waiting := h.waiting ++ l } 2

/-- A fragment at a limit gives up its slot, with the others of its group that are at one. -/
def Prog.atLimit (grp : Nat) : Prog := Prog.on fun s =>
  let g := s.groupsAt grp
  Prog.put (.groups grp (g.giveUps ((List.range 16).filter fun i => g.issuedOut i || g.heldOut s.cycle i)))

/-- PATH_SLOT_HOLD_LIMIT: a slot whose hold has lasted 65 cycles goes to the front of the waiting order. -/
def execPathSlotHoldLimit (grp frag : Nat) (s : State) : Host.Outcome State Fault Refusal :=
  if (s.groupsAt grp).heldOut s.cycle frag then (Prog.atLimit grp).go s else .next s

/-- PATH_SLOT_ISSUE_LIMIT: a slot is given up after 256 issued instructions. -/
def execPathSlotIssueLimit (grp frag : Nat) (s : State) : Host.Outcome State Fault Refusal :=
  if (s.groupsAt grp).issuedOut frag then (Prog.atLimit grp).go s else .next s

end Sys2Proof.Machine
end

