-- ==== Sys2Proof/Machine/Array.lean ====
section
/-! DEFINITION. The ternary array: trit packing (R243), latches, passes, batches and stops of a sequencer context (R211 to R232, R248 to R251, R257, R258),
and the waits on engines and batches (R252 to R254). -/

namespace Sys2Proof.Machine

/-! ## Trit packing (R243) -/

/-- The trit of a field code, as its digit (R40, R243). -/
def fieldDigit (c : Nat) : Nat := match c % 4 with | 1 => 2 | 3 => 0 | _ => 1
/-- The field code of a digit. -/
def digitField (d : Nat) : Nat := match d with | 0 => 3 | 2 => 1 | _ => 0

/-- The weight byte of five fields. -/
def packByte (x : Nat) : Nat :=
  let f := [0, 1, 2, 3, 4].map fun i => x / 4 ^ i % 4
  if f.contains 2 then 0xFF else (f.zip [1, 3, 9, 27, 81]).foldl (fun t p => t + fieldDigit p.1 * p.2) 0

/-- The five fields of a weight byte. -/
def unpackByte (b : Nat) : Nat :=
  ([0, 1, 2, 3, 4].map fun i => (if 0xF3 ≤ b then 2 else digitField (b / 3 ^ i % 3)) * 4 ^ i).foldl (· + ·) 0

/-- TPACK's result. -/
def tpackVal (a b : Nat) : Nat :=
  let x := a % 2 ^ 32 + b % 256 * 2 ^ 32
  ([0, 1, 2, 3].map fun k => packByte (x / 1024 ^ k % 1024) * 256 ^ k).foldl (· + ·) 0

/-- TUNPK's result: twenty fields. -/
def tunpkVal (a : Nat) : Nat := ([0, 1, 2, 3].map fun k => unpackByte (a / 256 ^ k % 256) * 1024 ^ k).foldl (· + ·) 0

/-- TPACK (R243). -/
def execTpack (h : Hdr) (d : VReg) (a b : Src) (s : State) : Host.Outcome State Fault Refusal :=
  laneFixed h 8 s 4 (fun m => vFoot d.val 32 m ++ srcFoot 32 m a ++ srcFoot 32 m b) fun g l =>
    vOut d.val l 32 false (tpackVal (g.srcVal l 32 a) (g.srcVal l 32 b))

/-- TUNPK (R243). -/
def execTunpk (h : Hdr) (d : VReg) (a : Src) (s : State) : Host.Outcome State Fault Refusal :=
  laneFixed h 8 s 4 (fun m => vFoot d.val 64 m ++ srcFoot 32 m a) fun g l => vOut d.val l 64 false (tunpkVal (g.srcVal l 32 a))

/-! ## Array instructions -/

/-- Before an array instruction issues, its context closes a batch that has been charged 65,536 cycles (R231); the instruction then issues at its next
turn. -/
def arrayInstr (h : Hdr) (len : Nat) (feet : List Foot) (s : State) (p : Ex → Nat → Prog) : Host.Outcome State Fault Refusal :=
  issue h len s fun x => x.only false true
    (x.check (x.guardQ :: feet) false
      (match x.w with
       | .ctx k => Prog.on fun t =>
         if x.actQ = 0 then x.plain false else if 65536 ≤ (t.ctxsAt k).charge then Prog.closeBatch k else p x k
       | _ => Prog.skip))

/-- A fault of an array instruction: the context stops (R221). -/
def Ex.arrayFault (x : Ex) (cause : Nat) : Prog := x.counted.faultAll cause 0 0

/-- The physical columns of a region, in order (R211, R218). -/
def regionCols (m : Nat) : List Nat :=
  if isWide m then List.range 256 else (List.range 128).map fun n => 128 * (leaderOf m % 2) + n

/-- Fields of an image slot (Table 11.3). -/
def slotV (w : Nat) : Bool := bit w 63
def slotVf (w : Nat) : Nat := bits w 62 57
def slotQm (w : Nat) : Nat := bits w 56 53
def slotKind (w : Nat) : Nat := bits w 52 51
def slotNcol (w : Nat) : Nat := bits w 50 43 + 1
def slotK (w : Nat) : Nat := bits w 42 35 + 1
def slotBase (w : Nat) : Nat := bits w 31 20

/-- The latch length of K live rows (R216). -/
def latchLen (k : Nat) : Nat := ceilDiv (ceilDiv k 5 + 4) 8

/-- The trits of K rows in their bytes, or none for a byte or a pad place that R40 or R216 refuses. -/
def columnTrits (k : Nat) (bs : List Nat) : Option (List Int) :=
  if bs.any fun b => decide (0xF3 ≤ b) then none
  else
    let ds : List Int := bs.flatMap fun b => [0, 1, 2, 3, 4].map fun i => ((b / 3 ^ i % 3 : Nat) : Int) - 1
    if (ds.drop k).any (· != 0) then none else some (ds.take k)

/-- The number of a line of the pattern die. -/
def lineNum (cl col line : Nat) : Nat := (cl * 256 + col) * 4096 + line

/-- The record that a slot holds in a column. -/
def State.columnRecord (s : State) (cl col w : Nat) : List Byte := s.bytes (patternKey cl col (slotBase w) 0) (8 * latchLen (slotK w))

/-- Whether a line of a slot has an uncorrectable error (R299). -/
def State.slotBad (s : State) (cl w : Nat) (cols : List Nat) : Bool :=
  cols.any fun c => (List.range (latchLen (slotK w))).any fun j => Tab.get (fun _ => 0) s.badLines (lineNum cl c (slotBase w + j)) != 0

/-- All columns of a slot, or none for TRIT_CODE. -/
def allSome {α : Type} : List (Option α) → Option (List α)
  | [] => some []
  | none :: _ => none
  | some x :: t => (allSome t).map (x :: ·)

/-- Every column. -/
def allCols : Nat := 2 ^ 128 - 1

/-- MLATCH (R222, R248). -/
def execMlatch (h : Hdr) (_ : Qm) (slot : Fin 256) (set : Fin 8) (s : State) : Host.Outcome State Fault Refusal :=
  arrayInstr h 16 [] s fun x k => Prog.on fun t =>
    let cl := k / 4
    let c := t.ctxsAt k
    let m := (t.ctxRegion k).getD 0
    let w := (t.imagesAt (cl * 256 + slot.val)).toNat
    if !slotV w || slotVf w != c.vf || slotQm w != m then x.arrayFault cFormatLatch
    else
      let cols := (regionCols m).take (slotNcol w)
      let nb := ceilDiv (slotK w) 5
      let recs := cols.map fun col => (t.columnRecord cl col w).map (·.toNat)
      if t.slotBad cl w cols then x.arrayFault cUncorrectable
      else match allSome (recs.map fun r => columnTrits (slotK w) (r.take nb)) with
        | none => x.arrayFault cTritCode
        | some trits =>
          let sc : List Int := recs.map fun r => ((getAt 0 r nb + getAt 0 r (nb + 1) * 256 + getAt 0 r (nb + 2) * 65536 +
            getAt 0 r (nb + 3) * 16777216 : Nat) : Int)
          let rows : List PassRow := (banksOf m).zipIdx.map fun b =>
            { core := 4 * cl + b.1, row := set.val, batch := c.batch, kind := .scale, vals := (sc.drop (128 * b.2)).take 128, cols := allCols }
          Prog.seq (x.plain true) (Prog.on fun u =>
            let d := u.ctxsAt k
            fun _ => [.latches (2 * k + 1) { loaded := true, kind := slotKind w, rows := slotK w, cols := trits, set := set.val },
                      .ctxs k { d with nonempty := true, latched := true, pendL := latchLen (slotK w), passes := d.passes ++ rows }])

/-- The metadata of an accumulator row (Table 11.5). -/
def metaOf (ovf : Bool) (ssi anc : Nat) : Nat := (if ovf then 4096 else 0) + 2048 + ssi % 8 * 256 + anc % 256

/-- The check of one target row in add mode (R224). -/
def rowCheck (mt anc ssi : Nat) : Option Nat :=
  if !bit mt 11 then none
  else if mt % 256 ≠ anc then some cAnchorMismatch
  else if bits mt 10 8 ≠ ssi then some cFormatLatch
  else none

/-- The sum of a column (R43): trits against grid values. -/
def dotTrits (t g : List Int) : Int := (t.zipWith (· * ·) g).foldl (· + ·) 0

/-- The column sums of one feed row: whole columns, or blocks of b rows for a batched latch (R224, R225). -/
def passSums (batched : Bool) (b : Nat) (cols : List (List Int)) (g : List Int) : List Int :=
  cols.zipIdx.map fun c => dotTrits c.1 (if batched then g.drop (b * (c.2 / b)) else g)

/-- The latch that the next pass uses: the shadow latch where one is loaded. -/
def State.nextLatch (s : State) (k : Nat) : Latch := if (s.latchesAt (2 * k + 1)).loaded then s.latchesAt (2 * k + 1) else s.latchesAt (2 * k)

/-- Rows of a feeder that a pass of M rows takes. -/
def State.feedRows (s : State) (core n : Nat) : List FeedRow := (s.coresAt core).rows.take n

/-- The charge of a pass of M rows (R229). DESIGN CHOICE: the L cycles of the last MLATCH since the pass before are charged with this pass; those of an MLATCH that no pass of
its batch follows are not charged (log 52). -/
def Ctx.passCharge (c : Ctx) (fill m : Nat) : Nat :=
  c.charge + (if c.chain then max c.lastRows c.pendL - c.lastRows else fill) + m

/-- MMUL and MMULB (R222, R224, R225, R249). DESIGN CHOICE: where several checks fail, the cause is that of the first row at fault, by bank and then by row, and rows come
before feed anchors (log 52). -/
def passInstr (h : Hdr) (batched ovr : Bool) (row : Fin 1024) (rows : Fin 64) (anc : BitVec 8) (s : State) : Host.Outcome State Fault Refusal :=
  arrayInstr h 16 [] s fun x k => Prog.on fun t =>
    let cl := k / 4
    let c := t.ctxsAt k
    let m := (t.ctxRegion k).getD 0
    let n := rows.val + 1
    let lt := t.nextLatch k
    let feeders := (feedersOf m).map fun q => 4 * cl + q
    let banks := (banksOf m).map fun q => 4 * cl + q
    if 1024 < row.val + n then x.arrayFault cAccBound
    else if !c.latched || (lt.kind == 2) != batched then x.arrayFault cFormatLatch
    else if feeders.any fun q => decide ((t.coresAt q).rows.length < n) then Prog.skip
    else
      let bad := if ovr then none else (banks.flatMap fun b => (List.range n).map fun i => (b, i)).findSome? fun p =>
        rowCheck (t.accMetaAt (p.1 * 1024 + row.val + p.2)) anc.toNat lt.set
      let fed := feeders.map fun q => t.feedRows q n
      match bad with
      | some cause => x.arrayFault cause
      | none =>
        if fed.any fun l => l.any fun r => r.anc != anc.toNat then x.arrayFault cAnchorMismatch
        else
          let b := if m = 15 then 16 else 8
          let lines := (List.range n).map fun i => fed.flatMap fun l => (getAt { vals := [], anc := 0 } l i).vals
          let sums := lines.map fun g => passSums batched b lt.cols g
          let out : List PassRow := sums.zipIdx.flatMap fun r => banks.zipIdx.map fun q =>
            { core := q.1, row := row.val + r.2, batch := c.batch, kind := if ovr then .set else .add, vals := (r.1.drop (128 * q.2)).take 128,
              cols := allCols }
          let fill := if batched then (if m = 15 then 40 else 24) else fillOf m
          Prog.all [
            x.plain true,
            Prog.each (fun q => Prog.on fun u => Prog.put (.cores q { u.coresAt q with rows := (u.coresAt q).rows.drop n })) feeders,
            Prog.each (fun (p : Nat × Nat) => Prog.on fun u =>
              let a := p.1 * 1024 + row.val + p.2
              Prog.put (.accMeta a (metaOf (!ovr && bit (u.accMetaAt a) 12) lt.set anc.toNat)))
              (banks.flatMap fun b => (List.range n).map fun i => (b, i)),
            fun _ => [.latches (2 * k) lt, .latches (2 * k + 1) Latch.empty],
            Prog.on fun u =>
              let d := u.ctxsAt k
              Prog.put (.ctxs k { d with nonempty := true, charge := d.passCharge fill n, chain := true, lastRows := n, pendL := 0,
                                         passes := d.passes ++ out })]

/-- MMUL (R224, R249). -/
def execMmul (h : Hdr) (ovr : Bool) (_ : Qm) (row : Fin 1024) (rows : Fin 64) (anc : BitVec 8) (s : State) :
    Host.Outcome State Fault Refusal := passInstr h false ovr row rows anc s

/-- MMULB (R225, R249). -/
def execMmulb (h : Hdr) (ovr : Bool) (_ : Qm) (row : Fin 1024) (rows : Fin 64) (anc : BitVec 8) (s : State) :
    Host.Outcome State Fault Refusal := passInstr h true ovr row rows anc s

/-- MZERO (R224, R250). -/
def execMzero (h : Hdr) (_ : Qm) (row rows : Fin 1024) (s : State) : Host.Outcome State Fault Refusal :=
  arrayInstr h 16 [] s fun x k => Prog.on fun t =>
    let n := rows.val + 1
    let banks := (banksOf ((t.ctxRegion k).getD 0)).map fun q => 4 * (k / 4) + q
    if 1024 < row.val + n then x.arrayFault cAccBound
    else
      let at_ := banks.flatMap fun b => (List.range n).map fun i => (b, row.val + i)
      let out : List PassRow := at_.map fun p =>
        { core := p.1, row := p.2, batch := (t.ctxsAt k).batch, kind := .set, vals := [], cols := allCols }
      Prog.all [
        x.plain true,
        fun _ => at_.map fun p => .accMeta (p.1 * 1024 + p.2) 0,
        Prog.on fun u =>
          let d := u.ctxsAt k
          Prog.put (.ctxs k { d with nonempty := true, charge := d.charge + ceilDiv n 16, passes := d.passes ++ out })]

/-- BFENCE (R231, R251). -/
def execBfence (h : Hdr) (d : SReg) (s : State) : Host.Outcome State Fault Refusal :=
  arrayInstr h 8 (sFoot d.val) s fun x k => Prog.on fun t =>
    Prog.seq (x.fixed 2 true (sOut d.val (t.ctxsAt k).batch)) (Prog.closeBatch k)

/-! ## Performing what was issued (R44, R47, R228, R231) -/

/-- A new accumulator entry: R44's clamped sum, or the value itself. -/
def accLim : Int := 140737488355327

/-- Some columns of a row perform. `later` says that a later overwrite of the row waits, which has cleared OVF (R224). -/
def State.commitRow (s : State) (r : PassRow) (cols : Nat) (later : Bool) : List Effect :=
  let cs := onesOf (cols &&& r.cols) 128
  match r.kind with
  | .scale => cs.map fun n => .scales ((r.core * 8 + r.row) * 128 + n) (BitVec.ofInt 32 (getAt 0 r.vals n))
  | .set => cs.map fun n => .acc ((r.core * 1024 + r.row) * 128 + n) (getAt 0 r.vals n)
  | .add =>
    let at_ := fun n => (r.core * 1024 + r.row) * 128 + n
    let sum := fun n => s.accAt (at_ n) + getAt 0 r.vals n
    let beyond := cs.any fun n => decide (clamp (sum n) (-accLim) accLim ≠ sum n)
    let mk := r.core * 1024 + r.row
    (cs.map fun n => .acc (at_ n) (clamp (sum n) (-accLim) accLim)) ++
      (if beyond && !later then [.accMeta mk (s.accMetaAt mk ||| 4096)] else [])

/-- Rows perform in issue order, each in the columns that `f` gives its place; the rows that still wait. -/
def Prog.commitRows (f : Nat → PassRow → Nat) : Nat → List PassRow → Prog
  | _, [] => Prog.skip
  | i, r :: t =>
    let later := t.any fun q => q.core == r.core && q.row == r.row && q.kind == .set
    Prog.seq (fun s => s.commitRow r (f i r) later) (Prog.commitRows f (i + 1) t)

/-- What is left of rows. -/
def rowsLeft (f : Nat → PassRow → Nat) (l : List PassRow) : List PassRow :=
  (l.zipIdx.map fun r => { r.1 with cols := r.1.cols &&& (allCols ^^^ (f r.2 r.1 &&& allCols)) }).filter fun r => r.cols != 0

/-- Rows of a context perform. -/
def Prog.perform (k : Nat) (f : Nat → PassRow → Nat) : Prog := Prog.on fun s =>
  let c := s.ctxsAt k
  Prog.seq (Prog.commitRows f 0 c.passes) (Prog.on fun t => Prog.put (.ctxs k { t.ctxsAt k with passes := rowsLeft f c.passes }))

/-- BATCH_COMPLETE (R231): what the oldest closed batch has issued has performed, and BDONE counts it; with it complete those behind it that have nothing left to
perform, as an empty one does (R251). -/
def execBatchComplete (ctx : Nat) (s : State) : Host.Outcome State Fault Refusal :=
  match (s.ctxsAt ctx).closed with
  | [] => .next s
  | (b, _) :: _ =>
    (Prog.seq (Prog.perform ctx fun _ r => if r.batch = b then allCols else 0) (Prog.batchesDone ctx)).go s

/-- Whether a context's next instruction is one of the run that a stop waits out (R232). -/
def arrayRun : Instr → Bool
  | .mlatch _ _ _ _ | .mmul _ _ _ _ _ _ | .mmulb _ _ _ _ _ _ | .mzero _ _ _ _ => true
  | _ => false

/-- BATCH_CHARGE_LIMIT (R231): an open batch charged 65,536 cycles is closed before the next array instruction. -/
def execBatchChargeLimit (ctx : Nat) (s : State) : Host.Outcome State Fault Refusal :=
  let c := s.ctxsAt ctx
  let due := match s.fetch (.ctx ctx) with
    | some (.instr (.bfence _ _) _) => true
    | some (.instr i _) => arrayRun i
    | _ => false
  if c.state = 1 ∧ 65536 ≤ c.charge ∧ due = true then (Prog.closeBatch ctx).go s else .next s

/-- Whether a pass is held for feed rows (R249): its guard holds, its checks before the rows have passed, and a feeding queue holds fewer than it needs. -/
def State.passHeld (s : State) (k : Nat) (h : Hdr) (batched : Bool) (row n : Nat) : Bool :=
  let c := s.ctxsAt k
  c.latched && ((s.nextLatch k).kind == 2) == batched && decide (row + n ≤ 1024) && decide (c.charge < 65536) &&
    ((Ex.of { s with turn := .ctx k } h 16).any fun x => x.actQ != 0 && !x.hazard s [x.guardQ]) &&
    (feedersOf ((s.ctxRegion k).getD 0)).any fun q => decide ((s.coresAt (4 * (k / 4) + q)).rows.length < n)

/-- Whether a context's next instruction is a pass that is held so. -/
def State.feedShort (s : State) (k : Nat) : Instr → Bool
  | .mmul h _ _ row n _ => s.passHeld k h false row.val (n.val + 1)
  | .mmulb h _ _ row n _ => s.passHeld k h true row.val (n.val + 1)
  | _ => false

/-- Whether a context that is to stop has reached a point at which the stop takes effect (R232, R296): it issues nothing more. -/
def State.stopPoint (s : State) (k : Nat) : Bool :=
  let c := s.ctxsAt k
  let f := c.g.frag 0
  c.state == 1 && c.stopping && (match f.hold with
    | .bwait _ => true
    | .none =>
      c.closedAt == some c.g.retired || c.leftHold == some c.g.retired || decide (65536 ≤ c.charge) || (match s.fetch (.ctx k) with
        | some (.instr i _) => !arrayRun i || s.feedShort k i
        | _ => true)
    | _ => false)

/-- CONTEXT_STOP (R232): the open batch is closed unless it has just been closed, and the context stops once every scoreboard slot of its is zero. -/
def execContextStop (ctx : Nat) (s : State) : Host.Outcome State Fault Refusal :=
  let c := s.ctxsAt ctx
  if s.stopPoint ctx then
    let pc := match (c.g.frag 0).hold, s.fetch (.ctx ctx) with
      | .none, some (.instr _ p) => p
      | _, _ => (c.g.frag 0).pc
    (Prog.seq (Prog.when (c.closedAt != some c.g.retired) (Prog.closeBatch ctx)) (Prog.on fun t =>
      let d := t.ctxsAt ctx
      let f := { d.g.frag 0 with hold := .none, holdSince := none }
      Prog.put (.ctxs ctx (if f.quiet then { d with state := 3, stopping := false, g := d.g.setFrag 0 { f with pc := pc } } else { d with g := d.g.setFrag 0 f })))).go s
  else .next s

/-! ## BWAITA (R252) -/

/-- Whether batch b of a context has completed (R231). -/
def Ctx.completed (c : Ctx) (b : Nat) : Bool :=
  let d := (c.bdone + 4294967296 - b % 4294967296) % 4294967296
  decide (1 ≤ d) && decide (d ≤ 2147483648)

/-- BWAITA (R252). -/
def execBwaita (h : Hdr) (a : SReg) (s : State) : Host.Outcome State Fault Refusal :=
  issue h 8 s fun x => x.only true false
    (x.check (x.guardP :: sFoot a.val) false (Prog.on fun t =>
      let core := coreOf x.w
      let k := t.leadCtx core
      let b := (x.g.readS a.val).toNat % 4294967296
      if x.act = 0 then x.plain false
      else if !t.ownsRegion x.g core (x.g.ownerOf (lowest x.act)) then
        x.faultLanes 0 ((lanesOf x.act).map fun l => { lane := l, cause := cMixedFeed, addr := 0 }) fun y => y.plain false
      else if (t.ctxsAt k).completed b then x.plain true
      else Prog.grp x.w (x.holdG (.bwaita x.h k b x.act))))

/-- BWAITA_COMPLETE (R252): the batch has completed, or no active lane is left (R352). -/
def execBwaitaComplete (who : Issuer) (s : State) : Host.Outcome State Fault Refusal :=
  match ((s.grp who).frag (fragOf who)).hold with
  | .bwaita h k b act =>
    if s.keeps who then .next s
    else if (s.ctxsAt k).completed b || act &&& ((s.grp who).frag (fragOf who)).mask == 0 then ((Ex.held s who h 8 false).plain true).go s else .next s
  | _ => .next s

/-! ## WAITC (R253) -/

/-- Whether every operation of a class below a number has reported: reports come in issue order (R182). -/
def Group.reported (g : Group) (c limit : Nat) : Bool := decide (limit ≤ Tab.get (fun _ => 0) g.engNum c - g.engCount c)

/-- The entry with the oldest kept failure that a WAITC reports: of its class, in its covered set, with an active lane. -/
def Group.oldestFail (g : Group) (cls : EClass) (limit act : Nat) : Option Nat :=
  ((List.range 16).filter fun e =>
    let f := g.fail e
    f.cause != 0 && f.cls == cls && decide (f.num < limit) && (g.owner e).valid && (g.owner e).lanes &&& act != 0).foldl
    (fun (b : Option Nat) e => match b with
      | some d => if (g.fail e).num < (g.fail d).num then some e else b
      | none => some e) none

/-- WAITC ends: it completes, or the entry of the oldest failure parks. While a handler runs it reports none (R291). -/
def Ex.waitcEnd (x : Ex) (cls : EClass) (limit act : Nat) : Prog :=
  match (if x.g.handler.isSome then none else x.g.oldestFail cls limit (act &&& x.f.mask)) with
  | none => x.plain true
  | some e =>
    let f := x.g.fail e
    let y := { x with g := x.g.setFail e Failure.none }.counted
    let m := (x.g.owner e).lanes &&& act &&& x.f.mask
    Prog.faultN x.w y.g (act &&& x.f.mask) f.cause f.nfail ((lanesOf m).map fun l => { lane := l, cause := cEngineFault, addr := f.addr })
      (Prog.on fun t => (y.again t).plain true)

/-- WAITC (R253): n of the youngest operations of the class are left out. -/
def execWaitc (h : Hdr) (cls : EClass) (n : Fin 256) (s : State) : Host.Outcome State Fault Refusal :=
  issue h 12 s fun x => x.only true false
    (x.check [x.guardP] false
      (let c := eclassNum cls
       let limit := Tab.get (fun _ => 0) x.g.engNum c - n.val
       if x.act = 0 then x.plain false
       else if x.g.reported c limit then x.waitcEnd cls limit x.act
       else Prog.grp x.w (x.holdG (.waitc x.h cls limit x.act))))

/-- WAITC_COMPLETE (R253): the operations have reported, or no active lane is left (R352). -/
def execWaitcComplete (who : Issuer) (s : State) : Host.Outcome State Fault Refusal :=
  match ((s.grp who).frag (fragOf who)).hold with
  | .waitc h cls limit act =>
    if s.keeps who then .next s
    else if (s.grp who).reported (eclassNum cls) limit || act &&& ((s.grp who).frag (fragOf who)).mask == 0 then ((Ex.held s who h 12 false).waitcEnd cls limit act).go s
    else .next s
  | _ => .next s

/-! ## TSIG (R254) -/

/-- TSIG (R254): it performs as a release at device scope, then decrements the task of the issuing die. -/
def execTsig (h : Hdr) (task : Fin 4096) (lp : PReg) (s : State) : Host.Outcome State Fault Refusal :=
  issue h 16 s fun x => x.only true true
    (x.check (x.guardP :: pFoot lp.val x.f.mask) false
      (match x.leader lp with
       | none => x.plain (x.act != 0)
       | some l => Prog.on fun t =>
         let o := x.g.ownerOf l
         Prog.seq (Prog.grp x.w (x.issued true))
           (Prog.newOp { x.op (.signal (dieOf (coreOf x.w)) task.val o.vf o.asid) [] [] with
             read := true, scope := .dev, after := t.goBefore x.w x.i, wg := [o.id] })))

end Sys2Proof.Machine
end

