-- ==== Sys2Proof/Machine/System.lean ====
section
/-! DEFINITION. The system instructions (R303 to R311, R357), except the completion of RETT. -/

namespace Sys2Proof.Machine

/-! ## Attachment (R357) -/

/-- DBATT of a function (Table 22.4). -/
def State.dbatt (s : State) (fn : Nat) : Nat := (s.reg fn 0x800000).toNat

/-- Whether a debugger is attached to an owner (R357). -/
def State.attached (s : State) (vf asid : Nat) : Bool :=
  bit (s.dbatt vf) 63 && (bit (s.dbatt vf) 62 || bits (s.dbatt vf) 60 41 == asid) && s.guestFor vf

/-! ## TRAP, DBRK (R308) -/

/-- TRAP (R308): the active lanes of each entry park. -/
def execTrap (h : Hdr) (code : BitVec 32) (s : State) : Host.Outcome State Fault Refusal :=
  issue h 12 s fun x => x.only true false
    (x.check [x.guardP] false
      (x.faultLanes 0 ((lanesOf x.act).map fun l => { lane := l, cause := cTrapSw, addr := code.toNat }) fun y => y.plain false))

/-- DBRK (R308, R357): as TRAP for the owners with a debugger attached, and without effect for the others. -/
def execDbrk (h : Hdr) (code : BitVec 32) (s : State) : Host.Outcome State Fault Refusal :=
  issue h 12 s fun x => x.only true false
    (x.check [x.guardP] false
      (let l := (lanesOf x.act).filter fun l => s.attached (x.g.ownerOf l).vf (x.g.ownerOf l).asid
       x.faultLanes 0 (l.map fun l => { lane := l, cause := cDebugBreak, addr := code.toNat }) fun y => y.plain (y.act != 0)))

/-! ## System registers (R305 to R307) -/

/-- The number that an instruction names (R305). -/
def Ex.sysNum (x : Ex) (a : SReg) (i : BitVec 16) : Nat := x.g.sysNum a i.toNat

/-- A register of the group, or of its frozen state. -/
def Group.sysReg (g : Group) (cycle n : Nat) : Nat :=
  match n / 256 with
  | 0 => (match n % 256 with
    | 0 => cycle % 2 ^ 64
    | 1 => g.retired.toNat
    | _ => g.ckptn)
  | 7 => (match g.handler with | some h => (Tab.get (fun _ => 0) h.inner (56 + n % 256)).toNat | none => 0)
  | 8 => (match g.handler with | some h => (Tab.get (fun _ => 0) h.header (n % 256)).toNat | none => 0)
  | _ => (match g.handler with | some h => (Tab.get (fun _ => 0) h.frozen n).toNat | none => 0)

/-- MFSR (R306): variable latency; marked where it is guarded. DEDUCED: a number that R304 or R305 rejects faults with the decode faults, SEC 0xFF. -/
def execMfsr (h : Hdr) (d a : SReg) (imm : BitVec 16) (s : State) : Host.Outcome State Fault Refusal :=
  issue h 12 s fun x => x.only true false
    (let n := x.sysNum a imm
     match x.g.sysFault n false with
     | some c => x.faultAll c 0xFF 0
     | none =>
       x.check (x.guardQ :: sFoot d.val ++ sFoot a.val) (h.gp.val != 0)
         (x.variable (x.issued (x.actQ != 0)) (if x.actQ = 0 then [] else sOut d.val (x.g.sysReg s.cycle n))))

/-- A fault-record word with the STAT that stands (R306). -/
def keepStat (n old v : Nat) : Nat := if n / 256 = 5 ∧ n % 4 = 1 then setBits v 1 0 (bits old 1 0) else v

/-- MTSR (R306): the register of the frozen state takes the value at issue. -/
def execMtsr (h : Hdr) (a : SReg) (imm : BitVec 16) (v : SReg) (s : State) : Host.Outcome State Fault Refusal :=
  issue h 12 s fun x => x.only true false
    (let n := x.sysNum a imm
     match x.g.sysFault n true, x.g.handler with
     | some c, _ => x.faultAll c 0xFF 0
     | none, none => x.faultAll cIllegalOp 2 0
     | none, some k =>
       x.check (x.guardQ :: sFoot a.val ++ sFoot v.val) false
         (if x.actQ = 0 then x.plain false
          else
            let val := (x.g.readS v.val).toNat
            let vf := bits val 21 16
            if n / 256 = 4 ∧ n % 2 = 0 ∧ vf ≠ 0 ∧ vf ≠ k.fn ∧ k.fn ≠ 0 then x.counted.faultAll cIllegalField 0xFF 0
            else
              let w := keepStat n (x.g.sysReg s.cycle n) val
              let k1 := if n / 256 = 7 then { k with inner := Tab.put (fun _ => 0) k.inner (56 + n % 256) (BitVec.ofNat 64 w) }
                        else { k with frozen := Tab.put (fun _ => 0) k.frozen n (BitVec.ofNat 64 w) }
              ({ x with g := { x.g with handler := some k1 } } : Ex).plain true))

/-! ## RETT (R309) -/

/-- RETT (R309): it holds its fragment until RETT_COMPLETE. -/
def execRett (h : Hdr) (s : State) : Host.Outcome State Fault Refusal :=
  issue h 8 s fun x => x.only true false
    (match x.g.handler with
     | none => x.faultAll cIllegalOp 2 0
     | some _ => Prog.grp x.w (x.holdG (.rett h)))

/-! ## CKPT, EVTX (R310, R311) -/

/-- CKPT (R310). -/
def execCkpt (h : Hdr) (a : SReg) (s : State) : Host.Outcome State Fault Refusal :=
  issue h 8 s fun x => x.only true false
    (x.check (x.guardQ :: sFoot a.val) false
      (if x.actQ = 0 then x.plain false
       else
         let g := x.plainG true
         let n := (x.g.readS a.val).toNat % 4294967296
         Prog.seq (Prog.grp x.w { g with ckptn := n, retired := 0 }) (Prog.trace x.w 0x8 (toBytes n 4))))

/-- EVTX (R311): one event for each entry with an active lane, ascending. -/
def execEvtx (h : Hdr) (a b : Src) (s : State) : Host.Outcome State Fault Refusal :=
  issue h 8 s fun x => x.only true false
    (x.check (x.guardP :: (srcFoot 32 x.f.mask a ++ srcFoot 32 x.f.mask b)) false
      (Prog.seq (x.plain (x.act != 0))
        (Prog.each (fun e =>
          let o := x.g.owner e
          let l := lowest (o.lanes &&& x.act)
          let y := x.g.srcVal l 32 b
          let core := coreOf x.w
          Prog.eventNow (dieOf core) 8 (core % 512) o.vf o.asid (bits y 21 16) (bits y 15 0) (x.g.srcVal l 32 a)) (x.g.entsOf x.act))))

end Sys2Proof.Machine
end

