-- ==== Sys2Proof/Machine/Market.lean ====
section
/-! DEFINITION. The market (R116 to R122, R136, R137, R332, R369): launch queues, the acceptance of records, the placement and the admission of
workgroups, and the ends of workgroups, groups and launches. -/

namespace Sys2Proof.Machine

/-! ## Status entries (R333) -/

/-- A status entry, which waits until STATUS_ENTRY_WRITE writes it. -/
def statusWord (kind code qn idx arg : Nat) : Nat :=
  idx % 2 ^ 32 + qn % 16 * 2 ^ 44 + code % 256 * 2 ^ 48 + kind % 256 * 2 ^ 56 + arg % 2 ^ 64 * 2 ^ 64
def Prog.status (fn kind code qn idx arg : Nat) : Prog := Prog.on fun s =>
  Prog.put (.fns fn { s.fnsAt fn with statWait := (s.fnsAt fn).statWait ++ [statusWord kind code qn idx arg] })

/-- Offset of the status queue's registers (false) or the fault queue's (true), and the state of the ring (Table 20.3). -/
def ringOff (fault : Bool) : Nat := if fault then 0x20040 else 0x20000
def State.ringFull (s : State) (fn : Nat) (fault : Bool) : Bool :=
  let p := (s.reg fn (ringOff fault + 16)).toNat
  (bits p 31 0 + 2 ^ 32 - bits p 63 32) % 2 ^ 32 == 2 ^ s.regBits fn (ringOff fault + 8) 61 58

/-! ## Launch queues (R332, Table 20.2) -/

def lqOff (q : Nat) : Nat := 0x10000 + 64 * q
def State.lqc (s : State) (fn q : Nat) : Nat := (s.reg fn (lqOff q + 8)).toNat
def State.lqp (s : State) (fn q : Nat) : Nat := (s.reg fn (lqOff q + 16)).toNat

/-- Number of a queue in the round-robin order. DESIGN CHOICE: launch queues by function and number, then device launch queues by die and function, then dispatched
tasks by function (log 48). -/
def queuePos : Origin → Nat → Nat
  | .queue fn q _, _ => 16 * fn + q
  | .dev die vf, _ => 1024 + 64 * die + vf
  | .task _ _, vf => 1280 + vf
def queueCount : Nat := 1344

/-- Whether the market may read records of a function's launch queues (R333, R342, R343, R349). -/
def State.queuesRead (s : State) (fn : Nat) : Bool :=
  let f := s.fnsAt fn
  !s.ringFull fn false && f.fnReset == 0 && f.tdis != 1 && f.tdis != 3

/-- Whether a launch lies below a node, numbered 0 for the root, HPA + 1 otherwise. -/
def Launch.under (l : Launch) (node : Nat) : Bool := node == 0 || decide (node - 1 ∈ l.chain)

/-- Whether a slice end holds a launch back (R289). -/
def State.sliceHeld (s : State) (l : Launch) : Bool := s.fns.any fun p => p.2.stops.any l.under

/-- Whether a chain lies below a node under a slice end. -/
def State.chainHeld (s : State) (chain : List Nat) : Bool := s.fns.any fun p => p.2.stops.any fun n => n == 0 || decide (n - 1 ∈ chain)

/-- Whether a launch waits for a saved workgroup of its own, which goes ahead of new ones (R300). -/
def State.waitsSaved (s : State) (id : Nat) : Bool :=
  s.saved.any fun p => match p.2 with
    | some u => u.cause == cCoreFenced && u.resumed && u.wgs.any fun n => match s.wgsAt n with
      | some w => w.launch == id && w.saved
      | none => false
    | none => false

/-- The launches of a queue that still have workgroups to place, oldest first. -/
def State.waiting (s : State) (pos : Nat) : List (Nat × Launch) :=
  s.launches.filterMap fun p => match p.2 with
    | some l => if queuePos l.origin l.vf = pos ∧ l.retired = false ∧ l.next < recNwg l.rec_ then some (p.1, l) else none
    | none => none

/-- Those launches, where the oldest may be placed (R121): one that a slice end holds, or that waits for its saved workgroups, keeps the others back. -/
def State.placing (s : State) (pos : Nat) : List (Nat × Launch) := match s.waiting pos with
  | [] => []
  | (id, l) :: t => if s.sliceHeld l || s.waitsSaved id then [] else (id, l) :: t

/-- The check of a record submitted on the device: what LAUNCH.now has read of it, or what stands at its address (R157). -/
def State.devCheck (s : State) (r : DevRec) (q : Nat) : Except Rejected Accepted := match r.rec_ with
  | some x => s.checkRead r.vf r.asid (.ok x) q
  | none => s.checkRecord r.vf r.asid r.addr false q

/-- The next record of a queue that is not a launch queue; one below a slice end is held in it (R289). -/
def State.devHead (s : State) (pos : Nat) : Option DevRec :=
  let held := fun (r : DevRec) => s.fns.any (fun p => !p.2.stops.isEmpty) && (match s.devCheck r 0 with
    | .ok a => s.chainHeld a.chain
    | .error _ => false)
  let ready := fun (r : DevRec) => r.after.all (fun i => (s.opsAt i).isNone) && !held r
  if pos < 1024 then none
  else if pos < 1280 then
    (match s.devqAt (pos - 1024) with
     | r :: _ => if ready r then some r else none
     | [] => none)
  else s.dispatched.find? fun r => r.vf == pos - 1280 && ready r

/-- Whether a queue has a record to read: all of its launches have been placed. -/
def State.unread (s : State) (pos : Nat) : Bool :=
  (s.waiting pos).isEmpty &&
    if pos < 1024 then
      let fn := pos / 16
      let q := pos % 16
      bit (s.lqc fn q) 63 && s.queuesRead fn && bits (s.lqp fn q) 63 32 != bits (s.lqp fn q) 31 0
    else match s.devHead pos with
      | some r => (s.fnsAt r.vf).tdis != 3 && (s.fnsAt r.vf).fnReset == 0
      | none => false

/-- How many records wait in a queue. -/
def State.backlog (s : State) (pos : Nat) : Nat :=
  if pos < 1024 then (bits (s.lqp (pos / 16) (pos % 16)) 63 32 + 2 ^ 32 - bits (s.lqp (pos / 16) (pos % 16)) 31 0) % 2 ^ 32 % 32769
  else if pos < 1280 then (s.devqAt (pos - 1024)).length
  else s.dispatched.length

/-- The queues with pending workgroups, in round-robin order from a position. -/
def State.pendingQueues (s : State) (start : Nat) : List Nat :=
  ((List.range queueCount).map fun i => (start + i) % queueCount).filter fun p => !(s.placing p).isEmpty || s.unread p

/-! ## Records (R116, R333) -/

/-- Report a rejected record (R116, R157, R260, R333). -/
def Prog.reject (o : Origin) (vf asid addr code lanes : Nat) : Prog :=
  let die := match o with | .queue _ _ _ => 0 | .dev d _ => d | .task d _ => d
  Prog.seq (Prog.eventNow die 2 0xFFF vf asid 3 lanes code)
    (match o with
     | .queue fn q idx => Prog.status fn 1 code q idx addr
     | .dev _ _ => Prog.skip
     | .task d n => Prog.on fun s =>
       Prog.seq (Prog.put (.tasks (d * 4096 + n) { s.tasksAt (d * 4096 + n) with tst := 0 })) (Prog.status vf 3 code 0 n addr))

/-- Take a record (LAUNCH_QUEUE_READ): it is checked whole, and becomes a launch or is rejected, and `done` follows; one whose reading waits for SETFA stays
where it is (R337). -/
def Prog.takeRec (o : Origin) (vf asid awn pool : Nat) (cres : Bool) (addr : Nat) (check : State → Nat → Except Rejected Accepted) (prio : Option Nat) (done : Prog) : Prog :=
  Prog.free (2 ^ 200) fun q0 => Prog.on fun s =>
    match check s q0 with
    | .error e =>
      if e.code = cHeld then Prog.skip
      else Prog.seq (Prog.reject o vf asid addr e.code (match e.rec_ with | some r => recLanes r | none => 0)) done
    | .ok a =>
      let r := a.rec_
      let id := s.nextId
      let elig := decide (recLanes r ≤ 16) && !recNomrg r && !recDet r && recAcr r == 0 && a.code.msafe && pool != 0
      let l : Launch := { rec_ := r, code := id + 1, vf := vf, asid := asid, awn := awn, pool := pool, cres := cres, key := bits a.ctx 280 271,
                          prio := prio.getD a.prio, origin := o, chain := a.chain, elig := elig, next := 0, done := 0, waveEnd := 0, held := false,
                          retired := false, restored := 0, status := 0, rpl := bit (s.dbatt vf) 61 }
      Prog.all [fun _ => [.launches id (some l), .codes (id + 1) { a.code with cluster := 512 }, .nextId (id + 2)],
        (match a.chain with
         | n :: _ => Prog.nodeState n 1
         | [] => Prog.skip),
        done]

/-- Read the next record of a queue (R332): a launch queue whose indices lie too far apart stops with a queue error. -/
def Prog.readQueue (pos : Nat) : Prog := Prog.on fun s =>
  if pos < 1024 then
    let fn := pos / 16
    let q := pos % 16
    let c := s.lqc fn q
    let p := s.lqp fn q
    let head := bits p 31 0
    let base := (s.reg fn (lqOff q)).toNat
    let n := 2 ^ bits c 61 58
    if n < (bits p 63 32 + 2 ^ 32 - head) % 2 ^ 32 then
      Prog.seq (Prog.reg fn (lqOff q + 8) (setBits c 63 63 0)) (Prog.status fn 5 0 q head base)
    else
      let addr := (base + 64 * (head % n)) % 2 ^ 64
      Prog.takeRec (.queue fn q head) fn (bits c 49 30) (bits c 29 14) (bits c 57 50) (bit c 13) addr
        (fun t i => t.checkRecord fn (bits c 49 30) addr (bit c 62) i) none
        (Prog.on fun t => Prog.reg fn (lqOff q + 16) (setBits (t.lqp fn q) 31 0 (head + 1)))
  else match s.devHead pos with
    | none => Prog.skip
    | some r =>
      let o : Origin := match r.task with | some (d, n) => .task d n | none => .dev ((pos - 1024) / 64) r.vf
      Prog.takeRec o r.vf r.asid r.awn 0 false r.addr (fun t i => t.devCheck r i) (some r.prio)
        (if pos < 1280 then Prog.put (.devq (pos - 1024) ((s.devqAt (pos - 1024)).drop 1))
         else Prog.put (.dispatched (s.dispatched.erase r)))

/-! ## Placement (R118, R119, R121) -/

/-- What a workgroup asks for. -/
structure Request where
  lanes : Nat
  slots : Nat
  rfb : Nat
  csb : Nat
  acr : Nat
  groups : Nat
  deriving DecidableEq, Repr

def Launch.request (l : Launch) : Request :=
  let n := recLanes l.rec_
  let slots := if l.elig then n else 16 * ceilDiv n 16
  { lanes := n, slots := slots, rfb := 4 * recRegs l.rec_ * slots, csb := 64 * recScr l.rec_, acr := recAcr l.rec_, groups := ceilDiv n 16 }

/-- The workgroups whose resources count (R118): admitted or about to be, neither retired nor saved. -/
def State.counted (s : State) : List (Wg × Launch) :=
  s.wgs.filterMap fun p => match p.2 with
    | some w => if w.ended || w.saved then none else (match s.launchesAt w.launch with | some l => some (w, l) | none => none)
    | none => none

/-- Whether a node's budgets admit a request on a core: `have_` are the workgroups below the node, `budget` the RCBs from the node to the root. -/
def budgetOk (have_ : List (Wg × Launch)) (budget : List Nat) (r : Request) (core : Nat) : Bool :=
  let sum := fun (f : Wg → Launch → Nat) => have_.foldl (fun n p => n + f p.1 p.2) 0
  let cores := (have_.map fun p => p.1.core).eraseDups
  decide (sum (fun w _ => w.slots) + r.slots ≤ effective 1 319 288 budget) &&
    decide (sum (fun w l => 4 * recRegs l.rec_ * w.slots) + r.rfb ≤ effective 2 383 352 budget) &&
    decide (sum (fun _ l => 64 * recScr l.rec_) + r.csb ≤ effective 3 351 320 budget) &&
    decide (sum (fun w _ => w.acr) + r.acr ≤ effective 4 287 256 budget) &&
    decide (cores.length + (if core ∈ cores then 0 else 1) ≤ effective 0 255 240 budget)

/-- The budgets of every node of a chain, up to the root. -/
def State.budgetsOk (s : State) (l : Launch) (core : Nat) : Bool :=
  let rs := s.rcbs l.chain
  let all := s.counted
  (List.range rs.length).all fun i =>
    let node := getAt 0 l.chain i
    let mine := if i < l.chain.length then all.filter fun p => decide (node ∈ p.2.chain) else all
    budgetOk mine (rs.drop i) l.request core

/-- The lowest start of a free run of n units below `top` beside the given runs (R119). -/
def lowestRun (segs : List Seg) (n top : Nat) : Option Nat :=
  let starts := (0 :: segs.map fun g => g.base + g.len)
  let free := starts.filter fun b => decide (b + n ≤ top) && segs.all fun g => g.len == 0 || decide (b + n ≤ g.base) || decide (g.base + g.len ≤ b)
  free.foldl (fun (m : Option Nat) b => match m with | some x => some (min x b) | none => some b) none

/-- Whether a group slot is free: no group holds it and none is to start in it. -/
def State.slotFree (s : State) (k : Nat) : Bool :=
  let g := s.groupsAt k
  !g.live && g.owners.isEmpty && !s.admits.any fun a => match s.wgsAt a.wg with
    | some w => decide (k ∈ w.groups)
    | none => false

/-- The free group slots of a core, ascending. -/
def State.freeGroups (s : State) (core : Nat) : List Nat := ((List.range 256).map fun i => core * 256 + i).filter s.slotFree

/-- The free private block of a launch's owner (R165): none where there is none, some none where the owner has no blocks. -/
def State.freeBlock (s : State) (l : Launch) (ctx : Nat) : Option (Option Nat) :=
  if bits ctx 319 304 = 0 then some none
  else
    let used := s.wgs.filterMap fun p => match p.2 with
      | some w => (match s.launchesAt w.launch with | some m => if m.vf = l.vf ∧ m.asid = l.asid then w.blk else none | none => none)
      | none => none
    ((List.range (bits ctx 303 292)).find? fun b => !decide (b ∈ used)).map some

/-- Where a workgroup would go on a core: group slots, segment, rows, block (R118, R119); `into` names a group that already holds lanes. -/
structure Spot where
  groups : List Nat
  seg : Nat
  acc : Nat
  blk : Option Nat
  deriving DecidableEq, Repr

/-- Register-file bytes that the groups of a core hold or are to hold; a core has 512 KiB (Table 1.1). -/
def State.regBytes (s : State) (core : Nat) : Nat :=
  let held := s.groups.foldl (fun n p => if coreOfGrp p.1 = core ∧ (p.2.live ∨ p.2.owners ≠ []) then n + 64 * p.2.regs else n) 0
  let coming := (s.admits.flatMap fun a => match s.wgsAt a.wg, s.launchesAt a.launch with
    | some w, some l => w.groups.filterMap fun k => if coreOfGrp k = core ∧ (s.groupsAt k).owners = [] then some (k, recRegs l.rec_) else none
    | _, _ => []).eraseDups
  coming.foldl (fun n p => n + 64 * p.2) held

def State.spot (s : State) (l : Launch) (ctx core : Nat) (into : Option Nat) : Option Spot :=
  let c := s.coresAt core
  let r := l.request
  if c.fenced || !bit (s.coreMask core) l.vf || !s.budgetsOk l core then none
  else
    let gs := match into with | some k => [k] | none => (s.freeGroups core).take r.groups
    let rf := if into.isSome then 0 else 64 * recRegs l.rec_ * r.groups
    if gs.length < r.groups || decide (524288 < s.regBytes core + rf) then none
    else match lowestRun c.segs r.csb 262144, lowestRun c.accs r.acr 1024, s.freeBlock l ctx with
      | some b, some a, some k => some { groups := gs, seg := b, acc := a, blk := k }
      | _, _, _ => none

/-- Place the next workgroup of a launch (R121): its resources are set aside until it is admitted. -/
def Prog.place (id : Nat) (l : Launch) (core : Nat) (p : Spot) (first ent : Nat) (merged : Bool) : Prog := Prog.on fun s =>
  let r := l.request
  let n := s.nextId
  let c := s.coresAt core
  let w : Wg := { launch := id, num := l.next, core := core, origin := core, lanes := r.lanes, slots := r.slots, groups := p.groups, left := r.lanes,
                  seg := p.seg, acr := r.acr, accBase := p.acc, blk := p.blk, age := n, saved := false, saving := false, area := 0, pool := l.pool,
                  ended := false, wr := [] }
  fun _ => [
    .wgs n (some w), .nextId (n + 1), .launches id (some { l with next := l.next + 1 }),
    .cores core { c with segs := if r.csb = 0 then c.segs else c.segs ++ [{ base := p.seg, len := r.csb, wg := n, dead := false }],
                         accs := if r.acr = 0 then c.accs else c.accs ++ [{ base := p.acc, len := r.acr, wg := n, dead := false }] },
    .admits (s.admits ++ [{ launch := id, wg := n, core := core, slot := p.groups.headD 0, first := first, merged := merged, ent := ent }])]

/-- The cores in the market's search order (R121). -/
def State.searchCores (s : State) : List Nat := (List.range 2048).map fun i => (s.mktCore + 1 + i) % 2048

/-- Whether two launches' workgroups may merge (R122). -/
def State.matches_ (s : State) (a b : Launch) : Bool :=
  a.elig && b.elig && (s.codesAt a.code).dgst == (s.codesAt b.code).dgst && recEntry a.rec_ == recEntry b.rec_ && recRegs a.rec_ == recRegs b.rec_ &&
    recScr a.rec_ == recScr b.rec_ && a.prio == b.prio && a.pool == b.pool &&
    (!s.sec.conf || (a.vf == b.vf && (a.asid == b.asid || (a.cres && b.cres))))

/-- The ASID context of a launch's owner, as the market reads it; 0 where it cannot. -/
def State.launchCtx (s : State) (l : Launch) (q : Nat) : Nat := match s.asidContext l.vf l.asid q with
  | .ok w => w
  | .error _ => 0

/-- Fill a group from one queue (R121): its next workgroups that match the seed and fit. `fuel` bounds the workgroups and the records read. -/
def Prog.fillFrom (seed : Launch) (core k q : Nat) (pos : Nat) : Nat → Prog
  | 0 => Prog.skip
  | fuel + 1 => Prog.on fun s =>
    match s.placing pos with
    | [] => if s.unread pos then Prog.seq (Prog.readQueue pos) (Prog.fillFrom seed core k q pos fuel) else Prog.skip
    | (id, l) :: _ =>
      let here := s.admits.filter fun a => a.slot == k
      let used := here.foldl (fun n a => n + (match s.wgsAt a.wg with | some w => w.lanes | none => 0)) 0
      if !s.matches_ seed l || decide (16 < used + recLanes l.rec_) then Prog.skip
      else match s.spot l (s.launchCtx l q) core (some k) with
        | none => Prog.skip
        | some p => Prog.seq (Prog.place id l core p used here.length true) (Prog.fillFrom seed core k q pos fuel)

/-- Visit a queue (R121): its next workgroup is placed as a seed, and where it is merge-eligible the rest of its group is filled. -/
def Prog.visit (pos q : Nat) : Prog :=
  Prog.seq (Prog.on fun s => Prog.when ((s.placing pos).isEmpty && s.unread pos) (Prog.readQueue pos))
    (Prog.on fun s =>
      match s.placing pos with
      | [] => Prog.skip
      | (id, l) :: _ =>
        if recDet l.rec_ then Prog.skip
        else
          let ctx := s.launchCtx l q
          match s.searchCores.findSome? fun c => (s.spot l ctx c none).map fun p => (c, p) with
          | none => Prog.skip
          | some (core, p) =>
            Prog.all [
              Prog.place id l core p 0 0 l.elig,
              Prog.put (.mktCore core),
              Prog.when l.elig (Prog.on fun t =>
                Prog.each (fun i => Prog.on fun u => Prog.fillFrom l core (p.groups.headD 0) q i (32 + u.backlog i)) (t.pendingQueues pos))])

/-- MARKET_VISIT (R121): the next queue with pending workgroups is visited. -/
def execMarketVisit (s : State) : Host.Outcome State Fault Refusal :=
  match s.pendingQueues s.mktNext with
  | [] => .next s
  | pos :: _ => (Prog.free (2 ^ 200) fun q => Prog.seq (Prog.put (.mktNext ((pos + 1) % queueCount))) (Prog.visit pos q)).go s

/-! ## Deterministic waves (R137) -/

/-- How many of a launch's workgroups can be placed from a state at once, up to n: the state with them placed. -/
def State.placeMany (s : State) (id ctx : Nat) : Nat → State × Nat
  | 0 => (s, 0)
  | n + 1 =>
    match s.launchesAt id with
    | none => (s, 0)
    | some l =>
      match s.searchCores.findSome? fun c => (s.spot l ctx c none).map fun p => (c, p) with
      | none => (s, 0)
      | some (core, p) =>
        let t := runAll s (Prog.seq (Prog.place id l core p 0 0 false) (Prog.put (.mktCore core)) s)
        let r := t.placeMany id ctx n
        (r.1, r.2 + 1)

/-- The wave size of a launch (R137): as many workgroups as its RCB's effective budgets admit on a device with nothing resident, whose cores all have their whole
register file, scratch, accumulator rows and group slots (log 49). -/
def State.waveSize (s : State) (l : Launch) : Nat :=
  let r := l.request
  let budget := s.rcbs l.chain
  let fit := fun (have_ n : Nat) => if n = 0 then 4294967295 else have_ / n
  let perCore := [fit 256 r.groups, fit 524288 (64 * recRegs l.rec_ * r.groups), fit 262144 r.csb, fit 1024 r.acr].foldl min 256
  [fit (effective 1 319 288 budget) r.slots, fit (effective 2 383 352 budget) r.rfb, fit (effective 3 351 320 budget) r.csb,
    fit (effective 4 287 256 budget) r.acr].foldl min (min 2048 (effective 0 255 240 budget) * perCore)

/-- WAVE_START (R137): the launch is its queue's oldest (R121), every group of the previous wave has ended, and all workgroups of the next one are placed together. -/
def execWaveStart (launch : Nat) (s : State) : Host.Outcome State Fault Refusal :=
  match s.launchesAt launch with
  | none => .next s
  | some l =>
    let left := recNwg l.rec_ - l.next
    let busy := s.wgs.any (fun p => match p.2 with | some w => w.launch == launch | none => false) ||
      s.groups.any fun p => p.2.live && p.2.wave == some launch
    if !recDet l.rec_ || l.retired || ((s.placing (queuePos l.origin l.vf)).head?.map (·.1)) != some launch || left = 0 || busy then .next s
    else
      (Prog.free (2 ^ 200) fun q => Prog.on fun t =>
        let ctx := t.launchCtx l q
        let size := min left (t.waveSize l)
        let now := t.placeMany launch ctx size
        if size = 0 ∨ now.2 < size then Prog.skip
        else fun u => wavePlaces u launch ctx size).go s
where
  /-- The writes that place a wave. -/
  wavePlaces (u : State) (id ctx : Nat) : Nat → List Effect
    | 0 => []
    | n + 1 =>
      match u.launchesAt id with
      | none => []
      | some l =>
        match u.searchCores.findSome? fun c => (u.spot l ctx c none).map fun p => (c, p) with
        | none => []
        | some (core, p) =>
          let e := Prog.seq (Prog.place id l core p 0 0 false) (Prog.put (.mktCore core)) u
          e ++ wavePlaces (runAll u e) id ctx n

/-! ## Admission (R76, R118, R123 to R125, R138, R369) -/

/-- The write-range table of workgroup w as it is read (R138). -/
def State.rangeTable (s : State) (l : Launch) (w q : Nat) : Except Nat (List Byte) :=
  s.readGlobal l.vf l.asid l.key q (recWrt l.rec_ + 16 * recNwr l.rec_ * w) (16 * recNwr l.rec_)

/-- The write ranges of workgroup w (R138). A table that cannot be read gives none. -/
def State.writeRanges (s : State) (l : Launch) (w q : Nat) : List (Nat × Nat) :=
  let n := recNwr l.rec_
  if !recDet l.rec_ then []
  else match s.rangeTable l w q with
    | .error _ => []
    | .ok b => (List.range n).map fun i => (ofBytes ((b.drop (16 * i)).take 8), ofBytes ((b.drop (16 * i + 8)).take 8))

/-- Workgroups of a launch that are placed and not admitted go back to it; a wave whole, as none of it is admitted before the others (R137). -/
def Prog.unplace (id : Nat) : Prog := Prog.on fun s =>
  let mine := s.admits.filter fun a => a.launch == id && (match s.wgsAt a.wg with | some w => !w.saved | none => false)
  let nums := mine.filterMap fun a => (s.wgsAt a.wg).map (·.num)
  Prog.when (!mine.isEmpty)
    (Prog.seq (Prog.each (fun (a : Admit) => Prog.discard a.wg) mine)
      (Prog.on fun t => match t.launchesAt id with
        | some m => Prog.put (.launches id (some { m with next := nums.foldl min m.next }))
        | none => Prog.skip))

/-- A launch found invalid as its workgroup is admitted: rejected, and what waits of it discarded. -/
def Prog.rejectLate (id : Nat) (l : Launch) (code : Nat) : Prog := Prog.on fun s =>
  let addr := match l.origin with
    | .queue fn q idx => ((s.reg fn (lqOff q)).toNat + 64 * (idx % 2 ^ bits (s.lqc fn q) 61 58)) % 2 ^ 64
    | .dev _ _ => 0
    | .task d n => (s.tasksAt (d * 4096 + n)).lrec
  Prog.all [
    Prog.put (.launches id (some { l with retired := true })),
    Prog.each (fun (a : Admit) => Prog.when (a.launch == id) (Prog.discard a.wg)) s.admits,
    Prog.reject l.origin l.vf l.asid addr code (recLanes l.rec_)]

/-- The owner-table entry of a workgroup's group number `i` (R123, R125). -/
def ownerEntry (l : Launch) (w : Wg) (a : Admit) (id ctx i : Nat) : Owner :=
  let n := if a.merged then w.lanes else min 16 (w.lanes - 16 * i)
  let first := if a.merged then a.first else 0
  { valid := true, cls := 0, vf := l.vf, asid := l.asid, awn := l.awn, prio := l.prio, key := bits ctx 280 271, sbase := w.seg / 64,
    slen := recScr l.rec_, wg := w.num, id := id, lanes := (2 ^ n - 1) * 2 ^ first,
    base := if a.merged then -(a.first : Int) else ((16 * i : Nat) : Int), ctx := ctx, chain := l.chain }

/-- Enter a workgroup in the owner tables of its groups. -/
def Prog.enter (a : Admit) (l : Launch) (w : Wg) (ctx code : Nat) : Prog :=
  Prog.each (fun (p : Nat × Nat) => Prog.on fun s =>
    let g := s.groupsAt p.1
    let g1 := if g.owners.isEmpty then { Group.empty with code := code, regs := recRegs l.rec_, ocrd := a.core, stop := g.stop } else g
    Prog.put (.groups p.1 { g1.setOwner a.ent (ownerEntry l w a a.wg ctx p.2) with gnum := w.num * w.groups.length + p.2 })) w.groups.zipIdx

/-- The code that a workgroup of a launch runs from in a cluster, or the code of a rejection (R76, R116): a pinned copy of what the launch named when it was
accepted, or what is loaded now; `into` is the code of the group that it joins. -/
def State.admitCode (s : State) (l : Launch) (q cl : Nat) (into : Option Nat) : Except Nat (Option Nat × Code) :=
  let base := s.codesAt l.code
  match s.pinned cl base with
  | some n => .ok (some n, s.codesAt n)
  | none => match s.codeFor l.vf l.asid l.key q cl (recCode l.rec_) with
    | .error (.unreadable c) => .error (if c = cHeld then cHeld else 6)
    | .error .bad => .error 8
    | .ok c =>
      if recRegs l.rec_ ≠ c.regs ∨ recScr l.rec_ ≠ c.scr then .error 2
      else if recDet l.rec_ && !c.det then .error 5
      else if into.any fun n => (s.codesAt n).dgst != c.dgst then .error 8
      else .ok (s.pinned cl c, c)

/-- Private blocks of a launch's owner that no workgroup has (R165). -/
def State.freeBlocks (s : State) (l : Launch) (ctx : Nat) : Nat := ((List.range (bits ctx 303 292)).filter fun b => !s.wgs.any fun p => match p.2 with
  | some w => w.blk == some b && (match s.launchesAt w.launch with | some m => m.vf == l.vf && m.asid == l.asid | none => false)
  | none => false).length

/-- Whether the workgroups of a launch that are to be admitted lack private blocks, their context having come to give some (R165). -/
def State.blocksShort (s : State) (l : Launch) (ctx : Nat) (all : List Admit) : Bool :=
  bits ctx 319 304 != 0 && decide (s.freeBlocks l ctx < (all.filter fun a => match s.wgsAt a.wg with | some w => w.blk.isNone | none => false).length)

/-- Whether the reads of a workgroup's admission wait for SETFA (R337). -/
def State.admitHeld (s : State) (q : Nat) (a : Admit) : Bool :=
  match s.wgsAt a.wg, s.launchesAt a.launch with
  | some w, some l =>
    let g := s.groupsAt a.slot
    (match s.asidContext l.vf l.asid q with | .error c => c == cHeld | .ok _ => false) || (recDet l.rec_ && (match s.rangeTable l w.num q with | .error c => c == cHeld | .ok _ => false)) ||
      (match s.admitCode l q (clusterOf a.core) (if g.owners.isEmpty then none else some g.code) with
       | .error c => c == cHeld
       | .ok _ => false)
  | _, _ => false

/-- A workgroup is admitted (R118, R369): the code object is loaded where the cluster's buffer holds no copy (R76), the workgroup enters its owner tables and,
with the last of a group, the group starts. -/
def Prog.admitOne (wg q : Nat) : Prog := Prog.on fun s =>
  match s.admits.find? fun a => a.wg == wg, s.wgsAt wg with
  | some a, some w =>
    (match s.launchesAt a.launch with
     | none => Prog.skip
     | some l =>
       let ctx := s.launchCtx l q
       let g := s.groupsAt a.slot
       if !contextOk ctx then Prog.rejectLate a.launch l 4
       else match s.admitCode l q (clusterOf a.core) (if g.owners.isEmpty then none else some g.code) with
         | .error c => Prog.rejectLate a.launch l c
         | .ok (known, c) =>
           let n := known.getD s.nextId
           Prog.all [
             Prog.when known.isNone (fun _ => [.codes n c, .nextId (n + 1)]),
             Prog.on fun u => fun _ => [.wgs wg (some { w with wr := s.writeRanges l w.num q, age := u.nextId, blk := if w.blk.isSome then w.blk else (s.freeBlock l ctx).getD none }), .nextId (u.nextId + 1)],
             Prog.put (.admits (s.admits.filter fun x => x.wg != wg)),
             Prog.enter a l w ctx n,
             Prog.eventNow (dieOf a.core) 2 (a.core % 512) l.vf l.asid 0 w.lanes w.num,
             Prog.each Prog.groupStart w.groups])
  | _, _ => Prog.skip

/-- ADMISSION (R118, R369): the reads of a workgroup return, and it is admitted, unless a slice end keeps it back (R289); saved workgroups of its launch go ahead, and
it goes back to the launch (R300). The workgroups of a wave are
admitted together (R137). DEDUCED: workgroups of a launch are admitted in workgroup-number order. -/
def execAdmission (unit : Nat) (s : State) : Host.Outcome State Fault Refusal :=
  match s.admits.find? fun a => a.wg == unit, s.wgsAt unit with
  | some a, some w =>
    let before := s.admits.any fun b => b.launch == a.launch && (match s.wgsAt b.wg with | some v => !v.saved && decide (v.num < w.num) | none => false)
    (match s.launchesAt a.launch with
     | none => .next s
     | some l =>
       if w.saved || before || s.sliceHeld l then .next s
       else if s.waitsSaved a.launch then (Prog.unplace a.launch).go s
       else
         let all := if recDet l.rec_ then s.admits.filter fun b => b.launch == a.launch else [a]
         (Prog.free (2 ^ 200) fun q => Prog.on fun t => Prog.when (!all.any (t.admitHeld q) && !t.blocksShort l (t.launchCtx l q) all) (Prog.each (fun (b : Admit) => Prog.admitOne b.wg q) all)).go s)
  | _, _ => .next s

/-! ## Ends (R112, R118, R136, R242) -/

/-- Whether a workgroup has a lane left in one of its groups, started or not. -/
def State.wgHasLanes (s : State) (n : Nat) (w : Wg) : Bool :=
  w.groups.any fun k =>
    let g := s.groupsAt k
    (List.range 16).any fun e => (g.trueOwner e).valid && (g.trueOwner e).id == n && g.entPres e != 0

/-- Whether an operation that a workgroup's lanes started is still to complete (R18, R242). -/
def State.wgBusy (s : State) (n : Nat) : Bool :=
  s.ops.any (fun p => match p.2 with | some o => decide (n ∈ o.wg) | none => false) ||
    s.engs.any (fun p => match p.2 with | some e => e.owner.id == n && !e.hnd | none => false)

/-- The blocks of save areas are free again (R334): the pool's blocks are numbered by their GVA. -/
def Prog.freeArea (fn base len : Nat) : Prog := Prog.on fun s =>
  let f := s.fnsAt fn
  Prog.put (.fns fn { f with blocks := f.blocks.filter fun b => decide (b < base / 65536) || decide (base / 65536 + len ≤ b) })

/-- An eviction unit ends: all its blocks are free. -/
def Prog.freeUnit (k : Nat) (u : Saved) : Prog :=
  Prog.seq (Prog.each (fun (p : Nat × Nat) => Prog.freeArea u.fn p.1 p.2) (u.areas.zip u.lens)) (Prog.put (.saved k none))

/-- A retired workgroup leaves its eviction unit with its blocks, except that the first one's area holds the group's and stays while others are left. -/
def Prog.leaveUnit (n : Nat) : Prog := Prog.on fun s =>
  Prog.each (fun (p : Nat × Option Saved) => match p.2 with
    | some u =>
      (match findPos (· == n) u.wgs with
       | none => Prog.skip
       | some i =>
         if u.wgs.all fun m => (s.wgsAt m).isNone then Prog.freeUnit p.1 u
         else if i = 0 then Prog.skip
         else Prog.seq (Prog.freeArea u.fn (getAt 0 u.areas i) (getAt 0 u.lens i)) (Prog.put (.saved p.1 (some { u with lens := setAt u.lens i 0 }))))
    | none => Prog.skip) s.saved

/-- Whether what a function's work held stays for its scrub: a reset runs (R353), or its TDI is in ERROR and STOP_INTERFACE will scrub it (R342). -/
def State.fnHeld (s : State) (fn : Nat) : Bool := (s.fnsAt fn).fnReset != 0 || (s.fnsAt fn).tdis == 3

/-- WORKGROUP_END (R118): its usage, rows and private block are released, and its segment once nothing enters it. -/
def execWorkgroupEnd (wg : Nat) (s : State) : Host.Outcome State Fault Refusal :=
  match s.wgsAt wg with
  | none => .next s
  | some w =>
    if ((w.saved || w.saving) && !w.ended) || s.admits.any (fun a => a.wg == wg) || s.wgHasLanes wg w || s.wgBusy wg || s.fnHeld (match s.launchesAt w.launch with
        | some l => l.vf
        | none => 0) then .next s
    else
      let c := s.coresAt w.core
      (Prog.all [
        fun _ => [.wgs wg none, .cores w.core { c with
          segs := c.segs.map fun g => if g.wg == wg then { g with dead := true } else g,
          accs := c.accs.filter fun g => g.wg != wg }],
        Prog.freeSegs w.core,
        Prog.leaveUnit wg,
        (match s.launchesAt w.launch with
         | some l =>
           if w.ended then Prog.skip
           else
             Prog.all [
               Prog.put (.launches w.launch (some { l with done := l.done + 1 })),
               (match l.chain with
                | a :: _ => Prog.store (a + 68) 4 (l.done + 1)
                | [] => Prog.skip),
               Prog.eventNow (dieOf w.core) 2 (w.core % 512) l.vf l.asid 1 w.lanes w.num]
         | none => Prog.skip)]).go s

/-- GROUP_END (R112): its last fragment has ended and its outstanding operations have completed; the slot and its registers are free. -/
def execGroupEnd (grp : Nat) (s : State) : Host.Outcome State Fault Refusal :=
  let g := s.groupsAt grp
  let busy := !(s.agentOps (.grp grp 0)).isEmpty || s.engs.any (fun p => match p.2 with | some e => e.grp == grp | none => false) ||
    g.owners.any fun p => s.fnHeld p.2.vf
  if !g.live || g.handler.isSome || !g.usedFrags.isEmpty || !g.pend.isEmpty || busy then .next s
  else (Prog.seq (Prog.put (.groups grp Group.empty)) (Prog.leaveSlot grp)).go s

/-- LAUNCH_COMPLETE (R136, R333): every workgroup has completed; status and task decrement. A retired launch is gone with its last workgroup. DESIGN CHOICE: a
launch from a host queue decrements a task of die 0 (log 48). -/
def execLaunchComplete (launch : Nat) (s : State) : Host.Outcome State Fault Refusal :=
  match s.launchesAt launch with
  | none => .next s
  | some l =>
    if s.wgs.any (fun p => match p.2 with | some w => w.launch == launch | none => false) then .next s
    else
      let freeTask := match l.origin with
        | .task d n => Prog.put (.tasks (d * 4096 + n) { s.tasksAt (d * 4096 + n) with tst := 0 })
        | _ => Prog.skip
      if l.retired then
        (Prog.seq (Prog.put (.launches launch none))
          (match l.origin with | .task d n => if (s.tasksAt (d * 4096 + n)).tst = 2 then freeTask else Prog.skip | _ => Prog.skip)).go s
      else if l.done < recNwg l.rec_ then .next s
      else
        let die := match l.origin with | .queue _ _ _ => 0 | .dev d _ => d | .task d _ => d
        (Prog.all [
          Prog.put (.launches launch none),
          freeTask,
          (match l.chain with | a :: _ => Prog.nodeState a 0 | [] => Prog.skip),
          (match l.origin with
           | .queue fn q idx => Prog.status fn 2 0 q idx (recLrcb l.rec_)
           | _ => Prog.skip),
          (match recTask l.rec_ with
           | some t => Prog.decTask die t l.vf
           | none => Prog.skip)]).go s

end Sys2Proof.Machine
end

