-- ==== Sys2Proof/Machine/Resolve.lean ====
section
/-! DEFINITION. What the device writes to a function's rings (R287, R333), the resolution of fault records (R288), and the hold that outlives
DTLIM (R296). -/

namespace Sys2Proof.Machine

/-! ## Writes of the device -/

/-- Where n bytes at a GVA of an owner lie, for a write of the device, page by page. Memory of a peer is not written so (log 11). -/
def State.writeSpots (s : State) (vf asid key q : Nat) : Nat → Nat → Nat → Except Nat (List (Nat × Nat))
  | 0, _, _ => .ok []
  | fuel + 1, a, n =>
    if n = 0 then .ok []
    else
      let k := min n (4096 - a % 4096)
      match s.translate vf asid key (a % 2 ^ 56) 2 q with
      | .error c => .error c
      | .ok p =>
        if isPeer p then .error cUncorrectable
        else match s.writeSpots vf asid key q fuel (a + k) (n - k) with
          | .error c => .error c
          | .ok r => .ok ((p, k) :: r)

/-- Writes of bytes to such places. -/
def spotWrites : List (Nat × Nat) → List Byte → List Effect
  | [], _ => []
  | (p, k) :: t, l => storeBytes p (l.take k) ++ spotWrites t (l.drop k)

/-- The writes that put bytes at a generic address that must be global. -/
def State.writeGlobal (s : State) (vf asid key q a : Nat) (l : List Byte) : Except Nat (List Effect) :=
  match decodeWindow (a % 2 ^ 64) with
  | some (.global g) => (s.writeSpots vf asid key q (l.length / 4096 + 2) g l.length).map fun p => spotWrites p l
  | _ => .error cBadWindow

/-- HASID of a function (Table 20.4) and the DKEY of its context (R167). -/
def State.hasid (s : State) (fn : Nat) : Nat := s.regBits fn 0x30028 63 44
def State.hkey (s : State) (fn q : Nat) : Nat := match s.asidContext fn (s.hasid fn) q with
  | .ok w => bits w 280 271
  | .error _ => 0

/-! ## Rings (R333) -/

/-- Whether a ring takes an entry. -/
def State.ringOpen (s : State) (fn : Nat) (fault : Bool) : Bool := bit (s.reg fn (ringOff fault + 8)).toNat 63 && !s.ringFull fn fault

/-- RING_STOP (R333): the ring is disabled and RERR is set. -/
def Prog.ringStop (fn : Nat) (fault : Bool) : Prog := Prog.on fun s =>
  Prog.seq (Prog.reg fn (ringOff fault + 8) (setBits (s.reg fn (ringOff fault + 8)).toNat 63 63 0)) (Prog.fnstat fn 4)

/-- MSI-X vector v of a function is raised (R341). -/
def Prog.msi (fn v : Nat) : Prog := Prog.on fun s => Prog.put (.msix (2 * fn + v) (s.msixAt (2 * fn + v) + 1))

/-- Write an entry whole, then advance PROD; `hostFail` says that a PCIe write fails. An entry that cannot be written stops the ring and waits, and one that waits
for SETFA (R337) is written later. A TDI in
ERROR sends nothing to the host, and no interrupt (R342). -/
def Prog.ringEntry (fn : Nat) (fault hostFail : Bool) (l : List Byte) (done : Prog) : Prog := Prog.free (2 ^ 200) fun q => Prog.on fun s =>
  let off := ringOff fault
  let c := (s.reg fn (off + 8)).toNat
  let p := (s.reg fn (off + 16)).toNat
  let a := (s.reg fn off).toNat + l.length * (bits p 31 0 % 2 ^ bits c 61 58)
  let w : Except Nat (List Effect) :=
    if bit c 62 then
      (if hostFail || (s.fnsAt fn).tdis == 3 then .error cUncorrectable else .ok (storeBytes (hostKey (a % 2 ^ 64)) l))
    else s.writeGlobal fn (s.hasid fn) (s.hkey fn q) q a l
  match w with
  | .error c => if c = cHeld then Prog.skip else Prog.ringStop fn fault
  | .ok e =>
    Prog.all [
      fun _ => e,
      Prog.reg fn (off + 16) (setBits p 31 0 (bits p 31 0 + 1)),
      Prog.when (bit c 57 && (s.fnsAt fn).tdis != 3) (Prog.msi fn (if fault then 1 else 0)),
      done]

/-- A record as it is delivered: with the position that its group has then (R286). -/
def FRec.placed (r : FRec) : Nat := match r.home with
  | some k => if k < 524288 then atHome r.word k else r.word
  | none => r.word

/-- FAULT_RECORD_DELIVERY (R287): the oldest record that waits is written to the fault ring when it has room. -/
def execFaultRecordDelivery (fn : Nat) (hostFail : Bool) (s : State) : Host.Outcome State Fault Refusal :=
  match (s.fnsAt fn).faultWait with
  | [] => .next s
  | t :: rest =>
    if !s.ringOpen fn true then .next s
    else
      let word := ((s.fnsAt fn).recAt t).placed
      (Prog.ringEntry fn true hostFail (toBytes word 32) (Prog.on fun u =>
        let f := u.fnsAt fn
        Prog.put (.fns fn ({ f with faultWait := rest }.setRec t { f.recAt t with word := word, delivered := true })))).go s

/-- KIND of a status entry. -/
def statusKind (w : Nat) : Nat := bits w 63 56

/-- The bookkeeping of a status entry that has been written: it waits no longer, and the completion of a command clears CMDP (R331). -/
def Prog.statusDone (fn w : Nat) : Prog := Prog.on fun s =>
  let f := s.fnsAt fn
  let last := statusKind w == 4
  Prog.seq (Prog.put (.fns fn { f with statWait := f.statWait.drop 1, cmd := if last then none else f.cmd }))
    (Prog.when last (Prog.reg fn 8 (setBits (s.reg fn 8).toNat 5 5 0)))

/-- STATUS_ENTRY_WRITE (R333): the oldest entry that waits is written. That of a revocation is written by REVOCATION_COMPLETE (R356). -/
def execStatusEntryWrite (fn : Nat) (hostFail : Bool) (s : State) : Host.Outcome State Fault Refusal :=
  match (s.fnsAt fn).statWait with
  | [] => .next s
  | w :: _ =>
    if !s.ringOpen fn false || statusKind w == 6 then .next s
    else (Prog.ringEntry fn false hostFail (toBytes w 16) (Prog.statusDone fn w)).go s

/-! ## Saved groups (R293, R307, R314) -/

/-- Where a parked fragment of a saved group is found: eviction unit and group index, in FRec.parked. -/
def savedKey (unit idx : Nat) : Nat := 2 ^ 30 + unit * 64 + idx
def State.savedUnit (s : State) (k : Nat) : Option (Saved × Nat) :=
  if k < 2 ^ 30 then none else (s.savedAt ((k - 2 ^ 30) / 64)).map fun u => (u, (k - 2 ^ 30) % 64)

/-- Where STAT of the record of parked fragment f lies in a group save area (Table 16.4: 0x0700 + 32 f, bits 65:64). -/
def State.statSpot (s : State) (fn q area f : Nat) : Except Nat (List (Nat × Nat)) :=
  s.writeSpots fn (s.hasid fn) (s.hkey fn q) q 2 ((area + 0x708 + 32 * f) % 2 ^ 56) 1

/-- Write STAT of such a record. -/
def Prog.saveStat (fn q area f stat : Nat) : Prog := Prog.on fun s =>
  match s.statSpot fn q area f with
  | .ok [(p, _)] => Prog.store p 1 (setBits (s.load p 1) 1 0 stat)
  | _ => Prog.skip

/-- Whether that write waits for SETFA (R337). -/
def State.statHeld (s : State) (fn q area f : Nat) : Bool := match s.statSpot fn q area f with
  | .error c => c == cHeld
  | .ok _ => false

/-- The writes of STAT that need wait no longer are made. -/
def Prog.notesDue : Prog := Prog.on fun s => Prog.each (fun (p : Nat × Option Saved) => match p.2 with
  | some u =>
    if u.notes.isEmpty then Prog.skip
    else Prog.free (2 ^ 200) fun q => Prog.on fun t =>
      let held := fun (n : Nat × Nat × Nat) => t.statHeld u.fn q n.1 n.2.1
      Prog.seq (Prog.each (fun (n : Nat × Nat × Nat) => Prog.when (!held n) (Prog.saveStat u.fn q n.1 n.2.1 n.2.2)) u.notes)
        (Prog.put (.saved p.1 (some { u with notes := u.notes.filter held })))
  | none => Prog.skip) s.saved

/-- STAT of a parked fragment's record becomes known where the fragment is frozen or saved (R288, R307), there once no page is held (R337). -/
def Prog.noteStat (k f stat : Nat) : Prog := Prog.on fun s =>
  match s.savedUnit k with
  | some (u, i) => Prog.seq (Prog.put (.saved ((k - 2 ^ 30) / 64) (some { u with notes := u.notes ++ [(getAt 0 u.garea i, f, stat)] }))) Prog.notesDue
  | none =>
    let g := s.groupsAt k
    match g.handler with
    | some h =>
      let n := 0x0500 + 4 * f + 1
      let w := (Tab.get (fun _ => (0 : DWord)) h.frozen n).toNat
      Prog.put (.groups k { g with handler := some { h with frozen := Tab.put (fun _ => 0) h.frozen n (BitVec.ofNat 64 (setBits w 1 0 stat)) } })
    | none => Prog.skip

/-! ## FLTRES (R288) -/

/-- The result of a command on FLTRES. -/
def Prog.fltres (fn token res : Nat) : Prog := Prog.reg fn 0x20080 (res * 2 ^ 32 + token)

/-- Whether a token is known and not yet resolved. -/
def State.tokenOpen (s : State) (fn token : Nat) : Bool :=
  let r := (s.fnsAt fn).recAt token
  token != 0 && r.word != 0 && r.delivered && r.resolved == 0

/-- Take the one resolution of a token. -/
def Prog.resolve (fn token how : Nat) : Prog := Prog.on fun s =>
  let f := s.fnsAt fn
  Prog.put (.fns fn (f.setRec token { f.recAt token with resolved := how }))

/-- The fragment of a parked record is still parked under that token, in a group that issues. -/
def State.parkedAt (s : State) (token k i : Nat) : Bool :=
  let g := s.groupsAt k
  g.live && g.handler.isNone && (g.frag i).fst == .parked && Tab.get (fun _ => 0) g.parkRec i == token

/-- A parked fragment becomes live (R132, R288): a TRAP or DBRK continues at the next instruction (R308). -/
def Group.wake (g : Group) (i cause : Nat) : Group :=
  let f := g.frag i
  let pc := if cause = cTrapSw ∨ cause = cDebugBreak then f.pc + 12 else f.pc
  ({ g with parkRec := Tab.put (fun _ => 0) g.parkRec i 0 }.setFrag i
    { f with fst := .live, slot := 0, pc := pc, hold := .none, holdSince := none, target := false }).enqueue i

/-- A parked fragment of a group resumes, with its RESUME packet (R363). -/
def Prog.wake (k i cause : Nat) : Prog := Prog.on fun s =>
  Prog.seq (Prog.put (.groups k ((s.groupsAt k).wake i cause))) (Prog.trace (.grp k i) 0x6 [BitVec.ofNat 8 (i * 16)])

/-- Whether a resume of a record is refused: a fatal cause (R285). A Notice is only resolved. -/
def FRec.refused (r : FRec) : Bool := !(r.notice || (r.parked.isSome && resumable r.cause))

/-- Whether a handler's frozen state holds no lane of the fragment that a record parked. A restore handler has still to load its split table (R294): there the
record's lanes tell. -/
def Handler.parkGone (h : Handler) (i : Nat) (r : FRec) : Bool :=
  if h.restore then bits r.word 127 112 &&& h.pres == 0 else bits (Tab.get (fun _ => (0 : DWord)) h.frozen (0x0100 + i)).toNat 63 62 != 3

/-- Whether the fragment that a record parked has ended (R352). -/
def State.parkGone (s : State) (token : Nat) (r : FRec) : Bool :=
  match r.parked with
  | none => false
  | some (k, i) =>
    match s.savedUnit k with
    | some (u, j) => (match (getAt Group.empty u.groups j).handler with
      | some h => bits r.word 127 112 &&& h.pres == 0
      | none => true)
    | none =>
      match (s.groupsAt k).handler with
      | some h => h.parkGone i r
      | none => !s.parkedAt token k i

/-- FLTRES_RESUME (R288): the parked fragment becomes live; one that is frozen or saved when it is restored. -/
def execFltresResume (fn : Nat) (token : BitVec 32) (s : State) : Host.Outcome State Fault Refusal :=
  let t := token.toNat
  let r := (s.fnsAt fn).recAt t
  if !s.tokenOpen fn t then (Prog.fltres fn t 1).go s
  else if r.refused then (Prog.fltres fn t 2).go s
  else if s.parkGone t r then (Prog.fltres fn t 1).go s
  else
    (Prog.all [
      Prog.resolve fn t 1,
      Prog.fltres fn t 0,
      (match r.parked with
       | some (k, i) => if s.parkedAt t k i then Prog.wake k i r.cause else Prog.noteStat k i 1
       | none => Prog.skip)]).go s

/-- The chain of RCBs above a launch RCB that the device has kept (R288): that of a launch in progress, or read again from the RCB. -/
def State.keptChain (s : State) (fn node q : Nat) : List Nat :=
  match s.launches.findSome? fun p => match p.2 with
    | some l => if l.chain.headD 0 = node then some l.chain else none
    | none => none with
  | some c => c
  | none =>
    let ok := fun (x : Except Nat Nat) => match x with | .ok a => [a] | .error _ => []
    node :: (ok (s.gpaToHpa fn q (bits (s.load node 128) 511 448)) ++ ok (s.gpaToHpa 0 q (s.part fn 0)))

/-- FLTRES_KILL (R288): the fault domain of the record's owner is retired; where its fragment is frozen or saved, when that is restored. A domain that has already
retired is left as it is. DEDUCED (log 24): a kill
is no fatal fault, so that it makes no records of R287 for other entries; a context's record names no workgroup, and its kill retires nothing. -/
def execFltresKill (fn : Nat) (token : BitVec 32) (s : State) : Host.Outcome State Fault Refusal :=
  let t := token.toNat
  let r := (s.fnsAt fn).recAt t
  if !s.tokenOpen fn t then (Prog.fltres fn t 1).go s
  else
    (Prog.all [
      Prog.resolve fn t 2,
      Prog.fltres fn t 0,
      Prog.free (2 ^ 200) fun q => Prog.on fun u =>
        let node := u.domain (u.keptChain fn r.node q)
        let retired := match node with | some a => bits (u.load (a + 4) 1) 7 6 == 2 | none => false
        (match r.parked with
         | some (k, i) => Prog.when (resumable r.cause && !u.parkGone t r) (if u.parkedAt t k i then Prog.retire node 0 [] else Prog.noteStat k i 2)
         | none => Prog.when (r.notice && !retired) (Prog.retire node 0 []))]).go s

end Sys2Proof.Machine
end

