-- ==== Sys2Proof/Machine/Context.lean ====
section
/-! DEFINITION. Starting and stopping the sequencer contexts (R219, R220, R232). -/

namespace Sys2Proof.Machine

/-- The quadrant owner of a context's region: of its leading quadrant (R212, R335). -/
def State.ctxOwner (s : State) (k : Nat) : Nat := quadOwner (s.clusterEntry (k / 4)) (s.leadCtx k % 4)

/-- Whether a function reaches a context's registers: they sit in the window of the partition that owns the region (R220). -/
def State.ctxReach (s : State) (fn k : Nat) : Bool := s.ctxOwner k == fn

/-- The ASID field of a write of SQCS, ignored unless the context is idle or faulted (Table 11.4a). -/
def Ctx.sqcs (c : Ctx) (v : Nat) : Ctx := if c.state = 0 ∨ c.state = 2 then { c with asidw := bits v 23 4 } else c

/-- The owner-table entry of a context. -/
def ctxEntry (fn asid ctx : Nat) : Owner :=
  { Owner.empty with valid := true, vf := fn, asid := asid, key := bits ctx 280 271, lanes := 1, ctx := ctx }

/-- A context as GO starts it (R220), before its code is there: registers zeroed, s1 ← SQARG, BDONE 0. What it had issued before performs within its
first batch. -/
def Ctx.fresh (c : Ctx) (fn w core : Nat) : Ctx :=
  let g : Group := { Group.empty with live := true, regs := 16, pres := 1, owners := [(0, ctxEntry fn c.asidw w)], births := 1, ocrd := core, s := Tab.put (fun _ => 0) [] 1 c.arg }
  { Ctx.empty with g := g, code := c.code, entry := c.entry, arg := c.arg, asidw := c.asidw, vf := fn, asid := c.asidw, key := bits w 280 271, owned := true, passes := c.passes.map fun r => { r with batch := 0 }, starts := c.starts + 1 }

/-- The operation that reads n bytes of a context's code from a peer. -/
def codeFetch (k cyc key n : Nat) : Op :=
  { who := .ctx k, age := cyc, passed := [], kind := .fetch, slot := 0, heirs := [0], outs := [], read := true, acq := false, rel := false, released := false,
    marked := false, scope := .dev, after := [], vf := 0, asid := 0, pc := 0, wg := [],
    elems := (eights n).map fun x => elemOf 0 0 0 (key + x.1) x.2 0 0 0 false }

/-- What a context reads of its code from a peer (R220, R318): it asks for n bytes, and takes them when they are there; `i` comes again. A reading that is refused or
given up fails. -/
def Prog.codeAway (i : Instr) (k key n : Nat) (fail : Nat → Prog) : Prog := Prog.on fun s =>
  let c := s.ctxsAt k
  match c.load with
  | none => Prog.all [Prog.put (.ctxs k { c with load := some s.nextId }), Prog.newOp (codeFetch k s.cycle key n), Prog.again i]
  | some id => match s.opsAt id with
    | none => fail cUncorrectable
    | some o =>
      Prog.seq
        (Prog.when (o.elems.all (·.got))
          (Prog.seq (Prog.put (.ctxs k { c with load := none, loaded := o.elems.foldl (fun t e => Tab.put (fun _ => 0) t e.key (e.val + 1)) c.loaded }))
            (Prog.put (.ops id none))))
        (Prog.again i)

/-- The start of a context (R220): the ASID context and the code object are read; a load that fails leaves STATE 0b10 and SQPC 0. One whose reading waits for
SETFA (R337) or for a peer starts later: `i` comes again. DESIGN CHOICE: bits of SQENTRY above 31 and below 2 are dropped (log 52). -/
def Prog.ctxStart (i : Instr) (fn k : Nat) : Prog := Prog.free (2 ^ 200) fun q => Prog.on fun s =>
  let c := s.ctxsAt k
  let held := match s.asidContext fn c.asidw q with
    | .ok _ => false
    | .error e => e == cHeld
  let w := match s.asidContext fn c.asidw q with
    | .ok w => w
    | .error _ => 0
  let d := c.fresh fn w k
  let fail := fun (cause : Nat) => Prog.put (.ctxs k { d with state := 2, cause := cause })
  if held then Prog.again i
  else if !contextOk w then fail cXlatInvalid
  else match s.loadCodeVia (some c.loaded) fn c.asidw (bits w 280 271) q (k / 4) c.code.toNat with
    | .error (.unreadable cause) =>
      if cause = cHeld then Prog.again i
      else match awayOf cause with
        | some (key, n) => Prog.codeAway i k key n fail
        | none => fail cause
    | .error .bad => fail cIllegalOp
    | .ok co =>
      let n := (s.pinned (k / 4) co).getD s.nextId
      let f : Frag := { Frag.empty with fst := .live, slot := 1, mask := 1, pc := c.entry.toNat % 2 ^ 32 / 4 * 4, gate := s.cycle + 1 }
      let g := { d.g with code := n, status := if co.msafe then 2 else 0 }.setFrag 0 f
      Prog.seq (Prog.when (n == s.nextId) (fun _ => [.codes n co, .nextId (n + 1)])) (Prog.put (.ctxs k { d with state := 1, g := g }))

/-- GO (R220): a write of SQCS with GO = 1 starts an idle or faulted context that R219 enables, and resumes a stopped one. DESIGN CHOICE: after a resume no batch counts
as just closed (log 22). -/
def execGo (fn ctx : Nat) (val : BitVec 64) (s : State) : Host.Outcome State Fault Refusal :=
  hostWrite fn (Prog.on fun s =>
    if !s.ctxReach fn ctx then Prog.fnstat fn 0
    else
      let c := (s.ctxsAt ctx).sqcs val.toNat
      Prog.all [
        Prog.put (.ctxs ctx c),
        (if (s.ctxRegion ctx).isNone then Prog.skip
         else if c.state = 0 ∨ c.state = 2 then Prog.ctxStart (.go fn ctx val) fn ctx
         else if c.state = 3 then
           Prog.put (.ctxs ctx { c with state := 1, stopping := false, closedAt := none, leftHold := none, g := c.g.setFrag 0 { c.g.frag 0 with gate := s.cycle + 1 } })
         else Prog.skip),
        Prog.on fun t => Prog.when (bit val.toNat 1 && (t.ctxsAt ctx).state == 1) (Prog.put (.ctxs ctx { t.ctxsAt ctx with stopping := true }))]) s

/-- A stop is asked of a running context (R232). -/
def Prog.ctxStop (k : Nat) : Prog := Prog.on fun s =>
  Prog.when ((s.ctxsAt k).state == 1) (Prog.put (.ctxs k { s.ctxsAt k with stopping := true }))

/-- STOP (R220, R232): a write of SQCS with STOP = 1 asks a running context to stop at its next batch boundary. -/
def execStop (fn ctx : Nat) (s : State) : Host.Outcome State Fault Refusal :=
  hostWrite fn (Prog.on fun s => if !s.ctxReach fn ctx then Prog.fnstat fn 0 else Prog.ctxStop ctx) s

end Sys2Proof.Machine
end

