-- ==== Sys2Proof/Machine/Engines.lean ====
section
/-! DEFINITION. The engine instructions WLOAD, AFEED, ADRAIN, TCOPY and GATH (R240 to R247, R255, R256), what their engines do (R214 to R218, R223, R226,
R233 to R237), and WRITE_PERFORM (R186). -/

namespace Sys2Proof.Machine

/-! ## Issue -/

/-- An engine instruction: with a leader it takes its issue checks and starts (R240). -/
def engineInstr (h : Hdr) (feet : Nat → List Foot) (s : State) (leader : Ex → Option Nat) (kind : Ex → Nat → EngKind)
    (bar : Ex → Nat → Option Nat) (task : Option Nat) : Host.Outcome State Fault Refusal :=
  issue h 16 s fun x => x.only true false
    (x.check (x.guardP :: feet x.f.mask) false
      (match leader x with
       | none => x.plain (x.act != 0)
       | some l => Prog.on fun t =>
         if !t.engineRoom x.w x.g (kind x l) then Prog.skip
         else x.probe { acc := .engine (kind x l) (bar x l) task, scope := .dev, hdr := h, act := x.act, lanes := [laneReq l 0 0 0 0],
                        missing := [], faults := [], op := none, data := none, passed := [] }))

/-- The barrier operand (R239). -/
def barOf (b : Option Base) (x : Ex) (l : Nat) : Option Nat := b.map fun r => x.g.srcVal l 64 r
def barFoot (m : Nat) (b : Option Base) : List Foot := match b with
  | some r => srcFoot 64 m r
  | none => []
def taskOf (t : Option (Fin 4096)) : Option Nat := t.map (·.val)

/-- The lowest active lane (R240: AFEED and ADRAIN). -/
def Ex.firstActive (x : Ex) : Option Nat := if x.act = 0 then none else some (lowest x.act)

/-- WLOAD (R244). -/
def execWload (h : Hdr) (a : Base) (slot : Fin 256) (qm : Qm) (line : Fin 4096) (x : Async) (s : State) : Host.Outcome State Fault Refusal :=
  engineInstr h (fun m => srcFoot 64 m a ++ barFoot m x.bar ++ pFoot x.lp.val m) s (fun e => e.leader x.lp)
    (fun e l => .wload (e.g.srcVal l 64 a) slot.val (qmMask qm) line.val) (barOf x.bar) (taskOf x.task)

/-- The stride of AFEED and ADRAIN (R245). -/
def strideVal (len : Nat) (s : BitVec 16) : Nat := if s.toNat = 0 then len else s.toNat

/-- AFEED (R246). -/
def execAfeed (h : Hdr) (fmt : FeedFmt) (a : Base) (rows : Fin 64) (anc : BitVec 8) (stride : BitVec 16) (s : State) :
    Host.Outcome State Fault Refusal :=
  engineInstr h (fun m => srcFoot 64 m a) s Ex.firstActive
    (fun e l => .feed fmt (e.g.srcVal l 64 a) (rows.val + 1) anc.toNat (strideVal (feedRowLen fmt) stride)) (fun _ _ => none) none

/-- ADRAIN (R247). -/
def execAdrain (h : Hdr) (fmt : DrainFmt) (a : Base) (row rows : Fin 1024) (stride : BitVec 16) (s : State) :
    Host.Outcome State Fault Refusal :=
  engineInstr h (fun m => srcFoot 64 m a) s Ex.firstActive
    (fun e l => .drain fmt (e.g.srcVal l 64 a) row.val (rows.val + 1) (strideVal (drainRowLen fmt) stride)) (fun _ _ => none) none

/-- The coordinates of TCOPY (R255). -/
def Group.coords (g : Group) (l : Nat) : Src → List Int
  | .v r => (List.range 4).map fun i => sext (g.readV (r.val + i) l).toNat 32
  | .s r => [0, 1].flatMap fun i => [sext ((g.readS (r.val + i)).toNat) 32, sext ((g.readS (r.val + i)).toNat / 2 ^ 32) 32]
def coordFoot (m : Nat) : Src → List Foot
  | .v r => (List.range 4).flatMap fun i => vFoot (r.val + i) 32 m
  | .s r => sFoot r.val ++ sFoot (r.val + 1)

/-- TCOPY (R255). -/
def execTcopy (h : Hdr) (a : Base) (coords : Src) (x : Async) (s : State) : Host.Outcome State Fault Refusal :=
  engineInstr h (fun m => srcFoot 64 m a ++ coordFoot m coords ++ barFoot m x.bar ++ pFoot x.lp.val m) s (fun e => e.leader x.lp)
    (fun e l => .tcopy (e.g.srcVal l 64 a) 0 (e.g.coords l coords)) (barOf x.bar) (taskOf x.task)

/-- GATH (R256). -/
def execGath (h : Hdr) (d a b : Base) (lsize : Fin 13) (count : Fin 1024) (x : Async) (s : State) : Host.Outcome State Fault Refusal :=
  engineInstr h (fun m => srcFoot 64 m d ++ srcFoot 64 m a ++ srcFoot 64 m b ++ barFoot m x.bar ++ pFoot x.lp.val m) s (fun e => e.leader x.lp)
    (fun e l => .gath (e.g.srcVal l 64 d) (e.g.srcVal l 64 a) (e.g.srcVal l 64 b) (2 ^ lsize.val) (count.val + 1)) (barOf x.bar) (taskOf x.task)

/-! ## Addresses of an engine (R240) -/

/-- The group of an operation, for the constants of its code (R166). -/
def EngOp.who (e : EngOp) : Issuer := .grp e.grp 0

/-- The die that its traffic leaves: of a collective's the I/O die, on which its unit is (R315). -/
def EngOp.die (e : EngOp) : Nat := if e.cls == .col then ioDie else dieOf e.core

/-- The constants of the code that an operation's group runs, or of the handler's that issued it (R166, R242). -/
def State.engConsts (s : State) (e : EngOp) : List Byte :=
  let g := s.groupsAt e.grp
  if e.hnd then s.constsOf g else (s.codesAt g.code).consts

/-- One piece that an engine addresses: checked as though the leader lane had formed it (R163 to R172, R240). -/
def State.engAt (s : State) (e : EngOp) (a n need q : Nat) : Got :=
  match decodeWindow a with
  | none => .bad cBadWindow
  | some pl =>
    let glob := fun (gva : Nat) (ranged : Bool) =>
      match s.translate e.owner.vf e.owner.asid e.owner.key gva need q with
      | .error c => if c = cHeld then Got.miss { vf := e.owner.vf, asid := e.owner.asid, key := e.owner.key, addr := gva, page := gva / 4096, need := need } else Got.bad c
      | .ok k => if ranged && need != 1 && !s.inRanges e.det e.owner gva n then .bad cWriteRange else .at k
    match pl with
    | .const off =>
      if (s.engConsts e).length < off + n then .bad cXlatInvalid else if need ≠ 1 then .bad cXlatDenied else .const off
    | .priv off => (match s.privGva e.owner e.lane off n with
        | none => .bad cXlatInvalid
        | some gva => glob gva false)
    | .global gva => glob gva true
    | _ => match s.scratchOn e.core e.ocrd e.hnd e.owner n pl with
        | .error c => .bad c
        | .ok k => .at k

/-- What an engine meets where it reads or writes: a value or a location, a peer's memory, something that keeps it waiting, or a failure. -/
inductive EngGot where
  | val (v : Nat)
  | home (key : Nat)
  | away (key : Nat)
  | wait
  | bad (cause : Nat)
  deriving DecidableEq, Repr

/-- A location, once its path (R316) and what narrow scopes have reserved (R185) let the engine at it. -/
def State.engHome (s : State) (e : EngOp) (key n : Nat) (write : Bool) : EngGot :=
  if s.pairDown e.die key || (!write && s.lineBad key n) then .bad cUncorrectable
  else if !s.pathClear e.die key || s.reserved e.who e.after key n write then .wait
  else if isPeer key then .away key
  else .home key

/-- The read of element x, n bytes at an address; an element that has been read keeps its value. -/
def State.engGet (s : State) (e : EngOp) (x a n q : Nat) : EngGot :=
  match Tab.get (fun _ => 0) e.reads x with
  | v + 1 => .val v
  | 0 => match s.engAt e a n 1 q with
    | .at key => (match s.engHome e key n false with
      | .home k => .val (s.load k n)
      | y => y)
    | .const off => .val (ofBytes (((s.engConsts e).drop off).take n))
    | .bad c => .bad c
    | .miss _ => .wait

/-- The write of n bytes at an address. -/
def State.engPut (s : State) (e : EngOp) (a n q : Nat) : EngGot :=
  match s.engAt e a n 2 q with
  | .at key => s.engHome e key n true
  | .bad c => .bad c
  | _ => .wait

/-- Change an operation. -/
def Prog.eng (id : Nat) (e : EngOp) : Prog := Prog.put (.engs id (some e))

/-- An operation meets its first failure (R241). -/
def EngOp.failed (e : EngOp) (c a : Nat) : EngOp := if e.fail.isSome then e else { e with fail := some (c, a) }

/-- Element x is handed to the link of its peer, once (R319). -/
def Prog.engAsk (id x key : Nat) : Prog := Prog.on fun s =>
  match s.engsAt id with
  | none => Prog.skip
  | some e => Prog.when (!decide (x ∈ e.sent)) (Prog.seq (Prog.eng id { e with sent := e.sent ++ [x] }) (Prog.peerSend (peerOf key) (.access id x) 8))

/-- Element x is written to a peer: its group has written there (R321). -/
def Prog.engGive (id x key : Nat) : Prog := Prog.on fun s =>
  match s.engsAt id with
  | none => Prog.skip
  | some e =>
    let g := s.groupsAt e.grp
    Prog.seq (Prog.when g.live (Prog.put (.groups e.grp (g.wroteTo (peerOf key))))) (Prog.engAsk id x key)

/-- Element x is read, if it can be. -/
def Prog.engTake (id x a n q : Nat) : Prog := Prog.on fun s =>
  match s.engsAt id with
  | none => Prog.skip
  | some e => match s.engGet e x a n q with
    | .val v => Prog.eng id { e with reads := Tab.put (fun _ => 0) e.reads x (v + 1) }
    | .away key => Prog.engAsk id x key
    | .bad c => Prog.eng id (e.failed c a)
    | _ => Prog.skip

/-- The bytes from an address to where its translation may change: the end of its page of GVAs (R165, R168). -/
def State.engRoom (s : State) (e : EngOp) (a : Nat) : Nat :=
  match decodeWindow a with
  | some (.priv off) => (match s.privGva e.owner e.lane off 1 with
    | some g => 4096 - g % 4096
    | none => 4096)
  | _ => 4096 - a % 4096

/-- The chunks of a span between such places: offset, address and length of each. -/
def State.engChunks (s : State) (e : EngOp) : Nat → Nat → Nat → Nat → List (Nat × Nat × Nat)
  | 0, _, _, _ => []
  | fuel + 1, off, a, n =>
    if n = 0 then []
    else
      let m := min n (s.engRoom e (a % 2 ^ 64))
      (off, a % 2 ^ 64, m) :: s.engChunks e fuel (off + m) (a + m) (n - m)

/-- What the reading of a span gives: its bytes, the elements to be asked for, and whether it waits. -/
structure EngIn where
  data : List Byte
  ask : List (Nat × Nat)
  waits : Bool
  deriving DecidableEq, Repr

/-- Whether a reading is complete. -/
def EngIn.ready (x : EngIn) : Bool := x.ask.isEmpty && !x.waits

/-- The reading of a chunk whose first element is x; what has been read before keeps its value. -/
def State.engChunk (s : State) (e : EngOp) (x a n q : Nat) : Except (Nat × Nat) EngIn :=
  let have_ := fun (p : Nat × Nat) => Tab.get (fun _ => 0) e.reads (x + p.1)
  let patch := fun (l : List Byte) => if e.reads.isEmpty then l else (eights n).flatMap fun p => match have_ p with
    | v + 1 => toBytes v p.2
    | 0 => (l.drop p.1).take p.2
  match s.engAt e a n 1 q with
  | .bad c => .error (c, a)
  | .miss _ => .ok { data := [], ask := [], waits := true }
  | .const off => .ok { data := patch (((s.engConsts e).drop off).take n), ask := [], waits := false }
  | .at key => match s.engHome e key n false with
    | .home k => .ok { data := patch (s.bytes k n), ask := [], waits := false }
    | .away k => .ok { data := patch [], ask := ((eights n).filter fun p => have_ p == 0).map fun p => (x + p.1, k + p.1), waits := false }
    | .bad c => .error (c, a)
    | _ => .ok { data := [], ask := [], waits := true }

/-- The reading of chunks, whose elements count from x. -/
def State.engIn (s : State) (e : EngOp) (x q : Nat) : List (Nat × Nat × Nat) → Except (Nat × Nat) EngIn
  | [] => .ok { data := [], ask := [], waits := false }
  | (off, a, n) :: t =>
    match s.engChunk e (x + off) a n q, s.engIn e x q t with
    | .error f, _ => .error f
    | _, .error f => .error f
    | .ok u, .ok v => .ok { data := u.data ++ v.data, ask := u.ask ++ v.ask, waits := u.waits || v.waits }

/-- The reading of n bytes at an address, whose elements count from x. -/
def State.engRead (s : State) (e : EngOp) (x a n q : Nat) : Except (Nat × Nat) EngIn :=
  s.engIn e x q (s.engChunks e (n / 64 + 2) 0 a n)

/-- Ask for elements. -/
def Prog.engAskAll (id : Nat) (l : List (Nat × Nat)) : Prog := Prog.each (fun p => Prog.engAsk id p.1 p.2) l

/-! ## The pieces of a copy (R234, R256) -/

/-- How many pieces a copy has: tile elements, or parts of up to 8 bytes of gathered ones. -/
def EngKind.pieces : EngKind → Nat
  | .tcopy _ r _ => ((List.range (bits r 457 456 + 1)).map fun d => bits r (303 + 16 * d) (288 + 16 * d)).foldl (· * ·) 1
  | .gath _ _ _ size count => count * size / min size 8
  | _ => 0

/-- The tile indices of element k (dimension 0 varies fastest). -/
def tileIndex (r : Nat) : Nat → Nat → List Nat
  | 0, _ => []
  | n + 1, k =>
    let d := 3 - n
    let box := if d ≤ bits r 457 456 then bits r (303 + 16 * d) (288 + 16 * d) else 1
    k % max 1 box :: tileIndex r n (k / max 1 box)

/-- Source and destination of a tile element (R234). -/
def tileAddr (r : Nat) (coords : List Int) (k : Nat) : Nat × Nat :=
  let idx := tileIndex r 4 k
  let esz : Int := 2 ^ bits r 449 448
  let ext := fun (d : Nat) => if d ≤ bits r 457 456 then (bits r (143 + 16 * d) (128 + 16 * d) : Int) else 1
  let x := fun (d : Nat) => clamp (getAt 0 coords d + getAt 0 idx d) 0 (ext d - 1)
  let ss := fun (d : Nat) => if d = 0 then esz else sext (bits r (191 + 32 * d) (160 + 32 * d)) 32
  let ds := fun (d : Nat) => if d = 0 then esz else sext (bits r (351 + 32 * d) (320 + 32 * d)) 32
  let sum := fun (st : Nat → Int) (ix : Nat → Int) => (([0, 1, 2, 3].map fun d => st d * ix d).foldl (· + ·) 0 : Int)
  (wrap 64 ((bits r 63 0 : Int) + sum ss x), wrap 64 ((bits r 127 64 : Int) + sum ds fun d => ((getAt 0 idx d : Nat) : Int)))

/-- A piece: source, destination and bytes; or the index that is read first, as an element of its own (R256). -/
inductive Piece where
  | move (src dst n : Nat)
  | index (x a : Nat)
  deriving DecidableEq, Repr

def EngOp.piece (e : EngOp) (k : Nat) : Piece :=
  match e.kind with
  | .tcopy _ r c => let p := tileAddr r c k; .move p.1 p.2 (2 ^ bits r 449 448)
  | .gath d src idx size _ =>
    let u := min size 8
    let j := k * u / size
    (match Tab.get (fun _ => 0) e.reads (e.kind.pieces + j) with
     | 0 => .index (e.kind.pieces + j) ((idx + 4 * j) % 2 ^ 64)
     | i + 1 => .move ((src + i * size + k * u % size) % 2 ^ 64) ((d + k * u) % 2 ^ 64) u)
  | _ => .move 0 0 0

/-- Where the elements of a collective's result and its STAT are numbered from (R327). -/
def dstBase : Nat := 1099511627776
def statBase : Nat := 2199023255552

/-- The address of element x of an operation. -/
def EngOp.addr (e : EngOp) (x : Nat) : Nat :=
  match e.kind with
  | .tcopy _ _ _ => (match e.piece x with | .move s d _ => if Tab.get (fun _ => 0) e.reads x = 0 then s else d | .index _ a => a)
  | .gath _ _ idx _ _ => if e.kind.pieces ≤ x then (idx + 4 * (x - e.kind.pieces)) % 2 ^ 64 else (match e.piece x with
    | .move s d _ => if Tab.get (fun _ => 0) e.reads x = 0 then s else d
    | .index _ a => a)
  | .wload a _ _ _ => (a + x) % 2 ^ 64
  | .coll a d => (if x < dstBase then bits d 511 448 + x else if x < statBase then bits d 447 384 + (x - dstBase) else a + 7) % 2 ^ 64
  | .feed _ a _ _ stride | .drain _ a _ _ stride => (a + x * stride) % 2 ^ 64

/-- The range-scoreboard entry of an operation is released (R194). -/
def Prog.unrange (core id : Nat) : Prog := Prog.on fun s =>
  let c := s.coresAt core
  Prog.put (.cores core { c with ranges := c.ranges.filter fun r => r.op != id })

/-- A piece has been written; with the last one, the operation's range is free (R194). -/
def Prog.pieceDone (id k n : Nat) : Prog := Prog.on fun s =>
  match s.engsAt id with
  | none => Prog.skip
  | some e =>
    let e1 := { e with early := e.early ++ [k], reads := Tab.put (fun _ => 0) e.reads k 0, bytes := e.bytes + n }
    Prog.seq (Prog.eng id e1) (Prog.when (e1.early.length == e.kind.pieces) (Prog.unrange e.core id))

/-- One step of a piece: its index is read, it is read, or it is written (R234, R256); a peer is asked for it, or handed it (R319). -/
def Prog.pieceStep (id k q : Nat) : Prog := Prog.on fun s =>
  match s.engsAt id with
  | none => Prog.skip
  | some e =>
    if e.fail.isSome || k ∈ e.early then Prog.skip
    else match e.piece k with
      | .index x a => Prog.engTake id x a 4 q
      | .move src dst n =>
        match Tab.get (fun _ => 0) e.reads k with
        | 0 => Prog.engTake id k src n q
        | v + 1 =>
          match s.engPut e dst n q with
          | .home key => Prog.seq (Prog.store key n v) (Prog.pieceDone id k n)
          | .away key => Prog.engGive id k key
          | .bad c => Prog.eng id (e.failed c dst)
          | _ => Prog.skip

/-- The pieces of a copy, one after the other, as far as they go. -/
def Prog.piecesRest (id q : Nat) (l : List Nat) : Prog :=
  Prog.each (fun k => Prog.all [Prog.pieceStep id k q, Prog.pieceStep id k q, Prog.pieceStep id k q]) l

/-- The pieces of a copy still to be written. -/
def EngOp.todo (e : EngOp) : List Nat := (List.range e.kind.pieces).filter fun k => !decide (k ∈ e.early)

/-! ## Images (R214 to R218) -/

/-- One step of CRC-32 (R217). -/
def crcBit (c : Nat) : Nat := if c % 2 = 1 then (c / 2) ^^^ 0xEDB88320 else c / 2
def crcByte (c : Nat) (b : Byte) : Nat :=
  crcBit (crcBit (crcBit (crcBit (crcBit (crcBit (crcBit (crcBit (c ^^^ b.toNat))))))))
/-- The CRC-32 of IEEE 802.3. -/
def crc32 (l : List Byte) : Nat := (l.foldl crcByte 0xFFFFFFFF) ^^^ 0xFFFFFFFF

/-- Fields of an image header (Table 11.2). -/
def imgKind (h : Nat) : Nat := bits h 59 58
def imgNcol (h : Nat) : Nat := bits h 47 40 + 1
def imgK (h : Nat) : Nat := bits h 39 32 + 1
def imgNmw (h : Nat) : Nat := bits h 15 0
/-- Bytes of the mask area. -/
def imgMaskLen (h : Nat) : Nat := ceilDiv (8 * imgNmw h) 64 * 64
/-- Bytes after the header. -/
def imgLen (h : Nat) : Nat := imgMaskLen h + imgNcol h * (8 * latchLen (imgK h))

/-- The checks of R214 to R218 on a header, the bytes after it, the target region and the base line. DESIGN CHOICE: a nonzero reserved bit of the header fails them
(log 52). -/
def imageOk (h : Nat) (rest : List Byte) (region base : Nat) : Bool :=
  let tall := bit h 57
  let wide := bit h 56
  let nsp := bits h 55 48
  let g := bits h 31 16
  let k := imgK h
  let masks := (List.range (imgNmw h)).map fun i => ofBytes ((rest.drop (8 * i)).take 8)
  bits h 511 96 == 0 && bits h 63 60 == 0 && imgKind h != 3 && tall == isTall region && wide == isWide region &&
    decide (1 ≤ g) && decide (g ≤ 4096) && decide (k ≤ if tall then 256 else 128) && decide (imgNcol h ≤ if wide then 256 else 128) &&
    decide (base + latchLen k ≤ 4096) &&
    (match imgKind h with
     | 0 =>
       let m := masks.zipIdx.foldl (fun t p => t + p.1 * 2 ^ (64 * p.2)) 0
       g % 8 == 0 && imgNmw h == ceilDiv g 512 && nsp == 0 && m / 2 ^ (g / 8) == 0 && k == 8 * popcount m (g / 8)
     | 1 =>
       g % 64 == 0 && imgNmw h == g / 64 && decide (8 ≤ nsp) && decide (nsp ≤ 56) && nsp % 8 == 0 &&
         masks.all (fun m => popcount m 64 == nsp) && k == nsp * imgNmw h
     | _ =>
       tall == wide && imgNmw h == 0 && nsp == 0 && g == (if tall then 256 else 128) && imgNcol h == g && k == (if tall then 16 else 8)) &&
    crc32 rest == bits h 95 64

/-- Whether the lines of two slots meet: columns and lines. -/
def slotsMeet (ma na ba la mb nb bb lb : Nat) : Bool :=
  ((regionCols ma).take na).any (fun c => decide (c ∈ (regionCols mb).take nb)) && decide (ba < bb + lb) && decide (bb < ba + la)

/-- The slot that a WLOAD writes at its start (Table 11.3), V clear. -/
def slotWord (vf m h base : Nat) : Nat :=
  vf % 64 * 2 ^ 57 + m * 2 ^ 53 + imgKind h * 2 ^ 51 + (imgNcol h - 1) * 2 ^ 43 + (imgK h - 1) * 2 ^ 35 + latchLen (imgK h) % 8 * 2 ^ 32 +
    base * 2 ^ 20

/-- WLOADs in progress in a cluster that started before one. -/
def State.olderWloads (s : State) (cl turn : Nat) : List (Nat × EngOp) :=
  s.engs.filterMap fun p => match p.2 with
    | some e => if clusterOf e.core = cl ∧ e.cls = .wld ∧ e.taken = true ∧ e.turn < turn ∧ e.done = false then some (p.1, e) else none
    | none => none

/-- Mark operations stale (R244). -/
def Prog.stale (l : List (Nat × EngOp)) : Prog :=
  Prog.each (fun p => Prog.on fun s => match s.engsAt p.1 with
    | some e => Prog.eng p.1 { e with stale := true }
    | none => Prog.skip) l

/-- A WLOAD starts (R218, R244): V of its slot and of those whose lines meet its own becomes 0. -/
def Prog.wloadStart (e : EngOp) (h : Nat) : Prog := Prog.on fun s =>
  match e.kind with
  | .wload _ slot m base =>
    let cl := clusterOf e.core
    let own := cl * 256 + slot
    let l := latchLen (imgK h)
    Prog.all [
      Prog.each (fun j => Prog.on fun t =>
        let w := (t.imagesAt (cl * 256 + j)).toNat
        Prog.when (slotV w && slotsMeet (slotQm w) (slotNcol w) (slotBase w) (latchLen (slotK w)) m (imgNcol h) base l)
          (Prog.put (.images (cl * 256 + j) (BitVec.ofNat 64 (w % 2 ^ 63))))) (List.range 256),
      Prog.put (.images own (BitVec.ofNat 64 (slotWord e.owner.vf m h base))),
      Prog.stale ((s.olderWloads cl e.turn).filter fun p => match p.2.kind with | .wload _ sl _ _ => sl == slot | _ => false)]
  | _ => Prog.skip

/-- One line of an image is written (R218): column n, line j; WLOADs that started earlier and write it too are barred from V (R244). -/
def Prog.wloadLine (n j : Nat) (e : EngOp) (line : List Byte) : Prog := Prog.on fun s =>
  match e.kind with
  | .wload _ _ m base =>
    let cl := clusterOf e.core
    let col := getAt 0 (regionCols m) n
    let hit := (s.olderWloads cl e.turn).filter fun p => match p.2.kind with
      | .wload _ sl m2 b2 =>
        let w := (s.imagesAt (cl * 256 + sl)).toNat
        decide (col ∈ (regionCols m2).take (slotNcol w)) && decide (b2 ≤ base + j) && decide (base + j < b2 + latchLen (slotK w))
      | _ => false
    Prog.all [fun _ => storeBytes (patternKey cl col (base + j) 0) line ++ [.badLines (lineNum cl col (base + j)) 0], Prog.stale hit]
  | _ => Prog.skip

/-- The header that a WLOAD has read. -/
def EngOp.header (e : EngOp) : Nat := ofBytes ((List.range 8).flatMap fun i => toBytes (Tab.get (fun _ => 0) e.reads (8 * i) - 1) 8)

/-- The header of a WLOAD cannot be read (R218): the slot that it names loses V, and older WLOADs that name it are barred from it. -/
def Prog.wloadUnread (e : EngOp) : Prog := Prog.on fun s =>
  match e.kind with
  | .wload _ slot _ _ =>
    let own := clusterOf e.core * 256 + slot
    Prog.seq (Prog.put (.images own (BitVec.ofNat 64 ((s.imagesAt own).toNat % 2 ^ 63))))
      (Prog.stale ((s.olderWloads (clusterOf e.core) e.turn).filter fun p => match p.2.kind with | .wload _ sl _ _ => sl == slot | _ => false))
  | _ => Prog.skip

/-- WLOAD reads its header, once (R244), and starts; where it cannot be read, only the slot that it names loses V. -/
def Prog.wloadHead (id q : Nat) : Prog := Prog.on fun s =>
  match s.engsAt id with
  | none => Prog.skip
  | some e => match e.kind with
    | .wload a _ _ _ =>
      (match s.engRead e 0 a 64 q with
       | .error f => Prog.seq (Prog.wloadUnread e) (Prog.eng id { e.failed f.1 f.2 with steps := 1 })
       | .ok r =>
         if r.ready then
           let words := (List.range 8).foldl (fun t i => Tab.put (fun _ => 0) t (8 * i) (ofBytes ((r.data.drop (8 * i)).take 8) + 1)) e.reads
           Prog.seq (Prog.wloadStart e (ofBytes r.data)) (Prog.eng id { e with steps := 1, reads := words })
         else Prog.engAskAll id r.ask)
    | _ => Prog.skip

/-- WLOAD ends: the image as it has been read is checked, its lines are written, and V is set (R217, R218, R244). -/
def Prog.wloadEnd (id : Nat) (e : EngOp) (rest : List Byte) : Prog := fun s =>
  match e.kind with
  | .wload a slot m base =>
    let own := clusterOf e.core * 256 + slot
    let h := e.header
    if !imageOk h rest m base then Prog.eng id (e.failed cFormatLatch a) s
    else
      let l := latchLen (imgK h)
      let recs := rest.drop (imgMaskLen h)
      Prog.all [
        Prog.each (fun k => Prog.when (!decide (k ∈ e.early))
          (Prog.wloadLine (k / l) (k % l) e ((recs.drop (8 * k)).take 8))) (List.range (imgNcol h * l)),
        Prog.eng id { e with bytes := 64 + imgLen h },
        Prog.when (!e.stale) (Prog.on fun _ => Prog.put (.images own (BitVec.ofNat 64
          (slotWord e.owner.vf m h base + 2 ^ 63))))] s
  | _ => []

/-- Line `elem` of a WLOAD's image is read, or written once it has been. -/
def Prog.wloadStep (id elem q : Nat) : Prog := Prog.on fun s =>
  match s.engsAt id with
  | none => Prog.skip
  | some e => match e.kind with
    | .wload a _ m base =>
      let h := e.header
      let l := latchLen (imgK h)
      let x := 64 + imgMaskLen h + 8 * elem
      if imgNcol h * l ≤ elem ∨ 4096 < base + l ∨ (regionCols m).length < imgNcol h ∨ elem ∈ e.early then Prog.skip
      else (match Tab.get (fun _ => 0) e.reads x with
        | 0 => Prog.engTake id x ((a + x) % 2 ^ 64) 8 q
        | v + 1 => Prog.seq (Prog.wloadLine (elem / l) (elem % l) e (toBytes v 8)) (Prog.on fun u => match u.engsAt id with
          | some e1 => Prog.eng id { e1 with early := e1.early ++ [elem] }
          | none => Prog.skip))
    | _ => Prog.skip

/-! ## Ending an operation (R182, R197, R235, R241) -/

/-- A byte addition (R197): the new word, or none for BARRIER_FORMAT. -/
def byteAddition (w u : Nat) : Option Nat :=
  if !barOk w || barBM w == 0 || decide (barEXP w < barARR w + u) then none
  else if barARR w + u = barEXP w then some (barWord (1 - barPH w) 1 (barEXP w) 0 0)
  else some (barWord (barPH w) 1 (barEXP w) (barARR w + u) (barDLT w))

/-- The failure that an entry keeps (R287): its first, with the number of further ones. -/
def keepFail (f : Failure) (e : EngOp) (c a : Nat) : Failure :=
  if f.cause = 0 then { cls := e.cls, num := e.num, cause := c, addr := a, pc := e.pc, nfail := f.nfail }
  else { f with nfail := min (f.nfail + 1) 65535 }

/-- Word w of a record of 256 bits. -/
def recPart (r w : Nat) : DWord := BitVec.ofNat 64 (r / 2 ^ (64 * w))

/-- The record of a failure in block 0x06 of a handler's frozen state (R307): a second failure raises NFAIL of the one kept. -/
def Handler.frozenFail (h : Handler) (e : EngOp) (c a : Nat) : Handler :=
  let k := 0x0600 + 4 * e.ent
  let old := (List.range 4).foldl (fun x w => x + (Tab.get (fun _ => (0 : DWord)) h.frozen (k + w)).toNat * 2 ^ (64 * w)) 0
  let o := Tab.get (fun _ => Owner.empty) h.owners e.ent
  let d := dieOf e.core
  let r := if bit old 0 then setBits old 40 25 (min (bits old 40 25 + 1) 65535)
           else recWord a 0 e.pc 0 c cEngineFault o.vf o.asid e.ent d (clusterOf e.core % 128) (e.core % 4) (e.grp % 256) 0 0 false
  { h with frozen := (List.range 4).foldl (fun t w => Tab.put (fun _ => 0) t (k + w) (recPart r w)) h.frozen }

/-- A failure is recorded against the leader's entry (R241, R287): one is kept, further ones are counted. It is discarded where the entry has been retired,
and it is delivered at once where the entry has no lane left. -/
def Prog.recordFail (e : EngOp) : Prog := Prog.on fun s =>
  match e.fail with
  | none => Prog.skip
  | some (c, a) =>
    let g := s.groupsAt e.grp
    match g.handler with
    | some h =>
      let o := Tab.get (fun _ => Owner.empty) h.owners e.ent
      if !g.live || e.hnd || !o.valid || o.id != e.owner.id then Prog.skip
      else if o.lanes &&& h.pres = 0 then Prog.noticeOf (.grp e.grp 0) o e.ent (keepFail Failure.none e c a)
      else Prog.put (.groups e.grp { g with handler := some (h.frozenFail e c a), fails := (g.setFail e.ent (keepFail (g.fail e.ent) e c a)).fails })
    | none =>
      let o := g.owner e.ent
      if !g.live || e.hnd || !o.valid || o.id != e.owner.id then Prog.skip
      else
        Prog.seq (Prog.put (.groups e.grp (g.setFail e.ent (keepFail (g.fail e.ent) e c a))))
          (Prog.when (o.lanes &&& g.pres == 0) (Prog.notice (.grp e.grp 0) e.ent))

/-- Reports of a class reach the group in issue order (R182): each takes 1 from its counter. -/
def Prog.report (grp : Nat) (cls : EClass) : Prog := Prog.on fun s =>
  let mine := s.engs.filterMap fun p => match p.2 with
    | some e => if e.grp = grp ∧ e.cls = cls then some (p.1, e) else none
    | none => none
  let out := mine.takeWhile fun p => p.2.done
  let c := eclassNum cls
  Prog.seq (fun _ => out.map fun p => .engs p.1 none)
    (Prog.put (.groups grp ((s.groupsAt grp).setEng c ((s.groupsAt grp).engCount c - out.length))))

/-- Whether the byte addition of an operation must wait for its path. -/
def State.barWaits (s : State) (e : EngOp) (q : Nat) : Bool :=
  e.bar.any fun a => match s.engAt e a 8 4 q with
    | .at k => !s.pairDown e.die k && (!s.pathClear e.die k || s.reserved e.who e.after k 8 true)
    | _ => false

/-- An operation completes (R235): with a barrier it adds its bytes, with a task it decrements it, its failure is recorded, and it reports. -/
def Prog.finishEng (id q : Nat) : Prog :=
  Prog.all [
    Prog.on fun s => match s.engsAt id with
      | some e => (match e.fail, e.bar with
        | none, some a => (match s.engAt e a 8 4 q with
          | .at k => if s.pairDown e.die k then Prog.eng id (e.failed cUncorrectable a) else (match byteAddition (s.load k 8) (ceilDiv e.bytes 64) with
            | some w => Prog.store k 8 w
            | none => Prog.eng id (e.failed cBarrierFormat a))
          | .bad c => Prog.eng id (e.failed c a)
          | _ => Prog.skip)
        | _, _ => Prog.skip)
      | none => Prog.skip,
    Prog.on fun s => match s.engsAt id with
      | some e =>
        Prog.all [
          (match e.fail, e.task with
           | none, some t => Prog.decTask (dieOf e.core) t e.owner.vf
           | _, _ => Prog.skip),
          Prog.recordFail e,
          Prog.eventNow (dieOf e.core) 5 (clusterOf e.core % 128) e.owner.vf e.owner.asid (eclassNum e.cls) (min ((s.cycle - e.since) / 64) 65535) e.bytes,
          Prog.unrange e.core id,
          Prog.eng id { e with done := true },
          Prog.freeSegs e.core,
          Prog.report e.grp e.cls]
      | none => Prog.skip]

/-! ## The copy engine (R236, R237) -/

/-- Copies in progress in a cluster. -/
def State.copiesTaken (s : State) (cl : Nat) : Nat :=
  (s.engs.filter fun p => match p.2 with
    | some e => decide (clusterOf e.core = cl) && e.taken && !e.done && (match e.cls with | .cpy | .wld | .gth => true | _ => false)
    | none => false).length

/-- The core whose queue the copy engine takes from next: round robin, cores with waiting copies. DESIGN CHOICE: after reset it begins at core 0 of the cluster
(log 52). -/
def State.copyPick (s : State) (cl : Nat) : Option Nat :=
  ((List.range 4).map fun i => 4 * cl + (s.copyTurnAt cl + i) % 4).find? fun c => !(s.coresAt c).copyQ.isEmpty

/-- COPY_START (R236): the copy engine takes an operation, if fewer than eight are in progress and what its Start edge covers has performed (R182). -/
def execCopyStart (cluster : Nat) (s : State) : Host.Outcome State Fault Refusal :=
  match s.copyPick cluster with
  | none => .next s
  | some core =>
    match (s.coresAt core).copyQ with
    | [] => .next s
    | id :: rest =>
      let ready := match s.engsAt id with
        | some e => e.after.all fun i => (s.opsAt i).isNone
        | none => true
      if 8 ≤ s.copiesTaken cluster ∨ ready = false then .next s
      else
        (Prog.free (2 ^ 200) fun q => Prog.on fun t =>
          match t.engsAt id with
          | some e =>
            let e1 := { e with taken := true, turn := t.nextId }
            Prog.all [
              fun _ => [.cores core { t.coresAt core with copyQ := rest }, .copyTurn cluster ((core % 4 + 1) % 4), .nextId (t.nextId + 1),
                        .engs id (some e1)],
              Prog.wloadHead id q]
          | none => Prog.put (.cores core { t.coresAt core with copyQ := rest })).go s

/-- COPY_COMPLETE (R235): what is left of a copy is carried out as far as it goes, and with nothing left it completes. With `err`, it meets an uncorrectable
error in a line that it reads, a free one (R299). -/
def execCopyComplete (op : Nat) (err : Bool) (s : State) : Host.Outcome State Fault Refusal :=
  match s.engsAt op with
  | none => .next s
  | some e =>
    let copy := match e.cls with | .cpy | .wld | .gth => true | _ => false
    if !copy || !e.taken || e.done then .next s
    else
      (Prog.free (2 ^ 200) fun q =>
        let finish := Prog.on fun (t : State) => match t.engsAt op with
          | some u => Prog.when (u.fail.isSome || !t.barWaits u q) (Prog.finishEng op q)
          | none => Prog.skip
        if err then Prog.seq (Prog.eng op (e.failed cUncorrectable (match e.kind with
          | .wload a _ _ _ => a + 64 * (q % 64)
          | _ => e.addr (q % max 1 e.kind.pieces)))) finish
        else if e.fail.isSome then finish
        else match e.kind with
          | .wload a _ _ _ =>
            if e.steps = 0 then Prog.wloadHead op q
            else Prog.on fun t => match t.engRead e 64 (a + 64) (imgLen e.header) q with
              | .error f => Prog.seq (Prog.eng op (e.failed f.1 f.2)) finish
              | .ok r =>
                if !r.ready then Prog.engAskAll op r.ask
                else if t.barWaits e q then Prog.skip
                else Prog.seq (Prog.wloadEnd op e r.data) finish
          | _ => Prog.seq (Prog.piecesRest op q e.todo) (Prog.on fun t => match t.engsAt op with
            | some u => Prog.when (u.fail.isSome || u.todo.isEmpty) finish
            | none => Prog.skip)).go s

/-! ## WRITE_PERFORM (R186) -/

/-- WRITE_PERFORM (R186): an element of a store or of TMOV performs; of a copy in progress, a piece is read or written, of WLOAD a line. -/
def execWritePerform (op elem : Nat) (s : State) : Host.Outcome State Fault Refusal :=
  match s.engsAt op with
  | none => (Prog.writeElem op elem).go s
  | some e =>
    if !e.taken || e.done || e.fail.isSome then .next s
    else match e.kind with
      | .wload _ _ _ _ => (Prog.free (2 ^ 200) fun q => if e.steps = 0 then Prog.wloadHead op q else Prog.wloadStep op elem q).go s
      | .tcopy _ _ _ | .gath _ _ _ _ _ =>
        if e.kind.pieces ≤ elem then .next s else (Prog.free (2 ^ 200) fun q => Prog.pieceStep op elem q).go s
      | _ => .next s

/-! ## The feeder (R42, R223, R246) -/

/-- A grid value of m · 2^x at an anchor, with its flags (R42). -/
def gridOf (neg : Bool) (m : Nat) (x : Int) (anc : Nat) : Int × Nat :=
  let (n, inexact) := roundUnits .rn neg m (x + 20 - sext anc 8) 0
  let c := min n 8388607
  ((if neg then -(c : Int) else (c : Int)), (if inexact then fINX else 0) ||| (if c = n then 0 else fSAT))

/-- The grid value of a floating-point activation. -/
def gridFp (f : Fmt) (x anc : Nat) : Int × Nat :=
  match decodeFp f x with
  | .nan _ => (0, fSAT)
  | .inf n => (if n then -8388607 else 8388607, fSAT)
  | .fin n m e => if m = 0 then (0, 0) else gridOf n m e anc

/-- The grid value of a block element. -/
def gridBlock (v : Int × Int) (anc : Nat) : Int × Nat := if v.1 = 0 then (0, 0) else gridOf (decide (v.1 < 0)) v.1.natAbs v.2 anc

/-- A row of activations: 128 grid values, their flags, and whether a Q8 block has an illegal scale byte (R246, Table 12.3). -/
def feedRow (fmt : FeedFmt) (raw : List Nat) (anc : Nat) : List (Int × Nat) × Bool :=
  let f16 := fun (f : Fmt) => (List.range 128).map fun j => gridFp f (getAt 0 raw (2 * j) + 256 * getAt 0 raw (2 * j + 1)) anc
  let f8 := fun (f : Fmt) => (List.range 128).map fun j => gridFp f (getAt 0 raw j) anc
  match fmt with
  | .f16 => (f16 .f16, false)
  | .bf16 => (f16 .bf16, false)
  | .e4m3 => (f8 .e4m3, false)
  | .e5m2 => (f8 .e5m2, false)
  | .q4 =>
    ((List.range 128).map fun j =>
      let b := raw.drop (17 * (j / 32))
      let i := j % 32
      gridBlock (q4Value (getAt 0 b 0) (getAt 0 b (1 + i / 2) / (if i % 2 = 0 then 1 else 16) % 16)) anc, false)
  | .q8 =>
    ((List.range 128).map fun j =>
      let b := raw.drop (33 * (j / 32))
      if 64 ≤ getAt 0 b 0 then (0, 0) else gridBlock (q8Value (getAt 0 b 0) (getAt 0 b (1 + j % 32))) anc,
     (List.range 4).any fun i => decide (64 ≤ getAt 0 raw (33 * i)))

/-- Flags that reach a group whose handler runs: its FLAGS, which the handler reads; the victim's, where the victim started the operation; and those of a guest
handler that it has interrupted, unless the running handler started it. -/
def Handler.flagged (h : Handler) (e : EngOp) (f : Nat) : Handler :=
  let b := BitVec.ofNat 64 f &&& flagsW1c
  let before := !e.hnd || decide (e.since ≤ (Tab.get (fun _ => (0 : DWord)) h.header 3).toNat)
  { h with vflags := if e.hnd then h.vflags else h.vflags ||| b, guest := if before then h.guest.map fun x => { x with flags := x.flags ||| b } else h.guest }

/-- Flags reach the group of an operation (R45). -/
def Prog.engFlags (e : EngOp) (f : Nat) : Prog := Prog.on fun s =>
  let g := s.groupsAt e.grp
  Prog.when (f != 0 && g.live) (Prog.put (.groups e.grp { g.writeOuts (flagOut f) with handler := g.handler.map fun h => h.flagged e f }))

/-- FEED_ROW_APPEND (R246): the feeder of a core decodes the next row of its AFEED and appends it, if the feed queue has room. -/
def execFeedRowAppend (core : Nat) (s : State) : Host.Outcome State Fault Refusal :=
  match (s.coresAt core).feedQ with
  | [] => .next s
  | id :: rest =>
    match s.engsAt id with
    | some e =>
      (match e.kind with
       | .feed fmt a rows anc stride =>
         if !e.after.all (fun i => (s.opsAt i).isNone) || decide (64 ≤ (s.coresAt core).rows.length) then .next s
         else match s.engAt e ((a + e.steps * stride) % 2 ^ 64) (feedRowLen fmt) 1 0 with
           | .at k =>
             if s.reserved e.who e.after k (feedRowLen fmt) false then .next s else
             let r := feedRow fmt ((s.bytes k (feedRowLen fmt)).map (·.toNat)) anc
             let e1 := { (if r.2 then e.failed cFormatLatch ((a + e.steps * stride) % 2 ^ 64) else e) with
                         taken := true, steps := e.steps + 1, bytes := e.bytes + feedRowLen fmt }
             let last := decide (rows ≤ e.steps + 1)
             let c := s.coresAt core
             (Prog.all [
               Prog.put (.cores core { c with rows := c.rows ++ [{ vals := r.1.map (·.1), anc := anc }], feedQ := if last then rest else c.feedQ }),
               Prog.eng id e1,
               Prog.engFlags e (r.1.foldl (fun m y => m ||| y.2) 0),
               Prog.when last (Prog.finishEng id 0)]).go s
           | _ => .next s
       | _ => .next s)
    | none => .next (runAll s [.cores core { s.coresAt core with feedQ := rest }])

/-! ## The drain engine (R46, R226, R228, R247) -/

def drainFmt : DrainFmt → Fmt
  | .f32 => .f32
  | .f16 => .f16
  | .bf16 => .bf16
  | .e4m3 => .e4m3

/-- A drained entry with its flags (R46). -/
def drainVal (f : Fmt) (a : Int) (anc scale : Nat) : Nat × Nat :=
  let neg := decide (a < 0)
  match decodeFp .f32 scale with
  | .nan _ => (nanBits f, fNV)
  | .inf n =>
    if a = 0 then (nanBits f, fNV)
    else if f = .e4m3 then (withSign f (neg != n) 0x7E, fOF + fNX)
    else (withSign f (neg != n) (infBits f), 0)
  | .fin n m e =>
    if a = 0 then (0, 0)
    else if m = 0 then (withSign f (neg != n) 0, 0)
    else fpRound f .rn (f == .e4m3) (neg != n) (a.natAbs * m) (e + sext anc 8 - 20)

/-- Before a row is read, passes may have performed in some of its columns, each entry whole (R228): the number is free for each column. -/
def Prog.drainChoice (k core row : Nat) : Prog := Prog.on fun s =>
  let n := (s.ctxsAt k).passes.length
  let cut := (List.range 128).map fun c => s.freeAt c % (n + 1)
  Prog.seq (Prog.put (.fresh (s.fresh + 128)))
    (Prog.perform k fun i r =>
      if r.core = core ∧ (r.kind = .scale ∨ r.row = row) then
        (cut.zipIdx.foldl (fun m p => if i < p.1 then m + 2 ^ p.2 else m) 0)
      else 0)

/-- The bytes of a drained row and its flags. -/
def State.drainedRow (s : State) (core r : Nat) (f : Fmt) : List Byte × Nat :=
  let mt := s.accMetaAt (core * 1024 + r)
  let w := fmtBits f / 8
  let vals := (List.range 128).map fun n =>
    if bit mt 11 then drainVal f (s.accAt ((core * 1024 + r) * 128 + n)) (mt % 256) (s.scalesAt ((core * 8 + bits mt 10 8) * 128 + n)).toNat
    else (0, 0)
  (vals.flatMap fun v => toBytes v.1 w, vals.foldl (fun m v => m ||| v.2) (if bit mt 12 then fOVF else 0))

/-- DRAIN_ROW (R226, R247): the drain engine of a core converts and writes the next row of its ADRAIN. -/
def execDrainRow (core : Nat) (s : State) : Host.Outcome State Fault Refusal :=
  match (s.coresAt core).drainQ with
  | [] => .next s
  | id :: _ =>
    match s.engsAt id with
    | some e =>
      (match e.kind with
       | .drain fmt a row rows stride =>
         if rows ≤ e.steps ∨ e.after.all (fun i => (s.opsAt i).isNone) = false then .next s
         else
           let r := row + e.steps
           (Prog.seq (Prog.drainChoice (s.leadCtx core) core r) (Prog.on fun t =>
             match t.engAt e ((a + e.steps * stride) % 2 ^ 64) (drainRowLen fmt) 2 0 with
             | .at k =>
               if t.reserved e.who e.after k (drainRowLen fmt) true then Prog.skip else
               let d := t.drainedRow core r (drainFmt fmt)
               Prog.all [
                 fun _ => storeBytes k d.1,
                 Prog.engFlags e d.2,
                 Prog.when (decide (rows ≤ e.steps + 1)) (Prog.unrange core id),
                 Prog.eng id { e with taken := true, steps := e.steps + 1, bytes := e.bytes + drainRowLen fmt }]
             | _ => Prog.skip)).go s
       | _ => .next s)
    | none => .next s

/-- DRAIN_COMPLETE (R247): every row has been written. -/
def execDrainComplete (op : Nat) (s : State) : Host.Outcome State Fault Refusal :=
  match s.engsAt op with
  | some e =>
    (match e.kind with
     | .drain _ _ _ rows _ =>
       if e.steps < rows ∨ e.done = true then .next s
       else (Prog.seq (Prog.on fun t => Prog.put (.cores e.core { t.coresAt e.core with drainQ := (t.coresAt e.core).drainQ.filter (· != op) }))
              (Prog.finishEng op 0)).go s
     | _ => .next s)
  | none => .next s

end Sys2Proof.Machine
end

