-- ==== Sys2Proof/Machine/Filter.lean ====
section
/-! DEFINITION. The event filter coprocessor (R263 to R284): its fifteen instructions, the dispatch of records, runs, budgets, and the arming,
disarming and reading of its registers. -/

namespace Sys2Proof.Machine

/-! ## Registers of the EFC block (Tables 14.4 to 14.9) -/

def efscOff (slot : Nat) : Nat := 0x4000 + 16 * slot
def efsrOff (slot : Nat) : Nat := 0x4008 + 16 * slot
def efatOff (a : Nat) : Nat := 0x5000 + 8 * a
def efbgOff (v : Nat) : Nat := 0x5800 + 8 * v
def efrcOff (r : Nat) : Nat := 0x5A00 + 16 * r
def efrpOff (r : Nat) : Nat := 0x5A08 + 16 * r
def fdropOff (src : Nat) : Nat := 0x100000 + 8 * src

def State.efsc (s : State) (die slot : Nat) : Nat := s.efc die (efscOff slot)
def State.efsr (s : State) (die slot : Nat) : Nat := s.efc die (efsrOff slot)
def efscArm (x : Nat) : Bool := bit x 63
def efscOwn (x : Nat) : Nat := bits x 59 54
def efscNlen (x : Nat) : Nat := bits x 53 48

/-- The time of an EFC cycle, in the units of State.time (1 ns). -/
def efcCycle : Nat := 2618

/-! ## Runs (R272) -/

/-- The run in a pipe. -/
def State.run (s : State) (d p : Nat) : Option Run := Tab.get (fun _ => none) (s.efcsAt d).pipes p
def Prog.run (d p : Nat) (r : Option Run) : Prog := Prog.on fun s =>
  Prog.put (.efcs d { s.efcsAt d with pipes := Tab.put (fun _ => none) (s.efcsAt d).pipes p r })

/-- Register eX. -/
def Run.reg (r : Run) (x : Nat) : Nat := (Tab.get (fun _ => 0) r.regs x).toNat
def Run.set (r : Run) (x v : Nat) : Run := { r with regs := Tab.put (fun _ => 0) r.regs x (BitVec.ofNat 64 v) }

/-- A run after an instruction of `cycles` EFC cycles: one step, the next PC (R274). -/
def Run.next (r : Run) (cycles : Nat) : Run := { r with pc := r.pc + 1, steps := r.steps + 1, readyT := r.readyT + efcCycle * cycles }

/-- Execute a filter instruction for the pipe whose turn it is. -/
def filterStep (s : State) (act : Nat → Nat → Run → Prog) : Host.Outcome State Fault Refusal :=
  match s.turn with
  | .pipe d p => (match s.run d p with
    | some r => (act d p r).go s
    | none => .fault .noIssuer)
  | _ => .fault .noIssuer

/-- An instruction that writes one register of its run and nothing else. -/
def filterReg (s : State) (d : Fin 16) (v : Run → Nat) : Host.Outcome State Fault Refusal :=
  filterStep s fun die p r => Prog.run die p (some ((r.next 1).set d.val (v r)))

/-! ## EVLD, EMOV, EMOVI (R275) -/

/-- The value of an EVLD field (Table 14.12). -/
def evField (r : Run) : EvField → Nat
  | .ts => bits r.word.toNat 127 96
  | .cls => bits r.word.toNat 95 92
  | .unit => bits r.word.toNat 91 80
  | .vf => bits r.word.toNat 79 74
  | .asid => bits r.word.toNat 73 54
  | .kind => bits r.word.toNat 53 48
  | .aux => bits r.word.toNat 47 32
  | .val => bits r.word.toNat 31 0
  | .lo => bits r.word.toNat 63 0
  | .hi => bits r.word.toNat 127 64
  | .drops => r.carry

/-- EVLD (R275). -/
def execEvld (d : Fin 16) (f : EvField) (s : State) : Host.Outcome State Fault Refusal := filterReg s d fun r => evField r f

/-- EMOV (R275). -/
def execEmov (d a : Fin 16) (s : State) : Host.Outcome State Fault Refusal := filterReg s d fun r => r.reg a.val

/-- The value that EMOVI writes over an old one (R275). -/
def emoviVal (old : Nat) (k : Nat) (i : BitVec 14) : Nat :=
  if k = 0 then wrap 64 (sext i.toNat 14)
  else if k = 4 then setBits old 63 56 (i.toNat % 256)
  else setBits old (14 * k + 13) (14 * k) i.toNat

/-- EMOVI (R275). -/
def execEmovi (d : Fin 16) (k : Fin 5) (imm : BitVec 14) (s : State) : Host.Outcome State Fault Refusal :=
  filterReg s d fun r => emoviVal (r.reg d.val) k.val imm

/-! ## EALU, ECMP (R276) -/

/-- The B operand. -/
def Run.opB (r : Run) : ESrc → Nat
  | .reg b => r.reg b.val
  | .imm i => wrap 64 (sext i.toNat 9)

/-- EALU's result on 64-bit values. -/
def ealuVal (op : EaluOp) (a b : Nat) : Nat :=
  match op with
  | .add => (a + b) % 2 ^ 64
  | .sub => (a + 2 ^ 64 - b) % 2 ^ 64
  | .and => a &&& b
  | .or => a ||| b
  | .xor => a ^^^ b
  | .shl => if 64 ≤ b then 0 else a * 2 ^ b % 2 ^ 64
  | .shr => if 64 ≤ b then 0 else a / 2 ^ b
  | .min => min a b
  | .max => max a b
  | .subs => a - b
  | .mul => a * b % 2 ^ 64

/-- EALU (R276). -/
def execEalu (op : EaluOp) (d a : Fin 16) (b : ESrc) (s : State) : Host.Outcome State Fault Refusal :=
  filterReg s d fun r => ealuVal op (r.reg a.val) (r.opB b)

/-- ECMP's condition. -/
def ecmpVal (c : EcmpOp) (a b : Nat) : Bool :=
  match c with
  | .eq => a == b
  | .ne => a != b
  | .ltn => decide (a < b)
  | .len => decide (a ≤ b)
  | .gtn => decide (b < a)
  | .gen => decide (b ≤ a)
  | .lti => decide (sext a 64 < sext b 64)
  | .gei => decide (sext b 64 ≤ sext a 64)

/-- ECMP (R276). -/
def execEcmp (c : EcmpOp) (d a : Fin 16) (b : ESrc) (s : State) : Host.Outcome State Fault Refusal :=
  filterReg s d fun r => if ecmpVal c (r.reg a.val) (r.opB b) then 1 else 0

/-! ## EBF (R277) -/

/-- Whether EBF is taken. -/
def ebfTaken (r : Run) : EbfCond → Bool
  | .always _ => true
  | .nz a => r.reg a.val != 0
  | .z a => r.reg a.val == 0

/-- EBF (R277). -/
def execEbf (c : EbfCond) (off : Fin 64) (s : State) : Host.Outcome State Fault Refusal :=
  filterStep s fun die p r => Prog.run die p (some { r.next 1 with pc := if ebfTaken r c then r.pc + off.val else r.pc + 1 })

/-! ## EHASH (R278) -/

/-- EHASH's mix. -/
def ehashVal (a seed : Nat) : Nat :=
  let h := a ^^^ (seed * 0x9E3779B97F4A7C15 % 2 ^ 64)
  let h := h ^^^ (h / 2 ^ 29)
  let h := h * 0xBF58476D1CE4E5B9 % 2 ^ 64
  h ^^^ (h / 2 ^ 32)

/-- EHASH (R278). -/
def execEhash (d a seed : Fin 16) (s : State) : Host.Outcome State Fault Refusal := filterReg s d fun r => ehashVal (r.reg a.val) seed.val

/-! ## Sketch memory (R270) -/

/-- The key of word w of a slot's region, where it exists for the slot. -/
def State.sketchAt (s : State) (d slot w : Nat) : Option Nat :=
  let x := s.efsr d slot
  if w < bits x 48 33 ∧ bits x 63 49 + w < 32768 then some (sketchKey d (bits x 63 49 + w)) else none

/-- The keys of some words, where all of them exist. -/
def State.sketchAll (s : State) (d slot : Nat) : List Nat → Option (List Nat)
  | [] => some []
  | w :: t => match s.sketchAt d slot w, s.sketchAll d slot t with
    | some k, some l => some (k :: l)
    | _, _ => none

/-- ERR, with EKIND of the first error (R270). -/
def Prog.efcErr (d slot kind : Nat) : Prog := Prog.on fun s =>
  let x := s.efsc d slot
  Prog.when (!bit x 62) (Prog.efc d (efscOff slot) (setBits (setBits x 62 62 1) 61 60 kind))

/-- A sketch instruction on some words: all of them exist, or it touches none, reads 0 and sets ERR (R270). -/
def sketchStep (s : State) (ws : Run → List Nat) (ok : Nat → Nat → Run → List Nat → Prog) (bad : Run → Run) :
    Host.Outcome State Fault Refusal :=
  filterStep s fun die p r => match s.sketchAll die r.slot (ws r) with
    | some ks => ok die p r ks
    | none => Prog.seq (Prog.efcErr die r.slot 1) (Prog.run die p (some (bad r)))

/-- Saturating addition to a word. -/
def satAdd64 (a b : Nat) : Nat := min (a + b) (2 ^ 64 - 1)

/-- HINC (R279). -/
def execHinc (a b : Fin 16) (base : BitVec 14) (s : State) : Host.Outcome State Fault Refusal :=
  sketchStep s (fun r => [base.toNat + r.reg a.val])
    (fun die p r ks => Prog.seq (Prog.each (fun k => Prog.store k 8 (satAdd64 (s.load k 8) (r.reg b.val))) ks) (Prog.run die p (some (r.next 1))))
    (fun r => r.next 1)

/-- HMAX (R279). -/
def execHmax (a b : Fin 16) (base : BitVec 14) (s : State) : Host.Outcome State Fault Refusal :=
  sketchStep s (fun r => [base.toNat + r.reg a.val])
    (fun die p r ks => Prog.seq (Prog.each (fun k => Prog.store k 8 (max (s.load k 8) (r.reg b.val))) ks) (Prog.run die p (some (r.next 1))))
    (fun r => r.next 1)

/-- The four words of a count-min sketch (R280). -/
def cmWords (base k key : Nat) : List Nat := (List.range 4).map fun j => 32 * base + j * 2 ^ k + key / 2 ^ (16 * j) % 2 ^ k

/-- CMSU (R280). -/
def execCmsu (a b : Fin 16) (k : CmK) (base : BitVec 10) (s : State) : Host.Outcome State Fault Refusal :=
  sketchStep s (fun r => cmWords base.toNat k.val (r.reg a.val))
    (fun die p r ks => Prog.seq (Prog.each (fun x => Prog.store x 8 (satAdd64 (s.load x 8) (r.reg b.val))) ks) (Prog.run die p (some (r.next 4))))
    (fun r => r.next 4)

/-- The least of some words. -/
def leastWord (s : State) : List Nat → Nat
  | [] => 0
  | [k] => s.load k 8
  | k :: t => min (s.load k 8) (leastWord s t)

/-- CMSQ (R280). -/
def execCmsq (d a : Fin 16) (k : CmK) (base : BitVec 10) (s : State) : Host.Outcome State Fault Refusal :=
  sketchStep s (fun r => cmWords base.toNat k.val (r.reg a.val))
    (fun die p r ks => Prog.run die p (some ((r.next 4).set d.val (leastWord s ks))))
    (fun r => (r.next 4).set d.val 0)

/-- A windowed sum in words (R281): the epoch, the sum and the buckets, with the number of buckets cleared. -/
structure WSum where
  epoch : Nat
  sum : Nat
  buckets : List Nat
  cleared : Nat
  deriving DecidableEq, Repr

/-- Clear the buckets c + 1 to c + n. -/
def WSum.clear (w : WSum) (c : Nat) : Nat → WSum
  | 0 => w
  | n + 1 =>
    let v := w.clear c n
    let i := (c + n + 1) % max 1 v.buckets.length
    { v with sum := (v.sum + 2 ^ 64 - getAt 0 v.buckets i) % 2 ^ 64, buckets := setAt v.buckets i 0, cleared := v.cleared + 1 }

/-- WSUM's action (R281): `g` is the bucket size, `t` the time, `x` the amount. DESIGN CHOICE: where m = 32 − g is no width, δ is free (log 2). -/
def WSum.add (w : WSum) (g t x : Nat) : WSum :=
  let B := w.buckets.length
  let e : Nat := t % 2 ^ 32 / 2 ^ g
  let δ : Int := if 32 ≤ g then (Config.wsumDelta g w.epoch t).toInt else sext (wrap (32 - g) ((e : Int) - w.epoch)) (32 - g)
  let v := if 0 < δ then { w.clear w.epoch (min δ.toNat B) with epoch := e } else w
  let δ1 := if 0 < δ then 0 else δ
  if -(B : Int) < δ1 then
    let i := e % max 1 B
    { v with buckets := setAt v.buckets i ((getAt 0 v.buckets i + x) % 2 ^ 64), sum := (v.sum + x) % 2 ^ 64 }
  else v

/-- WSUM (R281). -/
def execWsum (d a b : Fin 16) (base : BitVec 14) (s : State) : Host.Outcome State Fault Refusal :=
  filterStep s fun die p r =>
    let w0 := base.toNat
    let head := match s.sketchAt die r.slot w0 with | some k => s.load k 8 | none => 0
    let g := bits head 63 58
    let B := 2 ^ bits head 57 55
    match s.sketchAll die r.slot ((List.range (3 + B)).map fun i => w0 + i) with
    | none => Prog.seq (Prog.efcErr die r.slot 1) (Prog.run die p (some ((r.next 1).set d.val 0)))
    | some ks =>
      let w : WSum := { epoch := s.load (getAt 0 ks 1) 8, sum := s.load (getAt 0 ks 2) 8, buckets := (ks.drop 3).map fun k => s.load k 8, cleared := 0 }
      let v := w.add g (r.reg b.val) (r.reg a.val)
      Prog.all [
        Prog.each (fun (q : Nat × Nat) => Prog.store q.1 8 q.2) ((ks.drop 1).zip (v.epoch :: v.sum :: v.buckets)),
        Prog.run die p (some ((r.next (1 + v.cleared)).set d.val v.sum))]

/-! ## TRIG, EMIT, EEND (R271, R282, R283) -/

/-- TRIG (R282, R283): a granted line is raised for the EFC cycle. -/
def execTrig (line : Fin 8) (s : State) : Host.Outcome State Fault Refusal :=
  filterStep s fun die p r =>
    Prog.seq
      (if bit (bits (s.efsr die r.slot) 28 21) line.val then
         Prog.put (.efcs die { s.efcsAt die with trig := (s.efcsAt die).trig ||| 2 ^ line.val })
       else Prog.efcErr die r.slot 2)
      (Prog.run die p (some (r.next 1)))

/-- The header of a ring record (R282). -/
def emitHeader (ts own slot tag seq : Nat) : Nat :=
  ts % 2 ^ 32 * 2 ^ 32 + own % 64 * 2 ^ 26 + slot % 64 * 2 ^ 20 + tag % 16 * 2 ^ 16 + seq % 65536

/-- Write one record to a ring, or drop it (R271). -/
def Prog.emit (die ring : Nat) (rec_ : Nat → List Nat) : Prog := Prog.on fun s =>
  let c := s.efc die (efrcOff ring)
  let q := s.efc die (efrpOff ring)
  let n := 2 ^ bits c 48 45
  let head := bits q 63 48
  if 32768 < bits c 63 49 + n ∨ n ≤ (head + 65536 - bits q 47 32) % 65536 then
    Prog.efc die (efrpOff ring) (setBits q 31 0 (min (bits q 31 0 + 1) 4294967295))
  else
    Prog.seq (fun _ => storeBytes (ringKey die (32 * (bits c 63 49 + head % n))) ((rec_ head).flatMap fun v => toBytes v 8))
      (Prog.efc die (efrpOff ring) (setBits q 63 48 (head + 1)))

/-- EMIT (R271, R282). -/
def execEmit (a : Fin 14) (tag : Fin 16) (s : State) : Host.Outcome State Fault Refusal :=
  filterStep s fun die p r =>
    Prog.seq
      (Prog.emit die (bits (s.efsr die r.slot) 32 29) fun head =>
        [emitHeader (evField r .ts) r.own r.slot tag.val head, r.reg a.val, r.reg (a.val + 1), r.reg (a.val + 2)])
      (Prog.run die p (some (r.next 1)))

/-- A run of a source's record has ended or been refused (R264). -/
def Prog.unbusy (die src : Nat) : Prog := Prog.on fun s =>
  let k := die * 65536 + src
  Prog.put (.fifos k { s.fifosAt k with busy := (s.fifosAt k).busy - 1 })

/-- EEND (R269, R282): the run ends; the steps it did not execute return while its window lasts. -/
def execEend (s : State) : Host.Outcome State Fault Refusal :=
  filterStep s fun die p r =>
    let b := s.efc die (efbgOff r.own)
    let left := min (bits b 51 40 + (r.nlen + 1) - (r.steps + 1)) (Tab.get (fun _ => 0) (s.efcsAt die).loaded r.own)
    Prog.all [
      Prog.when (r.window == (s.efcsAt die).window) (Prog.efc die (efbgOff r.own) (setBits b 51 40 left)),
      Prog.run die p none,
      Prog.unbusy die r.src]

/-! ## From FIFO to filter (R264, R267 to R269) -/

/-- EVENT_RECORD (R263). -/
def execEventRecord (die : Nat) (rec_ : BitVec 128) (s : State) : Host.Outcome State Fault Refusal := (Prog.event die rec_).go s

/-- Whether an attachment entry matches a record, for the slot it names (R267). -/
def State.attMatch (s : State) (die : Nat) (w : BitVec 128) (a : Nat) : Bool :=
  let x := w.toNat
  let own := efscOwn (s.efsc die (bits a 62 57))
  let vf := bits x 79 74
  bit a 63 && own == bits a 14 9 && bits a 56 53 == bits x 95 92 && decide (bits a 52 41 ≤ bits x 91 80) && decide (bits x 91 80 ≤ bits a 40 29) &&
    (bit a 21 || bits a 20 15 == bits x 53 48) &&
    (if own = 0 then bit a 22 || vf == bits a 28 23 else vf == own) &&
    (!s.sec.conf || vf == 0 || own == vf)

/-- The armed slots that a record matches, ascending. -/
def State.slotsMatching (s : State) (die : Nat) (w : BitVec 128) : List Nat :=
  let hit := ((List.range 256).map fun a => s.efc die (efatOff a)).filter (s.attMatch die w)
  (List.range 64).filter fun k => efscArm (s.efsc die k) && hit.any fun a => bits a 62 57 == k

/-- The sources of a die whose head may be dispatched now. -/
def State.dispatchable (s : State) (die : Nat) : List Nat :=
  s.fifos.filterMap fun p =>
    if p.1 / 65536 = die ∧ p.2.busy = 0 then
      (match p.2.recs with
       | r :: _ => if r.fromTime < s.time then some (p.1 % 65536) else none
       | [] => none)
    else none

/-- EFC_DISPATCH (R264): the next source in round-robin order gives its head, and one run is matched for each armed slot. -/
def execEfcDispatch (die : Nat) (s : State) : Host.Outcome State Fault Refusal :=
  let e := s.efcsAt die
  let l := s.dispatchable die
  match (l.filter fun x => decide (e.next ≤ x)) ++ l with
  | [] => .next s
  | src :: _ =>
    let k := die * 65536 + src
    let f := s.fifosAt k
    match f.recs with
    | [] => .next s
    | r :: rest =>
      let slots := s.slotsMatching die r.word
      let runs := slots.map fun n =>
        ({ slot := n, src := src, word := r.word, carry := r.carry, regs := [], pc := 0, steps := 0, window := 0, readyT := 0, nlen := 0, own := 0, code := [], old := false } : Run)
      .next (runAll s [
        .fifos k { f with recs := rest, busy := slots.length },
        .efcs die { e with next := (src + 1) % 65536, waiting := e.waiting ++ runs }])

/-- FILTER_RUN_START (R264, R269): the first matched run starts in a free pipe, with the code that its slot holds, or is refused for want of budget. Its first
instruction executes in the same EFC cycle (Table 15.4). -/
def execFilterRunStart (die : Nat) (s : State) : Host.Outcome State Fault Refusal :=
  let e := s.efcsAt die
  match e.waiting, (List.range 4).find? fun p => (s.run die p).isNone with
  | r :: rest, some p =>
    let x := s.efsc die r.slot
    let own := efscOwn x
    let b := s.efc die (efbgOff own)
    let cost := efscNlen x + 1
    if cost ≤ bits b 51 40 then
      let r1 := { r with window := e.window, readyT := s.efcNow, nlen := efscNlen x, own := own,
                         code := (List.range cost).map (s.filterCode die r.slot) }
      (Prog.all [
        Prog.efc die (efbgOff own) (setBits b 51 40 (bits b 51 40 - cost)),
        Prog.put (.efcs die { e with waiting := rest, pipes := Tab.put (fun _ => none) e.pipes p (some r1) })]).go s
    else
      (Prog.all [
        Prog.efc die (efbgOff own) (setBits b 39 8 (min (bits b 39 8 + 1) 4294967295)),
        Prog.put (.efcs die { e with waiting := rest }),
        Prog.unbusy die r.src]).go s
  | _, _ => .next s

/-- BUDGET_WINDOW_START (R268): LEFT ← BUDG, for every function on every die. -/
def execBudgetWindowStart (s : State) : Host.Outcome State Fault Refusal :=
  (Prog.each (fun die => Prog.seq
    (Prog.each (fun v => Prog.on fun t =>
      let b := t.efc die (efbgOff v)
      Prog.seq (Prog.efc die (efbgOff v) (setBits b 51 40 (bits b 63 52)))
        (Prog.put (.efcs die { t.efcsAt die with loaded := Tab.put (fun _ => 0) (t.efcsAt die).loaded v (bits b 63 52) }))) (List.range 64))
    (Prog.on fun t => Prog.put (.efcs die { t.efcsAt die with window := (t.efcsAt die).window + 1 }))) [0, 1, 2, 3]).go s

/-! ## Arming and disarming (R266, R273) -/

/-- Verification of instructions n to NLEN (R273): the code and index of the first failure. -/
def State.verifyCode (s : State) (die slot nlen : Nat) : Nat → Nat → Option (Nat × Nat)
  | 0, _ => none
  | fuel + 1, n =>
    if nlen < n then none
    else match decodeFilter (s.filterCode die slot n) with
      | .error e => some (e, n)
      | .ok i =>
        let far := match i with | .ebf _ off => decide (nlen < n + off.val) | _ => false
        if far then some (4, n)
        else if n = nlen ∧ i ≠ .eend then some (5, n)
        else s.verifyCode die slot nlen fuel (n + 1)

/-- Verification of a slot (R273): VERR and VIX. -/
def State.verify (s : State) (die slot own nlen : Nat) : Nat × Nat :=
  match s.verifyCode die slot nlen 64 0 with
  | some e => e
  | none =>
    let x := s.efsr die slot
    if 32768 < bits x 63 49 + bits x 48 33 ∨ (own ≠ 0 ∧ bits (s.efc die (efrcOff (bits x 32 29))) 44 39 ≠ own) then (6, 0) else (0, 0)

/-- Whether a function may write a slot (R266). -/
def State.slotReach (s : State) (fn die slot : Nat) : Bool := fn == 0 || efscOwn (s.efsc die slot) == fn

/-- EFSC after a write by a function, ARM apart (Table 14.4): OWN by the PF, NLEN of a disarmed slot, ERR by W1C. -/
def efscWrite (old fn val : Nat) : Nat :=
  let a := if fn = 0 then setBits old 59 54 (bits val 59 54) else old
  let b := if efscArm old then a else setBits a 53 48 (bits val 53 48)
  if bit val 62 then setBits b 62 62 0 else b

/-- SLOT_ARM (R266, R273): a write of ARM = 1. -/
def execSlotArm (fn die slot : Nat) (val : BitVec 64) (s : State) : Host.Outcome State Fault Refusal :=
  hostWrite fn (Prog.on fun s =>
    if !s.slotReach fn die slot then Prog.fnstat fn 0
    else
      let x := efscWrite (s.efsc die slot) fn val.toNat
      if efscArm x then Prog.efc die (efscOff slot) x
      else
        let v := s.verify die slot (efscOwn x) (efscNlen x)
        Prog.efc die (efscOff slot) (setBits (setBits (setBits x 47 45 v.1) 44 39 v.2) 63 63 (if v.1 = 0 then 1 else 0))) s

/-- The runs of a slot that have started, marked as started before its disarming (R284). -/
def Efc.aged (e : Efc) (slot : Nat) : Tab (Option Run) :=
  e.pipes.map fun p => (p.1, p.2.map fun r => if r.slot = slot then { r with old := true } else r)

/-- SLOT_DISARM (R266, R284): a write of ARM = 0; matched runs of the slot that have not started do not run. -/
def execSlotDisarm (fn die slot : Nat) (val : BitVec 64) (s : State) : Host.Outcome State Fault Refusal :=
  hostWrite fn (Prog.on fun s =>
    if !s.slotReach fn die slot then Prog.fnstat fn 0
    else
      let e := s.efcsAt die
      let gone := e.waiting.filter fun r => r.slot == slot
      Prog.all [
        Prog.efc die (efscOff slot) (setBits (efscWrite (s.efsc die slot) fn val.toNat) 63 63 0),
        Prog.put (.efcs die { e with waiting := e.waiting.filter fun r => r.slot != slot, pipes := e.aged slot }),
        Prog.each (fun (r : Run) => Prog.unbusy die r.src) gone]) s

/-! ## Reads (R263, R269, R271, R284) -/

/-- What a read over the host link returns. -/
def Prog.reply (l : List Byte) : Prog := Prog.put (.hostReply (some l))
/-- A read of a register that the function may not reach (R330). -/
def Prog.noReach (fn : Nat) : Prog := Prog.seq (Prog.reply (toBytes 0 8)) (Prog.fnstat fn 0)

/-- Whether a run of a slot is in a pipe that had started before the slot was last disarmed (R284). -/
def State.oldRun (s : State) (die slot : Nat) : Bool :=
  (List.range 4).any fun p => match s.run die p with
    | some r => r.slot == slot && r.old
    | none => false

/-- A read of n bytes of EFSC from byte a (R284): it completes when every run of the slot that had started before a disarming has ended; until then the access
`i` comes again. -/
def Prog.efscRead (i : Instr) (fn die slot a n : Nat) : Prog := Prog.on fun s =>
  if !s.slotReach fn die slot then Prog.noReach fn
  else if s.oldRun die slot then Prog.again i
  else Prog.reply (((toBytes (s.efsc die slot) 8).drop a).take n)

/-- EFSC_READ (R284). -/
def execEfscRead (fn die slot : Nat) (s : State) : Host.Outcome State Fault Refusal :=
  hostRead fn (Prog.efscRead (.efscRead fn die slot) fn die slot 0 8) s

/-- EFBG_READ (R269): BDROP returns to 0. -/
def execEfbgRead (fn die v : Nat) (s : State) : Host.Outcome State Fault Refusal :=
  hostRead fn (Prog.on fun s =>
    if fn ≠ 0 ∧ fn ≠ v then Prog.noReach fn
    else
      let b := s.efc die (efbgOff v)
      Prog.seq (Prog.reply (toBytes b 8)) (Prog.efc die (efbgOff v) (setBits b 39 8 0))) s

/-- EFRP_READ (R271): RDROP returns to 0. -/
def execEfrpRead (fn die ring : Nat) (s : State) : Host.Outcome State Fault Refusal :=
  hostRead fn (Prog.on fun s =>
    if fn ≠ 0 ∧ fn ≠ bits (s.efc die (efrcOff ring)) 44 39 then Prog.noReach fn
    else
      let q := s.efc die (efrpOff ring)
      Prog.seq (Prog.reply (toBytes q 8)) (Prog.efc die (efrpOff ring) (setBits q 31 0 0))) s

/-- FDROP_READ (R263, Table 14.9): only the PF reads it, and it returns to 0. -/
def execFdropRead (fn die src : Nat) (s : State) : Host.Outcome State Fault Refusal :=
  hostRead fn (Prog.on fun s =>
    if fn ≠ 0 then Prog.noReach fn
    else Prog.seq (Prog.reply (toBytes (s.efc die (fdropOff src)) 8)) (Prog.efc die (fdropOff src) 0)) s

end Sys2Proof.Machine
end

