-- ==== Sys2Proof/Machine/Reset.lean ====
section
/-! DEFINITION. Function-level reset and the TDISP messages (R342, R343, R352, R353). -/

namespace Sys2Proof.Machine

/-! ## Arguments (R336) -/

/-- Argument i of a command. -/
def Cmd.arg (c : Cmd) (i : Nat) : Nat := getAt 0 c.args i

/-- Whether a node of level 2 or 3 descends from the PRCB of other functions only: launches of theirs lie below it, and none of this one (DEDUCED, log 16). -/
def State.othersNode (s : State) (fn h : Nat) : Bool :=
  let below := s.launches.filterMap fun p => match p.2 with
    | some l => if h ∈ l.chain then some l.vf else none
    | none => none
  !below.isEmpty && !decide (fn ∈ below)

/-- The node that an argument names: 0 for the root, otherwise its HPA + 1; or a result code, or that its reading waits for SETFA (R337). Its owner is the function from whose PRCB it descends, and the PF
owns every node. DESIGN CHOICE: all ones names the root, for the PF (log 16). -/
def State.cmdNode (s : State) (fn a q : Nat) : Except Nat Nat :=
  let named := fun (h : Nat) => if hpaMapped h ∧ h % 128 = 0 ∧ 1 ≤ bits (s.load h 128) 63 61 ∧ bits (s.load h 128) 63 61 ≤ 3 then some h else none
  if fn = 0 ∧ a = 2 ^ 64 - 1 then .ok 0
  else if fn = 0 ∧ bit a 63 then (match named (a % 2 ^ 48) with
    | some h => .ok (h + 1)
    | none => .error 2)
  else if 2 ^ 48 ≤ a then .error 2
  else match s.gpaToHpa fn q a with
    | .error c => .error (if c = cHeld then cHeld else 2)
    | .ok h => match named h with
      | none => .error 2
      | some h =>
        if fn = 0 then .ok (h + 1)
        else if bits (s.load h 128) 63 61 ≠ 1 then (if s.othersNode fn h then .error 1 else .ok (h + 1))
        else match s.gpaToHpa 0 q (s.part fn 0) with
          | .ok p => if p = h then .ok (h + 1) else .error 1
          | .error c => .error (if c = cHeld then cHeld else 1)

/-! ## Completing a command (R336) -/

/-- A command's completion entry waits to be written; the command has no further effect. -/
def Prog.complete (fn code : Nat) : Prog := Prog.on fun s =>
  match (s.fnsAt fn).cmd with
  | none => Prog.skip
  | some c =>
    Prog.seq (Prog.put (.fns fn { s.fnsAt fn with cmd := some { c with op := 0 } })) (Prog.status fn 4 code 0 (getAt 0 c.args 4) (getAt 0 c.args 0))

/-! ## Steps 1 to 3 (R343) -/

/-- The functions' own work. -/
def isOf (vf : Nat) (r : DevRec) : Bool := r.vf == vf

/-- Step 1: nothing more of the VF is taken, its launch, status and fault queues are disabled, and what waits is discarded. -/
def Prog.flrDiscard (vf : Nat) : Prog :=
  Prog.all [
    Prog.each (fun o => Prog.on fun s => Prog.reg vf o (setBits (s.reg vf o).toNat 63 63 0))
      ((List.range 16).map (fun q => lqOff q + 8) ++ [ringOff false + 8, ringOff true + 8]),
    fun s =>
      let f := s.fnsAt vf
      let armed := s.tasks.filterMap fun p =>
        if p.2.vf = vf ∧ (p.2.tst = 1 ∨ (p.2.tst = 2 ∧ s.dispatched.any fun r => r.task == some (p.1 / 4096, p.1 % 4096))) then
          some (Effect.tasks p.1 { p.2 with tst := 0 })
        else none
      ([0, 1, 2, 3].map fun die => Effect.devq (die * 64 + vf) []) ++ armed ++
        [.dispatched (s.dispatched.filter fun r => !isOf vf r), .fns vf { f with recs := [], faultWait := [], statWait := [] }]]

/-- The workgroups of a function. -/
def State.wgsOfFn (s : State) (vf : Nat) : List Nat :=
  s.wgs.filterMap fun p => match p.2 with
    | some w => (match s.launchesAt w.launch with | some l => if l.vf = vf then some p.1 else none | none => none)
    | none => none

/-- The partition nodes below which a function's work lies. -/
def State.partitionNodes (s : State) (vf q : Nat) : List Nat :=
  ((match s.gpaToHpa 0 q (s.part vf 0) with | .ok a => if s.part vf 0 = 0 then [] else [a] | .error _ => []) ++
    s.launches.filterMap fun p => match p.2 with
      | some l => if l.vf = vf then l.chain.getLast? else none
      | none => none).eraseDups

/-- Step 2: every owner of the VF is retired at its partition node, without a record or a FAULT event. -/
def Prog.flrRetire (vf : Nat) : Prog := Prog.free (2 ^ 200) fun q => Prog.on fun s =>
  Prog.all [
    fun _ => s.groups.filterMap fun p =>
      let mine := (List.range 16).filter fun e => (p.2.trueOwner e).valid && (p.2.trueOwner e).vf == vf
      if mine.isEmpty then none else some (Effect.groups p.1 (mine.foldl (fun g e => g.setFail e Failure.none) p.2)),
    Prog.each (fun a => Prog.retire (some a) 0 []) (s.partitionNodes vf q),
    fun t => t.ctxs.filterMap fun p =>
      if p.2.vf = vf ∧ p.2.owned = true then
        some (Effect.ctxs p.1 { p.2 with stopping := false, g := p.2.g.setFrag 0 { p.2.g.frag 0 with fst := .free, hold := .none } })
      else none]

/-- Step 3: engine operations that the VF leads stop, and complete under R235. -/
def Prog.flrEngines (vf : Nat) : Prog := Prog.on fun s =>
  Prog.each (fun (p : Nat × Option EngOp) => match p.2 with
    | some e =>
      Prog.when (e.owner.vf == vf && !e.done)
        (Prog.all [
          Prog.eng p.1 (e.failed cXlatInvalid 0),
          Prog.on fun t =>
            let c := t.coresAt e.core
            Prog.put (.cores e.core { c with copyQ := c.copyQ.filter (· != p.1), feedQ := c.feedQ.filter (· != p.1), drainQ := c.drainQ.filter (· != p.1) }),
          Prog.finishEng p.1 0])
    | none => Prog.skip) s.engs

/-- Whether an outstanding command of a function, begun or not, names a node that is a VF's (R343): its partition node, or one above its work. -/
def State.cmdOfVf (s : State) (vf q fn : Nat) (c : Cmd) : Bool :=
  let node := if c.begun then c.node else match s.cmdNode fn (c.arg 0) q with
    | .ok n => n
    | .error _ => 0
  (c.op == 1 || c.op == 2) && node != 0 &&
    (decide (node - 1 ∈ s.partitionNodes vf q) || s.launches.any fun p => match p.2 with
      | some l => l.vf == vf && l.under node
      | none => false)

/-- Steps 1 and 2 and the start of step 3. A PREEMPT or SLICE_END of the VF's nodes that is still outstanding completes with 0x06. -/
def Prog.quiesce (vf : Nat) : Prog :=
  Prog.all [
    Prog.free (2 ^ 200) fun q => Prog.on fun s =>
      Prog.each (fun fn => match (s.fnsAt fn).cmd with
        | some c => Prog.when (s.cmdOfVf vf q fn c) (Prog.complete fn 6)
        | none => Prog.skip) (List.range 64),
    Prog.flrDiscard vf, Prog.flrRetire vf, Prog.flrEngines vf]

/-! ## The end of step 3 (R353) -/

/-- The lanes of a VF in a group, of entries that are valid or not. -/
def Group.lanesOfFn (g : Group) (vf : Nat) : Nat :=
  (List.range 16).foldl (fun m e => if (g.trueOwner e).vf = vf then m ||| (g.trueOwner e).lanes else m) 0

/-- Whether a group had the VF as its only owner. -/
def Group.aloneOf (g : Group) (vf : Nat) : Bool := !g.ownerTable.isEmpty && g.ownerTable.all fun p => p.2.vf == vf

/-- Whether a result is destined for a lane of the VF, or for a group that it alone owned. -/
def Group.resultOf (g : Group) (vf : Nat) (t : Out) : Bool :=
  match t.file with
  | .v | .p => bit (g.lanesOfFn vf) t.lane
  | _ => g.aloneOf vf

/-- Whether something issued for a VF is still to perform, or stores of a handler that saves its lanes. -/
def State.vfBusy (s : State) (vf : Nat) : Bool :=
  let wgs := s.wgsOfFn vf
  s.ops.any (fun p => match p.2 with
    | some o => o.wg.any (fun n => decide (n ∈ wgs)) || (match o.who with
      | .ctx k => (s.ctxsAt k).vf == vf
      | w => ((s.grp w).handler.isSome && (s.grp w).lanesOfFn vf != 0 && o.elems.any (!·.done)) || o.outs.any ((s.grp w).resultOf vf))
    | none => false) ||
  s.engs.any (fun p => match p.2 with | some e => e.owner.vf == vf | none => false) ||
  s.groups.any (fun p => p.2.pend.any fun x => x.outs.any (p.2.resultOf vf)) ||
  s.ctxs.any (fun p => p.2.vf == vf && (!p.2.passes.isEmpty || !p.2.g.pend.isEmpty))

/-! ## Steps 4 and 5 (R343) -/

/-- Zero the registers of a VF's lanes in a group (R352). While a handler runs, v0 to v3 are the handler's own and stay, and FILT is that of the frozen state
(R292). -/
def Group.scrub (g : Group) (vf : Nat) : Group :=
  let m := g.lanesOfFn vf
  let alone := g.aloneOf vf
  let filt := ~~~(BitVec.ofNat 64 (m * 2 ^ 32))
  { g with
    v := g.v.filter fun x => !bit m (x.1 % 16) || (g.handler.isSome && decide (x.1 / 16 < 4)),
    p := (g.p.map fun x => (x.1, BitVec.ofNat 16 (mDiff x.2.toNat m))).filter fun x => x.2 != 0,
    s := if alone then [] else g.s,
    q := if alone then [] else g.q,
    status := g.status &&& filt,
    handler := g.handler.map fun h => { h with vstatus := h.vstatus &&& filt } }

/-- Zero the memory of a scratch range of the VF, which ends with its scratch of 512 units (R3, R335). -/
def scrubRange (key : Nat → Nat) (u vf x : Nat) : List Effect :=
  if rangeV x ∧ rangeVf x = vf then [.memClear (key (rangeBase x * u)) ((min (rangeBase x + rangeLen x) 512 - rangeBase x) * u)] else []

/-- Scratch, accumulators and tables. -/
def Prog.scrubScratch (vf : Nat) : Prog := fun s =>
  let ws := (s.wgsOfFn vf).filterMap fun n => s.wgsAt n
  let rowOf := fun (core row : Nat) => ws.any fun w => w.core == core && decide (w.accBase ≤ row) && decide (row < w.accBase + w.acr)
  let segs := s.cores.flatMap fun p => (p.2.segs.filter fun g => decide (g.wg ∈ s.wgsOfFn vf)).map fun g => Effect.memClear (coreKey p.1 g.base) g.len
  segs ++
    ((List.range 512).flatMap fun cl => (List.range 4).flatMap fun i => scrubRange (clusterKey cl) 4096 vf (s.clusterRange cl i)) ++
    ([0, 1, 2, 3].flatMap fun d => (List.range 32).flatMap fun i => scrubRange (dieKey d) 65536 vf (s.dieRange d i)) ++
    ((s.acc.filter fun p => rowOf (p.1 / 131072) (p.1 / 128 % 1024)).map fun p => Effect.acc p.1 0) ++
    ((s.accMeta.filter fun p => rowOf (p.1 / 1024) (p.1 % 1024)).map fun p => Effect.accMeta p.1 0)

/-- Image slots of the VF, with their pattern-die lines. -/
def Prog.scrubImages (vf : Nat) : Prog := fun s =>
  s.images.flatMap fun p =>
    let w := p.2.toNat
    if slotVf w = vf ∧ w ≠ 0 then
      .images p.1 0 :: ((regionCols (slotQm w)).take (slotNcol w)).flatMap fun c =>
        .memClear (patternKey (p.1 / 256) c (slotBase w) 0) (8 * latchLen (slotK w)) ::
          (List.range (latchLen (slotK w))).map fun j => .badLines (lineNum (p.1 / 256) c (slotBase w + j)) 0
    else []

/-- Contexts of the VF become idle, their registers too, and their regions have no owner (R220). -/
def Prog.scrubCtxs (vf : Nat) : Prog := fun s =>
  s.ctxs.filterMap fun p => if p.2.vf = vf ∧ p.2.owned = true ∨ s.ctxOwner p.1 = vf then some (Effect.ctxs p.1 Ctx.empty) else none

/-- EFC slots, rings, sketch regions, attachment entries and LEFT of the VF on a die; OWN, EFSR, EFRC, AOWN and BUDG are the PF's. A region ends with the die's
32,768 sketch words or ring records (R3). -/
def Prog.scrubEfc (vf die : Nat) : Prog :=
  Prog.all [
    Prog.each (fun k => Prog.on fun s => Prog.when (efscOwn (s.efsc die k) == vf)
      (Prog.all [
        Prog.each (fun i => Prog.efc die (256 * k + 8 * i) 0) (List.range 32),
        fun _ => [.memClear (sketchKey die (bits (s.efsr die k) 63 49)) (8 * (min (bits (s.efsr die k) 63 49 + bits (s.efsr die k) 48 33) 32768 - bits (s.efsr die k) 63 49))],
        Prog.efc die (efscOff k) (setBits 0 59 54 vf)])) (List.range 64),
    Prog.each (fun r => Prog.on fun s => Prog.when (bits (s.efc die (efrcOff r)) 44 39 == vf)
      (Prog.seq (fun _ => [.memClear (ringKey die (32 * bits (s.efc die (efrcOff r)) 63 49)) (32 * (min (bits (s.efc die (efrcOff r)) 63 49 + 2 ^ bits (s.efc die (efrcOff r)) 48 45) 32768 - bits (s.efc die (efrcOff r)) 63 49))])
        (Prog.efc die (efrpOff r) 0))) (List.range 16),
    Prog.each (fun a => Prog.on fun s => Prog.when (bits (s.efc die (efatOff a)) 14 9 == vf) (Prog.efc die (efatOff a) (setBits 0 14 9 vf))) (List.range 256),
    Prog.on fun s =>
      let e := s.efcsAt die
      let own := fun (r : Run) => efscOwn (s.efsc die r.slot) == vf
      let gone := (e.waiting ++ (List.range 4).filterMap fun p => s.run die p).filter own
      Prog.all [
        Prog.efc die (efbgOff vf) (setBits (s.efc die (efbgOff vf)) 51 40 0),
        Prog.put (.efcs die { e with waiting := e.waiting.filter fun r => !own r, loaded := Tab.put (fun _ => 0) e.loaded vf 0,
                                     pipes := (List.range 4).foldl (fun t p => match Tab.get (fun _ => none) t p with
                                       | some r => if own r then Tab.put (fun _ => none) t p none else t
                                       | none => t) e.pipes }),
        Prog.each (fun (r : Run) => Prog.unbusy die r.src) gone]]

/-- A register of a function's window returns to its reset value; `keep` is the mask of the fields that the PF writes. -/
def Prog.regReset (vf off keep : Nat) : Prog := Prog.on fun s =>
  Prog.reg vf off ((winReset (vf * 67108864 + off)).toNat &&& (2 ^ 64 - 1 - keep) ||| ((s.reg vf off).toNat &&& keep))

/-- Step 5: the VF's window registers, with what the device holds for its rings, commands and claims. -/
def Prog.scrubWindow (vf : Nat) : Prog :=
  Prog.all [
    Prog.each (fun q => Prog.all [Prog.regReset vf (lqOff q) 0, Prog.regReset vf (lqOff q + 8) (255 * 2 ^ 50 + 65535 * 2 ^ 14), Prog.regReset vf (lqOff q + 16) 0])
      (List.range 16),
    Prog.each (fun o => Prog.regReset vf o 0)
      [8, 0x10, 0x18, 0x20, 0x28, 0x20000, 0x20008, 0x20010, 0x20040, 0x20048, 0x20050, 0x20080, 0x30018, 0x30028, 0x30030, 0x30038, 0x30040, 0x30048,
       0x800000, 0x800008, 0x800010, 0x800018],
    fun s => (s.traces.filterMap fun p => if p.2.hold = some vf then some (Effect.traces p.1 { p.2 with hold := none, run := false }) else none) ++
      s.banks.filterMap fun p => if p.2.hold = some vf then some (Effect.banks p.1 { p.2 with hold := none }) else none,
    fun s => [.fns vf { Func.empty with token := (s.fnsAt vf).token, aer := (s.fnsAt vf).aer, session := (s.fnsAt vf).session, lastMsg := (s.fnsAt vf).lastMsg,
                                        lastResp := (s.fnsAt vf).lastResp }]]

/-! ## Save areas (R293, R343, R353) -/

def alignUp (n u : Nat) : Nat := ceilDiv n u * u
/-- Bytes of a group save area (Table 16.4). -/
def groupAreaLen (regs : Nat) : Nat := alignUp (0xB00 + 64 * (regs - 4)) 256

/-- Core-scratch bytes of a workgroup. -/
def State.wgCsb (s : State) (n : Nat) : Nat := match s.wgsAt n with
  | some w => (match s.launchesAt w.launch with | some l => 64 * recScr l.rec_ | none => 0)
  | none => 0

/-- Bytes of one page of a save area that a scrub changes: `n` of them from GVA `a` under the handler ASID of a function, of which the bits of `keep` stay. -/
structure Wipe where
  fn : Nat
  a : Nat
  n : Nat
  keep : Nat
  deriving DecidableEq, Repr

/-- A range of zeros, page by page. -/
def wipeRange (fn a n : Nat) : List Wipe := (List.range ((a % 4096 + n + 4095) / 4096)).map fun i =>
  let lo := if i = 0 then 0 else 4096 * i - a % 4096
  { fn := fn, a := (a + lo) % 2 ^ 56, n := min (4096 * (i + 1) - a % 4096) n - lo, keep := 0 }

/-- Where such bytes lie. -/
def State.wipeAt (s : State) (q : Nat) (w : Wipe) : Except Nat Nat := s.translate w.fn (s.hasid w.fn) (s.hkey w.fn q) w.a 2 q

/-- Clear them, as far as their page translates; in integrity frames that raises the counters (R339). -/
def Prog.wipe (q : Nat) (w : Wipe) : Prog := Prog.on fun s => match s.wipeAt q w with
  | .error _ => Prog.skip
  | .ok p => if isPeer p then Prog.skip else if w.keep = 0 then fun _ => [.memClear p w.n, .raise p w.n] else Prog.store p w.n (s.load p w.n &&& w.keep)

/-- The registers of some lanes in a group save area (Table 16.4: v0 to v3, p0 to p7, v4 and on), and their FILT in STATUS (R352). -/
def laneWipes (fn area regs m : Nat) : List Wipe :=
  (lanesOf m).flatMap (fun l => wipeRange fn (area + 0x40 + 16 * l) 16 ++ (List.range (regs - 4)).flatMap fun j => wipeRange fn (area + 0xB00 + 64 * j + 4 * l) 4) ++
    ((List.range 8).map fun k => { fn := fn, a := (area + 0x340 + 2 * k) % 2 ^ 56, n := 2, keep := 65535 - m }) ++
    [{ fn := fn, a := (area + 0x370) % 2 ^ 56, n := 8, keep := 2 ^ 64 - 1 - m * 2 ^ 32 }]

/-- What is zeroed of the save areas, where a VF's own state lies in them (R353): the whole areas of its workgroups and of groups that it alone owned, and the
registers of its lanes in the areas of other groups, saved already or not. -/
def State.wipes (s : State) (vf : Nat) : List Wipe := s.saved.flatMap fun p => match p.2 with
  | none => []
  | some u =>
    (u.wgs.zip u.areas).flatMap (fun x => if x.1 ∈ s.wgsOfFn vf then wipeRange u.fn x.2 (128 + s.wgCsb x.1) else []) ++
      (u.groups.zip u.garea).flatMap fun x =>
        if x.1.aloneOf vf then wipeRange u.fn x.2 (groupAreaLen x.1.regs)
        else if x.1.lanesOfFn vf = 0 then []
        else laneWipes u.fn x.2 x.1.regs (x.1.lanesOfFn vf)

/-- Whether one of them waits for SETFA (R337). -/
def State.wipesHeld (s : State) (vf q : Nat) : Bool := (s.wipes vf).any fun w => match s.wipeAt q w with
  | .error c => c == cHeld
  | .ok _ => false

/-- Saved units of the VF leave the device's tables. -/
def Prog.scrubSaved (vf : Nat) : Prog := fun s =>
  let mine := s.wgsOfFn vf
  s.saved.filterMap fun p => match p.2 with
    | some u => if u.wgs.all (fun n => decide (n ∈ mine) || (s.wgsAt n).isNone) && u.left == 0 then some (Effect.saved p.1 none) else none
    | none => none

/-- Steps 4 and 5. -/
def Prog.flrScrub (vf q : Nat) : Prog :=
  Prog.all [
    fun s => (s.groups.map fun p => .groups p.1 (p.2.scrub vf)) ++
      s.saved.filterMap (fun p => p.2.map fun u => Effect.saved p.1 (some { u with groups := u.groups.map (·.scrub vf) })),
    Prog.on fun s => Prog.each (Prog.wipe q) (s.wipes vf), Prog.scrubScratch vf, Prog.scrubImages vf, Prog.scrubCtxs vf, Prog.each (Prog.scrubEfc vf) [0, 1, 2, 3], Prog.scrubSaved vf,
    Prog.scrubWindow vf]

/-- FLR and STOP_INTERFACE (R343, R353): steps 1 to 3 begin; at its second occurrence, once all that was issued for the VF has performed, steps 4 and 5
follow. DEDUCED: FLR is there on every function (R341), and that of the PF takes the same steps for function 0 (log 26). -/
def Prog.resetFn (how vf : Nat) : Prog := Prog.on fun s =>
  let f := s.fnsAt vf
  if 63 < vf then Prog.skip
  else if f.fnReset = 0 then Prog.seq (Prog.put (.fns vf { f with fnReset := how })) (Prog.quiesce vf)
  else if s.vfBusy vf then Prog.skip
  else Prog.free (2 ^ 200) fun q => Prog.on fun t => Prog.when (!t.wipesHeld vf q) (Prog.flrScrub vf q)

/-- FLR (R343). -/
def execFlr (vf : Nat) (s : State) : Host.Outcome State Fault Refusal := (Prog.resetFn 1 vf).go s

/-! ## TDISP (R342, R345) -/

/-- Set the TDISP state of a function. -/
def Prog.tdis (vf v : Nat) : Prog := Prog.on fun s =>
  Prog.seq (Prog.put (.fns vf { s.fnsAt vf with tdis := v })) (Prog.reg vf 8 (setBits (s.reg vf 8).toNat 7 6 v))

/-- TDI_ERROR (R342): the device acts as in steps 1 to 3 of R343. -/
def Prog.tdiError (vf : Nat) : Prog := Prog.seq (Prog.tdis vf 3) (Prog.quiesce vf)

/-- Whether a TDI's configuration is frozen (R342). -/
def State.frozenFn (s : State) (vf : Nat) : Bool := vf != 0 && ((s.fnsAt vf).tdis == 1 || (s.fnsAt vf).tdis == 2)

/-- Only the session bound to a VF drives its TDISP messages (R345), on a DOE mailbox that answers (R344). -/
def State.bound (s : State) (vf : Nat) : Bool := !s.sec.crs && vf != 0 && decide (vf < 64) && (s.fnsAt vf).session == 2

/-- A TDI is locked. Whether its session enabled its debugging before (Table 20.8) no message of the table says: that is a free value (log 2). -/
def Prog.lock (vf : Nat) : Prog := Prog.on fun s =>
  Prog.seq (Prog.tdis vf 1) (Prog.on fun t => fun _ => [.fns vf { t.fnsAt vf with guestOk := Config.freeBool s.fresh }, .fresh (s.fresh + 1)])

/-- LOCK_INTERFACE (R342): from CONFIG_UNLOCKED; in another state the TDI enters ERROR (DEDUCED, log 26). -/
def execLockInterface (vf : Nat) (s : State) : Host.Outcome State Fault Refusal :=
  if !s.bound vf || (s.fnsAt vf).tdis == 3 then .next s
  else if (s.fnsAt vf).tdis = 0 then (Prog.lock vf).go s
  else (Prog.tdiError vf).go s

/-- START_INTERFACE (R342): from CONFIG_LOCKED to RUN; in another state the TDI enters ERROR (DEDUCED, log 26). -/
def execStartInterface (vf : Nat) (s : State) : Host.Outcome State Fault Refusal :=
  if !s.bound vf || (s.fnsAt vf).tdis == 3 then .next s
  else if (s.fnsAt vf).tdis = 1 then (Prog.tdis vf 2).go s
  else (Prog.tdiError vf).go s

/-- STOP_INTERFACE (R342): from any state, R343 and CONFIG_UNLOCKED. -/
def execStopInterface (vf : Nat) (s : State) : Host.Outcome State Fault Refusal :=
  if !s.bound vf && (s.fnsAt vf).fnReset != 2 then .next s else (Prog.resetFn 2 vf).go s

end Sys2Proof.Machine
end

