-- ==== Sys2Proof/Machine/Command.lean ====
section
/-! DEFINITION. The commands of a function (R336, Table 20.7), PREEMPT and ROTATE apart: SLICE_END and RESUME (R289), RETIRE (R120), INVAL (R171), SETFA
(R337), KEYGEN and KEYDEL (R340), LATE (R346), CONFSET (R347) and RESET (R348). -/

namespace Sys2Proof.Machine

/-! ## What commands name (R336) -/

/-- A node number as an optional HPA. -/
def nodeOf (n : Nat) : Option Nat := if n = 0 then none else some (n - 1)

/-- What commands may name: an RCB node, frames and a key index. -/
structure CmdObj where
  node : Option Nat
  lo : Nat
  hi : Nat
  key : Option Nat
  deriving DecidableEq, Repr

/-- What a command names. -/
def State.cmdObj (s : State) (fn q : Nat) (c : Cmd) : CmdObj :=
  let nothing : CmdObj := { node := none, lo := 0, hi := 0, key := none }
  if 1 ≤ c.op ∧ c.op ≤ 4 then
    { nothing with node := if c.begun then some c.node else match s.cmdNode fn (c.arg 0) q with
        | .ok n => some n
        | .error _ => none }
  else if c.op = 6 then
    { nothing with lo := c.arg 0 / 65536, hi := c.arg 0 / 65536 + c.arg 1, key := if bits (c.arg 2) 1 0 = 0 then none else some (bits (c.arg 2) 21 12) }
  else if c.op = 7 ∨ c.op = 8 then { nothing with key := some (c.arg 0) }
  else nothing

/-- Whether two commands name the same node, frame or key index. -/
def CmdObj.meets (a b : CmdObj) : Bool :=
  (a.node.isSome && a.node == b.node) || (a.key.isSome && a.key == b.key) || (decide (a.lo < b.hi) && decide (b.lo < a.hi))

/-- Whether a command waits for one that another function issued before it. -/
def State.cmdWaits (s : State) (fn q : Nat) (c : Cmd) : Bool :=
  s.fns.any fun p => p.1 != fn && match p.2.cmd with
    | some d => d.op != 0 && decide (d.seq < c.seq) && (s.cmdObj p.1 q d).meets (s.cmdObj fn q c)
    | none => false

/-- The step of a function's outstanding command with a given OP; one of a function in reset or in ERROR goes no further (R342, R343). -/
def commandStep (fn op : Nat) (s : State) (p : Cmd → Nat → Prog) : Host.Outcome State Fault Refusal :=
  match (s.fnsAt fn).cmd with
  | none => .next s
  | some c =>
    if c.op ≠ op ∨ s.fnHeld fn = true then .next s
    else (Prog.free (2 ^ 200) fun q => Prog.on fun t => if t.cmdWaits fn q c then Prog.skip else p c q).go s

/-- A command of the PF only. -/
def pfOnly (fn : Nat) (p : Prog) : Prog := if fn = 0 then p else Prog.complete fn 1

/-- Change the outstanding command. -/
def Prog.setCmd (fn : Nat) (c : Cmd) : Prog := Prog.on fun s => Prog.put (.fns fn { s.fnsAt fn with cmd := some c })

/-! ## SLICE_END, RESUME (R289) -/

/-- Whether a context lies below a node (R289). -/
def State.ctxBelow (s : State) (node q k : Nat) : Bool :=
  node == 0 || (bits (s.load (node - 1) 128) 63 61 == 1 && (match s.gpaToHpa 0 q (s.part (s.ctxsAt k).vf 0) with
    | .ok a => a + 1 == node && s.part (s.ctxsAt k).vf 0 != 0
    | .error _ => false))

/-- The running contexts below a node. -/
def State.ctxsBelow (s : State) (node q : Nat) : List Nat :=
  s.ctxs.filterMap fun p => if p.2.state = 1 ∧ s.ctxBelow node q p.1 = true then some p.1 else none

/-- One program for each launch below a node. -/
def Prog.eachLaunch (node : Nat) (f : Nat → Launch → Prog) : Prog := Prog.on fun s =>
  Prog.each (fun (p : Nat × Option Launch) => match p.2 with
    | some l => Prog.when (l.under node) (f p.1 l)
    | none => Prog.skip) s.launches

/-- SLICE_END (R289): from now on nothing below the node is admitted, and each running context below it is asked to stop. -/
def execSliceEnd (fn : Nat) (s : State) : Host.Outcome State Fault Refusal :=
  commandStep fn 1 s fun c q =>
    if c.begun then Prog.skip
    else Prog.on fun s => match s.cmdNode fn (c.arg 0) q with
      | .error e => Prog.when (e != cHeld) (Prog.complete fn e)
      | .ok node =>
        let ks := s.ctxsBelow node q
        Prog.all [
          Prog.put (.fns fn { s.fnsAt fn with cmd := some { c with begun := true, node := node, victims := ks },
                                              stops := (s.fnsAt fn).stops.filter (· != node) ++ [node] }),
          Prog.each Prog.ctxStop ks,
          Prog.eachLaunch node fun id _ => Prog.unplace id]

/-- Whether a workgroup below a node is resident. -/
def State.residentBelow (s : State) (node : Nat) : Bool :=
  s.wgs.any fun p => match p.2 with
    | some w => !w.saved && (match s.launchesAt w.launch with | some l => l.under node | none => false)
    | none => false

/-- SLICE_END_COMPLETE (R289): nothing below the node is resident and its contexts have stopped; launches with workgroups left take STATE 0b11 and
NEXTWG. -/
def execSliceEndComplete (fn : Nat) (s : State) : Host.Outcome State Fault Refusal :=
  commandStep fn 1 s fun c _ => Prog.on fun s =>
    let running := c.victims.any fun k => (s.ctxsAt k).state == 1 && (s.ctxsAt k).stopping
    if !c.begun || s.residentBelow c.node || running then Prog.skip
    else
      Prog.seq
        (Prog.eachLaunch c.node fun _ l => match l.chain with
          | a :: _ => Prog.when (!l.retired && decide (l.next < recNwg l.rec_)) (Prog.seq (Prog.nodeState a 3) (Prog.store (a + 64) 4 l.next))
          | [] => Prog.skip)
        (Prog.complete fn 0)

/-- Whether every workgroup of a saved unit lies below a node. -/
def State.unitBelow (s : State) (u : Saved) (node : Nat) : Bool :=
  u.wgs.all fun n => match s.wgsAt n with
    | some w => (match s.launchesAt w.launch with | some l => l.under node | none => false)
    | none => true

/-- RESUME (R289, R294): launches below the node continue from NEXTWG, and saved workgroups wait for their re-admission. -/
def execResume (fn : Nat) (s : State) : Host.Outcome State Fault Refusal :=
  commandStep fn 3 s fun c q => Prog.on fun s => match s.cmdNode fn (c.arg 0) q with
    | .error e => Prog.when (e != cHeld) (Prog.complete fn e)
    | .ok node =>
      Prog.all [
        fun _ => s.fns.filterMap fun p => if node ∈ p.2.stops then some (Effect.fns p.1 { p.2 with stops := p.2.stops.filter (· != node) }) else none,
        fun t => t.saved.filterMap fun p => match p.2 with
          | some u => if u.failed = false ∧ t.unitBelow u node = true then some (Effect.saved p.1 (some { u with resumed := true })) else none
          | none => none,
        Prog.eachLaunch node fun _ l => Prog.on fun t => match l.chain with
          | a :: _ => Prog.when (bits (t.load (a + 4) 1) 7 6 == 3) (Prog.nodeState a 1)
          | [] => Prog.skip,
        Prog.complete fn 0]

/-! ## RETIRE (R120) -/

/-- RETIRE (R120, R287): records go to the owners of other entries only; the rules give their CAUSE no value, so that it is a free one. -/
def execRetire (fn : Nat) (s : State) : Host.Outcome State Fault Refusal :=
  commandStep fn 4 s fun c q => Prog.on fun s => match s.cmdNode fn (c.arg 0) q with
    | .error e => Prog.when (e != cHeld) (Prog.complete fn e)
    | .ok node =>
      let own := s.groups.flatMap fun p => ((List.range 16).filter fun e => (p.2.trueOwner e).vf == fn).map fun e => (p.1, e)
      Prog.seq (Prog.free 255 fun cause => Prog.retire (nodeOf node) (cause + 1) own) (Prog.complete fn 0)

/-! ## INVAL (R171) -/

/-- INVAL (R171): the function's entries that meet the range leave every RTB. -/
def execInval (fn : Nat) (s : State) : Host.Outcome State Fault Refusal :=
  commandStep fn 5 s fun c _ =>
    let gone := fun (e : RtbEntry) => e.vf == fn && (bit (c.arg 0) 63 || e.asid == bits (c.arg 0) 19 0) && decide (e.lo < c.arg 2) && decide (c.arg 1 < e.hi)
    Prog.seq (fun s => s.cores.filterMap fun p => if p.2.rtb.any gone then some (Effect.cores p.1 { p.2 with rtb := p.2.rtb.filter fun e => !gone e }) else none)
      (Prog.complete fn 0)

/-! ## SETFA (R337) -/

/-- Whether n frames from an HPA are memory. -/
def framesOk (a n : Nat) : Bool :=
  let z := a + 65536 * n - 1
  a % 65536 == 0 && hpaMapped a && hpaMapped z && (decide (1099511627776 ≤ a) || a / 68719476736 == z / 68719476736)

/-- Whether an RTB entry covers a byte of n frames. -/
def RtbEntry.covers (e : RtbEntry) (frame n : Nat) : Bool :=
  let lo := (e.lo + e.add) % 2 ^ 48
  e.tgt == 0 && decide (lo < 65536 * (frame + n)) && decide (65536 * frame < lo + (e.hi - e.lo))

/-- Whether an access to a frame has passed its probe and is still to perform. -/
def State.frameBusy (s : State) (frame : Nat) : Bool :=
  s.ops.any fun p => match p.2 with
    | some o => o.elems.any fun e => !e.done && (e.key / 65536 == frame || (o.kind == .tmov && e.cmp / 65536 == frame))
    | none => false

/-- Step 4 for a frame: its lines are zero, with fresh counters and MACs, so that no error is left in them (R337, R339). -/
def Prog.freshFrame (frame : Nat) : Prog := fun s =>
  .memClear (65536 * frame) 65536 ::
    ((s.badMem.filterMap fun p => if p.1 / 1024 = frame then some (Effect.badMem p.1 0) else none) ++
     s.integ.filterMap fun p =>
       if p.1 / 1024 = frame ∨ (17592186044416 ≤ p.1 ∧ (p.1 - 17592186044416) / 128 = frame) ∨ p.1 = 35184372088832 + frame then some (Effect.integ p.1 0) else none)

/-- SETFA (R337), one step for each occurrence: steps 1 and 2, then, for one frame after the other, when what had passed the probe has performed, steps 4 and
5. -/
def execSetfa (fn : Nat) (s : State) : Host.Outcome State Fault Refusal :=
  commandStep fn 6 s fun c _ => pfOnly fn <| Prog.on fun s =>
    let attr := bits (c.arg 2) 1 0
    let pair := pairOf attr (bits (c.arg 2) 21 12)
    let first := c.arg 0 / 65536
    let frame := first + c.node
    let old := s.framesAt frame
    let gain := attr == 2 && old / 1024 != 2
    if c.arg 1 ≤ c.node then Prog.complete fn (if attr = 3 then 2 else 0)
    else if attr = 3 ∨ framesOk (c.arg 0) (c.arg 1) = false then Prog.complete fn 2
    else if gain && decide (65536 ≤ s.slotsUsed) then Prog.complete fn 4
    else if !c.begun then
      Prog.seq
        (fun _ => s.cores.filterMap fun p =>
          if p.2.rtb.any (fun e => e.covers first (c.arg 1)) then some (Effect.cores p.1 { p.2 with rtb := p.2.rtb.filter fun e => !e.covers first (c.arg 1) })
          else none)
        (Prog.setCmd fn { c with begun := true })
    else if s.frameBusy frame then Prog.skip
    else
      Prog.all [
        Prog.freshFrame frame,
        fun _ => [.frames frame pair, .slotsUsed (s.slotsUsed + (if gain then 1 else 0) - (if attr ≠ 2 ∧ old / 1024 = 2 then 1 else 0))],
        Prog.setCmd fn { c with node := c.node + 1 }]

/-! ## Keys (R340) -/

/-- Whether a change to a function's frozen configuration is refused (R342). -/
def Prog.unfrozen (fn : Nat) (vfs : List Nat) (p : Prog) : Prog := Prog.on fun s =>
  let frozen := (vfs.filter s.frozenFn).eraseDups
  if frozen.isEmpty then p else Prog.seq (Prog.each Prog.tdiError frozen) (Prog.complete fn 5)

/-- The owner of a key index, if it is loaded. -/
def State.keyOwner (s : State) (k : Nat) : List Nat := if s.keysAt k = 0 then [] else [s.keysAt k - 1]

/-- What a fresh key set leaves of a frame sealed under the old one (DEDUCED, log 33): free bytes, or, with the integrity attribute, lines that fail their
check. -/
def Prog.rekeyed (frame attr : Nat) : Prog :=
  if attr = 2 then fun _ => (List.range 1024).map fun j => .badMem (frame * 1024 + j) 1
  else Prog.free (2 ^ 524288) fun x => fun _ => putBytes (65536 * frame) (toBytes x 65536)

/-- KEYGEN (R340): a fresh key set is loaded; memory that was sealed under the index before no longer reads as it was. -/
def execKeygen (fn : Nat) (s : State) : Host.Outcome State Fault Refusal :=
  commandStep fn 7 s fun c _ => pfOnly fn <| Prog.on fun s =>
    let k := c.arg 0
    if s.sec.lcs = 3 then Prog.complete fn 1
    else if k = 0 ∨ 1023 < k ∨ 63 < c.arg 1 then Prog.complete fn 2
    else Prog.unfrozen fn (c.arg 1 :: s.keyOwner k) (Prog.all [
      Prog.put (.keys k (c.arg 1 + 1)),
      Prog.each (fun (p : Nat × Nat) => Prog.when (p.2 != 0 && p.2 % 1024 == k && s.keysAt k != 0) (Prog.rekeyed p.1 (p.2 / 1024))) s.frames,
      Prog.complete fn 0])

/-- KEYDEL (R340): busy while a frame attribute names the index. -/
def execKeydel (fn : Nat) (s : State) : Host.Outcome State Fault Refusal :=
  commandStep fn 8 s fun c _ => pfOnly fn <| Prog.on fun s =>
    let k := c.arg 0
    if k = 0 ∨ 1023 < k then Prog.complete fn 2
    else if s.frames.any fun p => p.2 != 0 && p.2 % 1024 == k then Prog.complete fn 3
    else Prog.unfrozen fn (s.keyOwner k) (Prog.seq (Prog.put (.keys k 0)) (Prog.complete fn 0))

/-! ## LATE, CONFSET, RESET (R346 to R348) -/

/-- The runtime firmware of a version and a digest runs: measurement 3, CDI1 and with it the Alias certificate are its own (R344, R346). -/
def Sec.runtime (x : Sec) (version image : Nat) : Sec :=
  { x with rtVer := version, rtImg := image, cdi1 := Config.diceOne x.cdi0 (BitVec.ofNat 256 image) }

/-- LATE (R346): the image is read at A0, A1 bytes of it, by the security core, which reaches every region (R338); the verdict on its signature, its version and
the runtime families of the running manifest and of its own come with the event. -/
def execLate (fn : Nat) (signed : Bool) (version running family : Nat) (s : State) : Host.Outcome State Fault Refusal :=
  commandStep fn 9 s fun c _ => pfOnly fn <| Prog.on fun s =>
    if !hpaMapped (c.arg 0) || !hpaMapped (c.arg 0 + c.arg 1 - 1) || s.lineBad (c.arg 0) (c.arg 1) || !signed || decide (version < s.sec.rtVer) then Prog.complete fn 2
    else
      Prog.all [
        Prog.put (.sec (s.sec.runtime version (ofBytes (sm3 (s.bytes (c.arg 0) (c.arg 1)))))),
        Prog.when (s.sec.conf && running != family) (Prog.each Prog.tdiError ((List.range 64).filter s.frozenFn)),
        Prog.complete fn 0]

/-- CONFSET (R347, R349): the mode of the next full reset; refused while the debug state is OPEN, and for confidential mode in RETURN (R348). -/
def execConfset (fn : Nat) (s : State) : Host.Outcome State Fault Refusal :=
  commandStep fn 10 s fun c _ => pfOnly fn <| Prog.on fun s =>
    if s.dbg = 2 ∨ (s.sec.lcs = 3 ∧ bit (c.arg 0) 0 = true) then Prog.complete fn 1
    else Prog.seq (Prog.put (.sec { s.sec with confNext := bit (c.arg 0) 0 })) (Prog.complete fn 0)

/-- What a full reset leaves of the security core and the power controller (R347, R348). -/
def Sec.afterReset (x : Sec) : Sec := { x with conf := x.confNext, power := 0, pstate := 0, streams := [], log := [], logNext := 0 }

/-- A full reset (R348). -/
def Prog.fullReset : Prog := fun s => [.wipe s.sec.afterReset]

/-- RESET (R348): a full reset with scrub, which leaves no command to complete. -/
def execReset (fn : Nat) (s : State) : Host.Outcome State Fault Refusal :=
  commandStep fn 11 s fun _ _ => pfOnly fn Prog.fullReset

end Sys2Proof.Machine
end

