-- ==== Sys2Proof/Machine/Preempt.lean ====
section
/-! DEFINITION. Hard pre-emption (R290 to R296, R300, R314, R358): the choice of victims, the device's part of the save and of the restore, and the fencing
of a core. -/

namespace Sys2Proof.Machine

/-! ## Save areas (R293, R334) -/

/-- Workgroups and groups that are evicted together (R314), with the youngest admission. -/
structure Victim where
  wgs : List Nat
  grps : List Nat
  age : Nat
  deriving DecidableEq, Repr

/-- Where the groups' areas begin in the area of a unit's first workgroup. -/
def State.groupsOffset (s : State) (wgs : List Nat) : Nat := alignUp (128 + s.wgCsb (wgs.headD 0)) 256

/-- Bytes of the save area of workgroup number i of a unit: the first one's holds the groups'. -/
def State.areaLen (s : State) (v : Victim) (i : Nat) : Nat :=
  if i = 0 then v.grps.foldl (fun n k => n + groupAreaLen (s.groupsAt k).regs) (s.groupsOffset v.wgs) else 128 + s.wgCsb (getAt 0 v.wgs i)

/-- The lowest run of n free blocks of a function's pool, by GVA (R334). -/
def poolRun (base len : Nat) (used : List Nat) (n : Nat) : Option Nat :=
  ((List.range (len + 1 - n)).map fun b => base + b).find? fun b => used.all fun u => decide (u < b) || decide (b + n ≤ u)

/-- Areas for workgroups i and on of a unit: their GVAs, their blocks, and the blocks then in use. -/
def State.areasFor (s : State) (fn : Nat) (v : Victim) : Nat → Nat → List Nat → Option (List Nat × List Nat × List Nat)
  | 0, _, used => some ([], [], used)
  | k + 1, i, used =>
    let n := ceilDiv (s.areaLen v i) 65536
    match poolRun ((s.reg fn 0x30040).toNat / 65536) (s.regBits fn 0x30048 63 48) used n with
    | none => none
    | some b => (s.areasFor fn v k (i + 1) (used ++ (List.range n).map fun j => b + j)).map fun r => (65536 * b :: r.1, n :: r.2.1, r.2.2)

/-! ## Victims (R290, R314) -/

/-- The groups in which an admitted workgroup has fragments or a handler. -/
def State.wgGroups (s : State) (n : Nat) (w : Wg) : List Nat :=
  w.groups.filter fun k =>
    let g := s.groupsAt k
    g.live && (g.handler.isSome || !g.usedFrags.isEmpty) && (List.range 16).any fun e => (g.trueOwner e).valid && (g.trueOwner e).id == n

/-- The eviction unit of a workgroup (R314): every workgroup of its groups that has not ended, in owner-table order. -/
def State.victimOf (s : State) (n : Nat) (w : Wg) : Victim :=
  let ks := s.wgGroups n w
  let ids := (ks.flatMap fun k => ((List.range 16).filter fun e => ((s.groupsAt k).trueOwner e).valid).map fun e => ((s.groupsAt k).trueOwner e).id).eraseDups
  let wgs := ids.filter fun m => match s.wgsAt m with | some x => !x.ended | none => false
  { wgs := wgs, grps := ks, age := wgs.foldl (fun a m => match s.wgsAt m with | some x => max a x.age | none => a) 0 }

/-- The eviction units of a core, youngest first. -/
def State.victims (s : State) (core : Nat) : List Victim :=
  let l := (s.wgs.filterMap fun p => match p.2 with
    | some w => if w.core = core ∧ w.ended = false ∧ w.saved = false ∧ s.admits.all (fun a => a.wg != p.1) = true then some (s.victimOf p.1 w) else none
    | none => none).eraseDups
  (l.filter fun v => !v.grps.isEmpty).mergeSort fun a b => decide (b.age ≤ a.age)

/-- The unit for which a group of a core is being saved or restored: the one that selected it last. -/
def State.unitAt (s : State) (k : Nat) : Option (Nat × Saved × Nat) :=
  (s.saved.filterMap fun p => match p.2 with
    | some u => if 0 < u.left then (findPos (· == k) u.grps).map fun i => (p.1, u, i) else none
    | none => none).getLast?

/-- Whether every owner-table entry of a group lies below a node (R290), those of workgroups that have exited among them. -/
def Group.below (g : Group) (node : Nat) : Bool := node == 0 || (List.range 16).all fun e => !(g.trueOwner e).valid || decide (node - 1 ∈ (g.trueOwner e).chain)

/-- Whether a unit is a candidate of a request (R290); a guest handler in it is interrupted by the root handler only, which also takes what a guest has selected
(R291). -/
def State.evictable (s : State) (fn node : Nat) (v : Victim) : Bool :=
  (v.wgs.all fun n => match s.wgsAt n with
    | some w => w.acr == 0 && (match s.launchesAt w.launch with | some l => !recDet l.rec_ && l.under node | none => false)
    | none => false) &&
  v.grps.all fun k => (s.groupsAt k).below node && (!(s.groupsAt k).evict || (fn == 0 && (s.unitAt k).any fun x => x.2.1.fn != 0)) && (match (s.groupsAt k).handler with
    | some h => fn == 0 && h.level == 1 && !h.failed
    | none => true)

/-- Resources of a core: group slots, register-file bytes, core-scratch bytes and lane slots. -/
structure Room where
  slots : Nat
  rfb : Nat
  csb : Nat
  lanes : Nat
  deriving DecidableEq, Repr

/-- What is free on a core. -/
def State.roomOf (s : State) (core : Nat) : Room :=
  { slots := (s.freeGroups core).length, rfb := 524288 - s.regBytes core, csb := 262144 - (s.coresAt core).segs.foldl (fun n g => n + g.len) 0,
    lanes := 4096 - s.counted.foldl (fun n p => if p.1.core = core then n + p.1.slots else n) 0 }

/-- What is free once a unit has gone. -/
def State.gain (s : State) (r : Room) (v : Victim) : Room :=
  { slots := r.slots + v.grps.length, rfb := v.grps.foldl (fun n k => n + 64 * (s.groupsAt k).regs) r.rfb,
    csb := v.wgs.foldl (fun n m => n + s.wgCsb m) r.csb,
    lanes := v.wgs.foldl (fun n m => match s.wgsAt m with | some w => n + w.slots | none => n) r.lanes }

/-- The need of a PREEMPT (Table 20.7). -/
def Cmd.need (c : Cmd) : Room := { slots := bits (c.arg 3) 15 8, rfb := bits (c.arg 2) 63 32, csb := bits (c.arg 2) 31 0, lanes := 16 * bits (c.arg 3) 7 0 }
/-- Whether a need is met. -/
def Room.meets (r n : Room) : Bool := decide (n.slots ≤ r.slots) && decide (n.rfb ≤ r.rfb) && decide (n.csb ≤ r.csb) && decide (n.lanes ≤ r.lanes)

/-- The units to evict, with their areas and blocks, and whether the need is then met; one for which the pool has no run stays, and the
third answer tells of it, since the request then reports a shortfall (R334). -/
def State.choose (s : State) (fn : Nat) (need : Room) : List Victim → Room → List Nat → List (Victim × List Nat × List Nat) × Bool × Bool
  | [], room, _ => ([], room.meets need, false)
  | v :: t, room, used =>
    if room.meets need then ([], true, false)
    else match s.areasFor fn v v.wgs.length 0 used with
      | none =>
        let r := s.choose fn need t room used
        (r.1, r.2.1, true)
      | some a =>
        let r := s.choose fn need t (s.gain room v) a.2.2
        ((v, a.1, a.2.1) :: r.1, r.2)

/-- A fragment of a victim stops (R291): it abandons every hold but a BARV's, and its PC stays at the held instruction. -/
def Frag.abandon (f : Frag) : Frag := match f.hold with
  | .barv _ _ => f
  | _ => { f with hold := .none, holdSince := none }

/-- A group is selected: it issues no more, and it loses a debug stop, which is not repeated after the restore (R358). -/
def Prog.select (k : Nat) : Prog := Prog.on fun s =>
  let g := s.groupsAt k
  let g1 := (List.range 16).foldl (fun (g : Group) i => g.setFrag i (g.frag i).abandon) g
  Prog.seq (Prog.put (.groups k { g1 with evict := true, stop := { g.stop with stopped := false, step := none, passed := if g.stop.stopped then g.clk + 1 else g.stop.passed } }))
    (Prog.when g.stop.stopped (Prog.status g.stop.fn 7 2 0 (k % 256) g.retired.toNat))

/-- Evict a unit. -/
def Prog.evict (fn rqn cause : Nat) (resumed : Bool) (x : Victim × List Nat × List Nat) : Prog := Prog.on fun s =>
  let v := x.1
  let off := getAt 0 x.2.1 0 + s.groupsOffset v.wgs
  let garea := (List.range v.grps.length).map fun i => (v.grps.take i).foldl (fun n k => n + groupAreaLen (s.groupsAt k).regs) off
  let u : Saved := { fn := fn, rqn := rqn, wgs := v.wgs, grps := v.grps, areas := x.2.1, lens := x.2.2, garea := garea,
                     groups := v.grps.map fun k => { Group.empty with owners := (s.groupsAt k).ownerTable, regs := (s.groupsAt k).regs }, left := v.grps.length, resumed := resumed, failed := false, cause := cause, node := none, notes := [] }
  let f := s.fnsAt fn
  let taken := (x.2.1.zip x.2.2).flatMap fun p => (List.range p.2).map fun j => p.1 / 65536 + j
  Prog.all [
    fun _ => [.saved s.nextId (some u), .nextId (s.nextId + 1), .fns fn { f with blocks := f.blocks ++ taken }],
    Prog.each (fun n => Prog.on fun t => match t.wgsAt n with
      | some w => Prog.put (.wgs n (some { w with saving := true, area := getAt 0 x.2.1 ((findPos (· == n) v.wgs).getD 0) }))
      | none => Prog.skip) v.wgs,
    Prog.each Prog.select v.grps]

/-- Deterministic workgroups below a node that are resident on a core, with their launches. -/
def State.detOn (s : State) (core node : Nat) : List (Nat × Launch) :=
  s.wgs.filterMap fun p => match p.2 with
    | some w => (match s.launchesAt w.launch with
      | some l => if w.core = core ∧ w.ended = false ∧ w.saved = false ∧ recDet l.rec_ = true ∧ l.under node = true then some (w.launch, l) else none
      | none => none)
    | none => none

/-- Whether a victim of a request has been saved, has failed or has gone. -/
def State.victimDone (s : State) (k : Nat) : Bool := match s.savedAt k with
  | none => true
  | some u => u.failed || u.wgs.all fun n => match s.wgsAt n with | some w => !w.saving | none => true

/-- Address of the requesting node's RCB in the header (Table 16.5): as the requester named it, 0 for the root. -/
def Cmd.rqn (c : Cmd) (node : Nat) : Nat := if node = 0 then 0 else c.arg 0 % 2 ^ 63

/-- PREEMPT (R290, R296): the victims are chosen and stop; at a later occurrence, when they are saved and no deterministic workgroup is waited for, the
command completes. -/
def execPreempt (fn : Nat) (s : State) : Host.Outcome State Fault Refusal :=
  commandStep fn 2 s fun c q => Prog.on fun s =>
    let core := c.arg 1
    if !c.begun then
      match s.cmdNode fn (c.arg 0) q with
      | .error e => Prog.when (e != cHeld) (Prog.complete fn e)
      | .ok node =>
        if 2047 < core then Prog.complete fn 2
        else
          let r := s.choose fn c.need ((s.victims core).filter (s.evictable fn node)) (s.roomOf core) (s.fnsAt fn).blocks
          let ids := (List.range r.1.length).map fun i => s.nextId + i
          Prog.seq (Prog.each (Prog.evict fn (c.rqn node) cPreempt false) r.1)
            (Prog.setCmd fn { c with begun := true, node := node, victims := ids, short := !r.2.1, noRun := r.2.2 })
    else if !c.victims.all s.victimDone then Prog.skip
    else
      let met := !c.short || (s.roomOf core).meets c.need
      let failed := c.victims.any fun k => match s.savedAt k with | some u => u.failed | none => false
      if !met && !(s.detOn core c.node).isEmpty then Prog.skip
      else Prog.complete fn (if failed then 6 else if met && !c.noRun then 0 else 4)

/-- DTLIM_EXPIRY (R296): deterministic workgroups that a request has waited for longer than their partition's DTLIM are retired with their launch. -/
def execDtlimExpiry (fn : Nat) (s : State) : Host.Outcome State Fault Refusal :=
  match (s.fnsAt fn).cmd with
  | none => .next s
  | some c =>
    if c.op ≠ 2 ∨ c.begun = false ∨ c.short = false ∨ (s.roomOf (c.arg 1)).meets c.need = true then .next s
    else
      (Prog.each (fun (p : Nat × Launch) => Prog.when (decide (bits (s.part p.2.vf 1) 60 29 ≤ s.cycle - c.start))
        (Prog.retire p.2.chain.head? cPreempt [])) (s.detOn (c.arg 1) c.node).eraseDups).go s

/-! ## The frozen state (Tables 5.3 to 5.5, 16.2, 16.6, 17.2) -/

/-- Rank in age order among the entries in use. -/
def Group.ageOf (g : Group) (i : Nat) : Nat := (g.usedFrags.filter fun j => (g.frag j).born < (g.frag i).born).length

/-- A split-table entry (Table 5.4). -/
def Group.splitWord (g : Group) (i : Nat) : Nat :=
  let f := g.frag i
  if f.fst = .free then 0
  else fstCode f.fst * 2 ^ 62 + f.slot * 2 ^ 60 + f.kix % 32 * 2 ^ 55 + g.ageOf i * 2 ^ 48 + f.mask * 2 ^ 32 + f.pc % 2 ^ 32 / 4 * 4

/-- Issue state of a fragment (Table 16.6). -/
def Group.issueWord (g : Group) (cyc i : Nat) : Nat :=
  let f := g.frag i
  if f.fst = .free then 0
  else min (f.gate - cyc) 8191 * 2 ^ 20 + (findPos (· == i) g.waiting).getD 0 % 16 * 2 ^ 16 + min f.iss 511 * 2 ^ 7

/-- A knot (Table 5.5). -/
def Group.knotWord (g : Group) (k : Nat) : Nat :=
  let n := g.knot k
  if n.valid then n.mask * 2 ^ 48 + n.arr * 2 ^ 32 + n.pc % 2 ^ 32 / 4 * 4 + 1 else 0

/-- An owner-table entry of 128 bits (Table 5.3). -/
def ownerWord (o : Owner) : Nat :=
  (if o.valid then 1 else 0) + o.cls % 16 * 2 ^ 12 + o.vf % 64 * 2 ^ 16 + o.asid % 2 ^ 20 * 2 ^ 22 + o.awn % 65536 * 2 ^ 42 + o.prio % 8 * 2 ^ 58 +
    o.key % 1024 * 2 ^ 61 + o.sbase % 4096 * 2 ^ 71 + o.slen % 8192 * 2 ^ 83 + o.wg % 2 ^ 32 * 2 ^ 96

/-- Write words of a block. -/
def putWords (t : Tab DWord) (base : Nat) (l : List Nat) : Tab DWord :=
  l.zipIdx.foldl (fun (t : Tab DWord) p => Tab.put (fun _ => 0) t (base + p.2) (BitVec.ofNat 64 p.1)) t

/-- The words of wide entries. -/
def wordsOf (n : Nat) (l : List Nat) : List Nat := l.flatMap fun x => (List.range n).map fun w => x / 2 ^ (64 * w) % 2 ^ 64

/-- The record that parked fragment i of slot k waits for, with its STAT and the position at the save (Table 16.2, R286). -/
def State.parkWord (s : State) (k i : Nat) : Nat :=
  let g := s.groupsAt k
  if (g.frag i).fst = .parked then
    let r := (s.fnsAt (g.ownerOf (lowest (g.frag i).mask)).vf).recAt (Tab.get (fun _ => 0) g.parkRec i)
    setBits (atHome r.word k) 65 64 r.resolved
  else 0

/-- The recorded engine failure of an entry, as a record (Table 16.2). -/
def failWord (k : Nat) (g : Group) (e : Nat) : Nat :=
  let f := g.fail e
  let o := g.owner e
  let p := grpPos (.grp k 0)
  if f.cause = 0 then 0 else recWord f.addr 0 f.pc 0 f.cause cEngineFault o.vf o.asid e p.1 p.2.1 p.2.2.1 p.2.2.2 0 f.nfail false

/-- Blocks 0x01 to 0x06 as a group is frozen. -/
def State.frozenOf (s : State) (k : Nat) : Tab DWord :=
  let g := s.groupsAt k
  let r16 := List.range 16
  let t1 := putWords [] 0x0100 (r16.map g.splitWord)
  let t2 := putWords t1 0x0200 (r16.map (g.issueWord s.cycle))
  let t3 := putWords t2 0x0300 ((List.range 32).map g.knotWord)
  let t4 := putWords t3 0x0400 (wordsOf 2 (r16.map fun e => ownerWord (g.owner e)))
  let t5 := putWords t4 0x0500 (wordsOf 4 (r16.map (s.parkWord k)))
  putWords t5 0x0600 (wordsOf 4 (r16.map (failWord k g)))

/-! ## The handler (R291, R292) -/

/-- Level of a handler of a function. -/
def hlvl (fn : Nat) (above : Bool) : Nat := if fn ≠ 0 then 1 else if above then 3 else 2

/-- Words of the save-area header (Table 16.5), least significant first. -/
def headerWords (g : Group) (u : Saved) (level cyc : Nat) : List Nat :=
  let clk := if g.wave.isSome then g.trueClk else 0
  [0, 0, 0, cyc % 2 ^ 64, level * 2 ^ 8 + (g.regs / 8 - 1) % 64 * 2 ^ 16 + u.cause * 2 ^ 24 + g.truePres * 2 ^ 32 + g.ocrd % 2048 * 2 ^ 48, clk % 2 ^ 64, u.rqn,
   u.areas.headD 0 % 2 ^ 64]

/-- The bank that s56 to s63 name as a handler starts (R291). -/
def shadowBank (area warea cause : Nat) : Tab DWord := putWords [] 56 [area, warea, cause]

/-- The owner of a handler fragment (R291): the handler ASID of its function. -/
def State.handlerOwner (s : State) (fn q : Nat) (o : Owner) : Owner :=
  let ctx := match s.asidContext fn (s.hasid fn) q with
    | .ok w => w
    | .error _ => 0
  { Owner.empty with valid := true, vf := fn, asid := s.hasid fn, key := bits ctx 280 271, prio := o.prio, wg := o.wg, id := o.id, lanes := 0xFFFF,
                     base := o.base, ctx := ctx }

/-- A group as its handler runs: one fragment of all lanes in path slot 0. -/
def Group.handled (g : Group) (h : Handler) (o : Owner) (pc cyc : Nat) : Group :=
  { g with evict := false, handler := some h, owners := [(0, o)], pres := 0xFFFF, knots := [], waiting := [], births := 1,
           status := h.vstatus ||| 4, frags := [(0, { Frag.empty with fst := .live, slot := 1, mask := 0xFFFF, pc := pc, gate := cyc + 1 })] }

/-- Write bytes under the handler ASID of a function. -/
def State.hostedWrite (s : State) (fn q a : Nat) (l : List Byte) : Except Nat (List Effect) :=
  (s.writeSpots fn (s.hasid fn) (s.hkey fn q) q (l.length / 4096 + 2) (a % 2 ^ 56) l.length).map fun p => spotWrites p l

/-- Every write, or the first failure. -/
def allWrites : List (Except Nat (List Effect)) → Except Nat (List Effect)
  | [] => .ok []
  | .error c :: _ => .error c
  | .ok l :: t => (allWrites t).map fun r => l ++ r

/-- v0 to v3 of all lanes (Table 16.4: 0x0040). -/
def Group.lowRegs (g : Group) : List Byte := (List.range 16).flatMap fun l => (List.range 4).flatMap fun j => toBytes (g.readV j l).toNat 4
/-- s56 to s63 of the group itself (0x0300 of the area). -/
def Group.highS (g : Group) : List Byte := (List.range 8).flatMap fun j => toBytes (Tab.get (fun _ => (0 : DWord)) g.s (56 + j)).toNat 8

/-- The level-4 RCB of a workgroup in its area: the spec states LVL, FD as that of a fresh node, and the reserved bits of Table 5.2, which are zero (R5); the
rest is free. -/
def wgRcb (r : Nat) : Nat :=
  let x := [(767, 576), (447, 384), (223, 64), (56, 55), (47, 40), (37, 0)].foldl (fun n (b : Nat × Nat) => setBits n b.1 b.2 0) (r % 2 ^ 1024)
  setBits (setBits x 63 61 4) 57 57 0

/-- A handler or its start has failed (R304). -/
def Prog.handlerFailed (k : Nat) : Prog := Prog.on fun s =>
  match (s.groupsAt k).handler with
  | some h => Prog.failHandler k (s.groupsAt k) h
  | none => Prog.skip

/-- Load the handler's code and start it at a PC, whose bits 1:0 are zero (R13); a load that fails leaves the group stopped, and one that waits for
SETFA (R337) leaves the start for later. -/
def Prog.runHandler (k : Nat) (h : Handler) (o : Owner) (pc q : Nat) (saved : Except Nat (List Effect)) : Prog := Prog.on fun s =>
  let g := s.groupsAt k
  let bad := Prog.seq (Prog.put (.groups k (g.handled h o (pc / 4 * 4) s.cycle))) (Prog.handlerFailed k)
  match saved, s.loadCode h.fn (s.hasid h.fn) (s.hkey h.fn q) q (clusterOf (coreOfGrp k)) (s.reg h.fn 0x30030).toNat with
  | .ok e, .ok c =>
    let n := s.nextId
    fun _ => e ++ [.codes n c, .nextId (n + 1), .groups k (g.handled { h with code := n } o (pc / 4 * 4) s.cycle)]
  | .error c, _ => if c = cHeld then Prog.skip else bad
  | _, .error (.unreadable c) => if c = cHeld then Prog.skip else bad
  | _, _ => bad

/-- Whether the code of a function's handler cannot be read for now, as it waits for SETFA (R337). -/
def State.handlerHeld (s : State) (fn cl : Nat) : Bool :=
  match s.loadCode fn (s.hasid fn) (s.hkey fn 0) 0 cl (s.reg fn 0x30030).toNat with
  | .error (.unreadable c) => c == cHeld
  | _ => false

/-- Whether a stopped group has settled (R291): no BARV hold, every scoreboard counter zero, and nothing left that its registers are to take or give. -/
def State.settled (s : State) (k : Nat) : Bool :=
  let g := s.groupsAt k
  ((List.range 16).all fun i => (g.frag i).sb.isEmpty && (match (g.frag i).hold with | .barv _ _ => false | _ => true)) &&
    g.pend.isEmpty && (s.agentOps (.grp k 0)).all fun p => p.2.outs.isEmpty && p.2.read

/-- HANDLER_START (R291): a settled victim group is saved by the device, and the save entry of the requesting function's handler starts. Where a retirement has
ended every entry nothing is saved, and of a workgroup that has been retired no area is written (Table 16.7). -/
def execHandlerStart (grp : Nat) (s : State) : Host.Outcome State Fault Refusal :=
  let g := s.groupsAt grp
  match s.unitAt grp with
  | none => .next s
  | some (unit, u, i) =>
    if !g.live || !g.evict || !s.settled grp || (List.range 16).all (fun e => !(g.trueOwner e).valid) then .next s
    else
      (Prog.free (2 ^ 200) fun q => Prog.free (2 ^ 1024) fun r => Prog.on fun s =>
        let level := hlvl u.fn g.handler.isSome
        let area := getAt 0 u.garea i
        let warea := u.areas.headD 0
        let hdr := headerWords g u level s.cycle
        let writes := allWrites ([s.hostedWrite u.fn q area (hdr.flatMap (fun w => toBytes w 8) ++ g.lowRegs), s.hostedWrite u.fn q (area + 0x300) g.highS] ++
          (if i = 0 then ((u.areas.zip u.wgs).filter fun p => match s.wgsAt p.2 with | some w => !w.ended | none => false).map fun p =>
            s.hostedWrite u.fn q p.1 (toBytes (wgRcb r) 128) else []))
        let guest : Option Guest := g.handler.map fun h =>
          { fn := h.fn, code := h.code, area := h.area, warea := h.warea, unit := h.unit, idx := h.idx, restore := h.restore, frag := g.frag 0, flags := g.flags,
            header := h.header }
        let h : Handler :=
          { fn := u.fn, level := level, restore := false, cause := u.cause, code := 0, area := area, warea := warea, unit := unit, idx := i, owners := g.ownerTable,
            pres := g.truePres, frozen := (match g.handler with | some h => h.frozen | none => s.frozenOf grp), header := putWords [] 0 hdr,
            shadow := shadowBank area warea u.cause, inner := (match g.handler with | some h => h.shadow | none => []), guest := guest, clk := g.trueClk, failed := false,
            vstatus := (match g.handler with | some h => h.vstatus | none => g.status), vflags := (match g.handler with | some h => h.vflags | none => g.flags) }
        Prog.runHandler grp h (s.handlerOwner u.fn q (g.owner 0)) (s.regBits u.fn 0x30038 63 32) q writes).go s

/-! ## The end of a save (R291, R293, R307, R309) -/

/-- A record of a group that moves from one place to another (R286): where its fragment is parked, and the position that it will take at its delivery. Of a
group that is saved this is the position at the save. -/
def FRec.moved (r : FRec) (old new : Nat) : FRec :=
  { r with
    parked := r.parked.map fun p => (if p.1 = old then new else p.1, p.2)
    word := if r.home = some old ∧ old < 2 ^ 30 ∧ r.delivered = false then atHome r.word old else r.word
    home := if r.home = some old ∧ r.delivered = false then some new else r.home }

/-- The records of a group move with it; so does its place in a unit that waits to save it (R291). -/
def Prog.repark (old new : Nat) : Prog := fun s =>
  (s.fns.filterMap fun p =>
    let l : Tab FRec := p.2.recs.map fun x => (x.1, x.2.moved old new)
    if l == p.2.recs then none else some (Effect.fns p.1 { p.2 with recs := l })) ++
  s.saved.filterMap fun p => match p.2 with
    | some u =>
      let l := (u.grps.zip u.groups).map fun x => if x.1 = old ∧ x.2.live = false then new else x.1
      if l == u.grps then none else some (Effect.saved p.1 (some { u with grps := l }))
    | none => none

/-- What the device keeps of a saved group: not its registers, nor what the handler has stored but the split table, from which a retirement's records take PC and
FRAG (R287). -/
def Group.kept (g : Group) (h : Handler) : Group :=
  { Group.empty with live := true, code := g.code, regs := g.regs, ocrd := g.ocrd,
                     handler := some { h with frozen := h.frozen.filter fun p => decide (p.1 < 0x0200), shadow := [], code := 0 }, knots := g.knots,
                     parkRec := g.parkRec, gnum := g.gnum, wave := g.wave, clk := g.clk, retired := g.retired, ckptn := g.ckptn, engNum := g.engNum,
                     fails := g.fails, rpl := g.rpl, order := g.order, peersW := g.peersW }

/-- Whether another unit has still to save groups of a workgroup: a guest's, which the root has overtaken (R291). -/
def State.stillSaving (s : State) (unit n : Nat) : Bool := s.saved.any fun p => match p.2 with
  | some u => p.1 != unit && 0 < u.left && !u.failed && decide (n ∈ u.wgs) && u.groups.any fun g => !g.live
  | none => false

/-- The save of a unit ends with its last group: the workgroups are saved, and what they held is released (R118). -/
def Prog.unitSaved (unit : Nat) (u : Saved) : Prog :=
  Prog.each (fun n => Prog.on fun s => match s.wgsAt n with
    | some w =>
      let c := s.coresAt w.core
      let still := s.stillSaving unit n
      Prog.seq
        (fun _ => [.wgs n (some { w with saved := true, saving := still }),
          .cores w.core { c with segs := c.segs.map fun g => if g.wg == n then { g with dead := true } else g, accs := c.accs.filter fun g => g.wg != n }])
        (Prog.freeSegs w.core)
    | none => Prog.skip) u.wgs

/-- The save-entry RETT completes: STAT of each parked fragment is written, and the group leaves the core. -/
def Prog.saveDone (k : Nat) (g : Group) (h : Handler) : Prog := Prog.on fun s =>
  match s.savedAt h.unit with
  | none => Prog.skip
  | some u =>
    let word := fun (n : Nat) => (Tab.get (fun _ => (0 : DWord)) h.frozen n).toNat
    let parked := (List.range 16).filter fun i => bits (word (0x0100 + i)) 63 62 == 3
    let held := match s.writeSpots h.fn (s.hasid h.fn) (s.hkey h.fn 0) 0 3 ((h.area + 0x700) % 2 ^ 56) 512 with | .error c => c == cHeld | .ok _ => false
    let u1 := { u with groups := setAt u.groups h.idx (g.kept h), left := u.left - 1 }
    if held then Prog.skip
    else Prog.all [
      Prog.free (2 ^ 200) fun q => Prog.each (fun i => Prog.saveStat h.fn q h.area i (bits (word (0x0500 + 4 * i + 1)) 1 0)) parked,
      fun _ => [.groups k Group.empty, .saved h.unit (some u1)],
      Prog.repark k (savedKey h.unit h.idx),
      Prog.when (u1.left == 0) (Prog.unitSaved h.unit u1)]

/-! ## The restore (R294, R295, R314) -/

/-- Workgroups of a unit that are still there. -/
def State.unitWgs (s : State) (u : Saved) : List (Nat × Wg × Launch) :=
  u.wgs.filterMap fun n => match s.wgsAt n with
    | some w => if w.ended then none else (s.launchesAt w.launch).map fun l => (n, w, l)
    | none => none

/-- Set a core's resources aside for saved workgroups, one after the other, or none where they do not fit. -/
def State.fitWgs (s : State) (core : Nat) : List (Nat × Wg × Launch) → Option (List Effect)
  | [] => some []
  | (n, w, l) :: t =>
    let c := s.coresAt core
    let len := 64 * recScr l.rec_
    if !bit (s.coreMask core) l.vf || !s.budgetsOk l core then none
    else match lowestRun c.segs len 262144 with
      | none => none
      | some b =>
        let e : List Effect := [
          .wgs n (some { w with saved := false, core := core, seg := b, age := s.nextId }), .nextId (s.nextId + 1),
          .cores core { c with segs := if len = 0 then c.segs else c.segs ++ [{ base := b, len := len, wg := n, dead := false }] }]
        ((runAll s e).fitWgs core t).map fun r => e ++ r

/-- Where a unit could go: the core, its group slots and the writes that set its resources aside. -/
def State.restoreSpots (s : State) (u : Saved) : List (Nat × List Nat × List Effect) :=
  let ws := s.unitWgs u
  match ws with
  | [] => []
  | (_, w, _) :: _ =>
    ((List.range 4).map fun i => 4 * clusterOf w.origin + i).filterMap fun core =>
      let gs := (s.freeGroups core).take u.grps.length
      let rf := u.groups.foldl (fun n g => n + 64 * g.regs) 0
      if (s.coresAt core).fenced || decide (gs.length < u.grps.length) || decide (524288 < s.regBytes core + rf) then none
      else (s.fitWgs core ws).map fun e => (core, gs, e)

/-- The owner-table entry of a restored group: its workgroup's new segment; one whose workgroup has ended is no longer valid. -/
def State.movedOwner (s : State) (o : Owner) : Owner := match s.wgsAt o.id with
  | some w => if w.ended then { o with valid := false } else { o with sbase := w.seg / 64 }
  | none => { o with valid := false }

/-- Group i of a unit starts its restore entry in a slot. -/
def Prog.restoreGroup (unit : Nat) (u : Saved) (i k q : Nat) : Prog := Prog.on fun s =>
  let g := getAt Group.empty u.groups i
  match g.handler with
  | none => Prog.skip
  | some h =>
    let owners := (h.owners.map fun p => (p.1, s.movedOwner p.2)).filter fun p => p.2 != Owner.empty
    let pres := owners.foldl (fun m p => if p.2.valid then m ||| p.2.lanes else m) 0 &&& h.pres
    let stat := (List.range 16).map fun f => s.fns.foldl (fun n p => p.2.recs.foldl (fun n r =>
      if r.2.parked = some (savedKey unit i, f) then r.2.resolved else n) n) 0
    let words := (List.range 16).map fun e => ownerWord (Tab.get (fun _ => Owner.empty) owners e)
    let fz := putWords (putWords [] 0x0400 (wordsOf 2 words)) 0x0500 (stat.flatMap fun x => [0, x, 0, 0])
    let h1 := { h with restore := true, frozen := fz, shadow := shadowBank h.area h.warea h.cause, inner := [], owners := owners, pres := pres, failed := false }
    Prog.all [
      Prog.put (.groups k { g with handler := none, order := s.nextId }),
      Prog.put (.nextId (s.nextId + 1)),
      Prog.repark (savedKey unit i) k,
      (match h.guest with
       | some x => (match s.savedAt x.unit with
         | some v => Prog.put (.saved x.unit (some { v with grps := setAt v.grps x.idx k }))
         | none => Prog.skip)
       | none => Prog.skip),
      Prog.runHandler k h1 (s.handlerOwner h.fn q (Tab.get (fun _ => Owner.empty) owners 0)) (s.regBits h.fn 0x30038 31 0) q (.ok []),
      Prog.traceEnter k]

/-- The Notices of R300 for the owners of a unit that has left a fenced core. -/
def Prog.fenceNotices (u : Saved) : Prog := Prog.on fun s =>
  Prog.each (fun (p : Group × Nat) =>
    Prog.each (fun e =>
      let o := p.1.trueOwner e
      let (d, c, co, sl) := grpPos (.grp p.2 0)
      Prog.when (o.valid && (match s.wgsAt o.id with | some w => !w.ended | none => false))
        (Prog.record o.vf (recWord 0 0 0 0 0 cCoreFenced o.vf o.asid e d c co sl 0 0 false) cCoreFenced none (s.entNode o) true)) (List.range 16))
    (u.groups.zip u.grps)

/-- RESTORE_ADMISSION (R294): a saved unit that is to be resumed is admitted again onto a core of its origin cluster, a free one of those with room. -/
def execRestoreAdmission (unit : Nat) (s : State) : Host.Outcome State Fault Refusal :=
  match s.savedAt unit with
  | none => .next s
  | some u =>
    let ws := s.unitWgs u
    let held := ws.any fun x => s.sliceHeld x.2.2 || x.2.1.saved == false
    if !u.resumed || u.failed || u.left != 0 || held || s.handlerHeld u.fn 0 then .next s
    else
      match s.restoreSpots u with
      | [] => .next s
      | spots =>
        (Prog.free spots.length fun j => Prog.free (2 ^ 200) fun q => Prog.on fun _ =>
          let (_, gs, e) := getAt (0, [], []) spots j
          let u1 := { u with grps := gs, left := gs.length }
          Prog.all [
            fun _ => e ++ [.saved unit (some u1)],
            Prog.each (fun (x : Nat × Wg × Launch) => Prog.on fun t => match t.wgsAt x.1 with
              | some w =>
                Prog.seq (Prog.put (.wgs x.1 (some { w with groups := w.groups.map fun k => match findPos (· == k) u.grps with
                    | some i => getAt k gs i
                    | none => k })))
                  (Prog.eventNow (dieOf w.core) 2 (w.core % 512) x.2.2.vf x.2.2.asid 0 w.lanes w.num)
              | none => Prog.skip) ws,
            Prog.each (fun i => Prog.restoreGroup unit u i (getAt 0 gs i) q) (List.range gs.length),
            Prog.when (u.cause == cCoreFenced) (Prog.fenceNotices u1)]).go s

/-- Fields that R294 checks: no lane in two masks, every knot lane in a fragment, reserved bits zero (Tables 5.3 to 5.5, 16.2, 16.6; R306). -/
def frozenOk (t : Tab DWord) : Bool :=
  let word := fun (n : Nat) => (Tab.get (fun _ => (0 : DWord)) t n).toNat
  let used := (List.range 16).filter fun i => bits (word (0x0100 + i)) 63 62 != 0
  let masks := used.map fun i => bits (word (0x0100 + i)) 47 32
  let all := masks.foldl (fun a m => a ||| m) 0
  ((List.range 16).all fun i => bits (word (0x0100 + i)) 54 52 == 0 && bits (word (0x0100 + i)) 1 0 == 0 && bits (word (0x0200 + i)) 63 33 == 0 &&
    bits (word (0x0200 + i)) 6 0 == 0 && bits (word (0x0400 + 2 * i)) 11 1 == 0 && bits (word (0x0500 + 4 * i)) 23 1 == 0 && bits (word (0x0600 + 4 * i)) 23 1 == 0) &&
  ((List.range 32).all fun k =>
    let x := word (0x0300 + k)
    bits x 1 1 == 0 && (!bit x 0 || (bits x 63 48 ||| bits x 47 32) &&& all == bits x 63 48 ||| bits x 47 32)) &&
  masks.foldl (fun n m => n + popcount m 16) 0 == popcount all 16

/-- A fragment from its words (Tables 5.4, 16.6), with the lanes that are still present. -/
def thawFrag (x y pres cyc : Nat) : Frag :=
  let m := bits x 47 32 &&& pres
  if bits x 63 62 = 0 ∨ m = 0 then Frag.empty
  else { Frag.empty with
    fst := match bits x 63 62 with | 1 => .live | 2 => .joining | _ => .parked,
    slot := bits x 61 60, kix := bits x 59 55, born := bits x 51 48, mask := m, pc := bits x 31 2 * 4, gate := cyc + bits y 32 20, iss := bits y 15 7 }

/-- The owner-table entry that the words give (Table 5.3); its segment and its lanes are the device's. -/
def thawOwner (o : Owner) (lo hi : Nat) : Owner :=
  let x := lo + hi * 2 ^ 64
  { o with valid := o.valid && bit x 0, cls := bits x 15 12, vf := bits x 21 16, asid := bits x 41 22, awn := bits x 57 42, prio := bits x 60 58,
           key := bits x 70 61, wg := bits x 127 96 }

/-- A recorded engine failure from its words; its class and number are the device's. -/
def thawFail (f : Failure) (r : Nat) : Failure :=
  if bit r 0 then { f with cause := bits r 111 104, addr := bits r 255 192, pc := bits r 159 128, nfail := bits r 40 25 } else Failure.none

/-- The group that the frozen state describes (R294), and the knots that it releases (R363). -/
def Group.thawed (g : Group) (h : Handler) (cyc : Nat) : GH :=
  let word := fun (n : Nat) => (Tab.get (fun _ => (0 : DWord)) h.frozen n).toNat
  let frags := (List.range 16).foldl (fun (t : Tab Frag) i => Tab.put (fun _ => Frag.empty) t i (thawFrag (word (0x0100 + i)) (word (0x0200 + i)) h.pres cyc)) []
  let frag := fun (i : Nat) => Tab.get (fun _ => Frag.empty) frags i
  let waiting := ((List.range 16).filter fun i => (frag i).fst == .live && (frag i).slot == 0).mergeSort
    fun i j => decide (bits (word (0x0200 + i)) 19 16 ≤ bits (word (0x0200 + j)) 19 16)
  let knots := (List.range 32).foldl (fun (t : Tab Knot) k =>
    let x := word (0x0300 + k)
    Tab.put (fun _ => Knot.empty) t k (if bit x 0 then { valid := true, mask := bits x 63 48 &&& h.pres, arr := bits x 47 32 &&& h.pres, pc := bits x 31 2 * 4,
                                                         ord := if (g.knot k).valid then (g.knot k).ord else g.pushes + k } else Knot.empty)) []
  let owners := (List.range 16).foldl (fun (t : Tab Owner) e =>
    let o := Tab.get (fun _ => Owner.empty) h.owners e
    if o = Owner.empty then t else Tab.put (fun _ => Owner.empty) t e (thawOwner o (word (0x0400 + 2 * e)) (word (0x0401 + 2 * e)))) []
  let fails := (List.range 16).foldl (fun (t : Tab Failure) e =>
    let r := (List.range 4).foldl (fun n w => n + word (0x0600 + 4 * e + w) * 2 ^ (64 * w)) 0
    Tab.put (fun _ => Failure.none) t e (thawFail (g.fail e) r)) []
  let g1 : Group := { g with handler := none, frags := frags, waiting := waiting, knots := knots, owners := owners, fails := fails, pres := h.pres, births := 16,
                             pushes := g.pushes + 32, status := h.vstatus, flags := h.vflags, clk := h.clk }
  let y := GH.settle { g := g1, hs := [] } cyc
  { y with g := Group.fill y.g 2 }

/-- v0 to v3 and s56 to s63 as the device reloads them (R292). -/
def Group.reload (g : Group) (low high : List Byte) : Group :=
  let v := (List.range 64).foldl (fun (t : Tab Word) n => Tab.put (fun _ => 0) t (n % 4 * 16 + n / 4) (BitVec.ofNat 32 (ofBytes ((low.drop (4 * n)).take 4)))) g.v
  let s := (List.range 8).foldl (fun (t : Tab DWord) n => Tab.put (fun _ => 0) t (56 + n) (BitVec.ofNat 64 (ofBytes ((high.drop (8 * n)).take 8)))) g.s
  { g with v := v, s := s }

/-- A guest handler resumes at its interrupted boundary with the bank of block 0x07 (R291, R309). -/
def Handler.resumeGuest (h : Handler) (x : Guest) : Handler :=
  { h with fn := x.fn, level := 1, restore := x.restore, cause := cPreempt, code := x.code, area := x.area, warea := x.warea, unit := x.unit, idx := x.idx,
           header := x.header, shadow := h.inner, inner := [], guest := none }

/-- One more group of a unit has been restored; with the last, the unit ends and its blocks are free (R334). -/
def Prog.restoredOne (unit : Nat) : Prog := Prog.on fun s => match s.savedAt unit with
  | some u => if u.left ≤ 1 then Prog.freeUnit unit u else Prog.put (.saved unit (some { u with left := u.left - 1 }))
  | none => Prog.skip

/-- The restore-entry RETT completes (R294, R309): the checks, then the saved fragments go on, those that were resumed while frozen or saved resume, and the domains of those that were killed retire (R288). A group that a
guest had still to save stops for it again (R291); the PC of an interrupted guest handler is one that is restored (R14). -/
def Prog.restoreDone (k : Nat) (g : Group) (h : Handler) (q : Nat) : Prog := Prog.on fun s =>
  let read := fun (a n : Nat) => s.readVirt h.fn (s.hasid h.fn) (s.hkey h.fn q) q 3 ((h.area + a) % 2 ^ 56) n
  match !frozenOk h.frozen, read 0x40 256, read 0x300 64 with
  | false, .ok low, .ok high =>
    let g0 := g.reload low high
    (match h.guest with
     | some x =>
       let o := s.handlerOwner x.fn q (Tab.get (fun _ => Owner.empty) h.owners 0)
       let f := { x.frag with hold := .none, holdSince := none, gate := s.cycle + 1, target := false }
       Prog.seq (Prog.put (.groups k { g0 with handler := some (h.resumeGuest x), owners := [(0, o)], frags := [(0, f)], waiting := [], flags := x.flags }))
         (Prog.restoredOne h.unit)
     | none =>
       let stat := fun (i : Nat) => bits (Tab.get (fun _ => (0 : DWord)) h.frozen (0x0500 + 4 * i + 1)).toNat 1 0
       let y := g0.thawed h s.cycle
       let g1 := y.g
       let waits := s.saved.any fun p => match p.2 with
         | some u => p.1 != h.unit && 0 < u.left && !u.failed && (u.grps.zip u.groups).any fun x => x.1 == k && !x.2.live
         | none => false
       Prog.all [
         Prog.gh (.grp k 0) { y with g := { g1 with evict := waits } },
         Prog.each (fun i =>
           let r := (s.fnsAt (g1.ownerOf (lowest (g1.frag i).mask)).vf).recAt (Tab.get (fun _ => 0) g1.parkRec i)
           Prog.when ((g1.frag i).fst == .parked && stat i == 1) (Prog.wake k i r.cause)) (List.range 16),
         Prog.restoredOne h.unit,
         Prog.each (fun i => Prog.when ((g1.frag i).fst == .parked && stat i == 2) (Prog.retireEntry (.grp k 0) (g1.entOf (lowest (g1.frag i).mask)) 0 [])) (List.range 16)])
  | false, .error c, _ => if c = cHeld then Prog.skip else Prog.handlerFailed k
  | false, _, .error c => if c = cHeld then Prog.skip else Prog.handlerFailed k
  | _, _, _ => Prog.handlerFailed k

/-- RETT_COMPLETE (R309): every engine counter of the group is 0, and nothing that the handler issued is outstanding. -/
def execRettComplete (grp : Nat) (s : State) : Host.Outcome State Fault Refusal :=
  let g := s.groupsAt grp
  match (g.frag 0).hold, g.handler with
  | .rett _, some h =>
    if h.failed || !g.eng.isEmpty || !(s.agentOps (.grp grp 0)).isEmpty || !g.pend.isEmpty then .next s
    else
      let g1 := { g with retired := g.retired + 1, clk := g.clk + 1 }
      (if h.restore then Prog.free (2 ^ 200) fun q => Prog.restoreDone grp g1 h q else Prog.saveDone grp g1 h).go s
  | _, _ => .next s

/-! ## CORE_FENCE (R300) -/

/-- Retire the fault domain of a workgroup with a fatal record for every entry that it ends. -/
def Prog.retireWg (n cause : Nat) : Prog := Prog.on fun s => match s.wgsAt n with
  | some w => Prog.when (!w.ended) (Prog.retire (s.domain (s.wgChain n)) cause [])
  | none => Prog.skip

/-- Whether a workgroup is being moved off a fenced core. -/
def State.fencing (s : State) (n : Nat) : Bool := s.saved.any fun p => match p.2 with
  | some u => u.cause == cCoreFenced && 0 < u.left && decide (n ∈ u.wgs)
  | none => false

/-- Step 3 for one unit: it is evicted by the root handler, over a guest's selection or handler, or retired where it has accumulator rows, where no area is free
for it, or where a root handler restores it or a handler has failed (log 46). One that the root already evicts goes on, as an eviction of this fence. -/
def Prog.fenceUnit (v : Victim) : Prog := Prog.on fun s =>
  let rows := v.wgs.any fun n => match s.wgsAt n with | some w => w.acr != 0 | none => false
  let hs := v.grps.filterMap fun k => (s.groupsAt k).handler
  let mine := v.grps.filterMap fun k =>
    let g := s.groupsAt k
    if g.evict || g.handler.any fun h => 2 ≤ h.level then (match s.unitAt k with | some x => if x.2.1.fn = 0 then some (x.1, x.2.1) else none | none => none)
    else none
  if rows || hs.any (fun h => h.failed || (2 ≤ h.level && h.restore)) then Prog.each (fun n => Prog.retireWg n cCoreFenced) v.wgs
  else if !mine.isEmpty then Prog.each (fun (x : Nat × Saved) => Prog.put (.saved x.1 (some { x.2 with resumed := true, cause := cCoreFenced }))) mine
  else match s.areasFor 0 v v.wgs.length 0 (s.fnsAt 0).blocks with
    | some a => Prog.evict 0 0 cCoreFenced true (v, a.1, a.2.1)
    | none => Prog.each (fun n => Prog.retireWg n cCoreFenced) v.wgs

/-- CORE_FENCE (R300): `hit` names the workgroups whose lane registers, segment or rows hold the bad word. -/
def execCoreFence (core : Nat) (hit : List Nat) (s : State) : Host.Outcome State Fault Refusal :=
  if 2047 < core then .next s
  else
    (Prog.all [
      Prog.each (fun n => Prog.on fun t => match t.wgsAt n with
        | some w => Prog.when (w.core == core && !w.saved) (Prog.retireWg n (if t.fencing n then cCoreFenced else cUncorrectable))
        | none => Prog.skip) hit,
      Prog.on fun t => Prog.put (.cores core { t.coresAt core with fenced := true }),
      Prog.on fun t => Prog.each (fun (p : Nat × Option Launch) => match p.2 with
        | some _ => Prog.when (t.admits.any fun a => a.core == core && a.launch == p.1) (Prog.unplace p.1)
        | none => Prog.skip) t.launches,
      Prog.on fun t => Prog.each Prog.fenceUnit (t.victims core)]).go s

end Sys2Proof.Machine
end

