-- ==== Sys2Proof/Machine/Debug.lean ====
section
/-! DEFINITION. Claims, debug stops and steps, precise stops, trace units, counters and histograms (R301, R302, R354 to R366). -/

namespace Sys2Proof.Machine

/-! ## Claims (R355, R356) -/

/-- What a claim register shows of a unit: holder, revocation pending, and each function's last result. -/
structure Claim where
  hold : Option Nat
  rvk : Bool
  cst : Tab Nat
  deriving DecidableEq, Repr

def State.claimOf (s : State) (core : Nat) (bank : Bool) : Claim :=
  if bank then { hold := (s.banksAt core).hold, rvk := (s.banksAt core).rvk, cst := (s.banksAt core).cst }
  else { hold := (s.tracesAt core).hold, rvk := (s.tracesAt core).rvk, cst := (s.tracesAt core).cst }

/-- Write a claim back; a trace unit whose holder goes stops. -/
def Prog.setClaim (core : Nat) (bank : Bool) (c : Claim) : Prog := Prog.on fun s =>
  if bank then Prog.put (.banks core { s.banksAt core with hold := c.hold, rvk := c.rvk, cst := c.cst })
  else
    let u := s.tracesAt core
    Prog.put (.traces core { u with hold := c.hold, rvk := c.rvk, cst := c.cst, run := u.run && c.hold == u.hold })

def Claim.result (c : Claim) (fn v : Nat) : Claim := { c with cst := Tab.put (fun _ => 0) c.cst fn v }

/-- Whether a function may write the claim register of a unit: trace units only as the debug state allows (R354). -/
def State.claimReach (s : State) (fn core : Nat) (bank : Bool) : Bool := decide (core < 2048) && (bank || s.guestFor fn)

/-- A write of the host to a debug register that the function reaches; otherwise ACCV is set (R354). -/
def debugWrite (fn : Nat) (ok : State → Bool) (p : Prog) (s : State) : Host.Outcome State Fault Refusal :=
  hostWrite fn (Prog.on fun s => if ok s then p else Prog.fnstat fn 0) s

/-- Whether an event of this cycle is a claim of a unit by the PF, as such or as a write of CLM = 1 (R355). -/
def pfClaim (core : Nat) (bank : Bool) : Item → Bool
  | .event (.claim 0 c b) => c == core && b == bank
  | .event (.registerWrite 0 off n val _) =>
    off / 8 * 8 == 0x810000 + 2048 * core + (if bank then 0x38 else 0) && (if n = 8 then bit val.toNat 63 else off % 8 == 4 && bit val.toNat 31)
  | _ => false

/-- CLAIM (R355): a free unit passes to the writer. The PF's claim of the same cycle goes first. -/
def execClaim (fn core : Nat) (bank : Bool) (s : State) : Host.Outcome State Fault Refusal :=
  debugWrite fn (fun s => s.claimReach fn core bank) (Prog.on fun s =>
    let c := s.claimOf core bank
    let pfToo := fn != 0 && s.agenda.any (pfClaim core bank)
    match c.hold with
    | none => if pfToo then Prog.setClaim core bank (c.result fn 1) else Prog.setClaim core bank ({ c with hold := some fn }.result fn 0)
    | some v => Prog.setClaim core bank (c.result fn (if v = fn then 0 else if v = 0 then 1 else 2))) s

/-- RELEASE (R355): the holder frees the unit at once, and a trace unit stops. -/
def execRelease (fn core : Nat) (bank : Bool) (s : State) : Host.Outcome State Fault Refusal :=
  debugWrite fn (fun s => s.claimReach fn core bank) (Prog.on fun s =>
    let c := s.claimOf core bank
    Prog.when (c.hold == some fn) (Prog.setClaim core bank ({ c with hold := none }.result fn 0))) s

/-- The status entry of a revocation. -/
def revokeWord (core : Nat) (bank : Bool) : Nat := statusWord 6 (if bank then 2 else 1) 0 0 core

/-- RVK (R356): the PF asks for a VF's claim; the holder's status entry waits to be written, one for each holder. -/
def execRvk (fn core : Nat) (bank : Bool) (s : State) : Host.Outcome State Fault Refusal :=
  debugWrite fn (fun s => s.claimReach fn core bank) (Prog.on fun s =>
    let c := s.claimOf core bank
    match c.hold with
    | none => Prog.skip
    | some v =>
      Prog.when (fn == 0 && v != 0 && !decide (revokeWord core bank ∈ (s.fnsAt v).statWait))
        (Prog.seq (Prog.setClaim core bank { c with rvk := true }) (Prog.status v 6 (if bank then 2 else 1) 0 0 core))) s

/-- A revocation ends, that of function v's claim where its entry has been written: the unit passes to the PF, unless a function to which no entry was written has
claimed it since (R356). One whose entry still waits stays pending. -/
def Prog.passToPf (core : Nat) (bank : Bool) (v : Option Nat) : Prog := Prog.on fun s =>
  let c := { s.claimOf core bank with rvk := s.fns.any fun p => decide (revokeWord core bank ∈ p.2.statWait) }
  Prog.setClaim core bank (if c.hold.any fun h => v != some h && h != 0 then c else { c with hold := some 0 }.result 0 0)

/-- REVOCATION_COMPLETE (R356): the entry, at the head of the holder's status queue, is written, and in that cycle the unit passes to the PF. An entry that a
reset of the holder has discarded is waited for no longer, and takes no other function's claim. -/
def execRevocationComplete (core : Nat) (bank : Bool) (s : State) : Host.Outcome State Fault Refusal :=
  if (s.claimOf core bank).rvk = false then .next s
  else
    let w := revokeWord core bank
    match s.fns.find? fun p => decide (w ∈ p.2.statWait) with
    | none => (Prog.passToPf core bank none).go s
    | some (fn, f) =>
      if f.statWait.head? ≠ some w ∨ s.ringOpen fn false = false then .next s
      else (Prog.ringEntry fn false false (toBytes w 16) (Prog.seq (Prog.statusDone fn w) (Prog.passToPf core bank (some fn)))).go s

/-! ## Stops and steps (R301, R302, R357 to R359) -/

/-- The group that DBCMD names (Table 22.5). -/
def dbcmdGrp (v : Nat) : Nat := bits v 56 46 * 256 + bits v 45 38

/-- The status entry of a stop, a step or a go. -/
def Prog.dbgStatus (fn k code : Nat) : Prog := Prog.on fun s => Prog.status fn 7 code 0 (k % 256) (s.groupsAt k).retired.toNat

/-- Carry out a DBCMD on a group that the function may stop; RES reads as Table 22.5 gives. -/
def dbcmd (fn : Nat) (val : BitVec 64) (p : Nat → Prog) (s : State) : Host.Outcome State Fault Refusal :=
  debugWrite fn (fun s => s.guestFor fn) (Prog.on fun s =>
    let k := dbcmdGrp val.toNat
    let g := s.groupsAt k
    let res := if !g.live then 2 else if !s.mayStop fn g then 1 else 0
    Prog.seq (Prog.reg fn 0x800018 (res * 2 ^ 36)) (Prog.when (res == 0) (p k))) s

/-- DBCMD_STOP (R358): the group issues nothing from the next issue cycle. -/
def execDbcmdStop (fn : Nat) (val : BitVec 64) (s : State) : Host.Outcome State Fault Refusal :=
  dbcmd fn val (fun k => Prog.on fun s =>
    let g := s.groupsAt k
    Prog.seq (Prog.put (.groups k { g with stop := { g.stop with stopped := true, fn := fn, step := none } })) (Prog.dbgStatus fn k 0)) s

/-- The fragment that takes path slot 0 for a step (R302); the one that held it goes to the front of the waiting order. -/
def Group.takeSlot0 (g : Group) (i : Nat) : Group :=
  if (g.frag i).slot ≠ 0 then g
  else
    let holder := (List.range 16).filter fun j => (g.frag j).slot == 1
    let g1 := holder.foldl (fun (g : Group) j => g.setFrag j { g.frag j with slot := 0 }) g
    { g1.setFrag i { g1.frag i with slot := 1, iss := 0 } with waiting := holder ++ g1.waiting.filter (· != i) }

/-- The fragment that a step names: a live one, or the live one of lowest age. -/
def Group.stepFrag (g : Group) (v : Nat) : Option Nat :=
  if bit v 61 then (let e := bits v 60 57; if (g.frag e).fst == .live then some e else none)
  else g.liveFrags.foldl (fun (b : Option Nat) i => match b with
    | some j => if (g.frag i).born < (g.frag j).born then some i else b
    | none => some i) none

/-- DBCMD_STEP (R302): the fragment of a stopped group is to issue one instruction; its status entry follows the issue. A step that finds nothing to issue
reports that. -/
def execDbcmdStep (fn : Nat) (val : BitVec 64) (s : State) : Host.Outcome State Fault Refusal :=
  dbcmd fn val (fun k => Prog.on fun s =>
    let g := s.groupsAt k
    match g.stepFrag val.toNat, g.stop.stopped && !(g.handler.any fun h => h.failed) with
    | some i, true =>
      let g1 := g.takeSlot0 i
      Prog.put (.groups k { g1 with stop := { g.stop with fn := fn, step := some i, base := g.clk } })
    | _, _ => Prog.dbgStatus fn k 1) s

/-- DBCMD_GO (R358): the stop is released. A group that a failed handler has left stopped stays so (R304). -/
def execDbcmdGo (fn : Nat) (val : BitVec 64) (s : State) : Host.Outcome State Fault Refusal :=
  dbcmd fn val (fun k => Prog.on fun s =>
    let g := s.groupsAt k
    if g.handler.any fun h => h.failed then Prog.dbgStatus fn k 1
    else Prog.seq (Prog.put (.groups k { g with stop := { g.stop with stopped := false, step := none, passed := g.clk + 1 } })) (Prog.dbgStatus fn k 0)) s

/-- A step has issued, or its fragment has parked or ended without an issue: its status entry is written (R302, R358). -/
def Prog.stepDone (k : Nat) : Prog := Prog.on fun s =>
  let g := s.groupsAt k
  match g.stop.step with
  | some i =>
    Prog.when (g.clk != g.stop.base || (g.frag i).fst != .live)
      (Prog.seq (Prog.put (.groups k { g with stop := { g.stop with step := none } })) (Prog.dbgStatus g.stop.fn k (if g.clk = g.stop.base then 1 else 0)))
  | none => Prog.skip

/-- PRECISE_STOP (R359): the group stops before the instruction that would make RETIRED exceed SRET. -/
def execPreciseStop (grp fn : Nat) (s : State) : Host.Outcome State Fault Refusal :=
  if !s.preciseDue grp fn then .next s
  else
    let g := s.groupsAt grp
    (Prog.seq (Prog.put (.groups grp { g with stop := { g.stop with stopped := true, fn := fn, step := none } })) (Prog.dbgStatus fn grp 0)).go s

/-! ## Trace units (R361) -/

/-- Whether a function reaches the registers of a trace unit: its holder, and the PF in OPEN (R354). -/
def State.traceReach (s : State) (fn core : Nat) : Bool :=
  decide (core < 2048) && s.guestFor fn && ((s.tracesAt core).hold == some fn || (fn == 0 && s.dbg == 2))

/-- TUCTL_WRITE (R361): without a start line, EN = 1 starts the unit at once. -/
def execTuctlWrite (fn core : Nat) (val : BitVec 64) (s : State) : Host.Outcome State Fault Refusal :=
  debugWrite fn (fun s => s.traceReach fn core) (Prog.on fun s =>
    let v := val.toNat
    let u := s.tracesAt core
    let run := bit v 63 && (u.run || bits v 53 46 == 0)
    let new := !u.en || u.gsl != bits v 61 54
    let u1 := { u with en := bit v 63, run := run, gsl := bits v 61 54, tsta := bits v 53 46, tstp := bits v 45 38, snap := if new then [] else u.snap }
    Prog.seq (Prog.put (.traces core u1))
      (Prog.when (run && (!u.run || new)) (Prog.traceSync core))) s

/-- TUCTL as it reads (Table 22.6): RUN says that the unit records. -/
def TraceUnit.ctl (u : TraceUnit) (rec_ : Bool) : Nat :=
  (if u.en then 2 ^ 63 else 0) + (if rec_ then 2 ^ 62 else 0) + u.gsl * 2 ^ 54 + u.tsta * 2 ^ 46 + u.tstp * 2 ^ 38 + u.drop % 2 ^ 32 * 2 ^ 6

/-- A read of a debug register: 0 and ACCV where the function does not reach it. -/
def debugRead (fn : Nat) (ok : State → Bool) (p : Prog) (s : State) : Host.Outcome State Fault Refusal :=
  hostRead fn (Prog.on fun s => if ok s then p else Prog.noReach fn) s

/-- TUCTL_READ (R361): it clears DROP. -/
def execTuctlRead (fn core : Nat) (s : State) : Host.Outcome State Fault Refusal :=
  debugRead fn (fun s => s.traceReach fn core) (Prog.on fun s =>
    Prog.seq (Prog.reply (toBytes ((s.tracesAt core).ctl (s.recording core)) 8)) (Prog.put (.traces core { s.tracesAt core with drop := 0 }))) s

/-- The n-th byte of a trace stream. -/
def State.traceByte (s : State) (core n : Nat) : Byte := s.memAt (traceKey core (n % 16384))

/-- TBDATA_READ (R361): the 8 bytes at RD; beyond WR, with fewer written or RD past it, 0 and no advance. -/
def execTbdataRead (fn core : Nat) (s : State) : Host.Outcome State Fault Refusal :=
  debugRead fn (fun s => s.traceReach fn core) (Prog.on fun s =>
    let u := s.tracesAt core
    if u.pending < 8 ∨ 2147483648 ≤ u.pending then Prog.reply (toBytes 0 8)
    else
      Prog.all [Prog.reply ((List.range 8).map fun i => s.traceByte core (u.rd + i)), Prog.put (.traces core { u with rd := (u.rd + 8) % 4294967296 }),
        Prog.traceRoom core]) s

/-- A pulse of trigger lines at one core's unit: TRIG while it records; then a stop line stops it and a start line starts it. -/
def Prog.tracePulse (core lines : Nat) : Prog := Prog.on fun s =>
  let u := s.tracesAt core
  let starts := u.tsta &&& lines != 0
  let stops := u.tstp &&& lines != 0
  Prog.seq (Prog.packet core 0xA [BitVec.ofNat 8 lines])
    (Prog.on fun t =>
      let v := t.tracesAt core
      if stops then Prog.put (.traces core { v with run := false })
      else if starts && v.en && !v.run then Prog.seq (Prog.put (.traces core { v with run := true })) (Prog.traceSync core)
      else Prog.skip)

/-- TRACE_TRIGGER (R361): the lines that a die's filters have pulsed reach its trace units. -/
def execTraceTrigger (die : Nat) (s : State) : Host.Outcome State Fault Refusal :=
  let e := s.efcsAt die
  if e.trig = 0 then .next s
  else
    (Prog.seq (Prog.put (.efcs die { e with trig := 0 }))
      (Prog.each (fun (p : Nat × TraceUnit) => Prog.when (dieOf p.1 == die) (Prog.tracePulse p.1 e.trig)) s.traces)).go s

/-! ## Counters (R365) -/

/-- Whether a function reaches a counter bank: its holder, and the PF in OPEN (R354). -/
def State.bankReach (s : State) (fn core : Nat) : Bool :=
  decide (core < 2048) && ((s.banksAt core).hold == some fn || (fn == 0 && s.dbg == 2))

/-- CBSEL_WRITE (R365): it selects a counter's event and zeroes the counter; FALL is for the PF as holder. -/
def execCbselWrite (fn core i : Nat) (val : BitVec 64) (s : State) : Host.Outcome State Fault Refusal :=
  debugWrite fn (fun s => s.bankReach fn core && decide (i < 8)) (Prog.on fun s =>
    let b := s.banksAt core
    let v := bits val.toNat 63 52 * 2 ^ 52 + (if fn = 0 ∧ bit val.toNat 51 = true then 2 ^ 51 else 0)
    Prog.put (.banks core { b with sel := Tab.put (fun _ => 0) b.sel i (BitVec.ofNat 64 v), val := Tab.put (fun _ => 0) b.val i 0 })) s

/-! ## Stall runs and histograms (R261, R262, R366) -/

/-- NOELIG_RUN_END (R261): a run that has ended is written as an event. -/
def execNoeligRunEnd (sched : Nat) (s : State) : Host.Outcome State Fault Refusal :=
  let x := s.schedsAt sched
  match x.ended with
  | [] => .next s
  | r :: t =>
    (Prog.seq (Prog.put (.scheds sched { x with ended := t }))
      (Prog.event (sched / 2048) (evWord r.start 0 (sched % 2048) r.vf r.asid r.cause (r.slot % 64) r.len))).go s

/-- Cycles of a histogram interval of a die (Table 14.9: HLOG). -/
def State.histLen (s : State) (die : Nat) : Nat := 2 ^ bits (s.efc die 0x5B00) 4 0

/-- HIST_INTERVAL_END (R262, R366): the bins are latched and cleared, and 65 HIST events follow, one in each of the next 65 cycles. -/
def execHistIntervalEnd (sched : Nat) (s : State) : Host.Outcome State Fault Refusal :=
  let x := s.schedsAt sched
  let die := sched / 2048
  if s.cycle + 1 < x.histStart + s.histLen die then .next s
  else
    let bin := fun (b : Nat) => min (Tab.get (fun _ => 0) x.hist b) 4294967295
    let n := (Tab.get (fun _ => 0) x.latched 65 + 1) % 4294967296
    let events := (List.range 65).map fun b => (s.cycle + 1 + b, Instr.eventRecord die (evWord (s.cycle + 1 + b) 1 (sched % 2048) 0 0 0 b (bin b)))
    .next (runAll s [
      .scheds sched { x with hist := [], histStart := s.cycle + 1, latched := Tab.put (fun _ => 0) ((List.range 65).foldl (fun t b => Tab.put (fun _ => 0) t b (bin b)) []) 65 n },
      .inputs (s.inputs ++ events)])

end Sys2Proof.Machine
end

