-- ==== Sys2Proof/Machine/Host.lean ====
section
/-! DEFINITION. What the host does to the machine over the link: register writes and reads (R330 to R335, Tables 20.1 to 20.6), accesses to device memory
(R190, R338), the completion timeout (R353), SPDM and IDE_KM (R341, R345). -/

namespace Sys2Proof.Machine

/-! ## Rights (R330, R341, R342) -/

/-- Who acts in a register access: a function, or, numbered 64, the debug master, which reaches every target while the debug state is OPEN (R338, R349); it acts as
the PF does. DESIGN CHOICE (log 17): the number, and the PF's view of the windows. -/
def State.master (s : State) (fn : Nat) : Nat := if fn = 64 ∧ s.dbg = 2 then 0 else fn

/-- An access to a window takes place: 4 or 8 bytes, naturally aligned (R330); a RUN function's travels in a selective stream bound to it with the T bit (R341). A device
that answers configuration requests with CRS has no BAR yet (DEDUCED from R344, log 37). -/
def State.windowOk (s : State) (fn off n : Nat) (tbit : Bool) : Bool :=
  !s.sec.crs && decide (fn < 64) && (n == 4 || n == 8) && off % n == 0 &&
    ((s.fnsAt fn).tdis != 2 || (tbit && s.sec.streams.any fun p => p.1 / 64 == fn && p.2 != 0))

/-- A write by the PF that would change frozen state of some TDIs does nothing, and they enter ERROR (R342). -/
def Prog.unlessFrozen (vfs : List Nat) (p : Prog) : Prog := Prog.on fun s =>
  let frozen := (vfs.filter s.frozenFn).eraseDups
  if frozen.isEmpty then p else Prog.each Prog.tdiError frozen

/-- x with the bits of mask m taken from v. -/
def maskIn (x v m : Nat) : Nat := (x &&& (2 ^ 64 - 1 - m)) ||| (v &&& m)
/-- The mask of bits hi to lo. -/
def maskOf (hi lo : Nat) : Nat := 2 ^ (hi + 1) - 2 ^ lo

/-- Write the bits of a mask in a register of a window. -/
def Prog.regMask (fn off v m : Nat) : Prog := Prog.on fun s => Prog.reg fn off (maskIn (s.reg fn off).toNat v m)

/-- A register of the PF alone. -/
def pfReg (w fn : Nat) (p : Prog) : Prog := if w = 0 then p else Prog.fnstat fn 0

/-! ## Launch queues and rings (R332, R333) -/

/-- Whether another enabled queue of the same owner carries another awning (R332). -/
def State.awnConflict (s : State) (fn q asid awn : Nat) : Bool :=
  (List.range 16).any fun j => j != q && bit (s.lqc fn j) 63 && bits (s.lqc fn j) 49 30 == asid && bits (s.lqc fn j) 29 14 != awn

/-- A write of LQC (Table 20.2): `w` is the writer, whose POOL and AWN count only from the PF, and CRES only from the function itself. -/
def Prog.lqcWrite (w fn q v : Nat) : Prog := Prog.on fun s =>
  let old := s.lqc fn q
  let m1 := if bit old 63 then 0 else maskOf 62 58 + maskOf 49 30
  let m2 := if w = 0 then maskOf 57 50 + maskOf 29 14 else 0
  let m3 := if w = fn ∧ s.frozenFn fn = false then 2 ^ 13 else 0
  let x := maskIn old v (m1 + m2 + m3)
  let vfs := if w = 0 ∧ x &&& (maskOf 57 50 + maskOf 29 14) ≠ old &&& (maskOf 57 50 + maskOf 29 14) then [fn] else []
  Prog.unlessFrozen vfs
    (if bit v 63 && s.awnConflict fn q (bits x 49 30) (bits x 29 14) then
       Prog.seq (Prog.reg fn (lqOff q + 8) (setBits x 63 63 0)) (Prog.fnstat fn 3)
     else Prog.reg fn (lqOff q + 8) (setBits x 63 63 (bits v 63 63)))

/-- LAUNCH_QUEUE_ENABLE (R332): a write of LQC with EN = 1. -/
def execLaunchQueueEnable (fn q : Nat) (val : BitVec 64) (s : State) : Host.Outcome State Fault Refusal :=
  if 63 < fn ∨ 15 < q then .next s else hostWrite fn (Prog.lqcWrite fn fn q (val.toNat ||| 2 ^ 63)) s

/-- A write of QC (Table 20.3). -/
def Prog.qcWrite (fn : Nat) (fault : Bool) (v : Nat) : Prog := Prog.reg fn (ringOff fault + 8) (v &&& maskOf 63 57)

/-- RING_ENABLE (R333): a write of QC with EN = 1; entries that wait are written from now on. -/
def execRingEnable (fn ring : Nat) (val : BitVec 64) (s : State) : Host.Outcome State Fault Refusal :=
  if 63 < fn ∨ 1 < ring then .next s else hostWrite fn (Prog.qcWrite fn (ring == 1) (val.toNat ||| 2 ^ 63)) s

/-! ## FNSTAT and commands (R331, R336) -/

/-- FNSTAT_WRITE (R331): W1C of the sticky bits. -/
def execFnstatWrite (fn : Nat) (val : BitVec 64) (s : State) : Host.Outcome State Fault Refusal :=
  if 63 < fn then .next s
  else hostWrite fn (Prog.on fun s => Prog.reg fn 8 ((s.reg fn 8).toNat &&& (2 ^ 64 - 1 - val.toNat % 32))) s

/-- A write of CMDX (R336): the command waits to take effect. An OP that Table 20.7 does not list completes with 0x02 (DEDUCED: log 16). -/
def Prog.cmdx (fn v : Nat) : Prog := Prog.on fun s =>
  if bit (s.reg fn 8).toNat 5 then Prog.fnstat fn 1
  else
    let op := bits v 63 56
    let args := ([0, 1, 2, 3].map fun j => (s.reg fn (0x10 + 8 * j)).toNat) ++ [v % 2 ^ 32]
    let c : Cmd := { op := op, args := args, node := 0, start := s.cycle, victims := [], short := false, noRun := false, seq := s.nextId, begun := false }
    Prog.all [
      Prog.reg fn 8 ((s.reg fn 8).toNat ||| 32),
      fun t => [.fns fn { t.fnsAt fn with cmd := some c }, .nextId (s.nextId + 1)],
      Prog.when (op == 0 || decide (12 < op)) (Prog.complete fn 2)]

/-! ## The partition map and the access tables (R335, R338) -/

/-- The quadrant owners of a cluster entry. -/
def entryOwners (e : Nat) : List Nat := (List.range 4).map (quadOwner e)

/-- Whether a cluster entry may not be written (R335). -/
def State.clusterBusy (s : State) (cl v : Nat) : Bool :=
  (List.range 4).any (fun k => (onesOf (regionOf (bits v 63 61) k) 4).any fun j => quadOwner v j != quadOwner v k) ||
  (List.range 4).any (fun k => (s.ctxsAt (4 * cl + k)).state == 1 || (s.ctxsAt (4 * cl + k)).state == 3) ||
  s.wgs.any (fun p => match p.2 with | some w => w.core / 4 == cl && w.acr != 0 && !w.saved | none => false) ||
  (List.range 4).any (fun k => !bit (s.coreMask (4 * cl + k)) (quadOwner v k))

/-- A write of a cluster entry by the PF (R335); the regions that it configures have no owner (R220). -/
def Prog.clusterWrite (cl v0 : Nat) : Prog := Prog.on fun s =>
  let old := s.clusterEntry cl
  let v := v0 &&& maskOf 63 37
  Prog.unlessFrozen (if v = old then [] else entryOwners old ++ entryOwners v)
    (if s.clusterBusy cl v then Prog.fnstat 0 2
     else Prog.seq (Prog.reg 0 (4194304 + 4096 + 8 * cl) v)
       (Prog.each (fun k => Prog.on fun t => Prog.put (.ctxs (4 * cl + k) { t.ctxsAt (4 * cl + k) with owned := false })) (List.range 4)))

/-- CLUSTER_ENTRY_WRITE (R335). -/
def execClusterEntryWrite (cluster : Nat) (val : BitVec 64) (s : State) : Host.Outcome State Fault Refusal :=
  if 511 < cluster then .next s else (Prog.clusterWrite cluster val.toNat).go s

/-- Whether two scratch ranges overlap. -/
def rangesMeet (x y : Nat) : Bool :=
  rangeV x && rangeV y && decide (rangeBase x < rangeBase y + rangeLen y) && decide (rangeBase y < rangeBase x + rangeLen x)

/-- A write of a scratch range by the PF (R335). -/
def Prog.rangeWrite (die : Bool) (unit idx v0 : Nat) : Prog := Prog.on fun s =>
  let v := v0 &&& maskOf 63 38
  let n := if die then 32 else 4
  let off := fun (i : Nat) => if die then 4194304 + 24576 + 8 * (32 * unit + i) else 4194304 + 8192 + 8 * (4 * unit + i)
  let old := (s.reg 0 (off idx)).toNat
  Prog.unlessFrozen (if v = old then [] else [rangeVf old, rangeVf v])
    (if (List.range n).any fun i => i != idx && rangesMeet v (s.reg 0 (off i)).toNat then Prog.fnstat 0 2 else Prog.reg 0 (off idx) v)

/-- SCRATCH_RANGE_WRITE (R335). -/
def execScratchRangeWrite (die : Bool) (unit idx : Nat) (val : BitVec 64) (s : State) : Host.Outcome State Fault Refusal :=
  if (if die then decide (unit < 4 ∧ idx < 32) else decide (unit < 512 ∧ idx < 4)) then (Prog.rangeWrite die unit idx val.toNat).go s else .next s

/-- The functions whose bits two masks set differently. -/
def maskDiff (a b : Nat) : List Nat := onesOf (a ^^^ b) 64

/-- A write in the PF's block at 0x40_0000 (Table 20.1, log 15): partition registers, the partition map, the access table, KGRACE, grants and the
communicator table. -/
def Prog.pfWrite (o v : Nat) : Prog := Prog.on fun s =>
  let off := 4194304 + o
  let old := (s.reg 0 off).toNat
  if o < 0x1000 then
    let m := if o % 64 = 0 then 2 ^ 64 - 1 else if o % 64 = 8 then maskOf 63 29 else if o % 64 = 16 then maskOf 63 32 else 0
    Prog.unlessFrozen (if maskIn old v m = old then [] else [o / 64]) (Prog.reg 0 off (maskIn old v m))
  else if o < 0x2000 then Prog.clusterWrite ((o - 0x1000) / 8) v
  else if o < 0x6000 then Prog.rangeWrite false ((o - 0x2000) / 32) ((o - 0x2000) / 8 % 4) v
  else if o < 0x6400 then Prog.rangeWrite true ((o - 0x6000) / 256) ((o - 0x6000) / 8 % 32) v
  else if o < 0x8000 then Prog.skip
  else if o < 0xC000 then Prog.unlessFrozen (maskDiff old v) (Prog.reg 0 off v)
  else if o < 0x10000 then Prog.skip
  else if o < 0x14000 then Prog.unlessFrozen (maskDiff old v) (Prog.reg 0 off v)
  else if o = 0x18000 then Prog.reg 0 off v
  else if 0x18100 ≤ o ∧ o < 0x18900 then Prog.reg 0 off v
  else if 0x19000 ≤ o ∧ o < 0x19800 then Prog.reg 0 off (v &&& maskOf 63 33)
  else if 0x1A000 ≤ o ∧ o < 0x22000 then Prog.reg 0 off (v % 1024)
  else Prog.skip

/-! ## Debug block and EFC block (Tables 14.9, 22.1) -/

/-- Whether a function reaches the histograms and the throttle log (R354). -/
def profPf (fn : Nat) : Bool := fn == 0

/-- A write of the debug block that has no row of its own. -/
def Prog.debugPlain (fn o v : Nat) : Prog := Prog.on fun s =>
  if o < 0x18 then
    (if s.guestFor fn then Prog.reg fn (0x800000 + o) (v &&& (if o = 0 then maskOf 63 41 else if o = 8 then maskOf 63 43 + maskOf 31 0 else 2 ^ 64 - 1))
     else Prog.fnstat fn 0)
  else if 0x100 ≤ o ∧ o < 0x180 then (if profPf fn then Prog.skip else Prog.fnstat fn 0)
  else if 0x10000 ≤ o then
    let core := (o - 0x10000) / 2048
    let r := o % 2048
    if 2048 ≤ core then Prog.skip
    else if r = 0x10 then
      (if s.traceReach fn core then Prog.seq (Prog.put (.traces core { s.tracesAt core with rd := v % 2 ^ 32 })) (Prog.traceRoom core) else Prog.fnstat fn 0)
    else if r = 0x18 then (if s.traceReach fn core then Prog.skip else Prog.fnstat fn 0)
    else if 0x80 ≤ r ∧ r < 0xC0 then (if s.bankReach fn core then Prog.skip else Prog.fnstat fn 0)
    else if 0x100 ≤ r ∧ r < 0x540 then (if profPf fn then Prog.skip else Prog.fnstat fn 0)
    else Prog.skip
  else Prog.skip

/-- Whether a function reaches a sketch word (R270). -/
def State.sketchReach (s : State) (fn die w : Nat) : Bool :=
  fn == 0 || (List.range 64).any fun k => efscOwn (s.efsc die k) == fn && decide (bits (s.efsr die k) 63 49 ≤ w) &&
    decide (w < bits (s.efsr die k) 63 49 + bits (s.efsr die k) 48 33)

/-- The ring that holds a ring record and that a function owns (R271). -/
def State.ringReach (s : State) (fn die k : Nat) : Bool :=
  fn == 0 || (List.range 16).any fun r =>
    let c := s.efc die (efrcOff r)
    bits c 44 39 == fn && decide (bits c 63 49 ≤ k) && decide (k < bits c 63 49 + 2 ^ bits c 48 45)

/-- A write of the EFC block that has no row of its own, at offset `o`; `v` is the whole register afterwards. DESIGN CHOICE (log 50): a write of EFHI whose HLOG is
outside 10 to 24 (Table 14.9) is ignored. -/
def Prog.efcPlain (fn die o v : Nat) : Prog := Prog.on fun s =>
  let old := s.efc die o
  if o < 0x4000 then
    (if !s.slotReach fn die (o / 256) then Prog.fnstat fn 0
     else if efscArm (s.efsc die (o / 256)) then Prog.skip
     else Prog.efc die o v)
  else if o < 0x4400 then pfReg fn fn (Prog.efc die o (v &&& maskOf 63 21))
  else if o < 0x5000 then Prog.skip
  else if o < 0x5800 then
    (if fn ≠ 0 ∧ bits old 14 9 ≠ fn then Prog.fnstat fn 0
     else Prog.efc die o (maskIn old v (maskOf 63 15 + if fn = 0 then maskOf 14 9 else 0)))
  else if o < 0x5A00 then
    (if fn = 0 then Prog.efc die o (maskIn old v (maskOf 63 52)) else if o = efbgOff fn then Prog.skip else Prog.fnstat fn 0)
  else if o < 0x5B00 then
    (if o % 16 = 0 then pfReg fn fn (Prog.efc die o (v &&& maskOf 63 39))
     else if bits (s.efc die (o - 8)) 44 39 = fn then Prog.efc die o (maskIn old v (maskOf 47 32))
     else if fn = 0 then Prog.skip
     else Prog.fnstat fn 0)
  else if o = 0x5B00 then pfReg fn fn (Prog.when (decide (10 ≤ bits v 4 0 ∧ bits v 4 0 ≤ 24)) (Prog.efc die o (bits v 4 0)))
  else if o < 0x100000 then Prog.skip
  else if o < 0x180000 then pfReg fn fn Prog.skip
  else if o < 0x200000 then Prog.skip
  else if o < 0x240000 then
    (if s.sketchReach fn die ((o - 0x200000) / 8) then Prog.store (sketchKey die ((o - 0x200000) / 8)) 8 v else Prog.fnstat fn 0)
  else if 0x400000 ≤ o ∧ o < 0x500000 then (if s.ringReach fn die ((o - 0x400000) / 32) then Prog.skip else Prog.fnstat fn 0)
  else Prog.skip

/-! ## Reading a window (R330) -/

/-- SQCS as it reads (Table 11.4a). -/
def Ctx.sqcsWord (c : Ctx) : Nat :=
  c.bdone % 2 ^ 32 * 2 ^ 32 + (if c.state = 2 then c.cause * 2 ^ 24 else 0) + c.asidw * 16 + c.state * 4
/-- SQPC as it reads. -/
def Ctx.sqpc (c : Ctx) : Nat := if c.state = 2 ∨ c.state = 0 then c.fpc else (c.g.frag 0).pc

/-- Registers of a context (R220). -/
def Ctx.word (c : Ctx) (r : Nat) : Nat :=
  if r = 0 then c.code.toNat else if r = 8 then c.entry.toNat else if r = 16 then c.arg.toNat else if r = 24 then c.sqpc
  else if r = 32 then c.sqcsWord else 0

/-- Whether a function reaches an image slot: its region's leading quadrant, or, of an empty slot, any quadrant of the cluster, is its own (R330). -/
def State.imageReach (s : State) (fn k : Nat) : Bool :=
  let cl := k / 256
  let w := (s.imagesAt k).toNat
  if slotQm w = 0 then decide (fn ∈ entryOwners (s.clusterEntry cl)) else quadOwner (s.clusterEntry cl) (leaderOf (slotQm w)) == fn

/-- A claim register as a function reads it (Table 22.2). -/
def Claim.word (c : Claim) (fn : Nat) : Nat :=
  (if c.hold == some fn then 2 ^ 63 else 0) + (if fn = 0 ∧ c.rvk = true then 3 else Tab.get (fun _ => 0) c.cst fn) * 2 ^ 60 +
    (match c.hold with | some v => v * 2 ^ 54 + 2 ^ 53 | none => 0)

/-- FNID (Table 20.6). -/
def State.fnid (s : State) (fn : Nat) : Nat :=
  s.sec.peerId % 1024 * 2 ^ 16 + s.sec.lcs * 2 ^ 14 + (if s.sec.conf then 2 ^ 13 else 0) + s.dbg * 2 ^ 11 + fn

/-- A word of the histogram of a scheduler: two 32-bit words at a time; word 65 is HINTV. -/
def Sched.histPair (x : Sched) (i : Nat) : Nat :=
  Tab.get (fun _ => 0) x.latched i + Tab.get (fun _ => 0) x.latched (i + 1) * 2 ^ 32

/-- A register of the debug block, or none where the function does not reach it. -/
def State.debugWord (s : State) (fn o : Nat) : Option Nat :=
  if o < 0x20 then (if s.guestFor fn then some (s.reg fn (0x800000 + o)).toNat else none)
  else if 0x100 ≤ o ∧ o < 0x180 then (if profPf fn then some (Tab.get (fun _ => (0 : DWord)) s.sec.log ((o - 0x100) / 8)).toNat else none)
  else if 0x10000 ≤ o then
    let core := (o - 0x10000) / 2048
    let r := o % 2048
    let u := s.tracesAt core
    if 2048 ≤ core then some 0
    else if r = 0 then (if s.claimReach fn core false then some ((s.claimOf core false).word fn) else none)
    else if r = 8 then (if s.traceReach fn core then some (u.ctl (s.recording core)) else none)
    else if r = 0x10 then (if s.traceReach fn core then some (u.wr * 2 ^ 32 + u.rd) else none)
    else if r = 0x38 then some ((s.claimOf core true).word fn)
    else if 0x40 ≤ r ∧ r < 0x80 then (if s.bankReach fn core then some (Tab.get (fun _ => (0 : DWord)) (s.banksAt core).sel ((r - 0x40) / 8)).toNat else none)
    else if 0x80 ≤ r ∧ r < 0xC0 then (if s.bankReach fn core then some (Tab.get (fun _ => 0) (s.banksAt core).val ((r - 0x80) / 8) % 2 ^ 64) else none)
    else if 0x100 ≤ r ∧ r < 0x540 then
      (if profPf fn then some ((s.schedsAt (core * 4 + (r - 0x100) / 0x110)).histPair ((r - 0x100) % 0x110 / 4)) else none)
    else some 0
  else some 0

/-- A register of the EFC block, or none. -/
def State.efcWord (s : State) (fn die o : Nat) : Option Nat :=
  let ok := fun (b : Bool) (x : Nat) => if b then some x else none
  let x := s.efc die o
  if o < 0x4000 then ok (s.slotReach fn die (o / 256)) x
  else if o < 0x4400 then ok (s.slotReach fn die ((o - 0x4000) / 16)) x
  else if o < 0x5000 then some 0
  else if o < 0x5800 then ok (fn == 0 || bits x 14 9 == fn) x
  else if o < 0x5A00 then ok (fn == 0 || o == efbgOff fn) x
  else if o < 0x5B00 then ok (fn == 0 || bits (s.efc die (o / 16 * 16)) 44 39 == fn) x
  else if o = 0x5B00 then ok (fn == 0) x
  else if o < 0x100000 then some 0
  else if o < 0x180000 then ok (fn == 0) x
  else if o < 0x200000 then some 0
  else if o < 0x240000 then ok (s.sketchReach fn die ((o - 0x200000) / 8)) (s.load (sketchKey die ((o - 0x200000) / 8)) 8)
  else if 0x400000 ≤ o ∧ o < 0x500000 then ok (s.ringReach fn die ((o - 0x400000) / 32)) (s.load (ringKey die (o - 0x400000)) 8)
  else some 0

/-- Whether a register of the translation block is the PF's (Table 20.4: S2RT, S2RN, S2PT and APT). -/
def s2Reg (o : Nat) : Bool := o == 0x30000 || o == 0x30008 || o == 0x30010 || o == 0x30020

/-- The 8-byte register at an offset of window `fn` as `w` reads it, without what a read does; none where it does not reach it. In the window of another function
the PF has its own rights (log 17). -/
def State.window (s : State) (w fn o : Nat) : Option Nat :=
  if o = 0 then some (s.fnid fn)
  else if o = 0x30 then some 0
  else if w ≠ 0 ∧ s2Reg o = true then none
  else if o < 0x40000 then some (s.reg fn o).toNat
  else if o < 0x40018 then some (s.part fn ((o - 0x40000) / 8))
  else if o < 0x100000 then some 0
  else if o < 0x120000 then
    (let k := (o - 0x100000) / 64
     if s.ctxReach fn k then some ((s.ctxsAt k).word (o % 64)) else none)
  else if o < 0x220000 then
    (let k := (o - 0x120000) / 8
     if s.imageReach fn k then some (s.imagesAt k).toNat else none)
  else if o < 0x400000 then some 0
  else if o < 0x800000 then (if fn = 0 then some (s.reg 0 o).toNat else none)
  else if o < 0x1000000 then s.debugWord fn (o - 0x800000)
  else if o < 0x3000000 then s.efcWord w ((o - 0x1000000) / 0x800000) ((o - 0x1000000) % 0x800000)
  else some 0

/-! ## REGISTER_WRITE (R5, R330) -/

/-- The register as a write of n bytes leaves its fields to take: W1C bits that the write does not name read 0. -/
def State.written (s : State) (w fn off n : Nat) (val : BitVec 64) : Nat :=
  let o := off / 8 * 8
  let x0 := (s.window w fn o).getD 0
  let efsc := decide (0x1000000 ≤ o) && (decide (0x4000 ≤ o % 0x800000) && decide (o % 0x800000 < 0x4400)) && o % 16 == 0
  let old := if o = 8 then 0 else if efsc then setBits x0 62 62 0 else x0
  if n = 8 then val.toNat
  else if off % 8 = 0 then setBits old 31 0 val.toNat
  else setBits old 63 32 val.toNat

/-- A write of a register that has no row of its own: `w` is the writer, `fn` the window, `v` the whole register. -/
def Prog.plainWrite (w fn o v : Nat) : Prog := Prog.on fun s =>
  if o < 0x10 then Prog.skip
  else if o < 0x30 then Prog.reg fn o v
  else if o = 0x30 then Prog.cmdx fn v
  else if o < 0x10000 then Prog.skip
  else if o < 0x10400 then
    (let q := (o - 0x10000) / 64
     if o % 64 = 0 then Prog.when (!bit (s.lqc fn q) 63) (Prog.reg fn o v)
     else if o % 64 = 8 then Prog.lqcWrite w fn q v
     else if o % 64 = 16 then Prog.regMask fn o v (maskOf 63 32)
     else Prog.skip)
  else if o < 0x20000 then Prog.skip
  else if o < 0x20080 then
    (if o % 64 = 0 then Prog.reg fn o v
     else if o % 64 = 8 then Prog.qcWrite fn (decide (0x20040 ≤ o)) v
     else if o % 64 = 16 then Prog.regMask fn o v (maskOf 63 32)
     else Prog.skip)
  else if o = 0x20080 then Prog.regMask fn o v (maskOf 31 0)
  else if o < 0x30000 then Prog.skip
  else if o < 0x30050 then
    (let i := (o - 0x30000) / 8
     let m := if i = 1 then maskOf 63 53 else if i = 5 then maskOf 63 44 else if i = 9 then maskOf 63 48 else 2 ^ 64 - 1
     if s2Reg o = true then pfReg w fn (Prog.unlessFrozen (if v &&& m = (s.reg fn o).toNat then [] else [fn]) (Prog.reg fn o (v &&& m)))
     else Prog.reg fn o (v &&& m))
  else if o < 0x100000 then Prog.skip
  else if o < 0x120000 then
    (let k := (o - 0x100000) / 64
     let c := s.ctxsAt k
     if !s.ctxReach fn k then Prog.fnstat fn 0
     else if o % 64 = 0 then Prog.put (.ctxs k { c with code := BitVec.ofNat 64 v })
     else if o % 64 = 8 then Prog.put (.ctxs k { c with entry := BitVec.ofNat 64 v })
     else if o % 64 = 16 then Prog.put (.ctxs k { c with arg := BitVec.ofNat 64 v })
     else if o % 64 = 32 then Prog.put (.ctxs k (c.sqcs v))
     else Prog.skip)
  else if o < 0x220000 then (if s.imageReach fn ((o - 0x120000) / 8) then Prog.skip else Prog.fnstat fn 0)
  else if o < 0x400000 then Prog.skip
  else if o < 0x800000 then pfReg fn fn (Prog.pfWrite (o - 0x400000) v)
  else if o < 0x1000000 then Prog.debugPlain fn (o - 0x800000) v
  else if o < 0x3000000 then Prog.efcPlain w ((o - 0x1000000) / 0x800000) ((o - 0x1000000) % 0x800000) v
  else Prog.skip

/-- A write of a claim register: a claim or a release, and a revocation by the PF (R355, R356). -/
def claimWrite (fn core : Nat) (bank : Bool) (v : Nat) (s : State) : Host.Outcome State Fault Refusal :=
  match if bit v 63 then execClaim fn core bank s else execRelease fn core bank s with
  | .next t => if bit v 62 && fn == 0 then execRvk fn core bank t else .next t
  | o => o

/-- A write of a whole register: one of those with a row of its own, or a plain one. -/
def regWrite (w fn o v : Nat) (s : State) : Host.Outcome State Fault Refusal :=
  let val := BitVec.ofNat 64 v
  let eo := (o - 0x1000000) % 0x800000
  let die := (o - 0x1000000) / 0x800000
  let core := (o - 0x810000) / 2048
  if o = 8 then execFnstatWrite fn val s
  else if o = 0x20080 ∧ bits v 63 62 = 1 then execFltresResume fn (BitVec.ofNat 32 v) s
  else if o = 0x20080 ∧ bits v 63 62 = 2 then execFltresKill fn (BitVec.ofNat 32 v) s
  else if 0x100000 ≤ o ∧ o < 0x120000 ∧ o % 64 = 32 ∧ bit v 0 = true then execGo fn ((o - 0x100000) / 64) val s
  else if 0x100000 ≤ o ∧ o < 0x120000 ∧ o % 64 = 32 ∧ bit v 1 = true then
    hostWrite fn (Prog.seq (Prog.plainWrite w fn o v) (Prog.on fun t => Prog.when (t.ctxReach fn ((o - 0x100000) / 64)) (Prog.ctxStop ((o - 0x100000) / 64)))) s
  else if o = 0x800018 then
    (if bits v 63 62 = 1 then execDbcmdStop fn val s else if bits v 63 62 = 2 then execDbcmdStep fn val s
     else if bits v 63 62 = 3 then execDbcmdGo fn val s else debugWrite fn (fun s => s.guestFor fn) Prog.skip s)
  else if 0x810000 ≤ o ∧ o < 0xC10000 ∧ o % 2048 = 0 then claimWrite fn core false v s
  else if 0x810000 ≤ o ∧ o < 0xC10000 ∧ o % 2048 = 8 then execTuctlWrite fn core val s
  else if 0x810000 ≤ o ∧ o < 0xC10000 ∧ o % 2048 = 0x38 then claimWrite fn core true v s
  else if 0x810000 ≤ o ∧ o < 0xC10000 ∧ 0x40 ≤ o % 2048 ∧ o % 2048 < 0x80 then execCbselWrite fn core ((o % 2048 - 0x40) / 8) val s
  else if 0x1000000 ≤ o ∧ o < 0x3000000 ∧ 0x4000 ≤ eo ∧ eo < 0x4400 ∧ eo % 16 = 0 then
    (if bit v 63 then execSlotArm w die ((eo - 0x4000) / 16) val s else execSlotDisarm w die ((eo - 0x4000) / 16) val s)
  else hostWrite w (Prog.plainWrite w fn o v) s

/-- The window that an access names: for the PF, an offset at or above 2^26 names that of function off / 2^26, with the PF's rights (log 17). -/
def windowOf (fn off : Nat) : Option Nat :=
  if fn = 0 then (if off / 67108864 < 64 then some (off / 67108864) else none) else if off < 67108864 then some fn else none

/-- REGISTER_WRITE (R5, R330). -/
def execRegisterWrite (fn off n : Nat) (val : BitVec 64) (tbit : Bool) (s : State) : Host.Outcome State Fault Refusal :=
  let w := s.master fn
  if !s.windowOk w off n tbit then .next s
  else match windowOf w off with
    | some t => regWrite w t (off % 67108864 / 8 * 8) (s.written w t (off % 67108864) n val) s
    | none => .next s

/-! ## HOST_ACCESS (R190, R330, R338) -/

/-- Whether the PF's BAR window admits a region: the PF's bit, and in confidential mode no locked TDI's (R338, R347). -/
def State.barAdmits (s : State) (a : Nat) : Bool :=
  hpaMapped a && s.admits_ 0 a && (!s.sec.conf || !(List.range 64).any fun v => s.frozenFn v && s.admits_ v a)

/-- Every byte of an access is admitted. -/
def State.barSpan (s : State) (a n : Nat) : Bool := !s.sec.crs && n != 0 && s.barAdmits a && s.barAdmits (a + n - 1) && decide (n ≤ 4096)

/-- A read by `w` of n bytes at offset `off` of window `fn`: of the registers whose reading does something, or of a plain one; `again` is the access itself. DESIGN
CHOICE (log 50): a read of 4 bytes that takes in part of a field that reading clears (EFBG.BDROP, TUCTL.DROP) clears the whole field, and one of TBDATA advances RD by
8. One that takes in nothing of it (the upper half of EFRP or FDROP) clears nothing. -/
def regRead (again : Instr) (w fn off n : Nat) (s : State) : Host.Outcome State Fault Refusal :=
  let o := off / 8 * 8
  let eo := (o - 0x1000000) % 0x800000
  let die := (o - 0x1000000) / 0x800000
  let core := (o - 0x810000) / 2048
  let efc := decide (0x1000000 ≤ o) && decide (o < 0x3000000)
  let low := off % 8 == 0
  if efc && (decide (0x4000 ≤ eo) && (decide (eo < 0x4400) && eo % 16 == 0)) then hostRead w (Prog.efscRead again w die ((eo - 0x4000) / 16) (off % 8) n) s
  else if efc && (decide (0x5800 ≤ eo) && decide (eo < 0x5A00)) then execEfbgRead w die ((eo - 0x5800) / 8) s
  else if efc && low && (decide (0x5A00 ≤ eo) && (decide (eo < 0x5B00) && eo % 16 == 8)) then execEfrpRead w die ((eo - 0x5A08) / 16) s
  else if efc && low && (decide (0x100000 ≤ eo) && decide (eo < 0x180000)) then execFdropRead w die ((eo - 0x100000) / 8) s
  else if 0x810000 ≤ o ∧ o < 0xC10000 ∧ o % 2048 = 8 then execTuctlRead fn core s
  else if 0x810000 ≤ o ∧ o < 0xC10000 ∧ o % 2048 = 0x18 then execTbdataRead fn core s
  else hostRead w (Prog.on fun s => match s.window w fn o with
    | some v => Prog.reply (toBytes (v / 2 ^ (8 * (off % 8))) n)
    | none => Prog.noReach w) s

/-- The half of a register that a read of 4 bytes returns, where a whole register was read. -/
def halfReply (off n : Nat) (x : Host.Outcome State Fault Refusal) : Host.Outcome State Fault Refusal :=
  match x with
  | .next t => (match t.hostReply with
    | some l => if l.length ≤ n then .next t else .next (runAll t [.hostReply (some ((l.drop (off % 8)).take n))])
    | none => .next t)
  | y => y

/-- A read of a window register over the host link: nothing has come back until it completes. -/
def readReg (fn off n : Nat) (tbit : Bool) (s : State) : Host.Outcome State Fault Refusal :=
  let w := s.master fn
  let t := runAll s [.hostReply none]
  if !s.windowOk w off n tbit then .next t
  else match windowOf w off with
    | some k => halfReply off n (regRead (.hostAccess (.readReg fn off n tbit)) w k (off % 67108864) n t)
    | none => .next t

/-- Whether the debug master reaches n bytes of device memory: every target in OPEN (R338, R349). -/
def State.debugSpan (s : State) (a n : Nat) : Bool := s.dbg == 2 && n != 0 && hpaMapped a && hpaMapped (a + n - 1) && decide (n ≤ 4096)

/-- HOST_ACCESS (R190, R330, R338): an access that is denied completes with Unsupported Request and has no effect. -/
def execHostAccess (a : HostAcc) (s : State) : Host.Outcome State Fault Refusal :=
  match a with
  | .readMem hpa n => .next (runAll s [.hostReply (if s.barSpan hpa n then some (s.bytes hpa n) else none)])
  | .writeMem hpa data => .next (if s.barSpan hpa data.length then runAll s (storeBytes hpa data) else s)
  | .readDebug hpa n => .next (runAll s [.hostReply (if s.debugSpan hpa n then some (s.bytes hpa n) else none)])
  | .writeDebug hpa data => .next (if s.debugSpan hpa data.length then runAll s (storeBytes hpa data) else s)
  | .readHost addr n => .next (runAll s [.hostReply (some (s.bytes (hostKey (addr % 2 ^ 64)) n))])
  | .writeHost addr data => .next (runAll s (storeBytes (hostKey (addr % 2 ^ 64)) data))
  | .readReg fn off n tbit => readReg fn off n tbit s

/-! ## HOST_COMPLETION_TIMEOUT (R353) -/

/-- Whether a location is the host's. -/
def isHost (key : Nat) : Bool := decide (18446744073709551616 ≤ key) && !isPeer key

/-- The function that an operation acts for. -/
def State.opFn (s : State) (o : Op) : Nat := match o.wg with
  | n :: _ => (match s.wgsAt n with
    | some w => (match s.launchesAt w.launch with | some l => l.vf | none => o.vf)
    | none => o.vf)
  | [] => o.vf

/-- A completion of a RUN function that came outside the streams bound to it was dropped, and AER logs it (R341); whether one came is a free value (log 2). -/
def Prog.aer (fn : Nat) : Prog := Prog.on fun s =>
  Prog.when ((s.fnsAt fn).tdis == 2)
    (Prog.free 2 fun b => Prog.when (b == 1) (Prog.put (.fns fn { s.fnsAt fn with aer := (s.fnsAt fn).aer + 1 })))

/-- HOST_COMPLETION_TIMEOUT (R353): the requests of an operation to the host that have not completed are given up: their lanes write nothing. -/
def execHostCompletionTimeout (op : Nat) (s : State) : Host.Outcome State Fault Refusal :=
  match s.opsAt op with
  | none => .next s
  | some o =>
    let waits := o.elems.filter fun e => isHost (if o.kind == .tmov && !e.got then e.cmp else e.key) && !e.done && o.kind != .store
    let m := waits.foldl (fun m e => m ||| 2 ^ e.lane) 0
    if waits.isEmpty then .next s else (Prog.seq (Prog.dropLanes op m) (Prog.aer (s.opFn o))).go s

/-! ## SPDM (R344, R345) -/

/-- A request on a function's DOE mailbox: `ok` says that it is in order; otherwise the responder answers ERROR. Codes are those of SPDM (PRESUMED, log 18):
a response is the request's code less 0x80. While the device answers with CRS, no mailbox responds (R344). -/
def spdm (fn code : Nat) (ok : Func → Bool) (next : Func → Func) (body : State → List Byte) (s : State) : Host.Outcome State Fault Refusal :=
  if 63 < fn then .next s
  else
    let f := s.fnsAt fn
    if s.sec.crs then .next (runAll s [.hostReply none])
    else if ok f then .next (runAll s [.fns fn { next f with lastMsg := code, lastResp := code - 0x80 }, .hostReply (some (body s)), .fresh (s.fresh + 64)])
    else .next (runAll s [.fns fn { f with lastMsg := code, lastResp := 0x7F }, .hostReply none])

/-- Session of a mailbox: none, an exchange that is open, or established. -/
def always (_ : Func) : Bool := true
def inSession (f : Func) : Bool := f.session == 2
/-- A response whose bytes the spec does not give: free ones. -/
def freeBody (n : Nat) (s : State) : List Byte := (List.range n).map fun i => BitVec.ofNat 8 (s.freeAt i)

/-- GET_VERSION (R345): SPDM 1.3. -/
def execGetVersion (fn : Nat) (s : State) : Host.Outcome State Fault Refusal := spdm fn 0x84 always id (fun _ => [0x13]) s
/-- GET_CAPABILITIES (R345). -/
def execGetCapabilities (fn : Nat) (s : State) : Host.Outcome State Fault Refusal := spdm fn 0xE1 always id (freeBody 4) s
/-- NEGOTIATE_ALGORITHMS (R345): TPM_ALG_SM2_ECC_SM2_P256 signatures, the TPM_ALG_SM3_256 hash, SM2_P256 key exchange and AES-256-GCM sessions: the one choice, as
SPDM numbers it (PRESUMED, log 18). -/
def execNegotiateAlgorithms (fn : Nat) (s : State) : Host.Outcome State Fault Refusal :=
  spdm fn 0xE3 always id (fun _ => toBytes 0x200 4 ++ toBytes 0x40 4 ++ toBytes 0x40 2 ++ toBytes 0x02 2) s

/-- The public keys that DICE gives (R344). -/
def Sec.deviceId (x : Sec) : BitVec 512 := Config.sm2Key x.cdi0
def Sec.aliasKey (x : Sec) : BitVec 512 := Config.sm2Key x.cdi1

/-- The certificate chain (R344): that of DeviceID and that of Alias, whose X.509 bytes the spec does not give. -/
def State.chain (s : State) : List Byte := Config.chainBytes s.sec.deviceId s.sec.aliasKey

/-- GET_DIGESTS (R345): the SM3 digest of the chain. -/
def execGetDigests (fn : Nat) (s : State) : Host.Outcome State Fault Refusal := spdm fn 0x81 always id (fun t => sm3 t.chain) s
/-- GET_CERTIFICATE (R344, R345): the chain. -/
def execGetCertificate (fn : Nat) (s : State) : Host.Outcome State Fault Refusal := spdm fn 0x82 always id State.chain s
/-- CHALLENGE (R345). -/
def execChallenge (fn : Nat) (s : State) : Host.Outcome State Fault Refusal := spdm fn 0x83 always id (freeBody 64) s

/-- The frozen configuration of a function (R342): its stage-2 registers and APT, its partition registers, the cluster entries, core masks and scratch ranges that name
it, the memory regions that admit it, its key indices, and its queues' POOL, AWN and CRES. -/
def State.frozenConfig (s : State) (fn : Nat) : List (List Nat) :=
  let ranges := fun (first n : Nat) => (List.range n).filterMap fun i =>
    let x := (s.reg 0 (4194304 + first + 8 * i)).toNat
    if rangeV x ∧ rangeVf x = fn then some (i * 2 ^ 64 + x) else none
  [[0, 8, 16, 32].map (fun o => (s.reg fn (0x30000 + o)).toNat), [0, 1, 2].map (s.part fn),
    (List.range 512).filterMap fun cl => if fn ∈ entryOwners (s.clusterEntry cl) then some (cl * 2 ^ 64 + s.clusterEntry cl) else none,
    (List.range 2048).filter fun c => bit (s.coreMask c) fn,
    ranges 0x2000 2048, ranges 0x6000 128,
    (List.range 2048).filter fun r => bit (s.accessMask r) fn,
    s.keys.filterMap fun p => if p.2 = fn + 1 then some p.1 else none,
    (List.range 16).map fun q => s.lqc fn q &&& (maskOf 57 50 + maskOf 29 13)]

/-- A measurement block (R345). -/
def State.measurement (s : State) (fn index : Nat) : List Byte :=
  match index with
  | 2 => toBytes s.sec.secImg 32 ++ toBytes s.sec.secVer 4
  | 3 => toBytes s.sec.rtImg 32 ++ toBytes s.sec.rtVer 4
  | 4 => [BitVec.ofNat 8 s.sec.lcs, if s.sec.conf then 1 else 0, BitVec.ofNat 8 s.dbg]
  | 5 => toBytes (Config.configDigest (s.frozenConfig fn)).toNat 32
  | _ => toBytes Config.romDigest.toNat 32

/-- GET_MEASUREMENTS (R345): block 1 to 5. The ROM's digest is free: the spec does not give it (log 18). -/
def execGetMeasurements (fn index : Nat) (s : State) : Host.Outcome State Fault Refusal :=
  spdm fn 0xE0 (fun _ => decide (1 ≤ index ∧ index ≤ 5)) id (fun t => t.measurement fn index) s

/-- KEY_EXCHANGE (R345): an exchange opens on the mailbox. -/
def execKeyExchange (fn : Nat) (s : State) : Host.Outcome State Fault Refusal :=
  spdm fn 0xE4 (fun f => f.session != 2) (fun f => { f with session := 1 }) (freeBody 64) s
/-- FINISH (R345): the session is established and bound to the function. -/
def execFinish (fn : Nat) (s : State) : Host.Outcome State Fault Refusal :=
  spdm fn 0xE5 (fun f => f.session == 1) (fun f => { f with session := 2 }) (freeBody 32) s
/-- KEY_UPDATE (R345). -/
def execKeyUpdate (fn : Nat) (s : State) : Host.Outcome State Fault Refusal := spdm fn 0xE9 inSession id (fun _ => []) s
/-- HEARTBEAT (R345). -/
def execHeartbeat (fn : Nat) (s : State) : Host.Outcome State Fault Refusal := spdm fn 0xE8 inSession id (fun _ => []) s
/-- END_SESSION (R345). -/
def execEndSession (fn : Nat) (s : State) : Host.Outcome State Fault Refusal :=
  spdm fn 0xEC inSession (fun f => { f with session := 0 }) (fun _ => []) s

/-- IDE_KM (R341): in the function's session, the keys of a selective stream are set and the stream is bound to it; up to 64 streams. -/
def execIdeKm (fn stream : Nat) (s : State) : Host.Outcome State Fault Refusal :=
  if s.sec.crs = true ∨ 63 < fn ∨ 63 < stream ∨ (s.fnsAt fn).session ≠ 2 then .next s
  else
    let l := s.sec.streams
    if s.sec.streams.length < 64 ∨ Tab.get (fun _ => 0) l (64 * fn + stream) ≠ 0 then
      .next (runAll s [.sec { s.sec with streams := Tab.put (fun _ => 0) l (64 * fn + stream) 1 }])
    else .next s

end Sys2Proof.Machine
end

