-- ==== Sys2Proof/Machine/Fabric.lean ====
section
/-! DEFINITION. Releases (R187, R321), the in-package paths (R315, R316), the peer links (R317 to R325) and the collectives (R326 to R329). -/

namespace Sys2Proof.Machine

/-- Units of State.time in a microsecond. -/
def microsecond : Nat := 2618000

/-! ## Peer links: what is sent (R319, R320, R323 to R325) -/

def Prog.peer (peer : Nat) (p : Peer) : Prog := Prog.put (.peers peer p)

/-- The operation and the element that a request's number names. -/
def reqId (op elem : Nat) : Nat := op * 281474976710656 + elem

/-- The ports that are live at both ends of a pair (R317). -/
def State.livePorts (s : State) (peer : Nat) : Nat := s.sec.ports % 4096 &&& (s.peersAt peer).ports

/-- Whether a pair carries flits: it is not down, no rekey runs (R325), and a port is live at both ends (R317). -/
def State.carries (s : State) (peer : Nat) : Bool :=
  !(s.peersAt peer).down && !(s.peersAt peer).rekeying && s.livePorts peer != 0

/-- The key slots of each direction. -/
def Peer.slot (p : Peer) (kg : Bool) : Nat := if kg then p.slot1 else p.slot0
def Peer.setSlot (p : Peer) (kg : Bool) (v : Nat) : Peer := if kg then { p with slot1 := v } else { p with slot0 := v }
def Peer.inSlot (p : Peer) (kg : Bool) : Nat := if kg then p.in1 else p.in0
def Peer.setIn (p : Peer) (kg : Bool) (v : Nat) : Peer := if kg then { p with in1 := v } else { p with in0 := v }
/-- Whether a direction is sealed at all. -/
def Peer.keyed (p : Peer) : Bool := p.slot0 != 0 || p.slot1 != 0
def Peer.inKeyed (p : Peer) : Bool := p.in0 != 0 || p.in1 != 0

/-- Whether this device can send to a peer: in confidential mode it has a key (R347). -/
def State.pairOpen (s : State) (peer : Nat) : Bool := s.carries peer && (!s.sec.conf || (s.peersAt peer).keyed)

/-- Flits sealed in answer to what arrives count too (R323): acknowledgements, refusals, stale flits and replies to markers. -/
def Prog.seal (peer n : Nat) : Prog := Prog.on fun s => let p := s.peersAt peer; Prog.peer peer { p with fctr := min (p.fctr + n) fctrEnd }

/-- A release whose markers the transport has given up does not perform (R319 to R321, log 51): the owners of the group that it releases for are told, a release write
does not take place, a COLL fails. -/
def Prog.markerLost (id : Nat) : Prog := Prog.on fun s =>
  match s.opsAt id with
  | some o =>
    let g := s.grp o.who
    let m := maskWhere fun l => decide ((g.ownerOf l).id ∈ o.wg) && bit g.pres l
    Prog.all [
      (match o.kind with
       | .fence _ => Prog.put (.ops id none)
       | .signal _ _ _ _ => Prog.seq (Prog.slotEvent id) (Prog.put (.ops id none))
       | _ => Prog.dropLanes id 0xFFFF),
      Prog.when (o.kind != .fence .acq) (Prog.uncorrectable o.who m 0 0)]
  | none => match s.engsAt id with
    | some e => Prog.when (!e.done) (Prog.eng id (e.failed cUncorrectable (e.addr 0)))
    | none => Prog.skip

/-- Whether an operation reads the code of a context (R220): without it the load fails. -/
def State.loads (s : State) (id : Nat) (o : Op) : Bool := match o.who with
  | .ctx k => (s.ctxsAt k).load == some id
  | _ => false

/-- A request that the peer has refused, or that the transport has given up (R319, R320): its lanes get nothing, and its owner is told; an engine records a
failure; a collective fails. -/
def Prog.refused (kind : PackKind) : Prog := Prog.on fun s =>
  match kind with
  | .access id i =>
    (match s.opsAt id with
     | some o => (match o.elems[i]? with
       | some e => if s.loads id o then Prog.put (.ops id none) else Prog.seq (Prog.dropLanes id (2 ^ e.lane)) (Prog.uncorrectable o.who (2 ^ e.lane) 0 e.gaddr)
       | none => Prog.skip)
     | none => (match s.engsAt id with
       | some e => Prog.when (!e.done) (Prog.eng id (e.failed cUncorrectable (e.addr i)))
       | none => Prog.skip))
  | .contribution id _ | .result id _ _ => (match s.engsAt id with
    | some e => (match e.kind with
      | .coll _ d => Prog.when (!e.done) (Prog.eng id (e.failed cUncorrectable (bits d 511 448)))
      | _ => Prog.skip)
    | none => Prog.skip)
  | .marker id _ => Prog.markerLost id
  | .reply _ _ => Prog.skip

/-- The packets of a peer with a sequence number: data, or markers too. -/
def Packet.isMarker (k : Packet) : Bool := match k.kind with | .marker _ _ => true | _ => false
/-- A packet that waits for its acknowledgement. -/
def Peer.data (p : Peer) (seq : Nat) : Option Packet := p.out.find? fun k => k.seq == seq && !k.isMarker
/-- A packet that waits for its acknowledgement or, a read, for its answer. -/
def Peer.request (p : Peer) (seq : Nat) : Option Packet := (p.out ++ p.waiting).find? fun k => k.seq == seq && !k.isMarker
def Peer.drop (p : Peer) (seq : Nat) : Peer :=
  { p with out := p.out.filter (fun k => k.isMarker || k.seq != seq), waiting := p.waiting.filter fun k => k.seq != seq }

/-- Whether element i of an operation is written, not read. -/
def State.givesElem (s : State) (id i : Nat) : Bool :=
  match s.opsAt id, s.engsAt id with
  | some o, _ => (match o.elems[i]? with
    | some e => o.kind == .store || (o.kind == .tmov && e.got)
    | none => false)
  | none, some e => (match e.kind with
    | .coll _ _ => decide (dstBase ≤ i)
    | .tcopy _ _ _ | .gath _ _ _ _ _ => decide (i < e.kind.pieces) && Tab.get (fun _ => 0) e.reads i != 0
    | _ => false)
  | none, none => false

/-- An acknowledged write has been carried out at the peer. -/
def Prog.acked (kind : PackKind) : Prog := Prog.on fun s =>
  match kind with
  | .access id i =>
    Prog.when (s.givesElem id i)
      (match s.opsAt id with
       | some o => (match o.elems[i]? with
         | some e =>
           let o' := o.setElem i { e with done := true }
           Prog.all [Prog.put (.ops id (some o')), Prog.when (o.kind == .tmov && o'.elems.all (·.done)) (Prog.slotEvent id), Prog.tidy id]
         | none => Prog.skip)
       | none => (match s.engsAt id with
         | some e => (match e.kind with
           | .coll _ _ => Prog.eng id { e with early := e.early ++ [i] }
           | _ => (match e.piece i with
             | .move _ _ n => Prog.pieceDone id i n
             | .index _ _ => Prog.skip))
         | none => Prog.skip))
  | _ => Prog.skip

/-- Whether a packet that has been acknowledged is a read, which waits for its answer. -/
def State.awaits (s : State) (k : Packet) : Bool := match k.kind with
  | .access id i => ((s.opsAt id).isSome || (s.engsAt id).isSome) && !s.givesElem id i
  | _ => false

/-- A rekey starts (R325): a rotation's waiting key is discarded, and the rotation is asked for again afterwards. DEDUCED: a rekey has failed where the next one starts
within a second; after three of these the pair is down, with every request given up (log 19). -/
def Prog.rekey (peer : Nat) : Prog := Prog.on fun s =>
  let p := s.peersAt peer
  let recent := p.rekeys.filter fun t => decide (s.time < t + 1000000 * microsecond)
  if 3 ≤ recent.length then
    Prog.seq (Prog.peer peer { p with down := true, rekeying := false, rekeys := recent, out := [], waiting := [] })
      (Prog.each Prog.refused ((p.out ++ p.waiting).map (·.kind)).eraseDups)
  else Prog.peer peer { p with rekeying := true, tagFail := [], naks := [], switched := none, inSwitched := none, fresh := false, asked := p.asked || p.fresh,
                               rekeys := recent ++ [s.time] }

/-- A flit under a generation that is not live is not opened (R324). -/
def State.opens (s : State) (peer : Nat) (kg : Bool) : Bool :=
  let p := s.peersAt peer
  p.inSlot kg == 1 || (!p.inKeyed && !s.sec.conf)

/-- A flit whose tag has failed is dropped; where the same one has failed before, a rekey starts (R325). -/
def Prog.tagFailed (peer : Nat) (kg : Bool) (fctr : Nat) : Prog := Prog.on fun s =>
  let p := s.peersAt peer
  if (kg, fctr) ∈ p.tagFail then Prog.rekey peer else Prog.peer peer { p with tagFail := p.tagFail ++ [(kg, fctr)] }

/-- What opens of what a peer sends (R324, R325): under a generation that is not live a flit is answered stale, and one whose tag fails is dropped. -/
def Prog.opened (x : Sealed) (p : Peer → Prog) : Prog := Prog.on fun s =>
  if !s.carries x.peer then Prog.skip
  else if !s.opens x.peer x.kg then Prog.seal x.peer 1
  else if !x.tagOk then Prog.tagFailed x.peer x.kg x.fctr
  else p (s.peersAt x.peer)

/-- ACK_FLIT (R320): the stored packet is freed, and the pair has made progress. -/
def execAckFlit (peer : Sealed) (seq : Nat) (s : State) : Host.Outcome State Fault Refusal :=
  (Prog.opened peer fun p => match p.data seq with
    | none => Prog.skip
    | some k => Prog.on fun s =>
      let q := { p.drop seq with progress := s.time }
      Prog.when (s.pairOpen peer.peer && decide (k.fctr < fctrEnd))
        (Prog.seq (Prog.peer peer.peer { q with waiting := if s.awaits k then q.waiting ++ [k] else q.waiting }) (Prog.acked k.kind))).go s

/-- REFUSAL_FLIT (R319). -/
def execRefusalFlit (peer : Sealed) (seq : Nat) (s : State) : Host.Outcome State Fault Refusal :=
  (Prog.opened peer fun p => match p.request seq with
    | none => Prog.skip
    | some k => Prog.on fun s => Prog.when (s.pairOpen peer.peer)
        (Prog.seq (Prog.peer peer.peer { p.drop seq with progress := s.time }) (Prog.refused k.kind))).go s

/-- Change the packets of a peer that a test names. -/
def Peer.mapOut (p : Peer) (f : Packet → Bool) (g : Packet → Packet) : Peer := { p with out := p.out.map fun k => if f k then g k else k }

/-- Whether a packet has a flit under a generation and a count. -/
def Packet.hasFlit (k : Packet) (x : FlitName) : Bool := k.kg == x.kg && decide (k.fctr ≤ x.fctr) && decide (x.fctr < k.fctr + k.flits) && decide (x.fctr < fctrEnd)

/-- Seal the packets that a test names afresh, in order, from the count that the peer has (R324, R325). -/
def Peer.sealAll (p : Peer) (now : Nat) (f : Packet → Bool) : List Packet → Nat → List Packet × Nat
  | [], n => ([], n)
  | k :: t, n =>
    if f k then
      let sealed := decide (n + k.flits ≤ fctrEnd)
      let r := p.sealAll now f t (if sealed then n + k.flits else fctrEnd)
      ({ k with kg := p.kg, fctr := if sealed then n else fctrEnd, sentAt := now } :: r.1, r.2)
    else
      let r := p.sealAll now f t n
      (k :: r.1, r.2)
/-- The peer with those packets sealed afresh, its count behind them. -/
def Peer.reseal (p : Peer) (now : Nat) (f : Packet → Bool) : Peer :=
  let r := p.sealAll now f p.out p.fctr
  { p with out := r.1, fctr := r.2 }

/-- STALE_FLIT (R324): data and markers are sealed afresh and sent again; a contribution is not (R329). -/
def execStaleFlit (peer : Sealed) (flit : FlitName) (s : State) : Host.Outcome State Fault Refusal :=
  (Prog.opened peer fun p => match p.out.find? fun k => k.hasFlit flit with
    | none => Prog.skip
    | some k => Prog.on fun s => Prog.when (s.pairOpen peer.peer)
      (match k.kind with
       | .contribution _ _ => Prog.peer peer.peer (p.drop k.seq)
       | _ => Prog.peer peer.peer (p.reseal s.time fun j => j.hasFlit flit))).go s

/-- RETRANSMIT_TIMEOUT (R320): packets of a sequence number that have waited 20 µs are sent again, unchanged (R325). -/
def execRetransmitTimeout (peer seq : Nat) (s : State) : Host.Outcome State Fault Refusal :=
  let p := s.peersAt peer
  let due := fun (k : Packet) => k.seq == seq && decide (k.sentAt + 20 * microsecond ≤ s.time)
  if !s.pairOpen peer || !p.out.any due then .next s
  else (Prog.peer peer (p.mapOut due fun k => { k with tries := k.tries + 1, sentAt := s.time })).go s

/-- TRANSPORT_GIVE_UP (R320, R325): after 64 retransmissions of it, 10 ms without progress, or on a pair that is down, each packet of a sequence number is given
up, reads that have no answer among them; a marker has the number of a data packet, and its own tries. -/
def execTransportGiveUp (peer seq : Nat) (s : State) : Host.Outcome State Fault Refusal :=
  let p := s.peersAt peer
  let due := fun (k : Packet) => k.seq == seq && (p.down || decide (64 ≤ k.tries) || decide (p.progress + 10000 * microsecond ≤ s.time))
  let mine := (p.out ++ p.waiting).filter due
  if mine.isEmpty then .next s
  else
    (Prog.seq (Prog.peer peer { p with out := p.out.filter (fun k => !due k), waiting := p.waiting.filter fun k => !due k })
      (Prog.each Prog.refused (mine.map (·.kind)).eraseDups)).go s

/-- NAK_FLIT (R325): the flit is sent again unchanged; a second failure of its tag starts a rekey. It may be a flit of a packet, or one that this device sealed in
answer to what arrived. -/
def execNakFlit (peer : Nat) (flit : FlitName) (s : State) : Host.Outcome State Fault Refusal :=
  let p := s.peersAt peer
  if !s.pairOpen peer || (flit.kg == p.kg && decide (p.fctr ≤ flit.fctr)) then .next s
  else if (flit.kg, flit.fctr) ∈ p.naks then (Prog.rekey peer).go s
  else
    (Prog.peer peer { p.mapOut (fun j => j.hasFlit flit) fun j => { j with tries := j.tries + 1, sentAt := s.time } with
      naks := p.naks ++ [(flit.kg, flit.fctr)] }).go s

/-! ## Keys of a link (R323 to R325) -/

/-- ROTATE (R324, Table 20.7): a rotation toward a peer is asked for. -/
def execRotate (fn : Nat) (s : State) : Host.Outcome State Fault Refusal :=
  commandStep fn 12 s fun c _ => pfOnly fn <| Prog.on fun s =>
    let peer := c.arg 0
    if 1023 < peer then Prog.complete fn 2
    else if (s.peersAt peer).rekeying || (s.peersAt peer).fresh || (s.peersAt peer).switched.isSome then Prog.complete fn 3
    else Prog.seq (Prog.peer peer { s.peersAt peer with asked := true }) (Prog.complete fn 0)

/-- ROTATION_REQUEST (R323): FCTR has reached 2^46. -/
def execRotationRequest (peer : Nat) (s : State) : Host.Outcome State Fault Refusal :=
  let p := s.peersAt peer
  if p.fctr < 70368744177664 ∨ p.asked = true ∨ p.fresh = true then .next s else (Prog.peer peer { p with asked := true }).go s

/-- A rekey ends (R325): both directions have a fresh key in the slot that was not in use, every packet not acknowledged is sealed afresh under it with FCTR from 0, and
the old generation is retired at once. -/
def Peer.rekeyed (p : Peer) (now : Nat) : Peer :=
  let q := ((p.setSlot (!p.kg) 1).setSlot p.kg 2).setIn (!p.inKg) 1
  { q.setIn p.inKg 2 with kg := !p.kg, inKg := !p.inKg, rekeying := false, fctr := 0 }.reseal now fun _ => true

/-- A step of the installation of a key (R323, R324), where no rekey runs: the first key of a direction; then that of a rotation, in the slot that is empty or retired,
live at once for what is received; and the switches. Packets that the old key could not seal are sealed at the switch. -/
def Peer.keyStep (p : Peer) (now : Nat) : KeyStep → Peer
  | .outbound =>
    if !p.keyed then { p with slot0 := 1, kg := false, fctr := 0, asked := false }.reseal now fun _ => true
    else if p.slot (!p.kg) == 1 || p.fresh then p
    else { p with fresh := true, asked := false }
  | .inbound =>
    if !p.inKeyed then { p with in0 := 1, inKg := false }
    else if p.inSlot (!p.inKg) == 1 then p
    else p.setIn (!p.inKg) 1
  | .switch =>
    if !p.fresh then p
    else { p.setSlot (!p.kg) 1 with kg := !p.kg, fctr := 0, fresh := false, switched := some now }.reseal now fun k => decide (fctrEnd ≤ k.fctr)
  | .peerSwitch =>
    if p.inSwitched.isSome || p.inSlot (!p.inKg) != 1 then p else { p with inKg := !p.inKg, inSwitched := some now }

/-- KEY_INSTALLED (R323 to R325). -/
def execKeyInstalled (k : KeyChange) (s : State) : Host.Outcome State Fault Refusal :=
  let p := s.peersAt k.peer
  if p.down then .next s else (Prog.peer k.peer (if p.rekeying then p.rekeyed s.time else p.keyStep s.time k.step)).go s

/-- KEY_GRACE_EXPIRY (R324): KGRACE after the switch, the old slot of a direction is retired. -/
def execKeyGraceExpiry (side : LinkSide) (s : State) : Host.Outcome State Fault Refusal :=
  let p := s.peersAt side.peer
  match if side.inbound then p.inSwitched else p.switched with
  | none => .next s
  | some t =>
    if s.time < t + (s.reg 0 0x418000).toNat * microsecond then .next s
    else (Prog.peer side.peer (if side.inbound then { p.setIn (!p.inKg) 2 with inSwitched := none } else { p.setSlot (!p.kg) 2 with switched := none })).go s

/-- A port starts or stops being live at this end, or at the far end of one pair (R317). -/
def State.setPort (s : State) (x : PortEnd) (live : Bool) : Effect :=
  let set_ := fun (m : Nat) => if live then m ||| 2 ^ x.port else mDiff m (2 ^ x.port)
  match x.peer with
  | none => .sec { s.sec with ports := set_ s.sec.ports }
  | some k => .peers k { s.peersAt k with ports := set_ (s.peersAt k).ports }

/-- EXTERNAL_PORT_DOWN (R317). -/
def execExternalPortDown (x : PortEnd) (s : State) : Host.Outcome State Fault Refusal :=
  if 11 < x.port then .next s else .next (runAll s [s.setPort x false])
/-- EXTERNAL_PORT_UP (R317). -/
def execExternalPortUp (x : PortEnd) (s : State) : Host.Outcome State Fault Refusal :=
  if 11 < x.port then .next s else .next (runAll s [s.setPort x true])

/-! ## Collectives: descriptors, contributions and chunks (R326, R327) -/

/-- Fields of a descriptor (Table 19.4). -/
def dSrc (d : Nat) : Nat := bits d 511 448
def dDst (d : Nat) : Nat := bits d 447 384
def dCnt (d : Nat) : Nat := bits d 383 352
def dTag (d : Nat) : Nat := bits d 351 336
def dComm (d : Nat) : Nat := bits d 335 328
def dRoot (d : Nat) : Nat := bits d 327 322
def dKind (d : Nat) : Nat := bits d 321 320
def dType (d : Nat) : Nat := bits d 319 314
def dOpr (d : Nat) : Nat := bits d 313 311

/-- Bytes of an element of a type code (Table 3.10). -/
def collWidth (ty : Nat) : Nat := if ty = 0x03 ∨ ty = 0x07 then 8 else if ty = 0x0D ∨ ty = 0x0E then 2 else 4
/-- Members of a descriptor's communicator, this device's rank and the peer of a rank (Table 19.3). -/
def State.collN (s : State) (d : Nat) : Nat := bits (s.comm (dComm d)) 56 51 + 1
def State.collRank (s : State) (d : Nat) : Nat := bits (s.comm (dComm d)) 50 45
def State.collPeer (s : State) (d k : Nat) : Nat := s.member (bits (s.comm (dComm d)) 44 33 + k)

/-- Bytes of the contribution, of the whole result vector, and its chunks. -/
def collBytes (d : Nat) : Nat := dCnt d * collWidth (dType d)
def State.collTotal (s : State) (d : Nat) : Nat := if dKind d = 2 then s.collN d * collBytes d else collBytes d
def State.collChunks (s : State) (d : Nat) : Nat := ceilDiv (s.collTotal d) 4096

/-- One step of fold, on elements of a type code (R327). -/
def collOp (ty opr a b : Nat) : Nat :=
  let n := 8 * collWidth ty
  let fl := fun (f : Fmt) => if opr = 0 then (fpAdd f .rn a b).1 else (fpMinMax f (opr == 2) a b).1
  if ty = 0x0C then fl .f32
  else if ty = 0x0D then fl .f16
  else if ty = 0x0E then fl .bf16
  else
    let rd := readInt n (decide (ty < 4))
    if opr = 0 then (a + b) % 2 ^ n
    else if opr = 1 then (if rd b < rd a then b else a)
    else if opr = 2 then (if rd a < rd b then b else a)
    else if opr = 3 then a &&& b
    else if opr = 4 then a ||| b
    else a ^^^ b

/-- Strictly left to right, in rank order. -/
def collFold (ty opr : Nat) : List Nat → Nat
  | [] => 0
  | x :: t => t.foldl (collOp ty opr) x

/-- Element i of a contribution. -/
def elemAt (w : Nat) (data : List Byte) (i : Nat) : Nat := ofBytes ((data.drop (w * i)).take w)

/-- The bytes of a chunk of the whole result, given the contribution of each rank. -/
def State.chunkBytes (s : State) (d chunk : Nat) (src : Nat → List Byte) : List Byte :=
  let lo := 4096 * chunk
  let n := min 4096 (s.collTotal d - lo)
  let w := collWidth (dType d)
  if dKind d = 2 then
    (List.range n).map fun b => getAt 0 (src ((lo + b) / collBytes d)) ((lo + b) % collBytes d)
  else if dKind d = 3 then ((src (dRoot d)).drop lo).take n
  else
    (List.range (n / w)).flatMap fun i =>
      toBytes (collFold (dType d) (dOpr d) ((List.range (s.collN d)).map fun k => elemAt w (src k) (lo / w + i))) w

/-- The ranks whose elements a chunk holds. A chunk waits for every rank's contribution, as R328 orders what follows it after all members' flushes. -/
def State.chunkFrom (s : State) (d chunk : Nat) : List Nat :=
  if dKind d = 3 then [dRoot d]
  else if dKind d = 2 then
    (List.range (s.collN d)).filter fun k => decide (k * collBytes d < 4096 * chunk + 4096) && decide (4096 * chunk < (k + 1) * collBytes d)
  else List.range (s.collN d)

/-- The part of a chunk that a member receives: its offset in DST, and its offset and length in the chunk. -/
def State.chunkPart (s : State) (d rank chunk : Nat) : Nat × Nat × Nat :=
  let lo := 4096 * chunk
  let hi := min (lo + 4096) (s.collTotal d)
  if dKind d = 1 then
    let part := collBytes d / s.collN d
    let a := rank * part
    let x := max lo a
    (x - a, x - lo, min hi (a + part) - x)
  else (lo, 0, hi - lo)

/-- Bytes of a member's result. -/
def State.collLen (s : State) (d : Nat) : Nat := if dKind d = 1 then collBytes d / s.collN d else s.collTotal d

/-- The contributions that the unit holds for a collective: all, those of one rank in the order of their parts, and its bytes. -/
def State.contribsOf (s : State) (d : Nat) : List Contrib := s.contribs.filter fun c => c.comm == dComm d && c.tag == dTag d
def State.contribOf (s : State) (d k : Nat) : List Contrib := ((s.contribsOf d).filter fun c => c.rank == k && !c.stale).mergeSort fun a b => decide (a.part ≤ b.part)
def State.contribData (s : State) (d k : Nat) : List Byte := (s.contribOf d k).flatMap (·.data)

/-- Whether a rank's contribution was dropped under a stale key, and whether it has arrived, dropped or whole. -/
def State.contribStale (s : State) (d k : Nat) : Bool := (s.contribsOf d).any fun c => c.rank == k && c.stale
def State.contribHere (s : State) (d k : Nat) : Bool := s.contribStale d k || (!(s.contribOf d k).isEmpty && decide (collBytes d ≤ (s.contribData d k).length))

/-- A contribution that differs from a descriptor in KIND, TYPE, OPR, CNT or ROOT. -/
def Contrib.differs (c : Contrib) (d : Nat) : Bool :=
  c.kind != dKind d || c.ty != dType d || c.opr != dOpr d || c.cnt != dCnt d || c.root != dRoot d

/-- Whether the members of a collective disagree, or one of them has two pending with the same tag (Table 19.5). -/
def State.collClash (s : State) (d : Nat) : Bool :=
  (s.contribsOf d).any (fun c => !c.stale && c.differs d) || (List.range (s.collN d)).any fun k =>
    let l := (s.contribOf d k).map (·.part)
    decide (l.eraseDups.length < l.length)

/-- The parts of a chunk's result that this member has; a chunk that has not completed has one, without bytes; and its outcome, once all of it is here. -/
def State.chunkParts (s : State) (d chunk : Nat) : List ChunkRes :=
  (s.results.filter fun r => r.comm == dComm d && r.tag == dTag d && r.chunk == chunk).mergeSort fun a b => decide (a.part ≤ b.part)
def State.chunkData (s : State) (d chunk : Nat) : List Byte := (s.chunkParts d chunk).flatMap (·.data)
def State.chunkStat (s : State) (d chunk : Nat) : Option Nat :=
  match (s.chunkParts d chunk).find? fun r => r.stat != 1 with
  | some r => some r.stat
  | none => if !(s.chunkParts d chunk).isEmpty && decide ((s.chunkPart d (s.collRank d) chunk).2.2 ≤ (s.chunkData d chunk).length) then some 1 else none

/-- A unit's result of a chunk: this member's part of it is here, and every other member is sent its own (R327). -/
def Prog.chunkDone (coll d chunk stat : Nat) (data : List Byte) : Prog := Prog.on fun s =>
  let part := fun (k : Nat) => let p := s.chunkPart d k chunk; (data.drop p.2.1).take p.2.2
  Prog.seq (Prog.put (.results (s.results ++ [{ comm := dComm d, tag := dTag d, chunk := chunk, stat := stat, part := 0, data := part (s.collRank d) }])))
    (Prog.each (fun k => Prog.when (k != s.collRank d) (Prog.peerParts (s.collPeer d k) (part k).length fun i => .result coll chunk i)) (List.range (s.collN d)))

/-! ## Peer links: what arrives (R319 to R322, R324, R325) -/

/-- Inbound grant i (R319, log 15): V, R, W, A in bits 63 to 60 and the source peer in bits 9:0 of word 0; the HPA range [word 1, word 2). -/
def State.granted (s : State) (peer hpa n bit_ : Nat) : Bool :=
  hpaMapped hpa && hpaMapped (hpa + n - 1) && (List.range 64).any fun i =>
    let w := fun (j : Nat) => (s.reg 0 (0x418100 + 32 * i + 8 * j)).toNat
    bit (w 0) 63 && bit (w 0) bit_ && bits (w 0) 9 0 == peer && decide (w 1 ≤ hpa) && decide (hpa + n ≤ w 2)

/-- The answer to a read or an atomic of this device (R319). -/
def Prog.answered (peer id i v : Nat) : Prog := Prog.seq
  (Prog.on fun s => let p := s.peersAt peer; Prog.when (p.waiting.any fun k => k.kind == .access id i)
    (Prog.peer peer { p with waiting := p.waiting.filter (fun k => k.kind != .access id i), progress := s.time }))
  (Prog.on fun s => match s.opsAt id with
  | some o => (match o.elems[i]? with
    | some e =>
      if !e.sent || e.done then Prog.skip
      else
        (match o.kind with
         | .load _ | .fetch => Prog.put (.ops id (some (o.setElem i { e with got := true, done := true, val := v % 2 ^ (8 * e.n) })))
         | .tmov => Prog.when (!e.got) (Prog.put (.ops id (some (o.setElem i { e with got := true, sent := false, val := v % 2 ^ (8 * e.n) }))))
         | .rmw _ _ | .cas | .rmwf _ _ _ =>
           let r := rmwResult o.kind e (v % 2 ^ (8 * e.n))
           Prog.all [
             Prog.put (.ops id (some (o.setElem i r.2.1))),
             Prog.when (r.2.2 != 0) (Prog.grp o.who ((s.grp o.who).writeOuts (flagOut r.2.2))),
             Prog.tidy id]
         | _ => Prog.skip)
    | none => Prog.skip)
  | none => (match s.engsAt id with
    | some e => Prog.when (decide (i ∈ e.sent) && Tab.get (fun _ => 0) e.reads i == 0)
        (Prog.eng id { e with reads := Tab.put (fun _ => 0) e.reads i (v + 1), sent := e.sent.filter (· != i) })
    | none => Prog.skip))

/-- The bytes of this device's memory that a request asks for, and whether it reads them. -/
def reqSpan : PeerReq → Option (Nat × Nat × Bool)
  | .read _ hpa n => some (hpa, n, true)
  | .write _ hpa data => some (hpa, data.length, false)
  | .atomic _ hpa ty _ _ _ => some (hpa, wtyBits ty / 8, true)
  | .atomicf _ hpa ty _ _ _ => some (hpa, aBytes ty, true)
  | _ => none

/-- Whether a request is to wait for its in-package path (R315, R316). -/
def State.reqWaits (s : State) (req : PeerReq) : Bool := match reqSpan req with
  | some (a, _, _) => !s.pairDown ioDie a && !s.pathClear ioDie a
  | none => false

/-- Whether a request cannot be carried out: both paths to its home are down (R316), or the line that it reads is in error (R170, R299). -/
def State.reqLost (s : State) (req : PeerReq) : Bool := match reqSpan req with
  | some (a, n, reads) => s.pairDown ioDie a || (reads && s.lineBad a n)
  | none => false

/-- A request of a peer is carried out, if a grant covers it (R319, R322); otherwise the peer is sent a refusal. So it is where its access is an uncorrectable error
(log 51). -/
def Prog.deliver (peer : Nat) (req : PeerReq) : Prog := Prog.on fun s =>
  let granted := fun (hpa n bit_ : Nat) (p : Prog) => if s.granted peer hpa n bit_ && !s.reqLost req then p else Prog.seal peer 1
  let reply := fun (id : Nat) (data : List Byte) => Prog.peerSend peer (.reply id data) data.length
  match req with
  | .read id hpa n => granted hpa n 62 (reply id (s.bytes hpa n))
  | .write _ hpa data => granted hpa data.length 61 (fun _ => storeBytes hpa data)
  | .atomic id hpa ty op v cmp =>
    let n := wtyBits ty / 8
    let old := s.load hpa n
    granted hpa n 60
      (Prog.seq
        (match cmp with
         | some c => Prog.when (old == c) (Prog.store hpa n v)
         | none => Prog.store hpa n (atomNew ty op old v))
        (reply id (toBytes old n)))
  | .atomicf id hpa ty op rm v =>
    let n := aBytes ty
    let old := s.load hpa n
    granted hpa n 60 (Prog.seq (Prog.store hpa n (atomFNew ty op rm old v).1) (reply id (toBytes old n)))
  | .reply id data => Prog.answered peer (id / 281474976710656) (id % 281474976710656) (ofBytes data)
  | .contribution comm tag rank kind ty opr root cnt part data =>
    Prog.put (.contribs (s.contribs ++ [{ comm := comm, tag := tag, rank := rank, kind := kind, ty := ty, opr := opr, root := root, cnt := cnt, part := part, data := data,
                                          stale := false }]))
  | .result comm tag chunk stat part data =>
    Prog.put (.results (s.results ++ [{ comm := comm, tag := tag, chunk := chunk, stat := stat, part := part, data := data }]))

/-- How many sequence numbers b lies ahead of a; a number behind counts as 2^31 or more. -/
def seqAhead (a b : Nat) : Nat := (b + 4294967296 - a) % 4294967296

/-- Whether a packet of a sequence number has been delivered, or dropped for good. -/
def Peer.delivered (p : Peer) (seq : Nat) : Bool := decide (2147483648 ≤ seqAhead p.inNext seq) || decide (seq ∈ p.seen)

/-- The next sequence number passes those that have been delivered ahead. -/
def Peer.catchUp (p : Peer) : Nat → Peer
  | 0 => p
  | fuel + 1 => if p.inNext ∈ p.seen then { p with inNext := (p.inNext + 1) % 4294967296, seen := p.seen.filter (· != p.inNext) }.catchUp fuel else p

/-- A packet has been delivered. -/
def Peer.took (p : Peer) (seq : Nat) : Peer := { p with seen := p.seen ++ [seq] }.catchUp (p.seen.length + 1)

/-- Whether a packet's turn has come (R320): no other of its granule is before it. -/
def Peer.turn (p : Peer) (h : Inbound) : Bool := match h.prev with
  | some x => p.delivered x
  | none => true

/-- Packets that have arrived are delivered as their turn comes (R320) and their path lets them (R315). -/
def Prog.deliverHeld (peer : Nat) : Nat → Prog
  | 0 => Prog.skip
  | fuel + 1 => Prog.on fun s =>
    let p := s.peersAt peer
    match p.held.find? fun h => p.turn h && !s.reqWaits h.req with
    | none => Prog.skip
    | some h =>
      Prog.all [
        Prog.peer peer { p.took h.seq with held := p.held.filter fun k => k.seq != h.seq },
        Prog.deliver peer h.req,
        Prog.deliverHeld peer fuel]

/-- Markers that have all come, and whose packets have all been delivered, are answered (R321). -/
def Prog.markersMet (peer : Nat) : Prog := Prog.on fun s =>
  let p := s.peersAt peer
  let met := fun (m : Markers) => decide (m.count ≤ m.got.length) && !(decide (0 < seqAhead p.inNext m.seq) && decide (seqAhead p.inNext m.seq < 2147483648))
  Prog.when (p.markers.any met)
    (Prog.seq (Prog.peer peer { p with markers := p.markers.filter fun m => !met m }) (Prog.seal peer (p.markers.filter met).length))

/-- What has waited at the I/O die for a path goes on. -/
def Prog.inboundGoOn : Prog := Prog.on fun s =>
  Prog.each (fun (x : Nat × Peer) => Prog.when (!x.2.held.isEmpty) (Prog.seq (Prog.deliverHeld x.1 x.2.held.length) (Prog.markersMet x.1))) s.peers

/-- A contribution that was dropped under a stale key (R329): this device's unit completes every chunk that needs it, at every member, whether or not its own COLL has
begun. The fields of the contribution stand for the descriptor. -/
def Prog.staleChunks (comm tag rank kind ty opr root cnt : Nat) : Prog := Prog.on fun s =>
  let d := cnt * 2 ^ 352 + tag * 2 ^ 336 + comm * 2 ^ 328 + root * 2 ^ 322 + kind * 2 ^ 320 + ty * 2 ^ 314 + opr * 2 ^ 311
  Prog.when (bit (s.comm comm) 63)
    (Prog.each (fun j => Prog.on fun t =>
      Prog.when (j % t.collN d == t.collRank d && decide (rank ∈ t.chunkFrom d j) && (t.chunkStat d j).isNone) (Prog.chunkDone 0 d j 2 []))
      (List.range (s.collChunks d)))

/-- A packet whose flits are not opened is answered stale (R324). A contribution is dropped whole, once, and its chunks complete as KEY_STALE (R329). -/
def Prog.staleIn (peer seq : Nat) (req : PeerReq) : Prog := Prog.seq (Prog.seal peer 1) (match req with
  | .contribution comm tag rank kind ty opr root cnt part _ => Prog.on fun s =>
    let p := s.peersAt peer
    Prog.when (!p.delivered seq)
      (Prog.all [
        Prog.put (.contribs (s.contribs ++ [{ comm := comm, tag := tag, rank := rank, kind := kind, ty := ty, opr := opr, root := root, cnt := cnt, part := part,
                                              data := [], stale := true }])),
        Prog.peer peer (p.took seq),
        Prog.staleChunks comm tag rank kind ty opr root cnt,
        Prog.deliverHeld peer p.held.length,
        Prog.markersMet peer])
  | _ => Prog.skip)

/-- DATA_FLIT (R317, R319, R320, R324, R325, R329): a flit that opens counts towards its packet, which with its last one is acknowledged and delivered,
once, in the order of its granule. -/
def execDataFlit (peer : Nat) (kg : Bool) (fctr seq : Nat) (tagOk : Bool) (c : Carried) (s : State) :
    Host.Outcome State Fault Refusal :=
  let p := s.peersAt peer
  if !s.carries peer then .next s
  else if !s.opens peer kg then (Prog.staleIn peer seq c.req).go s
  else if !tagOk then (Prog.tagFailed peer kg fctr).go s
  else if c.more then .next s
  else if p.delivered seq || p.held.any fun h => h.seq == seq then (Prog.seal peer 1).go s
  else
    (Prog.all [
      Prog.peer peer { p with held := p.held ++ [{ seq := seq, prev := c.prev, req := c.req }] },
      Prog.seal peer 1,
      Prog.deliverHeld peer (p.held.length + 1),
      Prog.markersMet peer]).go s

/-- A marker counts towards those of its sequence number, once. -/
def Peer.marked (p : Peer) (kg : Bool) (fctr seq count : Nat) : Peer :=
  let old := match p.markers.find? fun m => m.seq == seq with | some m => m.got | none => []
  { p with markers := (p.markers.filter fun m => m.seq != seq) ++
      [{ seq := seq, count := count, got := if (kg, fctr) ∈ old then old else old ++ [(kg, fctr)] }] }

/-- MARKER_FLIT (R321): a marker of a peer counts towards those of its sequence number, `count` in all; without a count it is a reply, which answers this device's markers
of one. -/
def execMarkerFlit (peer : Nat) (kg : Bool) (fctr seq : Nat) (count : Option Nat) (tagOk : Bool) (s : State) : Host.Outcome State Fault Refusal :=
  let p := s.peersAt peer
  if !s.carries peer then .next s
  else if !s.opens peer kg then (Prog.seal peer 1).go s
  else if !tagOk then (Prog.tagFailed peer kg fctr).go s
  else match count with
    | none => (Prog.peer peer { p with out := p.out.filter (fun k => !(k.isMarker && k.seq == seq)), progress := s.time }).go s
    | some n => (Prog.seq (Prog.peer peer (p.marked kg fctr seq n)) (Prog.markersMet peer)).go s

/-! ## In-package paths (R315, R316) -/

/-- The die from which an operation's accesses come. -/
def Op.die (o : Op) : Nat := (grpPos o.who).1

/-- Where an element is to be found next: TMOV's source until it has been read. -/
def Op.elemKey (o : Op) (e : Elem) : Nat := if o.kind = .tmov ∧ e.got = false then e.cmp else e.key

/-- The number by which FLIT_RECEIVE names the reading of a barrier word by a fragment that is held for it (R209, R210); its elements are lanes. -/
def waitBase : Nat := 1099511627776

/-- The number, less a peer's, by which it names a request of that peer which has arrived and waits; its elements are sequence numbers. -/
def inboundBase : Nat := 2199023255552

/-- The path of a flit in flight (R315): of an element of an access, of an engine's operation, of the word of a lane in BWAIT or BTEST,
or of a peer's request at the I/O die. -/
def State.flitPath (s : State) (op elem : Nat) : Option Nat :=
  match s.opsAt op, s.engsAt op with
  | some o, _ => (match o.elems[elem]? with
    | some e => if e.done then none else s.pathFor o.die (o.elemKey e)
    | none => none)
  | none, some e =>
    if e.done || decide (elem ∈ e.early) then none
    else (match s.engAt e (e.addr elem) 1 1 0 with
      | .at k => s.pathFor e.die k
      | _ => none)
  | none, none =>
    let w : Issuer := .grp ((op - waitBase) / 16) ((op - waitBase) % 16)
    if inboundBase ≤ op then
      (((s.peersAt (op - inboundBase)).held.find? fun h => h.seq == elem).bind fun h => reqSpan h.req).bind fun x => s.pathFor ioDie x.1
    else if op < waitBase then none
    else match ((s.grp w).frag (fragOf w)).hold with
      | .bwait r | .btest r => (match r.lanes.find? fun q => q.lane == elem && !q.took with
        | some q => s.pathFor (grpPos w).1 q.addr2
        | none => none)
      | _ => none

/-- The number of a flit among those of a path. -/
def flitNum (op elem : Nat) : Nat := op * 281474976710656 + elem

/-- FLIT_RECEIVE (R315, R316): a flit that crosses between dies arrives over its path; a bad CRC has it sent again, ahead of every other flit of the path. What has
waited for the path at the I/O die then goes on. -/
def execFlitReceive (path op elem : Nat) (crcOk : Bool) (s : State) : Host.Outcome State Fault Refusal :=
  let v := s.pathsAt path
  let fails := v % 512
  let mine := if v = 0 then s.flitPath op elem == some path else v / 512 == 1 + flitNum op elem
  if !mine || decide (9 ≤ fails) then .next s
  else
    (Prog.seq (Prog.put (.paths path (if crcOk then 0 else fails + 1 + 512 * (1 + flitNum op elem))))
      (Prog.when crcOk Prog.inboundGoOn)).go s

/-- The lanes of an operation whose elements wait on a pair. -/
def Op.lanesOver (o : Op) (pair : Nat) : Nat :=
  o.elems.foldl (fun m e =>
    let k := o.elemKey e
    if e.done = false ∧ homeDie k ≠ o.die ∧ pairIdx o.die (homeDie k) = pair then m ||| 2 ^ e.lane else m) 0

/-- Whether both paths of a pair are down. -/
def State.pairGone (s : State) (pair : Nat) : Bool := s.pathsAt (2 * pair) == 256 && s.pathsAt (2 * pair + 1) == 256

/-- Whether an access waits on a pair. -/
def State.pairAwaited (s : State) (pair : Nat) : Bool := s.ops.any fun p => match p.2 with
  | some o => o.lanesOver pair != 0
  | none => false

/-- Every access that waits on a pair is an uncorrectable error of memory for its owner (R299, R316). An engine meets the same at its next step (State.engHome),
and so does the reading of a barrier word. -/
def Prog.pairLost (pair : Nat) : Prog := Prog.on fun s =>
  Prog.each (fun (p : Nat × Option Op) => match p.2 with
    | some o =>
      let m := o.lanesOver pair
      let a := match o.elems.find? fun e => bit m e.lane with | some e => e.gaddr | none => 0
      let reads := match o.kind with | .load _ | .rmw _ _ | .cas | .rmwf _ _ _ => true | _ => false
      Prog.when (m != 0) (if reads then Prog.readError p.1 o m a else Prog.seq (Prog.dropLanes p.1 m) (Prog.uncorrectable o.who m o.pc a))
    | none => Prog.skip) s.ops

/-- PATH_DOWN (R316): a path on which a flit has failed its eight retries is down, and its sibling carries the pair. With both down, what waits on the pair is
lost; what meets the pair later too. -/
def execPathDown (path : Nat) (s : State) : Host.Outcome State Fault Refusal :=
  if s.pathsAt path % 512 < 9 then .next s
  else (Prog.all [Prog.put (.paths path 256), Prog.on fun t => Prog.when (t.pairGone (path / 2)) (Prog.pairLost (path / 2)), Prog.inboundGoOn]).go s

/-! ## COLL (R326, R327) -/

/-- COLL (R327). -/
def execColl (h : Hdr) (a : Base) (task : Option (Fin 4096)) (lp : PReg) (s : State) : Host.Outcome State Fault Refusal :=
  engineInstr h (fun m => srcFoot 64 m a ++ pFoot lp.val m) s (fun e => e.leader lp) (fun e l => .coll (e.g.srcVal l 64 a) 0) (fun _ _ => none) (taskOf task)

/-- Whether a collective's DST can be written, and from where on: an engine's probe (R327). -/
def State.collProbe (s : State) (e : EngOp) (d q : Nat) : Option (Nat × Nat) :=
  (s.engChunks e (s.collLen d / 64 + 2) 0 (dDst d) (s.collLen d)).findSome? fun c => match s.engAt e c.2.1 c.2.2 2 q with
    | .bad x => some (x, c.2.1)
    | _ => none

/-- The start of a COLL after its flush (R327): SRC and DST are aligned to the element, SRC is read, from a peer element by element, DST is probed, and the contribution goes to every unit that reduces a chunk. A
second one with the same tag ends with STAT 0x04. -/
def Prog.collStart (id d q : Nat) : Prog := Prog.on fun s =>
  match s.engsAt id with
  | none => Prog.skip
  | some e =>
    let second := s.engs.any fun p => p.1 != id && match p.2 with
      | some x => (match x.kind with | .coll _ y => x.taken && !x.done && dComm y == dComm d && dTag y == dTag d | _ => false)
      | none => false
    let me := s.collRank d
    let e1 := { e with taken := true, turn := s.time, stale := second }
    let fails := fun (f : Nat × Nat) => Prog.eng id (e1.failed f.1 f.2)
    let w := collWidth (dType d)
    if e.fail.isSome || second then Prog.eng id e1
    else if dSrc d % w ≠ 0 then fails (cMisaligned, dSrc d)
    else if dDst d % w ≠ 0 then fails (cMisaligned, dDst d)
    else match s.engRead e 0 (dSrc d) (collBytes d) q, s.collProbe e d q with
      | .error f, _ => fails f
      | .ok _, some f => fails f
      | .ok r, none =>
        if !r.ready then Prog.engAskAll id r.ask
        else
          let c : Contrib := { comm := dComm d, tag := dTag d, rank := me, kind := dKind d, ty := dType d, opr := dOpr d, root := dRoot d, cnt := dCnt d, part := 0,
                               data := r.data, stale := false }
          Prog.all [
            Prog.eng id e1,
            Prog.put (.contribs (s.contribs ++ [c])),
            Prog.each (fun k => Prog.when (k != me && decide (k < s.collChunks d)) (Prog.peerParts (s.collPeer d k) (collBytes d) fun i => .contribution id i))
              (List.range (s.collN d))]

/-- The collective that a number names, running. -/
def State.collOf (s : State) (coll : Nat) : Option (EngOp × Nat × Nat) :=
  match s.engsAt coll with
  | some e => (match e.kind with | .coll a d => if e.taken && !e.done then some (e, a, d) else none | _ => none)
  | none => none

/-- CHUNK_REDUCE (R327 to R329): this device's unit folds a chunk once every rank's contribution is there. It does not wait where one that the chunk needs was dropped
under a stale key, nor where members disagree. -/
def execChunkReduce (coll chunk : Nat) (s : State) : Host.Outcome State Fault Refusal :=
  match s.collOf coll with
  | none => .next s
  | some (_, _, d) =>
    let n := s.collN d
    if s.collChunks d ≤ chunk ∨ chunk % n ≠ s.collRank d ∨ (s.chunkStat d chunk).isSome then .next s
    else if (s.chunkFrom d chunk).any (s.contribStale d) then (Prog.chunkDone coll d chunk 2 []).go s
    else if s.collClash d then (Prog.chunkDone coll d chunk 4 []).go s
    else if !(List.range n).all (s.contribHere d) then .next s
    else (Prog.chunkDone coll d chunk 1 (s.chunkBytes d chunk (s.contribData d))).go s

/-- The chunks of a collective. -/
def State.chunks (s : State) (d : Nat) : List Nat := List.range (s.collChunks d)

/-- Bytes l, whose elements count from x, are written at an address of this device, or a peer is handed them; once. -/
def Prog.collPut (id x a q : Nat) (l : List Byte) : Prog := Prog.on fun s =>
  match s.engsAt id with
  | none => Prog.skip
  | some e => match s.engPut e a l.length q with
    | .home k => Prog.when (!decide (x ∈ e.early)) (Prog.seq (fun _ => storeBytes k l) (Prog.eng id { e with early := e.early ++ [x] }))
    | .away k => Prog.each (fun (p : Nat × Nat) => Prog.when (!decide (x + p.1 ∈ e.early)) (Prog.engGive id (x + p.1) (k + p.1))) (eights l.length)
    | .bad c => Prog.eng id (e.failed c a)
    | _ => Prog.skip

/-- Whether those bytes have been written, or cannot be. -/
def State.collPutDone (s : State) (e : EngOp) (x a n q : Nat) : Bool := match s.engPut e a n q with
  | .home _ => decide (x ∈ e.early)
  | .away _ => (eights n).all fun p => decide (x + p.1 ∈ e.early)
  | .bad _ => true
  | _ => false

/-- What a collective writes to DST: of every chunk that has completed, the element, the address and the bytes of each piece of this member's part. -/
def State.collPieces (s : State) (e : EngOp) (d : Nat) : List (Nat × Nat × List Byte) :=
  (s.chunks d).flatMap fun j =>
    let (off, _, n) := s.chunkPart d (s.collRank d) j
    if s.chunkStat d j = some 1 then
      (s.engChunks e 66 0 (dDst d + off) n).map fun c => (dstBase + off + c.1, c.2.1, ((s.chunkData d j).drop c.1).take c.2.2)
    else []

/-- A collective whose operation has failed here (R327): every chunk that has no result here ends with STAT 0x04, at every member; and where chunks have results, every
other member is told once, by a result past the last chunk (log 30), `tell` says. -/
def Prog.chunksFail (coll d : Nat) (tell : Bool) : Prog := Prog.on fun s => Prog.seq
  (Prog.each (fun j => Prog.when (s.chunkStat d j).isNone (Prog.chunkDone coll d j 4 [])) (s.chunks d))
  (Prog.when (tell && (s.chunks d).any fun j => (s.chunkStat d j).isSome)
    (Prog.each (fun k => Prog.when (k != s.collRank d) (Prog.peerSend (s.collPeer d k) (.result coll (s.collChunks d) 0) 0)) (List.range (s.collN d))))

/-- Whether another member has told of a failure of its own. -/
def State.collTold (s : State) (d : Nat) : Bool :=
  s.results.any fun r => r.comm == dComm d && r.tag == dTag d && r.chunk == s.collChunks d && r.stat != 1

/-- STAT, once every chunk has its outcome: that of the first that has not completed, and 0x04 after a failure here or at another member (R327, Table 19.5). -/
def State.collStat (s : State) (e : EngOp) (d : Nat) : Nat :=
  if e.stale || e.fail.isSome || s.collTold d then 4 else (((s.chunks d).filterMap (s.chunkStat d)).find? (· != 1)).getD 1

/-- STAT is written; then the COLL reports, with the bytes that it has written, and what it was about is forgotten (R182, R327). -/
def Prog.collEnd (coll a d q : Nat) : Prog := Prog.seq
  (Prog.on fun s => match s.engsAt coll with
    | some e => Prog.collPut coll statBase ((a + 7) % 2 ^ 64) q [BitVec.ofNat 8 (s.collStat e d)]
    | none => Prog.skip)
  (Prog.on fun s => match s.engsAt coll with
    | some e =>
      Prog.when (s.collPutDone e statBase ((a + 7) % 2 ^ 64) 1 q)
        (Prog.all [
          Prog.eng coll { e with bytes := if e.stale then 0 else (s.collPieces e d).foldl (fun n p => n + p.2.2.length) 0 },
          Prog.when (!e.stale) (fun _ => [
            .contribs (s.contribs.filter fun c => c.comm != dComm d || c.tag != dTag d),
            .results (s.results.filter fun c => c.comm != dComm d || c.tag != dTag d)]),
          Prog.finishEng coll q])
    | none => Prog.skip)

/-- COLL_COMPLETE (R327): once every chunk has its outcome here, DST is written where they are complete, whatever became of the others, then STAT, and the operation
reports. -/
def execCollComplete (coll : Nat) (s : State) : Host.Outcome State Fault Refusal :=
  match s.collOf coll with
  | none => .next s
  | some (e, a, d) =>
    (Prog.free (2 ^ 200) fun q =>
      if e.stale then Prog.collEnd coll a d q
      else Prog.all [
        Prog.when e.fail.isSome (Prog.seq (Prog.chunksFail coll d (e.steps != 2)) (Prog.on fun t => match t.engsAt coll with
          | some x => Prog.eng coll { x with steps := 2 }
          | none => Prog.skip)),
        Prog.on fun t => Prog.when ((t.chunks d).all fun j => (t.chunkStat d j).isSome)
          (Prog.all [
            Prog.each (fun (p : Nat × Nat × List Byte) => Prog.collPut coll p.1 p.2.1 q p.2.2) (t.collPieces e d),
            Prog.on fun u => match u.engsAt coll with
              | some x => Prog.when ((u.collPieces x d).all fun p => u.collPutDone x p.1 p.2.1 p.2.2.length q) (Prog.collEnd coll a d q)
              | none => Prog.skip])]).go s

/-- CTMO_EXPIRY (R327, Table 19.5): after CTMO the chunks that have no result end as timed out. -/
def execCtmoExpiry (coll : Nat) (s : State) : Host.Outcome State Fault Refusal :=
  match s.collOf coll with
  | none => .next s
  | some (e, _, d) =>
    if s.time < e.turn + bits (s.part e.owner.vf 2) 63 32 * microsecond then .next s
    else
      (Prog.each (fun j =>
        if j % s.collN d = s.collRank d then Prog.chunkDone coll d j 3 []
        else Prog.on fun t => Prog.put (.results (t.results ++ [{ comm := dComm d, tag := dTag d, chunk := j, stat := 3, part := 0, data := [] }])))
        ((s.chunks d).filter fun j => (s.chunkStat d j).isNone)).go s

/-! ## RELEASE_PERFORM (R187, R190, R206, R254, R321) -/

/-- Whether flush markers of a release are outstanding at a peer. -/
def State.markersOut (s : State) (id : Nat) : Bool :=
  s.peers.any fun p => p.2.out.any fun k => match k.kind with | .marker j _ => j == id | _ => false

/-- One marker goes over each live port of every peer that a group has written to (R321); a pair that is down has none. -/
def Prog.sendMarkers (id : Nat) (g : Group) : Prog := Prog.on fun s =>
  Prog.each (fun p =>
    let n := popcount (s.livePorts p) 12
    Prog.when (!(s.peersAt p).down) (Prog.each (fun _ => Prog.peerSend p (.marker id n) 0) (List.range n))) g.peersW

/-- Whether markers can be sent: every pair has a live port, or is down. -/
def State.markersOk (s : State) (g : Group) : Bool := g.peersW.all fun p => (s.peersAt p).down || s.livePorts p != 0

/-- Whether a release reaches peers: at system scope (R321); TSIG waits for every write of its group (R254), which its markers do not take from the next release. -/
def Op.reachesPeers (o : Op) : Bool := match o.kind with
  | .signal _ _ _ _ => true
  | _ => o.scope == .sys

/-- RELEASE_PERFORM (R187): a release performs: a release write may then perform, a FENCE is met, TSIG decrements its task, a COLL starts. Peers to which the
group has written are sent flush markers first, and must have replied (R321). FENCE.acq, which releases nothing, sends them at .sys and waits for none (R180). -/
def execReleasePerform (op : Nat) (s : State) : Host.Outcome State Fault Refusal :=
  match s.opsAt op with
  | some o =>
    let kindOk := match o.kind with | .fence _ | .signal _ _ _ _ => true | _ => o.rel && !o.released
    let g := s.grp o.who
    let ok := match o.kind with | .fence _ | .signal _ _ _ _ => s.afterOk o | _ => s.releasable o
    let acq := o.kind == .fence .acq
    if !kindOk || !ok || s.followHeld o then .next s
    else if !o.marked && !g.peersW.isEmpty && o.reachesPeers then
      (Prog.when (s.markersOk g)
        (Prog.all [Prog.put (.ops op (some { o with marked := true })), Prog.sendMarkers op g,
          Prog.when (o.scope == .sys && !acq) (Prog.grp o.who { g with peersW := [] })])).go s
    else if !acq && s.markersOut op then .next s
    else
      (match o.kind with
       | .fence _ => Prog.put (.ops op none)
       | .signal die task vf _ => Prog.all [Prog.slotEvent op, Prog.put (.ops op none), Prog.decTask die task vf]
       | _ => Prog.put (.ops op (some { o with released := true }))).go s
  | none =>
    match s.engsAt op with
    | some e =>
      (match e.kind with
       | .coll _ d =>
         let g := s.groupsAt e.grp
         if e.taken || e.done || !(e.after.all fun i => (s.opsAt i).isNone) then .next s
         else if e.steps = 0 ∧ g.peersW.isEmpty = false then
           (Prog.when (s.markersOk g)
             (Prog.all [Prog.eng op { e with steps := 1 }, Prog.sendMarkers op g, Prog.put (.groups e.grp { g with peersW := [] })])).go s
         else if s.markersOut op then .next s
         else (Prog.seq (Prog.eng op { e with steps := 1 }) (Prog.free (2 ^ 200) fun q => Prog.collStart op d q)).go s
       | _ => .next s)
    | none => .next s

end Sys2Proof.Machine
end

