-- ==== Sys2Proof/Machine/Power.lean ====
section
/-! DEFINITION. Power states, P-states and the throttle log (R349, R350, R367), full resets, the life cycle and bring-up (R344, R348, R351), and the debug state
(R349). -/

namespace Sys2Proof.Machine

/-! ## P-states (R350, R367) -/

/-- Frequency in MHz and voltage in mV of a P-state. -/
def pMhz (p : Nat) : Nat := if p = 0 then 850 else if p = 1 then 700 else if p = 2 then 550 else 400
def pMv (p : Nat) : Nat := if p = 0 then 820 else if p = 1 then 750 else if p = 2 then 680 else 620

/-- A throttle log entry (Table 22.9). -/
def throttleWord (cyc old new why tj : Nat) : Nat :=
  cyc % 2 ^ 32 * 2 ^ 32 + old * 2 ^ 30 + new * 2 ^ 28 + why * 2 ^ 26 + pMv new * 2 ^ 16 + min tj 255 * 2 ^ 8 + 1

/-- The next entry of the ring of 16. -/
def Sec.logged (x : Sec) (w : Nat) : Sec :=
  { x with log := Tab.put (fun _ => 0) x.log x.logNext (BitVec.ofNat 64 w), logNext := (x.logNext + 1) % 16 }

/-- A change of P-state: its throttle log entry, its POWER event on every die (DEDUCED: each die has the source), and PWR packets. -/
def Prog.pstate (new why tj : Nat) : Prog := Prog.on fun s =>
  let x := s.sec
  Prog.when (x.pstate != new)
    (Prog.all [
      Prog.put (.sec ({ x with pstate := new }.logged (throttleWord s.cycle x.pstate new why tj))),
      Prog.each (fun die => Prog.eventNow die 7 0 0 0 new 0 (pMhz new)) [0, 1, 2, 3],
      Prog.each (fun (p : Nat × TraceUnit) => Prog.packet p.1 9 [BitVec.ofNat 8 new]) s.traces])

/-- POWER_EVALUATION (R350): `over10` says that the power of the last 10 ms exceeds 2,400 W, `under10` that 10 ms below 2,300 W and 95 °C have passed; `tj` is
the hottest junction. The power of the moment decides nothing by itself. -/
def execPowerEvaluation (watts tj : Nat) (over10 under10 : Bool) (s : State) : Host.Outcome State Fault Refusal :=
  let x := s.sec
  if x.power ≠ 0 then .next s
  else if 120 ≤ tj then .next (runAll s [.sec { x.logged (throttleWord s.cycle x.pstate 3 2 tj) with power := 3 }])
  else if 110 ≤ tj then (Prog.pstate 3 2 tj).go s
  else if over10 then (Prog.pstate (min (x.pstate + 1) 3) 0 tj).go s
  else if 100 < tj then (Prog.pstate (min (x.pstate + 1) 3) 1 tj).go s
  else if under10 && decide (watts < 2300) && decide (tj < 95) then (Prog.pstate (x.pstate - 1) 3 tj).go s
  else .next s

/-! ## Resets (R344, R348, R351) -/

/-- The security firmware of a version and a digest is started by the ROM, with DICE layer 0 (R344). -/
def Sec.layerZero (x : Sec) (p : Nat × Nat) : Sec :=
  { x with secOk := true, secVer := p.1, secImg := p.2,
           cdi0 := digestOf (hmacSm3 (toBytes Config.uds.toNat 32) (toBytes (p.2 % 2 ^ 256) 32)) }
/-- The runtime firmware of a version and a digest is started, with DICE layer 1 (R344). -/
def Sec.layerOne (x : Sec) (p : Nat × Nat) : Sec := { x.runtime p.1 p.2 with rtOk := true }
/-- Configuration requests are answered with CRS until both images have been started (R344, R351: steps 3, 6 and 9). -/
def Sec.held (x : Sec) : Sec := { x with crs := !(x.secOk && x.rtOk) }

/-- POWER_ON (R351): bring-up: the check of the security firmware, the wipe, the check of the runtime firmware, the peer ID of the module straps, and the release of CRS. An
image comes with its version and digest, or has failed its check and is not started, nor what follows it. -/
def execPowerOn (b : BringUp) (s : State) : Host.Outcome State Fault Refusal :=
  let x : Sec := { s.sec.afterReset with peerId := b.straps % 1024, secOk := false, rtOk := false, cdi0 := 0, cdi1 := 0 }
  let y := match b.sec, b.rt with
    | some a, some r => (x.layerZero a).layerOne r
    | some a, none => x.layerZero a
    | none, _ => x
  .next (runAll s [.wipe y.held])

/-- PERST (R348): a full reset. -/
def execPerst (s : State) : Host.Outcome State Fault Refusal := Prog.fullReset.go s

/-- LIFE_CYCLE_CHANGE (R348): one way, TEST to DEVELOP to PRODUCTION to RETURN, and the wipe. The mode of the next full reset does not take effect; RETURN
has no confidential mode. -/
def execLifeCycleChange (s : State) : Host.Outcome State Fault Refusal :=
  let x := s.sec
  if 3 ≤ x.lcs then .next s
  else
    let keep := decide (x.lcs < 2)
    .next (runAll s [.wipe { x.afterReset with lcs := x.lcs + 1, conf := x.conf && keep, confNext := x.confNext && keep }])

/-- FIRMWARE_IMAGE_LOAD (R344): an image that fails the ROM's check is not started, and configuration requests are answered with CRS until a good one is
loaded: the security firmware's while that has not been started, then the runtime firmware's (log 37). -/
def execFirmwareImageLoad (good : Bool) (version image : Nat) (s : State) : Host.Outcome State Fault Refusal :=
  let x := s.sec
  .next (runAll s [.sec (
    if !good then { x with crs := true }
    else if !x.secOk then (x.layerZero (version, image)).held
    else if !x.rtOk then (x.layerOne (version, image)).held
    else x.held)])

/-! ## D-states (R349) -/

/-- The owners that have lanes in groups, each with the first group and entry found for it, and those that only have contexts, with the first of these. -/
def State.residentOwners (s : State) : List (Nat × Nat × (Nat × Nat ⊕ Nat)) :=
  let inGroups := s.groups.flatMap fun p =>
    ((List.range 16).filter fun e => (p.2.trueOwner e).valid && p.2.entPres e != 0).map fun e =>
      ((p.2.trueOwner e).vf, (p.2.trueOwner e).asid, (Sum.inl (p.1, e) : Nat × Nat ⊕ Nat))
  let inCtxs := s.ctxs.filterMap fun p => if p.2.state = 1 then some (p.2.vf, p.2.asid, (Sum.inr p.1 : Nat × Nat ⊕ Nat)) else none
  (inGroups ++ inCtxs).foldl (fun l x => if l.any fun y => y.1 == x.1 && y.2.1 == x.2.1 then l else l ++ [x]) []

/-- D3HOT_ENTRY (R349): every resident owner is retired at its partition node with one fatal PREEMPT record, contexts stop, and trace and debug sessions close.
Keys, frame attributes and TDI states stay. -/
def execD3hotEntry (s : State) : Host.Outcome State Fault Refusal :=
  if s.sec.power ≠ 0 then .next s
  else
    (Prog.free (2 ^ 200) fun q => Prog.on fun s =>
      Prog.all [
        Prog.each (fun (x : Nat × Nat × (Nat × Nat ⊕ Nat)) => match x.2.2 with
          | .inl (k, e) => Prog.endRecord (.grp k 0) (s.groupsAt k) e cPreempt
          | .inr k => Prog.ctxFault k cPreempt 0 0 ((s.ctxsAt k).g.frag 0).pc) s.residentOwners,
        Prog.each (fun a => Prog.retire (some a) 0 []) ((List.range 64).flatMap fun v => if (s.wgsOfFn v).isEmpty then [] else s.partitionNodes v q),
        Prog.on fun t => Prog.each (fun (p : Nat × Ctx) => Prog.when (p.2.state == 1) (Prog.ctxHalt p.1 cPreempt (p.2.g.frag 0).pc)) t.ctxs,
        fun t => (t.traces.map fun p => .traces p.1 { p.2 with hold := none, run := false, en := false }) ++
          (List.range 64).map fun v => .win (v * 67108864 + 0x800000) 0,
        Prog.on fun t => Prog.put (.sec { t.sec with power := 1 })]).go s

/-- D3HOT_EXIT (R349): the device returns to D0. -/
def execD3hotExit (s : State) : Host.Outcome State Fault Refusal :=
  if s.sec.power ≠ 1 then .next s else .next (runAll s [.sec { s.sec with power := 0 }])

/-- D3COLD (R349): power is removed, and with it all that a full reset wipes; the device stays off until POWER_ON. -/
def execD3cold (s : State) : Host.Outcome State Fault Refusal := .next (runAll s [.wipe { s.sec.afterReset with power := 2 }])

/-! ## The debug state (R349) -/

/-- DEBUG_STATE_CHANGE (R349, Table 20.8): OPEN only in TEST and DEVELOP, and not in confidential mode; 0b11 is reserved. -/
def execDebugStateChange (dbg : Fin 4) (s : State) : Host.Outcome State Fault Refusal :=
  if dbg.val = 3 ∨ s.sec.power ≠ 0 ∨ (dbg.val = 2 ∧ (s.sec.conf = true ∨ 2 ≤ s.sec.lcs)) then .next s
  else .next (runAll s [.dbg dbg.val])

end Sys2Proof.Machine
end

