-- ==== Sys2Proof/Machine/Dispatch.lean ====
section
/-! DEFINITION. The dispatch: one arm per constructor of Instr, each one direct call of its meaning. -/

namespace Sys2Proof.Machine

/-- Execute an instruction, event or command. -/
def exec (i : Instr) (s : State) : Host.Outcome State Fault Refusal :=
  match i with
  | .iadd h ty sat d a b => Sys2Proof.Machine.execIadd h ty sat d a b s
  | .isub h ty sat d a b => Sys2Proof.Machine.execIsub h ty sat d a b s
  | .imul h ty sat d a b => Sys2Proof.Machine.execImul h ty sat d a b s
  | .imulh h ty d a b => Sys2Proof.Machine.execImulh h ty d a b s
  | .imin h ty d a b => Sys2Proof.Machine.execImin h ty d a b s
  | .imax h ty d a b => Sys2Proof.Machine.execImax h ty d a b s
  | .imad h ty sat d a b c => Sys2Proof.Machine.execImad h ty sat d a b c s
  | .iabs h ty sat d a => Sys2Proof.Machine.execIabs h ty sat d a s
  | .lop h fn ty d a b => Sys2Proof.Machine.execLop h fn ty d a b s
  | .shf h fn ty d a b => Sys2Proof.Machine.execShf h fn ty d a b s
  | .bfx h ty d a b c => Sys2Proof.Machine.execBfx h ty d a b c s
  | .bfi h ty d a b c => Sys2Proof.Machine.execBfi h ty d a b c s
  | .bitc h fn ty d a b => Sys2Proof.Machine.execBitc h fn ty d a b s
  | .sel h ty d a b c => Sys2Proof.Machine.execSel h ty d a b c s
  | .icmp h ty cmp d a b => Sys2Proof.Machine.execIcmp h ty cmp d a b s
  | .fadd h rm d a b => Sys2Proof.Machine.execFadd h rm d a b s
  | .fmul h rm d a b => Sys2Proof.Machine.execFmul h rm d a b s
  | .ffma h rm d a b c => Sys2Proof.Machine.execFfma h rm d a b c s
  | .fmnx h max d a b => Sys2Proof.Machine.execFmnx h max d a b s
  | .fcmp h cmp d a b => Sys2Proof.Machine.execFcmp h cmp d a b s
  | .fcls h d a => Sys2Proof.Machine.execFcls h d a s
  | .fspc h fn rm d a => Sys2Proof.Machine.execFspc h fn rm d a s
  | .hadd2 h bf rm d a b => Sys2Proof.Machine.execHadd2 h bf rm d a b s
  | .hmul2 h bf rm d a b => Sys2Proof.Machine.execHmul2 h bf rm d a b s
  | .hfma2 h bf rm d a b c => Sys2Proof.Machine.execHfma2 h bf rm d a b c s
  | .fdp4 h e5 rm d a b c => Sys2Proof.Machine.execFdp4 h e5 rm d a b c s
  | .cvtf h dst src rm sat d a => Sys2Proof.Machine.execCvtf h dst src rm sat d a s
  | .cvti h toInt fty ity rm d a => Sys2Proof.Machine.execCvti h toInt fty ity rm d a s
  | .cvtq h q8 k d a b => Sys2Proof.Machine.execCvtq h q8 k d a b s
  | .mov h ty d a => Sys2Proof.Machine.execMov h ty d a s
  | .movi h ty d imm => Sys2Proof.Machine.execMovi h ty d imm s
  | .movs h src d => Sys2Proof.Machine.execMovs h src d s
  | .movg h ty d a => Sys2Proof.Machine.execMovg h ty d a s
  | .plog h fn x => Sys2Proof.Machine.execPlog h fn x s
  | .pset h x => Sys2Proof.Machine.execPset h x s
  | .salu h fn d a b => Sys2Proof.Machine.execSalu h fn d a b s
  | .smov h d a => Sys2Proof.Machine.execSmov h d a s
  | .scmp h signed cmp d a b => Sys2Proof.Machine.execScmp h signed cmp d a b s
  | .ssel h d a b c => Sys2Proof.Machine.execSsel h d a b c s
  | .sld h ty n scope d m => Sys2Proof.Machine.execSld h ty n scope d m s
  | .bra h off => Sys2Proof.Machine.execBra h off s
  | .jmp h a => Sys2Proof.Machine.execJmp h a s
  | .call h d off => Sys2Proof.Machine.execCall h d off s
  | .ret h a => Sys2Proof.Machine.execRet h a s
  | .exit h => Sys2Proof.Machine.execExit h s
  | .nop h => Sys2Proof.Machine.execNop h s
  | .yield h => Sys2Proof.Machine.execYield h s
  | .ld h ty n acq scope d m => Sys2Proof.Machine.execLd h ty n acq scope d m s
  | .st h ty n rel scope m data => Sys2Proof.Machine.execSt h ty n rel scope m data s
  | .brd h off a => Sys2Proof.Machine.execBrd h off a s
  | .knot h off => Sys2Proof.Machine.execKnot h off s
  | .join h => Sys2Proof.Machine.execJoin h s
  | .vote h x => Sys2Proof.Machine.execVote h x s
  | .elect h d => Sys2Proof.Machine.execElect h d s
  | .matchl h ty d a => Sys2Proof.Machine.execMatchl h ty d a s
  | .ownq h fld d => Sys2Proof.Machine.execOwnq h fld d s
  | .fragq h count d => Sys2Proof.Machine.execFragq h count d s
  | .shfl h fn w d a b => Sys2Proof.Machine.execShfl h fn w d a b s
  | .bcst h ty d a b => Sys2Proof.Machine.execBcst h ty d a b s
  | .rdln h ty d a b => Sys2Proof.Machine.execRdln h ty d a b s
  | .lred h op ty d a => Sys2Proof.Machine.execLred h op ty d a s
  | .prfx h op ty d a => Sys2Proof.Machine.execPrfx h op ty d a s
  | .backoff h a => Sys2Proof.Machine.execBackoff h a s
  | .launchNow h d a lp => Sys2Proof.Machine.execLaunchNow h d a lp s
  | .launchArm h d a b count lp => Sys2Proof.Machine.execLaunchArm h d a b count lp s
  | .ldaq h ty n acq scope d m => Sys2Proof.Machine.execLdaq h ty n acq scope d m s
  | .strl h ty n rel scope m data => Sys2Proof.Machine.execStrl h ty n rel scope m data s
  | .tmov h n src dst => Sys2Proof.Machine.execTmov h n src dst s
  | .sptst h win d b off => Sys2Proof.Machine.execSptst h win d b off s
  | .spcst h win toOff d b off => Sys2Proof.Machine.execSpcst h win toOff d b off s
  | .atom h ty op ord scope d b off data => Sys2Proof.Machine.execAtom h ty op ord scope d b off data s
  | .ared h ty op rel scope b off data => Sys2Proof.Machine.execAred h ty op rel scope b off data s
  | .acas h ty ord scope d b off cmp new => Sys2Proof.Machine.execAcas h ty ord scope d b off cmp new s
  | .atomf h ty op ord scope d b off data => Sys2Proof.Machine.execAtomf h ty op ord scope d b off data s
  | .fence h ord scope => Sys2Proof.Machine.execFence h ord scope s
  | .bari h bytes rel scope b off data => Sys2Proof.Machine.execBari h bytes rel scope b off data s
  | .barv h mode scope d b off => Sys2Proof.Machine.execBarv h mode scope d b off s
  | .bwait h scope b off data => Sys2Proof.Machine.execBwait h scope b off data s
  | .btest h scope d b off data => Sys2Proof.Machine.execBtest h scope d b off data s
  | .tpack h d a b => Sys2Proof.Machine.execTpack h d a b s
  | .tunpk h d a => Sys2Proof.Machine.execTunpk h d a s
  | .wload h a slot qm line x => Sys2Proof.Machine.execWload h a slot qm line x s
  | .afeed h fmt a rows anc stride => Sys2Proof.Machine.execAfeed h fmt a rows anc stride s
  | .adrain h fmt a row rows stride => Sys2Proof.Machine.execAdrain h fmt a row rows stride s
  | .mlatch h qm slot set => Sys2Proof.Machine.execMlatch h qm slot set s
  | .mmul h ovr qm row rows anc => Sys2Proof.Machine.execMmul h ovr qm row rows anc s
  | .mmulb h ovr qm row rows anc => Sys2Proof.Machine.execMmulb h ovr qm row rows anc s
  | .mzero h qm row rows => Sys2Proof.Machine.execMzero h qm row rows s
  | .bfence h d => Sys2Proof.Machine.execBfence h d s
  | .bwaita h a => Sys2Proof.Machine.execBwaita h a s
  | .waitc h cls n => Sys2Proof.Machine.execWaitc h cls n s
  | .tsig h task lp => Sys2Proof.Machine.execTsig h task lp s
  | .tcopy h a coords x => Sys2Proof.Machine.execTcopy h a coords x s
  | .gath h d a b lsize count x => Sys2Proof.Machine.execGath h d a b lsize count x s
  | .coll h a task lp => Sys2Proof.Machine.execColl h a task lp s
  | .trap h code => Sys2Proof.Machine.execTrap h code s
  | .dbrk h code => Sys2Proof.Machine.execDbrk h code s
  | .rett h => Sys2Proof.Machine.execRett h s
  | .mfsr h d a imm => Sys2Proof.Machine.execMfsr h d a imm s
  | .mtsr h a imm v => Sys2Proof.Machine.execMtsr h a imm v s
  | .ckpt h a => Sys2Proof.Machine.execCkpt h a s
  | .evtx h a b => Sys2Proof.Machine.execEvtx h a b s
  | .evld d f => Sys2Proof.Machine.execEvld d f s
  | .emov d a => Sys2Proof.Machine.execEmov d a s
  | .emovi d k imm => Sys2Proof.Machine.execEmovi d k imm s
  | .ealu op d a b => Sys2Proof.Machine.execEalu op d a b s
  | .ecmp c d a b => Sys2Proof.Machine.execEcmp c d a b s
  | .ebf c off => Sys2Proof.Machine.execEbf c off s
  | .ehash d a seed => Sys2Proof.Machine.execEhash d a seed s
  | .hinc a b base => Sys2Proof.Machine.execHinc a b base s
  | .hmax a b base => Sys2Proof.Machine.execHmax a b base s
  | .cmsu a b k base => Sys2Proof.Machine.execCmsu a b k base s
  | .cmsq d a k base => Sys2Proof.Machine.execCmsq d a k base s
  | .wsum d a b base => Sys2Proof.Machine.execWsum d a b base s
  | .trig line => Sys2Proof.Machine.execTrig line s
  | .emit a tag => Sys2Proof.Machine.execEmit a tag s
  | .eend => Sys2Proof.Machine.execEend s
  | .resultWriteback op lanes err => Sys2Proof.Machine.execResultWriteback op lanes err s
  | .storeSourceRead op => Sys2Proof.Machine.execStoreSourceRead op s
  | .writePerform op elem => Sys2Proof.Machine.execWritePerform op elem s
  | .rmwPerform op elem => Sys2Proof.Machine.execRmwPerform op elem s
  | .releasePerform op => Sys2Proof.Machine.execReleasePerform op s
  | .translationFill core vf asid page => Sys2Proof.Machine.execTranslationFill core vf asid page s
  | .pathSlotHoldLimit grp frag => Sys2Proof.Machine.execPathSlotHoldLimit grp frag s
  | .pathSlotIssueLimit grp frag => Sys2Proof.Machine.execPathSlotIssueLimit grp frag s
  | .marketVisit => Sys2Proof.Machine.execMarketVisit s
  | .admission unit => Sys2Proof.Machine.execAdmission unit s
  | .waveStart launch => Sys2Proof.Machine.execWaveStart launch s
  | .workgroupEnd wg => Sys2Proof.Machine.execWorkgroupEnd wg s
  | .groupEnd grp => Sys2Proof.Machine.execGroupEnd grp s
  | .launchComplete launch => Sys2Proof.Machine.execLaunchComplete launch s
  | .copyStart cluster => Sys2Proof.Machine.execCopyStart cluster s
  | .copyComplete op err => Sys2Proof.Machine.execCopyComplete op err s
  | .feedRowAppend core => Sys2Proof.Machine.execFeedRowAppend core s
  | .drainRow core => Sys2Proof.Machine.execDrainRow core s
  | .drainComplete op => Sys2Proof.Machine.execDrainComplete op s
  | .batchComplete ctx => Sys2Proof.Machine.execBatchComplete ctx s
  | .batchChargeLimit ctx => Sys2Proof.Machine.execBatchChargeLimit ctx s
  | .contextStop ctx => Sys2Proof.Machine.execContextStop ctx s
  | .barvReturn who => Sys2Proof.Machine.execBarvReturn who s
  | .bwaitComplete who => Sys2Proof.Machine.execBwaitComplete who s
  | .btestReturn who => Sys2Proof.Machine.execBtestReturn who s
  | .bwaitaComplete who => Sys2Proof.Machine.execBwaitaComplete who s
  | .waitcComplete who => Sys2Proof.Machine.execWaitcComplete who s
  | .rettComplete grp => Sys2Proof.Machine.execRettComplete grp s
  | .faultRecordDelivery fn hostFail => Sys2Proof.Machine.execFaultRecordDelivery fn hostFail s
  | .statusEntryWrite fn hostFail => Sys2Proof.Machine.execStatusEntryWrite fn hostFail s
  | .fltresResume fn token => Sys2Proof.Machine.execFltresResume fn token s
  | .fltresKill fn token => Sys2Proof.Machine.execFltresKill fn token s
  | .sliceEnd fn => Sys2Proof.Machine.execSliceEnd fn s
  | .sliceEndComplete fn => Sys2Proof.Machine.execSliceEndComplete fn s
  | .preempt fn => Sys2Proof.Machine.execPreempt fn s
  | .handlerStart grp => Sys2Proof.Machine.execHandlerStart grp s
  | .resume fn => Sys2Proof.Machine.execResume fn s
  | .restoreAdmission unit => Sys2Proof.Machine.execRestoreAdmission unit s
  | .retire fn => Sys2Proof.Machine.execRetire fn s
  | .inval fn => Sys2Proof.Machine.execInval fn s
  | .setfa fn => Sys2Proof.Machine.execSetfa fn s
  | .keygen fn => Sys2Proof.Machine.execKeygen fn s
  | .keydel fn => Sys2Proof.Machine.execKeydel fn s
  | .late fn signed version running family => Sys2Proof.Machine.execLate fn signed version running family s
  | .confset fn => Sys2Proof.Machine.execConfset fn s
  | .reset fn => Sys2Proof.Machine.execReset fn s
  | .rotate fn => Sys2Proof.Machine.execRotate fn s
  | .dtlimExpiry fn => Sys2Proof.Machine.execDtlimExpiry fn s
  | .coreFence core hit => Sys2Proof.Machine.execCoreFence core hit s
  | .flr vf => Sys2Proof.Machine.execFlr vf s
  | .lockInterface vf => Sys2Proof.Machine.execLockInterface vf s
  | .startInterface vf => Sys2Proof.Machine.execStartInterface vf s
  | .stopInterface vf => Sys2Proof.Machine.execStopInterface vf s
  | .getVersion fn => Sys2Proof.Machine.execGetVersion fn s
  | .getCapabilities fn => Sys2Proof.Machine.execGetCapabilities fn s
  | .negotiateAlgorithms fn => Sys2Proof.Machine.execNegotiateAlgorithms fn s
  | .getDigests fn => Sys2Proof.Machine.execGetDigests fn s
  | .getCertificate fn => Sys2Proof.Machine.execGetCertificate fn s
  | .challenge fn => Sys2Proof.Machine.execChallenge fn s
  | .getMeasurements fn index => Sys2Proof.Machine.execGetMeasurements fn index s
  | .keyExchange fn => Sys2Proof.Machine.execKeyExchange fn s
  | .finish fn => Sys2Proof.Machine.execFinish fn s
  | .keyUpdate fn => Sys2Proof.Machine.execKeyUpdate fn s
  | .heartbeat fn => Sys2Proof.Machine.execHeartbeat fn s
  | .endSession fn => Sys2Proof.Machine.execEndSession fn s
  | .ideKm fn stream => Sys2Proof.Machine.execIdeKm fn stream s
  | .hostAccess a => Sys2Proof.Machine.execHostAccess a s
  | .hostCompletionTimeout op => Sys2Proof.Machine.execHostCompletionTimeout op s
  | .go fn ctx val => Sys2Proof.Machine.execGo fn ctx val s
  | .stop fn ctx => Sys2Proof.Machine.execStop fn ctx s
  | .launchQueueEnable fn q val => Sys2Proof.Machine.execLaunchQueueEnable fn q val s
  | .ringEnable fn ring val => Sys2Proof.Machine.execRingEnable fn ring val s
  | .clusterEntryWrite cluster val => Sys2Proof.Machine.execClusterEntryWrite cluster val s
  | .scratchRangeWrite die unit idx val => Sys2Proof.Machine.execScratchRangeWrite die unit idx val s
  | .fnstatWrite fn val => Sys2Proof.Machine.execFnstatWrite fn val s
  | .slotArm fn die slot val => Sys2Proof.Machine.execSlotArm fn die slot val s
  | .slotDisarm fn die slot val => Sys2Proof.Machine.execSlotDisarm fn die slot val s
  | .efscRead fn die slot => Sys2Proof.Machine.execEfscRead fn die slot s
  | .efbgRead fn die v => Sys2Proof.Machine.execEfbgRead fn die v s
  | .efrpRead fn die ring => Sys2Proof.Machine.execEfrpRead fn die ring s
  | .fdropRead fn die src => Sys2Proof.Machine.execFdropRead fn die src s
  | .claim fn core bank => Sys2Proof.Machine.execClaim fn core bank s
  | .release fn core bank => Sys2Proof.Machine.execRelease fn core bank s
  | .rvk fn core bank => Sys2Proof.Machine.execRvk fn core bank s
  | .revocationComplete core bank => Sys2Proof.Machine.execRevocationComplete core bank s
  | .dbcmdStop fn val => Sys2Proof.Machine.execDbcmdStop fn val s
  | .dbcmdStep fn val => Sys2Proof.Machine.execDbcmdStep fn val s
  | .dbcmdGo fn val => Sys2Proof.Machine.execDbcmdGo fn val s
  | .preciseStop grp fn => Sys2Proof.Machine.execPreciseStop grp fn s
  | .tuctlWrite fn core val => Sys2Proof.Machine.execTuctlWrite fn core val s
  | .tuctlRead fn core => Sys2Proof.Machine.execTuctlRead fn core s
  | .tbdataRead fn core => Sys2Proof.Machine.execTbdataRead fn core s
  | .traceTrigger die => Sys2Proof.Machine.execTraceTrigger die s
  | .cbselWrite fn core imm val => Sys2Proof.Machine.execCbselWrite fn core imm val s
  | .registerWrite fn off n val tbit => Sys2Proof.Machine.execRegisterWrite fn off n val tbit s
  | .eventRecord die rec => Sys2Proof.Machine.execEventRecord die rec s
  | .noeligRunEnd sched => Sys2Proof.Machine.execNoeligRunEnd sched s
  | .histIntervalEnd sched => Sys2Proof.Machine.execHistIntervalEnd sched s
  | .efcDispatch die => Sys2Proof.Machine.execEfcDispatch die s
  | .filterRunStart die => Sys2Proof.Machine.execFilterRunStart die s
  | .budgetWindowStart => Sys2Proof.Machine.execBudgetWindowStart s
  | .powerEvaluation watts tj over10 under10 => Sys2Proof.Machine.execPowerEvaluation watts tj over10 under10 s
  | .flitReceive path op elem crcOk => Sys2Proof.Machine.execFlitReceive path op elem crcOk s
  | .pathDown path => Sys2Proof.Machine.execPathDown path s
  | .dataFlit peer kg fctr seq tagOk c => Sys2Proof.Machine.execDataFlit peer kg fctr seq tagOk c s
  | .markerFlit peer kg fctr seq count tagOk => Sys2Proof.Machine.execMarkerFlit peer kg fctr seq count tagOk s
  | .ackFlit peer seq => Sys2Proof.Machine.execAckFlit peer seq s
  | .refusalFlit peer seq => Sys2Proof.Machine.execRefusalFlit peer seq s
  | .staleFlit peer flit => Sys2Proof.Machine.execStaleFlit peer flit s
  | .retransmitTimeout peer seq => Sys2Proof.Machine.execRetransmitTimeout peer seq s
  | .transportGiveUp peer seq => Sys2Proof.Machine.execTransportGiveUp peer seq s
  | .rotationRequest peer => Sys2Proof.Machine.execRotationRequest peer s
  | .keyGraceExpiry side => Sys2Proof.Machine.execKeyGraceExpiry side s
  | .chunkReduce coll chunk => Sys2Proof.Machine.execChunkReduce coll chunk s
  | .collComplete coll => Sys2Proof.Machine.execCollComplete coll s
  | .ctmoExpiry coll => Sys2Proof.Machine.execCtmoExpiry coll s
  | .powerOn b => Sys2Proof.Machine.execPowerOn b s
  | .perst => Sys2Proof.Machine.execPerst s
  | .lifeCycleChange => Sys2Proof.Machine.execLifeCycleChange s
  | .d3hotEntry => Sys2Proof.Machine.execD3hotEntry s
  | .d3cold => Sys2Proof.Machine.execD3cold s
  | .d3hotExit => Sys2Proof.Machine.execD3hotExit s
  | .debugStateChange dbg => Sys2Proof.Machine.execDebugStateChange dbg s
  | .firmwareImageLoad good version image => Sys2Proof.Machine.execFirmwareImageLoad good version image s
  | .externalPortDown x => Sys2Proof.Machine.execExternalPortDown x s
  | .externalPortUp x => Sys2Proof.Machine.execExternalPortUp x s
  | .keyInstalled k => Sys2Proof.Machine.execKeyInstalled k s
  | .nakFlit peer flit => Sys2Proof.Machine.execNakFlit peer flit s

end Sys2Proof.Machine
end

