-- ==== Sys2Proof/Machine/Place.lean ====
section
/-! DEFINITION. Placing one instruction where the next step fetches it: what the launch of a program leaves, for one group, one context or one
filter pipe (log 10). -/

namespace Sys2Proof.Machine

/-- The state with the rest of its agenda. -/
def State.withAgenda (s : State) (l : List Item) : State := { s with agenda := l }

/-- A fragment that holds path slot 0 and is about to issue at PC 0. -/
def startFrag (mask : Nat) : Frag := { Frag.empty with fst := .live, slot := 1, mask := mask }

/-- The one owner of a placed group: PF, all of its lanes. -/
def startOwner (lanes : Nat) : Owner := { Owner.empty with valid := true, lanes := lanes }

/-- A live group of one owner, about to issue its first instruction. -/
def startGroup (lanes : Nat) : Group :=
  { Group.empty with live := true, code := 1, regs := 320, pres := lanes, owners := [(0, startOwner lanes)], frags := [(0, startFrag lanes)],
                     births := 1 }

/-- The number of a code object that a placement uses. -/
def placedCode (nbits w : Nat) : Code := { Code.empty with text := toBytes w (nbits / 8), regs := 320 }

/-- Bytes of the longest core instruction: those above `nbits` are 0, as far as the instruction's own length asks. -/
def placedBits (nbits w : Nat) : Nat := max nbits (lenBits (w % 4))

/-- A handler that runs in the placed group: RETT and MTSR execute only in one (R304). -/
def placedHandler : Handler :=
  { fn := 0, level := 2, restore := false, cause := cPreempt, code := 1, area := 0, warea := 0, unit := 0, idx := 0, owners := [], pres := 0,
    frozen := [], header := [], shadow := [], inner := [], guest := none, failed := false, vstatus := 0, vflags := 0, clk := 0 }

/-- The run of a placed filter instruction. -/
def placedRun : Run :=
  { slot := 0, src := 0, word := 0, carry := 0, regs := [], pc := 0, steps := 0, window := 0, readyT := 0, nlen := 0, own := 0, code := [], old := false }

/-- Place an instruction. -/
def State.placed (s : State) (nbits w : Nat) : State :=
  if nbits = 32 then
    runAll s (Prog.all [
      Prog.efc 0 0 w,
      Prog.put (.efcs 0 { s.efcsAt 0 with pipes := Tab.put (fun _ => none) (s.efcsAt 0).pipes 0 (some { placedRun with code := [w] }) }),
      Prog.put (.agenda [.issue (.pipe 0 0)])] s)
  else
    let op := opcOf (w / 4 % 256)
    let seq := (match op with | some o => seqOnly o | none => false)
    let g := startGroup 0xFFFF
    let g1 := if op = some .rett ∨ op = some .mtsr then { g with handler := some placedHandler, status := 4 } else g
    let c := placedCode (placedBits nbits w) w
    if seq then
      runAll s (Prog.all [
        Prog.put (.codes 1 c),
        Prog.put (.ctxs 0 { Ctx.empty with g := { startGroup 1 with regs := 16 }, state := 1, owned := true }),
        Prog.put (.agenda [.issue (.ctx 0)])] s)
    else
      runAll s (Prog.all [
        Prog.put (.codes 1 c),
        Prog.put (.groups 0 g1),
        Prog.put (.agenda [.issue (.grp 0 0)])] s)

end Sys2Proof.Machine
end

