-- ==== Sys2Proof/Machine/Head.lean ====
section
/-! DEFINITION. What the scheduler reads of an instruction: its header (R50), whether it is group-wide (R16), and whether it is a synchronising operation
(R139). -/

namespace Sys2Proof.Machine

/-- The header of an encoded instruction of the Mladys set. -/
def hdrOf : Instr → Option Hdr
  | .iadd h _ _ _ _ _ => some h
  | .isub h _ _ _ _ _ => some h
  | .imul h _ _ _ _ _ => some h
  | .imulh h _ _ _ _ => some h
  | .imin h _ _ _ _ => some h
  | .imax h _ _ _ _ => some h
  | .imad h _ _ _ _ _ _ => some h
  | .iabs h _ _ _ _ => some h
  | .lop h _ _ _ _ _ => some h
  | .shf h _ _ _ _ _ => some h
  | .bfx h _ _ _ _ _ => some h
  | .bfi h _ _ _ _ _ => some h
  | .bitc h _ _ _ _ _ => some h
  | .sel h _ _ _ _ _ => some h
  | .icmp h _ _ _ _ _ => some h
  | .fadd h _ _ _ _ => some h
  | .fmul h _ _ _ _ => some h
  | .ffma h _ _ _ _ _ => some h
  | .fmnx h _ _ _ _ => some h
  | .fcmp h _ _ _ _ => some h
  | .fcls h _ _ => some h
  | .fspc h _ _ _ _ => some h
  | .hadd2 h _ _ _ _ _ => some h
  | .hmul2 h _ _ _ _ _ => some h
  | .hfma2 h _ _ _ _ _ _ => some h
  | .fdp4 h _ _ _ _ _ _ => some h
  | .cvtf h _ _ _ _ _ _ => some h
  | .cvti h _ _ _ _ _ _ => some h
  | .cvtq h _ _ _ _ _ => some h
  | .mov h _ _ _ => some h
  | .movi h _ _ _ => some h
  | .movs h _ _ => some h
  | .movg h _ _ _ => some h
  | .plog h _ _ => some h
  | .pset h _ => some h
  | .salu h _ _ _ _ => some h
  | .smov h _ _ => some h
  | .scmp h _ _ _ _ _ => some h
  | .ssel h _ _ _ _ => some h
  | .sld h _ _ _ _ _ => some h
  | .bra h _ => some h
  | .jmp h _ => some h
  | .call h _ _ => some h
  | .ret h _ => some h
  | .exit h => some h
  | .nop h => some h
  | .yield h => some h
  | .ld h _ _ _ _ _ _ => some h
  | .st h _ _ _ _ _ _ => some h
  | .brd h _ _ => some h
  | .knot h _ => some h
  | .join h => some h
  | .vote h _ => some h
  | .elect h _ => some h
  | .matchl h _ _ _ => some h
  | .ownq h _ _ => some h
  | .fragq h _ _ => some h
  | .shfl h _ _ _ _ _ => some h
  | .bcst h _ _ _ _ => some h
  | .rdln h _ _ _ _ => some h
  | .lred h _ _ _ _ => some h
  | .prfx h _ _ _ _ => some h
  | .backoff h _ => some h
  | .launchNow h _ _ _ => some h
  | .launchArm h _ _ _ _ _ => some h
  | .ldaq h _ _ _ _ _ _ => some h
  | .strl h _ _ _ _ _ _ => some h
  | .tmov h _ _ _ => some h
  | .sptst h _ _ _ _ => some h
  | .spcst h _ _ _ _ _ => some h
  | .atom h _ _ _ _ _ _ _ _ => some h
  | .ared h _ _ _ _ _ _ _ => some h
  | .acas h _ _ _ _ _ _ _ _ => some h
  | .atomf h _ _ _ _ _ _ _ _ => some h
  | .fence h _ _ => some h
  | .bari h _ _ _ _ _ _ => some h
  | .barv h _ _ _ _ _ => some h
  | .bwait h _ _ _ _ => some h
  | .btest h _ _ _ _ _ => some h
  | .tpack h _ _ _ => some h
  | .tunpk h _ _ => some h
  | .wload h _ _ _ _ _ => some h
  | .afeed h _ _ _ _ _ => some h
  | .adrain h _ _ _ _ _ => some h
  | .mlatch h _ _ _ => some h
  | .mmul h _ _ _ _ _ => some h
  | .mmulb h _ _ _ _ _ => some h
  | .mzero h _ _ _ => some h
  | .bfence h _ => some h
  | .bwaita h _ => some h
  | .waitc h _ _ => some h
  | .tsig h _ _ => some h
  | .tcopy h _ _ _ => some h
  | .gath h _ _ _ _ _ _ => some h
  | .coll h _ _ _ => some h
  | .trap h _ => some h
  | .dbrk h _ => some h
  | .rett h => some h
  | .mfsr h _ _ _ => some h
  | .mtsr h _ _ _ => some h
  | .ckpt h _ => some h
  | .evtx h _ _ => some h
  | _ => none

/-- Whether the guard of an instruction is a q register (R16). -/
def groupWide : Instr → Bool
  | .bra _ _ => true
  | .jmp _ _ => true
  | .call _ _ _ => true
  | .ret _ _ => true
  | .yield _ => true
  | .salu _ _ _ _ _ => true
  | .smov _ _ _ => true
  | .scmp _ _ _ _ _ _ => true
  | .ssel _ _ _ _ _ => true
  | .sld _ _ _ _ _ _ => true
  | .mfsr _ _ _ _ => true
  | .mtsr _ _ _ _ => true
  | .ckpt _ _ => true
  | .backoff _ _ => true
  | .mlatch _ _ _ _ => true
  | .mmul _ _ _ _ _ _ => true
  | .mmulb _ _ _ _ _ _ => true
  | .mzero _ _ _ _ => true
  | .bfence _ _ => true
  | .plog _ _ (.q _ _ _) => true
  | .pset _ (.q _ _) => true
  | _ => false

/-- The synchronising operations (R139). -/
def synchronises : Instr → Bool
  | .ld _ _ _ acq _ _ _ => acq
  | .ldaq _ _ _ acq _ _ _ => acq
  | .st _ _ _ rel _ _ _ => rel
  | .strl _ _ _ rel _ _ _ => rel
  | .fence _ _ _ => true
  | .atom _ _ _ _ _ _ _ _ _ => true
  | .acas _ _ _ _ _ _ _ _ _ => true
  | .ared _ _ _ _ _ _ _ _ => true
  | .atomf _ _ _ _ _ _ _ _ _ => true
  | .barv _ _ _ _ _ _ => true
  | .bwait _ _ _ _ _ => true
  | _ => false

end Sys2Proof.Machine
end

