-- ==== Sys2Proof/Machine/Ready.lean ====
section
/-! DEFINITION. Which fragments and contexts are ready, and what holds the others (R15, R21, R133, R139, Table 14.3). -/

namespace Sys2Proof.Machine

/-! ## Before issue -/

/-- A wave group that has another group's number and clock before it (R139): `c` is the other's clock, `n` its number. -/
def Group.clockAfter (g : Group) (c n : Nat) : Bool := decide (c < g.clk) || (decide (c = g.clk) && decide (n < g.gnum))

/-- Whether every fragment of a group that could still issue is held in a BWAIT (R139). -/
def Group.inBwait (g : Group) : Bool :=
  !g.liveFrags.isEmpty && g.liveFrags.all fun i => match (g.frag i).hold with
    | .bwait _ => true
    | .probe r => r.acc == .bwait
    | _ => false

/-- Whether another group of the wave is unfinished and keeps a group of this clock back (R139). -/
def Group.holdsClock (g h : Group) (w : Nat) : Bool :=
  h.wave == some w && (h.handler.isSome || (!h.usedFrags.isEmpty && !h.inBwait)) && g.clockAfter h.trueClk h.gnum

/-- Whether the logical clock holds a synchronising operation of a group (R139). A group of the wave that has not started stands at clock 0; one that has
been moved off a fenced core counts while it is saved. -/
def State.clockHeld (s : State) (k : Nat) : Bool :=
  let g := s.groupsAt k
  match g.wave with
  | none => false
  | some w =>
    g.handler.isNone &&
      (s.groups.any (fun p => p.1 != k && p.2.live && g.holdsClock p.2 w) ||
       s.saved.any (fun p => match p.2 with
         | some u => u.wgs.any (fun n => match s.wgsAt n with | some x => x.saved && !x.ended | none => false) && u.groups.any fun h => g.holdsClock h w
         | none => false) ||
       s.admits.any fun a => a.launch == w && (match s.wgsAt a.wg with
         | some x => g.clockAfter 0 (x.num * x.groups.length)
         | none => false))

/-- The machine after an issuer's next instruction, if it issued now. -/
def State.tried (s : State) (w : Issuer) (i : Instr) (pc : Nat) : Option State :=
  match exec i (runAll s (Prog.turnAt w pc s)) with
  | .next t => some t
  | _ => none

/-- Whether an instruction that was tried has stayed where it was: its stall gate is as it was (R15), it is not held, and it has made no fault. -/
def State.stayed (s t : State) (w : Issuer) : Bool :=
  let f := (t.grp w).frag (fragOf w)
  f.gate == ((s.grp w).frag (fragOf w)).gate && f.fst == .live && f.hold == .none && (t.grp w).stop == (s.grp w).stop &&
    (match w with
     | .ctx k => (t.ctxsAt k).state == (s.ctxsAt k).state
     | _ => true)

/-- Whether a slot of a group counts more than 63 (R21). -/
def Group.slotOver (g : Group) : Bool := g.frags.any fun p => p.2.sb.any fun q => decide (63 < q.2)

/-- JOIN. -/
def isJoin : Instr → Bool
  | .join _ => true
  | _ => false

/-- What holds an instruction before issue, as reasons of Table 14.3 in the order of the table: a full queue or counter, a fence or the range scoreboard (JOIN: no
room to wait), the logical clock, and scoreboard slots that it waits for or would raise above 63 (R21), now or when it leaves a hold that it would enter. -/
def State.issueWhys (s : State) (w : Issuer) (i : Instr) (pc : Nat) : List Nat :=
  let f := (s.grp w).frag (fragOf w)
  match hdrOf i with
  | none => []
  | some h =>
    let waits := [1, 2, 3, 4, 5, 6, 7].filter fun k => h.sbw.getLsbD (k - 1) && f.slotAt k != 0
    let sb := fun (l : List Nat) => if l.any fun k => bit f.sbm k then 0x0B else 0x0C
    let t := s.tried w i pc
    (match t with | some t => if s.stayed t w then [if isJoin i then 0x05 else 0x07] else [] | none => []) ++
      (if synchronises i && (match w with | .grp k _ => s.clockHeld k | _ => false) then [0x0A] else []) ++
      (if !waits.isEmpty then [sb waits]
       else match t with
         | some t => if (t.grp w).slotOver || (h.sbs.val != 0 && decide (63 ≤ f.slotAt h.sbs.val) && ((t.grp w).frag (fragOf w)).hold != .none) then [sb [h.sbs.val]]
           else []
         | none => [])

/-! ## Fragments -/

/-- The reason that a hold stands for: a probe that waits for nothing but room or a range is a queue hold. -/
def Hold.why : Hold → Nat
  | .none => 0
  | .probe r => if r.missing.isEmpty && r.op.isNone then 0x07 else 0x06
  | .barv _ _ | .bwait _ | .btest _ => 0x09
  | .bwaita _ _ _ _ | .waitc _ _ _ _ => 0x08
  | .rett _ => 0x01

/-- Whether a debug stop, an eviction or a failed handler keeps a fragment from issuing (R291, R301, R302, R304). -/
def Group.stopsFrag (g : Group) (i : Nat) : Bool :=
  g.evict || (g.stop.stopped && g.stop.step != some i) || g.handler.any fun h => h.failed

/-- Whether a fragment's stall gate (R15), a debug stop, or what its group follows (R185) keeps it from issuing. -/
def State.gated (s : State) (k : Nat) (g : Group) (i : Nat) : Bool := g.stopsFrag i || s.follower k || decide (s.cycle < (g.frag i).gate)

/-- What holds the next instruction of a fragment before issue, its stall gate apart. -/
def State.nextWhys (s : State) (k i : Nat) : List Nat :=
  match s.fetch (.grp k i) with
  | some (.instr n pc) => s.issueWhys (.grp k i) n pc
  | _ => []

/-- Whether a fragment is ready (R133). -/
def State.fragReady (s : State) (k i : Nat) : Bool :=
  let g := s.groupsAt k
  let f := g.frag i
  f.fst == .live && f.slot != 0 && f.hold == .none && !s.gated k g i && (s.nextWhys k i).isEmpty

/-- Whether the limits of R132 take a fragment's slot away now; the waiting order of a group that a debugger has stopped stands still (R301). -/
def State.slotLost (s : State) (g : Group) (i : Nat) : Bool :=
  let f := g.frag i
  f.fst == .live && f.slot != 0 && !g.waiting.isEmpty && !g.stop.stopped &&
    (decide (256 ≤ f.iss) || (!g.rpl && (match f.holdSince with
      | some c => decide (65 ≤ s.cycle - c)
      | none => false)))

/-- Why a fragment does not issue: the first row of Table 14.3 whose condition holds (R261). A slot that is given up in the cycle counts as held no longer, and a
stop of its group shows as the stall gate. -/
def State.fragWhy (s : State) (k i : Nat) : Nat :=
  let g := s.groupsAt k
  let f := g.frag i
  if f.slot = 0 ∨ s.slotLost g i = true then 0x04
  else if f.hold ≠ .none then f.hold.why
  else (s.nextWhys k i).headD 0x0D

/-- The fragment that a group's stall reason is taken from (R261). -/
def Group.stallFrag (g : Group) : Option Nat :=
  let l := if g.liveFrags.isEmpty then g.usedFrags else g.liveFrags
  l.foldl (fun (b : Option Nat) i => match b with
    | some j => if (g.frag i).born < (g.frag j).born then some i else b
    | none => some i) none

/-- The stall reason of a group, of which no fragment is ready (R261). A group without a fragment left counts as parked. -/
def State.groupWhy (s : State) (k : Nat) : Nat :=
  let g := s.groupsAt k
  if g.evict || g.handler.isSome then 0x01
  else if g.usedFrags.all fun i => (g.frag i).fst == .parked then 0x02
  else match g.stallFrag with
    | some i => s.fragWhy k i
    | none => 0x02

/-- The holds before issue that count as scoreboard holds (R132): waits for counters, and full queues, full counters and the range scoreboard. -/
def countsAsHold (why : Nat) : Bool := decide (why ∈ [0x05, 0x07, 0x0B, 0x0C])

/-- A group whose fragments' holds before issue are up to date: each counts from its first cycle (R132). -/
def State.withHolds (s : State) (k : Nat) (g : Group) : Group :=
  g.liveFrags.foldl (fun (g : Group) i =>
    let f := g.frag i
    if f.slot ≠ 0 ∧ f.hold = .none then
      g.setFrag i { f with holdSince := if !s.gated k g i && (s.nextWhys k i).any countsAsHold then some (f.holdSince.getD s.cycle) else none }
    else g) g

/-! ## Contexts -/

/-- Whether a running context issues in this cycle (R219): no stop takes effect first. -/
def State.ctxReady (s : State) (k : Nat) : Bool :=
  let c := s.ctxsAt k
  let f := c.g.frag 0
  c.state == 1 && f.fst == .live && f.hold == .none && decide (f.gate ≤ s.cycle) && !s.stopPoint k &&
    (match s.fetch (.ctx k) with
     | some (.instr n pc) => (s.issueWhys (.ctx k) n pc).isEmpty
     | _ => true)

end Sys2Proof.Machine
end

