-- ==== Sys2Proof/Machine/Choose.lean ====
section
/-! DEFINITION. The choice of a scheduler (R133), and what it counts: stall runs (R261), histograms (R262) and the counter banks (R365). -/

namespace Sys2Proof.Machine

/-! ## The choice (R133) -/

/-- A ready fragment: its group slot, its split entry, its priority class, its place in age order and its functions' lanes. -/
structure Ready where
  key : Nat
  frag : Nat
  prio : Nat
  order : Nat
  born : Nat
  mask : Nat
  deriving DecidableEq, Repr

/-- The function of a lane. -/
def State.laneVf (s : State) (k l : Nat) : Nat := ((s.groupsAt k).ownerOf l).vf

/-- The functions with a lane in a fragment. -/
def State.readyVfs (s : State) (r : Ready) : List Nat := ((lanesOf r.mask).map (s.laneVf r.key)).eraseDups

/-- The fragments of a group that may issue, precise stops apart. -/
def State.ableOf (s : State) (k : Nat) : List Nat :=
  let g := s.groupsAt k
  g.liveFrags.filter fun i => !s.slotLost g i && s.fragReady k i

/-- Whether the next instruction of a fragment is a CKPT that executes, which sets RETIRED to 0 (R310). -/
def State.atCkpt (s : State) (k i : Nat) : Bool := match s.fetch (.grp k i) with
  | some (.instr (.ckpt h _) _) => (s.groupsAt k).actQ ((s.groupsAt k).frag i).mask h != 0
  | _ => false

/-- The functions for which a group stops now: some fragment would issue an instruction that makes RETIRED exceed SRET (R359), or none is ready and one is in a hold
from which it would issue. -/
def State.stopFns (s : State) (k : Nat) : List Nat :=
  let l := (List.range 64).filter fun fn => s.preciseDue k fn
  let able := s.ableOf k
  let g := s.groupsAt k
  if !l.isEmpty && (able.any (fun i => !s.atCkpt k i) || (able.isEmpty && g.liveFrags.any fun i => (g.frag i).hold != .none)) then l else []

/-- The ready fragments of a group. -/
def State.readyOf (s : State) (k : Nat) : List Ready :=
  let g := s.groupsAt k
  if !(s.stopFns k).isEmpty then []
  else (s.ableOf k).map fun i =>
    let f := g.frag i
    { key := k, frag := i, prio := (g.ownerOf (lowest f.mask)).prio, order := g.order, born := f.born, mask := f.mask }

/-- The effective WT of a function's partition (R118, Table 5.2). -/
def State.weight (s : State) (vf : Nat) : Nat :=
  match s.gpaToHpa 0 (s.freeAt 0) (s.part vf 0) with
  | .ok a => effective 5 239 224 [s.load a 128, s.root]
  | .error _ => bits s.root 239 224

/-- The deficit counter of a function. -/
def Sched.deficit (x : Sched) (v : Nat) : Int := Tab.get (fun _ => 0) x.def_ v
def Sched.setDeficit (x : Sched) (v : Nat) (d : Int) : Sched := { x with def_ := Tab.put (fun _ => 0) x.def_ v d }

/-- How long ago a function was chosen: 0 for the last one. -/
def Sched.since (x : Sched) (v : Nat) : Nat := (findPos (· == v) x.recent).getD x.recent.length

/-- Whether function a comes before b (R133: rule 3). -/
def Sched.before (x : Sched) (a b : Nat) : Bool :=
  decide (x.deficit b < x.deficit a) ||
    (x.deficit a == x.deficit b && (decide (x.since b < x.since a) || (x.since a == x.since b && decide (a < b))))

/-- The best of a list under an order. -/
def best {α : Type} (before : α → α → Bool) : List α → Option α
  | [] => none
  | a :: t => match best before t with
    | none => some a
    | some b => if before b a then some b else some a

/-- The charge of an issue (R133: rule 5). -/
def State.charge (s : State) (x : Sched) (r : Ready) : Sched :=
  let lanes := lanesOf r.mask
  let pay := fun (x : Sched) (v n : Nat) => x.setDeficit v (max (x.deficit v - n) (-16384))
  let rest := 16 - lanes.length
  let low := s.laneVf r.key (lowest r.mask)
  (s.readyVfs r).foldl (fun x v => pay x v ((lanes.filter fun l => s.laneVf r.key l == v).length + if v = low then rest else 0)) x

/-- One cycle of the choice: the scheduler after it, and the fragment to issue. -/
def State.choosing (s : State) (x : Sched) (l : List Ready) : Sched × Option Ready :=
  let top := l.foldl (fun m r => max m r.prio) 0
  let l1 := l.filter fun r => r.prio == top
  let vfs := (l1.flatMap s.readyVfs).eraseDups
  let x1 := vfs.foldl (fun (x : Sched) v => x.setDeficit v (min (x.deficit v + s.weight v) 16384)) x
  match best x1.before vfs with
  | none => (x, none)
  | some v =>
    match best (fun (a b : Ready) => decide (a.order < b.order) || (a.order == b.order && decide (a.born < b.born)))
        (l1.filter fun r => decide (v ∈ s.readyVfs r)) with
    | none => (x, none)
    | some r => (s.charge { x1 with recent := v :: x1.recent.filter (· != v) } r, some r)

/-! ## Stall runs and histograms (R261, R262) -/

/-- The longest run that one event tells of. -/
def runLimit : Nat := 65535

/-- The run in progress ends. -/
def Sched.endRun (x : Sched) : Sched := match x.run with
  | some r => { x with run := none, ended := x.ended ++ [r] }
  | none => x

/-- One stalled cycle of a reason and a group. -/
def Sched.stall (x : Sched) (r : Stall) : Sched :=
  let y := match x.run with
    | some q => if q.cause = r.cause ∧ q.grp = r.grp then { x with run := some { q with len := q.len + 1 } } else { x.endRun with run := some r }
    | none => { x with run := some r }
  match y.run with
  | some q => if runLimit ≤ q.len then y.endRun else y
  | none => y

/-- A run without a group. -/
def emptyStall (cyc : Nat) : Stall := { cause := 0, grp := 0, slot := 0, vf := 0, asid := 0, start := cyc, len := 1 }

/-- A cycle in a bin. -/
def Sched.bin (x : Sched) (b n : Nat) : Sched := { x with hist := Tab.put (fun _ => 0) x.hist b (Tab.get (fun _ => 0) x.hist b + n) }

/-- The cycles since the last one counted, without a group, up to cycle `cyc`. -/
def Sched.catchUp (x : Sched) (cyc : Nat) : Sched :=
  let n := cyc - x.seen
  let y := (List.range n).foldl (fun (x : Sched) i => x.stall (emptyStall (x.seen + i))) x
  { y.bin 0 n with seen := max cyc x.seen }

/-- What a scheduler counts of a cycle: its eligible groups, or its stall. -/
def Sched.count (x : Sched) (cyc eligible : Nat) (r : Stall) : Sched :=
  let y := x.catchUp cyc
  let z := if eligible = 0 then y.stall r else y.endRun
  { z.bin eligible 1 with seen := cyc + 1 }

/-- The groups resident on a scheduler, and the oldest of some. -/
def State.resident (s : State) (sk : Nat) : List Nat := s.groups.filterMap fun p => if p.1 / 64 = sk ∧ p.2.live = true then some p.1 else none
def State.oldest (s : State) (l : List Nat) : Option Nat := best (fun a b => decide ((s.groupsAt a).order < (s.groupsAt b).order)) l

/-- The stalled cycle of a scheduler whose groups are given. -/
def State.stallOf (s : State) (ks : List Nat) : Stall :=
  match s.oldest ks with
  | none => emptyStall s.cycle
  | some k =>
    let g := s.groupsAt k
    { cause := s.groupWhy k, grp := g.order + 1, slot := k % 64, vf := (g.trueOwner 0).vf, asid := (g.trueOwner 0).asid, start := s.cycle, len := 1 }

/-- One cycle of a scheduler: what it becomes, its stall where no group was eligible, and the fragment that it issues. -/
def State.schedule (s : State) (sk : Nat) : Sched × Option Stall × Option Ready :=
  let ks := s.resident sk
  let l := ks.flatMap s.readyOf
  let n := (l.map (·.key)).eraseDups.length
  let st := s.stallOf ks
  let (x, r) := s.choosing (s.schedsAt sk) l
  (x.count s.cycle n st, if n = 0 then some st else none, r)

/-! ## Counters (R365) -/

/-- What a cycle of a core gives its counters: issues, as function mask lanes, and stalls. -/
structure Counted where
  issues : List (Nat × Nat × Nat)
  stalls : List Stall
  deriving DecidableEq, Repr

/-- The lanes active at an issue (R16): for a group-wide instruction those of the class slots in which its guard holds. -/
def State.activeAt (s : State) (k i : Nat) : Nat :=
  let g := s.groupsAt k
  let m := (g.frag i).mask
  match s.fetch (.grp k i) with
  | some (.instr n _) => (match hdrOf n with
    | some h => if groupWide n then g.lanesIn m (g.actQ m h) else g.act m h
    | none => 0)
  | _ => 0

/-- Whether a holder may see a function (R267: in confidential mode). -/
def State.seesFn (s : State) (holder vf : Nat) : Bool := !s.sec.conf || vf == 0 || vf == holder

/-- What one counter adds in a cycle: `issues` are group slot, mask and active lanes. Cycles are counted once (DEDUCED), and with FALL, which counts only where the
PF holds the bank, every function that the holder may see. -/
def State.counterAdd (s : State) (holder sel : Nat) (c : Counted) : Nat :=
  let all := bit sel 51 && holder == 0
  let mine := fun (v : Nat) => s.seesFn holder v && (all || v == bits sel 57 52)
  let e := bits sel 63 58
  if e = 1 then (c.issues.filter fun x => (lanesOf x.2.1).any fun l => mine (s.laneVf x.1 l)).length
  else if e = 2 then (if all || s.seesFn holder (bits sel 57 52) then 1 else 0)
  else if e = 3 then c.issues.foldl (fun n x => n + ((lanesOf x.2.2).filter fun l => mine (s.laneVf x.1 l)).length) 0
  else if 0x10 ≤ e ∧ e ≤ 0x1D then (c.stalls.filter fun t => t.cause == e - 0x10 && mine t.vf).length
  else 0

/-- Who drives a bank: its holder, and in OPEN the PF where none holds it (R354). -/
def State.bankFn (s : State) (b : Bank) : Option Nat := match b.hold with
  | some h => some h
  | none => if s.dbg = 2 then some 0 else none

/-- A bank after a cycle. -/
def State.bankCycle (s : State) (b : Bank) (c : Counted) : Bank :=
  match s.bankFn b with
  | none => b
  | some h => { b with val := (List.range 8).foldl (fun (t : Tab Nat) i =>
      let n := s.counterAdd h (Tab.get (fun _ => (0 : DWord)) b.sel i).toNat c
      if n = 0 then t else Tab.put (fun _ => 0) t i ((Tab.get (fun _ => 0) t i + n) % 2 ^ 64)) b.val }

end Sys2Proof.Machine
end

