-- ==== Sys2Proof/Machine/Tick.lean ====
section
/-! DEFINITION. A cycle of the arithmetic clock: time passes, results land, each scheduler and context chooses, and the events of the cycle are listed
(log 1). What happens at a known moment is listed when it is due; what may happen at any moment (R20) is listed where a free choice says so. -/

namespace Sys2Proof.Machine

/-! ## Time (R1, R350) -/

/-- Length of an arithmetic cycle in units of 1/2618 ns. -/
def cycleTime (p : Nat) : Nat := if p = 0 then 3080 else if p = 1 then 3740 else if p = 2 then 4760 else 6545

/-- The next cycle: the one in progress took its length at its start, and the P-state gives the next one's. -/
def Prog.advance : Prog := fun s =>
  [.cycle (s.cycle + 1), .time (s.time + s.sec.span)] ++
    if s.sec.span = cycleTime s.sec.pstate then [] else [.sec { s.sec with span := cycleTime s.sec.pstate }]

/-- Fixed-latency results that are readable take their registers (R19). DESIGN CHOICE: such a result counts as written for its slot (R21) as soon as it is
readable, at the start of cycle c + λ, so that a waiter may issue in that cycle (log 46). -/
def Prog.land : Prog := fun s =>
  (s.groups.filterMap fun p => if p.2.pend.any fun x => decide (x.ready ≤ s.cycle) then some (Effect.groups p.1 (p.2.commit s.cycle)) else none) ++
    s.ctxs.filterMap fun p => if p.2.g.pend.any fun x => decide (x.ready ≤ s.cycle) then some (Effect.ctxs p.1 { p.2 with g := p.2.g.commit s.cycle }) else none

/-- Steps that have issued are reported (R302). -/
def Prog.stepsDone : Prog := Prog.on fun s => Prog.each (fun (p : Nat × Group) => Prog.when p.2.stop.step.isSome (Prog.stepDone p.1)) s.groups

/-- Holds before issue begin or end (R132). -/
def Prog.holds : Prog := fun s =>
  s.groups.filterMap fun p =>
    let g := s.withHolds p.1 p.2
    if p.2.live = true ∧ g ≠ p.2 then some (Effect.groups p.1 g) else none

/-- The trace units that are on note the group that they trace, as it stands at the start of the cycle (Table 22.7: SYNC). -/
def Prog.snaps : Prog := fun s =>
  s.traces.filterMap fun p =>
    let g := s.groupsAt (p.1 * 256 + p.2.gsl)
    let l := if p.2.en && p.2.hold.isSome && g.live then tracePackets g p.2.gsl s.cycle else []
    if l = p.2.snap then none else some (Effect.traces p.1 { p.2 with snap := l })

/-- Whether an access that has passed its probe is still to read a line of memory. -/
def State.lineAwaited (s : State) (line : Nat) : Bool :=
  s.ops.any fun p => match p.2 with
    | some o => o.kind != .store && o.elems.any fun e => !e.got && (let k := if o.kind = .tmov then e.cmp else e.key; decide (k / 64 ≤ line) && decide (line ≤ (k + e.n - 1) / 64))
    | none => false

/-- Where a soft error that is corrected strikes: it is only counted (R298). -/
def softError : Nat := 2 ^ 96

/-- Errors that are due (R298, log 47): lines of memory or of the pattern die come to hold uncorrectable ones, and those that are corrected are counted. As the fault
of a lane's access is precise (R17, R299), an error does not come to a line between an access's probe and its reading. -/
def Prog.errorsDue : Prog := fun s =>
  let due := s.errors.filter fun p => decide (p.1 ≤ s.cycle) && (decide (281474976710656 ≤ p.2) || !s.lineAwaited (p.2 / 64))
  let soft := (due.filter fun p => decide (softError ≤ p.2)).length
  if due.isEmpty then []
  else .errors (s.errors.filter fun p => !decide (p ∈ due)) :: (if soft = 0 then [] else [.sec { s.sec with corrected := s.sec.corrected + soft }]) ++
    due.filterMap fun p =>
      if softError ≤ p.2 then none
      else if 2251799813685248 ≤ p.2 then some (.badLines ((p.2 - 2251799813685248) / 8) 1)
      else some (.badMem (p.2 / 64) 1)

/-! ## What may happen -/

/-- The events of an outstanding operation, the j-th: results of some free lanes, elements, sources, releases. -/
def State.opEvents (s : State) (j id : Nat) (o : Op) : List Instr :=
  let each := fun (f : Nat → Instr) => ((List.range o.elems.length).filter fun i => match o.elems[i]? with | some e => !e.done | none => false).map f
  let results := [.resultWriteback id 0 false, .resultWriteback id (BitVec.ofNat 16 (65535 - s.freeAt j % 65536)) false]
  let read := if o.read then [] else [.storeSourceRead id]
  match o.kind with
  | .result => [.resultWriteback id (BitVec.ofNat 16 (65535 - s.freeAt j % 65536)) false]
  | .load _ => results
  | .store => read ++ (if o.rel && !o.released then [.releasePerform id] else []) ++ each (.writePerform id)
  | .tmov => results ++ each (.writePerform id)
  | .rmw _ _ | .cas | .rmwf _ _ _ =>
    read ++ (if o.rel && !o.released then [.releasePerform id] else []) ++ each (.rmwPerform id) ++ (if o.outs.isEmpty then [] else results)
  | .arrive _ => (if o.released then [] else [.releasePerform id]) ++ each (.rmwPerform id) ++
      (if o.elems.all (·.done) then [.resultWriteback id 0 false] else [])
  | .fetch => [.resultWriteback id 0 false]
  | .fence _ | .signal _ _ _ _ => [.releasePerform id]
  | .operands => read

/-- The events of an engine operation. -/
def State.engEvents (s : State) (j id : Nat) (e : EngOp) : List Instr :=
  match e.kind with
  | .wload _ _ _ _ => if e.taken then [.writePerform id (s.freeAt j % 2048), .copyComplete id false] else []
  | .tcopy _ _ _ | .gath _ _ _ _ _ => if e.taken then [.writePerform id (s.freeAt j % max 1 e.kind.pieces), .copyComplete id false] else []
  | .feed _ _ _ _ _ => []
  | .drain _ _ _ rows _ => if rows ≤ e.steps then [.drainComplete id] else []
  | .coll _ d =>
    if !e.taken then [.releasePerform id]
    else
      let next := (List.range (s.collChunks d)).find? fun c => c % s.collN d == s.collRank d && (s.chunkStat d c).isNone
      (match next with | some c => [.chunkReduce id c] | none => []) ++ [.collComplete id]

/-- The event that ends a hold. -/
def holdEvents (w : Issuer) (f : Frag) : List Instr :=
  let core := coreOf w
  match f.hold with
  | .none => []
  | .probe r => r.missing.map fun m => .translationFill core m.vf m.asid m.page
  | .barv _ _ => [.barvReturn w]
  | .bwait _ => [.bwaitComplete w]
  | .btest _ => [.btestReturn w]
  | .bwaita _ _ _ _ => [.bwaitaComplete w]
  | .waitc _ _ _ _ => [.waitcComplete w]
  | .rett _ => match w with
    | .grp k _ => [.rettComplete k]
    | _ => []

/-- The event by which the outstanding command of a function goes on; LATE's verdict comes from outside. -/
def cmdEvents (fn : Nat) (c : Cmd) : List Instr :=
  match c.op with
  | 1 => [if c.begun then .sliceEndComplete fn else .sliceEnd fn]
  | 2 => [.preempt fn]
  | 3 => [.resume fn]
  | 4 => [.retire fn]
  | 5 => [.inval fn]
  | 6 => [.setfa fn]
  | 7 => [.keygen fn]
  | 8 => [.keydel fn]
  | 10 => [.confset fn]
  | 11 => [.reset fn]
  | 12 => [.rotate fn]
  | _ => []

/-- The events of a function: its rings, its command and its reset. -/
def State.fnEvents (s : State) (fn : Nat) (f : Func) : List Instr :=
  (if f.faultWait.isEmpty then [] else [.faultRecordDelivery fn false]) ++ (if f.statWait.isEmpty then [] else [.statusEntryWrite fn false]) ++
    (match f.cmd with | some c => cmdEvents fn c | none => []) ++
    (if f.fnReset = 1 ∧ s.vfBusy fn = false then [.flr fn] else if f.fnReset = 2 ∧ s.vfBusy fn = false then [.stopInterface fn] else [])

/-- The events of the engines of a core. -/
def coreEvents (core : Nat) (c : Core) : List Instr :=
  (if c.copyQ.isEmpty then [] else [.copyStart (clusterOf core)]) ++ (if c.feedQ.isEmpty then [] else [.feedRowAppend core]) ++
    (if c.drainQ.isEmpty then [] else [.drainRow core])

/-- Every event that may happen in this cycle. -/
def State.possible (s : State) : List Instr :=
  (s.ops.zipIdx.flatMap fun p => match p.1.2 with | some o => s.opEvents p.2 p.1.1 o | none => []) ++
  (s.engs.zipIdx.flatMap fun p => match p.1.2 with | some e => s.engEvents p.2 p.1.1 e | none => []) ++
  (s.cores.flatMap fun p => coreEvents p.1 p.2) ++
  (s.groups.flatMap fun p => if p.2.live then p.2.frags.flatMap (fun f => holdEvents (.grp p.1 f.1) f.2) ++
      (if p.2.evict then [.handlerStart p.1] else []) ++ [.groupEnd p.1] else []) ++
  (s.ctxs.flatMap fun p => holdEvents (.ctx p.1) (p.2.g.frag 0) ++ (if p.2.closed.isEmpty then [] else [.batchComplete p.1])) ++
  [.marketVisit] ++
  (s.admits.map fun a => .admission a.wg) ++
  (s.launches.flatMap fun p => match p.2 with | some l => [.waveStart p.1, .launchComplete p.1].drop (if recDet l.rec_ then 0 else 1) | none => []) ++
  (s.wgs.filterMap fun p => if p.2.isSome then some (.workgroupEnd p.1) else none) ++
  (s.fns.flatMap fun p => s.fnEvents p.1 p.2) ++
  (s.saved.filterMap fun p => if p.2.isSome then some (.restoreAdmission p.1) else none) ++
  (s.traces.filterMap fun p => if p.2.rvk then some (.revocationComplete p.1 false) else none) ++
  (s.banks.filterMap fun p => if p.2.rvk then some (.revocationComplete p.1 true) else none)

/-- Those that do (log 2), and the free choices drawn. -/
def State.happening (s : State) : List Instr × Nat :=
  let l := s.possible
  ((l.zipIdx.filter fun p => !Config.freeBool (s.fresh + p.2)).map (·.1), l.length)

/-! ## What is due -/

/-- The limits of path slots (R132). -/
def State.slotLimits (s : State) : List Instr :=
  s.groups.flatMap fun p => if p.2.live then (p.2.liveFrags.filter (s.slotLost p.2)).map fun i =>
      if 256 ≤ (p.2.frag i).iss then .pathSlotIssueLimit p.1 i else .pathSlotHoldLimit p.1 i
    else []

/-- Timers of a peer link (R320, R323, R324). -/
def peerTimers (peer : Nat) (p : Peer) : List Instr :=
  (((p.out ++ p.waiting).map (·.seq)).eraseDups.flatMap fun q => [.retransmitTimeout peer q, .transportGiveUp peer q]) ++
    (if 70368744177664 ≤ p.fctr ∧ p.asked = false ∧ p.fresh = false then [.rotationRequest peer] else []) ++
    (if p.switched.isSome then [.keyGraceExpiry ⟨peer, false⟩] else []) ++ (if p.inSwitched.isSome then [.keyGraceExpiry ⟨peer, true⟩] else [])

/-- The dies whose histogram interval ends with this cycle (R262): all schedulers of a die end together. -/
def State.histDies (s : State) : List Nat := [0, 1, 2, 3].filter fun d => decide ((s.schedsAt (2048 * d)).histStart + s.histLen d ≤ s.cycle + 1)

/-- What happens in this cycle for certain. -/
def State.due (s : State) : List Instr :=
  s.slotLimits ++
  (s.groups.flatMap fun p => if p.2.live then (s.stopFns p.1).map fun fn => .preciseStop p.1 fn else []) ++
  (s.paths.filterMap fun p =>
    if (9 ≤ p.2 % 512 ∧ p.2 % 512 ≠ 256) ∨ (p.2 % 512 = 256 ∧ s.pairGone (p.1 / 2) = true ∧ s.pairAwaited (p.1 / 2) = true) then some (.pathDown p.1) else none) ++
  (s.ctxs.flatMap fun p => (if 65536 ≤ p.2.charge then [.batchChargeLimit p.1] else []) ++ (if s.stopPoint p.1 then [.contextStop p.1] else [])) ++
  (s.fns.filterMap fun p => match p.2.cmd with | some c => if c.op = 2 ∧ c.begun ∧ c.short then some (.dtlimExpiry p.1) else none | none => none) ++
  (s.engs.filterMap fun p => if (s.collOf p.1).isSome then some (.ctmoExpiry p.1) else none) ++
  (s.peers.flatMap fun p => peerTimers p.1 p.2)

/-! ## Schedulers, contexts and counters -/

/-- The schedulers whose cycle is counted: those that have counted before, those with a group, and those of counter banks that count; all of them when a run
without a group since reset reaches its limit, or an interval ends. -/
def State.schedulers (s : State) : List Nat :=
  if s.cycle % runLimit = runLimit - 1 ∨ s.histDies ≠ [] then List.range 8192
  else
    let counted : List Nat := (s.scheds.map fun p => p.1) ++ (s.groups.filterMap fun p => if p.2.live then some (p.1 / 64) else none) ++
      (s.banks.flatMap fun b => if (s.bankFn b.2).isSome then (List.range 4).map (4 * b.1 + ·) else [])
    counted.eraseDups.mergeSort

/-- The choices of a cycle: writes of the schedulers and banks, and the issues. -/
def State.issues (s : State) : List Effect × List Item :=
  let l := s.schedulers.map fun sk => (sk, s.schedule sk)
  let banks := s.banks.filterMap fun b => if (s.bankFn b.2).isNone then none else
    let mine := l.filter fun x => x.1 / 4 = b.1
    let c : Counted := { issues := mine.filterMap fun x => x.2.2.2.map fun r => (r.key, r.mask, s.activeAt r.key r.frag), stalls := mine.filterMap fun x => x.2.2.1 }
    some (Effect.banks b.1 (s.bankCycle b.2 c))
  ((l.map fun x => Effect.scheds x.1 x.2.1) ++ banks,
   (l.filterMap fun x => x.2.2.2.map fun r => Item.issue (.grp r.key r.frag)) ++
     s.ctxs.filterMap fun p => if s.ctxReady p.1 then some (Item.issue (.ctx p.1)) else none)

/-- The place of an issue in a cycle: by core and group slot, contexts last (R158). -/
def Item.place : Item → Nat
  | .issue (.grp k i) | .resume (.grp k i) => 16 * k + i
  | .issue (.ctx k) | .resume (.ctx k) => 2 ^ 32 + k
  | _ => 2 ^ 33

/-- An item enters a list that is in the order of places, behind those of its own. -/
def Item.insert (a : Item) : List Item → List Item
  | [] => [a]
  | b :: t => if a.place < b.place then a :: b :: t else b :: Item.insert a t

/-- The issues of a cycle and the instructions whose probes go on, in the order in which arms of one cycle count (R158). -/
def State.inOrder (s : State) (iss : List Item) : List Item := (iss ++ s.probing.map Item.resume).foldl (fun l a => a.insert l) []

/-- Stall runs that have ended, and histogram intervals that end, are told of (R261, R262). -/
def State.tellings (s : State) (dies : List Nat) : List Instr :=
  (s.scheds.flatMap fun p => p.2.ended.map fun _ => .noeligRunEnd p.1) ++
    dies.flatMap fun d => (List.range 2048).map fun i => .histIntervalEnd (2048 * d + i)

/-! ## EFC cycles (R264, R268) -/

/-- Begins of EFC cycles in [t, t + n). -/
def efcStarts (t n : Nat) : List Nat :=
  let first := ceilDiv t efcCycle
  (List.range 4).filterMap fun i => let x := (first + i) * efcCycle; if x < t + n then some x else none

/-- Whether a die's coprocessor has anything to do. -/
def State.efcActive (s : State) (d : Nat) : Bool :=
  let e := s.efcsAt d
  !e.pipes.isEmpty || !e.waiting.isEmpty || e.trig != 0 || s.fifos.any fun p => p.1 / 65536 == d && !p.2.recs.isEmpty

/-- One EFC cycle: a record is dispatched, matched runs start as pipes are free, and the pipes execute, a run's first instruction in the cycle of its start
(Table 15.4). -/
def State.efcItems (s : State) (t : Nat) : List Item :=
  let starts := fun (d : Nat) => List.replicate ((s.efcsAt d).waiting.length + 256) (Item.event (.filterRunStart d))
  [.clock t] ++ (if t / efcCycle % 1000 = 0 then [.event .budgetWindowStart] else []) ++
    ([0, 1, 2, 3].filter s.efcActive).flatMap fun d =>
      [.event (.efcDispatch d)] ++ starts d ++ ((List.range 4).map fun p => Item.issue (.pipe d p)) ++ [.event (.traceTrigger d)]

/-! ## The cycle -/

/-- Inputs that are due leave their list for the agenda. -/
def State.dueInputs (s : State) : List Instr := (s.inputs.filter fun p => decide (p.1 ≤ s.cycle)).map (·.2)
def State.laterInputs (s : State) : List (Nat × Instr) := s.inputs.filter fun p => !decide (p.1 ≤ s.cycle)

/-- The agenda of a cycle, after time has passed, results have landed and what comes from outside has taken effect. The EFC cycles come before the issues, so that what its trigger lines write in a trace comes
before the packets of the cycle's instructions (R362). A device that is not in D0 does nothing but what comes from outside. -/
def Prog.plan : Prog := fun s =>
  if s.sec.power ≠ 0 then []
  else
    let (es, iss) := s.issues
    let dies := s.histDies
    let t := runAll s es
    let (may, n) := s.happening
    let efc := (efcStarts s.time s.sec.span).flatMap s.efcItems
    es ++ [.fresh (s.fresh + n),
      .agenda (efc ++ (s.due ++ t.tellings dies).map Item.event ++ s.inOrder iss ++ may.map Item.event ++ s.agenda)]

/-- What is due from outside takes effect at the start of a cycle, before anything is chosen. -/
def Prog.fromOutside : Prog := fun s => [.inputs s.laterInputs, .agenda (s.dueInputs.map Item.event ++ [.plan])]

/-- One cycle. -/
def Prog.tick : Prog := Prog.all [
  Prog.advance,
  Prog.on fun s => Prog.when (s.sec.power == 0) (Prog.all [Prog.errorsDue, Prog.notesDue, Prog.land, Prog.stepsDone, Prog.holds, Prog.snaps]),
  Prog.fromOutside]

end Sys2Proof.Machine
end

