-- ==== Sys2Proof/Machine/Step.lean ====
section
/-! DEFINITION. One step of the machine: a tick of the clock when nothing is left to do in the cycle, otherwise the next item of the
agenda, an issue or an event (log 1). -/

namespace Sys2Proof.Machine

/-- An issuer's turn: fetch, decode and execute its next instruction, or raise its decode fault (R14, R17). -/
def issueStep (w : Issuer) (s : State) : Host.Outcome State Fault Refusal :=
  if s.canIssue w then
    match s.fetch w with
    | some (.instr i pc) => exec i (runAll s (Prog.turnAt w pc s))
    | some (.fault cause sec pc) => (Prog.decodeFault w cause sec pc).go s
    | none => .next s
  else .next s

/-- One step: a tick where nothing is left to do, otherwise the next item. -/
def step (s : State) : Host.Outcome State Fault Refusal :=
  match s.agenda with
  | [] => Prog.tick.go s
  | .event i :: r => exec i (s.withAgenda r)
  | .issue w :: r => issueStep w (s.withAgenda r)
  | .resume w :: r => (Prog.probeAgain w).go (s.withAgenda r)
  | .clock t :: r => .next (runAll s [.agenda r, .efcNow t])
  | .plan :: r => Prog.plan.go (s.withAgenda r)

/-- The state with an instruction placed where the next step fetches (log 10). -/
def State.withFetchWord (s : State) (nbits w : Nat) : State := s.placed nbits w

end Sys2Proof.Machine
end

