-- ==== Sys2Proof/Safety.lean ====
section
/-! DEFINITION. The terms in which the statements speak: a safe step, who issues, what an issue leaves unchanged, and what results do to
a group's registers once they take them. -/

namespace Sys2Proof

/-- Whether an instruction is one of the core or filter set, which have encodings; the others are events and commands. -/
def Instr.encoded : Instr → Bool
  | .iadd .. | .isub .. | .imul .. | .imulh .. | .imin .. | .imax .. | .imad .. | .iabs .. | .lop .. | .shf ..
  | .bfx .. | .bfi .. | .bitc .. | .sel .. | .icmp .. | .fadd .. | .fmul .. | .ffma .. | .fmnx .. | .fcmp .. | .fcls ..
  | .fspc .. | .hadd2 .. | .hmul2 .. | .hfma2 .. | .fdp4 .. | .cvtf .. | .cvti .. | .cvtq .. | .mov .. | .movi ..
  | .movs .. | .movg .. | .plog .. | .pset .. | .salu .. | .smov .. | .scmp .. | .ssel .. | .sld .. | .bra .. | .jmp ..
  | .call .. | .ret .. | .exit .. | .nop .. | .yield .. | .ld .. | .st .. | .brd .. | .knot .. | .join .. | .vote ..
  | .elect .. | .matchl .. | .ownq .. | .fragq .. | .shfl .. | .bcst .. | .rdln .. | .lred .. | .prfx .. | .backoff ..
  | .launchNow .. | .launchArm .. | .ldaq .. | .strl .. | .tmov .. | .sptst .. | .spcst .. | .atom .. | .ared ..
  | .acas .. | .atomf .. | .fence .. | .bari .. | .barv .. | .bwait .. | .btest .. | .tpack .. | .tunpk .. | .wload ..
  | .afeed .. | .adrain .. | .mlatch .. | .mmul .. | .mmulb .. | .mzero .. | .bfence .. | .bwaita .. | .waitc ..
  | .tsig .. | .tcopy .. | .gath .. | .coll .. | .trap .. | .dbrk .. | .rett .. | .mfsr .. | .mtsr .. | .ckpt ..
  | .evtx ..
  | .evld .. | .emov .. | .emovi .. | .ealu .. | .ecmp .. | .ebf .. | .ehash .. | .hinc .. | .hmax .. | .cmsu ..
  | .cmsq .. | .wsum .. | .trig .. | .emit .. | .eend => true
  | .resultWriteback .. | .storeSourceRead .. | .writePerform .. | .rmwPerform .. | .releasePerform ..
  | .translationFill .. | .pathSlotHoldLimit .. | .pathSlotIssueLimit .. | .marketVisit .. | .admission ..
  | .waveStart .. | .workgroupEnd .. | .groupEnd .. | .launchComplete .. | .copyStart .. | .copyComplete ..
  | .feedRowAppend .. | .drainRow .. | .drainComplete .. | .batchComplete .. | .batchChargeLimit .. | .contextStop ..
  | .barvReturn .. | .bwaitComplete .. | .btestReturn .. | .bwaitaComplete .. | .waitcComplete .. | .rettComplete ..
  | .faultRecordDelivery .. | .statusEntryWrite .. | .fltresResume .. | .fltresKill .. | .sliceEnd ..
  | .sliceEndComplete .. | .preempt .. | .handlerStart .. | .resume .. | .restoreAdmission .. | .retire .. | .inval ..
  | .setfa .. | .keygen .. | .keydel .. | .late .. | .confset .. | .reset .. | .rotate .. | .dtlimExpiry ..
  | .coreFence .. | .flr .. | .lockInterface .. | .startInterface .. | .stopInterface .. | .getVersion ..
  | .getCapabilities .. | .negotiateAlgorithms .. | .getDigests .. | .getCertificate .. | .challenge ..
  | .getMeasurements .. | .keyExchange .. | .finish .. | .keyUpdate .. | .heartbeat .. | .endSession .. | .ideKm ..
  | .hostAccess .. | .hostCompletionTimeout .. | .go .. | .stop .. | .launchQueueEnable .. | .ringEnable ..
  | .clusterEntryWrite .. | .scratchRangeWrite .. | .fnstatWrite .. | .slotArm .. | .slotDisarm .. | .efscRead ..
  | .efbgRead .. | .efrpRead .. | .fdropRead .. | .claim .. | .release .. | .rvk .. | .revocationComplete ..
  | .dbcmdStop .. | .dbcmdStep .. | .dbcmdGo .. | .preciseStop .. | .tuctlWrite .. | .tuctlRead .. | .tbdataRead ..
  | .traceTrigger .. | .cbselWrite .. | .registerWrite .. | .eventRecord .. | .noeligRunEnd .. | .histIntervalEnd ..
  | .efcDispatch .. | .filterRunStart .. | .budgetWindowStart .. | .powerEvaluation .. | .flitReceive .. | .pathDown ..
  | .dataFlit .. | .markerFlit .. | .ackFlit .. | .refusalFlit .. | .staleFlit .. | .retransmitTimeout ..
  | .transportGiveUp .. | .rotationRequest .. | .keyGraceExpiry .. | .chunkReduce .. | .collComplete .. | .ctmoExpiry ..
  | .powerOn .. | .perst .. | .lifeCycleChange .. | .d3hotEntry .. | .d3cold .. | .d3hotExit .. | .debugStateChange ..
  | .firmwareImageLoad .. | .externalPortDown .. | .externalPortUp .. | .keyInstalled .. | .nakFlit .. => false

/-- A step that does not stop. -/
def safeStep (s : Machine.State) : Prop := ∃ t, Machine.step s = .next t

end Sys2Proof

namespace Sys2Proof.Spec
open Sys2Proof.Machine

/-- What a step or a meaning answers. -/
abbrev Answer := Host.Outcome State Fault Refusal

/-! ## Who issues -/

/-- Issuer w has the turn: g is its group of registers, and fragment i of it is live (R14); a context runs while its STATE is 0b01
(Table 11.4a). -/
inductive Turn (s : State) : Issuer → Group → Nat → Prop where
  | group (k i : Nat) : s.turn = .grp k i → (s.groupsAt k).live = true → ((s.groupsAt k).frag i).fst = .live →
      Turn s (.grp k i) (s.groupsAt k) i
  | context (k : Nat) : s.turn = .ctx k → (s.ctxsAt k).state = 1 → ((s.ctxsAt k).g.frag 0).fst = .live →
      Turn s (.ctx k) (s.ctxsAt k).g 0

/-- The checking scoreboard has nothing to object to: CHECK.EN is 0, or the group has no result to come (R23). -/
def Calm (s : State) (w : Issuer) (g : Group) : Prop :=
  g.check.toNat % 2 = 0 ∨ (g.pend = [] ∧ ∀ p ∈ s.ops, ∀ o, p.2 = some o → sameAgent o.who w = false)

/-! ## Frames -/

/-- t is s but for the issuer's group of registers, which is g'. -/
def Others (s t : State) (w : Issuer) (g' : Group) : Prop :=
  match w with
  | .grp k _ => (∀ j, t.groupsAt j = if j = k then g' else s.groupsAt j) ∧ { t with groups := s.groups } = s
  | .ctx k => (∀ j, t.ctxsAt j = if j = k then { s.ctxsAt k with g := g' } else s.ctxsAt j) ∧ { t with ctxs := s.ctxs } = s
  | .pipe _ _ => False

/-- Group g' is g after fragment i issued an instruction and went to pc, with its stall gate at `gate`: its scoreboard slot counts the instruction
where it covers something (R21), and no register, other fragment or knot changes. -/
structure IssuedTo (g g' : Group) (i pc gate : Nat) (h : Hdr) (covers : Bool) : Prop where
  pc : (g'.frag i).pc = pc
  gate : (g'.frag i).gate = gate
  slot : ∀ n, (g'.frag i).slotAt n = (g.frag i).slotAt n + (if covers ∧ n = h.sbs.val ∧ n ≠ 0 then 1 else 0)
  same : (g'.frag i).fst = (g.frag i).fst ∧ (g'.frag i).mask = (g.frag i).mask ∧ (g'.frag i).slot = (g.frag i).slot ∧
    (g'.frag i).born = (g.frag i).born ∧ (g'.frag i).kix = (g.frag i).kix
  free : (g'.frag i).hold = .none ∧ (g'.frag i).holdSince = none ∧ (g'.frag i).iss = (g.frag i).iss + 1
  others : ∀ j, j ≠ i → g'.frag j = g.frag j
  counts : g'.retired = g.retired + 1 ∧ g'.clk = g.clk + 1
  rest : { g' with frags := g.frags, pend := g.pend, retired := g.retired, clk := g.clk } = g

/-- Group g' is g after fragment i issued an instruction of len bytes in cycle cyc: the PC moves past it and the stall gate opens STALL + 1 cycles
on (R15). -/
abbrev Issued (g g' : Group) (i len cyc : Nat) (h : Hdr) (covers : Bool) : Prop :=
  IssuedTo g g' i ((g.frag i).pc + len) (cyc + h.stall.val + 1) h covers

/-- The results of an issue stand in one pending entry at most: readable from cycle `ready`, in the scoreboard slot of the instruction where it
covers something (R16, R19). -/
structure Pending (g g' : Group) (i ready : Nat) (h : Hdr) (covers : Bool) (R : List Out → Prop) : Prop where
  entry : ∃ p : List Pend, g'.pend = g.pend ++ p ∧ p.length ≤ 1 ∧
    (∀ q ∈ p, q.ready = ready ∧ q.heirs = [i] ∧ q.slot = if covers then h.sbs.val else 0) ∧
    (covers = true → h.sbs.val ≠ 0 → p ≠ []) ∧ R (p.flatMap (·.outs))

/-- The instruction issues and completes: its results, which R describes, are readable lat cycles on (R19), and nothing else changes. -/
def Completes (s : State) (o : Answer) (w : Issuer) (g : Group) (i len lat : Nat) (h : Hdr) (covers : Bool) (R : List Out → Prop) : Prop :=
  ∃ t g', o = .next t ∧ Others s t w g' ∧ Issued g g' i len s.cycle h covers ∧ Pending g g' i (s.cycle + lat) h covers R

/-- t is s but for what `f` puts back; of a group's core, the trace unit that traces its slot may write packets into the core's trace buffer (R363). -/
def Traced (s t : State) (w : Issuer) : Prop :=
  match w with
  | .grp k _ =>
    (∀ a, a < traceKey (k / 256) 0 ∨ traceKey (k / 256) 16384 ≤ a → t.memAt a = s.memAt a) ∧
    (∀ c, c ≠ k / 256 → t.tracesAt c = s.tracesAt c) ∧
    ((s.tracesAt (k / 256)).gsl ≠ k % 256 ∨ s.recording (k / 256) = false → t.mem = s.mem ∧ t.traces = s.traces)
  | _ => t.mem = s.mem ∧ t.traces = s.traces

/-- t is s but for the issuer's group, which is g', and trace packets about it. -/
def OthersTraced (s t : State) (w : Issuer) (g' : Group) : Prop :=
  Others s { t with mem := s.mem, traces := s.traces } w g' ∧ Traced s t w

/-! ## What results do to a group (R7, R8, R11, R79) -/

/-- Results that write an n-bit value to v register d of every lane of act, and set flags: register d + 1 takes the upper half of a 64-bit value
(R8), and nothing else changes. -/
structure LandsV (act n d : Nat) (val : Nat → Int) (fl : Nat → Nat) (outs : List Out) : Prop where
  reg : ∀ (g : Group) (r l : Nat), l < 16 → (g.writeOuts outs).readV r l =
    if bit act l ∧ r = d then BitVec.ofInt 32 (val l)
    else if bit act l ∧ n = 64 ∧ r = d + 1 then BitVec.ofInt 32 (val l / 4294967296)
    else g.readV r l
  flags : ∀ (g : Group) (j : Nat), (g.writeOuts outs).flags.getLsbD j = true ↔
    g.flags.getLsbD j = true ∨ ∃ l, l < 16 ∧ bit act l = true ∧ bit (fl l) j = true
  rest : ∀ g : Group, { g.writeOuts outs with v := g.v, flags := g.flags } = g

/-- Results that write predicate register d of every lane of act; p0 stays 1 (R7). -/
structure LandsP (act d : Nat) (val : Nat → Bool) (fl : Nat → Nat) (outs : List Out) : Prop where
  reg : ∀ (g : Group) (r l : Nat), l < 16 → (g.writeOuts outs).readP r l =
    if bit act l ∧ r = d ∧ d ≠ 0 then val l else g.readP r l
  flags : ∀ (g : Group) (j : Nat), (g.writeOuts outs).flags.getLsbD j = true ↔
    g.flags.getLsbD j = true ∨ ∃ l, l < 16 ∧ bit act l = true ∧ bit (fl l) j = true
  rest : ∀ g : Group, { g.writeOuts outs with p := g.p, flags := g.flags } = g

/-- Results that write s register d, if `on`; s0 stays 0 (R7). -/
structure LandsS (on : Prop) (d : Nat) (val : BitVec 64) (outs : List Out) : Prop where
  wrote : on → ∀ g : Group, (g.writeOuts outs).readS d = if d = 0 then 0 else val
  reg : ∀ (g : Group) (r : Nat), r ≠ d → (g.writeOuts outs).readS r = g.readS r
  off : ¬ on → outs = []
  rest : ∀ g : Group, (g.writeOuts outs).v = g.v ∧ (g.writeOuts outs).p = g.p ∧ (g.writeOuts outs).q = g.q ∧
    (∀ c, (g.writeOuts outs).readCtl c = g.readCtl c)

/-- Results that write the bits of q register d for the class slots of act; q0 stays all ones (R7, R79). -/
structure LandsQ (act d : Nat) (val : Nat → Bool) (outs : List Out) : Prop where
  reg : ∀ (g : Group) (r c : Nat), c < 16 → ((g.writeOuts outs).readQ r).getLsbD c =
    if bit act c ∧ r = d ∧ d ≠ 0 then val c else (g.readQ r).getLsbD c
  rest : ∀ g : Group, { g.writeOuts outs with q := g.q } = g

/-- Results of a cross-lane operation: v register d of every lane of act, and STATUS.FILT of the lanes whose value was filtered (Table 1.2,
R141). -/
structure LandsX (act n d : Nat) (val : Nat → Int) (filt : Nat → Bool) (outs : List Out) : Prop where
  reg : ∀ (g : Group) (r l : Nat), l < 16 → (g.writeOuts outs).readV r l =
    if bit act l ∧ r = d then BitVec.ofInt 32 (val l)
    else if bit act l ∧ n = 64 ∧ r = d + 1 then BitVec.ofInt 32 (val l / 4294967296)
    else g.readV r l
  status : ∀ (g : Group) (j : Nat), (g.writeOuts outs).status.getLsbD j = true ↔
    g.status.getLsbD j = true ∨ ∃ l, l < 16 ∧ bit act l = true ∧ filt l = true ∧ j = 32 + l
  rest : ∀ g : Group, { g.writeOuts outs with v := g.v, status := g.status } = g

/-- What a software write of x leaves in a control register that holds old (Tables 1.2 to 1.5, R11, R107): STATUS and FLAGS clear the bits written as
1 among their W1C bits, FPCTL.DRM and CHECK.EN take theirs. -/
def ctlWrite (c : Ctl) (old x : BitVec 64) : BitVec 64 :=
  match c with
  | .status => old &&& ~~~(x &&& 0x0000FFFF00000000)
  | .flags => old &&& ~~~(x &&& 0x73F)
  | .fpctl => x &&& 3
  | .check => x &&& 1

/-- Results that write a control register by software, if `on`. -/
structure LandsCtl (on : Prop) (c : Ctl) (x : BitVec 64) (outs : List Out) : Prop where
  wrote : on → ∀ g : Group, (g.writeOuts outs).readCtl c = ctlWrite c (g.readCtl c) x
  others : ∀ (g : Group) (c' : Ctl), c' ≠ c → (g.writeOuts outs).readCtl c' = g.readCtl c'
  off : ¬ on → outs = []
  rest : ∀ g : Group, { g.writeOuts outs with status := g.status, fpctl := g.fpctl, flags := g.flags, check := g.check } = g

/-! ## Operands (R6, R25, R52, R54, R78) -/

/-- A lane's source register as an integer: a v register with the one above it, or an s register as the lane reads it (R22). -/
def lane (g : Group) (l : Nat) : Src → Int
  | .v r => (((g.readV r.val l).toNat + 4294967296 * (g.readV (r.val + 1) l).toNat : Nat) : Int)
  | .s r => ((g.laneS r.val l).toNat : Int)

/-- A B operand: IMM32 extends by its sign, but by zeros under .n64. -/
def laneI (zero : Bool) (g : Group) (l : Nat) : SrcI → Int
  | .reg r => lane g l r
  | .imm i => if zero then (i.toNat : Int) else i.toInt

/-- An integer read in n bits, signed or not. -/
def inBits (n : Nat) (signed : Bool) (x : Int) : Int := if signed then x.bmod (2 ^ n) else x % ((2 ^ n : Nat) : Int)

/-- An exact integer as the integer that an n-bit register holds after it: clamped under saturation, otherwise wrapped (R26, R82). -/
def narrowed (n : Nat) (signed sat : Bool) (x : Int) : Int :=
  if sat then max (minOf n signed) (min (maxOf n signed) x) else inBits n signed x

/-- ISAT where saturation changes the value (R26). -/
def satFlag (n : Nat) (signed sat : Bool) (x : Int) : Nat :=
  if sat ∧ (x < minOf n signed ∨ maxOf n signed < x) then 0x20 else 0

/-- A lane's source register as an n-bit pattern (R78). -/
def pattern (n : Nat) (g : Group) (l : Nat) (r : Src) : BitVec n := BitVec.ofInt n (lane g l r)

/-- A B operand as an n-bit pattern. -/
def patternI (n : Nat) (g : Group) (l : Nat) (r : SrcI) : BitVec n := BitVec.ofInt n (laneI false g l r)

/-! ## Operations outstanding (R20) -/

/-- t is s but for the issuer's group of registers, which is g', and a new outstanding operation, which takes the next number. -/
structure Starts (s t : State) (w : Issuer) (g' : Group) (op : Op) : Prop where
  ops : ∀ j, t.opsAt j = if j = s.nextId then some op else s.opsAt j
  next : t.nextId = s.nextId + 1
  others : Others s { t with ops := s.ops, nextId := s.nextId } w g'

/-- The instruction issues; where `on`, an operation that P describes is outstanding from then on, of its fragment and in its scoreboard
slot. No result is pending yet and nothing else changes. -/
def Begins (s : State) (o : Answer) (w : Issuer) (g : Group) (i len : Nat) (h : Hdr) (on covers : Bool) (P : Op → Prop) : Prop :=
  ∃ t g', o = .next t ∧ Issued g g' i len s.cycle h covers ∧ g'.pend = g.pend ∧
    (if on then ∃ op, Starts s t w g' op ∧ op.who = w ∧ op.slot = h.sbs.val ∧ op.heirs = [i] ∧ P op else Others s t w g')

/-! ## The common shapes of a result -/

/-- The active lanes (R16). -/
abbrev active (g : Group) (i : Nat) (h : Hdr) : Nat := g.act (g.frag i).mask h

/-- A lane instruction of group k's fragment i completes: v register d of every active lane takes its value, lat cycles on. -/
def LaneV (s : State) (o : Answer) (k i : Nat) (g : Group) (h : Hdr) (len lat n d : Nat) (val : Nat → Int) (fl : Nat → Nat) : Prop :=
  Completes s o (.grp k i) g i len lat h (active g i h != 0) (LandsV (active g i h) n d val fl)

/-- A lane instruction that writes a predicate register. -/
def LaneP (s : State) (o : Answer) (w : Issuer) (g : Group) (i : Nat) (h : Hdr) (len lat d : Nat) (val : Nat → Bool) (fl : Nat → Nat) : Prop :=
  Completes s o w g i len lat h (active g i h != 0) (LandsP (active g i h) d val fl)

/-- A group-wide instruction completes: s register d takes a value, unless its guard holds in no class slot (R16). -/
def GroupS (s : State) (o : Answer) (w : Issuer) (g : Group) (i : Nat) (h : Hdr) (len lat d : Nat) (val : BitVec 64) : Prop :=
  Completes s o w g i len lat h (g.actQ (g.frag i).mask h != 0) (LandsS (g.actQ (g.frag i).mask h ≠ 0) d val)

/-- A group-wide instruction that writes the bits of a q register for the class slots in which its guard holds. -/
def GroupQ (s : State) (o : Answer) (w : Issuer) (g : Group) (i : Nat) (h : Hdr) (len lat d : Nat) (val : Nat → Bool) : Prop :=
  Completes s o w g i len lat h (g.actQ (g.frag i).mask h != 0) (LandsQ (g.actQ (g.frag i).mask h) d val)

/-- The fragment is one class, which an instruction that is marked under R80 asks for. -/
def OneClass (g : Group) (i : Nat) : Prop := g.mixed (g.frag i).mask = false

/-- A lane instruction of variable latency: where a lane is active, results that P describes are outstanding (R16, R20). -/
def LaneLater (s : State) (o : Answer) (k i : Nat) (g : Group) (h : Hdr) (len : Nat) (P : List Out → Prop) : Prop :=
  Begins s o (.grp k i) g i len h (active g i h != 0) (active g i h != 0) fun op => op.kind = .result ∧ op.elems = [] ∧ P op.outs

/-- Lane j is an active lane of lane l's class: act ∩ cls(L) (R141). -/
def inClass (g : Group) (act l j : Nat) : Bool := bit act j && g.clsOf j == g.clsOf l

/-- The lanes of act ∩ cls(L), ascending. -/
def classLanes (g : Group) (act l : Nat) : List Nat := (List.range 16).filter (inClass g act l)

/-- The class slots with a lane in a mask. -/
def slotsOf (g : Group) (act : Nat) : Nat := maskWhere fun c => (List.range 16).any fun l => bit act l && g.clsOf l == c

/-- No flag is set. -/
def noFlags : Nat → Nat := fun _ => 0

/-! ## Memory accesses (R56, R114, R115, R172) -/

/-- The address of lane l (R56, R114). -/
def address (g : Group) (l : Nat) : MAddr → Nat
  | .reg b off => (pattern 64 g l b + off.signExtend 64).toNat
  | .const off => (0xF900000000000000 + off.signExtend 64).toNat

/-- An access that starts at once: some lane takes part, the probe of every lane that does finds the locations `at_` of its address, and neither an entry
of the range scoreboard nor an acquiring fence holds it (R172, R194, R206). -/
structure Reaches (s : State) (w : Issuer) (g : Group) (h : Hdr) (act : Nat) (acc : Access) (scope : Scope) (lanes : List LaneReq)
    (at_ : Nat → List Got) : Prop where
  some : lanes ≠ []
  ok : ∀ q ∈ lanes, s.laneGot w g { acc := acc, scope := scope, hdr := h, act := act, lanes := lanes, missing := [], faults := [], op := none, data := none, passed := [] } q = .ok (at_ q.lane)
  free : s.rangeHeld w g acc lanes = false
  unfenced : s.fenceHeld w (fragOf w) = false

/-- The requests of the lanes of a mask at the addresses of an operand. -/
def requests (g : Group) (m : Nat) (a : MAddr) (x y : Nat → Nat) : List LaneReq :=
  (lanesOf m).map fun l => { lane := l, addr := address g l a, addr2 := 0, x := x l, y := y l }

/-- The lowest active lane of each owner-table entry: λe of R199. -/
def leaders (g : Group) (act : Nat) : Nat := maskWhere fun l => bit act l && lowest ((g.owner (g.entOf l)).lanes &&& act) == l

/-- The value of an element whose location is a code constant (R166) is known at once. -/
def constant (s : State) (g : Group) (got : List Got) (n : Nat) (e : Elem) : Prop :=
  ∀ off rest, got = .const off :: rest → e.got = true ∧ e.val = ofBytes (((s.constsOf g).drop (off + e.idx * n)).take n)

/-- Whether a fixed-latency result to come writes a source register of a store of N elements of B bytes by lane l (R19). -/
def fed (s : State) (g : Group) (data : Src) (N B l : Nat) : Prop :=
  ∃ p ∈ g.pend, s.cycle < p.ready ∧ ∃ x ∈ p.outs, match data with
    | .v r => x.file = .v ∧ x.lane = l ∧ r.val ≤ x.reg ∧ x.reg < r.val + N * regsOf (8 * B)
    | .s r => x.file = .s ∧ r.val ≤ x.reg ∧ x.reg < r.val + N

/-- The source of one element of a store: its register, to be read later, or where a fixed-latency result to come writes one of the lane's source registers, what
the register holds at issue (R19). -/
def source (s : State) (g : Group) (data : Src) (N B l : Nat) (e : Elem) : Prop :=
  let old := match data with
    | .v _ => (g.readV e.reg l).toNat + 4294967296 * (g.readV (e.reg + 1) l).toNat
    | .s _ => (g.laneS e.reg l).toNat
  (¬ fed s g data N B l → e.cmp = match data with
    | .v _ => 0
    | .s _ => 1) ∧
  (fed s g data N B l → e.cmp = 2 ∧ e.val = old % 2 ^ (8 * B))

/-- The elements of an operation are those of the lanes of a mask: m of n bytes each (R115), element j of lane l in register `reg j`, at the location
that the lane's probe found and n·j bytes on; P says the rest. -/
def Elements (op : Op) (mask m n : Nat) (addr : Nat → Nat) (at_ : Nat → List Got) (reg : Nat → Nat) (P : Nat → Elem → Prop) : Prop :=
  let is := fun (l j : Nat) (e : Elem) => e.lane = l ∧ e.idx = j ∧ e.n = n ∧ e.reg = reg j ∧ e.gaddr = addr l + j * n ∧ P l e ∧
    ∀ key rest, at_ l = .at key :: rest → e.key = key + j * n ∧ e.done = false
  (∀ l j, l < 16 → bit mask l = true → j < m → ∃ e ∈ op.elems, is l j e) ∧
  (∀ e ∈ op.elems, ∃ l j, l < 16 ∧ bit mask l = true ∧ j < m ∧ is l j e)

/-- The issue leaves the fragment at its instruction, in a hold, and changes nothing else. -/
def Holds (s : State) (o : Answer) (w : Issuer) (g : Group) (i : Nat) (hold : Hold) : Prop :=
  ∃ t g', o = .next t ∧ Others s t w g' ∧
    g'.frag i = { g.frag i with hold := hold, holdSince := some ((g.frag i).holdSince.getD s.cycle) } ∧
    (∀ j, j ≠ i → g'.frag j = g.frag j) ∧ { g' with frags := g.frags } = g

/-- t is s after a source of a die has taken an event: into its FIFO, or dropped and counted where that holds 16 (R263). -/
def Sends (s t : State) (die : Nat) (word : BitVec 128) : Prop :=
  let src := word.toNat / 2 ^ 80 % 65536
  let key := die * 65536 + src
  let f := s.fifosAt key
  let drop := 16777216 + 8388608 * die + 1048576 + 8 * src
  (∀ j, t.fifosAt j = if j = key then
      (if f.recs.length < 16 then { f with recs := f.recs ++ [{ word := word, carry := f.carry, fromTime := s.time }], carry := 0 }
       else { f with carry := min (f.carry + 1) 65535 })
    else s.fifosAt j) ∧
  (∀ j, t.winAt j = if 16 ≤ f.recs.length ∧ j = drop then BitVec.ofNat 64 (min ((s.winAt drop).toNat + 1) 4294967295) else s.winAt j) ∧
  { t with fifos := s.fifos, win := s.win } = s

/-- Events sent one after another. -/
def SendsAll (s t : State) : List (Nat × BitVec 128) → Prop
  | [] => t = s
  | x :: r => ∃ u, Sends s u x.1 x.2 ∧ SendsAll u t r

/-- The answer is the state after these writes, and then these events. -/
def Does (s : State) (o : Answer) (l : List Effect) (ev : List (Nat × BitVec 128)) : Prop := ∃ t, o = .next t ∧ SendsAll (runAll s l) t ev

/-- An event word of this cycle (Table 14.1). -/
def eventWord (s : State) (cls unit vf asid kind aux val : Nat) : BitVec 128 := evWord s.cycle cls unit vf asid kind aux val

/-- Function fn's outstanding command is c, its OP is `op`, and no command that names the same object goes before it (R336). -/
def Commands (s : State) (fn op : Nat) (c : Cmd) : Prop :=
  (s.fnsAt fn).cmd = some c ∧ c.op = op ∧ (s.fnsAt fn).fnReset = 0 ∧ (s.fnsAt fn).tdis ≠ 3 ∧ ∀ q, State.cmdWaits { s with fresh := s.fresh + 1 } fn q c = false

/-- t is u after the function's command c has ended: a status entry of kind 0x04 with a result code, SEQ and CMDA0 waits to be written (R333, R336). -/
def Ended (u t : State) (fn : Nat) (c : Cmd) (code : Nat) : Prop :=
  let f := u.fnsAt fn
  let entry := c.args.getD 4 0 % 2 ^ 32 + code * 2 ^ 48 + 4 * 2 ^ 56 + c.args.getD 0 0 % 2 ^ 64 * 2 ^ 64
  (∀ j, t.fnsAt j = if j = fn then { f with cmd := some { c with op := 0 }, statWait := f.statWait ++ [entry] } else u.fnsAt j) ∧ { t with fns := u.fns } = u

/-- The command ends after writes, in a state that has drawn one free value. -/
def Ends (s : State) (o : Answer) (l : List Effect) (fn : Nat) (c : Cmd) (code : Nat) : Prop :=
  ∃ t, o = .next t ∧ Ended (runAll { s with fresh := s.fresh + 1 } l) t fn c code

/-- The node at HPA a is retired between s and t: its STATE is 0b10, the launches below it are retired, and each of their workgroups has ended, or is discarded
where it was not yet admitted (R120). -/
def Retired (s t : State) (a : Nat) : Prop :=
  t.load (a + 4) 1 = s.load (a + 4) 1 % 64 + 128 ∧
  (∀ n l, s.launchesAt n = some l → a ∈ l.chain → ∃ l', t.launchesAt n = some l' ∧ l'.retired = true) ∧
  (∀ n w l, s.wgsAt n = some w → s.launchesAt w.launch = some l → a ∈ l.chain →
    if ∃ b ∈ s.admits, b.wg = n ∧ w.saved = false then w.ended = true ∨ t.wgsAt n = none else ∃ w', t.wgsAt n = some w' ∧ w'.ended = true)

/-! ## Parking (R173, R287, R312) -/

/-- Lanes m of group k's fragment i, all of entry e, park at the fragment's PC: as the fragment's own entry where they are all of it, otherwise as an
entry that was free, while the others go on len bytes further. One record, which names the faulting lanes `bad`, takes the owner's next token and waits for
delivery. No register changes. -/
def ParksBy (s : State) (o : Answer) (k i : Nat) (g : Group) (e m bad cause sec addr len : Nat) : Prop :=
  let own := g.owner e
  let f := s.fnsAt own.vf
  let token := if (f.token + 1) % 2 ^ 32 = 0 then 1 else (f.token + 1) % 2 ^ 32
  ∃ t j, o = .next t ∧
    (let g' := t.groupsAt k
     (g'.frag j).fst = .parked ∧ (g'.frag j).mask = m ∧ (g'.frag j).pc = (g.frag i).pc ∧
     (m = (g.frag i).mask → j = i) ∧
     (m ≠ (g.frag i).mask → j ≠ i ∧ (g.frag j).fst = .free ∧ (g'.frag i).fst = .live ∧ (g'.frag i).mask = mDiff (g.frag i).mask m ∧
       (g'.frag i).pc = (g.frag i).pc + len) ∧
     g'.v = g.v ∧ g'.p = g.p ∧ g'.s = g.s ∧ g'.q = g.q ∧ g'.status = g.status ∧ g'.fpctl = g.fpctl ∧ g'.flags = g.flags ∧ g'.check = g.check) ∧
    (let f' := t.fnsAt own.vf
     f'.token = token ∧ f'.faultWait = f.faultWait ++ [token] ∧
     (f'.recAt token).cause = cause ∧ (f'.recAt token).parked = some (k, j) ∧ (f'.recAt token).delivered = false ∧
     (f'.recAt token).word = recWord addr token (g.frag i).pc bad sec cause own.vf own.asid e (k / 131072) (k / 1024 % 128) (k / 256 % 4) (k % 256) j 0 false)

/-- Lanes park, all of them named by the record. -/
abbrev Parks (s : State) (o : Answer) (k i : Nat) (g : Group) (e m cause sec addr len : Nat) : Prop := ParksBy s o k i g e m m cause sec addr len

/-- All lanes of group k's fragment i park at its PC: those of each owner-table entry as one parked fragment, with one undelivered record of the owner's
function. No register changes. -/
def ParksAll (s : State) (o : Answer) (k i : Nat) (g : Group) (cause sec addr : Nat) : Prop :=
  let f := g.frag i
  ∃ t, o = .next t ∧
    (let g' := t.groupsAt k
     g'.v = g.v ∧ g'.p = g.p ∧ g'.s = g.s ∧ g'.q = g.q ∧ g'.status = g.status ∧ g'.fpctl = g.fpctl ∧ g'.flags = g.flags ∧ g'.check = g.check) ∧
    (∀ e ∈ g.entsOf f.mask, ∃ j token,
      let own := g.owner e
      let m := own.lanes &&& f.mask
      let f' := t.fnsAt own.vf
      ((t.groupsAt k).frag j).fst = .parked ∧ ((t.groupsAt k).frag j).mask = m ∧ ((t.groupsAt k).frag j).pc = f.pc ∧
      (∃ more, f'.faultWait = (s.fnsAt own.vf).faultWait ++ more ∧ token ∈ more) ∧ (f'.recAt token).cause = cause ∧ (f'.recAt token).parked = some (k, j) ∧ (f'.recAt token).delivered = false ∧
      (f'.recAt token).word = recWord addr token f.pc m sec cause own.vf own.asid e (k / 131072) (k / 1024 % 128) (k / 256 % 4) (k % 256) j 0 false)

/-- Records wait in t behind those of u, and the last one of u stands while fewer than 2^31 have come. -/
def Queues (u t : State) : Prop :=
  ∀ v, ∃ more, (t.fnsAt v).faultWait = (u.fnsAt v).faultWait ++ more ∧
    (more.length < 2 ^ 31 → (t.fnsAt v).recAt (u.fnsAt v).token = (u.fnsAt v).recAt (u.fnsAt v).token)

/-- Once its lanes have parked in u, a fatal fault of entry e retires the fault domain of the entry's workgroup (R120, R285). -/
def Kills (u : State) (o : Answer) (g : Group) (e : Nat) : Prop :=
  ∃ t, o = .next t ∧ Queues u t ∧ ∀ a, u.domain (u.wgChain (g.owner e).id) = some a → Retired u t a

/-- Lanes m of fragment i can park for their one owner e: a free entry holds them unless they are the whole fragment. -/
def Owned (g : Group) (i e m : Nat) : Prop :=
  m ≠ 0 ∧ g.entsOf m = [e] ∧ m &&& (g.owner e).lanes = m ∧ (m ≠ (g.frag i).mask → g.freeFrags ≠ [])

/-! ## Engine operations (R240) -/

/-- The record of 64 bytes that an engine instruction checks, at the location that its probe found: `data` is what a peer answered, if it has been asked. -/
def HasRecord (s : State) (w : Issuer) (g : Group) (i : Nat) (data : Option Nat) (at_ : Got) (r : Nat) : Prop :=
  match data, at_ with
  | some x, .at _ | some x, .const _ => r = x
  | none, .at k => isPeer k = false ∧ s.recordLost w [.at k] = false ∧ s.recordFree w i [.at k] = true ∧ r = s.load k 64
  | none, .const off => r = ofBytes (((s.constsOf g).drop off).take 64)
  | _, _ => False

/-- What an engine operation is once its record is read: TCOPY and COLL hold theirs, WLOAD the region that it names. -/
def settledKind (s : State) (core : Nat) (g : Group) (got : List Got) : EngKind → EngKind
  | .tcopy a _ cs => .tcopy a (s.recordAt g none got) cs
  | .coll a _ => .coll a (s.recordAt g none got)
  | .wload a slot q line => .wload a slot (s.wloadRegion core q) line
  | k => k

/-- The queue that holds a class's operations until its engine takes them (R240). -/
def enters (kind : EngKind) (id : Nat) (c : Core) : Core :=
  match kind.cls with
  | .fed => { c with feedQ := c.feedQ ++ [id] }
  | .drn => { c with drainQ := c.drainQ ++ [id] }
  | .col => c
  | _ => { c with copyQ := c.copyQ ++ [id] }

/-- Group k's fragment i issues and starts one engine operation under leader lane l: it takes the next number, counts in its class, enters its queue,
and takes an entry of the range scoreboard where it writes core scratch (R194); a scoreboard slot waits for its operands. -/
structure StartsEngine (s : State) (o : Answer) (k i : Nat) (g : Group) (h : Hdr) (l : Nat) (kind : EngKind) (bar task : Option Nat)
    (dest : Option (Nat × Nat)) : Prop where
  next : ∃ t g' e, o = .next t ∧
    Issued g { g' with eng := g.eng, engNum := g.engNum } i 16 s.cycle h true ∧ g'.pend = g.pend ∧
    (∀ c, g'.engCount c = g.engCount c + if c = eclassNum kind.cls then 1 else 0) ∧
    (∀ j, t.groupsAt j = if j = k then g' else s.groupsAt j) ∧
    (∀ j, t.engsAt j = if j = s.nextId then some e else s.engsAt j) ∧
    (e.kind = kind ∧ e.cls = kind.cls ∧ e.lane = l ∧ e.ent = g.entOf l ∧ e.owner = g.ownerOf l ∧ e.grp = k ∧ e.core = k / 256 ∧ e.bar = bar ∧ e.task = task ∧
      e.pc = (g.frag i).pc ∧ e.taken = false ∧ e.reads = [] ∧ e.fail = none ∧ e.done = false) ∧
    (∀ c, t.coresAt c = if c = k / 256 then
        enters kind s.nextId (match dest with
          | some iv => { s.coresAt c with ranges := (s.coresAt c).ranges ++ [{ grp := k, lo := iv.1, hi := iv.2, op := s.nextId }] }
          | none => s.coresAt c)
      else s.coresAt c) ∧
    (h.sbs.val = 0 → t.ops = s.ops) ∧
    (h.sbs.val ≠ 0 → ∃ op, (∀ j, t.opsAt j = if j = s.nextId + 1 then some op else s.opsAt j) ∧ op.kind = .operands ∧ op.slot = h.sbs.val ∧
      op.heirs = [i] ∧ op.outs = [] ∧ op.elems = []) ∧
    { t with groups := s.groups, engs := s.engs, cores := s.cores, ops := s.ops, nextId := s.nextId } = s

/-! ## Floating-point values (R27 to R32) -/

/-- The value of a finite code in units of 2^−149, the least subnormal of binary32. -/
def scaled (f : Fmt) (x : Nat) : Int :=
  match decodeFp f x with
  | .fin neg m e => (if neg then -1 else 1) * (m : Int) * 2 ^ (e + 149).toNat
  | _ => 0

/-- A code of a finite value. -/
def Finite (f : Fmt) (x : Nat) : Prop := x < 2 ^ fmtBits f ∧ ∃ neg m e, decodeFp f x = .fin neg m e

/-- The order of the values of binary32, −∞ and +∞ outside the finite ones and the zeros equal. -/
def rank (x : Nat) : Int :=
  match decodeFp .f32 x with
  | .inf neg => if neg then -2 ^ 300 else 2 ^ 300
  | _ => scaled .f32 x

/-- Whether a code of binary32 is a NaN, and whether it signals (Table 2.1): the exponent all ones and the fraction not 0; its highest bit
clear. -/
def isNaN32 (x : Nat) : Bool := x / 2 ^ 23 % 256 == 255 && x % 2 ^ 23 != 0
def isSNaN32 (x : Nat) : Bool := isNaN32 x && x / 2 ^ 22 % 2 == 0

/-- Code r is the exact value V · 2^−u, which is not 0, rounded once to format f by mode rm (R30, R31): `c` runs over the finite codes, M is the largest
finite value and U the distance to the one below it. -/
def Rounds (f : Fmt) (rm : Rm) (V : Int) (u : Nat) (r : Nat) : Prop :=
  let val := fun c => scaled f c * 2 ^ (u - 149)
  let M := val (maxBits f)
  let U := M - val (maxBits f - 1)
  let ovf := 2 * M + U < 2 * (V.natAbs : Int) ∨ (2 * M + U = 2 * (V.natAbs : Int) ∧ maxBits f % 2 = 1)
  let best := fun (ok : Int → Prop) => Finite f r ∧ ok (val r) ∧ ∀ c, Finite f c → ok (val c) → |val r - V| ≤ |val c - V|
  let sign := fun x => if V < 0 then signBit f + x else x
  match rm with
  | .rn =>
    if ovf then r = (if f = .e4m3 then 0x7F else sign (infBits f))
    else best (fun _ => True) ∧ ∀ c, Finite f c → |val c - V| = |val r - V| → val c ≠ val r → r % 2 = 0
  | .rz => best (fun v => |v| ≤ |V| ∧ 0 ≤ v * V)
  | .rp => if M < V then r = (if f = .e4m3 then 0x7F else infBits f) else best (fun v => V ≤ v)
  | .rminf => if V < -M then r = (if f = .e4m3 then 0x7F else signBit f + infBits f) else best (fun v => v ≤ V)

/-- Twice the value of a Q4 code of a type (Table 2.3). -/
def q4Halves (type code : Nat) : Int :=
  let l : List (List Int) := [[0, 2, 4, 6, 8, 10, 12, 14], [0, 1, 2, 3, 4, 6, 8, 12], [0, 2, 4, 8, 16, 32, 64, 128], [0, 2, 4, 6, 8, 10, 16, 32]]
  let m := (l.getD type []).getD (code % 8) 0
  if code < 8 then m else if type = 0 then m - 16 else -m

/-- The flags of Table 2.2 for the exact value V · 2^−u, which is not 0, rounded to code r of format f without saturation: N is the smallest normal value. -/
def roundFlags (f : Fmt) (rm : Rm) (V : Int) (u r : Nat) : Nat :=
  let exact := scaled f r * 2 ^ (u - 149) = V
  let M := scaled f (maxBits f) * 2 ^ (u - 149)
  let N := scaled f (2 ^ fracBits f) * 2 ^ (u - 149)
  let p : Int := 2 ^ (fracBits f + 2)
  let away := (rm = .rp ∧ 0 < V) ∨ (rm = .rminf ∧ V < 0)
  let tiny := if rm = .rn then p * |V| < (p - 1) * N else if away then p * |V| ≤ (p - 2) * N else |V| < N
  if exact then 0
  else 0x10 + (if M < |V| then 0x4 else 0) + (if tiny then 0x8 else 0) + (if f = .e4m3 ∧ r = 0x7F then 0x1 else 0)

/-- z is the integer that the value S · 2^−149 rounds to by mode rm (R30, R35). -/
def RoundsInt (rm : Rm) (S z : Int) : Prop :=
  let u : Int := 2 ^ 149
  match rm with
  | .rn => 2 * |z * u - S| < u ∨ (2 * |z * u - S| = u ∧ z % 2 = 0)
  | .rz => |z * u| ≤ |S| ∧ |S - z * u| < u ∧ 0 ≤ z * S
  | .rp => S ≤ z * u ∧ z * u < S + u
  | .rminf => z * u ≤ S ∧ S < z * u + u

end Sys2Proof.Spec
end

