-- ==== Sys2Proof/Certificates/Slice0/Obligations.lean ====
section
/-! DEFINITION. The statements for the provers. -/

open Sys2Proof Sys2Proof.Machine Sys2Proof.Spec

/-- O1. For every state in which a fragment of a group has the turn, every type, saturation, destination and pair of operands, IADD, ISUB, IMUL, IMULH,
IMIN and IMAX complete: register d of each active lane takes the exact sum, difference, product, upper half of the product, minimum or maximum of the
operands read in the type, wrapped to the type or clamped under saturation, 4 cycles on (6 for products); FLAGS gains ISAT exactly where clamping
changed a value; every other register, flag, fragment and all memory are unchanged. (04_isa_core.md R82, 02_number_formats.md R25,
02_number_formats.md R26, 06_isa_parallel.md R142, 01_sequential_machine.md R16, 01_sequential_machine.md R19) -/
def Obligations.IntegerTwoOperand : Prop :=
  ∀ (s : State) (k i : Nat) (g : Group) (h : Hdr) (ty : ITy) (d : VReg) (a : Src) (b : SrcI),
    Turn s (.grp k i) g i → Calm s (.grp k i) g →
    let n := ityBits ty
    let sg := itySigned ty
    let x := fun l => inBits n sg (lane g l a)
    let y := fun l => inBits n sg (laneI (ty == .n64) g l b)
    let writes := fun (o : Answer) (lat : Nat) (sat : Bool) (r : Nat → Int) =>
      LaneV s o k i g h (srcILen b) lat n d.val (fun l => narrowed n sg sat (r l)) (fun l => satFlag n sg sat (r l))
    (∀ sat, writes (exec (.iadd h ty sat d a b) s) 4 sat (fun l => x l + y l)) ∧
    (∀ sat, writes (exec (.isub h ty sat d a b) s) 4 sat (fun l => x l - y l)) ∧
    (∀ sat, writes (exec (.imul h ty sat d a b) s) 6 sat (fun l => x l * y l)) ∧
    LaneV s (exec (.imulh h ty d a b) s) k i g h (srcILen b) 6 n d.val (fun l => x l * y l / 2 ^ n) noFlags ∧
    LaneV s (exec (.imin h ty d a b) s) k i g h (srcILen b) 4 n d.val (fun l => min (x l) (y l)) noFlags ∧
    LaneV s (exec (.imax h ty d a b) s) k i g h (srcILen b) 4 n d.val (fun l => max (x l) (y l)) noFlags

/-- O2. For every state in which a fragment of a group has the turn, IMAD writes a·b + c of the operands read in the type, and IABS the absolute value of
the signed operand, wrapped or clamped with ISAT as IADD does; wrapped, the least value stays itself, and clamped it gives the greatest with ISAT.
Nothing else changes. (R83, R84) -/
def Obligations.IntegerMulAddAbs : Prop :=
  (∀ (s : State) (k i : Nat) (g : Group) (h : Hdr) (ty : ITy) (sat : Bool) (d : VReg) (a b c : Src),
    Turn s (.grp k i) g i → Calm s (.grp k i) g →
    let n := ityBits ty
    let sg := itySigned ty
    let v := fun l (r : Src) => inBits n sg (lane g l r)
    let x := fun l => v l a * v l b + v l c
    LaneV s (exec (.imad h ty sat d a b c) s) k i g h 12 6 n d.val (fun l => narrowed n sg sat (x l)) (fun l => satFlag n sg sat (x l))) ∧
  (∀ (s : State) (k i : Nat) (g : Group) (h : Hdr) (ty : ITy) (sat : Bool) (d : VReg) (a : Src),
    itySigned ty = true → Turn s (.grp k i) g i → Calm s (.grp k i) g →
    let n := ityBits ty
    let x := fun l => inBits n true (lane g l a)
    let least : Int := -2 ^ (n - 1)
    LaneV s (exec (.iabs h ty sat d a) s) k i g h 8 4 n d.val
      (fun l => if x l = least then (if sat then 2 ^ (n - 1) - 1 else least) else (x l).natAbs)
      (fun l => if x l = least ∧ sat then 0x20 else 0))

/-- O3. For every state in which a fragment of a group has the turn, LOP writes to register d of each active lane the bitwise function of the operands
that MOD names, not of the first operand alone, and SEL writes A in a lane where pC is true and B where it is false. No flag changes, nor any other
register, fragment or memory. ICMP writes to pD of each active lane whether the comparison holds of the operands read in the type, signed under .i and
unsigned under .n; the p register of a lane that is not active, every other register and every flag are unchanged, and p0 stays 1. (04_isa_core.md
R85, 04_isa_core.md R90, 04_isa_core.md R91) -/
def Obligations.LogicSelectCompare : Prop :=
  ((∀ (s : State) (k i : Nat) (g : Group) (h : Hdr) (fn : LogicFn) (ty : BTy) (d : VReg) (a : Src) (b : SrcI),
     Turn s (.grp k i) g i → Calm s (.grp k i) g →
     let n := btyBits ty
     let A := fun l => pattern n g l a
     let B := fun l => patternI n g l b
     LaneV s (exec (.lop h fn ty d a b) s) k i g h (srcILen b) 4 n d.val (fun l =>
       (match fn with
        | .and => A l &&& B l
        | .or => A l ||| B l
        | .xor => A l ^^^ B l
        | .andn => A l &&& ~~~(B l)
        | .orn => A l ||| ~~~(B l)
        | .xnor => ~~~(A l ^^^ B l)
        | .not => ~~~(A l)).toNat) noFlags) ∧
   (∀ (s : State) (k i : Nat) (g : Group) (h : Hdr) (ty : BTy) (d : VReg) (a b : Src) (c : PReg),
     Turn s (.grp k i) g i → Calm s (.grp k i) g →
     let n := btyBits ty
     LaneV s (exec (.sel h ty d a b c) s) k i g h 12 4 n d.val
       (fun l => (pattern n g l (if g.readP c.val l then a else b)).toNat) noFlags) ∧
   (∀ (h : Hdr) (ty : BTy) (d : VReg) (a : Src) (b : SrcI), (Instr.lop h .not ty d a b).wf = true → b = .reg (.v 0))) ∧
  (∀ (s : State) (k i : Nat) (g : Group) (h : Hdr) (ty : ITy) (cmp : Cmp) (d : PReg) (a : Src) (b : SrcI),
     Turn s (.grp k i) g i → Calm s (.grp k i) g →
     let x := fun l => inBits (ityBits ty) (itySigned ty) (lane g l a)
     let y := fun l => inBits (ityBits ty) (itySigned ty) (laneI (ty == .n64) g l b)
     LaneP s (exec (.icmp h ty cmp d a b) s) (.grp k i) g i h (srcILen b) 4 d.val (fun l =>
       match cmp with
       | .eq => decide (x l = y l)
       | .ne => decide (x l ≠ y l)
       | .lt => decide (x l < y l)
       | .le => decide (x l ≤ y l)
       | .gt => decide (y l < x l)
       | .ge => decide (y l ≤ x l)) noFlags)

/-- O4. For every state in which a fragment of a group has the turn, SHF writes a shifted left or right by the 32-bit count (an arithmetic right shift
under a signed type, 0 or the sign from the width on) or rotated by it modulo the width; BFX writes the field of position p = min(B, n) and width w =
min(C, n − p), sign-extended under a signed type and 0 for width 0; BFI writes the base with its bits from p on replaced by the low w bits of the
insert value, p and w from the control operand. BITC forms x = a ∧ b and writes the number of one bits, of zero bits above the highest one bit, or of
zero bits below the lowest one bit (n for zero) to one register, or x with its bits in reverse order as an n-bit result. Nothing else changes; an
immediate of all ones extends to all ones. (R86, R87, R88, R89) -/
def Obligations.ShiftsFieldsCounts : Prop :=
  ((∀ (s : State) (k i : Nat) (g : Group) (h : Hdr) (fn : ShfFn) (ty : WTy) (d : VReg) (a : Src) (b : SrcI),
     Turn s (.grp k i) g i → Calm s (.grp k i) g →
     let n := wtyBits ty
     let A := fun l => pattern n g l a
     let c := fun l => (patternI 32 g l b).toNat
     LaneV s (exec (.shf h fn ty d a b) s) k i g h (srcILen b) 4 n d.val (fun l =>
       (match fn with
        | .shl => A l <<< c l
        | .shr => if wtySigned ty then (A l).sshiftRight (c l) else A l >>> c l
        | .rol => (A l).rotateLeft (c l)
        | .ror => (A l).rotateRight (c l)).toNat) noFlags) ∧
   (∀ (s : State) (k i : Nat) (g : Group) (h : Hdr) (ty : ITy) (d : VReg) (a b c : Src),
     32 ≤ ityBits ty → Turn s (.grp k i) g i → Calm s (.grp k i) g →
     let n := ityBits ty
     let p := fun l => min (pattern 32 g l b).toNat n
     let w := fun l => min (pattern 32 g l c).toNat (n - p l)
     LaneV s (exec (.bfx h ty d a b c) s) k i g h 12 4 n d.val
       (fun l => inBits (w l) (itySigned ty) (((pattern n g l a) >>> p l).toNat : Int)) noFlags) ∧
   (∀ (s : State) (k i : Nat) (g : Group) (h : Hdr) (ty : BTy) (d : VReg) (a b c : Src),
     Turn s (.grp k i) g i → Calm s (.grp k i) g →
     let n := btyBits ty
     let p := fun l => min ((pattern 32 g l c).extractLsb' 0 8).toNat n
     let w := fun l => min ((pattern 32 g l c).extractLsb' 8 8).toNat (n - p l)
     let field := fun l => BitVec.ofNat n (2 ^ w l - 1) <<< p l
     LaneV s (exec (.bfi h ty d a b c) s) k i g h 12 4 n d.val
       (fun l => ((pattern n g l a &&& ~~~(field l)) ||| ((pattern n g l b <<< p l) &&& field l)).toNat) noFlags)) ∧
  (∀ (s : State) (k i : Nat) (g : Group) (h : Hdr) (ty : BTy) (d : VReg) (a : Src) (b : SrcI),
     Turn s (.grp k i) g i → Calm s (.grp k i) g →
     let n := btyBits ty
     let x := fun l => pattern n g l a &&& patternI n g l b
     let len := srcILen b
     LaneV s (exec (.bitc h .popc ty d a b) s) k i g h len 4 32 d.val (fun l => (List.range n).countP fun j => (x l).getLsbD j) noFlags ∧
     LaneV s (exec (.bitc h .clz ty d a b) s) k i g h len 4 32 d.val
       (fun l => if (x l).toNat = 0 then n else (n - 1 - Nat.log2 (x l).toNat : Nat)) noFlags ∧
     LaneV s (exec (.bitc h .ctz ty d a b) s) k i g h len 4 32 d.val
       (fun l => ((List.range n).findIdx fun j => (x l).getLsbD j : Nat)) noFlags ∧
     LaneV s (exec (.bitc h .brev ty d a b) s) k i g h len 4 n d.val (fun l => (x l).reverse.toNat) noFlags ∧
     (∀ l, patternI n g l (.imm 0xFFFFFFFF) = BitVec.allOnes n))

/-- O5. A lane of a mask is active exactly where the guard's predicate register, taken or negated by GN, is true in it, so with p0 and no negation every
lane of the mask is; a class slot counts for a group-wide instruction exactly where a lane of the mask is in it and the guard's q register, taken or
negated, has its bit. (01_sequential_machine.md R16, 01_sequential_machine.md R7) -/
def Obligations.ActiveLanes : Prop :=
  (∀ (g : Group) (m : Nat) (h : Hdr) (l : Nat), l < 16 →
    bit (g.act m h) l = (bit m l && (if h.gn then !g.readP h.gp.val l else g.readP h.gp.val l))) ∧
  (∀ (g : Group) (m : Nat) (h : Hdr), m < 65536 → h.gp.val = 0 → h.gn = false → g.act m h = m) ∧
  (∀ (g : Group) (m : Nat) (h : Hdr) (c : Nat), c < 16 →
    (bit (g.actQ m h) c = true ↔ (∃ l, l < 16 ∧ bit m l = true ∧ g.clsOf l = c) ∧
      (if h.gn then (g.readQ h.gp.val).getLsbD c = false else (g.readQ h.gp.val).getLsbD c = true)))

/-- O6. For every format, rounding mode and exact nonzero value ±m·2^e, the rounded code is the nearest representable value (a tie to the even code), the
nearest not greater in magnitude, the least not less, or the greatest not greater, subnormals included; and where the value rounds above the largest
finite one it is ±infinity or ± the largest as R31 says, 0x7F in E4M3 in place of an infinity, or ±448 under the saturation variant. NX is set where
the result is not the exact value, OF where besides the exact value exceeds the largest finite one, UF where besides it is tiny, and NV where a finite
value becomes the NaN of E4M3; the saturation variant sets OF and NX there. (02_number_formats.md R29, 02_number_formats.md R30, 02_number_formats.md
R31, 02_number_formats.md R27, 02_number_formats.md R34) -/
def Obligations.FloatRounding : Prop :=
  (∀ (f : Fmt) (rm : Rm) (neg : Bool) (m : Nat) (e : Int) (u : Nat), 0 < m → 149 ≤ u → 0 ≤ e + u →
    let V : Int := (if neg then -1 else 1) * (m : Int) * 2 ^ (e + u).toNat
    let r := fpRound f rm false neg m e
    Rounds f rm V u r.1 ∧ r.2 = roundFlags f rm V u r.1) ∧
  (∀ (rm : Rm) (neg : Bool) (m : Nat) (e : Int), 0 < m →
    fpRound .e4m3 rm true neg m e =
      if (fpRound .e4m3 rm false neg m e).1 = 0x7F then (if neg then 0xFE else 0x7E, 0x14) else fpRound .e4m3 rm false neg m e)

/-- O7. For every format of FADD, FMUL, FFMA and the packed instructions, every mode and finite codes, the result is the exact sum, product or product
plus addend, never rounded in between, rounded once where it is not 0; where it is 0, it is the zero whose sign the operands make definite, and
otherwise +0 but −0 in mode rm. The flags are those of Table 2.2. An infinite operand gives that infinity (a product of one, with the sign of the
product) and no flag; the difference of two infinities and the product of a zero and an infinity give the canonical NaN with NV, under a fused
multiply-add even with a NaN addend. (04_isa_core.md R92, 04_isa_core.md R97, 02_number_formats.md R29, 02_number_formats.md R30, 02_number_formats.md
R32, 02_number_formats.md R34) -/
def Obligations.FloatSumsAndProducts : Prop :=
  (∀ (f : Fmt) (rm : Rm) (x y z : Nat), (f = .f32 ∨ f = .f16 ∨ f = .bf16) → Finite f x → Finite f y → Finite f z →
    let v := scaled f
    let neg := fun c => bit c (fmtBits f - 1)
    let zero := fun (a b : Bool) => if a = b then (if a then signBit f else 0) else if rm = .rminf then signBit f else 0
    let pn := neg x != neg y
    let once := fun (V : Int) (u : Nat) (r : Nat × Nat) => V ≠ 0 → Rounds f rm V u r.1 ∧ r.2 = roundFlags f rm V u r.1
    once (v x + v y) 149 (fpAdd f rm x y) ∧
    (v x = 0 → v y = 0 → fpAdd f rm x y = (zero (neg x) (neg y), 0)) ∧
    (v x ≠ 0 → v x + v y = 0 → fpAdd f rm x y = (if rm = .rminf then signBit f else 0, 0)) ∧
    once (v x * v y) 298 (fpMul f rm x y) ∧
    (v x * v y = 0 → fpMul f rm x y = (if pn then signBit f else 0, 0)) ∧
    once (v x * v y + v z * 2 ^ 149) 298 (fpFma f rm x y z) ∧
    (v x * v y = 0 → v z = 0 → fpFma f rm x y z = (zero pn (neg z), 0)) ∧
    (v x * v y ≠ 0 → v x * v y + v z * 2 ^ 149 = 0 → fpFma f rm x y z = (if rm = .rminf then signBit f else 0, 0))) ∧
  (∀ (f : Fmt) (rm : Rm) (s y z : Bool) (c : Nat), (f = .f32 ∨ f = .f16 ∨ f = .bf16) → Finite f c →
    let inf := fun (n : Bool) => (if n then signBit f else 0) + infBits f
    let nan := (infBits f + 2 ^ (fracBits f - 1), 1)
    let neg := bit c (fmtBits f - 1)
    fpAdd f rm (inf s) c = (inf s, 0) ∧ fpAdd f rm c (inf s) = (inf s, 0) ∧
    fpAdd f rm (inf s) (inf y) = (if s = y then (inf s, 0) else nan) ∧
    (scaled f c ≠ 0 → fpMul f rm (inf s) c = (inf (s != neg), 0) ∧ fpMul f rm c (inf s) = (inf (s != neg), 0) ∧
      ∀ d, Finite f d → fpFma f rm (inf s) c d = (inf (s != neg), 0) ∧ fpFma f rm c (inf s) d = (inf (s != neg), 0)) ∧
    (scaled f c = 0 → fpMul f rm (inf s) c = nan ∧ fpMul f rm c (inf s) = nan ∧
      ∀ d, fpFma f rm (inf s) c d = nan ∧ fpFma f rm c (inf s) d = nan) ∧
    fpMul f rm (inf s) (inf y) = (inf (s != y), 0) ∧
    (∀ d, Finite f d → fpFma f rm c d (inf s) = (inf s, 0)) ∧
    fpFma f rm (inf s) (inf y) (inf z) = (if (s != y) = z then (inf z, 0) else nan))

/-- O8. For every sum, product, fused multiply-add, minimum, maximum, conversion, dot product and special function, a result that is a NaN is the
canonical NaN of its format with sign 0, whatever the operands' payloads, and a signalling NaN operand sets NV; a NaN operand, quiet or signalling,
gives a NaN but for the minimum and maximum with a number. (02_number_formats.md R33, 04_isa_core.md R93, 04_isa_core.md R98) -/
def Obligations.FloatNaNs : Prop :=
  let nan := fun (f : Fmt) (x : Nat) => (decodeFp f x).isNan = true
  let snan := fun (f : Fmt) (x : Nat) => (decodeFp f x).isSnan = true
  let canonical := fun (f : Fmt) (y : Nat × Nat) => nan f y.1 → y.1 = nanBits f ∧ bit y.1 (fmtBits f - 1) = false
  let nv := fun (y : Nat × Nat) => bit y.2 0 = true
  (∀ (f : Fmt) (rm : Rm) (x y z : Nat), (f = .f32 ∨ f = .f16 ∨ f = .bf16) →
    canonical f (fpAdd f rm x y) ∧ canonical f (fpMul f rm x y) ∧ canonical f (fpFma f rm x y z) ∧
    (nan f x ∨ nan f y → nan f (fpAdd f rm x y).1 ∧ nan f (fpMul f rm x y).1 ∧ nan f (fpFma f rm x y z).1) ∧
    (nan f z → nan f (fpFma f rm x y z).1) ∧
    (snan f x ∨ snan f y → nv (fpAdd f rm x y) ∧ nv (fpMul f rm x y)) ∧
    (snan f x ∨ snan f y ∨ snan f z → nv (fpFma f rm x y z))) ∧
  (∀ (max : Bool) (x y : Nat), canonical .f32 (fpMinMax .f32 max x y) ∧ (nan .f32 x → nan .f32 y → nan .f32 (fpMinMax .f32 max x y).1) ∧
    (snan .f32 x ∨ snan .f32 y → nv (fpMinMax .f32 max x y))) ∧
  (∀ (dst src : Fmt) (rm : Rm) (sat : Bool) (x : Nat), canonical dst (fpConvert dst src rm sat x) ∧
    (nan src x → nan dst (fpConvert dst src rm sat x).1) ∧ (snan src x → nv (fpConvert dst src rm sat x))) ∧
  (∀ (f : Fmt) (rm : Rm) (x y z : Nat), canonical .f32 (fpDot4 f rm x y z) ∧ (nan .f32 z → nan .f32 (fpDot4 f rm x y z).1) ∧
    (snan .f32 z → nv (fpDot4 f rm x y z)) ∧
    (∀ j, j < 4 → nan f (x / 2 ^ (8 * j) % 256) ∨ nan f (y / 2 ^ (8 * j) % 256) →
      nan .f32 (fpDot4 f rm x y z).1 ∧ nv (fpDot4 f rm x y z))) ∧
  (∀ (fn : SpcFn) (rm : Rm) (x : Nat), canonical .f32 (fpSpecial fn rm x) ∧ (nan .f32 x → nan .f32 (fpSpecial fn rm x).1) ∧
    (snan .f32 x → nv (fpSpecial fn rm x)))

/-- O9. For every state in which a fragment of a group has the turn, FADD, FMUL, FFMA, FMNX, HADD2, HMUL2, HFMA2 and FDP4 complete: register d of each
active lane takes the result of the arithmetic on its 32-bit operands, a packed instruction the two independent results of its 16-bit elements, 5
cycles on (FDP4: 6), and FLAGS gains the flags of every active lane, those of both elements together. FSPC completes with a result of variable
latency, with which its flags come (log 42): Table 4.2 for the special inputs, toward zero the largest value not above the exact reciprocal, root or
reciprocal root with NX where that is not exact, exact powers and logarithms of powers of two without flags, and the flags of a power above or below
the range. FMNX gives the smaller or greater of two numbers, −0 below +0, or the one number beside a NaN, and sets no flag but NV for a signalling
NaN. FDP4 gives the exact sum of c and the four products rounded once with its flags, the infinity of its terms, or the canonical NaN with NV for 0 ·
∞ and for infinities of both signs. Nothing else changes. (04_isa_core.md R92, 04_isa_core.md R93, 04_isa_core.md R96, 04_isa_core.md R97,
04_isa_core.md R98, 02_number_formats.md R28, 02_number_formats.md R34, 02_number_formats.md R32) -/
def Obligations.FloatLanes : Prop :=
  (∀ (s : State) (k i : Nat) (g : Group) (h : Hdr) (rm : Rm) (d : VReg) (a c : Src) (b : SrcI) (b' : Src),
    Turn s (.grp k i) g i → Calm s (.grp k i) g →
    let x := fun l => (pattern 32 g l a).toNat
    let y := fun l => (patternI 32 g l b).toNat
    let y' := fun l => (pattern 32 g l b').toNat
    let z := fun l => (pattern 32 g l c).toNat
    let lo := fun (w : Nat) => w % 65536
    let hi := fun (w : Nat) => w / 65536
    let writes := fun (o : Answer) (len lat : Nat) (r : Nat → Nat × Nat) => LaneV s o k i g h len lat 32 d.val (fun l => (r l).1) (fun l => (r l).2)
    let writes2 := fun (o : Answer) (len : Nat) (r q : Nat → Nat × Nat) =>
      LaneV s o k i g h len 5 32 d.val (fun l => ((r l).1 + 65536 * (q l).1 : Nat)) (fun l => (r l).2 ||| (q l).2)
    writes (exec (.fadd h rm d a b) s) (srcILen b) 5 (fun l => fpAdd .f32 rm (x l) (y l)) ∧
    writes (exec (.fmul h rm d a b) s) (srcILen b) 5 (fun l => fpMul .f32 rm (x l) (y l)) ∧
    writes (exec (.ffma h rm d a b' c) s) 12 5 (fun l => fpFma .f32 rm (x l) (y' l) (z l)) ∧
    (∀ max, writes (exec (.fmnx h max d a b) s) (srcILen b) 5 (fun l => fpMinMax .f32 max (x l) (y l))) ∧
    (∀ bf : Bool, let f := if bf then Fmt.bf16 else Fmt.f16
      writes2 (exec (.hadd2 h bf rm d a b) s) (srcILen b) (fun l => fpAdd f rm (lo (x l)) (lo (y l))) (fun l => fpAdd f rm (hi (x l)) (hi (y l))) ∧
      writes2 (exec (.hmul2 h bf rm d a b) s) (srcILen b) (fun l => fpMul f rm (lo (x l)) (lo (y l))) (fun l => fpMul f rm (hi (x l)) (hi (y l))) ∧
      writes2 (exec (.hfma2 h bf rm d a b' c) s) 12 (fun l => fpFma f rm (lo (x l)) (lo (y' l)) (lo (z l)))
        (fun l => fpFma f rm (hi (x l)) (hi (y' l)) (hi (z l)))) ∧
    (∀ e5 : Bool, writes (exec (.fdp4 h e5 rm d a b' c) s) 12 6 (fun l => fpDot4 (if e5 then .e5m2 else .e4m3) rm (x l) (y' l) (z l))) ∧
    (∀ fn : SpcFn, LaneLater s (exec (.fspc h fn rm d a) s) k i g h 8
      (LandsV (active g i h) 32 d.val (fun l => (fpSpecial fn rm (x l)).1) (fun l => (fpSpecial fn rm (x l)).2)))) ∧
  (∀ (fn : SpcFn) (rm : Rm),
    let NaN := 0x7FC00000
    let inf := 0x7F800000
    let neg := 2 ^ 31
    (fpSpecial fn rm 0 = match fn with | .rcp => (inf, 2) | .rsq => (inf, 2) | .sqrt => (0, 0) | .exp2 => (0x3F800000, 0) | .log2 => (neg + inf, 2)) ∧
    (fpSpecial fn rm neg = match fn with | .rcp => (neg + inf, 2) | .rsq => (neg + inf, 2) | .sqrt => (neg, 0) | .exp2 => (0x3F800000, 0) | .log2 => (neg + inf, 2)) ∧
    (fpSpecial fn rm inf = match fn with | .rcp => (0, 0) | .rsq => (0, 0) | .sqrt => (inf, 0) | .exp2 => (inf, 0) | .log2 => (inf, 0)) ∧
    (fpSpecial fn rm (neg + inf) = match fn with | .rcp => (neg, 0) | .rsq => (NaN, 1) | .sqrt => (NaN, 1) | .exp2 => (0, 0) | .log2 => (NaN, 1)) ∧
    (fpSpecial fn rm 0x3F800000 = match fn with | .rcp => (0x3F800000, 0) | .rsq => (0x3F800000, 0) | .sqrt => (0x3F800000, 0) | .exp2 => (0x40000000, 0) | .log2 => (0, 0)) ∧
    (∀ x, Finite .f32 x → scaled .f32 x < 0 → fn = .rsq ∨ fn = .sqrt ∨ fn = .log2 → fpSpecial fn rm x = (NaN, 1))) ∧
  (∀ x, Finite .f32 x → 0 < scaled .f32 x →
    let v := scaled .f32
    let largest := fun (fn : SpcFn) (ok : Int → Prop) =>
      let r := (fpSpecial fn .rz x).1
      Finite .f32 r ∧ 0 ≤ v r ∧ ok (v r) ∧ ∀ c, Finite .f32 c → 0 ≤ v c → ok (v c) → v c ≤ v r
    let nx := fun (fn : SpcFn) (exact : Int → Prop) => bit (fpSpecial fn .rz x).2 4 = false ↔ exact (v (fpSpecial fn .rz x).1)
    largest .rcp (fun z => z * v x ≤ 2 ^ 298) ∧ largest .sqrt (fun z => z * z ≤ v x * 2 ^ 149) ∧ largest .rsq (fun z => z * z * v x ≤ 2 ^ 447) ∧
    nx .rcp (fun z => z * v x = 2 ^ 298) ∧ nx .sqrt (fun z => z * z = v x * 2 ^ 149) ∧ nx .rsq (fun z => z * z * v x = 2 ^ 447)) ∧
  (∀ (rm : Rm) (x : Nat) (k : Int), Finite .f32 x →
    let one : Int := 2 ^ 149
    let r := fpSpecial .exp2 rm x
    (scaled .f32 x = k * one → (-149 ≤ k → k ≤ 127 → scaled .f32 r.1 = 2 ^ (k + 149).toNat ∧ r.2 = 0) ∧ (128 ≤ k → r.2 = 0x14) ∧ (k ≤ -150 → r.2 = 0x18)) ∧
    (0 ≤ k + 149 → scaled .f32 x = 2 ^ (k + 149).toNat → scaled .f32 (fpSpecial .log2 rm x).1 = k * one ∧ (fpSpecial .log2 rm x).2 = 0)) ∧
  (∀ (max : Bool) (x y : Nat), x < 2 ^ 32 → y < 2 ^ 32 →
    let r := fpMinMax .f32 max x y
    r.2 = (if isSNaN32 x ∨ isSNaN32 y then 1 else 0) ∧
    (isNaN32 x = true → r.1 = if isNaN32 y then 0x7FC00000 else y) ∧ (isNaN32 x = false → isNaN32 y = true → r.1 = x) ∧
    (isNaN32 x = false → isNaN32 y = false → (r.1 = x ∨ r.1 = y) ∧
      (if max then rank x ≤ rank r.1 ∧ rank y ≤ rank r.1 else rank r.1 ≤ rank x ∧ rank r.1 ≤ rank y) ∧
      (rank x = rank y → bit r.1 31 = if max then bit x 31 && bit y 31 else bit x 31 || bit y 31))) ∧
  (∀ (e5 : Bool) (rm : Rm) (x y z : Nat), z < 2 ^ 32 →
    let f := if e5 then Fmt.e5m2 else Fmt.e4m3
    let a := fun i => x / 2 ^ (8 * i) % 256
    let b := fun i => y / 2 ^ (8 * i) % 256
    let r := fpDot4 f rm x y z
    let inf := fun (F : Fmt) (c : Nat) => (decodeFp F c).isInf = true
    let neg := fun i => bit (a i) 7 != bit (b i) 7
    let term := fun i => scaled f (a i) * scaled f (b i)
    let Y := term 0 + term 1 + term 2 + term 3 + scaled .f32 z * 2 ^ 149
    let zeros := fun (n : Bool) => (∀ i, i < 4 → term i = 0 ∧ neg i = n) ∧ scaled .f32 z = 0 ∧ bit z 31 = n
    let invalid := fun i => (inf f (a i) ∧ scaled f (b i) = 0 ∧ Finite f (b i)) ∨ (inf f (b i) ∧ scaled f (a i) = 0 ∧ Finite f (a i))
    let infTerm := fun (n : Bool) => (∃ i, i < 4 ∧ (inf f (a i) ∨ inf f (b i)) ∧ neg i = n) ∨ (inf .f32 z ∧ bit z 31 = n)
    ((∀ i, i < 4 → Finite f (a i) ∧ Finite f (b i)) → Finite .f32 z →
      (Y ≠ 0 → Rounds .f32 rm Y 298 r.1 ∧ r.2 = roundFlags .f32 rm Y 298 r.1) ∧
      (Y = 0 → r = (if zeros true ∨ (¬ zeros false ∧ rm = .rminf) then 2 ^ 31 else 0, 0))) ∧
    ((∃ i, i < 4 ∧ invalid i) → r = (0x7FC00000, 1)) ∧
    ((∀ i, i < 4 → (decodeFp f (a i)).isNan = false ∧ (decodeFp f (b i)).isNan = false ∧ ¬ invalid i) → isNaN32 z = false →
      (infTerm true → infTerm false → r = (0x7FC00000, 1)) ∧
      (infTerm true → ¬ infTerm false → r = (0xFF800000, 0)) ∧ (infTerm false → ¬ infTerm true → r = (0x7F800000, 0))))

/-- O10. For every state in which a fragment of a group has the turn, FCMP writes whether the comparison holds of the two values: a NaN makes eq, lt, le,
gt and ge false and ne and un true, and +0 equals −0; a signalling operand sets NV, a quiet one only under lt, le, gt and ge. FCLS writes the word
with the one bit of the operand's class and sets no flag. Nothing else changes. (R94, R95) -/
def Obligations.FloatCompareAndClass : Prop :=
  (∀ (s : State) (k i : Nat) (g : Group) (h : Hdr) (cmp : FCmp) (d : PReg) (a : Src) (b : SrcI),
    Turn s (.grp k i) g i → Calm s (.grp k i) g →
    let x := fun l => (pattern 32 g l a).toNat
    let y := fun l => (patternI 32 g l b).toNat
    let un := fun l => isNaN32 (x l) || isNaN32 (y l)
    let order := cmp = .lt ∨ cmp = .le ∨ cmp = .gt ∨ cmp = .ge
    LaneP s (exec (.fcmp h cmp d a b) s) (.grp k i) g i h (srcILen b) 5 d.val
      (fun l => match cmp with
        | .eq => !un l && decide (rank (x l) = rank (y l))
        | .ne => un l || decide (rank (x l) ≠ rank (y l))
        | .lt => !un l && decide (rank (x l) < rank (y l))
        | .le => !un l && decide (rank (x l) ≤ rank (y l))
        | .gt => !un l && decide (rank (y l) < rank (x l))
        | .ge => !un l && decide (rank (y l) ≤ rank (x l))
        | .un => un l
        | .ord => !un l)
      (fun l => if isSNaN32 (x l) ∨ isSNaN32 (y l) ∨ (order ∧ un l) then 1 else 0)) ∧
  (∀ (s : State) (k i : Nat) (g : Group) (h : Hdr) (d : VReg) (a : Src), Turn s (.grp k i) g i → Calm s (.grp k i) g →
    let x := fun l => (pattern 32 g l a).toNat
    let ex := fun l => x l / 2 ^ 23 % 256
    let fr := fun l => x l % 2 ^ 23
    let side := fun l (neg pos : Nat) => if x l < 2 ^ 31 then pos else neg
    LaneV s (exec (.fcls h d a) s) k i g h 8 5 32 d.val (fun l => 2 ^
      (if ex l = 255 then (if fr l = 0 then side l 0 7 else if isSNaN32 (x l) then 8 else 9)
       else if ex l = 0 then (if fr l = 0 then side l 3 4 else side l 2 5)
       else side l 1 6)) noFlags)

/-- O11. For every state in which a fragment of a group has the turn, CVTF, CVTI in both directions and CVTQ on scales that the format admits complete in
every active lane with the converted value and its flags, CVTQ with none. A float that is a representable value of a wider format converts exactly and
without flags; a narrower format takes the value rounded once with the flags of Table 2.2, a zero and an infinity of its sign, the canonical NaN for a
NaN with NV where it signals, and in E4M3 its NaN with NV for an infinity, or ±448 with OF and NX under the saturation variant. A float becomes the
integer its mode rounds it to, with NX where that is not exact; a rounded value out of the integer type's range, and an infinity, gives the nearest
end with NV, and a NaN 0 with NV. An integer becomes the float rounded once with its flags, and 0 is +0. A decoded block element has exactly the value
of its code under its scale. (04_isa_core.md R99, 04_isa_core.md R100, 04_isa_core.md R101, 02_number_formats.md R35, 02_number_formats.md R36,
02_number_formats.md R37, 02_number_formats.md R38, 02_number_formats.md R30, 02_number_formats.md R34) -/
def Obligations.FloatConversions : Prop :=
  (∀ (s : State) (k i : Nat) (g : Group) (h : Hdr) (rm : Rm) (d : VReg) (a : Src), Turn s (.grp k i) g i → Calm s (.grp k i) g →
    let x := fun (n l : Nat) => (pattern n g l a).toNat
    (∀ (dst src : Fmt) (sat : Bool), LaneV s (exec (.cvtf h dst src rm sat d a) s) k i g h 8 5 32 d.val
      (fun l => (fpConvert dst src rm sat (x (fmtBits src) l)).1) (fun l => (fpConvert dst src rm sat (x (fmtBits src) l)).2)) ∧
    (∀ (fty : AFmt) (ity : ITy), LaneV s (exec (.cvti h true fty ity rm d a) s) k i g h 8 5 (ityBits ity) d.val
      (fun l => inBits (ityBits ity) (itySigned ity) (fpToInt (afmt fty) (ityBits ity) (itySigned ity) rm (x (fmtBits (afmt fty)) l)).1)
      (fun l => (fpToInt (afmt fty) (ityBits ity) (itySigned ity) rm (x (fmtBits (afmt fty)) l)).2)) ∧
    (∀ (fty : AFmt) (ity : ITy), LaneV s (exec (.cvti h false fty ity rm d a) s) k i g h 8 5 32 d.val
      (fun l => (intToFp (afmt fty) rm (inBits (ityBits ity) (itySigned ity) (lane g l a))).1)
      (fun l => (intToFp (afmt fty) rm (inBits (ityBits ity) (itySigned ity) (lane g l a))).2))) ∧
  (∀ (s : State) (i k : Nat) (g : Group) (h : Hdr) (d : VReg) (a b : Src) (q8 : Bool) (j : Fin 8), Turn s (.grp k i) g i → Calm s (.grp k i) g →
    let scale := fun l => (pattern 8 g l a).toNat
    (q8 = true → ∀ l, bit (active g i h) l = true → scale l < 64) →
    LaneV s (exec (.cvtq h q8 j d a b) s) k i g h 8 6 32 d.val (fun l =>
      let w := (pattern 32 g l b).toNat
      blockBits (if q8 then q8Value (scale l) (w / 2 ^ (8 * j.val) % 256) else q4Value (scale l) (w / 2 ^ (4 * j.val) % 16))) noFlags) ∧
  (∀ sc code : Nat, sc < 256 → code < 256 →
    scaled .f32 (blockBits (q8Value sc code)) = (if code < 128 then (code : Int) else code - 256) * 2 ^ (117 + sc % 64) ∧
    (code < 16 → 2 * scaled .f32 (blockBits (q4Value sc code)) =
      getAt (0 : Int) (getAt ([] : List Int) [[0, 2, 4, 6, 8, 10, 12, 14, -16, -14, -12, -10, -8, -6, -4, -2],
        [0, 1, 2, 3, 4, 6, 8, 12, 0, -1, -2, -3, -4, -6, -8, -12], [0, 2, 4, 8, 16, 32, 64, 128, 0, -2, -4, -8, -16, -32, -64, -128],
        [0, 2, 4, 6, 8, 10, 16, 32, 0, -2, -4, -6, -8, -10, -16, -32]] (sc / 64)) code * 2 ^ (117 + sc % 64))) ∧
  (∀ (dst src : Fmt) (rm : Rm) (x : Nat), expBits src ≤ expBits dst → fracBits src ≤ fracBits dst → dst ≠ .e4m3 → Finite src x →
    Finite dst (fpConvert dst src rm false x).1 ∧ scaled dst (fpConvert dst src rm false x).1 = scaled src x ∧
      (fpConvert dst src rm false x).2 = 0) ∧
  (∀ (f : Fmt) (n : Nat) (sg : Bool) (rm : Rm) (x : Nat), (n = 8 ∨ n = 16 ∨ n = 32 ∨ n = 64) → Finite f x →
    (scaled f x < (minOf n sg - 1) * 2 ^ 149 → fpToInt f n sg rm x = (wrap n (minOf n sg), 1)) ∧
    ((maxOf n sg + 1) * 2 ^ 149 < scaled f x → fpToInt f n sg rm x = (wrap n (maxOf n sg), 1)) ∧
    (∀ v : Int, minOf n sg ≤ v → v ≤ maxOf n sg → scaled f x = v * 2 ^ 149 → fpToInt f n sg rm x = (wrap n v, 0)) ∧
    (∀ z : Int, RoundsInt rm (scaled f x) z → fpToInt f n sg rm x =
      if z < minOf n sg then (wrap n (minOf n sg), 1) else if maxOf n sg < z then (wrap n (maxOf n sg), 1)
      else (wrap n z, if z * 2 ^ 149 = scaled f x then 0 else 0x10))) ∧
  (∀ (f : Fmt) (n : Nat) (sg : Bool) (rm : Rm) (x : Nat), (n = 8 ∨ n = 16 ∨ n = 32 ∨ n = 64) →
    ((decodeFp f x).isNan = true → fpToInt f n sg rm x = (0, 1)) ∧
    (∀ neg, decodeFp f x = .inf neg → fpToInt f n sg rm x = (wrap n (if neg then minOf n sg else maxOf n sg), 1))) ∧
  (∀ (f : AFmt) (rm : Rm) (v : Int), intToFp (afmt f) rm 0 = (0, 0) ∧
    (v ≠ 0 → Rounds (afmt f) rm (v * 2 ^ 149) 149 (intToFp (afmt f) rm v).1 ∧
      (intToFp (afmt f) rm v).2 = roundFlags (afmt f) rm (v * 2 ^ 149) 149 (intToFp (afmt f) rm v).1)) ∧
  (∀ (dst src : Fmt) (rm : Rm) (sat : Bool) (x : Nat),
    let r := fpConvert dst src rm false x
    let side := fun (n : Bool) => if n then signBit dst else 0
    (Finite src x → scaled src x ≠ 0 → Rounds dst rm (scaled src x) 149 r.1 ∧ r.2 = roundFlags dst rm (scaled src x) 149 r.1 ∧
      fpConvert dst src rm true x = if dst = .e4m3 ∧ r.1 = 0x7F then (if scaled src x < 0 then 0xFE else 0x7E, 0x14) else r) ∧
    (Finite src x → scaled src x = 0 → fpConvert dst src rm sat x = (side (bit x (fmtBits src - 1)), 0)) ∧
    (∀ n, decodeFp src x = .inf n → fpConvert dst src rm sat x =
      if dst = .e4m3 then (if sat then (side n + 0x7E, 0x14) else (0x7F, 1)) else (side n + infBits dst, 0)) ∧
    (∀ sig, decodeFp src x = .nan sig → fpConvert dst src rm sat x = (nanBits dst, if sig then 1 else 0)))

/-- O12. For every state in which a fragment of a group has the turn, MOV, MOVI and MOVS write to register d of each active lane the source, the immediate
or the special value that Table 4.4 gives. In a fragment of one class MOVG starts a variable-latency result that writes the lowest active lane's
value, zero-extended, to its s register; without an active lane it writes nothing and sets no slot. Nothing else changes. (04_isa_core.md R102,
04_isa_core.md R103, 04_isa_core.md R80, 01_sequential_machine.md R16, 01_sequential_machine.md R20) -/
def Obligations.Moves : Prop :=
  (∀ (s : State) (k i : Nat) (g : Group) (h : Hdr) (ty : BTy) (d : VReg) (a : Src), Turn s (.grp k i) g i → Calm s (.grp k i) g →
    LaneV s (exec (.mov h ty d a) s) k i g h 8 2 (btyBits ty) d.val (fun l => (pattern (btyBits ty) g l a).toNat) noFlags ∧
    (∀ imm : BitVec 32, LaneV s (exec (.movi h ty d (.imm32 imm)) s) k i g h 12 2 (btyBits ty) d.val (fun _ => imm.toInt) noFlags) ∧
    (∀ imm : BitVec 64, LaneV s (exec (.movi h .b64 d (.imm64 imm)) s) k i g h 16 2 64 d.val (fun _ => imm.toNat) noFlags) ∧
    LaneV s (exec (.movs h .lane d) s) k i g h 8 2 32 d.val (fun l => l) noFlags ∧
    LaneV s (exec (.movs h .owner d) s) k i g h 8 2 32 d.val (fun l => g.entOf l) noFlags ∧
    LaneV s (exec (.movs h .slot d) s) k i g h 8 2 32 d.val (fun _ => (k % 256 : Nat)) noFlags ∧
    LaneV s (exec (.movs h .coord d) s) k i g h 8 2 32 d.val (fun _ => g.ocrd) noFlags ∧
    LaneV s (exec (.movs h .wg d) s) k i g h 8 2 32 d.val (fun l => (g.owner (g.entOf l)).wg) noFlags) ∧
  (∀ (s : State) (k i : Nat) (g : Group) (h : Hdr) (ty : BTy) (d : SReg) (a : Src), Turn s (.grp k i) g i → Calm s (.grp k i) g → OneClass g i →
    let act := active g i h
    (act = 0 → Begins s (exec (.movg h ty d a) s) (.grp k i) g i 8 h false false fun _ => True) ∧
    (∀ l, l < 16 → bit act l = true → (∀ j, j < l → bit act j = false) →
      Begins s (exec (.movg h ty d a) s) (.grp k i) g i 8 h true true fun op =>
        op.kind = .result ∧ op.elems = [] ∧ LandsS True d.val ((pattern (btyBits ty) g l a).setWidth 64) op.outs))

/-- O13. For every state in which a fragment of a group or a context has the turn: in the p form PLOG writes the logic function of pA and pB, and PSET
whether A⟨31:0⟩ is not 0, to pD of each active lane; in the q form they write f(qA⟨k⟩, qB⟨k⟩) and sA⟨k⟩ to bit k of qD for each class slot in which
the guard holds. Constants stay and nothing else changes. (R104, R105) -/
def Obligations.PredicateOps : Prop :=
  ∀ (s : State) (w : Issuer) (i : Nat) (g : Group) (h : Hdr), Turn s w g i → Calm s w g →
    let f := fun (fn : LogicFn) (x y : Bool) => match fn with
      | .and => x && y
      | .or => x || y
      | .xor => x != y
      | .andn => x && !y
      | .orn => x || !y
      | .xnor => x == y
      | .not => !x
    (∀ (fn : LogicFn) (d a b : PReg), LaneP s (exec (.plog h fn (.p d a b)) s) w g i h 8 2 d.val
      (fun l => f fn (g.readP a.val l) (g.readP b.val l)) noFlags) ∧
    (∀ (fn : LogicFn) (d a b : QReg), GroupQ s (exec (.plog h fn (.q d a b)) s) w g i h 8 2 d.val
      (fun c => f fn ((g.readQ a.val).getLsbD c) ((g.readQ b.val).getLsbD c))) ∧
    (∀ (d : PReg) (a : Src), LaneP s (exec (.pset h (.p d a)) s) w g i h 8 2 d.val (fun l => pattern 32 g l a != 0) noFlags) ∧
    (∀ (d : QReg) (a : SReg), GroupQ s (exec (.pset h (.q d a)) s) w g i h 8 2 d.val (fun c => (g.readS a.val).getLsbD c))

/-- O14. For every state in which a fragment of a group or a context has the turn, in one class where the instruction is marked, SALU writes the 64-bit
function of its operands to its s register, SCMP whether the comparison holds to every bit of qD whose class slot the guard names, and SSEL sA where
qC has the bit of the fragment's class slot, otherwise sB, 2 cycles on; s0 and q0 stay, and nothing else changes. (04_isa_core.md R106, 04_isa_core.md
R108, 04_isa_core.md R109, 04_isa_core.md R80, 04_isa_core.md R79) -/
def Obligations.GroupArithmetic : Prop :=
  ∀ (s : State) (w : Issuer) (i : Nat) (g : Group) (h : Hdr), Turn s w g i → Calm s w g →
    let imm32 := fun (x : BitVec 32) => x.signExtend 64
    let b := fun (r : GSrc) => match r with
      | .s r => g.readS r.val
      | .imm32 x => imm32 x
      | .imm64 x => x
    ((h.gp.val ≠ 0 → OneClass g i) → ∀ (fn : SaluFn) (d a : SReg) (r : GSrc),
      let x := g.readS a.val
      let y := b r
      GroupS s (exec (.salu h fn d a r) s) w g i h (gsrcLen r) 2 d.val (match fn with
        | .add => x + y
        | .sub => x - y
        | .mul => x * y
        | .and => x &&& y
        | .or => x ||| y
        | .xor => x ^^^ y
        | .shl => x <<< y.toNat
        | .shr => x >>> y.toNat
        | .sar => x.sshiftRight y.toNat
        | .mini => if x.sle y then x else y
        | .maxi => if x.sle y then y else x
        | .minn => if x.ule y then x else y
        | .maxn => if x.ule y then y else x)) ∧
    (∀ (signed : Bool) (cmp : Cmp) (d : QReg) (a : SReg) (r : SImm),
      let x := g.readS a.val
      let y := match r with
        | .s r => g.readS r.val
        | .imm c => if signed then imm32 c else c.setWidth 64
      let lt := fun (u v : BitVec 64) => if signed then u.slt v else u.ult v
      GroupQ s (exec (.scmp h signed cmp d a r) s) w g i h (simmLen r) 2 d.val (fun _ => match cmp with
        | .eq => x == y
        | .ne => x != y
        | .lt => lt x y
        | .le => !lt y x
        | .gt => lt y x
        | .ge => !lt x y)) ∧
    (OneClass g i → ∀ (d a b : SReg) (c : QReg) (l : Nat), bit (g.frag i).mask l = true → l < 16 →
      GroupS s (exec (.ssel h d a b c) s) w g i h 12 2 d.val
        (if (g.readQ c.val).getLsbD (g.clsOf l) then g.readS a.val else g.readS b.val))

/-- O15. For every state in which a fragment of a group or a context has the turn, in one class where GP is not 0, SMOV writes the register or immediate
to its s register 2 cycles on; to STATUS and FLAGS it clears the W1C bits written as 1 and changes no other, and FPCTL and CHECK take their one field.
Nothing else changes. (04_isa_core.md R107, 01_sequential_machine.md R11, 01_sequential_machine.md R7) -/
def Obligations.ControlRegisterMoves : Prop :=
  ∀ (s : State) (w : Issuer) (i : Nat) (g : Group) (h : Hdr) (a : SMovSrc), Turn s w g i → Calm s w g → (h.gp.val ≠ 0 → OneClass g i) →
    let x : BitVec 64 := match a with
      | .reg (.s r) => g.readS r.val
      | .reg (.ctl c) => g.readCtl c
      | .imm32 v => v.signExtend 64
      | .imm64 v => v
    let on := g.actQ (g.frag i).mask h
    (∀ d : SReg, GroupS s (exec (.smov h (.s d) a) s) w g i h (smovLen a) 2 d.val x) ∧
    (∀ c : Ctl, Completes s (exec (.smov h (.ctl c) a) s) w g i (smovLen a) 2 h (on != 0) (LandsCtl (on ≠ 0) c x))

/-- O16. For every state in which a fragment of a group has the turn, VOTE.all, .any, .uni and .ballot start a result formed over the active lanes of each
lane's own class: a p or v destination takes it in each active lane, a q destination in the bit of each class slot that has an active lane, and in a
fragment of one class an s destination takes the ballot of all active lanes. No other lane contributes, every other register is unchanged. ELECT
starts a predicate that is true in the lowest active lane of each class alone, MATCH the mask of the active lanes of the class with an equal value,
OWNQ a field of the lane's own owner-table entry, and FRAGQ the mask of the fragment's lanes of the class, active or not, or their number, in each
active lane; nothing else changes. (R147, R148, R149, R150, R151) -/
def Obligations.VotesAndQueries : Prop :=
  (∀ (s : State) (k i : Nat) (g : Group) (h : Hdr), Turn s (.grp k i) g i → Calm s (.grp k i) g →
     let act := active g i h
     let X := classLanes g act
     let lands := fun (d : PQ) (f : Nat → Bool) (outs : List Out) => match d with
       | .p r => LandsP act r.val f noFlags outs
       | .q r => ∃ v, LandsQ (slotsOf g act) r.val v outs ∧ ∀ l, l < 16 → bit act l = true → v (g.clsOf l) = f l
     (∀ (d : PQ) (a : PReg), LaneLater s (exec (.vote h (.all d a)) s) k i g h 8 (lands d fun l => (X l).all fun j => g.readP a.val j)) ∧
     (∀ (d : PQ) (a : PReg), LaneLater s (exec (.vote h (.any d a)) s) k i g h 8 (lands d fun l => (X l).any fun j => g.readP a.val j)) ∧
     (∀ (d : PQ) (a : Src), LaneLater s (exec (.vote h (.uni d a)) s) k i g h 8
       (lands d fun l => (X l).all fun j => pattern 32 g j a == pattern 32 g l a)) ∧
     (∀ (d : VReg) (a : PReg), LaneLater s (exec (.vote h (.ballot (.v d) a)) s) k i g h 8
       (LandsV act 32 d.val (fun l => (maskWhere fun j => inClass g act l j && g.readP a.val j : Nat)) noFlags)) ∧
     (∀ (d : SReg) (a : PReg), OneClass g i → LaneLater s (exec (.vote h (.ballot (.s d) a)) s) k i g h 8
       (LandsS True d.val (BitVec.ofNat 64 (maskWhere fun j => bit act j && g.readP a.val j))))) ∧
  (∀ (s : State) (k i : Nat) (g : Group) (h : Hdr), Turn s (.grp k i) g i → Calm s (.grp k i) g →
     let act := active g i h
     let lands := fun (d : VReg) (f : Nat → Nat) => LandsV act 32 d.val (fun l => (f l : Int)) noFlags
     (∀ d : PReg, LaneLater s (exec (.elect h d) s) k i g h 8
       (LandsP act d.val (fun l => (classLanes g act l).all fun j => decide (l ≤ j)) noFlags)) ∧
     (∀ (ty : BTy) (d a : VReg), LaneLater s (exec (.matchl h ty d a) s) k i g h 8
       (lands d fun l => maskWhere fun j => inClass g act l j && pattern (btyBits ty) g j (.v a) == pattern (btyBits ty) g l (.v a))) ∧
     (∀ (fld : OwnField) (d : VReg), LaneLater s (exec (.ownq h fld d) s) k i g h 8
       (lands d fun l => let o := g.owner (g.entOf l)
         match fld with
         | .index => g.entOf l
         | .vf => o.vf
         | .asid => o.asid
         | .awn => o.awn)) ∧
     (∀ (count : Bool) (d : VReg), LaneLater s (exec (.fragq h count d) s) k i g h 8
       (lands d fun l => let m := classLanes g (g.frag i).mask l
         if count then m.length else (m.map fun j => 2 ^ j).sum)))

/-- O17. For every state in which a fragment of a group has the turn, SHFL and BCST start in each active lane the value of the source lane that R152 and
R153 name: 0 where that lane is not active, 0 and the lane's bit of STATUS.FILT where it is of another class, its register otherwise. RDLN in a
fragment of one class starts the zero-extended value of the named lane, 0 if it is not active, and writes nothing and sets no slot without an active
lane. Nothing else changes. That STATUS.FILT is set when the result lands is the model's reading (log 42). (06_isa_parallel.md R152,
06_isa_parallel.md R153, 06_isa_parallel.md R154, 06_isa_parallel.md R141) -/
def Obligations.LaneExchange : Prop :=
  ∀ (s : State) (k i : Nat) (g : Group) (h : Hdr), Turn s (.grp k i) g i → Calm s (.grp k i) g →
    let act := active g i h
    let other := fun (l S : Nat) => bit act S && g.clsOf S != g.clsOf l
    let from_ := fun (n : Nat) (a : VReg) (S : Nat → Nat) (l : Nat) =>
      if inClass g act l (S l) then ((pattern n g (S l) (.v a)).toNat : Int) else 0
    let uniform := fun (b : SImm) => match b with
      | .s r => (g.readS r.val).toNat % 16
      | .imm x => x.toNat % 16
    (∀ (fn : ShflFn) (m : Fin 4) (d a : VReg) (b : SrcI),
      let w := 16 / 2 ^ m.val
      let base := fun l => l / w * w
      let n := fun l => (patternI 32 g l b).toNat
      let S := fun l => match fn with
        | .idx => base l + n l % w
        | .xor => base l + ((l - base l) ^^^ (n l % w))
        | .up => if n l ≤ l - base l then l - n l else l
        | .down => if l + n l < base l + w then l + n l else l
      LaneLater s (exec (.shfl h fn m d a b) s) k i g h (srcILen b)
        (LandsX act 32 d.val (from_ 32 a S) (fun l => other l (S l)))) ∧
    (∀ (ty : BTy) (d a : VReg) (b : SImm), LaneLater s (exec (.bcst h ty d a b) s) k i g h (simmLen b)
      (LandsX act (btyBits ty) d.val (from_ (btyBits ty) a fun _ => uniform b) (fun l => other l (uniform b)))) ∧
    (∀ (ty : BTy) (d : SReg) (a : VReg) (b : SImm), OneClass g i → LaneLater s (exec (.rdln h ty d a b) s) k i g h (simmLen b)
      (LandsS True d.val (if bit act (uniform b) then (pattern (btyBits ty) g (uniform b) (.v a)).setWidth 64 else 0)))

/-- O18. For every state in which a fragment of a group has the turn, LRED starts in each active lane the combination, left to right in ascending lane
number, of the values of the active lanes of its class, and PRFX the combination of those up to the lane itself, or for xadd of those below it, with 0
below the first; FLAGS gains the flags of every step, for PRFX.xadd those of the steps r_0 to r_(m−2) whose sums lanes write, and of r_0 for every m,
so that the last sum of a class of more lanes than one sets none. Nothing else changes. The steps are those of the integer type, of binary32 addition
under FPCTL.DRM, and of FMNX. That these are the steps which count for PRFX.xadd, and that FLAGS is set when the result lands, is the model's reading
(log 42). (06_isa_parallel.md R155, 06_isa_parallel.md R141, 06_isa_parallel.md R142) -/
def Obligations.ReductionsAndScans : Prop :=
  ∀ (s : State) (k i : Nat) (g : Group) (h : Hdr) (op : RedOp) (ty : RTy) (d a : VReg), Turn s (.grp k i) g i → Calm s (.grp k i) g →
    let act := active g i h
    let n := rtyBits ty
    let rm := drmOf g.fpctl
    let x := fun l => (pattern n g l (.v a)).toNat
    let fold := fun (ls : List Nat) => match ls with
      | [] => 0
      | l :: t => t.foldl (fun r j => (redStep op ty rm r (x j)).1) (redFirst ty (x l)).1
    let below := fun l => (classLanes g act l).filter fun j => decide (j < l)
    let flags := fun l => if below l = [] then (redFirst ty (x l)).2 else (redStep op ty rm (fold (below l)) (x l)).2
    (redPair false ty op = true → LaneLater s (exec (.lred h op ty d a) s) k i g h 8
      (LandsV act n d.val (fun l => (fold (classLanes g act l) : Nat)) flags)) ∧
    (redPair true ty op = true → op ≠ .xadd → LaneLater s (exec (.prfx h op ty d a) s) k i g h 8
      (LandsV act n d.val (fun l => (fold (below l ++ [l]) : Nat)) flags)) ∧
    (redPair true ty op = true → op = .xadd → LaneLater s (exec (.prfx h op ty d a) s) k i g h 8
      (LandsV act n d.val (fun l => (fold (below l) : Nat))
        (fun l => if below l ≠ [] ∧ (∀ j ∈ classLanes g act l, j ≤ l) then 0 else flags l))) ∧
    (∀ u v : Nat, redFirst ty u = (if ty = .f32 ∧ (decodeFp .f32 u).isSnan = true then (0x7FC00000, 1) else (u, 0)) ∧
      (ty = .f32 → (op = .add ∨ op = .xadd → redStep op ty rm u v = fpAdd .f32 rm u v) ∧
        (op = .min → redStep op ty rm u v = fpMinMax .f32 false u v) ∧ (op = .max → redStep op ty rm u v = fpMinMax .f32 true u v))) ∧
    (∀ u v : Nat, ty ≠ .f32 → u < 2 ^ n → v < 2 ^ n → redStep op ty rm u v =
      (let U := BitVec.ofNat n u
       let V := BitVec.ofNat n v
       let le := if rtySigned ty then U.sle V else U.ule V
       (match op with
        | .add | .xadd => U + V
        | .min => if le then U else V
        | .max => if le then V else U
        | .and => U &&& V
        | .or => U ||| V
        | .xor => U ^^^ V).toNat, 0))

/-- O19. For every state in which a fragment of a group or a context has the turn, where the q guard holds in every class slot of the fragment, BRA and
CALL go to PC plus the sign-extended offset and JMP and RET to the value of their register, if it is a multiple of 4 below the end of the text; the
stall gate opens STALL + 3 cycles on, and CALL's s register takes the link address, 2 cycles on. Where the guard holds in no slot, each acts as NOP
and checks no target. Registers, memory outside the trace buffer and everything else are unchanged. That a scoreboard slot set by an instruction that
writes nothing is released in the cycle after issue is the model's choice (log 8). For every text of at most 4 GiB and every PC in it, the link
address of a CALL is at or after PC + 12, every whole word from PC + 12 up to it is a pad word, and it is either the address of a whole word that is
no pad word, or the text length where only pad words are left. (04_isa_core.md R111, 04_isa_core.md R81, 03_encoding_assembly.md R61, 04_isa_core.md
R80, 01_sequential_machine.md R16, 01_sequential_machine.md R14) -/
def Obligations.TransfersAndLinks : Prop :=
  (∀ (s : State) (w : Issuer) (i : Nat) (g : Group) (h : Hdr), Turn s w g i → Calm s w g →
     let f := g.frag i
     let all := g.classMask f.mask
     let on := g.actQ f.mask h
     let goes := fun (o : Answer) (pc : Nat) (R : List Out → Prop) => ∃ t g', o = .next t ∧ OthersTraced s t w g' ∧
       IssuedTo g g' i pc (s.cycle + h.stall.val + 3) h true ∧ Pending g g' i (s.cycle + 2) h true R
     let stays := fun (o : Answer) (len : Nat) => ∃ t g', o = .next t ∧ OthersTraced s t w g' ∧ Issued g g' i len s.cycle h false ∧ g'.pend = g.pend
     let none_ := fun (l : List Out) => l = []
     (on = all → on ≠ 0 → ∀ off : BitVec 32, goes (exec (.bra h off) s) ((f.pc + off.toNat) % 2 ^ 32) none_) ∧
     (on = 0 → all ≠ 0 → ∀ off : BitVec 32, stays (exec (.bra h off) s) 12) ∧
     ((h.gp.val ≠ 0 → OneClass g i) → on = all → on ≠ 0 → ∀ (d : SReg) (off : BitVec 32),
       goes (exec (.call h d off) s) ((f.pc + off.toNat) % 2 ^ 32) (LandsS True d.val (BitVec.ofNat 64 (linkOf (s.textOf g) f.pc)))) ∧
     ((h.gp.val ≠ 0 → OneClass g i) → on = 0 → all ≠ 0 → ∀ (d : SReg) (off : BitVec 32), stays (exec (.call h d off) s) 12) ∧
     (∀ a : SReg, let v := (g.readS a.val).toNat
       (on = all → on ≠ 0 → v < 2 ^ 32 → v % 4 = 0 → v < (s.textOf g).length →
         goes (exec (.jmp h a) s) v none_ ∧ goes (exec (.ret h a) s) v none_) ∧
       (on = 0 → all ≠ 0 → stays (exec (.jmp h a) s) 8 ∧ stays (exec (.ret h a) s) 8))) ∧
  (∀ (text : List Byte) (pc : Nat), pc % 4 = 0 → text.length % 4 = 0 → pc + 12 ≤ text.length →
     let L := linkOf text pc
     let pad := fun a => textAt text a 1 % 4 = 3
     pc + 12 ≤ L ∧ L % 4 = 0 ∧ (∀ a, pc + 12 ≤ a → a < L → a % 4 = 0 → pad a) ∧
       ((L + 4 ≤ text.length ∧ ¬ pad L) ∨ L = text.length))

/-- O20. That a scoreboard slot set by an instruction that writes nothing is released in the cycle after issue is the model's choice (log 8). For every
group fragment, BRD whose guard holds in every lane goes to its target, and in no lane to the next instruction; naming an s register with a valid
address it first pushes a knot there with the fragment's whole mask, also when it does not split. KNOT with an active lane and an address inside the
text pushes such a knot; without an active lane it checks and pushes nothing. No register and no memory outside the trace buffer changes. For every
group fragment with a free split entry whose BRD, BRA, JMP or RET is taken by some of its lanes but not all (BRA, JMP and RET: the lanes of the class
slots in which the guard holds; JMP and RET with a target that passes their check), the lanes that take it stand at the target with the gate STALL + 3
cycles on, the others at the next instruction with the gate STALL + 1 on; the part with the fragment's lowest lane keeps its entry and age, the other
takes the lowest free entry with the youngest age, each has copies of the counters, and no register, lane or other fragment changes. BRD that names an
s register pushes a knot with that PC and the fragment's whole mask first. (06_isa_parallel.md R144, 06_isa_parallel.md R145, 05_parallel_execution.md
R129, 05_parallel_execution.md R128, 04_isa_core.md R111) -/
def Obligations.Divergence : Prop :=
  (∀ (s : State) (k i : Nat) (g : Group) (h : Hdr) (off : BitVec 32) (a : SReg), Turn s (.grp k i) g i → Calm s (.grp k i) g →
     let f := g.frag i
     let T := active g i h
     let target := (f.pc + off.toNat) % 2 ^ 32
     let v := (g.readS a.val).toNat
     let pushed := fun (n pc : Nat) => { g.setKnot n { valid := true, mask := f.mask, arr := 0, pc := pc, ord := g.pushes } with pushes := g.pushes + 1 }
     let goes := fun (o : Answer) (g0 : Group) (pc gate : Nat) (covers : Bool) => ∃ t g', o = .next t ∧ OthersTraced s t (.grp k i) g' ∧
       IssuedTo g0 g' i pc gate h covers ∧ Pending g0 g' i (s.cycle + 2) h covers fun l => l = []
     (f.mask ≠ 0 → T = f.mask → a.val = 0 → goes (exec (.brd h off a) s) g target (s.cycle + h.stall.val + 3) true) ∧
     (f.mask ≠ 0 → T = 0 → a.val = 0 → goes (exec (.brd h off a) s) g (f.pc + 12) (s.cycle + h.stall.val + 1) false) ∧
     (∀ n, a.val ≠ 0 → v < 2 ^ 32 → v % 4 = 0 → v < (s.textOf g).length → g.freeKnot = some n →
       (f.mask ≠ 0 → T = f.mask → goes (exec (.brd h off a) s) (pushed n v) target (s.cycle + h.stall.val + 3) true) ∧
       (f.mask ≠ 0 → T = 0 → goes (exec (.brd h off a) s) (pushed n v) (f.pc + 12) (s.cycle + h.stall.val + 1) false)) ∧
     (∀ n, T ≠ 0 → target % 4 = 0 → target < (s.textOf g).length → g.freeKnot = some n →
       goes (exec (.knot h off) s) (pushed n target) (f.pc + 12) (s.cycle + h.stall.val + 1) true) ∧
     (T = 0 → goes (exec (.knot h off) s) g (f.pc + 12) (s.cycle + h.stall.val + 1) false)) ∧
  (∀ (s : State) (k i j : Nat) (g : Group) (h : Hdr) (off : BitVec 32) (a : SReg) (es : List Nat), Turn s (.grp k i) g i → Calm s (.grp k i) g →
     g.freeFrags = j :: es →
     let f := g.frag i
     let splits := fun (o : Answer) (T tgt len : Nat) (knots : Tab Knot) (pushes : Nat) => ∃ t, o = .next t ∧
       let g' := t.groupsAt k
       let low := bit T (lowest f.mask)
       let e := if low then i else j
       let e' := if low then j else i
       ((g'.frag e).fst = .live ∧ (g'.frag e).mask = T ∧ (g'.frag e).pc = tgt ∧
         (g'.frag e).gate = s.cycle + h.stall.val + 3) ∧
       ((g'.frag e').fst = .live ∧ (g'.frag e').mask = mDiff f.mask T ∧ (g'.frag e').pc = f.pc + len ∧
         (g'.frag e').gate = s.cycle + h.stall.val + 1) ∧
       ((g'.frag i).born = f.born ∧ (g'.frag j).born = g.births ∧ g'.births = g.births + 1) ∧
       (∀ n, (g'.frag i).slotAt n = f.slotAt n + (if n = h.sbs.val ∧ n ≠ 0 then 1 else 0) ∧ (g'.frag j).slotAt n = (g'.frag i).slotAt n) ∧
       (∀ x, x ≠ i → x ≠ j → (g'.frag x).fst = (g.frag x).fst ∧ (g'.frag x).mask = (g.frag x).mask ∧ (g'.frag x).pc = (g.frag x).pc) ∧
       (g'.v = g.v ∧ g'.s = g.s ∧ g'.p = g.p ∧ g'.q = g.q ∧ g'.pres = g.pres ∧ g'.knots = knots ∧ g'.pushes = pushes) ∧
       (∀ x, x ≠ k → t.groupsAt x = s.groupsAt x) ∧ Traced s t (.grp k i) ∧
       { t with groups := s.groups, ops := s.ops, mem := s.mem, traces := s.traces } = s
     let T := active g i h
     let target := (f.pc + off.toNat) % 2 ^ 32
     (T ≠ 0 → T ≠ f.mask → a.val = 0 → splits (exec (.brd h off a) s) T target 12 g.knots g.pushes) ∧
     (∀ n, T ≠ 0 → T ≠ f.mask → a.val ≠ 0 → (g.readS a.val).toNat < 2 ^ 32 → (g.readS a.val).toNat % 4 = 0 →
       (g.readS a.val).toNat < (s.textOf g).length → g.freeKnot = some n →
       splits (exec (.brd h off a) s) T target 12
         (g.setKnot n { valid := true, mask := f.mask, arr := 0, pc := (g.readS a.val).toNat, ord := g.pushes }).knots (g.pushes + 1)) ∧
     (∀ on, on = g.actQ f.mask h → on ≠ 0 → on ≠ g.classMask f.mask →
       let slots := maskWhere fun l => bit f.mask l && bit on (g.clsOf l)
       let v := (g.readS a.val).toNat
       splits (exec (.bra h off) s) slots target 12 g.knots g.pushes ∧
       (v < 2 ^ 32 → v % 4 = 0 → v < (s.textOf g).length →
         splits (exec (.jmp h a) s) slots v 8 g.knots g.pushes ∧ splits (exec (.ret h a) s) slots v 8 g.knots g.pushes)))

/-- O21. For every group fragment at a JOIN: where no valid knot has its PC and one of its lanes, it goes on to the next instruction as NOP does; where
the youngest such knot exists and one of the fragment's counters is not zero, nothing changes; where all are zero and all its lanes are members, it
waits at the knot without a path slot and its lanes have arrived, and where that makes the arrived lanes all members, the knot is gone and one live
fragment at PC + 8 holds them, its counters zero. Where only some of its lanes are members, these wait at the knot and the others go on at PC + 8 as a
fragment of their own, the part with the lowest lane in the fragment's entry and the other in the lowest free one. Registers and memory outside the
trace buffer are unchanged. That a scoreboard slot set by an instruction that writes nothing is released in the cycle after issue is the model's
choice (log 8). (05_parallel_execution.md R130, 06_isa_parallel.md R146, 05_parallel_execution.md R131) -/
def Obligations.Reconvergence : Prop :=
  ∀ (s : State) (k i : Nat) (g : Group) (h : Hdr), Turn s (.grp k i) g i →
    let f := g.frag i
    (g.findKnot f.pc f.mask = none → Completes s (exec (.join h) s) (.grp k i) g i 8 2 h true fun l => l = []) ∧
    (∀ n, g.findKnot f.pc f.mask = some n → f.sb ≠ [] → exec (.join h) s = .next s) ∧
    (∀ n, g.findKnot f.pc f.mask = some n → n < 32 → f.sb = [] → mDiff f.mask (g.knot n).mask = 0 → f.mask < 65536 → i < 16 → i ∉ g.waiting →
      ∃ t, exec (.join h) s = .next t ∧
        let g' := t.groupsAt k
        let arr := (g.knot n).arr ||| (f.mask &&& (g.knot n).mask)
        (arr ≠ (g.knot n).mask → (g.knot n).mask ≠ 0 → (g'.frag i).fst = .joining ∧ (g'.frag i).kix = n ∧ (g'.frag i).slot = 0 ∧
          (g'.frag i).mask = f.mask ∧ g'.knot n = { g.knot n with arr := arr }) ∧
        (arr = (g.knot n).mask → (g.knot n).mask ≠ 0 → g'.knot n = Knot.empty ∧ ∃ e, e < 16 ∧ (g'.frag e).fst = .live ∧ (g'.frag e).mask = arr ∧
          (g'.frag e).pc = f.pc + 8 ∧ (g'.frag e).sb = [] ∧ s.cycle + 1 ≤ (g'.frag e).gate) ∧
        g'.v = g.v ∧ g'.s = g.s ∧ g'.p = g.p ∧ g'.q = g.q ∧ g'.retired = g.retired + 1 ∧ (∀ x, x ≠ k → t.groupsAt x = s.groupsAt x) ∧
        Traced s t (.grp k i) ∧ { t with groups := s.groups, ops := s.ops, mem := s.mem, traces := s.traces } = s) ∧
    (∀ n j es, g.findKnot f.pc f.mask = some n → n < 32 → f.sb = [] → g.freeFrags = j :: es →
      let kn := g.knot n
      let member := f.mask &&& kn.mask
      let other := mDiff f.mask kn.mask
      other ≠ 0 → kn.arr ||| member ≠ kn.mask → f.mask < 65536 → i < 16 → i ∉ g.waiting →
      ∃ t, exec (.join h) s = .next t ∧
        let g' := t.groupsAt k
        let e := if bit kn.mask (lowest f.mask) then i else j
        let e' := if bit kn.mask (lowest f.mask) then j else i
        (g'.frag e).fst = .joining ∧ (g'.frag e).kix = n ∧ (g'.frag e).slot = 0 ∧ (g'.frag e).mask = member ∧
        (g'.frag e').fst = .live ∧ (g'.frag e').mask = other ∧ (g'.frag e').pc = f.pc + 8 ∧
        g'.knot n = { kn with arr := kn.arr ||| member } ∧
        g'.v = g.v ∧ g'.s = g.s ∧ g'.p = g.p ∧ g'.q = g.q ∧ (∀ x, x ≠ k → t.groupsAt x = s.groupsAt x))

/-- O22. For every group fragment whose EXIT has an active lane, those lanes are in no fragment and no knot of the group any more and no longer present,
the lanes whose guard is false go on at the next instruction in the same entry, and no register changes. A context whose EXIT has its lane active
returns to STATE 0b00. Without an active lane EXIT acts as NOP. For every state in which a fragment has the turn, NOP changes nothing beyond its
issue. Where no fragment of the group waits, YIELD acts as NOP, and BACKOFF opens the stall gate min(A⟨31:0⟩, 4095) cycles later than NOP would; where
the guard holds and one waits while no slot is free, each gives the slot to the front of the waiting order and its fragment goes to the back. With the
guard false in every slot both act as NOP. That a scoreboard slot set by an instruction that writes nothing is released in the cycle after issue is
the model's choice (log 8). (04_isa_core.md R112, 05_parallel_execution.md R131, 11_ternary_array.md R221, 04_isa_core.md R113, 06_isa_parallel.md
R156, 05_parallel_execution.md R132) -/
def Obligations.ExitAndYield : Prop :=
  ((∀ (s : State) (k i : Nat) (g : Group) (h : Hdr), Turn s (.grp k i) g i → Calm s (.grp k i) g →
     let m := active g i h
     (m = 0 → Completes s (exec (.exit h) s) (.grp k i) g i 8 2 h false fun l => l = []) ∧
     (m ≠ 0 → i < 16 → ∃ t, exec (.exit h) s = .next t ∧
         let g' := t.groupsAt k
         g'.pres = mDiff g.pres m ∧
         (∀ e, e < 16 → (g'.frag e).fst ≠ .free → (g'.frag e).mask &&& m = 0) ∧
         (∀ n, n < 32 → (g'.knot n).valid = true → (g'.knot n).mask &&& m = 0) ∧
         (mDiff (g.frag i).mask m ≠ 0 → (g'.frag i).fst = .live ∧ (g'.frag i).mask = mDiff (g.frag i).mask m ∧ (g'.frag i).pc = (g.frag i).pc + 8) ∧
         g'.v = g.v ∧ g'.s = g.s ∧ g'.p = g.p ∧ g'.q = g.q ∧ t.ctxs = s.ctxs ∧ t.acc = s.acc ∧ t.engs = s.engs)) ∧
   (∀ (s : State) (k : Nat) (g : Group) (h : Hdr), Turn s (.ctx k) g 0 → Calm s (.ctx k) g →
     let m := active g 0 h
     (m = 0 → Completes s (exec (.exit h) s) (.ctx k) g 0 8 2 h false fun l => l = []) ∧
     (m ≠ 0 → ∃ t, exec (.exit h) s = .next t ∧ (t.ctxsAt k).state = 0 ∧ t.groups = s.groups ∧ t.mem = s.mem ∧
       (∀ x, x ≠ k → t.ctxsAt x = s.ctxsAt x)))) ∧
  ((∀ (s : State) (w : Issuer) (i : Nat) (g : Group) (h : Hdr), Turn s w g i → Calm s w g →
     Completes s (exec (.nop h) s) w g i 8 2 h (active g i h != 0) (fun l => l = []) ∧
     (let on := g.actQ (g.frag i).mask h
      (g.waiting = [] ∨ on = 0 → Completes s (exec (.yield h) s) w g i 8 2 h (on != 0) fun l => l = []))) ∧
   (∀ (s : State) (k i : Nat) (g : Group) (h : Hdr) (a : SReg), Turn s (.grp k i) g i → Calm s (.grp k i) g →
     let on := g.actQ (g.frag i).mask h
     let n := min ((g.readS a.val).toNat % 2 ^ 32) 4095
     (on = 0 → Completes s (exec (.backoff h a) s) (.grp k i) g i 8 2 h false fun l => l = []) ∧
     (on ≠ 0 → g.waiting = [] → ∃ t g', exec (.backoff h a) s = .next t ∧ Others s t (.grp k i) g' ∧
       IssuedTo g g' i ((g.frag i).pc + 8) (s.cycle + h.stall.val + 1 + n) h true) ∧
     (∀ (u : Nat) (rest : List Nat), on ≠ 0 → g.waiting = u :: rest → i ∉ g.waiting → g.freeSlots = [] → g.rpl = false →
       ((g.frag i).slot = 1 ∨ (g.frag i).slot = 2) → (∀ e, e ≠ i → (g.frag e).slot ≠ (g.frag i).slot) → u < 16 → (g.frag u).fst = .live → (g.frag u).slot = 0 →
       ∀ o, o = exec (.yield h) s ∨ o = exec (.backoff h a) s → ∃ t, o = .next t ∧
         let g' := t.groupsAt k
         (g'.frag u).slot = (g.frag i).slot ∧ (g'.frag i).slot = 0 ∧ g'.waiting = rest ++ [i] ∧ (g'.frag i).pc = (g.frag i).pc + 8 ∧
         g'.v = g.v ∧ g'.s = g.s ∧ g'.p = g.p ∧ g'.q = g.q ∧ (∀ x, x ≠ k → t.groupsAt x = s.groupsAt x) ∧ { t with groups := s.groups } = s)))

/-- O23. For every issuer, lane and piece of an access: a misaligned address is MISALIGNED before anything else; one whose top byte Table 8.3 does not
give, or with a zero field of its window that is not 0, is BAD_WINDOW; a barrier outside the scratch windows is BARRIER_FORMAT; a core-scratch address
of another core is FOREIGN_SCRATCH, one past the owner's segment SCRATCH_BOUND, and otherwise it leads to offset 64 · SBASE + o of the core, in a
handler to offset o of it under the limit of the core alone; a cluster-scratch address is checked likewise against the own cluster and its function's
ranges, a die-scratch one against the ranges alone, on any die; a private one past its owner's stride is XLAT_INVALID. (08_memory_spaces.md R163,
08_memory_spaces.md R164, 08_memory_spaces.md R165, 08_memory_spaces.md R172, 10_isa_memory.md R192, 16_faults_preemption.md R292) -/
def Obligations.AccessChecks : Prop :=
  ∀ (s : State) (w : Issuer) (g : Group) (fs : List FillFault) (l : Nat) (t : Want),
    let o := g.ownerOf l
    let a := BitVec.ofNat 64 t.addr
    let top := a.extractLsb' 56 8
    let aligned := t.addr % t.align = 0
    let got := s.got w g fs l t
    t.addr < 2 ^ 64 →
    (¬ aligned → got = .bad cMisaligned) ∧
    (aligned → top ∉ ([0x00, 0xF9, 0xFA, 0xFB, 0xFC, 0xFD] : List (BitVec 8)) → got = .bad cBadWindow) ∧
    (aligned → (top = 0xF9 ∨ top = 0xFA) → a.extractLsb' 32 24 ≠ 0 → got = .bad cBadWindow) ∧
    (aligned → t.barrier = true → (top = 0x00 ∨ ((top = 0xF9 ∨ top = 0xFA) ∧ a.extractLsb' 32 24 = 0)) → got = .bad cBarrierFormat) ∧
    (aligned → top = 0xFD → a.extractLsb' 18 27 ≠ 0 → got = .bad cBadWindow) ∧
    (aligned → top = 0xFC → a.extractLsb' 21 26 ≠ 0 → got = .bad cBadWindow) ∧
    (aligned → top = 0xFB → a.extractLsb' 25 29 ≠ 0 → got = .bad cBadWindow) ∧
    (aligned → top = 0xFD → a.extractLsb' 18 27 = 0 →
      let core := (a.extractLsb' 45 11).toNat
      let off := (a.extractLsb' 0 18).toNat
      (core ≠ g.ocrd → got = .bad cForeignScratch) ∧
      (core = g.ocrd → g.handler = none →
        got = if 64 * o.slen < off + t.n then .bad cScratchBound else .at (coreKey (coreOf w) (64 * o.sbase + off))) ∧
      (core = g.ocrd → g.handler.isSome = true → got = if 262144 < off + t.n then .bad cScratchBound else .at (coreKey (coreOf w) off))) ∧
    (aligned → top = 0xFC → a.extractLsb' 21 26 = 0 →
      let cl := (a.extractLsb' 47 9).toNat
      let off := (a.extractLsb' 0 21).toNat
      (cl ≠ g.ocrd / 4 → got = .bad cForeignScratch) ∧
      (cl = g.ocrd / 4 → got = if s.clusterScratchOk cl o.vf off t.n then .at (clusterKey cl off) else .bad cScratchBound)) ∧
    (aligned → top = 0xFB → a.extractLsb' 25 29 = 0 →
      let die := (a.extractLsb' 54 2).toNat
      let off := (a.extractLsb' 0 25).toNat
      got = if s.dieScratchOk die o.vf off t.n then .at (dieKey die off) else .bad cScratchBound) ∧
    (aligned → top = 0xFA → a.extractLsb' 32 24 = 0 → t.barrier = false →
      let pstr := o.ctx / 2 ^ 304 % 2 ^ 16
      (pstr = 0 ∨ 64 * pstr < (a.extractLsb' 0 32).toNat + t.n → got = .bad cXlatInvalid))

/-- O24. For every owner and GVA: a fill through stage 2 that succeeds enters an entry that covers the GVA, adds what leads it to the HPA that stage 2
gives for the GPA that stage 1 gives, has the permissions that both stages grant, among them the one needed, and its frame has the attribute and key
of the entry, which memory of Table 8.2 backs and whose region admits the function; using it at once gives that HPA. A fill that fails, and leads into
no frame that SETFA holds, names XLAT_MISS, XLAT_DENIED, XLAT_INVALID or ALIAS_ATTR, or UNCORRECTABLE where a line of a table fails its check.
(08_memory_spaces.md R168, 08_memory_spaces.md R169, 08_memory_spaces.md R170, 08_memory_spaces.md R171, 08_memory_spaces.md R161) -/
def Obligations.FillTranslates : Prop :=
  ∀ (s : State) (vf asid key gva need q : Nat), gva < 2 ^ 56 → (need = 1 ∨ need = 2 ∨ need = 4) →
    (∀ a b e walked, s.stage1 vf asid gva q = .ok a → s.aperture vf a.out q = .ok none → s.stage2 vf a.out q = .ok b →
      s.fill vf asid key gva need q = .ok e walked →
      e.vf = vf ∧ e.asid = asid ∧ e.lo ≤ gva ∧ (gva < a.hi → a.out < b.hi → gva < e.hi) ∧ (gva + e.add) % 2 ^ 48 = b.out % 2 ^ 48 ∧
      (e.r = (bit a.perm 0 && bit b.perm 0)) ∧ (e.w = (bit a.perm 1 && bit b.perm 1)) ∧ (e.a = (bit a.perm 2 && bit b.perm 2)) ∧
      (need = 1 → e.r = true) ∧ (need = 2 → e.w = true) ∧ (need = 4 → e.a = true) ∧
      hpaMapped b.out = true ∧ s.admits_ vf b.out = true ∧ s.framesAt (b.out / 65536) = e.pair ∧
      (b.out < 2 ^ 48 → b.key < 1024 → s.useEntry e gva need false = .ok b.out)) ∧
    (∀ c, s.fill vf asid key gva need q = .bad c → s.fillHeld vf asid gva q = false →
      c = cXlatMiss ∨ c = cXlatDenied ∨ c = cXlatInvalid ∨ c = cAliasAttr ∨ c = cUncorrectable)

/-- O25. For every state in which a fragment has the turn and the probe finds every lane's location, LD starts an outstanding load of NREG elements at the
address of each active lane for consecutive registers of that lane, LDAQ of each entry's leader alone for every active lane of the entry, and SLD at
the group's one address for consecutive s registers; acquire and scope are the instruction's. Memory, registers and all else are unchanged until the
result is written back. Without an active lane each acts as NOP. Where the probe of an LD outside a handler, at its issue or when its fills have come,
finds XLAT_MISS, XLAT_DENIED or ALIAS_ATTR in some lanes of one owner and a location in the others, all its active lanes park at the instruction with
that cause, the faulting lanes and the address of the lowest of them in the record, and the lanes that were not active go on. (04_isa_core.md R110,
04_isa_core.md R114, 04_isa_core.md R115, 10_isa_memory.md R199, 01_sequential_machine.md R20, 08_memory_spaces.md R172, 08_memory_spaces.md R173,
16_faults_preemption.md R286) -/
def Obligations.LoadsBegin : Prop :=
  (∀ (s : State) (k i : Nat) (g : Group) (h : Hdr) (ty : MTy) (n : NReg) (acq : Bool) (scope : Scope) (d : VReg) (m : MAddr) (at_ : Nat → List Got),
    Turn s (.grp k i) g i → Calm s (.grp k i) g →
    let act := active g i h
    let w := Issuer.grp k i
    let N := nregCount n
    let B := mtyBits ty / 8
    let loads := fun (o : Answer) (mask : Nat) => Begins s o w g i 16 h true true fun op =>
      op.kind = .load (mtySigned ty) ∧ op.acq = acq ∧ op.scope = scope ∧ op.rel = false ∧ op.read = true ∧
      Elements op mask N B (fun l => address g l m) at_ (fun j => d.val + j * regsOf (8 * B)) (fun l e => e.cmp = 0 ∧ constant s g (at_ l) B e)
    (act = 0 → Completes s (exec (.ld h ty n acq scope d m) s) w g i 16 2 h false (fun l => l = []) ∧
      Completes s (exec (.ldaq h ty n acq scope d m) s) w g i 16 2 h false fun l => l = []) ∧
    (Reaches s w g h act (.ld ty N acq d.val false) scope (requests g act m (fun _ => 0) fun _ => 0) at_ →
      loads (exec (.ld h ty n acq scope d m) s) act) ∧
    (Reaches s w g h act (.ld ty N acq d.val true) scope (requests g (leaders g act) m (fun _ => 0) fun _ => 0) at_ →
      loads (exec (.ldaq h ty n acq scope d m) s) (leaders g act))) ∧
  (∀ (s : State) (w : Issuer) (i : Nat) (g : Group) (h : Hdr) (ty : BTy) (n : NReg) (scope : Scope) (d : SReg) (m : MAddr) (at_ : Nat → List Got),
    Turn s w g i → Calm s w g → (h.gp.val ≠ 0 → OneClass g i) →
    let l := lowest (g.frag i).mask
    let N := nregCount n
    let B := btyBits ty / 8
    (g.actQ (g.frag i).mask h = 0 → Completes s (exec (.sld h ty n scope d m) s) w g i 16 2 h false fun l => l = []) ∧
    (g.actQ (g.frag i).mask h ≠ 0 → (g.entCount ≤ 1 ∨ address g l m / 2 ^ 56 = 0xF9) →
      Reaches s w g h (g.frag i).mask (.sld ty N d.val) scope
        [{ lane := l, addr := address g l m, addr2 := 0, x := 0, y := 0 }] at_ →
      Begins s (exec (.sld h ty n scope d m) s) w g i 16 h true true fun op =>
        op.kind = .load false ∧ op.acq = false ∧ op.scope = scope ∧
        op.outs = (List.range N).map (fun j => { file := .s, reg := d.val + j, lane := 0, val := 0, msk := l }) ∧
        Elements op (2 ^ l) N B (fun _ => address g l m) at_ (fun j => d.val + j) (fun l e => e.cmp = 0 ∧ constant s g (at_ l) B e))) ∧
  (∀ (s : State) (k i : Nat) (g : Group) (ty : MTy) (n : NReg) (acq : Bool) (scope : Scope) (d : VReg) (e c : Nat) (F : Nat → Option Nat),
    c = 0x08 ∨ c = 0x09 ∨ c = 0x0B → g.handler = none →
    let w := Issuer.grp k i
    let outcomes := fun (u : State) (r : MemReq) => ∀ q ∈ r.lanes, match F q.lane with
      | some a => u.laneGot w g r q = .bad { lane := q.lane, cause := c, addr := a }
      | none => ∃ l, u.laneGot w g r q = .ok l
    let parks := fun (u : State) (o : Answer) (act : Nat) => let bad := maskWhere fun l => bit act l && (F l).isSome
      bad ≠ 0 → ParksBy u o k i g e act bad c 0 ((F (lowest bad)).getD 0) 16
    (∀ (h : Hdr) (m : MAddr), Turn s w g i → Calm s w g → Owned g i e (active g i h) →
      let lanes := requests g (active g i h) m (fun _ => 0) fun _ => 0
      let acc := Access.ld ty (nregCount n) acq d.val false
      s.rangeHeld w g acc lanes = false → s.fenceHeld w (fragOf w) = false →
      outcomes s { acc := acc, scope := scope, hdr := h, act := active g i h, lanes := lanes, missing := [], faults := [], op := none, data := none, passed := [] } →
      parks s (exec (.ld h ty n acq scope d m) s) (active g i h)) ∧
    (∀ (r : MemReq) (rest : List Item), let u := { s with agenda := rest }
      s.agenda = .resume w :: rest → g = s.groupsAt k → g.live = true → (g.frag i).fst = .live → (g.frag i).hold = .probe r → r.acc = .ld ty (nregCount n) acq d.val false →
      r.missing = [] → r.op = none → u.keeps w = false → r.lanes.map (·.lane) = lanesOf r.act → r.act < 65536 → r.act &&& (g.frag i).mask = r.act → Owned g i e r.act →
      u.rangeHeld w g r.acc r.lanes = false → outcomes u r → parks u (step s) r.act))

/-- O26. For every state in which a fragment has the turn and the probe finds every lane's location, ST starts an outstanding store of NREG elements at
each active lane's address, from consecutive registers of the lane or the same s registers in every lane, which are read later, or hold at issue what
is stored where a fixed-latency result to come writes one of them, STRL of each entry's leader alone, BARI of one barrier word with the count and mode
of each active lane, and TMOV of the 8-byte pieces that it reads at the source and writes at the destination; release and scope are the instruction's.
Memory and registers are unchanged until the writes perform; without an active lane each acts as NOP. That BARI reads its count at issue is the
model's reading (log 32). For every state in which a fragment of a group has the turn, SPTST starts a predicate that is true in the active lanes whose
address decodes to the named window and whose byte passes every check of R164, and SPCST the generic address of the lane's own core, cluster or die
with the offset, 0 where the offset is too large, or the offset field of an address of the window, all ones where it is none. Neither faults or
accesses memory; nothing else changes. (04_isa_core.md R115, 10_isa_memory.md R199, 10_isa_memory.md R200, 10_isa_memory.md R207,
01_sequential_machine.md R20, 01_sequential_machine.md R19, 10_isa_memory.md R201, 10_isa_memory.md R202) -/
def Obligations.StoresAndScratchPointers : Prop :=
  ((∀ (s : State) (k i : Nat) (g : Group) (h : Hdr) (ty : MTy) (n : NReg) (rel : Bool) (scope : Scope) (data : Src) (m : MAddr) (at_ : Nat → List Got),
     Turn s (.grp k i) g i → Calm s (.grp k i) g →
     let act := active g i h
     let w := Issuer.grp k i
     let N := nregCount n
     let B := mtyBits ty / 8
     let stores := fun (o : Answer) (mask : Nat) => Begins s o w g i 16 h true true fun op =>
       op.kind = .store ∧ op.rel = rel ∧ op.scope = scope ∧ op.outs = [] ∧ op.read = false ∧
       Elements op mask N B (fun l => address g l m) at_
         (fun j => match data with
           | .v r => r.val + j * regsOf (8 * B)
           | .s r => r.val + j)
         (source s g data N B)
     (act = 0 → Completes s (exec (.st h ty n rel scope m data) s) w g i 16 2 h false (fun l => l = []) ∧
       Completes s (exec (.strl h ty n rel scope m data) s) w g i 16 2 h false fun l => l = []) ∧
     (Reaches s w g h act (.st ty N rel data false) scope (requests g act m (fun _ => 0) fun _ => 0) at_ →
       stores (exec (.st h ty n rel scope m data) s) act) ∧
     (Reaches s w g h act (.st ty N rel data true) scope (requests g (leaders g act) m (fun _ => 0) fun _ => 0) at_ →
       stores (exec (.strl h ty n rel scope m data) s) (leaders g act))) ∧
   (∀ (s : State) (w : Issuer) (i : Nat) (g : Group) (h : Hdr) (bytes rel : Bool) (scope : Scope) (b : Base) (off : BitVec 32) (data : Src)
     (at_ : Nat → List Got), Turn s w g i → Calm s w g →
     let act := active g i h
     let count := fun l => (pattern 32 g l data).toNat
     (act = 0 → Completes s (exec (.bari h bytes rel scope b off data) s) w g i 16 2 h false fun l => l = []) ∧
     (Reaches s w g h act (.bari bytes rel data) scope (requests g act (.reg b off) count fun _ => 0) at_ →
       Begins s (exec (.bari h bytes rel scope b off data) s) w g i 16 h true true fun op =>
         op.kind = .store ∧ op.rel = rel ∧ op.scope = scope ∧ op.outs = [] ∧
         Elements op act 1 8 (fun l => address g l (.reg b off)) at_ (fun _ => 0)
           (fun l e => e.got = true ∧ e.val = (if bytes then 2 ^ 62 else 0) + count l % 65536 * 2 ^ 46))) ∧
   (∀ (s : State) (k i : Nat) (g : Group) (h : Hdr) (n : NReg) (src : MAddr) (dst : Base) (at_ : Nat → List Got),
     Turn s (.grp k i) g i → Calm s (.grp k i) g →
     let act := active g i h
     let source := fun l e => match at_ l with
       | .at key :: _ => e.cmp = key + 8 * e.idx
       | _ => constant s g (at_ l) 8 e
     let dest := fun l => match at_ l with
       | _ :: .at key :: _ => key
       | _ => 0
     let K := 16 * nregCount n
     let lanes := (lanesOf act).map fun l =>
       ({ lane := l, addr := address g l src, addr2 := (pattern 64 g l dst).toNat, x := 0, y := 0 } : LaneReq)
     (act = 0 → Completes s (exec (.tmov h n src dst) s) (.grp k i) g i 16 2 h false fun l => l = []) ∧
     (Reaches s (.grp k i) g h act (.tmov K) .wg lanes at_ →
       Begins s (exec (.tmov h n src dst) s) (.grp k i) g i 16 h true true fun op =>
         op.kind = .tmov ∧ op.outs = [] ∧
         (∀ l j, l < 16 → bit act l = true → 8 * j < K → ∃ e ∈ op.elems, e.lane = l ∧ e.idx = j ∧ e.n = 8 ∧ source l e ∧ e.key = dest l + 8 * j) ∧
         (∀ e ∈ op.elems, ∃ l j, l < 16 ∧ bit act l = true ∧ 8 * j < K ∧ e.lane = l ∧ e.idx = j ∧ source l e ∧ e.key = dest l + 8 * j)))) ∧
  (∀ (s : State) (k i : Nat) (g : Group) (h : Hdr) (win : Win) (b : Base) (off : BitVec 32), Turn s (.grp k i) g i → Calm s (.grp k i) g →
     let a := fun l => BitVec.ofNat 64 (address g l (.reg b off))
     let o := fun l => (a l).toNat
     let x := fun l hi lo => ((a l).extractLsb' lo (hi + 1 - lo)).toNat
     let own := g.ocrd
     let in_ := fun l => match win with
       | .core => x l 63 56 = 0xFD ∧ x l 44 18 = 0
       | .cluster => x l 63 56 = 0xFC ∧ x l 46 21 = 0
       | .die => x l 63 56 = 0xFB ∧ x l 53 25 = 0
     let passes := fun l => let e := g.ownerOf l
       match win with
       | .core => x l 55 45 = own ∧ (g.handler = none → x l 17 0 + 1 ≤ 64 * e.slen)
       | .cluster => x l 55 47 = own / 4 ∧ s.clusterScratchOk (own / 4) e.vf (x l 20 0) 1 = true
       | .die => s.dieScratchOk (x l 55 54) e.vf (x l 24 0) 1 = true
     (∀ d : PReg, ∃ P, (∀ l, l < 16 → (P l = true ↔ in_ l ∧ passes l)) ∧
       LaneLater s (exec (.sptst h win d b off) s) k i g h 16 (LandsP (active g i h) d.val P noFlags)) ∧
     (∀ d : VReg, ∃ v : Nat → Nat, (∀ l, v l = match win with
         | .core => if o l < 2 ^ 18 then 0xFD * 2 ^ 56 + own * 2 ^ 45 + o l else 0
         | .cluster => if o l < 2 ^ 21 then 0xFC * 2 ^ 56 + own / 4 * 2 ^ 47 + o l else 0
         | .die => if o l < 2 ^ 25 then 0xFB * 2 ^ 56 + own / 512 * 2 ^ 54 + o l else 0) ∧
       LaneLater s (exec (.spcst h win false d b off) s) k i g h 16 (LandsV (active g i h) 64 d.val (fun l => (v l : Int)) noFlags)) ∧
     (∀ d : VReg, ∃ v : Nat → Nat, (∀ l, l < 16 → (in_ l → v l = match win with
         | .core => x l 17 0
         | .cluster => x l 20 0
         | .die => x l 24 0) ∧ (¬ in_ l → v l = 2 ^ 64 - 1)) ∧
       LaneLater s (exec (.spcst h win true d b off) s) k i g h 16 (LandsV (active g i h) 64 d.val (fun l => (v l : Int)) noFlags)))

/-- O27. For every state in which a fragment of a group has the turn and the probe finds every lane's location, ATOM, ARED, ACAS and ATOMF start one
outstanding read-modify-write at each active lane's address with the operation, the lane's operands (ARED reads its register later, or holds what it
held at issue where a fixed-latency result to come writes it), the order and the scope of the instruction, and for ATOMF the rounding mode of issue;
ATOM, ACAS and ATOMF for register d of the lane. Memory and registers are unchanged until they perform; without an active lane each acts as NOP.
(10_isa_memory.md R203, 10_isa_memory.md R204, 10_isa_memory.md R205, 10_isa_memory.md R193, 01_sequential_machine.md R20) -/
def Obligations.AtomicsBegin : Prop :=
  ∀ (s : State) (k i : Nat) (g : Group) (h : Hdr) (scope : Scope) (ord : Ord4) (b : Base) (off : BitVec 32) (at_ : Nat → List Got),
    Turn s (.grp k i) g i → Calm s (.grp k i) g →
    let act := active g i h
    let w := Issuer.grp k i
    let addr := fun l => address g l (.reg b off)
    let acq := ord = .acq ∨ ord = .ar
    let rel := ord = .rel ∨ ord = .ar
    let nops := fun (o : Answer) => Completes s o w g i 16 2 h false fun l => l = []
    let begins := fun (o : Answer) (kind : OpKind) (A R : Prop) (n reg : Nat) (P : Nat → Elem → Prop) => Begins s o w g i 16 h true true fun op =>
      op.kind = kind ∧ (op.acq = true ↔ A) ∧ (op.rel = true ↔ R) ∧ op.scope = scope ∧
      Elements op act 1 n addr at_ (fun _ => reg) P
    (∀ (ty : WTy) (op : AtomOp) (d : VReg) (data : Src),
      let v := fun l => (pattern (wtyBits ty) g l data).toNat
      let o := exec (.atom h ty op ord scope d b off data) s
      (act = 0 → nops o) ∧
      (Reaches s w g h act (.atom ty op ord d.val) scope (requests g act (.reg b off) v fun _ => 0) at_ →
        begins o (.rmw ty op) acq rel (wtyBits ty / 8) d.val fun l e => e.val = v l)) ∧
    (∀ (ty : WTy) (op : AtomOp) (r : Bool) (data : Src),
      let o := exec (.ared h ty op r scope b off data) s
      (act = 0 → nops o) ∧
      (Reaches s w g h act (.ared ty op r data) scope (requests g act (.reg b off) (fun _ => 0) fun _ => 0) at_ →
        begins o (.rmw ty op) False (r = true) (wtyBits ty / 8)
          (match data with
            | .v x => x.val
            | .s x => x.val) (source s g data 1 (wtyBits ty / 8)))) ∧
    (∀ (ty : BTy) (d : VReg) (cmp new : Src),
      let c := fun l => (pattern (btyBits ty) g l cmp).toNat
      let v := fun l => (pattern (btyBits ty) g l new).toNat
      let o := exec (.acas h ty ord scope d b off cmp new) s
      (act = 0 → nops o) ∧
      (Reaches s w g h act (.acas ty ord d.val) scope (requests g act (.reg b off) c v) at_ →
        begins o .cas acq rel (btyBits ty / 8) d.val fun l e => e.val = v l ∧ e.cmp = c l)) ∧
    (∀ (ty : AFmt) (op : AtomFOp) (d : VReg) (data : Src),
      let v := fun l => (pattern (8 * aBytes ty) g l data).toNat
      let o := exec (.atomf h ty op ord scope d b off data) s
      (act = 0 → nops o) ∧
      (Reaches s w g h act (.atomf ty op ord d.val) scope (requests g act (.reg b off) v fun _ => 0) at_ →
        begins o (.rmwf ty op (g.fpctl.toNat % 4)) acq rel (aBytes ty) d.val fun l e => e.val = v l))

/-- O28. For every state in which a fragment has the turn and the probe finds every lane's location, BARV starts one arrival for each owner-table entry
with an active lane, in its mode, and holds the fragment until they return; BWAIT and BTEST hold it with the words and the phase bit of each lane.
While held, the PC stays and no register changes. FENCE goes on to the next instruction with its event outstanding, ordered after what its kind orders
it after. Without an active lane each acts as NOP. (10_isa_memory.md R208, 10_isa_memory.md R209, 10_isa_memory.md R210, 10_isa_memory.md R206) -/
def Obligations.BarrierWaitsBegin : Prop :=
  (∀ (s : State) (w : Issuer) (i : Nat) (g : Group) (h : Hdr) (scope : Scope) (b : Base) (off : BitVec 32) (at_ : Nat → List Got),
    Turn s w g i → Calm s w g →
    let act := active g i h
    let nops := fun (o : Answer) => Completes s o w g i 16 2 h false fun l => l = []
    let reqs := fun (x : Nat → Nat) => requests g act (.reg b off) x fun _ => 0
    let key := fun l => match at_ l with
      | .at k :: _ => k
      | _ => 0
    let held := fun (f : Frag) (hold : Hold) =>
      f = { g.frag i with hold := hold, holdSince := some ((g.frag i).holdSince.getD s.cycle) }
    let holds := fun (o : Answer) (acc : Access) (x : Nat → Nat) (mk : MemReq → Hold) => ∃ t g', o = .next t ∧ Others s t w g' ∧
      held (g'.frag i) (mk (.mk acc scope h act ((reqs x).map fun q => { q with addr2 := key q.lane }) [] [] none none [])) ∧
      (∀ j, j ≠ i → g'.frag j = g.frag j) ∧ { g' with frags := g.frags } = g
    (∀ (mode : BarMode) (d : VReg), let o := exec (.barv h mode scope d b off) s
      (act = 0 → nops o) ∧
      (Reaches s w g h act (.barv mode d.val) scope (reqs fun _ => 0) at_ → ∃ t g' op, o = .next t ∧ Starts s t w g' op ∧
        (∃ r, held (g'.frag i) (.barv s.nextId r) ∧ r.acc = .barv mode d.val ∧ r.act = act) ∧
        (∀ j, j ≠ i → g'.frag j = g.frag j) ∧ { g' with frags := g.frags } = g ∧
        op.kind = .arrive mode ∧ op.rel = true ∧ op.scope = scope ∧ op.who = w ∧ op.outs = [] ∧
        (∀ l, l < 16 → bit act l = true → (∀ j, j < l → bit act j = true → g.entOf j ≠ g.entOf l) →
          ∃ e ∈ op.elems, e.lane = l ∧ e.idx = g.entOf l ∧ e.key = key l ∧ e.n = 8) ∧
        (∀ e ∈ op.elems, bit act e.lane = true ∧ ∀ j, j < e.lane → bit act j = true → g.entOf j ≠ g.entOf e.lane))) ∧
    (∀ data : Src, let x := fun l => (pattern 32 g l data).toNat % 2
      let o := exec (.bwait h scope b off data) s
      (act = 0 → nops o) ∧ (Reaches s w g h act .bwait scope (reqs x) at_ → holds o .bwait x fun r => .bwait r)) ∧
    (∀ (d : PReg) (data : Src), let x := fun l => (pattern 32 g l data).toNat % 2
      let o := exec (.btest h scope d b off data) s
      (act = 0 → nops o) ∧ (Reaches s w g h act (.btest d.val) scope (reqs x) at_ → holds o (.btest d.val) x fun r => .btest r))) ∧
  (∀ (s : State) (w : Issuer) (i : Nat) (g : Group) (h : Hdr) (ord : FenceOrd) (scope : Scope), Turn s w g i → Calm s w g →
    let act := active g i h
    (act = 0 → Completes s (exec (.fence h ord scope) s) w g i 16 2 h false fun l => l = []) ∧
    (act ≠ 0 → ∃ t g' op, exec (.fence h ord scope) s = .next t ∧ Starts s t w g' op ∧ Issued g g' i 16 s.cycle h true ∧
      op.kind = .fence ord ∧ op.scope = scope ∧ op.who = w ∧ op.heirs = [i] ∧ op.elems = [] ∧ op.outs = [] ∧
      (ord ≠ .acq → ∀ n o, (n, some o) ∈ s.ops → sameAgent o.who w = true → i ∈ o.heirs → n ∈ op.after)))

/-- O29. For every state in which a fragment of a group has the turn, TPACK writes in each active lane the four bytes of the twenty fields of B⟨7:0⟩ and
A, each the sum of (t + 1)·3^i of its five trits, and 0xFF where one of its fields is 0b10; TUNPK writes the twenty fields of the four bytes of A,
0b10 for every field of a byte from 0xF3 on. Both have latency 4 and set no flag. (12_isa_async.md R243, 02_number_formats.md R40) -/
def Obligations.TritPacking : Prop :=
  ∀ (s : State) (k i : Nat) (g : Group) (h : Hdr) (d : VReg), Turn s (.grp k i) g i → Calm s (.grp k i) g →
    let trit := fun (c : BitVec 2) => if c = 0 then 1 else if c = 1 then 2 else 0
    let code := fun (x : Nat) => if x = 0 then 3 else if x = 1 then 0 else 1
    (∀ a b : Src, ∃ val : Nat → Nat,
      (∀ l, val l < 2 ^ 32) ∧
      (∀ l n, l < 16 → n < 4 →
        let field := fun (j : Nat) => (pattern 32 g l b ++ pattern 32 g l a).extractLsb' (2 * (5 * n + j)) 2
        val l / 256 ^ n % 256 =
          if field 0 = 2 ∨ field 1 = 2 ∨ field 2 = 2 ∨ field 3 = 2 ∨ field 4 = 2 then 0xFF
          else trit (field 0) + 3 * trit (field 1) + 9 * trit (field 2) + 27 * trit (field 3) + 81 * trit (field 4)) ∧
      LaneV s (exec (.tpack h d a b) s) k i g h 8 4 32 d.val (fun l => (val l : Int)) noFlags) ∧
    (∀ a : Src, ∃ val : Nat → Nat,
      (∀ l, val l < 2 ^ 40) ∧
      (∀ l n j, l < 16 → n < 4 → j < 5 →
        let byte := ((pattern 32 g l a).extractLsb' (8 * n) 8).toNat
        val l / 4 ^ (5 * n + j) % 4 = if 0xF3 ≤ byte then 2 else code (byte / 3 ^ j % 3)) ∧
      LaneV s (exec (.tunpk h d a) s) k i g h 8 4 64 d.val (fun l => (val l : Int)) noFlags)

/-- O30. For every running context whose batch is charged less than 65,536 cycles and whose slot is valid, of its VF and region, with legal bytes and pads
and no uncorrectable line, MLATCH loads the shadow latch with the trits of the slot's columns, digit by digit, its kind and scale set, and issues one
write of the column scales to the set of each bank; nothing else changes. With V 0 or another VF or region it faults with FORMAT_LATCH, and with an
illegal byte or pad with TRIT_CODE: the context then stands at fault, and both latches are unchanged. (11_ternary_array.md R222, 11_ternary_array.md
R216, 11_ternary_array.md R221, 12_isa_async.md R248, 02_number_formats.md R40) -/
def Obligations.Latching : Prop :=
  ∀ (s : State) (k : Nat) (g : Group) (h : Hdr) (qm : Qm) (slot : Fin 256) (set : Fin 8),
    Turn s (.ctx k) g 0 → Calm s (.ctx k) g → g.actQ (g.frag 0).mask h ≠ 0 → (s.ctxsAt k).charge < 65536 →
    let o := exec (.mlatch h qm slot set) s
    let c := s.ctxsAt k
    let cl := k / 4
    let m := (s.ctxRegion k).getD 0
    let w := (s.imagesAt (cl * 256 + slot.val)).toNat
    let K := slotK w
    let nb := (K + 4) / 5
    let cols := (regionCols m).take (slotNcol w)
    let byte := fun (n j : Nat) => (s.memAt (patternKey cl (cols.getD n 0) (slotBase w) 0 + j)).toNat
    let ours := slotV w = true ∧ slotVf w = c.vf ∧ slotQm w = m
    let clean := s.slotBad cl w cols = false
    let legal := ∀ n, n < cols.length → (∀ j, j < nb → byte n j < 0xF3) ∧ ∀ p, K ≤ p → p < 5 * nb → byte n (p / 5) / 3 ^ (p % 5) % 3 = 1
    let stops := fun (cause : Nat) => ∃ t, o = .next t ∧ (t.ctxsAt k).state = 2 ∧ (t.ctxsAt k).cause = cause ∧
      (t.ctxsAt k).fpc = (g.frag 0).pc ∧ t.latches = s.latches ∧ t.acc = s.acc ∧ t.accMeta = s.accMeta ∧ t.scales = s.scales
    (ours → clean → legal → ∃ t g' lt rows, o = .next t ∧ Issued g g' 0 16 s.cycle h true ∧
      (∀ j, t.ctxsAt j = if j = k then { c with g := g', nonempty := true, latched := true, pendL := ((nb + 4) + 7) / 8, passes := c.passes ++ rows }
        else s.ctxsAt j) ∧
      (∀ j, t.latchesAt j = if j = 2 * k + 1 then lt else s.latchesAt j) ∧
      { t with ctxs := s.ctxs, latches := s.latches } = s ∧
      lt.loaded = true ∧ lt.kind = slotKind w ∧ lt.rows = K ∧ lt.set = set.val ∧ lt.cols.length = cols.length ∧
      (∀ n p, n < cols.length → p < K → (lt.cols.getD n []).getD p 0 = ((byte n (p / 5) / 3 ^ (p % 5) % 3 : Nat) : Int) - 1) ∧
      rows.length = (banksOf m).length ∧
      (∀ b, b < (banksOf m).length → ∃ r, rows[b]? = some r ∧ r.kind = .scale ∧ r.core = 4 * cl + (banksOf m).getD b 0 ∧ r.row = set.val ∧ r.batch = c.batch ∧
        ∀ n, n < 128 → r.vals.getD n 0 = if 128 * b + n < cols.length then
          ((byte (128 * b + n) nb + 256 * byte (128 * b + n) (nb + 1) + 65536 * byte (128 * b + n) (nb + 2) + 16777216 * byte (128 * b + n) (nb + 3) : Nat) : Int)
          else 0)) ∧
    (¬ ours → stops cFormatLatch) ∧
    (ours → clean → ¬ legal → stops cTritCode)

/-- O31. For every running context whose batch is charged less than 65,536 cycles: an MMUL or MMULB that passes its checks swaps in a loaded shadow latch,
takes the oldest M entries of each feeding queue, updates the metadata of its rows, and issues for each row and bank the sums over the live rows of
trit times grid value, of the column's own block for MMULB, to be added or written. With too few feed entries nothing changes. MZERO clears metadata
and issues zeros. BFENCE writes the number of the batch to sD with latency 2, closes it with its charge, opens the next, and writes a BATCH event; the
closed batches, in their order, of which nothing issued still has to perform complete with it, each with its event. (11_ternary_array.md R224,
11_ternary_array.md R225, 11_ternary_array.md R222, 11_ternary_array.md R229, 02_number_formats.md R43, 12_isa_async.md R249, 12_isa_async.md R250,
12_isa_async.md R251, 11_ternary_array.md R231, 13_program_ternary.md R258) -/
def Obligations.ArrayPasses : Prop :=
  ∀ (s : State) (k : Nat) (g : Group) (h : Hdr), Turn s (.ctx k) g 0 → Calm s (.ctx k) g → g.actQ (g.frag 0).mask h ≠ 0 →
    (s.ctxsAt k).charge < 65536 →
    let c := s.ctxsAt k
    let m := (s.ctxRegion k).getD 0
    let feeders := (feedersOf m).map fun q => 4 * (k / 4) + q
    let banks := (banksOf m).map fun q => 4 * (k / 4) + q
    let shadow := s.latchesAt (2 * k + 1)
    let lt := if shadow.loaded then shadow else s.latchesAt (2 * k)
    let pass := fun (o : Answer) (batched ovr : Bool) (row M : Nat) (anc : BitVec 8) =>
      let block := if m = 15 then 16 else 8
      let fill := if batched then (if m = 15 then 40 else 24) else fillOf m
      let line := fun (i : Nat) => feeders.flatMap fun q => (((s.coresAt q).rows)[i]?.getD { vals := [], anc := 0 }).vals
      let fed := ∀ q ∈ feeders, M ≤ (s.coresAt q).rows.length
      let sum := fun (i col : Nat) => let cells := lt.cols.getD col []
        ((List.range cells.length).map fun p => cells.getD p 0 * (line i).getD ((if batched then block * (col / block) else 0) + p) 0).sum
      row + M ≤ 1024 → c.latched = true → (lt.kind = 2 ↔ batched = true) →
      (¬ fed → o = .next s) ∧
      (fed →
        (ovr = false → ∀ b ∈ banks, ∀ i, i < M → let mt := s.accMetaAt (b * 1024 + row + i)
          bit mt 11 = true → mt % 256 = anc.toNat ∧ mt / 256 % 8 = lt.set) →
        (∀ q ∈ feeders, ∀ r ∈ (s.coresAt q).rows.take M, r.anc = anc.toNat) →
        ∃ t g' out, o = .next t ∧ Issued g g' 0 16 s.cycle h true ∧
          (∀ j, t.ctxsAt j = if j = k then { c with g := g', nonempty := true, chain := true, lastRows := M, pendL := 0, passes := c.passes ++ out,
                                                    charge := c.charge + (if c.chain then max c.lastRows c.pendL - c.lastRows else fill) + M }
            else s.ctxsAt j) ∧
          (∀ j, t.latchesAt j = if j = 2 * k then lt else if j = 2 * k + 1 then Latch.empty else s.latchesAt j) ∧
          (∀ a, t.accMetaAt a = if a / 1024 ∈ banks ∧ row ≤ a % 1024 ∧ a % 1024 < row + M then
            (if ovr then 0 else s.accMetaAt a / 4096 % 2 * 4096) + 2048 + lt.set % 8 * 256 + anc.toNat else s.accMetaAt a) ∧
          (∀ j, t.coresAt j = if j ∈ feeders then { s.coresAt j with rows := (s.coresAt j).rows.drop M } else s.coresAt j) ∧
          { t with ctxs := s.ctxs, latches := s.latches, accMeta := s.accMeta, cores := s.cores } = s ∧
          (∀ i b, i < M → b < banks.length → ∃ r ∈ out, r.core = banks.getD b 0 ∧ r.row = row + i ∧ r.batch = c.batch ∧
            r.kind = (if ovr then .set else .add) ∧
            ∀ n, n < 128 → r.vals.getD n 0 = if 128 * b + n < lt.cols.length then sum i (128 * b + n) else 0) ∧
          out.length = M * banks.length)
    (∀ (ovr : Bool) (qm : Qm) (row : Fin 1024) (rows : Fin 64) (anc : BitVec 8),
      pass (exec (.mmul h ovr qm row rows anc) s) false ovr row.val (rows.val + 1) anc ∧
      pass (exec (.mmulb h ovr qm row rows anc) s) true ovr row.val (rows.val + 1) anc) ∧
    (∀ (qm : Qm) (row rows : Fin 1024), row.val + rows.val + 1 ≤ 1024 →
      ∃ t g' out, exec (.mzero h qm row rows) s = .next t ∧ Issued g g' 0 16 s.cycle h true ∧
        (∀ j, t.ctxsAt j = if j = k then { c with g := g', nonempty := true, charge := c.charge + (rows.val + 1 + 15) / 16, passes := c.passes ++ out }
          else s.ctxsAt j) ∧
        (∀ a, t.accMetaAt a = if a / 1024 ∈ banks ∧ row.val ≤ a % 1024 ∧ a % 1024 < row.val + rows.val + 1 then 0 else s.accMetaAt a) ∧
        { t with ctxs := s.ctxs, accMeta := s.accMeta } = s ∧
        (∀ b ∈ banks, ∀ i, i < rows.val + 1 → ∃ r ∈ out, r.core = b ∧ r.row = row.val + i ∧ r.kind = .set ∧ r.vals = []) ∧
        (∀ r ∈ out, r.core ∈ banks ∧ row.val ≤ r.row ∧ r.row ≤ row.val + rows.val ∧ r.kind = .set ∧ r.vals = [])) ∧
    (∀ d : SReg,
      let all := c.closed ++ [(c.batch, c.charge)]
      let done := all.takeWhile fun b => c.passes.all fun r => r.batch != b.1
      let n := done.length
      ∃ t g', exec (.bfence h d) s = .next t ∧ Issued g g' 0 8 s.cycle h true ∧
      Pending g g' 0 (s.cycle + 2) h true (LandsS True d.val (BitVec.ofNat 64 c.batch)) ∧
      (∀ j, t.ctxsAt j = if j = k then { c with g := g', batch := (c.batch + 1) % 2 ^ 32, nonempty := false, charge := 0, chain := false, pendL := 0,
                                                closed := all.drop n, bdone := if n = 0 then c.bdone else (c.bdone + n) % 2 ^ 32, closedAt := some g'.retired }
        else s.ctxsAt j) ∧
      SendsAll { s with ctxs := t.ctxs } t ((k / 512, evWord s.cycle 6 (k % 512) c.vf c.asid 0 (min c.charge 65535) c.batch) ::
        done.map fun b => (k / 512, evWord s.cycle 6 (k % 512) c.vf c.asid 1 (min b.2 65535) b.1)))

/-- O32. For every issuer and leader, the first check of an engine instruction that fails decides: WLOAD, TCOPY and COLL a record address that is no
multiple of 64 with MISALIGNED, WLOAD a foreign region with MIXED_FEED after its probe, a barrier address with MISALIGNED and then BARRIER_FORMAT;
AFEED and ADRAIN an address that is no multiple of 4 with MISALIGNED, then the ownership rule with MIXED_FEED, for ADRAIN rows past 1,024 or outside
the workgroup's run with ACC_BOUND, then a window other than core scratch with BAD_WINDOW; GATH its three alignments with MISALIGNED. The record of
TCOPY and COLL is what its location holds, once nothing go-before keeps it from being read; one in a peer's memory is fetched first, and then checked.
The address that each of these faults names is the model's reading (log 35). (12_isa_async.md R244, 12_isa_async.md R245, 12_isa_async.md R246,
12_isa_async.md R247, 12_isa_async.md R255, 12_isa_async.md R256, 19_fabric_collectives.md R327, 11_ternary_array.md R223) -/
def Obligations.EngineChecks : Prop :=
  ∀ (s : State) (w : Issuer) (g : Group) (data : Option Nat) (i l : Nat) (bar : Option Nat) (passed : List (Nat × Nat)),
    let got := fun kind => s.engineGot w g [] passed data i l kind bar
    let o := g.ownerOf l
    let owns := s.ownsRegion g (coreOf w) o
    let away := fun (a : Nat) (x : LaneGot) => ∀ k, a % 64 = 0 → data = none → isPeer k = true → s.got w g [] l (wantOf a 64 1) = .at k → x = .fetch a k
    let barFails := fun (x : LaneGot) => ∀ b, bar = some b →
      (b % 8 ≠ 0 → x = .bad { lane := l, cause := cMisaligned, addr := b }) ∧
      (b % 8 = 0 → inScratch b = false → x = .bad { lane := l, cause := cBarrierFormat, addr := b })
    (∀ (a slot q line : Nat), let x := got (.wload a slot q line)
      (a % 64 ≠ 0 → x = .bad { lane := l, cause := cMisaligned, addr := a }) ∧
      (a % 64 = 0 → ∀ k, s.got w g [] l { wantOf a 64 1 with read := false } = .at k →
        (s.regionOk (coreOf w) o.vf (s.wloadRegion (coreOf w) q) = false → x = .bad { lane := l, cause := cMixedFeed, addr := a }) ∧
        (s.regionOk (coreOf w) o.vf (s.wloadRegion (coreOf w) q) = true → barFails x))) ∧
    (∀ (fmt : FeedFmt) (a rows anc stride : Nat), let x := got (.feed fmt a rows anc stride)
      (a % 4 ≠ 0 → x = .bad { lane := l, cause := cMisaligned, addr := a }) ∧
      (a % 4 = 0 → (owns = false ∨ coreOf w % 4 ∉ feedersOf (regionOf (s.fuse (coreOf w / 4)) (coreOf w % 4))) →
        x = .bad { lane := l, cause := cMixedFeed, addr := a }) ∧
      (a % 4 = 0 → owns = true → coreOf w % 4 ∈ feedersOf (regionOf (s.fuse (coreOf w / 4)) (coreOf w % 4)) → a / 2 ^ 56 % 256 ≠ 0xFD →
        x = .bad { lane := l, cause := cBadWindow, addr := a })) ∧
    (∀ (fmt : DrainFmt) (a row rows stride : Nat), let x := got (.drain fmt a row rows stride)
      let first := ((s.wg o.id).map (·.accBase)).getD 0
      let run := ((s.wg o.id).map (·.acr)).getD 0
      let inside := row + rows ≤ 1024 ∧ first ≤ row ∧ row + rows ≤ first + run
      (a % 4 ≠ 0 → x = .bad { lane := l, cause := cMisaligned, addr := a }) ∧
      (a % 4 = 0 → owns = false → x = .bad { lane := l, cause := cMixedFeed, addr := a }) ∧
      (a % 4 = 0 → owns = true → ¬ inside → x = .bad { lane := l, cause := cAccBound, addr := a }) ∧
      (a % 4 = 0 → owns = true → inside → a / 2 ^ 56 % 256 ≠ 0xFD → x = .bad { lane := l, cause := cBadWindow, addr := a })) ∧
    (∀ (a r : Nat) (cs : List Int), let x := got (.tcopy a r cs)
      (a % 64 ≠ 0 → x = .bad { lane := l, cause := cMisaligned, addr := a }) ∧
      away a x ∧
      (a % 64 = 0 → ∀ rec, HasRecord s w g i data (s.got w g [] l (wantOf a 64 1)) rec →
        (layoutBad rec = true → x = .bad { lane := l, cause := cLayoutRecord, addr := a }) ∧
        (layoutBad rec = false → barFails x))) ∧
    (∀ (d src idx size count : Nat), let x := got (.gath d src idx size count)
      (d % size ≠ 0 → x = .bad { lane := l, cause := cMisaligned, addr := d }) ∧
      (d % size = 0 → src % size ≠ 0 → x = .bad { lane := l, cause := cMisaligned, addr := src }) ∧
      (d % size = 0 → src % size = 0 → idx % 4 ≠ 0 → x = .bad { lane := l, cause := cMisaligned, addr := idx })) ∧
    (∀ a r : Nat, let x := got (.coll a r)
      (a % 64 ≠ 0 → x = .bad { lane := l, cause := cMisaligned, addr := a }) ∧
      away a x ∧
      (a % 64 = 0 → ∀ rec, HasRecord s w g i data (s.got w g [] l (wantOf a 64 1)) rec →
        descBad rec (s.comm (rec / 2 ^ 328 % 256)) o.vf = true → x = .bad { lane := l, cause := cLayoutRecord, addr := a }))

/-- O33. For every state in which a fragment of a group has the turn, an engine instruction whose leader passes its issue checks with room in its queue
and counter starts one engine operation with its operands of the leader lane, the leader's owner and the group's core; it adds 1 to the group's
counter of its class, enters the class's queue, and takes an entry of the range scoreboard for a destination in core scratch. No memory and no
register changes. Without a leader it has no effect. That its operands, coordinates among them, are read at issue is the model's reading (log 35).
That a scoreboard slot set by an instruction that writes nothing is released in the cycle after issue is the model's choice (log 8). (12_isa_async.md
R240, 11_ternary_array.md R236, 12_isa_async.md R244, 12_isa_async.md R246, 12_isa_async.md R247, 12_isa_async.md R255, 12_isa_async.md R256,
19_fabric_collectives.md R327, 10_isa_memory.md R194) -/
def Obligations.EnginesStart : Prop :=
  ∀ (s : State) (k i : Nat) (g : Group) (h : Hdr), Turn s (.grp k i) g i → Calm s (.grp k i) g →
    let act := active g i h
    let none_ := fun (o : Answer) => Completes s o (.grp k i) g i 16 2 h (act != 0) fun l => l = []
    let leads := fun (lp : PReg) (l : Nat) => l < 16 ∧ bit act l = true ∧ g.readP lp.val l = true ∧
      ∀ j, j < l → bit act j = true → g.readP lp.val j = false
    let addr := fun (l : Nat) (r : Base) => (pattern 64 g l r).toNat
    let starts := fun (o : Answer) (l : Nat) (kind : EngKind) (bar task : Option Nat) => ∀ at_,
      s.engineRoom (.grp k i) g kind = true →
      s.engineGot (.grp k i) g [] [] none i l kind bar = .ok at_ →
      StartsEngine s o k i g h l (settledKind s (k / 256) g at_ kind) bar task (kind.dest g (g.ownerOf l) (s.recordAt g none at_))
    (∀ (a : Base) (slot : Fin 256) (qm : Qm) (line : Fin 4096) (x : Async), let o := exec (.wload h a slot qm line x) s
      ((∀ l, ¬ leads x.lp l) → none_ o) ∧
      (∀ l, leads x.lp l → starts o l (.wload (addr l a) slot.val (qmMask qm) line.val) (x.bar.map (addr l)) (x.task.map (·.val)))) ∧
    (∀ (fmt : FeedFmt) (a : Base) (rows : Fin 64) (anc : BitVec 8) (stride : BitVec 16), let o := exec (.afeed h fmt a rows anc stride) s
      let S := if stride = 0 then feedRowLen fmt else stride.toNat
      (act = 0 → none_ o) ∧
      (act ≠ 0 → starts o (lowest act) (.feed fmt (addr (lowest act) a) (rows.val + 1) anc.toNat S) none none)) ∧
    (∀ (fmt : DrainFmt) (a : Base) (row rows : Fin 1024) (stride : BitVec 16), let o := exec (.adrain h fmt a row rows stride) s
      let S := if stride = 0 then drainRowLen fmt else stride.toNat
      (act = 0 → none_ o) ∧
      (act ≠ 0 → starts o (lowest act) (.drain fmt (addr (lowest act) a) row.val (rows.val + 1) S) none none)) ∧
    (∀ (a : Base) (coords : Src) (x : Async), let o := exec (.tcopy h a coords x) s
      let cs := fun (l : Nat) => match coords with
        | .v r => [0, 1, 2, 3].map fun j => (g.readV (r.val + j) l).toInt
        | .s r => [((g.readS r.val).extractLsb' 0 32).toInt, ((g.readS r.val).extractLsb' 32 32).toInt,
                   ((g.readS (r.val + 1)).extractLsb' 0 32).toInt, ((g.readS (r.val + 1)).extractLsb' 32 32).toInt]
      ((∀ l, ¬ leads x.lp l) → none_ o) ∧
      (∀ l, leads x.lp l → starts o l (.tcopy (addr l a) 0 (cs l)) (x.bar.map (addr l)) (x.task.map (·.val)))) ∧
    (∀ (d a b : Base) (lsize : Fin 13) (count : Fin 1024) (x : Async), let o := exec (.gath h d a b lsize count x) s
      ((∀ l, ¬ leads x.lp l) → none_ o) ∧
      (∀ l, leads x.lp l → starts o l (.gath (addr l d) (addr l a) (addr l b) (2 ^ lsize.val) (count.val + 1)) (x.bar.map (addr l)) (x.task.map (·.val)))) ∧
    (∀ (a : Base) (task : Option (Fin 4096)) (lp : PReg), let o := exec (.coll h a task lp) s
      ((∀ l, ¬ leads lp l) → none_ o) ∧
      (∀ l, leads lp l → starts o l (.coll (addr l a) 0) none (task.map (·.val))))

/-- O34. For every state in which a fragment of a group has the turn and a lane is active: BWAITA of a batch that has completed completes, and otherwise
holds its fragment, which stays at its PC; WAITC completes where every operation of its class but the youngest n has reported and no failure of theirs
is kept for an active entry, and holds its fragment where one has not reported; TSIG goes on, with a decrement of its task outstanding for its
leader's VF and ASID after everything the fragment issued before. Without an active lane each acts as NOP, and so does TSIG without a leader. That a
scoreboard slot set by an instruction that writes nothing is released in the cycle after issue is the model's choice (log 8). (12_isa_async.md R252,
12_isa_async.md R253, 12_isa_async.md R254, 11_ternary_array.md R231, 11_ternary_array.md R223) -/
def Obligations.WaitsAndSignals : Prop :=
  ∀ (s : State) (k i : Nat) (g : Group) (h : Hdr), Turn s (.grp k i) g i → Calm s (.grp k i) g →
    let act := active g i h
    let w := Issuer.grp k i
    let lead := s.leadCtx (k / 256)
    (∀ a : SReg, let o := exec (.bwaita h a) s
      let b : Nat := (g.readS a.val).toNat % 2 ^ 32
      (act = 0 → Completes s o w g i 8 2 h false fun l => l = []) ∧
      (act ≠ 0 → s.ownsRegion g (k / 256) (g.ownerOf (lowest act)) = true →
        let ahead : Int := (((s.ctxsAt lead).bdone : Int) - (b : Int)) % 2 ^ 32
        ((1 ≤ ahead ∧ ahead ≤ 2 ^ 31) → Completes s o w g i 8 2 h true fun l => l = []) ∧
        (¬ (1 ≤ ahead ∧ ahead ≤ 2 ^ 31) → Holds s o w g i (.bwaita h lead b act)))) ∧
    (∀ (cls : EClass) (n : Fin 256), let o := exec (.waitc h cls n) s
      let c := eclassNum cls
      let started := Tab.get (fun _ => 0) g.engNum c
      let reported := started - g.engCount c
      (act = 0 → Completes s o w g i 12 2 h false fun l => l = []) ∧
      (act ≠ 0 → started - n.val ≤ reported →
        (g.handler.isSome = true ∨ ∀ e, e < 16 → (g.fail e).cause = 0 ∨ (g.fail e).cls ≠ cls ∨ started - n.val ≤ (g.fail e).num ∨
          (g.owner e).valid = false ∨ (g.owner e).lanes &&& (act &&& (g.frag i).mask) = 0) →
        Completes s o w g i 12 2 h true fun l => l = []) ∧
      (act ≠ 0 → reported < started - n.val → Holds s o w g i (.waitc h cls (started - n.val) act))) ∧
    (∀ (task : Fin 4096) (lp : PReg), let o := exec (.tsig h task lp) s
      let leads := fun (l : Nat) => l < 16 ∧ bit act l = true ∧ g.readP lp.val l = true ∧ ∀ j, j < l → bit act j = true → g.readP lp.val j = false
      ((∀ l, ¬ leads l) → Completes s o w g i 16 2 h (act != 0) fun l => l = []) ∧
      (∀ l, leads l → Begins s o w g i 16 h true true fun op =>
        op.kind = .signal (k / 131072) task.val (g.ownerOf l).vf (g.ownerOf l).asid ∧ op.outs = [] ∧ op.elems = [] ∧
        (∀ n p, (n, some p) ∈ s.ops → sameAgent p.who w = true → i ∈ p.heirs → n ∈ op.after)))

/-- O35. For every state in which a fragment of a group has the turn and the record's address passes its probe: LAUNCH.now checks the record that stands
at the probed location and gives the leader lane's vD 1 where it is rejected, 3 where the device queue holds 32, and otherwise 0, with the record, as
read, put into the queue of the die and the leader's function; LAUNCH.arm gives 0 where the task is free and arms it with the leader's owner and the
count, and 2 otherwise, with the task unchanged. The status is written later, to the leader lane alone. Without a leader each has no effect but to go
on, and sets its slot only where a lane is active. That a scoreboard slot set by an instruction that writes nothing is released in the cycle after
issue is the model's choice (log 8). (06_isa_parallel.md R157, 05_parallel_execution.md R136) -/
def Obligations.DeviceLaunches : Prop :=
  ∀ (s : State) (k i : Nat) (g : Group) (h : Hdr) (d : VReg) (a : Base) (lp : PReg) (l : Nat) (at_ : Nat → List Got),
    Turn s (.grp k i) g i → Calm s (.grp k i) g →
    let act := active g i h
    let w := Issuer.grp k i
    let leads := l < 16 ∧ bit act l = true ∧ g.readP lp.val l = true ∧ ∀ j, j < l → bit act j = true → g.readP lp.val j = false
    let addr := (pattern 64 g l a).toNat
    let o := g.ownerOf l
    let die := k / 131072
    let dq := die * 64 + o.vf
    let before := (s.ops.filterMap fun p => match p.2 with
      | some x => if sameAgent x.who w && decide (i ∈ x.heirs) then some p.1 else none
      | none => none)
    let reaches := fun acc => Reaches s w g h act acc .dev [{ lane := l, addr := addr, addr2 := 0, x := 0, y := 0 }] at_
    let tells := fun (t : State) (st : Nat) => ∃ op, (∀ j, t.opsAt j = if j = s.nextId then some op else s.opsAt j) ∧ t.nextId = s.nextId + 1 ∧
      op.kind = .result ∧ op.who = w ∧ op.slot = h.sbs.val ∧ op.heirs = [i] ∧ LandsV (2 ^ l) 32 d.val (fun _ => (st : Int)) noFlags op.outs
    ((∀ l, l < 16 → bit act l = true → g.readP lp.val l = false) →
      Completes s (exec (.launchNow h d a lp) s) w g i 16 2 h (act != 0) (fun l => l = []) ∧
      ∀ b count, Completes s (exec (.launchArm h d a b count lp) s) w g i 16 2 h (act != 0) fun l => l = []) ∧
    (leads → reaches (.launch d.val false 0 0) → ∃ t g' q, exec (.launchNow h d a lp) s = .next t ∧ Issued g g' i 16 s.cycle h true ∧
      (∀ j, t.groupsAt j = if j = k then g' else s.groupsAt j) ∧
      let record := s.recordAt g none (at_ l)
      match s.checkRead o.vf o.asid (.ok record) q with
      | .error _ => tells t 1 ∧
        { t with groups := s.groups, ops := s.ops, nextId := s.nextId, fresh := s.fresh, fifos := s.fifos, win := s.win } = s
      | .ok _ =>
        (32 ≤ (s.devqAt dq).length → tells t 3 ∧ t.devq = s.devq) ∧
        ((s.devqAt dq).length < 32 → tells t 0 ∧
          (∀ j, t.devqAt j = if j = dq then s.devqAt dq ++
            [{ addr := addr, vf := o.vf, asid := o.asid, key := o.key, awn := o.awn, prio := o.prio, task := none, rec_ := some record, after := before }] else s.devqAt j)) ∧
        { t with groups := s.groups, ops := s.ops, nextId := s.nextId, devq := s.devq, fresh := s.fresh } = s) ∧
    (∀ (b : Src) (count : BitVec 16), let task := (pattern 32 g l b).toNat % 4096
      let tk := die * 4096 + task
      leads → reaches (.launch d.val true task count.toNat) → ∃ t g', exec (.launchArm h d a b count lp) s = .next t ∧ Issued g g' i 16 s.cycle h true ∧
        (∀ j, t.groupsAt j = if j = k then g' else s.groupsAt j) ∧
        { t with groups := s.groups, ops := s.ops, nextId := s.nextId, tasks := s.tasks, dispatched := s.dispatched } = s ∧
        ((s.tasksAt tk).tst ≠ 0 → tells t 2 ∧ t.tasks = s.tasks ∧ t.dispatched = s.dispatched) ∧
        ((s.tasksAt tk).tst = 0 → tells t 0 ∧
          (∀ j, j ≠ tk → t.tasksAt j = s.tasksAt j) ∧
          (t.tasksAt tk).lrec = addr ∧ (t.tasksAt tk).vf = o.vf ∧ (t.tasksAt tk).asid = o.asid ∧ (t.tasksAt tk).cnt = count.toNat ∧
          (count ≠ 0 → (t.tasksAt tk).tst = 1 ∧ t.dispatched = s.dispatched) ∧
          (count = 0 → (t.tasksAt tk).tst = 2 ∧ ∃ r, t.dispatched = s.dispatched ++ [r] ∧ r.addr = addr ∧ r.vf = o.vf ∧ r.task = some (die, task))))

/-- O36. For every state in which a fragment of a group outside a handler has the turn and its active lanes have one owner: TRAP parks them at the
instruction with one undelivered record with the next token, CAUSE 0x20, the mask, the PC and ADDR zext(IMM32); the other lanes go on at PC + 12 in
the fragment's own entry, and no register changes. DBRK does the same with CAUSE 0x21 where a debugger is attached to the owner. Without an active
lane, or for DBRK without a debugger, each acts as NOP. That a slot set by an instruction that writes nothing is released in the cycle after issue is
the model's choice (log 8). Where a fragment of one owner has the turn with CHECK.EN 1, an IADD that reads or writes a v register of one of its lanes,
and a SALU that reads or writes an s register, for which a fixed-latency result is not yet readable or another is outstanding, faults with
STALL_SHORT: the fragment parks at it, one undelivered record names its lanes and PC, and no register or count changes. JMP and RET whose guard holds
in a class slot fault the lanes of those slots with ILLEGAL_OP and SEC 0xFF where the register does not hold a multiple of 4 below 2^32 inside the
text; so does BRD that names such an s register, with its whole fragment, and KNOT with an active lane whose address lies outside the text, SEC 64;
with no free knot BRD and KNOT fault with KNOT_OVERFLOW. A fetch of a pad word by a transfer faults with PAD_TARGET, one that crosses a 32-byte line
or starts at or beyond the end of the text with ILLEGAL_OP and SEC 0xFF, and a word that decodes to an error with its ILLEGAL_OP or ILLEGAL_FIELD and
bit, as the unassigned opcode 0x0F with ILLEGAL_OP and bit 2. Each of these causes retires the fault domain of the owner. MOVG with an active lane
and, where their guard holds in a class slot, SSEL and, with GP not 0, SALU, SMOV to an s register, SLD, CALL and MFSR park every lane of a fragment
of several classes with UNIFORMITY, one fragment and one record for each owner. (17_isa_system.md R308, 16_faults_preemption.md R287,
08_memory_spaces.md R173, 18_program_mixed_lane_fault.md R312, 22_debug_trace_power.md R357, 01_sequential_machine.md R23, 01_sequential_machine.md
R17, 04_isa_core.md R80, 04_isa_core.md R111, 05_parallel_execution.md R129, 03_encoding_assembly.md R67, 01_sequential_machine.md R14) -/
def Obligations.TrapsBreaksShortStalls : Prop :=
  (∀ (s : State) (k i : Nat) (g : Group) (h : Hdr) (code : BitVec 32), Turn s (.grp k i) g i → Calm s (.grp k i) g →
     let act := active g i h
     let nops := fun (o : Answer) (covers : Bool) => Completes s o (.grp k i) g i 12 2 h covers fun l => l = []
     (act = 0 → nops (exec (.trap h code) s) false ∧ nops (exec (.dbrk h code) s) false) ∧
     ((∀ l, l < 16 → s.attached (g.ownerOf l).vf (g.ownerOf l).asid = false) → nops (exec (.dbrk h code) s) (act != 0)) ∧
     (∀ e, g.handler = none → act ≠ 0 → g.entsOf act = [e] → act &&& (g.owner e).lanes = act → (act ≠ (g.frag i).mask → g.freeFrags ≠ []) →
       Parks s (exec (.trap h code) s) k i g e act 0x20 0 code.toNat 12 ∧
       (s.attached (g.owner e).vf (g.owner e).asid = true → (∀ l, l < 16 → bit act l = true → g.entOf l = e) →
         Parks s (exec (.dbrk h code) s) k i g e act 0x21 0 code.toNat 12))) ∧
  (∀ (s : State) (k i : Nat) (g : Group) (h : Hdr) (e : Nat) (x : Out),
     Turn s (.grp k i) g i → g.handler = none → g.check.toNat % 2 = 1 →
     g.entsOf (g.frag i).mask = [e] → (g.frag i).mask &&& (g.owner e).lanes = (g.frag i).mask → (g.frag i).mask ≠ 0 →
     (∃ p ∈ g.pend, s.cycle < p.ready ∧ x ∈ p.outs) ∨ (∃ n o, s.opsAt n = some o ∧ sameAgent o.who (.grp k i) = true ∧ x ∈ o.outs) → x.sets = false →
     let short := fun (o : Answer) => ∃ t, o = .next t ∧ Parks s o k i g e (g.frag i).mask 0x04 0 0 8 ∧ (t.groupsAt k).retired = g.retired ∧ (t.groupsAt k).clk = g.clk
     (∀ (ty : ITy) (sat : Bool) (d a b : VReg), x.file = .v → x.lane < 16 → bit (g.frag i).mask x.lane = true → x.reg = d.val ∨ x.reg = a.val ∨ x.reg = b.val →
       short (exec (.iadd h ty sat d (.v a) (.reg (.v b))) s)) ∧
     (∀ (fn : SaluFn) (d a b : SReg), x.file = .s → x.reg ≠ 0 → x.reg = d.val ∨ x.reg = a.val ∨ x.reg = b.val → short (exec (.salu h fn d a (.s b)) s))) ∧
  (∀ (s : State) (k i : Nat) (g : Group) (h : Hdr) (e : Nat), Turn s (.grp k i) g i → Calm s (.grp k i) g → g.handler = none → s.canonical = true →
     let f := g.frag i
     let on := g.actQ f.mask h
     let size := (s.textOf g).length
     let kills := fun (o : Answer) (m cause sec len : Nat) => ∃ u, Parks s (.next u) k i g e m cause sec 0 len ∧ Kills u o g e
     let bad := fun (a : SReg) => let v := (g.readS a.val).toNat; 2 ^ 32 ≤ v ∨ v % 4 ≠ 0 ∨ size ≤ v
     (∀ a : SReg, let T := maskWhere fun l => bit f.mask l && bit on (g.clsOf l)
       bad a → Owned g i e T → kills (exec (.jmp h a) s) T 0x01 0xFF 8 ∧ kills (exec (.ret h a) s) T 0x01 0xFF 8) ∧
     (∀ (off : BitVec 32) (a : SReg), Owned g i e f.mask → a.val ≠ 0 →
       (bad a → kills (exec (.brd h off a) s) f.mask 0x01 0xFF 12) ∧ (¬ bad a → g.freeKnot = none → kills (exec (.brd h off a) s) f.mask 0x05 0 12)) ∧
     (∀ off : BitVec 32, Owned g i e f.mask → active g i h ≠ 0 →
       let target := (f.pc + off.toNat) % 2 ^ 32
       (size ≤ target → kills (exec (.knot h off) s) f.mask 0x01 64 12) ∧
       (target < size → g.freeKnot = none → kills (exec (.knot h off) s) f.mask 0x05 0 12))) ∧
  (∀ (s : State) (k i e : Nat) (rest : List Item), s.canonical = true → s.agenda = .issue (.grp k i) :: rest →
     let g := s.groupsAt k
     let f := g.frag i
     g.live = true → f.fst = .live → g.handler = none → Owned g i e f.mask →
     let text := s.textOf g
     let word := fun (n : Nat) => textAt text f.pc n
     let n := lenBits (word 1 % 4) / 8
     let kills := fun (cause sec : Nat) => ∃ u, Parks { s with agenda := rest } (.next u) k i g e f.mask cause sec 0 0 ∧ Kills u (step s) g e
     let here := f.pc + 4 ≤ text.length
     (here → f.target = true → word 1 % 4 = 3 → kills 0x03 0) ∧
     (text.length ≤ f.pc → kills 0x01 0xFF) ∧
     (here → word 1 % 4 ≠ 3 → 32 < f.pc % 32 + n → kills 0x01 0xFF) ∧
     (here → word 1 % 4 ≠ 3 → f.pc % 32 + n ≤ 32 → f.pc + n ≤ text.length →
       (∀ p, decodeCore (s.decCtx (.grp k i)) (word n) = .error (.op p) → kills 0x01 p) ∧
       (∀ p, decodeCore (s.decCtx (.grp k i)) (word n) = .error (.field p) → g.worse (word n) = false → kills 0x02 p))) ∧
  (∀ (cx : DecCtx) (w : Nat), w / 4 % 256 = 0x0F → decodeCore cx w = .error (.op 2)) ∧
  (∀ (s : State) (k i : Nat) (g : Group) (h : Hdr), Turn s (.grp k i) g i → Calm s (.grp k i) g → g.handler = none → ¬ OneClass g i →
     let m := (g.frag i).mask
     (g.entsOf m).length ≤ g.freeFrags.length + 1 → (∀ e e', e ≠ e' → (g.owner e).lanes &&& (g.owner e').lanes = 0) → m < 65536 →
     (∀ l, l < 16 → bit m l = true → ∃ e ∈ g.entsOf m, bit (g.owner e).lanes l = true) →
     let faults := fun (o : Answer) => ∃ u t, ParksAll s (.next u) k i g 0x06 0 0 ∧ o = .next t ∧ Queues u t
     (active g i h ≠ 0 → ∀ (ty : BTy) (d : SReg) (a : Src), faults (exec (.movg h ty d a) s)) ∧
     (g.actQ m h ≠ 0 → (∀ (d a b : SReg) (c : QReg), faults (exec (.ssel h d a b c) s)) ∧
       (h.gp.val ≠ 0 → (∀ (fn : SaluFn) (d a : SReg) (b : GSrc), faults (exec (.salu h fn d a b) s)) ∧
         (∀ (d : SReg) (a : SMovSrc), faults (exec (.smov h (.s d) a) s)) ∧
         (∀ (ty : BTy) (n : NReg) (scope : Scope) (d : SReg) (a : MAddr), faults (exec (.sld h ty n scope d a) s)) ∧
         (∀ (d : SReg) (off : BitVec 32), faults (exec (.call h d off) s)) ∧
         (∀ (d a : SReg) (imm : BitVec 16), (imm.toNat + (g.readS a.val).toNat % 2 ^ 32) % 2 ^ 32 < 3 → faults (exec (.mfsr h d a imm) s)))))

/-- O37. For every state in which a fragment of a group has the turn, with n = IMM32 + A⟨31:0⟩ mod 2^32: outside a handler MFSR of n = 0, 1 or 2 starts a
write to sD of CYCLE, RETIRED or CKPTN; in a handler MFSR of an assigned n starts one of that register of the frozen state, the shadow bank or the
header; MTSR of a register it may write puts sV into it for every later instruction, a fault record's STAT apart; RETT holds its fragment. A number
that no register has leaves a handler's group stopped with its handler failed. With a guard that holds in no class slot MFSR and MTSR act as NOP. That
a scoreboard slot set by an instruction that writes nothing is released in the cycle after issue is the model's choice (log 8). That a number without
a register stops whatever the guard is the model's reading (log 34). (17_isa_system.md R305, 17_isa_system.md R306, 17_isa_system.md R304,
17_isa_system.md R309) -/
def Obligations.SystemRegisters : Prop :=
  ∀ (s : State) (k i : Nat) (g : Group) (h : Hdr), Turn s (.grp k i) g i → Calm s (.grp k i) g →
    let on := g.actQ (g.frag i).mask h ≠ 0
    let w := Issuer.grp k i
    let num := fun (a : SReg) (imm : BitVec 16) => (imm.toNat + (g.readS a.val).toNat % 2 ^ 32) % 2 ^ 32
    let count := fun (b : Nat) => [3, 16, 16, 32, 32, 64, 64, 8, 8].getD b 0
    let assigned := fun (n : Nat) => n < 2 ^ 16 ∧ n % 256 < count (n / 256)
    let reads := fun (o : Answer) (d : SReg) (v : Nat) =>
      (¬ on → Begins s o w g i 12 h false false fun _ => False) ∧
      (on → Begins s o w g i 12 h true true fun op => op.kind = .result ∧ op.elems = [] ∧ LandsS True d.val (BitVec.ofNat 64 v) op.outs)
    let word := fun (t : Tab DWord) (n : Nat) => (Tab.get (fun _ => (0 : DWord)) t n).toNat
    (∀ (d a : SReg) (imm : BitVec 16), let n := num a imm
      let o := exec (.mfsr h d a imm) s
      (h.gp.val ≠ 0 → OneClass g i) →
      (g.handler = none →
        (n = 0 → reads o d (s.cycle % 2 ^ 64)) ∧ (n = 1 → reads o d g.retired.toNat) ∧ (n = 2 → reads o d g.ckptn)) ∧
      (∀ hd, g.handler = some hd →
        (n = 0 → reads o d (s.cycle % 2 ^ 64)) ∧ (n = 1 → reads o d g.retired.toNat) ∧ (n = 2 → reads o d g.ckptn) ∧
        (assigned n → 256 ≤ n → n / 256 < 7 → reads o d (word hd.frozen n)) ∧
        (assigned n → n / 256 = 7 → 2 ≤ hd.level → reads o d (word hd.inner (56 + n % 256))) ∧
        (assigned n → n / 256 = 8 → reads o d (word hd.header (n % 256))) ∧
        (¬ assigned n → ∃ t, o = .next t ∧ (t.groupsAt k).handler = some { hd with failed := true } ∧ (t.groupsAt k).stop.stopped = true ∧
          (t.groupsAt k).frags = g.frags))) ∧
    (∀ (a : SReg) (imm : BitVec 16) (v : SReg) (hd : Handler), let n := num a imm
      let o := exec (.mtsr h a imm v) s
      let x := (g.readS v.val).toNat
      g.handler = some hd → assigned n → 256 ≤ n → n / 256 < 8 → (n / 256 = 7 → 2 ≤ hd.level) →
      (¬ on → Completes s o w g i 12 2 h false fun l => l = []) ∧
      (on → (n / 256 = 4 → n % 2 = 0 → x / 2 ^ 16 % 64 = 0 ∨ x / 2 ^ 16 % 64 = hd.fn ∨ hd.fn = 0) →
        ∃ t g' hd', o = .next t ∧ (∀ j, t.groupsAt j = if j = k then g' else s.groupsAt j) ∧ { t with groups := s.groups } = s ∧
          Issued g { g' with handler := g.handler } i 12 s.cycle h true ∧
          Pending g { g' with handler := g.handler } i (s.cycle + 2) h true (fun l => l = []) ∧
          g'.handler = some hd' ∧ { hd' with frozen := hd.frozen, inner := hd.inner } = hd ∧
          (∀ j, word hd'.frozen j = if j = n ∧ n / 256 ≠ 7 then (if n / 256 = 5 ∧ n % 4 = 1 then x / 4 * 4 + word hd.frozen n % 4 else x)
            else word hd.frozen j) ∧
          (∀ j, word hd'.inner j = if n / 256 = 7 ∧ j = 56 + n % 256 then x else word hd.inner j))) ∧
    (g.handler.isSome = true → Holds s (exec (.rett h) s) w g i (.rett h))

/-- O38. For every state in which a fragment of a group has the turn: CKPT whose guard holds in a class slot sets CKPTN to A⟨31:0⟩ and RETIRED to 0 and
counts one issue on the logical clock, and without it acts as NOP; nothing else changes but trace packets about the group. EVTX issues and sends, for
each owner-table entry with an active lane, ascending, one event of class 8, the core's unit, the entry's owner, KIND and AUX from B and VAL from A of
the entry's lowest active lane; nothing else changes. That a scoreboard slot set by an instruction that writes nothing is released in the cycle after
issue is the model's choice (log 8). (17_isa_system.md R310, 17_isa_system.md R311, 14_event_filter_coprocessor.md R263) -/
def Obligations.CheckpointsAndEvents : Prop :=
  ∀ (s : State) (k i : Nat) (g : Group) (h : Hdr), Turn s (.grp k i) g i → Calm s (.grp k i) g →
    let act := active g i h
    (∀ a : SReg, let o := exec (.ckpt h a) s
      (g.actQ (g.frag i).mask h = 0 → Completes s o (.grp k i) g i 8 2 h false fun l => l = []) ∧
      (g.actQ (g.frag i).mask h ≠ 0 → ∃ t g', o = .next t ∧ OthersTraced s t (.grp k i) g' ∧
        g'.ckptn = (g.readS a.val).toNat % 2 ^ 32 ∧ g'.retired = 0 ∧
        Issued g { g' with ckptn := g.ckptn, retired := g.retired + 1 } i 8 s.cycle h true ∧
        Pending g { g' with ckptn := g.ckptn, retired := g.retired + 1 } i (s.cycle + 2) h true fun l => l = [])) ∧
    (∀ a b : Src, ∃ t g', exec (.evtx h a b) s = .next t ∧
      (∀ j, t.groupsAt j = if j = k then g' else s.groupsAt j) ∧
      Issued g g' i 8 s.cycle h (act != 0) ∧ Pending g g' i (s.cycle + 2) h (act != 0) (fun l => l = []) ∧
      SendsAll { s with groups := t.groups } t ((g.entsOf act).map fun e =>
        let l := lowest ((g.owner e).lanes &&& act)
        let y := pattern 32 g l b
        (k / 131072, evWord s.cycle 8 (k / 256 % 512) (g.owner e).vf (g.owner e).asid (y.extractLsb' 16 6).toNat (y.extractLsb' 0 16).toNat
          (pattern 32 g l a).toNat)))

/-- O39. For every state in which a run has its pipe's turn: EVLD writes the named field of the record or the carry count, EMOV a register, EMOVI the
sign-extended immediate or one field of eD, EALU the 64-bit result of its operation, ECMP 1 or 0, and EHASH the mix of eA and the seed, each in one
step and EFC cycle; EBF goes to PC + offset where it is taken and to PC + 1 otherwise, and writes no register. No other register, run or state
changes. (14_event_filter_coprocessor.md R272, 14_event_filter_coprocessor.md R274, 14_event_filter_coprocessor.md R275,
14_event_filter_coprocessor.md R276, 14_event_filter_coprocessor.md R277, 14_event_filter_coprocessor.md R278) -/
def Obligations.FilterRegisters : Prop :=
  ∀ (s : State) (d p : Nat) (r : Run), s.turn = .pipe d p → Tab.get (fun _ => none) (s.efcsAt d).pipes p = some r →
    let e := fun (x : Nat) => Tab.get (fun _ => (0 : DWord)) r.regs x
    let moves := fun (o : Answer) (pc : Nat) (regs : Tab DWord → Prop) => ∃ t rs, o = .next t ∧ regs rs ∧
      (∀ j q, Tab.get (fun _ => none) (t.efcsAt j).pipes q =
        if j = d ∧ q = p then some { r with pc := pc, steps := r.steps + 1, readyT := r.readyT + 2618, regs := rs }
        else Tab.get (fun _ => none) (s.efcsAt j).pipes q) ∧
      (∀ j, { t.efcsAt j with pipes := (s.efcsAt j).pipes } = s.efcsAt j) ∧ { t with efcs := s.efcs } = s
    let sets := fun (o : Answer) (x : Fin 16) (v : BitVec 64) => moves o (r.pc + 1) fun rs =>
      ∀ y, Tab.get (fun _ => (0 : DWord)) rs y = if y = x.val then v else e y
    let opB := fun (b : ESrc) => match b with
      | .reg y => e y.val
      | .imm i => i.signExtend 64
    (∀ (x : Fin 16) (f : EvField), let w := r.word
      sets (exec (.evld x f) s) x (match f with
        | .ts => (w.extractLsb' 96 32).setWidth 64
        | .cls => (w.extractLsb' 92 4).setWidth 64
        | .unit => (w.extractLsb' 80 12).setWidth 64
        | .vf => (w.extractLsb' 74 6).setWidth 64
        | .asid => (w.extractLsb' 54 20).setWidth 64
        | .kind => (w.extractLsb' 48 6).setWidth 64
        | .aux => (w.extractLsb' 32 16).setWidth 64
        | .val => (w.extractLsb' 0 32).setWidth 64
        | .lo => w.extractLsb' 0 64
        | .hi => w.extractLsb' 64 64
        | .drops => BitVec.ofNat 64 r.carry)) ∧
    (∀ x a : Fin 16, sets (exec (.emov x a) s) x (e a.val)) ∧
    (∀ (x : Fin 16) (n : Fin 5) (imm : BitVec 14), ∃ v : BitVec 64, sets (exec (.emovi x n imm) s) x v ∧
      (n.val = 0 → v = imm.signExtend 64) ∧
      (1 ≤ n.val → n.val ≤ 3 → ∀ j, j < 64 → v.getLsbD j = if 14 * n.val ≤ j ∧ j < 14 * n.val + 14 then imm.getLsbD (j - 14 * n.val) else (e x.val).getLsbD j) ∧
      (n.val = 4 → ∀ j, j < 64 → v.getLsbD j = if 56 ≤ j then imm.getLsbD (j - 56) else (e x.val).getLsbD j)) ∧
    (∀ (op : EaluOp) (x a : Fin 16) (b : ESrc), let u := e a.val
      let v := opB b
      sets (exec (.ealu op x a b) s) x (match op with
        | .add => u + v
        | .sub => u - v
        | .and => u &&& v
        | .or => u ||| v
        | .xor => u ^^^ v
        | .shl => if 64 ≤ v.toNat then 0 else u <<< v.toNat
        | .shr => if 64 ≤ v.toNat then 0 else u >>> v.toNat
        | .min => if u ≤ v then u else v
        | .max => if u ≤ v then v else u
        | .subs => if u ≤ v then 0 else u - v
        | .mul => u * v)) ∧
    (∀ (c : EcmpOp) (x a : Fin 16) (b : ESrc), let u := e a.val
      let v := opB b
      sets (exec (.ecmp c x a b) s) x (if (match c with
        | .eq => decide (u = v)
        | .ne => decide (u ≠ v)
        | .ltn => u.ult v
        | .len => u.ule v
        | .gtn => v.ult u
        | .gen => v.ule u
        | .lti => u.slt v
        | .gei => v.sle u) then 1 else 0)) ∧
    (∀ x a seed : Fin 16, sets (exec (.ehash x a seed) s) x
      (let h0 := e a.val ^^^ (BitVec.ofNat 64 seed.val * 0x9E3779B97F4A7C15)
       let h1 := h0 ^^^ (h0 >>> 29)
       let h2 := h1 * 0xBF58476D1CE4E5B9
       h2 ^^^ (h2 >>> 32))) ∧
    (∀ (c : EbfCond) (off : Fin 64), moves (exec (.ebf c off) s)
      (if (match c with
        | .always _ => true
        | .nz a => e a.val != 0
        | .z a => e a.val == 0) then r.pc + off.val else r.pc + 1) fun rs => ∀ y, Tab.get (fun _ => (0 : DWord)) rs y = e y)

/-- O40. For every state in which a run has its pipe's turn and every word it names exists for its slot: HINC adds eB to its word, saturating, HMAX keeps
the greater, CMSU adds eB to its four words and CMSQ writes their least to eD, and WSUM clears the buckets of the epochs that passed, adds eA to the
bucket of eB's epoch unless it is older than the window, keeps the sum and writes it to eD. No other byte of memory changes. Where g is 32 or more,
the distance in epochs is free (log 2), and a statement of the model's alone. Where a word is absent nothing is touched, 0 is read and ERR is set,
EKIND telling of the first error. (14_event_filter_coprocessor.md R270, 14_event_filter_coprocessor.md R279, 14_event_filter_coprocessor.md R280,
14_event_filter_coprocessor.md R281) -/
def Obligations.FilterSketches : Prop :=
  ∀ (s : State) (d p : Nat) (r : Run), s.turn = .pipe d p → Tab.get (fun _ => none) (s.efcsAt d).pipes p = some r → d < 4 → r.slot < 64 →
    let e := fun (x : Nat) => (Tab.get (fun _ => (0 : DWord)) r.regs x).toNat
    let x := s.efsr d r.slot
    let base := x / 2 ^ 49 % 2 ^ 15
    let there := fun (w : Nat) => w < x / 2 ^ 33 % 2 ^ 16 ∧ base + w < 32768
    let key := fun (w : Nat) => sketchKey d (base + w)
    let word := fun (w : Nat) => s.load (key w) 8
    let runs := fun (t : State) (cycles : Nat) (rs : Tab DWord) =>
      (∀ j q, Tab.get (fun _ => none) (t.efcsAt j).pipes q =
        if j = d ∧ q = p then some { r with pc := r.pc + 1, steps := r.steps + 1, readyT := r.readyT + 2618 * cycles, regs := rs }
        else Tab.get (fun _ => none) (s.efcsAt j).pipes q) ∧
      (∀ j, { t.efcsAt j with pipes := (s.efcsAt j).pipes } = s.efcsAt j)
    let gives := fun (rs : Tab DWord) (d' : Option (Fin 16)) (v : Nat) => ∀ y, Tab.get (fun _ => (0 : DWord)) rs y =
      if d'.map (·.val) = some y then BitVec.ofNat 64 v else Tab.get (fun _ => (0 : DWord)) r.regs y
    let writes := fun (t : State) (ws : List Nat) (v : Nat → Nat) => (∀ w ∈ ws, t.load (key w) 8 = v w) ∧
      (∀ a, (∀ w ∈ ws, a < key w ∨ key w + 8 ≤ a) → t.memAt a = s.memAt a) ∧ { t with mem := s.mem, integ := s.integ, efcs := s.efcs } = s
    let absent := fun (o : Answer) (cycles : Nat) (d' : Option (Fin 16)) => ∃ t rs, o = .next t ∧ runs t cycles rs ∧ gives rs d' 0 ∧
      { t with efcs := s.efcs, win := s.win } = s ∧
      (∀ j, j ≠ 16777216 + 8388608 * d + efscOff r.slot → t.winAt j = s.winAt j) ∧
      (let u := s.efsc d r.slot
       (bit u 62 = true → t.win = s.win) ∧
       (bit u 62 = false → t.efsc d r.slot = u % 2 ^ 60 + 1 * 2 ^ 60 + 1 * 2 ^ 62 + u / 2 ^ 63 * 2 ^ 63))
    let one := fun (o : Answer) (w v : Nat) =>
      (there w → ∃ t rs, o = .next t ∧ runs t 1 rs ∧ gives rs none 0 ∧ writes t [w] fun _ => v) ∧ (¬ there w → absent o 1 none)
    (∀ (a b : Fin 16) (bs : BitVec 14), let w := bs.toNat + e a.val
      one (exec (.hinc a b bs) s) w (min (word w + e b.val) (2 ^ 64 - 1)) ∧
      one (exec (.hmax a b bs) s) w (max (word w) (e b.val))) ∧
    (∀ (a : Fin 16) (k : CmK) (bs : BitVec 10), let ws := (List.range 4).map fun j => 32 * bs.toNat + j * 2 ^ k.val + e a.val / 2 ^ (16 * j) % 2 ^ k.val
      (∀ b : Fin 16, let o := exec (.cmsu a b k bs) s
        ((∀ w ∈ ws, there w) → ∃ t rs, o = .next t ∧ runs t 4 rs ∧ gives rs none 0 ∧ writes t ws fun w => min (word w + e b.val) (2 ^ 64 - 1)) ∧
        (¬ (∀ w ∈ ws, there w) → absent o 4 none)) ∧
      (∀ c : Fin 16, let o := exec (.cmsq c a k bs) s
        ((∀ w ∈ ws, there w) → ∃ t rs v, o = .next t ∧ runs t 4 rs ∧ gives rs (some c) v ∧ (∃ w ∈ ws, v = word w) ∧ (∀ w ∈ ws, v ≤ word w) ∧
          { t with efcs := s.efcs } = s) ∧
        (¬ (∀ w ∈ ws, there w) → absent o 4 (some c)))) ∧
    (∀ (c a b : Fin 16) (bs : BitVec 14), let w0 := bs.toNat
      let o := exec (.wsum c a b bs) s
      let head : Nat := if w0 < x / 2 ^ 33 % 2 ^ 16 ∧ base + w0 < 32768 then word w0 else 0
      let g : Nat := head / 2 ^ 58 % 64
      let B : Nat := 2 ^ (head / 2 ^ 55 % 8)
      let all := ∀ j, j < 3 + B → there (w0 + j)
      let epoch : Nat := e b.val % 2 ^ 32 / 2 ^ g
      let last : Nat := word (w0 + 1)
      let delta : Int := if 32 ≤ g then (Config.wsumDelta g last (e b.val)).toInt else ((epoch : Int) - last).bmod (2 ^ (32 - g))
      let passed := fun (i : Nat) => 0 < delta ∧ ∃ j : Nat, 1 ≤ j ∧ (j : Int) ≤ delta ∧ j ≤ B ∧ i = (last + j) % B
      let bucket := fun (i : Nat) => word (w0 + 3 + i)
      (all → ∃ t rs n, o = .next t ∧ runs t n rs ∧ (∃ v, gives rs (some c) v ∧ t.load (key (w0 + 2)) 8 = v) ∧
        t.load (key (w0 + 1)) 8 = (if 0 < delta then epoch else last) ∧
        (∀ i : Nat, i < B → (passed i → t.load (key (w0 + 3 + i)) 8 = if i = epoch % B then e a.val else 0) ∧
          (¬ passed i → t.load (key (w0 + 3 + i)) 8 = if (0 < delta ∨ -(B : Int) < delta) ∧ i = epoch % B then (bucket i + e a.val) % 2 ^ 64 else bucket i)) ∧
        (∃ out : List Nat, out.Nodup ∧ (∀ i, i ∈ out ↔ i < B ∧ passed i) ∧
          ((t.load (key (w0 + 2)) 8 : Int) - (word (w0 + 2) + (if 0 < delta ∨ -(B : Int) < delta then (e a.val : Int) else 0) - ((out.map bucket).sum : Nat))) % 2 ^ 64 = 0) ∧
        (∀ x : Nat, x < key (w0 + 1) ∨ key (w0 + 3 + B) ≤ x → t.memAt x = s.memAt x) ∧ { t with mem := s.mem, integ := s.integ, efcs := s.efcs } = s) ∧
      (¬ all → absent o 1 (some c)))

/-- O41. For every state in which a run has its pipe's turn: TRIG raises the line that its slot is granted and no other, and for one not granted sets ERR,
EKIND telling of the first error; EMIT writes the 32-byte record with its header and eA to eA+2 at the ring's next place and advances HEAD by 1, or,
where the ring is full or does not fit, writes nothing and counts RDROP. EEND frees the pipe, returns the steps not executed while the window is the
run's, up to what the window loaded, and releases its source. (14_event_filter_coprocessor.md R271, 14_event_filter_coprocessor.md R282,
14_event_filter_coprocessor.md R269, 14_event_filter_coprocessor.md R264, 15_program_telemetry.md R283) -/
def Obligations.FilterOutput : Prop :=
  ∀ (s : State) (d p : Nat) (r : Run), s.turn = .pipe d p → Tab.get (fun _ => none) (s.efcsAt d).pipes p = some r → d < 4 → r.slot < 64 → r.own < 64 →
    let e := fun (x : Nat) => (Tab.get (fun _ => (0 : DWord)) r.regs x).toNat
    let x := s.efsr d r.slot
    let regAt := fun (off : Nat) => 16777216 + 8388608 * d + off
    let next := { r with pc := r.pc + 1, steps := r.steps + 1, readyT := r.readyT + 2618 }
    let pipes := fun (t : State) (q : Option Run) (trig : Nat → Bool) =>
      (∀ n, Tab.get (fun _ => none) (t.efcsAt d).pipes n = if n = p then q else Tab.get (fun _ => none) (s.efcsAt d).pipes n) ∧
      (∀ n, bit (t.efcsAt d).trig n = (bit (s.efcsAt d).trig n || trig n)) ∧
      { t.efcsAt d with pipes := (s.efcsAt d).pipes, trig := (s.efcsAt d).trig } = s.efcsAt d ∧ ∀ j, j ≠ d → t.efcsAt j = s.efcsAt j
    (∀ line : Fin 8, bit (x / 2 ^ 21 % 256) line.val = true → ∃ t, exec (.trig line) s = .next t ∧ pipes t (some next) (fun n => n == line.val) ∧
      { t with efcs := s.efcs } = s) ∧
    (∀ line : Fin 8, bit (x / 2 ^ 21 % 256) line.val = false → ∃ t, exec (.trig line) s = .next t ∧ pipes t (some next) (fun _ => false) ∧
      { t with efcs := s.efcs, win := s.win } = s ∧
      (let u := s.efsc d r.slot
       (bit u 62 = true → t.win = s.win) ∧ (bit u 62 = false → t.efsc d r.slot = u % 2 ^ 60 + 2 * 2 ^ 60 + 1 * 2 ^ 62 + u / 2 ^ 63 * 2 ^ 63))) ∧
    (∀ (a : Fin 14) (tag : Fin 16), let ring := x / 2 ^ 29 % 16
      let c := s.efc d (efrcOff ring)
      let q := s.efc d (efrpOff ring)
      let first := c / 2 ^ 49 % 2 ^ 15
      let n := 2 ^ (c / 2 ^ 45 % 16)
      let head := q / 2 ^ 48 % 2 ^ 16
      let tail := q / 2 ^ 32 % 2 ^ 16
      let full := (head + 65536 - tail) % 65536 ≥ n ∨ 32768 < first + n
      ∃ t, exec (.emit a tag) s = .next t ∧ pipes t (some next) (fun _ => false) ∧
        (∀ j, j ≠ regAt (efrpOff ring) → t.winAt j = s.winAt j) ∧ { t with efcs := s.efcs, win := s.win, mem := s.mem, integ := s.integ } = s ∧
        (full → t.mem = s.mem ∧ t.efc d (efrpOff ring) = q / 2 ^ 32 * 2 ^ 32 + min (q % 2 ^ 32 + 1) (2 ^ 32 - 1)) ∧
        (¬ full → t.efc d (efrpOff ring) = (head + 1) % 2 ^ 16 * 2 ^ 48 + q % 2 ^ 48 ∧
          (let at_ := ringKey d (32 * (first + head % n))
           t.load at_ 8 = (r.word.extractLsb' 96 32).toNat * 2 ^ 32 + r.own * 2 ^ 26 + r.slot * 2 ^ 20 + tag.val * 2 ^ 16 + head ∧
           (∀ j, j < 3 → t.load (at_ + 8 + 8 * j) 8 = e (a.val + j)) ∧
           (∀ y, y < at_ ∨ at_ + 32 ≤ y → t.memAt y = s.memAt y)))) ∧
    (let b := s.efc d (efbgOff r.own)
     let fifo := d * 65536 + r.src
     ∃ t, exec .eend s = .next t ∧ pipes t none (fun _ => false) ∧
      (∀ j, t.fifosAt j = if j = fifo then { s.fifosAt j with busy := (s.fifosAt j).busy - 1 } else s.fifosAt j) ∧
      (∀ j, j ≠ regAt (efbgOff r.own) → t.winAt j = s.winAt j) ∧ { t with efcs := s.efcs, win := s.win, fifos := s.fifos } = s ∧
      (r.window ≠ (s.efcsAt d).window → t.win = s.win) ∧
      (r.window = (s.efcsAt d).window → (Tab.get (fun _ => 0) (s.efcsAt d).loaded r.own) < 4096 →
        t.efc d (efbgOff r.own) / 2 ^ 40 % 2 ^ 12 =
          min (b / 2 ^ 40 % 2 ^ 12 + (r.nlen + 1) - (r.steps + 1)) (Tab.get (fun _ => 0) (s.efcsAt d).loaded r.own) ∧
        t.efc d (efbgOff r.own) % 2 ^ 40 = b % 2 ^ 40 ∧ t.efc d (efbgOff r.own) / 2 ^ 52 = b / 2 ^ 52))

/-- O42. For every outstanding operation: when the results of an instruction of variable latency are written for all their lanes, the registers take them,
every fragment that holds the operation loses 1 of its slot, and the operation ends; a load of local memory whose orderings are met gives its
registers the bytes that stand at each element's location then; a store reads its source registers as they stand, each lane the old or the new value
of an s register with a write outstanding, or holds what was read at issue, and releases the slot, as the reading of an engine instruction's operands
does. When a cycle begins, the fixed-latency results, any number of them, that are then readable take their registers, the youngest of those of one
register staying, and release their slots, and the others wait in their order. Of results of one cycle for one register, fixed-latency ones and one of
variable latency, that of the youngest instruction stays. That a fixed-latency result counts as written as soon as it is readable is the model's
choice (log 46). Nothing else changes. (01_sequential_machine.md R20, 01_sequential_machine.md R21, 01_sequential_machine.md R22,
01_sequential_machine.md R19, 09_memory_model.md R186) -/
def Obligations.ResultsLand : Prop :=
  (∀ (s : State) (n : Nat) (o : Op) (w : Issuer), s.opsAt n = some o → o.who = w → (∀ d p, w ≠ .pipe d p) →
    let g := s.grp w
    let released := fun (t : State) (g' : Group) (x : Option Op) => Others { s with ops := t.ops } t w (g'.decSlot o.heirs o.slot) ∧
      ∀ j, t.opsAt j = if j = n then x else s.opsAt j
    (∀ m : Lanes, o.outs ≠ [] → (∀ x ∈ o.outs, x.inLanes m.toNat = true) →
      (o.kind = .result → o.elems = [] → ∃ t, exec (.resultWriteback n m false) s = .next t ∧ released t (g.landLate s.cycle o.age o.outs) none) ∧
      (∀ signed, o.kind = .load signed →
        (∀ e ∈ o.elems, e.got = false ∧ e.key < 2 ^ 80 ∧ s.afterOk o = true ∧ s.granuleFree n o e.key = true ∧
          s.reserved w (n :: o.after) e.key e.n false = false ∧ s.lineBad e.key e.n = false ∧ o.sources m.toNat e = true) → s.followedBy w = false →
        let o' := { o with elems := o.elems.map fun (e : Elem) => { e with got := true, val := s.load e.key e.n, done := true } }
        ∃ t, exec (.resultWriteback n m false) s = .next t ∧ released t (g.landLate s.cycle o.age (o.outs.map o'.value)) none)) ∧
    (o.kind = .store → o.read = false → ∃ t, ∃ v : Elem → Nat, exec (.storeSourceRead n) s = .next t ∧
      let s' := { s with ops := t.ops, fresh := s.fresh + (s.lateS w).length }
      let from_ := fun (e : Elem) (x : DWord) => v e = x.toNat % 2 ^ (8 * e.n)
      let filled := fun (e : Elem) => { e with got := true, val := v e }
      Others s' t w (g.decSlot o.heirs o.slot) ∧
      (∀ j, t.opsAt j = if j = n then some { o with read := true, slot := 0, elems := o.elems.map fun e => if e.got then e else filled e } else s.opsAt j) ∧
      ∀ e, (e.cmp = 1 → from_ e (g.readS e.reg) ∨ ∃ x, (e.reg, x) ∈ s.lateS w ∧ from_ e x) ∧ (e.cmp = 2 → v e = e.val) ∧
        (e.cmp = 0 → v e = if e.n = 8 then (g.readV e.reg e.lane).toNat + 2 ^ 32 * (g.readV (e.reg + 1) e.lane).toNat
          else (g.readV e.reg e.lane).toNat % 2 ^ (8 * e.n))) ∧
    (o.kind = .operands → o.read = false → ∃ t, exec (.storeSourceRead n) s = .next t ∧ released t g none)) ∧
  (∀ (g : Group) (cyc : Nat),
    let due := g.pend.filter fun p => decide (p.ready ≤ cyc)
    let outs := due.flatMap (·.outs)
    let g' := g.commit cyc
    let takes := fun (old : Nat) (l : List Out) => (l.getLast?.map (·.val)).getD old
    g'.pend = (g.pend.filter fun p => decide (cyc < p.ready)) ∧ g'.landed = due ∧
    (∀ r l, (g'.readV r l).toNat = takes (g.readV r l).toNat (outs.filter fun x => x.file == .v && 16 * x.reg + x.lane == 16 * r + l) % 2 ^ 32) ∧
    (∀ r, r ≠ 0 → g.handler = none → (g'.readS r).toNat = takes (g.readS r).toNat (outs.filter fun x => x.file == .s && x.reg == r) % 2 ^ 64) ∧
    ((∀ p ∈ due, p.heirs.Nodup) → ∀ i n, (g'.frag i).slotAt n =
      (g.frag i).slotAt n - if n = 0 then 0 else (due.filter fun p => decide (i ∈ p.heirs) && p.slot == n).length) ∧
    (due = [] → g' = { g with landed := [] }) ∧
    (∀ p, g.pend = [p] → p.ready ≤ cyc → g' = ({ g with pend := [], landed := [p] }.writeOuts p.outs).decSlot p.heirs p.slot)) ∧
  (∀ (g : Group) (cyc age : Nat) (l : List Out), (∀ p ∈ g.landed, p.ready ≠ cyc) → { g.landLate cyc age l with landed := g.landed } = g.writeOuts l) ∧
  (∀ (g : Group) (cyc age : Nat) (l : List Out),
    let younger := (g.landed.filter fun p => p.ready == cyc && decide (age < p.age)).flatMap (·.outs)
    let last := fun (hit : Out → Bool) (old : Nat) => if (l.any hit) = false then old
      else ((((younger.filter hit).getLast?.or (l.filter hit).getLast?).map (·.val)).getD 0)
    (∀ r j, r < 256 → j < 16 → (∀ x ∈ l ++ younger, x.lane < 16) → ((g.landLate cyc age l).readV r j).toNat = last (fun x => x.file == .v && x.reg == r && x.lane == j) (g.readV r j).toNat % 2 ^ 32) ∧
    (∀ r, r ≠ 0 → g.handler = none → ((g.landLate cyc age l).readS r).toNat = last (fun x => x.file == .s && x.reg == r) (g.readS r).toNat % 2 ^ 64)) ∧
  (∀ (g : Group) (hs : List Nat) (n f m : Nat), hs.Nodup →
    ((g.decSlot hs n).frag f).slotAt m = (if f ∈ hs ∧ m = n ∧ n ≠ 0 then (g.frag f).slotAt m - 1 else (g.frag f).slotAt m) ∧
    { g.decSlot hs n with frags := g.frags } = g)

/-- O43. For every outstanding operation with an element of local memory, in lines that pass their checks, whose orderings are met: a store's bytes become
its value and no other byte of memory changes, and the counters of an integrity frame are raised with it; an atomic writes the sum, the least, the
greatest, the bitwise function or the operand of the old value and its own, ACAS only where the old value equals the expected one, an arrival the next
barrier word of R196 or nothing where the word is malformed, and keeps the old value for its result. A fence ends, a release write may perform and
TSIG decrements its armed task when everything before it has ended and no marker is out. (09_memory_model.md R186, 10_isa_memory.md R193,
10_isa_memory.md R203, 10_isa_memory.md R204, 10_isa_memory.md R205, 10_isa_memory.md R196, 09_memory_model.md R187, 12_isa_async.md R254) -/
def Obligations.MemoryPerforms : Prop :=
  (∀ (s : State) (n j : Nat) (o : Op) (e : Elem), s.engsAt n = none → s.opsAt n = some o → o.elems[j]? = some e → e.done = false → o.read = true →
    e.key < 2 ^ 80 → s.afterOk o = true → (o.rel = true → o.released = true) → s.granuleFree n o e.key = true →
    s.reserved o.who (n :: o.after) e.key e.n true = false → s.followedBy o.who = false → s.lineBad e.key e.n = false → (∀ d p, o.who ≠ .pipe d p) →
    let old := s.load e.key e.n
    let writes := fun (t : State) (v : Option Nat) =>
      (∀ a, v = none ∨ a < e.key ∨ e.key + e.n ≤ a → t.memAt a = s.memAt a) ∧ (∀ x, v = some x → t.load e.key e.n = x % 2 ^ (8 * e.n)) ∧
      (v = none → t.integ = s.integ) ∧ (0 < e.n → v ≠ none → t.integ = s.raises e.key e.n)
    let ends := fun (t : State) (e' : Elem) => ∀ i, t.opsAt i =
      if i = n then (let o' := { o with elems := setAt o.elems j e' }
        let waits := (match o.kind with
          | .arrive _ => s.heldFor n o'
          | _ => false)
        if o.outs.isEmpty && o'.elems.all (·.done) && o.slot == 0 && !waits then none else some o')
      else s.opsAt i
    (o.kind = .store → e.got = true → ∃ t, exec (.writePerform n j) s = .next t ∧ writes t (some e.val) ∧ ends t { e with done := true } ∧
      { t with mem := s.mem, integ := s.integ, ops := s.ops } = s) ∧
    (∀ (ty : WTy) (op : AtomOp), o.kind = .rmw ty op →
      let N := wtyBits ty
      let x := inBits N (wtySigned ty) old
      let y := inBits N (wtySigned ty) e.val
      let new := match op with
        | .add => (old + e.val) % 2 ^ N
        | .min => if x ≤ y then old else e.val
        | .max => if y ≤ x then old else e.val
        | .and => old &&& e.val
        | .or => old ||| e.val
        | .xor => old ^^^ e.val
        | .exch => e.val
      ∃ t, exec (.rmwPerform n j) s = .next t ∧ writes t (some new) ∧ ends t { e with got := true, done := true, val := old } ∧
        { t with mem := s.mem, integ := s.integ, ops := s.ops } = s) ∧
    (o.kind = .cas → ∃ t, exec (.rmwPerform n j) s = .next t ∧ writes t (if old = e.cmp then some e.val else none) ∧
      ends t { e with got := true, done := true, val := old } ∧ { t with mem := s.mem, integ := s.integ, ops := s.ops } = s) ∧
    (∀ (ty : AFmt) (op : AtomFOp) (rm : Nat), o.kind = .rmwf ty op rm →
      let r := match op with
        | .add => fpAdd (aFmt ty) (drmOf (BitVec.ofNat 64 rm)) old e.val
        | .min => fpMinMax (aFmt ty) false old e.val
        | .max => fpMinMax (aFmt ty) true old e.val
      ∃ t g', exec (.rmwPerform n j) s = .next t ∧ writes t (some r.1) ∧ ends t { e with got := true, done := true, val := old } ∧
        Others { s with mem := t.mem, integ := t.integ, ops := t.ops } t o.who g' ∧ { g' with flags := (s.grp o.who).flags } = s.grp o.who ∧
        ∀ b, g'.flags.getLsbD b = true ↔ (s.grp o.who).flags.getLsbD b = true ∨ bit r.2 b = true) ∧
    (∀ mode, o.kind = .arrive mode → e.n = 8 →
      let f := fun (hi lo : Nat) => old / 2 ^ lo % 2 ^ (hi + 1 - lo)
      let exp_ := f 61 46
      let arr := f 45 30
      let d := (BitVec.ofNat 16 (f 29 14)).toInt + (match mode with
        | .arrive => 0
        | .drop => -1
        | .join => 1)
      let ok := f 13 0 = 0 ∧ arr < exp_ ∧ f 62 62 = 0 ∧ -32768 ≤ d ∧ d ≤ 32767
      let flips := arr + 1 = exp_
      ∃ t, exec (.rmwPerform n j) s = .next t ∧ { t with mem := s.mem, integ := s.integ, ops := s.ops } = s ∧
        (ok → ¬ flips → writes t (some (f 63 63 * 2 ^ 63 + exp_ * 2 ^ 46 + (arr + 1) * 2 ^ 30 + (BitVec.ofInt 16 d).toNat * 2 ^ 14)) ∧
          ends t { e with got := true, done := true, val := f 63 63, cmp := 0 }) ∧
        (ok → flips → 1 ≤ (exp_ : Int) + d → (exp_ : Int) + d ≤ 65535 →
          writes t (some ((1 - f 63 63) * 2 ^ 63 + ((exp_ : Int) + d).toNat * 2 ^ 46)) ∧ ends t { e with got := true, done := true, val := f 63 63, cmp := 0 }) ∧
        (¬ ok ∨ (flips ∧ ¬ (1 ≤ (exp_ : Int) + d ∧ (exp_ : Int) + d ≤ 65535)) →
          writes t none ∧ ends t { e with got := true, done := true, val := f 63 63, cmp := 1 }))) ∧
  (∀ (s : State) (n : Nat) (o : Op), s.opsAt n = some o → s.afterOk o = true → (s.grp o.who).peersW = [] → s.markersOut n = false → o.marked = false → s.followHeld o = false →
    (∀ ord, o.kind = .fence ord → ∃ t, exec (.releasePerform n) s = .next t ∧ (∀ j, t.opsAt j = if j = n then none else s.opsAt j) ∧ { t with ops := s.ops } = s) ∧
    (o.kind = .store → o.rel = true → o.released = false → ∃ t, exec (.releasePerform n) s = .next t ∧
      (∀ j, t.opsAt j = if j = n then some { o with released := true } else s.opsAt j) ∧ { t with ops := s.ops } = s) ∧
    (∀ k i die task vf asid, o.kind = .signal die task vf asid → o.who = .grp k i →
      let tk := die * 4096 + task
      let x := s.tasksAt tk
      ∃ t, exec (.releasePerform n) s = .next t ∧ (∀ j, t.opsAt j = if j = n then none else s.opsAt j) ∧
        (∀ j, t.groupsAt j = if j = k then (s.groupsAt k).decSlot o.heirs o.slot else s.groupsAt j) ∧
        { t with ops := s.ops, groups := s.groups, tasks := s.tasks, dispatched := s.dispatched } = s ∧
        (x.tst ≠ 1 ∨ x.vf ≠ vf → t.tasks = s.tasks ∧ t.dispatched = s.dispatched) ∧
        (x.tst = 1 → x.vf = vf → 1 < x.cnt → t.dispatched = s.dispatched ∧ ∀ j, t.tasksAt j = if j = tk then { x with cnt := x.cnt - 1 } else s.tasksAt j) ∧
        (x.tst = 1 → x.vf = vf → x.cnt ≤ 1 →
          (∀ j, t.tasksAt j = if j = tk then { x with tst := 2, cnt := 0 } else s.tasksAt j) ∧
          ∃ r, t.dispatched = s.dispatched ++ [r] ∧ r.addr = x.lrec ∧ r.vf = x.vf ∧ r.asid = x.asid ∧ r.task = some (die, task))))

/-- O44. For every held fragment of a group: BARV issues when every arrival has returned and gives each lane its old phase; BWAIT reads the words of some
lanes, in an order that is free, and issues when no lane is left whose word has not been read with the phase changed; BTEST reads each lane's word
once, in an order that is free, and issues with the predicate whether the phase has changed once all have been read; BWAITA issues when its batch has
completed and WAITC when its operations have reported without a failure. A fill that returns enters the RTB, or leaves its fault with the probe that
waits for it, and a probe that waits for nothing is taken again. A fragment that holds a path slot for 65 cycles without an issue, or after 256
issues, gives it to the oldest waiting fragment, and two that reach a limit in one cycle give theirs to the two oldest, the lower slot to the older. A
debug stop keeps a hold. That BARV, BWAIT and BTEST read in the order given and that BWAIT, BWAITA and WAITC release their slot in the cycle after
they issue are the model's choices (logs 29, 32 and 8). (10_isa_memory.md R208, 10_isa_memory.md R209, 10_isa_memory.md R210, 12_isa_async.md R252,
12_isa_async.md R253, 05_parallel_execution.md R132, 08_memory_spaces.md R171, 08_memory_spaces.md R172) -/
def Obligations.HoldsEnd : Prop :=
  (∀ (s : State) (k i : Nat), (s.groupsAt k).live = true →
    let g := s.groupsAt k
    let w := Issuer.grp k i
    s.keeps w = false →
    let hold := (g.frag i).hold
    let inside := fun (r : MemReq) => r.lanes ≠ [] ∧ ∀ q ∈ r.lanes, q.lane < 16 ∧ bit (g.frag i).mask q.lane = true
    let lanes := fun (r : MemReq) => maskWhere fun l => r.lanes.any fun q => q.lane == l
    let word := fun (q : LaneReq) => s.load q.addr2 8
    let good := fun (x : Nat) => x % 2 ^ 14 = 0 ∧ x / 2 ^ 30 % 2 ^ 16 < x / 2 ^ 46 % 2 ^ 16
    let drawn := { s with fresh := s.fresh + 1 }
    let skips := fun (l : Nat) => bit (Config.freeNat s.fresh % 65536) l
    (∀ id r o mode d (phase : Nat → Nat), hold = .barv id r → s.opsAt id = some o → r.acc = .barv mode d → inside r →
      (∀ e ∈ o.elems, e.done = true ∧ e.cmp ≠ 1 ∧ e.val = phase e.idx) → (∀ q ∈ r.lanes, ∃ e ∈ o.elems, e.idx = g.entOf q.lane) →
      Begins { s with ops := Tab.put (fun _ => none) s.ops id none } (exec (.barvReturn w) s) w g i 16 r.hdr true true fun op =>
        op.kind = .result ∧ LandsV (lanes r) 32 d (fun l => (phase (g.entOf l) : Int)) noFlags op.outs) ∧
    (∀ r, hold = .bwait r → inside r → (∀ q ∈ r.lanes, s.barReadOk w q = true ∧ s.barLost w q = false ∧ good (word q)) →
      let left := r.lanes.filter fun q => skips q.lane || word q / 2 ^ 63 % 2 == q.x
      (left = [] → Completes drawn (exec (.bwaitComplete w) s) w g i 16 2 r.hdr true fun l => l = []) ∧
      (left ≠ [] → Holds drawn (exec (.bwaitComplete w) s) w g i (.bwait { r with lanes := left }))) ∧
    (∀ r d, hold = .btest r → r.acc = .btest d → inside r →
      let took := fun (q : LaneReq) => decide (2 ^ 64 ≤ q.y)
      let value := fun (q : LaneReq) => if took q then q.y % 2 ^ 64 else word q
      (∀ q ∈ r.lanes, (took q = false → s.barReadOk w q = true ∧ s.barLost w q = false) ∧ good (value q)) →
      ((∀ q ∈ r.lanes, took q = true ∨ skips q.lane = false) →
        ∃ P, (∀ q ∈ r.lanes, (∀ p ∈ r.lanes, p.lane = q.lane → p = q) → P q.lane = decide (value q / 2 ^ 63 % 2 ≠ q.x)) ∧
          Begins drawn (exec (.btestReturn w) s) w g i 16 r.hdr true true fun op => op.kind = .result ∧
            ((r.lanes.map (·.lane)).Nodup → LandsP (lanes r) d P noFlags op.outs)) ∧
      ((∃ q ∈ r.lanes, took q = false ∧ skips q.lane = true) →
        Holds drawn (exec (.btestReturn w) s) w g i
          (.btest { r with lanes := r.lanes.map fun q => if took q || skips q.lane then q else { q with y := 2 ^ 64 + word q } }))) ∧
    (∀ h c b act, hold = .bwaita h c b act → (s.ctxsAt c).completed b = true →
      Completes s (exec (.bwaitaComplete w) s) w g i 8 2 h true fun l => l = []) ∧
    (∀ h cls limit act, hold = .waitc h cls limit act → limit ≤ Tab.get (fun _ => 0) g.engNum (eclassNum cls) - g.engCount (eclassNum cls) →
      g.handler.isSome = true ∨ (∀ e, e < 16 → (g.fail e).cause = 0) →
      Completes s (exec (.waitcComplete w) s) w g i 12 2 h true fun l => l = []) ∧
    (∀ u rest, g.waiting = u :: rest → i ∉ g.waiting → g.freeSlots = [] → g.rpl = false → g.stop.stopped = false → ((g.frag i).slot = 1 ∨ (g.frag i).slot = 2) →
      (∀ e, e ≠ i → (g.frag e).slot ≠ (g.frag i).slot) → (g.frag i).fst = .live → i < 16 → u < 16 → (g.frag u).fst = .live → (g.frag u).slot = 0 →
      (∀ e, e < 16 → e ≠ i → (g.frag e).slot ≠ 0 → (g.frag e).iss < 256 ∧ ∀ c, (g.frag e).holdSince = some c → s.cycle < c + 65) →
      ∀ o, (o = exec (.pathSlotHoldLimit k i) s ∧ ∃ c, (g.frag i).holdSince = some c ∧ c + 65 ≤ s.cycle) ∨
          (o = exec (.pathSlotIssueLimit k i) s ∧ 256 ≤ (g.frag i).iss) →
        ∃ t g', o = .next t ∧ Others s t w g' ∧ (g'.frag u).slot = (g.frag i).slot ∧ (g'.frag u).iss = 0 ∧ (g'.frag i).slot = 0 ∧ g'.waiting = rest ++ [i] ∧
          (g'.frag i).pc = (g.frag i).pc ∧ (g'.frag i).hold = hold ∧ { g' with frags := g.frags, waiting := g.waiting } = g) ∧
    (∀ j u v rest, g.waiting = u :: v :: rest → i < j → j < 16 → i ∉ g.waiting → j ∉ g.waiting → u ≠ v → u < 16 → v < 16 → g.rpl = false → g.stop.stopped = false →
      (g.frag u).slot = 0 → (g.frag v).slot = 0 → (g.frag u).fst = .live → (g.frag v).fst = .live → (∀ e, e ≠ i → e ≠ j → (g.frag e).slot ≠ 1 ∧ (g.frag e).slot ≠ 2) →
      (∀ e, e = i ∨ e = j → (g.frag e).fst = .live ∧ 256 ≤ (g.frag e).iss) →
      ((g.frag i).slot = 1 ∧ (g.frag j).slot = 2) ∨ ((g.frag i).slot = 2 ∧ (g.frag j).slot = 1) →
      (∀ e, e < 16 → (g.frag e).slot = 0 ∨ e = i ∨ e = j) →
      ∃ t g', exec (.pathSlotIssueLimit k i) s = .next t ∧ Others s t w g' ∧ (g'.frag u).slot = 1 ∧ (g'.frag v).slot = 2 ∧ (g'.frag i).slot = 0 ∧ (g'.frag j).slot = 0 ∧
        g'.waiting = rest ++ [i, j] ∧ { g' with frags := g.frags, waiting := g.waiting } = g)) ∧
  (∀ (s : State) (core : Nat) (w : Issuer) (r : MemReq) (m : Miss), s.probers core = [(w, r)] → r.missing = [m] →
    (s.coresAt core).rtb.length < 64 → s.rtbFind core m.vf m.asid m.addr = none → (∀ q, s.fillHeld m.vf m.asid m.addr q = false) →
    ∃ u, exec (.translationFill core m.vf m.asid m.page) s = .next u ∧ u.mem = s.mem ∧ u.ops = s.ops ∧ u.fns = s.fns ∧
      (let answers := fun (r' : MemReq) => ∀ k i, w = .grp k i → u.groupsAt k = (s.groupsAt k).setFrag i { (s.groupsAt k).frag i with hold := .probe r' }
       (∀ e walked, (∀ q, s.fill m.vf m.asid m.key m.addr m.need q = .ok e walked) → answers { r with missing := [] } ∧
         ∀ c, u.coresAt c = if c = core then { s.coresAt core with rtb := (s.coresAt core).rtb ++ [e] } else s.coresAt c) ∧
       (∀ cause, (∀ q, s.fill m.vf m.asid m.key m.addr m.need q = .bad cause) → u.cores = s.cores ∧
         answers { r with missing := [], faults := r.faults ++ [{ vf := m.vf, asid := m.asid, addr := m.addr, need := m.need, cause := cause }] }))) ∧
  (∀ (s : State) (w : Issuer) (rest : List Item) (r : MemReq), s.agenda = .resume w :: rest → ((s.grp w).frag (fragOf w)).hold = .probe r →
    let u := { s with agenda := rest }
    (r.missing ≠ [] → step s = .next u) ∧
    (r.missing = [] → r.op = none → u.keeps w = false → step s = .next (runAll u ((Ex.held u w r.hdr 16 false).probe r u))))

/-- O45. A visit goes to the first queue in round-robin order (the order of the queues is the model's choice, log 48) that has work, and the next begins
after it. The next workgroup of that queue's oldest launch goes to the first core, in search order after the last one used (the first search begins
where log 6 has it), that has room: it takes its number, its group slots, its scratch segment, its accumulator rows and its private block, and waits
for its admission; where it is merge-eligible the lanes left are filled from the queues in order, a workgroup that matches and fits being placed in
the same group. The next wave of a deterministic launch, the oldest of its queue, is the greatest number of workgroups that its RCB's effective
budgets admit on an empty device (that the device counts at its full size and alone is the model's reading, log 49), and is placed together once
nothing of the wave before remains and all of it fits. A place found lies on a usable core in free slots, and meets no other segment.
(05_parallel_execution.md R118, 05_parallel_execution.md R119, 05_parallel_execution.md R121, 05_parallel_execution.md R122, 05_parallel_execution.md
R137) -/
def Obligations.MarketPlaces : Prop :=
  let finds := fun (u : State) (l : Launch) (ctx core : Nat) (p : Spot) => ∃ m, m < 2048 ∧ core = (u.mktCore + 1 + m) % 2048 ∧
    u.spot l ctx core none = some p ∧ ∀ j, j < m → u.spot l ctx ((u.mktCore + 1 + j) % 2048) none = none
  let places := fun (u : State) (id : Nat) (l : Launch) (core : Nat) (p : Spot) (first ent : Nat) (merged : Bool) =>
    let r := l.request
    let n := u.nextId
    let c := u.coresAt core
    let w : Wg := { launch := id, num := l.next, core := core, origin := core, lanes := r.lanes, slots := r.slots, groups := p.groups, left := r.lanes, seg := p.seg, acr := r.acr, accBase := p.acc, blk := p.blk, age := n, saved := false, saving := false, area := 0, pool := l.pool, ended := false, wr := [] }
    [Effect.wgs n (some w), .nextId (n + 1), .launches id (some { l with next := l.next + 1 }),
     .cores core { c with segs := if r.csb = 0 then c.segs else c.segs ++ [{ base := p.seg, len := r.csb, wg := n, dead := false }], accs := if r.acr = 0 then c.accs else c.accs ++ [{ base := p.acc, len := r.acr, wg := n, dead := false }] },
     .admits (u.admits ++ [{ launch := id, wg := n, core := core, slot := p.groups.headD 0, first := first, merged := merged, ent := ent }])]
  (∀ (s : State) (pos id core : Nat) (l : Launch) (p : Spot) (rest : List Nat) (more : List (Nat × Launch)), s.pendingQueues s.mktNext = pos :: rest →
    let u := { s with fresh := s.fresh + 1, mktNext := (pos + 1) % 1344 }
    u.placing pos = (id, l) :: more → recDet l.rec_ = false → (∀ q, finds u l (u.launchCtx l q) core p) →
    let v := runAll u (places u id l core p 0 0 l.elig ++ [.mktCore core])
    ∃ q, exec .marketVisit s = .next (if l.elig then runAll v (Prog.each (fun i => Prog.on fun w => Prog.fillFrom l core (p.groups.headD 0) q i (32 + w.backlog i)) (v.pendingQueues pos) v) else v)) ∧
  (∀ (s : State) (seed l : Launch) (core k q pos n id : Nat) (more : List (Nat × Launch)), s.placing pos = (id, l) :: more →
    let used := ((s.admits.filter fun a => a.slot == k).map fun a => match s.wgsAt a.wg with
      | some w => w.lanes
      | none => 0).sum
    (s.matches_ seed l = false ∨ 16 < used + recLanes l.rec_ → Prog.fillFrom seed core k q pos (n + 1) s = []) ∧
    (∀ p, s.matches_ seed l = true → used + recLanes l.rec_ ≤ 16 → s.spot l (s.launchCtx l q) core (some k) = some p →
      let v := runAll s (places s id l core p used (s.admits.filter fun a => a.slot == k).length true)
      runAll s (Prog.fillFrom seed core k q pos (n + 1) s) = runAll v (Prog.fillFrom seed core k q pos n v))) ∧
  (∀ (s : State) (id ctx size : Nat) (l : Launch), s.launchesAt id = some l → recDet l.rec_ = true → l.retired = false → (s.placing (queuePos l.origin l.vf)).head?.map (·.1) = some id →
    l.next < recNwg l.rec_ → (∀ p ∈ s.wgs, ∀ w, p.2 = some w → w.launch ≠ id) → (∀ p ∈ s.groups, p.2.live = true → p.2.wave ≠ some id) →
    let u := { s with fresh := s.fresh + 1 }
    (∀ q, u.launchCtx l q = ctx) → size = min (recNwg l.rec_ - l.next) (u.waveSize l) → size ≠ 0 →
    exec (.waveStart id) s = .next (if (u.placeMany id ctx size).2 = size then (u.placeMany id ctx size).1 else u)) ∧
  (∀ (s : State) (l : Launch) (n : Nat), recLanes l.rec_ ≠ 0 →
    let r := l.request
    let b := s.rcbs l.chain
    (n ≤ s.waveSize l ↔ n * r.slots ≤ effective 1 319 288 b ∧ n * r.rfb ≤ effective 2 383 352 b ∧ n * r.csb ≤ effective 3 351 320 b ∧
      n * r.acr ≤ effective 4 287 256 b ∧ ∃ m, m * r.groups ≤ 256 ∧ m * (64 * recRegs l.rec_ * r.groups) ≤ 524288 ∧ m * r.csb ≤ 262144 ∧ m * r.acr ≤ 1024 ∧
        n ≤ min 2048 (effective 0 255 240 b) * m)) ∧
  (∀ (s : State) (pos id : Nat) (l : Launch) (t : List (Nat × Launch)), s.waiting pos = (id, l) :: t →
    s.placing pos = if s.sliceHeld l ∨ s.waitsSaved id then [] else (id, l) :: t) ∧
  (∀ (s : State) (id ctx n core : Nat) (l : Launch) (p : Spot), s.launchesAt id = some l → finds s l ctx core p →
    let v := runAll s (places s id l core p 0 0 false ++ [.mktCore core])
    s.placeMany id ctx (n + 1) = ((v.placeMany id ctx n).1, (v.placeMany id ctx n).2 + 1)) ∧
  (∀ (s : State) (l : Launch) (ctx core : Nat) (p : Spot), s.spot l ctx core none = some p →
    (s.coresAt core).fenced = false ∧ bit (s.coreMask core) l.vf = true ∧ s.budgetsOk l core = true ∧
    s.regBytes core + 64 * recRegs l.rec_ * l.request.groups ≤ 524288 ∧
    p.groups = (s.freeGroups core).take l.request.groups ∧ p.groups.length = l.request.groups ∧
    (∀ k ∈ p.groups, k / 256 = core ∧ (s.groupsAt k).live = false) ∧
    p.seg + l.request.csb ≤ 262144 ∧ p.acc + l.request.acr ≤ 1024 ∧
    (∀ g ∈ (s.coresAt core).segs, g.len = 0 ∨ p.seg + l.request.csb ≤ g.base ∨ g.base + g.len ≤ p.seg) ∧
    (∀ g ∈ (s.coresAt core).accs, g.len = 0 ∨ p.acc + l.request.acr ≤ g.base ∨ g.base + g.len ≤ p.acc))

/-- O46. When the reads of a workgroup of one group return, with a copy of its code at hand, it has a private block of its owner where the owner has any,
enters the owner table and, with no other workgroup awaited, its group starts: the lanes hold the arguments, workgroup number and index of R125, every
other register is 0 but s1 and s2, and one fragment of all the lanes is live at ENTRY. An event tells of it. When all lanes and operations of a
workgroup have ended its rows and block are free, its segment too unless an engine operation enters it, and DONEWG counts it. A group whose fragments
and operations have ended frees its slot. A launch whose workgroups have all completed ends: its RCB becomes idle, a queue's completion waits for its
status entry, and a task becomes free. (05_parallel_execution.md R123, 05_parallel_execution.md R125, 05_parallel_execution.md R118,
05_parallel_execution.md R136, 04_isa_core.md R112, 12_isa_async.md R242, 14_event_filter_coprocessor.md R260) -/
def Obligations.WorkRunsAndEnds : Prop :=
  (∀ (s : State) (unit : Nat) (a : Admit) (w : Wg) (l : Launch) (k n ctx : Nat) (blk : Option Nat), s.admits.filter (fun b => b.wg == unit) = [a] → s.wgsAt unit = some w →
    w.saved = false → (∀ b ∈ s.admits, b.launch = a.launch → ∀ v, s.wgsAt b.wg = some v → v.saved = true ∨ w.num ≤ v.num) → s.launchesAt a.launch = some l →
    w.launch = a.launch → (∀ q, s.launchCtx l q = ctx) → contextOk ctx = true → s.pinned (a.core / 4) (s.codesAt l.code) = some n →
    w.groups = [k] → (s.groupsAt k).owners = [] → (s.groupsAt k).live = false → a.ent = 0 → a.first = 0 → w.lanes ≤ 16 → w.lanes ≠ 0 →
    (∀ b ∈ s.admits, b.wg ≠ unit → ∀ v, s.wgsAt b.wg = some v → k ∉ v.groups) → (s.tracesAt (k / 256)).gsl ≠ k % 256 →
    (if w.blk.isSome = true then blk = w.blk else s.freeBlock l ctx = some blk) → s.sliceHeld l = false → s.waitsSaved a.launch = false → (∀ b ∈ s.admits, b.launch = a.launch → (∀ q, s.admitHeld q b = false) ∧ (recDet l.rec_ = true → b.wg = unit)) →
    let m := 2 ^ w.lanes - 1
    let args := recArgs l.rec_
    ∃ t wr, exec (.admission unit) s = .next t ∧ (recDet l.rec_ = false → wr = []) ∧
      (∀ j, t.wgsAt j = if j = unit then some { w with wr := wr, age := s.nextId, blk := blk } else s.wgsAt j) ∧
      t.admits = s.admits.filter (fun b => b.wg != unit) ∧
      (∀ j, j ≠ k → t.groupsAt j = s.groupsAt j) ∧
      (let g := t.groupsAt k
       g.live = true ∧ g.order = s.nextId + 1 ∧ g.code = n ∧ g.regs = recRegs l.rec_ ∧ g.pres = m ∧ g.flags = 0 ∧ g.fpctl = 0 ∧ g.check = 0 ∧ g.p = [] ∧ g.q = [] ∧
       g.status = BitVec.ofNat 64 ((if recDet l.rec_ then 1 else 0) + if (s.codesAt n).msafe then 2 else 0) ∧
       (∀ r x, x < 16 → g.readV r x = if bit m x = false then 0 else
         match r with
         | 0 => BitVec.ofNat 32 args
         | 1 => BitVec.ofNat 32 (args / 2 ^ 32)
         | 2 => BitVec.ofNat 32 w.num
         | 3 => BitVec.ofNat 32 x
         | _ => 0) ∧
       (∀ r, g.readS r = match r with
         | 1 => BitVec.ofNat 64 args
         | 2 => if w.acr = 0 then 0 else BitVec.ofNat 64 w.accBase
         | _ => 0) ∧
       g.owner 0 = { valid := true, cls := 0, vf := l.vf, asid := l.asid, awn := l.awn, prio := l.prio, key := bits ctx 280 271, sbase := w.seg / 64, slen := recScr l.rec_, wg := w.num, id := unit, lanes := m, base := 0, ctx := ctx, chain := l.chain } ∧
       (∀ e, e ≠ 0 → (g.owner e).valid = false ∧ (g.frag e).fst = .free) ∧ g.knots = [] ∧ g.pend = [] ∧
       (g.frag 0).fst = .live ∧ (g.frag 0).mask = m ∧ (g.frag 0).pc = recEntry l.rec_ / 4 * 4 ∧ (g.frag 0).slot = 1) ∧
      Sends s { t with groups := s.groups, wgs := s.wgs, admits := s.admits, fresh := s.fresh, nextId := s.nextId } (a.core / 512)
        (eventWord s 2 (a.core % 512) l.vf l.asid 0 w.lanes w.num)) ∧
  (∀ (s : State) (wg : Nat) (w : Wg) (l : Launch) (a : Nat) (up : List Nat), s.wgsAt wg = some w → w.saved = false → w.saving = false → w.ended = false →
    (∀ b ∈ s.admits, b.wg ≠ wg) → s.wgHasLanes wg w = false → s.wgBusy wg = false → s.launchesAt w.launch = some l → (s.fnsAt l.vf).fnReset = 0 → (s.fnsAt l.vf).tdis ≠ 3 →
    (∀ p ∈ s.saved, ∀ u, p.2 = some u → wg ∉ u.wgs) → l.chain = a :: up →
    let c := s.coresAt w.core
    ∃ t, exec (.workgroupEnd wg) s = .next t ∧ (∀ j, t.wgsAt j = if j = wg then none else s.wgsAt j) ∧
      (∀ j, t.coresAt j = if j = w.core then { c with segs := (c.segs.map fun g => if g.wg == wg then { g with dead := true } else g).filter fun g => !(g.dead && !s.inbound w.core g), accs := c.accs.filter fun g => g.wg != wg }
        else s.coresAt j) ∧
      (∀ j, t.launchesAt j = if j = w.launch then some { l with done := l.done + 1 } else s.launchesAt j) ∧
      t.load (a + 68) 4 = (l.done + 1) % 2 ^ 32 ∧ (∀ x, x < a + 68 ∨ a + 72 ≤ x → t.memAt x = s.memAt x) ∧
      Sends s { t with wgs := s.wgs, cores := s.cores, launches := s.launches, mem := s.mem, integ := s.integ } (w.core / 512)
        (eventWord s 2 (w.core % 512) l.vf l.asid 1 w.lanes w.num)) ∧
  (∀ (s : State) (k : Nat), let g := s.groupsAt k
    g.live = true → g.handler = none → (∀ i, i < 16 → (g.frag i).fst = .free) → g.pend = [] → s.agentOps (.grp k 0) = [] →
    (∀ p ∈ s.engs, ∀ e, p.2 = some e → e.grp ≠ k) → (∀ p ∈ g.owners, (s.fnsAt p.2.vf).fnReset = 0 ∧ (s.fnsAt p.2.vf).tdis ≠ 3) →
    Does s (exec (.groupEnd k) s) (.groups k Group.empty :: Prog.leaveSlot k s) []) ∧
  (∀ (s : State) (n a : Nat) (l : Launch) (up : List Nat), s.launchesAt n = some l → (∀ p ∈ s.wgs, ∀ w, p.2 = some w → w.launch ≠ n) →
    l.retired = false → recNwg l.rec_ ≤ l.done → l.chain = a :: up → recTask l.rec_ = none →
    let idle := [Effect.mem (a + 4) (BitVec.ofNat 8 (s.load (a + 4) 1 % 64)), Effect.raise (a + 4) 1]
    (∀ fn q idx, l.origin = .queue fn q idx → Does s (exec (.launchComplete n) s) ([.launches n none] ++ idle ++ [
      .fns fn { s.fnsAt fn with statWait := (s.fnsAt fn).statWait ++ [idx % 2 ^ 32 + q % 16 * 2 ^ 44 + 2 * 2 ^ 56 + recLrcb l.rec_ % 2 ^ 64 * 2 ^ 64] }]) []) ∧
    (∀ die t, l.origin = .task die t → Does s (exec (.launchComplete n) s) ([.launches n none, .tasks (die * 4096 + t) { s.tasksAt (die * 4096 + t) with tst := 0 }] ++ idle) []))

/-- O47. The copy engine of a cluster takes the oldest operation of the next core in turn, while fewer than eight are in progress. A piece of a copy is
read from its source and written to its destination. A copy with every piece done completes: its barrier word gains the bytes delivered in units of
64, its counter falls by 1, its range-scoreboard entry goes and an event tells of it. A feeder appends one row of 128 grid values, the nearest to the
value (of Q4 and Q8 the code's under its block's scale) times 2 to the 20 minus ANC with ties to even and clamped, a NaN as 0 and an infinity as the
limit, an illegal Q8 block as zeros with a FORMAT_LATCH failure, and completes with its last row; INX and SAT go to its group. A drain engine writes
the row's 128 entries, each the entry times its column scale rounded once (to E4M3 saturating), with the zeros, NaNs and infinities of R46, or +0
where the row is not valid, and completes once every row is written. A WLOAD whose image passes its checks writes the lines still missing, sets V of
its slot unless a later WLOAD bars it, and completes; one that fails them leaves the slot and its entry keeps FORMAT_LATCH. Flags that come while a
handler runs reach FLAGS, which the handler reads, and the victim's (the model's reading, log 25). (11_ternary_array.md R234, 11_ternary_array.md
R235, 11_ternary_array.md R236, 12_isa_async.md R240, 12_isa_async.md R246, 12_isa_async.md R247, 10_isa_memory.md R197, 10_isa_memory.md R194,
02_number_formats.md R42, 02_number_formats.md R46) -/
def Obligations.EnginesFinish : Prop :=
  let alone := fun (u : State) (id : Nat) (e : EngOp) => Tab.wf (fun _ => none) u.engs = true ∧ u.engsAt id = some e ∧
    (∀ p ∈ u.engs, ∀ d, p.2 = some d → d.grp = e.grp → d.cls = e.cls → p.1 = id) ∧ e.fail = none ∧ e.task = none ∧ e.done = false
  let ends := fun (u t : State) (id : Nat) (e : EngOp) =>
    (∀ j, t.engsAt j = if j = id then none else u.engsAt j) ∧
    (∀ k, k ≠ e.grp → t.groupsAt k = u.groupsAt k) ∧ { t.groupsAt e.grp with eng := (u.groupsAt e.grp).eng } = u.groupsAt e.grp ∧
    (∀ c, (t.groupsAt e.grp).engCount c = (u.groupsAt e.grp).engCount c - if c = eclassNum e.cls then 1 else 0) ∧
    (∀ c, t.coresAt c = if c = e.core then { u.coresAt c with ranges := (u.coresAt c).ranges.filter fun r => r.op != id, segs := (u.coresAt c).segs.filter fun g => !(g.dead && !t.inbound c g) } else u.coresAt c) ∧
    Sends u { t with engs := u.engs, groups := u.groups, cores := u.cores, mem := u.mem, integ := u.integ } (e.core / 512)
      (eventWord u 5 (e.core / 4 % 128) e.owner.vf e.owner.asid (eclassNum e.cls) (min ((u.cycle - e.since) / 64) 65535) e.bytes)
  let open_ := fun (s : State) (e : EngOp) (key n : Nat) (write : Bool) => isPeer key = false ∧ s.pairDown e.die key = false ∧
    s.pathClear e.die key = true ∧ s.reserved e.who e.after key n write = false
  let flagged := fun (s u : State) (e : EngOp) (fl : Nat) => let g := s.groupsAt e.grp
    (∀ k, k ≠ e.grp ∨ g.live = false → u.groupsAt k = s.groupsAt k) ∧
    (g.live = true → { u.groupsAt e.grp with flags := g.flags, handler := g.handler } = g ∧
      (∀ b, (u.groupsAt e.grp).flags.getLsbD b = true ↔ g.flags.getLsbD b = true ∨ bit fl b = true) ∧
      (g.handler = none → (u.groupsAt e.grp).handler = none) ∧
      ∀ h, g.handler = some h → ∃ h', (u.groupsAt e.grp).handler = some h' ∧ { h' with vflags := h.vflags, guest := h.guest } = h ∧
        h'.vflags = (if e.hnd then h.vflags else h.vflags ||| (BitVec.ofNat 64 fl &&& flagsW1c)))
  let near := fun (V D g : Int) (fl : Nat) => ∃ N : Int, 2 * |V - N * D| ≤ D ∧ (2 * |V - N * D| = D → N % 2 = 0) ∧ g = max (-8388607) (min 8388607 N) ∧
    (N * D ≠ V → bit fl 8 = true) ∧ (8388607 < |N| → bit fl 9 = true)
  (∀ (s : State) (cl core id : Nat) (e : EngOp) (rest : List Nat), s.copyPick cl = some core → (s.coresAt core).copyQ = id :: rest → s.engsAt id = some e →
    (∀ i ∈ e.after, s.opsAt i = none) → s.copiesTaken cl < 8 → e.cls ≠ .wld → (∀ a sl m b, e.kind ≠ .wload a sl m b) →
    Does s (exec (.copyStart cl) s) [.fresh (s.fresh + 1), .cores core { s.coresAt core with copyQ := rest }, .copyTurn cl ((core % 4 + 1) % 4),
      .nextId (s.nextId + 1), .engs id (some { e with taken := true, turn := s.nextId })] []) ∧
  (∀ (s : State) (cl core : Nat), s.copyPick cl = some core ↔ ∃ i, i < 4 ∧ core = 4 * cl + (s.copyTurnAt cl + i) % 4 ∧ (s.coresAt core).copyQ ≠ [] ∧
    ∀ j, j < i → (s.coresAt (4 * cl + (s.copyTurnAt cl + j) % 4)).copyQ = []) ∧
  (∀ (s : State) (id k key : Nat) (e : EngOp), s.engsAt id = some e → (∃ a r c, e.kind = .tcopy a r c) ∨ (∃ d a i z c, e.kind = .gath d a i z c) → e.taken = true →
    e.done = false → e.fail = none → k < e.kind.pieces → k ∉ e.early →
    let reads := fun (x a n : Nat) => (∀ q, s.engAt e a n 1 q = .at key) → open_ s e key n false → s.lineBad key n = false →
      Does s (exec (.writePerform id k) s) [.fresh (s.fresh + 1), .engs id (some { e with reads := Tab.put (fun _ => 0) e.reads x (s.load key n + 1) })] []
    (∀ x a, e.piece k = .index x a → reads x a 4) ∧
    (∀ src dst n, e.piece k = .move src dst n → Tab.get (fun _ => 0) e.reads k = 0 → reads k src n) ∧
    (∀ src dst n v, e.piece k = .move src dst n → Tab.get (fun _ => 0) e.reads k = v + 1 → (∀ q, s.engAt e dst n 2 q = .at key) → open_ s e key n true →
      ∃ t, exec (.writePerform id k) s = .next t ∧ t.load key n = v % 2 ^ (8 * n) ∧ (∀ a, a < key ∨ key + n ≤ a → t.memAt a = s.memAt a) ∧
        (∀ j, t.engsAt j = if j = id then some { e with early := e.early ++ [k], reads := Tab.put (fun _ => 0) e.reads k 0, bytes := e.bytes + n } else s.engsAt j) ∧
        (∀ c, t.coresAt c = if c = e.core ∧ e.early.length + 1 = e.kind.pieces then { s.coresAt c with ranges := (s.coresAt c).ranges.filter fun r => r.op != id }
          else s.coresAt c) ∧
        { t with mem := s.mem, engs := s.engs, cores := s.cores, fresh := s.fresh, integ := s.integ } = s)) ∧
  (∀ (a size count d src idx k : Nat) (e : EngOp), e.kind = .gath d src idx size count → a = min size 8 → let j := k * a / size
    e.piece k = match Tab.get (fun _ => 0) e.reads (count * size / a + j) with
      | 0 => .index (count * size / a + j) ((idx + 4 * j) % 2 ^ 64)
      | i + 1 => .move ((src + i * size + k * a % size) % 2 ^ 64) ((d + k * a) % 2 ^ 64) a) ∧
  (∀ (s : State) (id : Nat) (e : EngOp), alone s id e → e.cls = .cpy ∨ e.cls = .gth → e.taken = true → (∀ a sl m b, e.kind ≠ .wload a sl m b) →
    (∀ k, k < e.kind.pieces → k ∈ e.early) →
    let u := { s with fresh := s.fresh + 1 }
    (e.bar = none → ∃ t, exec (.copyComplete id false) s = .next t ∧ ends u t id e ∧ t.mem = s.mem) ∧
    (∀ a key, e.bar = some a → (∀ q, s.engAt e a 8 4 q = .at key) → open_ s e key 8 true →
      let w := s.load key 8
      let arr := w / 2 ^ 30 % 2 ^ 16
      let exp := w / 2 ^ 46 % 2 ^ 16
      let n := (e.bytes + 63) / 64
      w % 2 ^ 14 = 0 → arr < exp → w / 2 ^ 62 % 2 = 1 → arr + n ≤ exp →
      ∃ t, exec (.copyComplete id false) s = .next t ∧ ends u t id e ∧ (∀ x, x < key ∨ key + 8 ≤ x → t.memAt x = s.memAt x) ∧
        t.load key 8 = if arr + n = exp then (1 - w / 2 ^ 63) * 2 ^ 63 + 2 ^ 62 + exp * 2 ^ 46 else w + n * 2 ^ 30)) ∧
  (∀ (s : State) (core id a rows stride key : Nat) (anc : Nat) (fmt : FeedFmt) (e : EngOp) (rest : List Nat), (s.coresAt core).feedQ = id :: rest →
    s.engsAt id = some e → e.kind = .feed fmt a rows anc stride → (∀ i ∈ e.after, s.opsAt i = none) → (s.coresAt core).rows.length < 64 →
    s.engAt e ((a + e.steps * stride) % 2 ^ 64) (feedRowLen fmt) 1 0 = .at key → s.reserved e.who e.after key (feedRowLen fmt) false = false → anc < 256 →
    let illegal := fun i => fmt = .q8 ∧ 64 ≤ s.load (key + 33 * i) 1
    let e' := { e with taken := true, steps := e.steps + 1, bytes := e.bytes + feedRowLen fmt,
                       fail := if e.fail.isNone ∧ ∃ i, i < 4 ∧ illegal i then some (cFormatLatch, (a + e.steps * stride) % 2 ^ 64) else e.fail }
    let D : Int := 2 ^ (129 + (BitVec.ofNat 8 anc).toInt).toNat
    ∃ t u row fl, exec (.feedRowAppend core) s = .next t ∧
      (∀ c, u.coresAt c = if c = core then { s.coresAt core with rows := (s.coresAt core).rows ++ [row], feedQ := if e.steps + 1 < rows then id :: rest else rest }
        else s.coresAt c) ∧
      (∀ j, u.engsAt j = if j = id then some e' else s.engsAt j) ∧
      flagged s u e fl ∧
      { u with cores := s.cores, engs := s.engs, groups := s.groups } = s ∧
      row.anc = anc ∧ row.vals.length = 128 ∧
      (∀ f w, (fmt = .f16 ∧ f = Fmt.f16 ∧ w = 2) ∨ (fmt = .bf16 ∧ f = Fmt.bf16 ∧ w = 2) ∨ (fmt = .e4m3 ∧ f = Fmt.e4m3 ∧ w = 1) ∨ (fmt = .e5m2 ∧ f = Fmt.e5m2 ∧ w = 1) →
        ∀ j, j < 128 → let x := s.load (key + w * j) w
          (Finite f x → near (scaled f x) D (row.vals.getD j 0) fl) ∧
          (∀ sig, decodeFp f x = .nan sig → row.vals.getD j 0 = 0 ∧ bit fl 9 = true) ∧
          (∀ n, decodeFp f x = .inf n → row.vals.getD j 0 = (if n then -8388607 else 8388607) ∧ bit fl 9 = true)) ∧
      (fmt = .q4 → ∀ i k, i < 4 → k < 32 →
        let scale := s.load (key + 17 * i) 1
        let code := s.load (key + 17 * i + 1 + k / 2) 1 / 16 ^ (k % 2) % 16
        near (q4Halves (scale / 64) code * 2 ^ (scale % 64 + 128)) (D * 2 ^ 12) (row.vals.getD (32 * i + k) 0) fl) ∧
      (fmt = .q8 → ∀ i k, i < 4 → k < 32 →
        let scale := s.load (key + 33 * i) 1
        if illegal i then row.vals.getD (32 * i + k) 0 = 0
        else near (2 * (BitVec.ofNat 8 (s.load (key + 33 * i + 1 + k) 1)).toInt * 2 ^ (scale + 128)) (D * 2 ^ 12) (row.vals.getD (32 * i + k) 0) fl) ∧
      (e.steps + 1 < rows → t = u) ∧ (rows ≤ e.steps + 1 → e.bar = none → alone u id e' → ends u t id e' ∧ t.mem = u.mem)) ∧
  (∀ (s : State) (core id a row rows stride key : Nat) (fmt : DrainFmt) (e : EngOp) (rest : List Nat), (s.coresAt core).drainQ = id :: rest → s.engsAt id = some e →
    e.kind = .drain fmt a row rows stride → e.steps < rows → (∀ i ∈ e.after, s.opsAt i = none) → (s.ctxsAt (s.leadCtx core)).passes = [] →
    s.engAt e ((a + e.steps * stride) % 2 ^ 64) (drainRowLen fmt) 2 0 = .at key → s.reserved e.who e.after key (drainRowLen fmt) true = false →
    let r := core * 1024 + row + e.steps
    let meta_ := s.accMetaAt r
    let w := drainRowLen fmt / 128
    let f := (match fmt with
      | .f32 => Fmt.f32
      | .f16 => Fmt.f16
      | .bf16 => Fmt.bf16
      | .e4m3 => Fmt.e4m3)
    ∃ t fl, exec (.drainRow core) s = .next t ∧
      (∀ x, x < key ∨ key + drainRowLen fmt ≤ x → t.memAt x = s.memAt x) ∧
      (∀ j, t.engsAt j = if j = id then some { e with taken := true, steps := e.steps + 1, bytes := e.bytes + drainRowLen fmt } else s.engsAt j) ∧
      flagged s t e fl ∧
      (∀ c, t.coresAt c = if c = core ∧ rows ≤ e.steps + 1 then { s.coresAt c with ranges := (s.coresAt c).ranges.filter fun r => r.op != id } else s.coresAt c) ∧
      (bit meta_ 12 = true → bit fl 10 = true) ∧ (∀ k, t.ctxsAt k = s.ctxsAt k) ∧
      { t with mem := s.mem, engs := s.engs, groups := s.groups, cores := s.cores, fresh := s.fresh, ctxs := s.ctxs, integ := s.integ } = s ∧
      ∀ n, n < 128 →
        let x := t.load (key + w * n) w
        let A := s.accAt (r * 128 + n)
        let scale := (s.scalesAt ((core * 8 + meta_ / 256 % 8) * 128 + n)).toNat
        (bit meta_ 11 = false → x = 0) ∧
        (bit meta_ 11 = true → Finite .f32 scale → A = 0 → x = 0) ∧
        (bit meta_ 11 = true → Finite .f32 scale → scaled .f32 scale = 0 → A ≠ 0 → x = if (A < 0) = (bit scale 31 = true) then 0 else signBit f) ∧
        (bit meta_ 11 = true → Finite .f32 scale → A * scaled .f32 scale ≠ 0 →
          let V := A * scaled .f32 scale * 2 ^ ((BitVec.ofNat 8 (meta_ % 256)).toInt + 128).toNat
          ∃ y, Rounds f .rn V 297 y ∧
            if f = .e4m3 ∧ y = 0x7F then x = (if V < 0 then 0xFE else 0x7E) ∧ bit fl 2 = true ∧ bit fl 4 = true
            else x = y ∧ ∀ b, bit (roundFlags f .rn V 297 y) b = true → bit fl b = true) ∧
        (bit meta_ 11 = true → (∃ sig, decodeFp .f32 scale = .nan sig) ∨ A = 0 ∧ (∃ n, decodeFp .f32 scale = .inf n) → x = nanBits f ∧ bit fl 0 = true) ∧
        (∀ n, bit meta_ 11 = true → A ≠ 0 → decodeFp .f32 scale = .inf n →
          let side := if (A < 0) = (n = true) then 0 else signBit f
          if f = .e4m3 then x = side + 0x7E ∧ bit fl 2 = true ∧ bit fl 4 = true else x = side + infBits f)) ∧
  (∀ (s : State) (id a slot m base : Nat) (e : EngOp) (r : EngIn), alone s id e → e.cls = .wld → e.kind = .wload a slot m base → e.taken = true → e.steps ≠ 0 → e.bar = none →
    s.olderWloads (clusterOf e.core) e.turn = [] → (∀ q, s.engRead e 64 (a + 64) (imgLen e.header) q = .ok r) → r.ready = true →
    let h := e.header
    let own := e.core / 4 * 256 + slot
    let lines := latchLen (imgK h)
    (imageOk h r.data m base = true → ∃ t u, exec (.copyComplete id false) s = .next t ∧
      (∀ j, u.imagesAt j = if j = own ∧ e.stale = false then BitVec.ofNat 64 (slotWord e.owner.vf m h base + 2 ^ 63) else s.imagesAt j) ∧
      (∀ n j, n < imgNcol h → j < lines → n * lines + j ∉ e.early →
        u.load (patternKey (e.core / 4) (getAt 0 (regionCols m) n) (base + j) 0) 8 = ofBytes ((r.data.drop (imgMaskLen h + 8 * (n * lines + j))).take 8)) ∧
      (∀ j, u.engsAt j = if j = id then some { e with bytes := 64 + imgLen h } else s.engsAt j) ∧
      { u with images := s.images, mem := s.mem, badLines := s.badLines, integ := s.integ, engs := s.engs, fresh := s.fresh } = s ∧
      (alone u id { e with bytes := 64 + imgLen h } → ends u t id { e with bytes := 64 + imgLen h } ∧ t.mem = u.mem)) ∧
    (imageOk h r.data m base = false → ∃ t, exec (.copyComplete id false) s = .next t ∧ t.mem = s.mem ∧ (∀ j, t.imagesAt j = s.imagesAt j) ∧
      let g := s.groupsAt e.grp
      let o := g.owner e.ent
      (g.live = true → g.handler = none → e.hnd = false → o.valid = true → o.id = e.owner.id → o.lanes &&& g.pres ≠ 0 →
        (t.groupsAt e.grp).fail e.ent = keepFail (g.fail e.ent) e cFormatLatch a))) ∧
  (∀ (s : State) (id a row rows stride : Nat) (fmt : DrainFmt) (e : EngOp), alone s id e → e.kind = .drain fmt a row rows stride → rows ≤ e.steps → e.bar = none →
    ∃ t, exec (.drainComplete id) s = .next t ∧ t.mem = s.mem ∧
      ends (runAll s [.cores e.core { s.coresAt e.core with drainQ := (s.coresAt e.core).drainQ.filter (· != id) }]) t id e)

/-- O48. When the oldest closed batch of a context completes, its row's columns take the clamped sum, or the value written, with the row's overflow bit
set where the clamp changes a sum; BDONE counts the batch and an event tells of it, and those behind it that have issued nothing complete with it. An
open batch charged 65,536 cycles is closed before the next array instruction, and the next batch opens. A requested stop takes effect before an
instruction that is no array instruction, before a pass held for feed rows, where a hold has just been left, or after the close of a batch: the open
batch is closed unless it has just been, and, once every slot is zero, STATE is 0b11 and the PC names the instruction to resume at (the batch that
opened with the close just before is not closed again, log 22). (11_ternary_array.md R231, 11_ternary_array.md R232, 11_ternary_array.md R228,
02_number_formats.md R44, 14_event_filter_coprocessor.md R260) -/
def Obligations.BatchesFinish : Prop :=
  let closes := fun (s : State) (k : Nat) => let c := s.ctxsAt k
    let all := c.closed ++ [(c.batch, c.charge)]
    let n := (all.takeWhile fun b => c.passes.all fun r => r.batch != b.1).length
    { c with batch := (c.batch + 1) % 2 ^ 32, nonempty := false, charge := 0, chain := false, pendL := 0, closed := all.drop n,
             bdone := if n = 0 then c.bdone else (c.bdone + n) % 2 ^ 32, closedAt := some c.g.retired }
  let ended := fun (s : State) (k : Nat) (l : List (Nat × Nat)) => l.map fun b =>
    (k / 512, eventWord s 6 (k % 512) (s.ctxsAt k).vf (s.ctxsAt k).asid 1 (min b.2 65535) b.1)
  let closed := fun (s : State) (k : Nat) => let c := s.ctxsAt k
    (k / 512, eventWord s 6 (k % 512) c.vf c.asid 0 (min c.charge 65535) c.batch) ::
      ended s k ((c.closed ++ [(c.batch, c.charge)]).takeWhile fun b => c.passes.all fun r => r.batch != b.1)
  let puts := fun (s : State) (o : Answer) (k : Nat) (c : Ctx) (ev : List (Nat × BitVec 128)) =>
    ∃ t, o = .next t ∧ (∀ j, t.ctxsAt j = if j = k then c else s.ctxsAt j) ∧ SendsAll { s with ctxs := t.ctxs } t ev
  (∀ (s : State) (k b n : Nat) (rest : List (Nat × Nat)) (r : PassRow), (s.ctxsAt k).closed = (b, n) :: rest → (s.ctxsAt k).passes = [r] → r.batch = b →
    r.kind ≠ .scale → r.cols = 2 ^ 128 - 1 →
    let c := s.ctxsAt k
    let row := r.core * 1024 + r.row
    let lim : Int := 2 ^ 47 - 1
    let sum := fun (x : Nat) => s.accAt (row * 128 + x) + r.vals.getD x 0
    ∃ t, exec (.batchComplete k) s = .next t ∧
      (∀ a, t.accAt a = if a / 128 = row then (if r.kind = .set then r.vals.getD (a % 128) 0 else max (-lim) (min lim (sum (a % 128)))) else s.accAt a) ∧
      (∀ a, t.accMetaAt a = if a = row ∧ r.kind = .add ∧ ∃ x, x < 128 ∧ lim < |sum x| then s.accMetaAt a ||| 4096 else s.accMetaAt a) ∧
      (∀ j, t.ctxsAt j = if j = k then { c with passes := [], closed := [], bdone := (c.bdone + c.closed.length) % 2 ^ 32 } else s.ctxsAt j) ∧
      SendsAll { s with acc := t.acc, accMeta := t.accMeta, ctxs := t.ctxs } t (ended s k c.closed)) ∧
  (∀ (s : State) (k p : Nat) (i : Instr), (s.ctxsAt k).state = 1 → 65536 ≤ (s.ctxsAt k).charge → s.fetch (.ctx k) = some (.instr i p) →
    (∃ h d, i = .bfence h d) ∨ (∃ h m x y, i = .mlatch h m x y) ∨ (∃ h a b c d e, i = .mmul h a b c d e ∨ i = .mmulb h a b c d e) ∨ (∃ h a b c, i = .mzero h a b c) →
    puts s (exec (.batchChargeLimit k) s) k (closes s k) (closed s k)) ∧
  (∀ (s : State) (k p : Nat) (i : Instr), let c := s.ctxsAt k
    c.state = 1 → c.stopping = true → (c.g.frag 0).hold = .none → s.fetch (.ctx k) = some (.instr i p) →
    let f : Frag := { c.g.frag 0 with hold := .none, holdSince := none }
    let stopped := fun (x : Ctx) => if f.sb = [] then { x with state := 3, stopping := false, g := c.g.setFrag 0 { f with pc := p } } else { x with g := c.g.setFrag 0 f }
    (c.closedAt = some c.g.retired → puts s (exec (.contextStop k) s) k (stopped c) []) ∧
    (((∀ h m x y, i ≠ .mlatch h m x y) ∧ (∀ h a b d e f, i ≠ .mmul h a b d e f ∧ i ≠ .mmulb h a b d e f) ∧ ∀ h a b d, i ≠ .mzero h a b d) ∨ s.feedShort k i = true ∨ c.leftHold = some c.g.retired ∨ 65536 ≤ c.charge →
      c.closedAt ≠ some c.g.retired →
      puts s (exec (.contextStop k) s) k (stopped (closes s k)) (closed s k)))

/-- O49. With a ring in host memory enabled and not full, the oldest record or entry that waits is written whole at the slot of PROD, a record with the
position that its group has then, PROD advances, and MSI-X is raised where IEN is set; the completion of a command clears CMDP. Where the write fails
the ring takes EN 0 and RERR is set, and the entry waits on. A resume of an open token of a parked fragment resolves it and makes the fragment live at
its PC, or behind a TRAP or DBRK, at the back of the waiting order; a fatal cause is refused with 0b10 and an unknown or resolved token answers 0b01.
A kill resolves the token and retires the fault domain of a parked fragment that is there, or of a Notice whose domain has not retired; of a frozen
fragment, a resume or kill is kept as STAT in the frozen state; the kill of a context's token only resolves it (the model's reading, log 24). The
offsets +8 and +16 of a ring's registers are presumed (log 14). (16_faults_preemption.md R287, 16_faults_preemption.md R288, 16_faults_preemption.md
R285, 20_host_security.md R333, 20_host_security.md R331, 05_parallel_execution.md R120) -/
def Obligations.RecordsAndStatus : Prop :=
  (∀ (s : State) (fn : Nat) (fault : Bool),
    let off := if fault then 0x20040 else 0x20000
    let c := (s.reg fn (off + 8)).toNat
    let p := (s.reg fn (off + 16)).toNat
    let f := s.fnsAt fn
    let opens := bit c 63 = true ∧ (p % 2 ^ 32 + 2 ^ 32 - p / 2 ^ 32) % 2 ^ 32 ≠ 2 ^ (c / 2 ^ 58 % 16)
    let writes := fun (n w : Nat) =>
      [Effect.fresh (s.fresh + 1)] ++ storeBytes (2 ^ 64 + ((s.reg fn off).toNat + n * (p % 2 ^ 32 % 2 ^ (c / 2 ^ 58 % 16))) % 2 ^ 64) (toBytes w n) ++
      [.win (fn * 67108864 + off + 16) (BitVec.ofNat 64 (p / 2 ^ 32 * 2 ^ 32 + (p % 2 ^ 32 + 1) % 2 ^ 32))] ++
      (if bit c 57 then [.msix (2 * fn + if fault then 1 else 0) (s.msixAt (2 * fn + if fault then 1 else 0) + 1)] else [])
    let halts := [Effect.fresh (s.fresh + 1), .win (fn * 67108864 + off + 8) (BitVec.ofNat 64 (c % 2 ^ 63)), .win (fn * 67108864 + 8) ((s.reg fn 8) ||| 16)]
    opens → bit c 62 = true →
    (fault = true → ∀ t rest, f.faultWait = t :: rest →
      let r := f.recAt t
      (f.tdis ≠ 3 → Does s (exec (.faultRecordDelivery fn false) s) (writes 32 r.placed ++ [.fns fn ({ f with faultWait := rest }.setRec t { r with word := r.placed, delivered := true })]) []) ∧
      Does s (exec (.faultRecordDelivery fn true) s) halts []) ∧
    (fault = false → ∀ w rest, f.statWait = w :: rest → w / 2 ^ 56 % 256 ≠ 6 →
      (f.tdis ≠ 3 → w / 2 ^ 56 % 256 ≠ 4 → Does s (exec (.statusEntryWrite fn false) s) (writes 16 w ++ [.fns fn { f with statWait := rest }]) []) ∧
      (f.tdis ≠ 3 → w / 2 ^ 56 % 256 = 4 → Does s (exec (.statusEntryWrite fn false) s) (writes 16 w ++ [.fns fn { f with statWait := rest, cmd := none },
        .win (fn * 67108864 + 8) ((s.reg fn 8) &&& ~~~(32 : DWord))]) []) ∧
      Does s (exec (.statusEntryWrite fn true) s) halts [])) ∧
  (∀ (s : State) (fn : Nat) (token : BitVec 32),
    let f := s.fnsAt fn
    let n := token.toNat
    let r := f.recAt n
    let known := n ≠ 0 ∧ r.word ≠ 0 ∧ r.delivered = true ∧ r.resolved = 0
    let answer := fun (x : Nat) => Effect.win (fn * 67108864 + 0x20080) (BitVec.ofNat 64 (x * 2 ^ 32 + n))
    (¬ known → Does s (exec (.fltresResume fn token) s) [answer 1] [] ∧ Does s (exec (.fltresKill fn token) s) [answer 1] []) ∧
    (known → r.notice = false → ¬ resumable r.cause = true → Does s (exec (.fltresResume fn token) s) [answer 2] []) ∧
    (known → ∀ k i, r.parked = some (k, i) → k < 2 ^ 30 → r.notice = false →
      let g := s.groupsAt k
      g.live = true → g.handler = none → (g.frag i).fst = .parked → Tab.get (fun _ => 0) g.parkRec i = n →
      (resumable r.cause = true → (s.tracesAt (k / 256)).gsl ≠ k % 256 →
        ∃ t, exec (.fltresResume fn token) s = .next t ∧
          (∀ j, t.fnsAt j = if j = fn then f.setRec n { r with resolved := 1 } else s.fnsAt j) ∧
          (∀ j, t.winAt j = if j = fn * 67108864 + 0x20080 then BitVec.ofNat 64 n else s.winAt j) ∧
          (∀ j, j ≠ k → t.groupsAt j = s.groupsAt j) ∧
          (let g' := t.groupsAt k
           (g'.frag i).fst = .live ∧ (g'.frag i).mask = (g.frag i).mask ∧ (g'.frag i).pc = (g.frag i).pc + (if r.cause = 0x20 ∨ r.cause = 0x21 then 12 else 0) ∧
           (g.freeSlots = [] → g'.waiting = g.waiting ++ [i] ∧ (g'.frag i).slot = 0) ∧ Tab.get (fun _ => 0) g'.parkRec i = 0 ∧
           (g.freeSlots = [] → ∀ e, e ≠ i → g'.frag e = g.frag e) ∧ { g' with frags := g.frags, waiting := g.waiting, parkRec := g.parkRec } = g) ∧
          { t with fns := s.fns, win := s.win, groups := s.groups } = s) ∧
      (resumable r.cause = true → s.canonical = true → ∀ a, a < 2 ^ 48 → (∀ q, s.domain (s.keptChain fn r.node q) = some a) →
        ∃ t, exec (.fltresKill fn token) s = .next t ∧ Retired s t a ∧ t.winAt (fn * 67108864 + 0x20080) = BitVec.ofNat 64 n ∧ ((t.fnsAt fn).recAt n).resolved = 2)) ∧
    (known → r.parked = none → r.notice = true →
      Does s (exec (.fltresResume fn token) s) [.fns fn (f.setRec n { r with resolved := 1 }), answer 0] [] ∧
      (s.canonical = true → ∀ a, a < 2 ^ 48 → (∀ q, s.domain (s.keptChain fn r.node q) = some a) → s.load (a + 4) 1 / 64 % 4 ≠ 2 →
        ∃ t, exec (.fltresKill fn token) s = .next t ∧ Retired s t a ∧ ((t.fnsAt fn).recAt n).resolved = 2)) ∧
    (known → (∀ p, r.parked = some p → resumable r.cause = false) → (r.parked = none → r.notice = false) →
      Does s (exec (.fltresKill fn token) s) [.fns fn (f.setRec n { r with resolved := 2 }), answer 0, .fresh (s.fresh + 1)] []) ∧
    (known → ∀ k i h, r.parked = some (k, i) → k < 2 ^ 30 → r.notice = false → resumable r.cause = true → (s.groupsAt k).handler = some h → h.parkGone i r = false →
      let fz := fun (how : Nat) => Tab.put (fun _ => (0 : DWord)) h.frozen (0x0501 + 4 * i)
        (BitVec.ofNat 64 ((Tab.get (fun _ => (0 : DWord)) h.frozen (0x0501 + 4 * i)).toNat / 4 * 4 + how))
      let stat := fun (how : Nat) => Effect.groups k { s.groupsAt k with handler := some { h with frozen := fz how } }
      Does s (exec (.fltresResume fn token) s) [.fns fn (f.setRec n { r with resolved := 1 }), answer 0, stat 1] [] ∧
      Does s (exec (.fltresKill fn token) s) [.fns fn (f.setRec n { r with resolved := 2 }), answer 0, .fresh (s.fresh + 1), stat 2] []))

/-- O50. RETIRE retires its node. INVAL removes the function's entries that meet the range from every RTB. SETFA invalidates the entries of its frames,
then, frame by frame, zeros one whose accesses have performed and sets its attribute and key. KEYGEN loads a key for a function and KEYDEL unloads one
that no frame names, and answers 0x03 otherwise. LATE replaces the runtime image by the one that A0 and A1 name where it is signed and not older, and
answers 0x02 otherwise. CONFSET records the mode of the next full reset, and RESET makes one. SLICE_END holds its node back and asks its contexts to
stop; once nothing below is resident, a launch with workgroups left takes STATE 0b11 and NEXTWG. RESUME lifts it. PREEMPT names its victims, and ends
with 0x00, 0x04 or 0x06. A command of the PF answers 0x01 to a VF. That an image whose bytes are no memory answers 0x02 (log 37), and that RESUME
lifts the stop of every function that named the node (log 23), are the model's reading. (20_host_security.md R336, 16_faults_preemption.md R289,
16_faults_preemption.md R290, 08_memory_spaces.md R171, 20_host_security.md R337, 20_host_security.md R340, 20_host_security.md R346,
20_host_security.md R347, 20_host_security.md R348, 05_parallel_execution.md R120) -/
def Obligations.CommandsAct : Prop :=
  ∀ (s : State) (fn : Nat) (c : Cmd),
    let f := s.fnsAt fn
    let u := { s with fresh := s.fresh + 1 }
    let a := fun (i : Nat) => c.args.getD i 0
    let named := fun (node : Nat) => ∀ q, s.cmdNode fn (a 0) q = .ok node
    (∀ h : Nat, Commands s fn 4 c → s.canonical = true → h < 2 ^ 48 → named (h + 1) → ∃ v t, exec (.retire fn) s = .next t ∧ Retired s v h ∧ Ended v t fn c 0) ∧
    (Commands s fn 5 c →
      let gone := fun (e : RtbEntry) => decide (e.vf = fn) && (bit (a 0) 63 || decide (e.asid = a 0 % 2 ^ 20)) && decide (e.lo < a 2) && decide (a 1 < e.hi)
      s.canonical = true → ∃ v t, exec (.inval fn) s = .next t ∧ Ended v t fn c 0 ∧ { v with cores := s.cores } = u ∧
        ∀ k, v.coresAt k = { s.coresAt k with rtb := (s.coresAt k).rtb.filter fun e => !gone e }) ∧
    (Commands s fn 6 c → fn = 0 →
      let first := a 0 / 65536
      let frame := first + c.node
      let attr := a 2 % 4
      let old := s.framesAt frame
      let gain := attr = 2 ∧ old / 1024 ≠ 2
      (attr = 3 ∨ (c.node < a 1 ∧ framesOk (a 0) (a 1) = false) → Ends s (exec (.setfa fn) s) [] fn c 2) ∧
      (a 1 ≤ c.node → attr ≠ 3 → Ends s (exec (.setfa fn) s) [] fn c 0) ∧
      (c.node < a 1 → attr ≠ 3 → framesOk (a 0) (a 1) = true → (gain → s.slotsUsed < 65536) →
        (c.begun = false → s.canonical = true → ∃ t, exec (.setfa fn) s = .next t ∧
          (∀ k, t.coresAt k = { s.coresAt k with rtb := (s.coresAt k).rtb.filter fun e => !e.covers first (a 1) }) ∧
          (∀ j, t.fnsAt j = if j = fn then { f with cmd := some { c with begun := true } } else s.fnsAt j) ∧ { t with cores := s.cores, fns := s.fns } = u) ∧
        (c.begun = true → s.frameBusy frame = false →
          Does u (exec (.setfa fn) s) (Prog.freshFrame frame s ++ [.frames frame (pairOf attr (a 2 / 2 ^ 12 % 2 ^ 10)),
            .slotsUsed (s.slotsUsed + (if attr = 2 ∧ old / 1024 ≠ 2 then 1 else 0) - (if attr ≠ 2 ∧ old / 1024 = 2 then 1 else 0)),
            .fns fn { f with cmd := some { c with node := c.node + 1 } }]) [] ∧
          ∃ t, exec (.setfa fn) s = .next t ∧ ∀ x, x < 65536 → t.memAt (65536 * frame + x) = 0))) ∧
    (Commands s fn 6 c → fn = 0 → c.node < a 1 → a 2 % 4 = 2 → framesOk (a 0) (a 1) = true → s.framesAt (a 0 / 65536 + c.node) / 1024 ≠ 2 → 65536 ≤ s.slotsUsed →
      Ends s (exec (.setfa fn) s) [] fn c 4) ∧
    (Commands s fn 7 c → fn = 0 → s.sec.lcs ≠ 3 → 0 < a 0 → a 0 < 1024 → a 1 < 64 → (∀ v, s.frozenFn v = false) → (s.keysAt (a 0) = 0 ∨ ∀ p ∈ s.frames, p.2 = 0 ∨ p.2 % 1024 ≠ a 0) →
      Ends s (exec (.keygen fn) s) [.keys (a 0) (a 1 + 1)] fn c 0) ∧
    (Commands s fn 8 c → fn = 0 → 0 < a 0 → a 0 < 1024 →
      ((∃ p ∈ s.frames, p.2 ≠ 0 ∧ p.2 % 1024 = a 0) → Ends s (exec (.keydel fn) s) [] fn c 3) ∧
      ((∀ p ∈ s.frames, p.2 = 0 ∨ p.2 % 1024 ≠ a 0) → (∀ v, s.frozenFn v = false) → Ends s (exec (.keydel fn) s) [.keys (a 0) 0] fn c 0)) ∧
    (Commands s fn 9 c → fn = 0 → ∀ signed version running family,
      let mapped := hpaMapped (a 0) = true ∧ hpaMapped (a 0 + a 1 - 1) = true ∧ s.lineBad (a 0) (a 1) = false
      (¬ mapped ∨ signed = false ∨ version < s.sec.rtVer → Ends s (exec (.late fn signed version running family) s) [] fn c 2) ∧
      (mapped → signed = true → s.sec.rtVer ≤ version → (s.sec.conf = false ∨ running = family) →
        Ends s (exec (.late fn signed version running family) s) [.sec (s.sec.runtime version (ofBytes (sm3 (s.bytes (a 0) (a 1)))))] fn c 0)) ∧
    (Commands s fn 10 c → fn = 0 →
      (s.dbg = 2 ∨ (s.sec.lcs = 3 ∧ a 0 % 2 = 1) → Ends s (exec (.confset fn) s) [] fn c 1) ∧
      (s.dbg ≠ 2 → (s.sec.lcs = 3 → a 0 % 2 = 0) → Ends s (exec (.confset fn) s) [.sec { s.sec with confNext := decide (a 0 % 2 = 1) }] fn c 0)) ∧
    (Commands s fn 11 c → fn = 0 → exec (.reset fn) s = .next (u.wiped { s.sec with conf := s.sec.confNext, power := 0, pstate := 0, streams := [], log := [], logNext := 0 })) ∧
    (∀ op i, Commands s fn op c → fn ≠ 0 →
      ((op = 6 ∧ i = .setfa fn) ∨ (op = 7 ∧ i = .keygen fn) ∨ (op = 8 ∧ i = .keydel fn) ∨ (op = 9 ∧ ∃ x v y z, i = .late fn x v y z) ∨ (op = 10 ∧ i = .confset fn) ∨
        (op = 11 ∧ i = .reset fn) ∨ (op = 12 ∧ i = .rotate fn)) →
      Ends s (exec i s) [] fn c 1) ∧
    (∀ node ks, Commands s fn 1 c → named node → (∀ q, s.ctxsBelow node q = ks) → s.admits = [] → c.begun = false →
      ∃ t, exec (.sliceEnd fn) s = .next t ∧
        (∀ j, t.fnsAt j = if j = fn then { f with cmd := some { c with begun := true, node := node, victims := ks }, stops := f.stops.filter (· != node) ++ [node] } else s.fnsAt j) ∧
        (∀ k, t.ctxsAt k = if k ∈ ks ∧ (s.ctxsAt k).state = 1 then { s.ctxsAt k with stopping := true } else s.ctxsAt k) ∧ { t with fns := s.fns, ctxs := s.ctxs } = u) ∧
    (Commands s fn 1 c → c.begun = true → s.residentBelow c.node = false → (∀ k ∈ c.victims, (s.ctxsAt k).state ≠ 1 ∨ (s.ctxsAt k).stopping = false) →
      ((∀ p ∈ s.launches, ∀ l, p.2 = some l → l.under c.node = false ∨ l.retired = true ∨ recNwg l.rec_ ≤ l.next) → Ends s (exec (.sliceEndComplete fn) s) [] fn c 0) ∧
      (∀ n l h up, s.launches = [(n, some l)] → l.under c.node = true → l.retired = false → l.next < recNwg l.rec_ → l.chain = h :: up →
        Ends s (exec (.sliceEndComplete fn) s) (storeBytes (h + 4) [BitVec.ofNat 8 (s.load (h + 4) 1 % 64 + 192)] ++ storeBytes (h + 64) (toBytes l.next 4)) fn c 0)) ∧
    (∀ node, Commands s fn 3 c → named node → s.canonical = true → (∀ p ∈ s.launches, ∀ l, p.2 = some l → l.under node = false) →
      ∃ v t, exec (.resume fn) s = .next t ∧ Ended v t fn c 0 ∧ (∀ j, v.fnsAt j = { s.fnsAt j with stops := (s.fnsAt j).stops.filter (· != node) }) ∧
        (∀ k x, s.savedAt k = some x → v.savedAt k = some (if x.failed = false ∧ s.unitBelow x node = true then { x with resumed := true } else x)) ∧
        { v with fns := s.fns, saved := s.saved } = u) ∧
    (Commands s fn 2 c →
      (∀ node met, named node → a 1 < 2048 → c.begun = false →
        s.choose fn c.need ((s.victims (a 1)).filter (s.evictable fn node)) (s.roomOf (a 1)) f.blocks = ([], met) →
        Does u (exec (.preempt fn) s) [.fns fn { f with cmd := some { c with begun := true, node := node, victims := [], short := !met.1, noRun := met.2 } }] []) ∧
      (∀ node met n k area blocks w, named node → a 1 < 2048 → c.begun = false →
        s.choose fn c.need ((s.victims (a 1)).filter (s.evictable fn node)) (s.roomOf (a 1)) f.blocks = ([({ wgs := [n], grps := [k], age := w.age }, [area], [blocks])], met) →
        s.wgsAt n = some w → (s.groupsAt k).stop.stopped = false →
        let g := s.groupsAt k
        let unit : Saved := { fn := fn, rqn := if node = 0 then 0 else a 0 % 2 ^ 63, wgs := [n], grps := [k], areas := [area], lens := [blocks], garea := [area + s.groupsOffset [n]], groups := [{ Group.empty with owners := g.ownerTable, regs := g.regs }], left := 1, resumed := false, failed := false, cause := 0x22, node := none, notes := [] }
        let f1 := { f with blocks := f.blocks ++ (List.range blocks).map fun j => area / 65536 + j }
        Does u (exec (.preempt fn) s) [.saved s.nextId (some unit), .nextId (s.nextId + 1), .fns fn f1, .wgs n (some { w with saving := true, area := area }),
          .groups k { (List.range 16).foldl (fun (g : Group) i => g.setFrag i (g.frag i).abandon) g with evict := true, stop := { g.stop with stopped := false, step := none } },
          .fns fn { f1 with cmd := some { c with begun := true, node := node, victims := [s.nextId], short := !met.1, noRun := met.2 } }] []) ∧
      (c.begun = true → (∀ k ∈ c.victims, s.victimDone k = true) →
        let failed := ∃ k ∈ c.victims, ∃ x, s.savedAt k = some x ∧ x.failed = true
        let met := c.short = false ∨ (s.roomOf (a 1)).meets c.need = true
        (met → failed → Ends s (exec (.preempt fn) s) [] fn c 6) ∧ (met → ¬ failed → Ends s (exec (.preempt fn) s) [] fn c (if c.noRun then 4 else 0)) ∧
        (¬ met → s.detOn (a 1) c.node = [] → ¬ failed → Ends s (exec (.preempt fn) s) [] fn c 4)))

/-- O51. A settled victim group whose save area can be written and whose handler's code loads runs the save entry: one fragment of sixteen lanes at HSAVE
with TH 1, s56 to s58 the two areas and the cause, its state frozen and its registers as they stand. The save-entry RETT frees the group, and with the
last group of a unit its workgroup is saved and its rows and segment go. The restore-entry RETT brings back v0 to v3, STATUS, FLAGS and the fragments
that the frozen words describe. A saved unit is admitted to a core with room and runs the restore entry. A core is fenced. DTLIM retires a launch. FLR
and STOP_INTERFACE take a VF's queues, then scrub its registers, contexts and window. LOCK and START move a TDI on, and each SPDM request in order is
answered, one out of order with ERROR (their codes are presumed, log 18). What RETT waits for and what a restore brings back beside v0 to v3 are the
model's reading (log 25). (16_faults_preemption.md R291, 16_faults_preemption.md R293, 16_faults_preemption.md R294, 16_faults_preemption.md R296,
16_faults_preemption.md R300, 17_isa_system.md R309, 20_host_security.md R342, 20_host_security.md R343, 20_host_security.md R345, 20_host_security.md
R341, 20_host_security.md R344, 21_program_vf_reset.md R352) -/
def Obligations.SavesAndResets : Prop :=
  (∀ (s : State) (k n i : Nat) (u : Saved), let g := s.groupsAt k
    s.unitAt k = some (n, u, i) → g.live = true → g.evict = true → g.handler = none → s.settled k = true → (∃ e, e < 16 ∧ (g.owner e).valid = true) →
    (∀ q a (l : List Byte), a ∈ u.areas ∨ a = u.garea.getD i 0 ∨ a = u.garea.getD i 0 + 0x300 → l.length ≤ 512 → ∃ e, s.hostedWrite u.fn q a l = .ok e) → (∀ q, ∃ c, s.loadCode u.fn (s.hasid u.fn) (s.hkey u.fn q) q (k / 256 / 4) (s.reg u.fn 0x30030).toNat = .ok c) →
    ∃ t h, exec (.handlerStart k) s = .next t ∧ (∀ j, j ≠ k → t.groupsAt j = s.groupsAt j) ∧
      (let g' := t.groupsAt k
       g'.handler = some h ∧ g'.evict = false ∧ g'.v = g.v ∧ g'.s = g.s ∧ g'.p = g.p ∧ g'.q = g.q ∧ g'.flags = g.flags ∧ g'.status = g.status ||| 4 ∧
       g'.readS 56 = BitVec.ofNat 64 (u.garea.getD i 0) ∧ g'.readS 57 = BitVec.ofNat 64 (u.areas.headD 0) ∧ g'.readS 58 = BitVec.ofNat 64 u.cause ∧
       (∀ r, 59 ≤ r → r < 64 → g'.readS r = 0) ∧
       (g'.frag 0).fst = .live ∧ (g'.frag 0).slot = 1 ∧ (g'.frag 0).mask = 0xFFFF ∧ (g'.frag 0).pc = (s.reg u.fn 0x30038).toNat / 2 ^ 32 / 4 * 4 ∧
       (∀ e, e ≠ 0 → (g'.frag e).fst = .free ∧ (g'.owner e).valid = false) ∧ (g'.owner 0).vf = u.fn ∧ (g'.owner 0).asid = s.hasid u.fn ∧ (g'.owner 0).lanes = 0xFFFF) ∧
      h.fn = u.fn ∧ h.level = (if u.fn = 0 then 2 else 1) ∧ h.restore = false ∧ h.cause = u.cause ∧ h.owners = g.owners ∧ h.pres = g.pres ∧ h.frozen = s.frozenOf k ∧
      h.unit = n ∧ h.idx = i ∧ h.clk = g.clk ∧ h.vstatus = g.status ∧ h.vflags = g.flags ∧ h.failed = false ∧ t.ops = s.ops ∧ t.engs = s.engs ∧ t.fns = s.fns) ∧
  (∀ (s : State) (k : Nat) (h : Handler) (hd : Hdr), let g := s.groupsAt k
    (g.frag 0).hold = .rett hd → g.handler = some h → h.failed = false → g.eng = [] → s.agentOps (.grp k 0) = [] → g.pend = [] →
    (h.restore = false → h.guest = none → (∀ x, x < 16 → (Tab.get (fun _ => (0 : DWord)) h.frozen (0x0100 + x)).toNat / 2 ^ 62 ≠ 3) →
      (∀ p ∈ s.fns, ∀ x ∈ p.2.recs, x.2.home ≠ some k ∧ ∀ y, x.2.parked ≠ some (k, y)) → (∀ c, (s.fnsAt 0).cmd = some c → c.op ≠ 6) → s.canonical = true →
      ∀ u, s.savedAt h.unit = some u → (∀ p ∈ s.saved, ∀ v, p.2 = some v → p.1 ≠ h.unit → k ∉ v.grps) → u.groups.length = u.grps.length →
      (∀ j, j < u.grps.length → u.grps.getD j 0 = k → j = h.idx) →
      let g1 := { g with retired := g.retired + 1, clk := g.clk + 1 }
      let u' := { u with groups := setAt u.groups h.idx (g1.kept h), left := u.left - 1 }
      (u.left ≠ 1 → u.left ≠ 0 → Does s (exec (.rettComplete k) s) [.groups k Group.empty, .saved h.unit (some u'), .fresh (s.fresh + 1)] []) ∧
      (∀ n w, u.left = 1 → u.wgs = [n] → s.wgsAt n = some w →
        let c := s.coresAt w.core
        ∃ t, exec (.rettComplete k) s = .next t ∧ (∀ j, t.groupsAt j = if j = k then Group.empty else s.groupsAt j) ∧
          (∀ j, t.savedAt j = if j = h.unit then some u' else s.savedAt j) ∧ (∀ j, t.wgsAt j = if j = n then some { w with saved := true, saving := s.stillSaving h.unit n } else s.wgsAt j) ∧
          (∀ j, t.coresAt j = if j = w.core then { c with segs := (c.segs.map fun x => if x.wg == n then { x with dead := true } else x).filter fun x => !(x.dead && !s.inbound w.core x), accs := c.accs.filter fun x => x.wg != n }
            else s.coresAt j) ∧ { t with groups := s.groups, saved := s.saved, wgs := s.wgs, cores := s.cores, fresh := s.fresh } = s)) ∧
    (h.restore = true → h.guest = none → frozenOk h.frozen = true → ∀ low high : List Byte,
      (∀ q, s.readVirt h.fn (s.hasid h.fn) (s.hkey h.fn q) q 3 ((h.area + 0x40) % 2 ^ 56) 256 = .ok low) →
      (∀ q, s.readVirt h.fn (s.hasid h.fn) (s.hkey h.fn q) q 3 ((h.area + 0x300) % 2 ^ 56) 64 = .ok high) →
      let word := fun (x : Nat) => (Tab.get (fun _ => (0 : DWord)) h.frozen x).toNat
      (∀ x, x < 32 → word (0x0300 + x) = 0) → (∀ x, x < 16 → word (0x0100 + x) / 2 ^ 62 = 0 ∨ (word (0x0100 + x) / 2 ^ 62 ≠ 3 ∧ word (0x0100 + x) / 2 ^ 60 % 4 ≠ 0)) →
      ∀ u, s.savedAt h.unit = some u → 1 < u.left →
      ∃ t, exec (.rettComplete k) s = .next t ∧ (∀ j, j ≠ k → t.groupsAt j = s.groupsAt j) ∧
        (∀ j, t.savedAt j = if j = h.unit then some { u with left := u.left - 1 } else s.savedAt j) ∧
        (let g' := t.groupsAt k
         g'.handler = none ∧ g'.status = h.vstatus ∧ g'.flags = h.vflags ∧ g'.clk = h.clk ∧ g'.pres = h.pres ∧ g'.p = g.p ∧ g'.q = g.q ∧
         (∀ r l, l < 16 → g'.readV r l = if r < 4 then BitVec.ofNat 32 (ofBytes ((low.drop (16 * l + 4 * r)).take 4)) else g.readV r l) ∧
         (∀ r, 56 ≤ r → r < 64 → g'.readS r = BitVec.ofNat 64 (ofBytes ((high.drop (8 * (r - 56))).take 8))) ∧
         (∀ x, x < 16 →
           let f := word (0x0100 + x)
           let m := f / 2 ^ 32 % 2 ^ 16 &&& h.pres
           (f / 2 ^ 62 = 0 ∨ m = 0 → (g'.frag x).fst = .free) ∧
           (f / 2 ^ 62 ≠ 0 → m ≠ 0 → fstCode (g'.frag x).fst = f / 2 ^ 62 ∧ (g'.frag x).mask = m ∧ (g'.frag x).pc = f % 2 ^ 32 / 4 * 4 ∧
             (g'.frag x).slot = f / 2 ^ 60 % 4 ∧ (g'.frag x).sb = [] ∧ (g'.frag x).gate = s.cycle + word (0x0200 + x) / 2 ^ 20 % 2 ^ 13 ∧ (g'.frag x).hold = .none))))) ∧
  (∀ (s : State) (unit n k core : Nat) (u : Saved) (w : Wg) (l : Launch) (g : Group) (h : Handler) (es : List Effect), s.savedAt unit = some u → u.resumed = true → u.failed = false →
    u.left = 0 → u.cause = 0x22 → u.wgs = [n] → u.groups = [g] → u.grps.length = 1 → s.wgsAt n = some w → w.ended = false → w.saved = true → w.groups = u.grps →
    s.launchesAt w.launch = some l → s.sliceHeld l = false → (∀ c, (s.fnsAt 0).cmd = some c → c.op ≠ 6) → g.handler = some h → h.guest = none → s.restoreSpots u = [(core, [k], es)] →
    ∃ t h' w' b, exec (.restoreAdmission unit) s = .next t ∧ t.savedAt unit = some { u with grps := [k], left := 1, failed := b } ∧
      t.wgsAt n = some w' ∧ w'.saved = false ∧ w'.core = core ∧ w'.groups = [k] ∧ (t.groupsAt k).handler = some h' ∧ h'.restore = true ∧ h'.fn = h.fn ∧ h'.area = h.area ∧
      ((t.groupsAt k).frag 0).fst = .live ∧ ((t.groupsAt k).frag 0).mask = 0xFFFF ∧ ((t.groupsAt k).frag 0).pc = (s.reg h.fn 0x30038).toNat % 2 ^ 32 / 4 * 4) ∧
  (∀ (s : State) (core : Nat) (hit : List Nat), core < 2048 → ∃ t, exec (.coreFence core hit) s = .next t ∧ (t.coresAt core).fenced = true) ∧
  (∀ (s : State) (fn id a : Nat) (c : Cmd) (l : Launch) (up : List Nat), (s.fnsAt fn).cmd = some c → c.op = 2 → c.begun = true → c.short = true →
    (s.roomOf (c.arg 1)).meets c.need = false → s.detOn (c.arg 1) c.node = [(id, l)] → l.chain = a :: up → a < 2 ^ 48 → s.canonical = true →
    (s.part l.vf 1) / 2 ^ 29 % 2 ^ 32 ≤ s.cycle - c.start → ∃ t, exec (.dtlimExpiry fn) s = .next t ∧ Retired s t a) ∧
  (∀ (s : State) (vf : Nat), 0 < vf → vf < 64 → ∀ i how, (i = .flr vf ∧ how = 1) ∨ (i = .stopInterface vf ∧ how = 2 ∧ (s.fnsAt vf).session = 2 ∧ s.sec.crs = false) →
    ((s.fnsAt vf).fnReset = 0 → ∃ t, exec i s = .next t ∧ (t.fnsAt vf).fnReset = how ∧ (∀ q, q < 16 → bit (t.lqc vf q) 63 = false) ∧ bit (t.reg vf 0x20008).toNat 63 = false ∧ bit (t.reg vf 0x20048).toNat 63 = false ∧ (∀ die, die < 4 → t.devqAt (die * 64 + vf) = [])) ∧
    ((s.fnsAt vf).fnReset ≠ 0 → s.vfBusy vf = false → s.canonical = true → (∀ c, (s.fnsAt 0).cmd = some c → c.op ≠ 6) → ∃ t, exec i s = .next t ∧ (t.fnsAt vf).fnReset = 0 ∧ (t.fnsAt vf).tdis = 0 ∧
      (t.fnsAt vf).token = (s.fnsAt vf).token ∧ (t.fnsAt vf).cmd = none ∧ (∀ k r x, x < 16 → bit ((s.groupsAt k).lanesOfFn vf) x = true → (s.groupsAt k).handler = none ∨ 4 ≤ r → (t.groupsAt k).readV r x = 0) ∧
      (∀ k, (s.ctxsAt k).vf = vf → (s.ctxsAt k).owned = true → t.ctxsAt k = Ctx.empty) ∧ t.reg vf 0x20008 = 0 ∧ t.reg vf 0x20048 = 0 ∧ t.reg vf 0x30030 = 0)) ∧
  (∀ (s : State) (vf : Nat), let f := s.fnsAt vf
    0 < vf → vf < 64 → f.session = 2 → s.sec.crs = false →
    (f.tdis = 0 → ∃ t b, exec (.lockInterface vf) s = .next t ∧ (∀ j, t.fnsAt j = if j = vf then { f with tdis := 1, guestOk := b } else s.fnsAt j) ∧
      t.regBits vf 8 7 6 = 1 ∧ { t with fns := s.fns, win := s.win, fresh := s.fresh } = s) ∧
    (f.tdis = 1 → ∃ t, exec (.startInterface vf) s = .next t ∧ (∀ j, t.fnsAt j = if j = vf then { f with tdis := 2 } else s.fnsAt j) ∧
      t.regBits vf 8 7 6 = 2 ∧ { t with fns := s.fns, win := s.win } = s)) ∧
  (∀ (s : State) (fn : Nat), fn < 64 → s.sec.crs = false →
    let f := s.fnsAt fn
    let answers := fun (i : Instr) (code : Nat) (f' : Func) => ∃ body, Does s (exec i s) [.fns fn { f' with lastMsg := code, lastResp := code - 0x80 }, .hostReply (some body), .fresh (s.fresh + 64)] []
    let refuses := fun (i : Instr) (code : Nat) => Does s (exec i s) [.fns fn { f with lastMsg := code, lastResp := 0x7F }, .hostReply none] []
    answers (.getVersion fn) 0x84 f ∧ answers (.getCapabilities fn) 0xE1 f ∧ answers (.negotiateAlgorithms fn) 0xE3 f ∧ answers (.getDigests fn) 0x81 f ∧
    answers (.getCertificate fn) 0x82 f ∧ answers (.challenge fn) 0x83 f ∧
    (∀ x, (1 ≤ x → x ≤ 5 → answers (.getMeasurements fn x) 0xE0 f) ∧ (x = 0 ∨ 5 < x → refuses (.getMeasurements fn x) 0xE0)) ∧
    (f.session ≠ 2 → answers (.keyExchange fn) 0xE4 { f with session := 1 } ∧ refuses (.keyUpdate fn) 0xE9 ∧ refuses (.heartbeat fn) 0xE8 ∧ refuses (.endSession fn) 0xEC) ∧
    (f.session = 1 → answers (.finish fn) 0xE5 { f with session := 2 }) ∧ (f.session ≠ 1 → refuses (.finish fn) 0xE5) ∧
    (f.session = 2 → answers (.keyUpdate fn) 0xE9 f ∧ answers (.heartbeat fn) 0xE8 f ∧ answers (.endSession fn) 0xEC { f with session := 0 } ∧
      (∀ stream, stream < 64 → s.sec.streams.length < 64 →
        Does s (exec (.ideKm fn stream) s) [.sec { s.sec with streams := Tab.put (fun _ => 0) s.sec.streams (64 * fn + stream) 1 }] [])))

/-- O52. For a function whose TDI is not in ERROR: FNSTAT clears the sticky bits written as 1. An enable of a launch queue leaves EN at 0 and sets QCONF
where another enabled queue of the owner has another AWN, and otherwise takes EN; an enable of a ring takes EN, LOC, QLOG and IEN. A cluster entry or
scratch range is ignored with PMBUSY where the map forbids it, and otherwise written. GO starts an idle or faulted context from SQCODE with its
registers zeroed and s1 at SQARG, resumes a stopped one, and STOP asks a running one to stop; out of reach they set ACCV. CMDA holds an argument, and
CMDX sets CMDP and makes a command outstanding, or sets CBUSY. An access to memory reads or writes its bytes where the PF is admitted, otherwise it is
UR. A host request given up writes nothing and releases its slot. The offsets of registers within a launch queue, a ring and a context are presumed
(log 14), and LEN of a scratch range is not checked (log 36). (20_host_security.md R330, 20_host_security.md R331, 20_host_security.md R332,
20_host_security.md R333, 20_host_security.md R335, 20_host_security.md R336, 20_host_security.md R338, 11_ternary_array.md R220, 11_ternary_array.md
R232, 09_memory_model.md R190, 21_program_vf_reset.md R353) -/
def Obligations.HostDrives : Prop :=
  (∀ (s : State) (fn : Nat) (val : BitVec 64), fn < 64 → (s.fnsAt fn).tdis ≠ 3 →
    let key := fn * 67108864
    let sticky := fun (b : Nat) => Effect.win (key + 8) (BitVec.ofNat 64 ((s.reg fn 8).toNat ||| 2 ^ b))
    Does s (exec (.fnstatWrite fn val) s) [.win (key + 8) (s.reg fn 8 &&& ~~~(val &&& 31))] [] ∧
    (∀ q, q < 16 → bit (s.lqc fn q) 63 = false → s.frozenFn fn = false →
      let fields : BitVec 64 := if fn = 0 then 0x7FFFFFFFFFFFE000 else 0x7C03FFFFC0002000
      let x := (s.reg fn (0x10008 + 64 * q) &&& ~~~fields) ||| (val &&& fields)
      let other := ∃ j, j < 16 ∧ j ≠ q ∧ bit (s.lqc fn j) 63 = true ∧ s.lqc fn j / 2 ^ 30 % 2 ^ 20 = x.toNat / 2 ^ 30 % 2 ^ 20 ∧ s.lqc fn j / 2 ^ 14 % 2 ^ 16 ≠ x.toNat / 2 ^ 14 % 2 ^ 16
      (¬ other → Does s (exec (.launchQueueEnable fn q val) s) [.win (key + 0x10008 + 64 * q) (x ||| 0x8000000000000000)] []) ∧
      (other → Does s (exec (.launchQueueEnable fn q val) s) [.win (key + 0x10008 + 64 * q) (x &&& 0x7FFFFFFFFFFFFFFF), sticky 3] [])) ∧
    (∀ r, r < 2 → Does s (exec (.ringEnable fn r val) s) [.win (key + (0x20008 + 64 * r)) ((val &&& 0x7E00000000000000) ||| 0x8000000000000000)] []) ∧
    (∀ k, s.ctxReach fn k = false → Does s (exec (.go fn k val) s) [sticky 0] [] ∧ Does s (exec (.stop fn k) s) [sticky 0] []) ∧
    (∀ k, s.ctxReach fn k = true →
      let c := s.ctxsAt k
      (c.state = 1 → Does s (exec (.stop fn k) s) [.ctxs k { c with stopping := true }] []) ∧
      (c.state = 3 → (s.ctxRegion k).isSome = true → bit val.toNat 1 = false → ∃ t, exec (.go fn k val) s = .next t ∧
        (∀ j, t.ctxsAt j = if j = k then { c with state := 1, stopping := false, closedAt := none, leftHold := none, g := c.g.setFrag 0 { c.g.frag 0 with gate := s.cycle + 1 } } else s.ctxsAt j) ∧
        { t with ctxs := s.ctxs } = s) ∧
      (∀ w co n, c.state = 0 ∨ c.state = 2 → (s.ctxRegion k).isSome = true → bit val.toNat 1 = false →
        let asid := val.toNat / 16 % 2 ^ 20
        let key := w / 2 ^ 271 % 2 ^ 10
        (∀ q, s.asidContext fn asid q = .ok w) → contextOk w = true → (∀ q, s.loadCodeVia (some c.loaded) fn asid key q (k / 4) c.code.toNat = .ok co) →
        (∀ c' : Ctx, c'.state = c.state → c'.g = c.g → State.pinned { s with ctxs := Tab.put (fun _ => Ctx.empty) s.ctxs k c' } (k / 4) co = some n) → n ≠ s.nextId →
        ∃ t, exec (.go fn k val) s = .next t ∧ (∀ j, j ≠ k → t.ctxsAt j = s.ctxsAt j) ∧
          (let d := t.ctxsAt k
           d.state = 1 ∧ d.bdone = 0 ∧ d.batch = 0 ∧ d.closed = [] ∧ d.vf = fn ∧ d.asid = asid ∧ d.key = key ∧ d.owned = true ∧ d.code = c.code ∧ d.entry = c.entry ∧ d.arg = c.arg ∧
           d.g.live = true ∧ d.g.code = n ∧ (∀ r, d.g.readS r = if r = 1 then c.arg else 0) ∧ (∀ r l, d.g.readV r l = 0) ∧ d.g.flags = 0 ∧
           (d.g.frag 0).fst = .live ∧ (d.g.frag 0).pc = c.entry.toNat % 2 ^ 32 / 4 * 4 ∧ (d.g.frag 0).mask = 1) ∧
          t.codes = s.codes)) ∧
    (∀ j tbit, j < 4 → (s.fnsAt fn).tdis ≠ 2 → s.sec.crs = false → Does s (exec (.registerWrite fn (0x10 + 8 * j) 8 val tbit) s) [.win (key + (0x10 + 8 * j)) val] []) ∧
    (∀ tbit, (s.fnsAt fn).tdis ≠ 2 → s.sec.crs = false →
      (bit (s.reg fn 8).toNat 5 = true → Does s (exec (.registerWrite fn 0x30 8 val tbit) s) [sticky 1] []) ∧
      (bit (s.reg fn 8).toNat 5 = false → 1 ≤ val.toNat / 2 ^ 56 → val.toNat / 2 ^ 56 ≤ 12 →
        let args := [(s.reg fn 0x10).toNat, (s.reg fn 0x18).toNat, (s.reg fn 0x20).toNat, (s.reg fn 0x28).toNat, val.toNat % 2 ^ 32]
        Does s (exec (.registerWrite fn 0x30 8 val tbit) s) [sticky 5,
          .fns fn { s.fnsAt fn with cmd := some { op := val.toNat / 2 ^ 56, args := args, node := 0, start := s.cycle, victims := [], short := false, noRun := false, seq := s.nextId, begun := false } },
          .nextId (s.nextId + 1)] [])) ∧
    (∀ o tbit, o % 8 = 0 → 0x10 ≤ o → o < 0x30 → (s.fnsAt fn).tdis ≠ 2 → s.sec.crs = false →
      Does s (exec (.hostAccess (.readReg fn o 8 tbit)) s) [.hostReply (some (toBytes (s.reg fn o).toNat 8))] [])) ∧
  (∀ (s : State) (cl : Nat) (val : BitVec 64), cl < 512 → (∀ v, s.frozenFn v = false) →
    let v := val &&& 0xFFFFFFE000000000
    (s.clusterBusy cl v.toNat = true → Does s (exec (.clusterEntryWrite cl val) s) [.win 8 (BitVec.ofNat 64 ((s.reg 0 8).toNat ||| 4))] []) ∧
    (s.clusterBusy cl v.toNat = false → ∃ t, exec (.clusterEntryWrite cl val) s = .next t ∧ (∀ j, t.winAt j = if j = 0x401000 + 8 * cl then v else s.winAt j) ∧
      (∀ k, t.ctxsAt k = if k / 4 = cl then { s.ctxsAt k with owned := false } else s.ctxsAt k) ∧ { t with win := s.win, ctxs := s.ctxs } = s)) ∧
  (∀ (s : State) (die : Bool) (unit idx : Nat) (val : BitVec 64), (if die then unit < 4 ∧ idx < 32 else unit < 512 ∧ idx < 4) → (∀ v, s.frozenFn v = false) →
    let v := val &&& 0xFFFFFFC000000000
    let at_ := fun (i : Nat) => if die then 0x406000 + 8 * (32 * unit + i) else 0x402000 + 8 * (4 * unit + i)
    let field := fun (x hi lo : Nat) => x / 2 ^ lo % 2 ^ (hi + 1 - lo)
    let meets := fun (x y : Nat) => x / 2 ^ 63 % 2 = 1 ∧ y / 2 ^ 63 % 2 = 1 ∧ field x 56 48 < field y 56 48 + field y 47 38 ∧ field y 56 48 < field x 56 48 + field x 47 38
    let overlaps := ∃ i, i < (if die then 32 else 4) ∧ i ≠ idx ∧ meets v.toNat (s.reg 0 (at_ i)).toNat
    (overlaps → Does s (exec (.scratchRangeWrite die unit idx val) s) [.win 8 (BitVec.ofNat 64 ((s.reg 0 8).toNat ||| 4))] []) ∧
    (¬ overlaps → Does s (exec (.scratchRangeWrite die unit idx val) s) [.win (at_ idx) v] [])) ∧
  (∀ (s : State) (a n : Nat) (data : List Byte),
    (s.barSpan a n = true → Does s (exec (.hostAccess (.readMem a n)) s) [.hostReply (some (s.bytes a n))] []) ∧
    (s.barSpan a n = false → Does s (exec (.hostAccess (.readMem a n)) s) [.hostReply none] []) ∧
    (s.barSpan a data.length = true → ∃ t, exec (.hostAccess (.writeMem a data)) s = .next t ∧ t.bytes a data.length = data ∧
      (∀ x, x < a ∨ a + data.length ≤ x → t.memAt x = s.memAt x) ∧ { t with mem := s.mem, integ := s.integ } = s) ∧
    (s.barSpan a data.length = false → exec (.hostAccess (.writeMem a data)) s = .next s)) ∧
  (∀ (s : State) (n : Nat) (o : Op) (e : Elem) (signed : Bool), s.opsAt n = some o → o.kind = .load signed → o.elems = [e] → e.done = false → 2 ^ 64 ≤ e.key → e.key < 2 ^ 80 →
    (∀ x ∈ o.outs, x.inLanes (2 ^ e.lane) = true) → (∀ d p, o.who ≠ .pipe d p) → (s.fnsAt (s.opFn o)).tdis ≠ 2 →
    ∃ t, exec (.hostCompletionTimeout n) s = .next t ∧ (∀ j, t.opsAt j = if j = n then none else s.opsAt j) ∧
      Others { s with ops := t.ops } t o.who ((s.grp o.who).decSlot o.heirs o.slot))

/-- O53. A source's event enters its FIFO, or is counted as dropped. The next source with a head to dispatch gives it to every armed slot that matches. A
matched run starts in the lowest free pipe with the code that its slot then holds, executes from the same EFC cycle on and charges its function NLEN +
1 steps, or is refused and counted in BDROP where too few are left. A window start sets LEFT to BUDG. A disarmed slot arms exactly when it verifies:
every instruction decodes, no branch passes NLEN, the last is EEND and the resources are valid; a disarm drops its matched runs. A read of EFSC after
a disarm waits for started runs; reads of EFBG, EFRP and FDROP return and clear their counts. A stall run that has ended becomes an event, and at the
end of an interval the bins are latched and sent one in each cycle. (14_event_filter_coprocessor.md R261, 14_event_filter_coprocessor.md R262,
14_event_filter_coprocessor.md R263, 14_event_filter_coprocessor.md R264, 14_event_filter_coprocessor.md R266, 14_event_filter_coprocessor.md R268,
14_event_filter_coprocessor.md R269, 14_event_filter_coprocessor.md R271, 14_event_filter_coprocessor.md R273, 15_program_telemetry.md R284,
22_debug_trace_power.md R366) -/
def Obligations.EventsFlow : Prop :=
  let efcKey := fun (die off : Nat) => 16777216 + 8388608 * die + off
  (∀ (s : State) (die : Nat) (w : BitVec 128), ∃ t, exec (.eventRecord die w) s = .next t ∧ Sends s t die w) ∧
  (∀ (s : State) (die src : Nat) (r : EvRec) (rest : List EvRec) (others : List Nat),
    let e := s.efcsAt die
    let f := s.fifosAt (die * 65536 + src)
    (s.dispatchable die).filter (fun x => decide (e.next ≤ x)) ++ s.dispatchable die = src :: others → f.recs = r :: rest →
    Does s (exec (.efcDispatch die) s) [.fifos (die * 65536 + src) { f with recs := rest, busy := (s.slotsMatching die r.word).length },
      .efcs die { e with next := (src + 1) % 65536, waiting := e.waiting ++ (s.slotsMatching die r.word).map fun n =>
        { slot := n, src := src, word := r.word, carry := r.carry, regs := [], pc := 0, steps := 0, window := 0, readyT := 0, nlen := 0, own := 0, code := [], old := false } }] []) ∧
  (∀ (s : State) (die p : Nat) (r : Run) (rest : List Run), (s.efcsAt die).waiting = r :: rest → p < 4 → s.run die p = none → (∀ j, j < p → s.run die j ≠ none) →
    let e := s.efcsAt die
    let x := s.efsc die r.slot
    let own := x / 2 ^ 54 % 2 ^ 6
    let cost := x / 2 ^ 48 % 2 ^ 6 + 1
    let b := s.efc die (0x5800 + 8 * own)
    let f := s.fifosAt (die * 65536 + r.src)
    (cost ≤ b / 2 ^ 40 % 2 ^ 12 → Does s (exec (.filterRunStart die) s) [.win (efcKey die (0x5800 + 8 * own)) (BitVec.ofNat 64 (b - cost * 2 ^ 40)),
      .efcs die { e with waiting := rest, pipes := Tab.put (fun _ => none) e.pipes p (some { r with window := e.window, readyT := s.efcNow, nlen := cost - 1, own := own, code := (List.range cost).map (s.filterCode die r.slot) }) }] []) ∧
    (b / 2 ^ 40 % 2 ^ 12 < cost → Does s (exec (.filterRunStart die) s) [.win (efcKey die (0x5800 + 8 * own)) (BitVec.ofNat 64 (setBits b 39 8 (min (b / 2 ^ 8 % 2 ^ 32 + 1) (2 ^ 32 - 1)))),
      .efcs die { e with waiting := rest }, .fifos (die * 65536 + r.src) { f with busy := f.busy - 1 }] [])) ∧
  (∀ s : State, ∃ t, exec .budgetWindowStart s = .next t ∧
    (∀ die v, die < 4 → v < 64 → let b := s.efc die (0x5800 + 8 * v)
      t.efc die (0x5800 + 8 * v) = setBits b 51 40 (b / 2 ^ 52) ∧ Tab.get (fun _ => 0) (t.efcsAt die).loaded v = b / 2 ^ 52) ∧
    (∀ die, die < 4 → (t.efcsAt die).window = (s.efcsAt die).window + 1 ∧ (t.efcsAt die).waiting = (s.efcsAt die).waiting ∧ (t.efcsAt die).pipes = (s.efcsAt die).pipes) ∧
    { t with win := s.win, efcs := s.efcs } = s) ∧
  (∀ (s : State) (fn die slot : Nat) (val : BitVec 64), (s.fnsAt fn).tdis ≠ 3 → die < 4 → slot < 64 →
    let key := efcKey die (0x4000 + 16 * slot)
    let old := s.efsc die slot
    let v := val.toNat
    let reach := fn = 0 ∨ old / 2 ^ 54 % 2 ^ 6 = fn
    let a := if fn = 0 then setBits old 59 54 (v / 2 ^ 54) else old
    let b := if bit old 63 then a else setBits a 53 48 (v / 2 ^ 48)
    let x := if bit v 62 then setBits b 62 62 0 else b
    let accv := Effect.win (fn * 67108864 + 8) (BitVec.ofNat 64 ((s.reg fn 8).toNat ||| 1))
    (¬ reach → Does s (exec (.slotArm fn die slot val) s) [accv] [] ∧ Does s (exec (.slotDisarm fn die slot val) s) [accv] []) ∧
    (reach → bit old 63 = true → Does s (exec (.slotArm fn die slot val) s) [.win key (BitVec.ofNat 64 x)] []) ∧
    (reach → bit old 63 = false →
      let r := s.verify die slot (x / 2 ^ 54 % 2 ^ 6) (x / 2 ^ 48 % 2 ^ 6)
      Does s (exec (.slotArm fn die slot val) s) [.win key (BitVec.ofNat 64 (setBits (setBits (setBits x 47 45 r.1) 44 39 r.2) 63 63 (if r.1 = 0 then 1 else 0)))] []) ∧
    (reach → ∃ t, exec (.slotDisarm fn die slot val) s = .next t ∧
      (∀ j, t.winAt j = if j = key then BitVec.ofNat 64 (setBits x 63 63 0) else s.winAt j) ∧
      (∀ d, t.efcsAt d = if d = die then { s.efcsAt die with waiting := (s.efcsAt die).waiting.filter fun r => r.slot != slot, pipes := (s.efcsAt die).aged slot } else s.efcsAt d) ∧
      (∀ j, t.fifosAt j = { s.fifosAt j with busy := (s.fifosAt j).busy - ((s.efcsAt die).waiting.filter fun r => r.slot == slot && die * 65536 + r.src == j).length }) ∧
      { t with win := s.win, efcs := s.efcs, fifos := s.fifos } = s ∧
      ∀ p r, p < 4 → t.run die p = some r → r.slot = slot → r.old = true)) ∧
  (∀ (s : State) (die slot own nlen : Nat), nlen < 64 →
    let x := s.efsr die slot
    let resources := x / 2 ^ 49 % 2 ^ 15 + x / 2 ^ 33 % 2 ^ 16 ≤ 32768 ∧ (own = 0 ∨ s.efc die (0x5A00 + 16 * (x / 2 ^ 29 % 2 ^ 4)) / 2 ^ 39 % 2 ^ 6 = own)
    let passes := ∀ n, n ≤ nlen → ∃ i, decodeFilter (s.filterCode die slot n) = .ok i ∧ (∀ c off, i = .ebf c off → n + off.val ≤ nlen) ∧ (n = nlen → i = .eend)
    ((s.verify die slot own nlen).1 = 0 ↔ passes ∧ resources) ∧ (passes → ¬ resources → s.verify die slot own nlen = (6, 0))) ∧
  (∀ (s : State) (fn die : Nat), (s.fnsAt fn).tdis ≠ 3 →
    (∀ slot, fn = 0 ∨ s.efsc die slot / 2 ^ 54 % 2 ^ 6 = fn →
      let waits := ∃ p r, p < 4 ∧ s.run die p = some r ∧ r.slot = slot ∧ r.old = true
      (¬ waits → Does s (exec (.efscRead fn die slot) s) [.hostReply (some (toBytes (s.efsc die slot) 8))] []) ∧
      (waits → ∃ t, exec (.efscRead fn die slot) s = .next t ∧ t.inputs = (s.cycle + 1, .efscRead fn die slot) :: s.inputs ∧ { t with inputs := s.inputs, hostReply := s.hostReply } = s)) ∧
    (∀ v, fn = 0 ∨ fn = v → let b := s.efc die (0x5800 + 8 * v)
      Does s (exec (.efbgRead fn die v) s) [.hostReply (some (toBytes b 8)), .win (efcKey die (0x5800 + 8 * v)) (BitVec.ofNat 64 (setBits b 39 8 0))] []) ∧
    (∀ ring, fn = 0 ∨ fn = s.efc die (0x5A00 + 16 * ring) / 2 ^ 39 % 2 ^ 6 → let q := s.efc die (0x5A08 + 16 * ring)
      Does s (exec (.efrpRead fn die ring) s) [.hostReply (some (toBytes q 8)), .win (efcKey die (0x5A08 + 16 * ring)) (BitVec.ofNat 64 (setBits q 31 0 0))] []) ∧
    (∀ src, fn = 0 → Does s (exec (.fdropRead fn die src) s) [.hostReply (some (toBytes (s.efc die (0x100000 + 8 * src)) 8)), .win (efcKey die (0x100000 + 8 * src)) 0] []) ∧
    (∀ src, fn ≠ 0 → Does s (exec (.fdropRead fn die src) s) [.hostReply (some (toBytes 0 8)), .win (fn * 67108864 + 8) (BitVec.ofNat 64 ((s.reg fn 8).toNat ||| 1))] [])) ∧
  (∀ (s : State) (n : Nat) (r : Stall) (rest : List Stall), (s.schedsAt n).ended = r :: rest →
    Does s (exec (.noeligRunEnd n) s) [.scheds n { s.schedsAt n with ended := rest }] [(n / 2048, evWord r.start 0 (n % 2048) r.vf r.asid r.cause (r.slot % 64) r.len)]) ∧
  (∀ (s : State) (n : Nat), let x := s.schedsAt n
    x.histStart + 2 ^ (s.efc (n / 2048) 0x5B00 % 32) ≤ s.cycle + 1 →
    ∃ t latched, exec (.histIntervalEnd n) s = .next t ∧ (∀ j, t.schedsAt j = if j = n then { x with hist := [], histStart := s.cycle + 1, latched := latched } else s.schedsAt j) ∧
      (∀ b, b < 65 → Tab.get (fun _ => 0) latched b = min (Tab.get (fun _ => 0) x.hist b) (2 ^ 32 - 1)) ∧
      Tab.get (fun _ => 0) latched 65 = (Tab.get (fun _ => 0) x.latched 65 + 1) % 2 ^ 32 ∧
      t.inputs = s.inputs ++ (List.range 65).map (fun b => (s.cycle + 1 + b, Instr.eventRecord (n / 2048) (evWord (s.cycle + 1 + b) 1 (n % 2048) 0 0 0 b (min (Tab.get (fun _ => 0) x.hist b) (2 ^ 32 - 1))))) ∧
      { t with scheds := s.scheds, inputs := s.inputs } = s)

/-- O54. A free unit passes to its claimer, a claim of a held one is answered with CST, the holder frees it, and a revoked claim passes to the PF in the
cycle in which its status entry is written. A function that may stop a group stops, steps and releases it with a status entry, and an armed precise
stop stops it. TUCTL takes its fields and starts a unit without start lines; reads clear DROP and advance RD by 8 where 8 bytes are there; trigger
lines start and stop units; CBSEL selects an event and zeroes its counter. A P-state moves down or up one step, to P3 at 110 °C, and the device stops
at 120 °C. Bring-up starts the images that pass their checks and holds configuration requests off with CRS until both have been started. Power on,
PERST#, D3cold and a life-cycle change wipe, D3hot closes sessions, and OPEN is entered only in TEST and DEVELOP without confidential mode. That POWER
is written on every die, what D3hot ends, that the life cycle moves by one step and the order in which images are loaded are the model's reading (log
37), and so is it that a precise stop does not come again at the clock of the release (log 41). (22_debug_trace_power.md R355, 22_debug_trace_power.md
R356, 22_debug_trace_power.md R358, 22_debug_trace_power.md R359, 22_debug_trace_power.md R361, 22_debug_trace_power.md R365, 16_faults_preemption.md
R302, 20_host_security.md R344, 20_host_security.md R348, 20_host_security.md R349, 20_host_security.md R350, 20_host_security.md R351) -/
def Obligations.DebugAndPower : Prop :=
  let word := fun (kind code idx arg : Nat) => idx + code * 2 ^ 48 + kind * 2 ^ 56 + arg * 2 ^ 64
  let tells := fun (s : State) (fn w : Nat) => Effect.fns fn { s.fnsAt fn with statWait := (s.fnsAt fn).statWait ++ [w] }
  let claims := fun (s : State) (core : Nat) (bank : Bool) (hold : Option Nat) (rvk : Bool) (cst : Tab Nat → Tab Nat) =>
    if bank then Effect.banks core { s.banksAt core with hold := hold, rvk := rvk, cst := cst (s.banksAt core).cst }
    else .traces core { s.tracesAt core with hold := hold, rvk := rvk, cst := cst (s.tracesAt core).cst, run := (s.tracesAt core).run && hold == (s.tracesAt core).hold }
  (∀ (s : State) (fn core : Nat) (bank : Bool), (s.fnsAt fn).tdis ≠ 3 → core < 2048 → bank = true ∨ s.guestFor fn = true →
    let hold := if bank then (s.banksAt core).hold else (s.tracesAt core).hold
    let rvk := if bank then (s.banksAt core).rvk else (s.tracesAt core).rvk
    let cst := fun (c : Nat) (t : Tab Nat) => Tab.put (fun _ => 0) t fn c
    let pfToo := fn ≠ 0 ∧ ∃ i ∈ s.agenda, pfClaim core bank i = true
    (hold = none → ¬ pfToo → Does s (exec (.claim fn core bank) s) [claims s core bank (some fn) rvk (cst 0)] []) ∧
    (hold = none → pfToo → Does s (exec (.claim fn core bank) s) [claims s core bank none rvk (cst 1)] []) ∧
    (∀ v, hold = some v → Does s (exec (.claim fn core bank) s) [claims s core bank (some v) rvk (cst (if v = fn then 0 else if v = 0 then 1 else 2))] []) ∧
    (hold = some fn → Does s (exec (.release fn core bank) s) [claims s core bank none rvk (cst 0)] []) ∧
    (hold ≠ some fn → exec (.release fn core bank) s = .next s) ∧
    (∀ v, fn = 0 → hold = some v → v ≠ 0 → word 6 (if bank then 2 else 1) 0 core ∉ (s.fnsAt v).statWait →
      Does s (exec (.rvk fn core bank) s) [claims s core bank (some v) true id, tells s v (word 6 (if bank then 2 else 1) 0 core)] [])) ∧
  (∀ (s : State) (core fn : Nat) (bank : Bool) (rest : List Nat), core < 2048 → s.canonical = true → (if bank then (s.banksAt core).rvk else (s.tracesAt core).rvk) = true →
    let w := word 6 (if bank then 2 else 1) 0 core
    (s.fnsAt fn).statWait = w :: rest → w ∉ rest → (∀ v, v ≠ fn → w ∉ (s.fnsAt v).statWait) → (s.fnsAt fn).tdis ≠ 3 →
    let c := (s.reg fn 0x20008).toNat
    let p := (s.reg fn 0x20010).toNat
    bit c 63 = true → bit c 62 = true → bit c 57 = false → (p % 2 ^ 32 + 2 ^ 32 - p / 2 ^ 32) % 2 ^ 32 ≠ 2 ^ (c / 2 ^ 58 % 16) →
    let hold := if bank then (s.banksAt core).hold else (s.tracesAt core).hold
    let another := ∃ h, hold = some h ∧ h ≠ fn ∧ h ≠ 0
    let passes := fun (l : Effect) => Does s (exec (.revocationComplete core bank) s) ([Effect.fresh (s.fresh + 1)] ++
      storeBytes (2 ^ 64 + ((s.reg fn 0x20000).toNat + 16 * (p % 2 ^ 32 % 2 ^ (c / 2 ^ 58 % 16))) % 2 ^ 64) (toBytes w 16) ++
      [.win (fn * 67108864 + 0x20010) (BitVec.ofNat 64 (p / 2 ^ 32 * 2 ^ 32 + (p % 2 ^ 32 + 1) % 2 ^ 32)), .fns fn { s.fnsAt fn with statWait := rest }, l]) []
    (¬ another → passes (claims s core bank (some 0) false (fun t => Tab.put (fun _ => 0) t 0 0))) ∧ (another → passes (claims s core bank hold false id))) ∧
  (∀ (s : State) (fn : Nat) (val : BitVec 64), (s.fnsAt fn).tdis ≠ 3 → s.guestFor fn = true →
    let v := val.toNat
    let k := v / 2 ^ 46 % 2 ^ 11 * 256 + v / 2 ^ 38 % 2 ^ 8
    let g := s.groupsAt k
    let res := fun (x : Nat) => Effect.win (fn * 67108864 + 0x800018) (BitVec.ofNat 64 (x * 2 ^ 36))
    let entry := fun (code : Nat) => tells s fn (word 7 code (k % 256) g.retired.toNat)
    (g.live = false → Does s (exec (.dbcmdStop fn val) s) [res 2] [] ∧ Does s (exec (.dbcmdStep fn val) s) [res 2] [] ∧ Does s (exec (.dbcmdGo fn val) s) [res 2] []) ∧
    (g.live = true → s.mayStop fn g = false → Does s (exec (.dbcmdStop fn val) s) [res 1] [] ∧ Does s (exec (.dbcmdStep fn val) s) [res 1] [] ∧ Does s (exec (.dbcmdGo fn val) s) [res 1] []) ∧
    (g.live = true → s.mayStop fn g = true →
      Does s (exec (.dbcmdStop fn val) s) [res 0, .groups k { g with stop := { g.stop with stopped := true, fn := fn, step := none } }, entry 0] [] ∧
      (g.handler = none → Does s (exec (.dbcmdGo fn val) s) [res 0, .groups k { g with stop := { g.stop with stopped := false, step := none, passed := g.clk + 1 } }, entry 0] []) ∧
      (∀ i, g.stepFrag v = some i → g.stop.stopped = true → g.handler = none → (g.frag i).slot ≠ 0 →
        Does s (exec (.dbcmdStep fn val) s) [res 0, .groups k { g with stop := { g.stop with fn := fn, step := some i, base := g.clk } }] []) ∧
      (g.stepFrag v = none → Does s (exec (.dbcmdStep fn val) s) [res 0, entry 1] [])) ∧
    (g.live = true → g.handler = none → g.stop.stopped = false → g.stop.passed ≠ g.clk + 1 → s.mayStop fn g = true →
      let a := (s.reg fn 0x800008).toNat
      bit a 63 = true → g.ckptn = a % 2 ^ 32 → g.retired = s.reg fn 0x800010 → (∃ e, e < 16 ∧ (g.owner e).valid = true ∧ (g.owner e).vf = fn ∧ (g.owner e).asid = a / 2 ^ 43 % 2 ^ 20 ∧ (g.owner e).lanes &&& g.pres ≠ 0) →
      Does s (exec (.preciseStop k fn) s) [.groups k { g with stop := { g.stop with stopped := true, fn := fn, step := none } }, entry 0] [])) ∧
  (∀ (s : State) (fn core : Nat), (s.fnsAt fn).tdis ≠ 3 →
    let u := s.tracesAt core
    (s.traceReach fn core = true →
      (∀ val : BitVec 64, let v := val.toNat
        ∃ t, exec (.tuctlWrite fn core val) s = .next t ∧ (∀ a, a < traceKey core 0 ∨ traceKey core 16384 ≤ a → t.memAt a = s.memAt a) ∧
          (∀ c, c ≠ core → t.tracesAt c = s.tracesAt c) ∧ { t with mem := s.mem, traces := s.traces } = s ∧
          (let u' := t.tracesAt core
           u'.en = bit v 63 ∧ u'.run = (bit v 63 && (u.run || decide (v / 2 ^ 46 % 2 ^ 8 = 0))) ∧ u'.gsl = v / 2 ^ 54 % 2 ^ 8 ∧ u'.tsta = v / 2 ^ 46 % 2 ^ 8 ∧ u'.tstp = v / 2 ^ 38 % 2 ^ 8 ∧
           u'.hold = u.hold ∧ u'.rd = u.rd)) ∧
      Does s (exec (.tuctlRead fn core) s) [.hostReply (some (toBytes ((if u.en then 2 ^ 63 else 0) + (if s.recording core then 2 ^ 62 else 0) + u.gsl * 2 ^ 54 + u.tsta * 2 ^ 46 + u.tstp * 2 ^ 38 + u.drop % 2 ^ 32 * 2 ^ 6) 8)),
        .traces core { u with drop := 0 }] [] ∧
      ((u.wr + 2 ^ 32 - u.rd) % 2 ^ 32 < 8 ∨ 2 ^ 31 ≤ (u.wr + 2 ^ 32 - u.rd) % 2 ^ 32 → Does s (exec (.tbdataRead fn core) s) [.hostReply (some (toBytes 0 8))] []) ∧
      (8 ≤ (u.wr + 2 ^ 32 - u.rd) % 2 ^ 32 → (u.wr + 2 ^ 32 - u.rd) % 2 ^ 32 < 2 ^ 31 → u.gap = false ∨ s.recording core = false → Does s (exec (.tbdataRead fn core) s)
        [.hostReply (some ((List.range 8).map fun i => s.memAt (traceKey core ((u.rd + i) % 16384)))), .traces core { u with rd := (u.rd + 8) % 2 ^ 32 }] [])) ∧
    (∀ i (val : BitVec 64), i < 8 → core < 2048 → (s.banksAt core).hold = some fn ∨ (fn = 0 ∧ s.dbg = 2) →
      let b := s.banksAt core
      let sel := val.toNat / 2 ^ 52 % 2 ^ 12 * 2 ^ 52 + (if fn = 0 ∧ bit val.toNat 51 = true then 2 ^ 51 else 0)
      Does s (exec (.cbselWrite fn core i val) s) [.banks core { b with sel := Tab.put (fun _ => 0) b.sel i (BitVec.ofNat 64 sel), val := Tab.put (fun _ => 0) b.val i 0 }] [])) ∧
  (∀ (s : State) (die : Nat), (s.efcsAt die).trig ≠ 0 → s.canonical = true → ∃ t, exec (.traceTrigger die) s = .next t ∧ (t.efcsAt die).trig = 0 ∧
    ∀ core, let u := s.tracesAt core
      (core / 512 ≠ die → t.tracesAt core = u) ∧
      (core / 512 = die → u.tstp &&& (s.efcsAt die).trig ≠ 0 → (t.tracesAt core).run = false) ∧
      (core / 512 = die → u.tstp &&& (s.efcsAt die).trig = 0 → u.tsta &&& (s.efcsAt die).trig ≠ 0 → u.en = true → (t.tracesAt core).run = true) ∧
      (core / 512 = die → u.tstp &&& (s.efcsAt die).trig = 0 → u.tsta &&& (s.efcsAt die).trig = 0 → (t.tracesAt core).run = u.run)) ∧
  (∀ (s : State) (watts tj : Nat) (hot10 cool10 : Bool), s.sec.power = 0 → s.traces = [] →
    let x := s.sec
    let mv := fun (p : Nat) => if p = 0 then 820 else if p = 1 then 750 else if p = 2 then 680 else 620
    let mhz := fun (p : Nat) => if p = 0 then 850 else if p = 1 then 700 else if p = 2 then 550 else 400
    let logged := fun (y : Sec) (new why : Nat) => { y with log := Tab.put (fun _ => 0) x.log x.logNext (BitVec.ofNat 64 (s.cycle % 2 ^ 32 * 2 ^ 32 + x.pstate * 2 ^ 30 + new * 2 ^ 28 + why * 2 ^ 26 + mv new * 2 ^ 16 + min tj 255 * 2 ^ 8 + 1)), logNext := (x.logNext + 1) % 16 }
    let moves := fun (new why : Nat) => new ≠ x.pstate → Does s (exec (.powerEvaluation watts tj hot10 cool10) s) [.sec (logged { x with pstate := new } new why)]
      ([0, 1, 2, 3].map fun die => (die, eventWord s 7 0 0 0 new 0 (mhz new)))
    (120 ≤ tj → Does s (exec (.powerEvaluation watts tj hot10 cool10) s) [.sec (logged { x with power := 3 } 3 2)] []) ∧
    (110 ≤ tj → tj < 120 → moves 3 2) ∧ (tj < 110 → hot10 = true → moves (min (x.pstate + 1) 3) 0) ∧
    (100 < tj → tj < 110 → hot10 = false → moves (min (x.pstate + 1) 3) 1) ∧
    (hot10 = false → cool10 = true → watts < 2300 → tj < 95 → moves (x.pstate - 1) 3)) ∧
  (∀ s : State,
    let x := s.sec
    let y := { x with conf := x.confNext, power := 0, pstate := 0, streams := [], log := [], logNext := 0 }
    let z := fun (straps : Nat) => { y with peerId := straps % 1024, secOk := false, rtOk := false, cdi0 := 0, cdi1 := 0 }
    (∀ straps a b, exec (.powerOn ⟨straps, some a, some b⟩) s = .next (s.wiped { ((z straps).layerZero a).layerOne b with crs := false }) ∧
      exec (.powerOn ⟨straps, some a, none⟩) s = .next (s.wiped { (z straps).layerZero a with crs := true }) ∧
      exec (.powerOn ⟨straps, none, some b⟩) s = .next (s.wiped { z straps with crs := true })) ∧ exec .perst s = .next (s.wiped y) ∧ exec .d3cold s = .next (s.wiped { y with power := 2 }) ∧
    (x.lcs < 3 → exec .lifeCycleChange s = .next (s.wiped { y with lcs := x.lcs + 1, conf := x.conf && decide (x.lcs < 2), confNext := x.confNext && decide (x.lcs < 2) })) ∧
    (∀ version image,
      (x.secOk = false → Does s (exec (.firmwareImageLoad true version image) s) [.sec { x.layerZero (version, image) with crs := !x.rtOk }] []) ∧
      (x.secOk = true → x.rtOk = false → Does s (exec (.firmwareImageLoad true version image) s) [.sec { x.layerOne (version, image) with crs := false }] []) ∧
      (x.layerZero (version, image)).secVer = version ∧ (x.layerZero (version, image)).secImg = image ∧ (x.layerOne (version, image)).rtVer = version ∧
      (x.layerOne (version, image)).rtImg = image ∧
      Does s (exec (.firmwareImageLoad false version image) s) [.sec { x with crs := true }] []) ∧
    (x.power = 1 → Does s (exec .d3hotExit s) [.sec { x with power := 0 }] []) ∧
    (x.power = 0 → s.canonical = true → ∃ t, exec .d3hotEntry s = .next t ∧ t.sec = { x with power := 1 } ∧ (∀ c, (t.tracesAt c).hold = none ∧ (t.tracesAt c).run = false ∧ (t.tracesAt c).en = false) ∧
      (∀ v, v < 64 → t.reg v 0x800000 = 0) ∧ (∀ k, (t.ctxsAt k).state ≠ 1) ∧ t.keys = s.keys ∧ t.frames = s.frames) ∧
    (∀ d : Fin 4, x.power = 0 → d ≠ 3 → (d = 2 → x.conf = false ∧ x.lcs < 2) → Does s (exec (.debugStateChange d) s) [.dbg d.val] []) ∧
    (x.conf = true ∨ 2 ≤ x.lcs → exec (.debugStateChange 2) s = .next s))

/-- O55. A flit that arrives clears its path's count of retries and a bad one raises it and comes again before any other; at its ninth failure (the
model's reading, log 30) the path is down. A packet that is acknowledged, refused or given up leaves its pair, a read that is acknowledged waits for
its answer, and a stale or repeated flit is sealed or sent again; an answer under a generation that is not live, or whose tag fails, is not taken. A
second NAK of a flit starts a rekey, of which three within a second take the pair down (the model's reading, log 19). A packet is delivered once,
after the packet of its granule before it, and one under a generation that is not live is not; markers are counted and answered. Rotations are asked
for, installed, switched to and retired, each direction for itself, and a rekey covers both. A chunk with the contribution of every rank is folded and
each member is sent its part (that it waits for every rank, and that a stale contribution is found before members that disagree, is the model's
reading, log 30), a stale contribution completes its chunks at once, and a chunk without a result at CTMO ends as timed out. What the links leave to
the implementation is the model's choice (log 51). (19_fabric_collectives.md R315, 19_fabric_collectives.md R316, 19_fabric_collectives.md R317,
19_fabric_collectives.md R319, 19_fabric_collectives.md R320, 19_fabric_collectives.md R321, 19_fabric_collectives.md R323, 19_fabric_collectives.md
R324, 19_fabric_collectives.md R325, 19_fabric_collectives.md R327, 19_fabric_collectives.md R329) -/
def Obligations.Fabric : Prop :=
  let us := 2618000
  let last := 2 ^ 47 - 1
  let flows := fun (s : State) (peer : Nat) => (s.peersAt peer).down = false ∧ (s.peersAt peer).rekeying = false ∧ s.livePorts peer ≠ 0
  let opened := fun (s : State) (peer : Nat) => flows s peer ∧ (s.sec.conf = false ∨ (s.peersAt peer).slot0 ≠ 0 ∨ (s.peersAt peer).slot1 ≠ 0)
  let live := fun (s : State) (peer : Nat) (kg : Bool) => (s.peersAt peer).inSlot kg = 1 ∨ ((s.peersAt peer).in0 = 0 ∧ (s.peersAt peer).in1 = 0 ∧ s.sec.conf = false)
  let has := fun (k : Packet) (kg : Bool) (fctr : Nat) => k.kg = kg ∧ k.fctr ≤ fctr ∧ fctr < k.fctr + k.flits ∧ fctr < last
  let gone := fun (p : Peer) (seq now : Nat) =>
    { p with out := p.out.filter (fun j => j.isMarker || j.seq != seq), waiting := p.waiting.filter (fun j => j.seq != seq), progress := now }
  let sealed := fun (p : Peer) => { p with fctr := min (p.fctr + 1) last }
  let recent := fun (s : State) (peer : Nat) => (s.peersAt peer).rekeys.filter fun t => decide (s.time < t + 1000000 * us)
  let rekeyed := fun (s : State) (o : Answer) (peer : Nat) =>
    let p := s.peersAt peer
    (recent s peer).length < 3 → Does s o [.peers peer { p with rekeying := true, tagFail := [], switched := none, inSwitched := none, fresh := false, asked := p.asked || p.fresh, naks := [], rekeys := recent s peer ++ [s.time] }] []
  let resealed := fun (s : State) (o : Answer) (peer : Nat) (q : Peer) =>
    let sum := fun (l : List Packet) => (l.map (·.flits)).sum
    q.fctr = 0 ∧ sum q.out ≤ last ∧ ∃ t, o = .next t ∧ { t with peers := s.peers } = s ∧ (∀ x, x ≠ peer → t.peersAt x = s.peersAt x) ∧
      { t.peersAt peer with out := q.out } = { q with fctr := sum q.out } ∧
      ∀ i, (t.peersAt peer).out[i]? = q.out[i]?.map fun k => { (k : Packet) with kg := q.kg, fctr := sum (q.out.take i), sentAt := s.time }
  let quietIn := fun (s : State) => ∀ p ∈ s.peers, p.2.held = []
  (∀ (s : State) (path op elem : Nat) (ok : Bool), quietIn s →
    let id := 512 * (1 + op * 2 ^ 48 + elem)
    (s.pathsAt path = 0 → s.flitPath op elem = some path → Does s (exec (.flitReceive path op elem ok) s) [.paths path (if ok then 0 else id + 1)] []) ∧
    (∀ n, 0 < n → n < 9 → s.pathsAt path = id + n → Does s (exec (.flitReceive path op elem ok) s) [.paths path (if ok then 0 else id + n + 1)] []) ∧
    (s.pathsAt path ≠ 0 → s.pathsAt path / 512 * 512 ≠ id → exec (.flitReceive path op elem ok) s = .next s)) ∧
  (∀ (s : State) (op elem path : Nat) (o : Op) (e : Elem), s.opsAt op = some o → o.elems[elem]? = some e →
    (e.done = false → (o.kind ≠ .tmov ∨ e.got = true) → homeDie e.key ≠ (grpPos o.who).1 → s.pathFor (grpPos o.who).1 e.key = some path → s.flitPath op elem = some path) ∧
    (e.done = false → o.kind = .tmov → e.got = false → homeDie e.cmp ≠ (grpPos o.who).1 → s.pathFor (grpPos o.who).1 e.cmp = some path → s.flitPath op elem = some path) ∧
    (e.done = true → s.flitPath op elem = none)) ∧
  (∀ (s : State) (path : Nat), quietIn s → 9 ≤ s.pathsAt path % 512 → s.pathsAt (path / 2 * 2 + (1 - path % 2)) ≠ 256 → Does s (exec (.pathDown path) s) [.paths path 256] []) ∧
  (∀ (s : State) (x : Sealed) (seq : Nat) (flit : FlitName), flows s x.peer →
    let p := s.peersAt x.peer
    ∀ i, i = .ackFlit x seq ∨ i = .refusalFlit x seq ∨ i = .staleFlit x flit →
      (¬ live s x.peer x.kg → Does s (exec i s) [.peers x.peer (sealed p)] []) ∧
      (live s x.peer x.kg → x.tagOk = false → (x.kg, x.fctr) ∉ p.tagFail → Does s (exec i s) [.peers x.peer { p with tagFail := p.tagFail ++ [(x.kg, x.fctr)] }] []) ∧
      (live s x.peer x.kg → x.tagOk = false → (x.kg, x.fctr) ∈ p.tagFail → rekeyed s (exec i s) x.peer)) ∧
  (∀ (s : State) (x : Sealed) (seq : Nat) (k : Packet), opened s x.peer → live s x.peer x.kg → x.tagOk = true →
    let peer := x.peer
    let p := s.peersAt peer
    let q := gone p seq s.time
    (p.data seq = some k → k.fctr < last →
      (∀ id d, k.kind = .reply id d → Does s (exec (.ackFlit x seq) s) [.peers peer q] []) ∧
      (∀ id i o, k.kind = .access id i → s.opsAt id = some o → o.kind = .load false → Does s (exec (.ackFlit x seq) s) [.peers peer { q with waiting := q.waiting ++ [k] }] []) ∧
      (∀ id i o e, k.kind = .access id i → s.opsAt id = some o → o.kind = .store → o.elems[i]? = some e → o.slot ≠ 0 →
        Does s (exec (.ackFlit x seq) s) [.peers peer q, .ops id (some { o with elems := setAt o.elems i { e with done := true } })] [])) ∧
    (p.request seq = some k →
      (∀ id d, k.kind = .reply id d → Does s (exec (.refusalFlit x seq) s) [.peers peer q] []) ∧
      (∀ id i e, k.kind = .access id i → s.opsAt id = none → s.engsAt id = some e → e.fail = none → e.done = false →
        Does s (exec (.refusalFlit x seq) s) [.peers peer q, .engs id (some { e with fail := some (cUncorrectable, e.addr i) })] []))) ∧
  (∀ (s : State) (peer fctr : Nat) (kg : Bool) (k : Packet) (a b : List Packet), opened s peer → (s.peersAt peer).out = a ++ [k] ++ b → has k kg fctr →
    (∀ j ∈ a ++ b, ¬ has j kg fctr) →
    let p := s.peersAt peer
    let stale := fun (o : Answer) => ∃ x : Sealed, x.peer = peer ∧ live s peer x.kg ∧ x.tagOk = true ∧ o = exec (.staleFlit x ⟨kg, fctr⟩) s
    (∀ o, stale o → (∀ id part, k.kind ≠ .contribution id part) → p.fctr + k.flits ≤ last → Does s o
      [.peers peer { p with out := a ++ [{ k with kg := p.kg, fctr := p.fctr, sentAt := s.time }] ++ b, fctr := p.fctr + k.flits }] []) ∧
    (∀ o, stale o → ∀ id part, k.kind = .contribution id part → Does s o
      [.peers peer { p with out := p.out.filter (fun j => j.isMarker || j.seq != k.seq), waiting := p.waiting.filter fun j => j.seq != k.seq }] []) ∧
    (kg ≠ p.kg ∨ fctr < p.fctr → (kg, fctr) ∉ p.naks → Does s (exec (.nakFlit peer ⟨kg, fctr⟩) s)
      [.peers peer { p with out := a ++ [{ k with tries := k.tries + 1, sentAt := s.time }] ++ b, naks := p.naks ++ [(kg, fctr)] }] [])) ∧
  (∀ (s : State) (peer fctr : Nat) (kg : Bool), opened s peer →
    let p := s.peersAt peer
    kg ≠ p.kg ∨ fctr < p.fctr →
    ((kg, fctr) ∈ p.naks → rekeyed s (exec (.nakFlit peer ⟨kg, fctr⟩) s) peer) ∧
    ((kg, fctr) ∉ p.naks → (∀ j ∈ p.out, ¬ has j kg fctr) → Does s (exec (.nakFlit peer ⟨kg, fctr⟩) s) [.peers peer { p with naks := p.naks ++ [(kg, fctr)] }] [])) ∧
  (∀ (s : State) (peer seq : Nat),
    let p := s.peersAt peer
    let less := { p with out := p.out.filter (fun j => j.seq != seq), waiting := p.waiting.filter fun j => j.seq != seq }
    (opened s peer → (∃ k ∈ p.out, k.seq = seq ∧ k.sentAt + 20 * us ≤ s.time) → Does s (exec (.retransmitTimeout peer seq) s)
      [.peers peer { p with out := p.out.map fun j => if (j.seq == seq && decide (j.sentAt + 20 * us ≤ s.time)) = true then { (j : Packet) with tries := j.tries + 1, sentAt := s.time } else j }] []) ∧
    (∀ k id e, (p.out ++ p.waiting).filter (fun j => j.seq == seq) = [k] → s.engsAt id = some e → e.done = false → e.fail = none →
      p.down = true ∨ 64 ≤ k.tries ∨ p.progress + 10000 * us ≤ s.time →
        (∀ part a d, k.kind = .contribution id part → e.kind = .coll a d → Does s (exec (.transportGiveUp peer seq) s)
          [.peers peer less, .engs id (some { e with fail := some (cUncorrectable, d / 2 ^ 448 % 2 ^ 64) })] []) ∧
        (∀ i, k.kind = .access id i → s.opsAt id = none → Does s (exec (.transportGiveUp peer seq) s)
          [.peers peer less, .engs id (some { e with fail := some (cUncorrectable, e.addr i) })] [])) ∧
    (∀ k m, p.out.filter (fun j => j.seq == seq) = [k, m] → p.waiting.filter (fun j => j.seq == seq) = [] → p.down = false → s.time < p.progress + 10000 * us → 64 ≤ k.tries → m.tries < 64 →
      ∃ t, exec (.transportGiveUp peer seq) s = .next t ∧ k ∉ (t.peersAt peer).out ∧ m ∈ (t.peersAt peer).out)) ∧
  (∀ (s : State) (peer : Nat) (kg : Bool) (fctr seq : Nat) (prev : Option Nat) (more : Bool) (req : PeerReq), flows s peer →
    let p := s.peersAt peer
    let ran := fun (ok : Bool) => exec (.dataFlit peer kg fctr seq ok ⟨req, more, prev⟩) s
    let h : Inbound := { seq := seq, prev := prev, req := req }
    let turn := prev = none ∨ ∃ x, prev = some x ∧ p.delivered x = true
    let fresh := p.delivered seq = false ∧ ∀ j ∈ p.held, j.seq ≠ seq
    (live s peer kg → (kg, fctr) ∉ p.tagFail → Does s (ran false) [.peers peer { p with tagFail := p.tagFail ++ [(kg, fctr)] }] []) ∧
    (live s peer kg → (kg, fctr) ∈ p.tagFail → rekeyed s (ran false) peer) ∧
    (¬ live s peer kg → ∀ ok, (∀ comm tag rank kind ty opr root cnt part data, req ≠ .contribution comm tag rank kind ty opr root cnt part data) →
      Does s (ran ok) [.peers peer (sealed p)] []) ∧
    (¬ live s peer kg → ∀ ok comm tag rank kind ty opr root cnt part data, req = .contribution comm tag rank kind ty opr root cnt part data →
      (p.delivered seq = true → Does s (ran ok) [.peers peer (sealed p)] []) ∧
      (p.delivered seq = false → p.held = [] → p.markers = [] →
        let lost : Contrib := { comm := comm, tag := tag, rank := rank, kind := kind, ty := ty, opr := opr, root := root, cnt := cnt, part := part, data := [], stale := true }
        (bit (s.comm comm) 63 = false → Does s (ran ok) [.peers peer (sealed p), .contribs (s.contribs ++ [lost]), .peers peer ((sealed p).took seq)] []) ∧
        (bit (s.comm comm) 63 = true → comm < 256 → tag < 65536 → kind < 4 → ty < 64 → opr < 8 → root < 64 → cnt < 2 ^ 32 →
          let d := cnt * 2 ^ 352 + tag * 2 ^ 336 + comm * 2 ^ 328 + root * 2 ^ 322 + kind * 2 ^ 320 + ty * 2 ^ 314 + opr * 2 ^ 311
          ∃ t, ran ok = .next t ∧ t.contribs = s.contribs ++ [lost] ∧ { t with peers := s.peers, contribs := s.contribs, results := s.results } = s ∧
            ∀ j, 4096 * j < s.collTotal d → j % (s.comm comm / 2 ^ 51 % 64 + 1) = s.comm comm / 2 ^ 45 % 64 → rank ∈ s.chunkFrom d j → s.chunkStat d j = none →
              ∃ r ∈ t.results, r.comm = comm ∧ r.tag = tag ∧ r.chunk = j ∧ r.stat = 2))) ∧
    (p.seen = [] → seq = p.inNext → (p.took seq).inNext = (seq + 1) % 2 ^ 32 ∧ (p.took seq).seen = []) ∧
    (p.inNext ∉ p.seen → seq ≠ p.inNext → p.took seq = { p with seen := p.seen ++ [seq] }) ∧
    (live s peer kg → more = true → Does s (ran true) [] []) ∧
    (live s peer kg → more = false → ¬ fresh → Does s (ran true) [.peers peer (sealed p)] []) ∧
    (live s peer kg → more = false → fresh → ¬ turn → (∀ j ∈ p.held, p.turn j = false) → p.markers = [] →
      Does s (ran true) [.peers peer { p with held := p.held ++ [h] }, .peers peer (sealed { p with held := p.held ++ [h] })] []) ∧
    (live s peer kg → more = false → fresh → turn → p.held = [] → p.markers = [] → s.reqWaits req = false →
      let q := (sealed p).took seq
      let takes := fun (l : List Effect) => Does s (ran true) ([Effect.peers peer { p with held := [h] }, .peers peer (sealed { p with held := [h] }), .peers peer q] ++ l) []
      (∀ id hpa data, req = .write id hpa data → takes (if s.granted peer hpa data.length 61 = true ∧ s.pairDown ioDie hpa = false then storeBytes hpa data else [.peers peer (sealed q)])) ∧
      (∀ id hpa n, req = .read id hpa n → s.granted peer hpa n 62 = false ∨ s.pairDown ioDie hpa = true ∨ s.lineBad hpa n = true → takes [.peers peer (sealed q)]) ∧
      (∀ id hpa n, req = .read id hpa n → s.granted peer hpa n 62 = true → s.pairDown ioDie hpa = false → s.lineBad hpa n = false → ∃ t, ran true = .next t ∧ t.mem = s.mem ∧
        ∃ k, (t.peersAt peer).out = p.out ++ [k] ∧ k.kind = .reply id (s.bytes hpa n) ∧ k.seq = p.seq) ∧
      (∀ comm tag chunk stat part data, req = .result comm tag chunk stat part data →
        takes [.results (s.results ++ [{ comm := comm, tag := tag, chunk := chunk, stat := stat, part := part, data := data }])]) ∧
      (∀ comm tag rank kind ty opr root cnt part data, req = .contribution comm tag rank kind ty opr root cnt part data →
        takes [.contribs (s.contribs ++ [{ comm := comm, tag := tag, rank := rank, kind := kind, ty := ty, opr := opr, root := root, cnt := cnt, part := part, data := data, stale := false }])]))) ∧
  (∀ (s : State) (peer : Nat) (kg : Bool) (fctr seq count : Nat), flows s peer →
    let p := s.peersAt peer
    let ran := fun (reply ok : Bool) => exec (.markerFlit peer kg fctr seq (if reply = true then none else some count) ok) s
    let got := ((p.markers.find? fun m => m.seq == seq).map (·.got)).getD []
    let now := if (kg, fctr) ∈ got then got else got ++ [(kg, fctr)]
    let others := p.markers.filter fun m => m.seq != seq
    let next := { p with markers := others ++ [{ seq := seq, count := count, got := now }] }
    let idle := ∀ m ∈ p.markers, m.seq ≠ seq → m.got.length < m.count
    (¬ live s peer kg → ∀ reply ok, Does s (ran reply ok) [.peers peer (sealed p)] []) ∧
    (live s peer kg → ∀ reply, (kg, fctr) ∉ p.tagFail → Does s (ran reply false) [.peers peer { p with tagFail := p.tagFail ++ [(kg, fctr)] }] []) ∧
    (live s peer kg → ∀ reply, (kg, fctr) ∈ p.tagFail → rekeyed s (ran reply false) peer) ∧
    (live s peer kg → Does s (ran true true) [.peers peer { p with out := p.out.filter (fun k => !(k.isMarker && k.seq == seq)), progress := s.time }] []) ∧
    (live s peer kg → idle → now.length < count → Does s (ran false true) [.peers peer next] []) ∧
    (live s peer kg → idle → count ≤ now.length → seqAhead p.inNext seq = 0 ∨ 2 ^ 31 ≤ seqAhead p.inNext seq →
      Does s (ran false true) [.peers peer next, .peers peer { p with markers := others }, .peers peer (sealed { p with markers := others })] []) ∧
    (live s peer kg → idle → 0 < seqAhead p.inNext seq → seqAhead p.inNext seq < 2 ^ 31 → Does s (ran false true) [.peers peer next] [])) ∧
  (∀ (s : State) (fn : Nat) (c : Cmd), Commands s fn 12 c → fn = 0 → c.args.getD 0 0 < 1024 →
    let p := s.peersAt (c.args.getD 0 0)
    (p.rekeying = false → p.fresh = false → p.switched = none → Ends s (exec (.rotate fn) s) [.peers (c.args.getD 0 0) { p with asked := true }] fn c 0) ∧
    (p.rekeying = true ∨ p.fresh = true ∨ p.switched ≠ none → Ends s (exec (.rotate fn) s) [] fn c 3)) ∧
  (∀ (s : State) (peer : Nat),
    let p := s.peersAt peer
    let does := fun (step : KeyStep) (q : Peer) => Does s (exec (.keyInstalled ⟨peer, step⟩) s) [.peers peer q] []
    let quiet := p.down = false ∧ p.rekeying = false
    let grace := (s.reg 0 0x418000).toNat * us
    (2 ^ 46 ≤ p.fctr → p.asked = false → p.fresh = false → Does s (exec (.rotationRequest peer) s) [.peers peer { p with asked := true }] []) ∧
    (quiet → p.slot0 = 0 → p.slot1 = 0 → (p.out.map (·.flits)).sum ≤ last →
      resealed s (exec (.keyInstalled ⟨peer, .outbound⟩) s) peer { p with slot0 := 1, kg := false, fctr := 0, asked := false }) ∧
    (quiet → p.slot0 ≠ 0 ∨ p.slot1 ≠ 0 → p.fresh = false → p.slot (!p.kg) ≠ 1 → does .outbound { p with fresh := true, asked := false }) ∧
    (quiet → p.in0 = 0 → p.in1 = 0 → does .inbound { p with in0 := 1, inKg := false }) ∧
    (quiet → p.in0 ≠ 0 ∨ p.in1 ≠ 0 → p.inSlot (!p.inKg) ≠ 1 → does .inbound (if p.inKg then { p with in0 := 1 } else { p with in1 := 1 })) ∧
    (quiet → p.fresh = true → (∀ k ∈ p.out, k.fctr < last) → does .switch
      { p with slot0 := (if p.kg then 1 else p.slot0), slot1 := (if p.kg then p.slot1 else 1), kg := !p.kg, fctr := 0, fresh := false, switched := some s.time }) ∧
    (quiet → p.inSwitched = none → p.inSlot (!p.inKg) = 1 → does .peerSwitch { p with inKg := !p.inKg, inSwitched := some s.time }) ∧
    (∀ step, p.down = true → Does s (exec (.keyInstalled ⟨peer, step⟩) s) [] []) ∧
    (∀ step, p.down = false → p.rekeying = true → (p.out.map (·.flits)).sum ≤ last → resealed s (exec (.keyInstalled ⟨peer, step⟩) s) peer
      { p with slot0 := (if p.kg then 1 else 2), slot1 := (if p.kg then 2 else 1), in0 := (if p.inKg then 1 else 2), in1 := (if p.inKg then 2 else 1), kg := !p.kg, inKg := !p.inKg, rekeying := false, fctr := 0 }) ∧
    (∀ t, p.switched = some t → t + grace ≤ s.time → Does s (exec (.keyGraceExpiry ⟨peer, false⟩) s)
      [.peers peer { p with slot0 := (if p.kg then 2 else p.slot0), slot1 := (if p.kg then p.slot1 else 2), switched := none }] []) ∧
    (∀ t, p.inSwitched = some t → t + grace ≤ s.time → Does s (exec (.keyGraceExpiry ⟨peer, true⟩) s)
      [.peers peer { p with in0 := (if p.inKg then 2 else p.in0), in1 := (if p.inKg then p.in1 else 2), inSwitched := none }] [])) ∧
  (∀ (s : State) (port : Nat), port < 12 →
    (∃ t, exec (.externalPortDown ⟨port, none⟩) s = .next t ∧ { t with sec := { t.sec with ports := s.sec.ports } } = s ∧ ∀ j, t.sec.ports.testBit j = (s.sec.ports.testBit j && decide (j ≠ port))) ∧
    (∃ t, exec (.externalPortUp ⟨port, none⟩) s = .next t ∧ { t with sec := { t.sec with ports := s.sec.ports } } = s ∧ ∀ j, t.sec.ports.testBit j = (s.sec.ports.testBit j || decide (j = port))) ∧
    (∀ k, (∃ m, Does s (exec (.externalPortDown ⟨port, some k⟩) s) [.peers k { s.peersAt k with ports := m }] [] ∧
        ∀ j, m.testBit j = ((s.peersAt k).ports.testBit j && decide (j ≠ port))) ∧
      (∃ m, Does s (exec (.externalPortUp ⟨port, some k⟩) s) [.peers k { s.peersAt k with ports := m }] [] ∧
        ∀ j, m.testBit j = ((s.peersAt k).ports.testBit j || decide (j = port))))) ∧
  (∀ (s : State) (coll : Nat) (e : EngOp) (a d : Nat), s.engsAt coll = some e → e.kind = .coll a d → e.taken = true → e.done = false →
    let comm := d / 2 ^ 328 % 256
    let tag := d / 2 ^ 336 % 65536
    let n := s.comm comm / 2 ^ 51 % 64 + 1
    let rank := s.comm comm / 2 ^ 45 % 64
    let kind := d / 2 ^ 320 % 4
    let w := collWidth (d / 2 ^ 314 % 64)
    let bytes := d / 2 ^ 352 % 2 ^ 32 * w
    let total := if kind = 2 then n * bytes else bytes
    let result := fun (j stat : Nat) (data : List Byte) => ({ comm := comm, tag := tag, chunk := j, stat := stat, part := 0, data := data } : ChunkRes)
    let slice := fun (k j : Nat) (data : List Byte) => let p := s.chunkPart d k j; (data.drop p.2.1).take p.2.2
    let ends := fun (o : Answer) (j stat : Nat) (data : List Byte) => ∃ t, o = .next t ∧ t.results = s.results ++ [result j stat (slice rank j data)] ∧
      (∀ k, k < n → k ≠ rank → ∃ p ∈ (t.peersAt (s.member (s.comm comm / 2 ^ 33 % 4096 + k))).out, p.kind = .result coll j 0) ∧ { t with results := s.results, peers := s.peers } = s
    let cs := s.contribs.filter fun c => c.comm == comm && c.tag == tag
    (∀ chunk, chunk * 4096 < total → chunk % n = rank → s.chunkStat d chunk = none →
      let needs := fun (k : Nat) => k < n ∧ (kind = 3 → k = d / 2 ^ 322 % 64) ∧ (kind = 2 → k * bytes < 4096 * chunk + 4096 ∧ 4096 * chunk < (k + 1) * bytes)
      let dropped := ∃ c ∈ cs, c.stale = true ∧ (kind = 3 ∧ c.rank = d / 2 ^ 322 % 64 ∨ kind ≠ 3 ∧ needs c.rank)
      let len := min 4096 (total - 4096 * chunk)
      let ran := exec (.chunkReduce coll chunk) s
      (∀ k, kind ≠ 1 → s.chunkPart d k chunk = (4096 * chunk, 0, len)) ∧
      (dropped → ends ran chunk 2 []) ∧
      (¬ dropped → (∃ c ∈ cs, c.stale = false ∧ (c.kind ≠ kind ∨ c.ty ≠ d / 2 ^ 314 % 64 ∨ c.opr ≠ d / 2 ^ 311 % 8 ∨ c.cnt ≠ d / 2 ^ 352 % 2 ^ 32 ∨ c.root ≠ d / 2 ^ 322 % 64)) → ends ran chunk 4 []) ∧
      (¬ dropped → s.collClash d = false →
        ((∃ k, k < n ∧ s.contribHere d k = false) → Does s ran [] []) ∧
        ((∀ k, k < n → s.contribHere d k = true) →
          (kind = 3 → ends ran chunk 1 (((s.contribData d (d / 2 ^ 322 % 64)).drop (4096 * chunk)).take len)) ∧
          (kind < 2 → ends ran chunk 1 ((List.range (len / w)).flatMap fun i =>
            toBytes (collFold (d / 2 ^ 314 % 64) (d / 2 ^ 311 % 8) ((List.range n).map fun k => ofBytes (((s.contribData d k).drop (w * (4096 * chunk / w + i))).take w))) w))))) ∧
    (∀ k c, cs.filter (fun x => x.rank == k) = [c] → c.stale = false → s.contribData d k = c.data ∧ (bytes ≤ c.data.length → s.contribHere d k = true)) ∧
    (e.turn + s.part e.owner.vf 2 / 2 ^ 32 % 2 ^ 32 * us ≤ s.time → ∃ t, exec (.ctmoExpiry coll) s = .next t ∧
      t.results = s.results ++ (((List.range ((total + 4095) / 4096)).filter fun j => (s.chunkStat d j).isNone).map fun j => result j 3 []) ∧ { t with results := s.results, peers := s.peers } = s) ∧
    ((∀ q, s.collPutDone e statBase ((a + 7) % 2 ^ 64) 1 q = true) →
      let ended := fun (t : State) => t.engsAt coll = none ∨ ∃ e', t.engsAt coll = some e' ∧ e'.done = true
      (e.stale = true → ∃ t, exec (.collComplete coll) s = .next t ∧ ended t ∧ t.contribs = s.contribs ∧ t.results = s.results) ∧
      (e.stale = false → e.fail = none → (∀ j, j * 4096 < total → s.chunkStat d j ≠ none) →
        (∀ p ∈ s.collPieces e d, p.1 ∈ e.early ∧ ∀ q, ∃ k, s.engPut e p.2.1 p.2.2.length q = .home k) → ∃ t, exec (.collComplete coll) s = .next t ∧
        ended t ∧ t.results = s.results.filter (fun r => r.comm != comm || r.tag != tag) ∧ t.contribs = s.contribs.filter (fun c => c.comm != comm || c.tag != tag))))

/-- O56. For every well-formed instruction of the core set or the filter set, its encoding has 32, 64, 96 or 128 bits, and the decoder reads from these
bits that very instruction, so no field is dropped or shared. Two well-formed instructions with one encoding are the same. Exactly the instructions of
the two sets have an encoding, whatever their operands, and a word decodes to one of them only. (03_encoding_assembly.md R50, 03_encoding_assembly.md
R53, 03_encoding_assembly.md R60, 03_encoding_assembly.md R62, 03_encoding_assembly.md R65, 03_encoding_assembly.md R66,
14_event_filter_coprocessor.md R272) -/
def Obligations.DecodeInvertsEncode : Prop :=
  (∀ (i : Instr) (n w : Nat), i.wf = true → encode i = some (n, w) →
    (n = 32 ∨ n = 64 ∨ n = 96 ∨ n = 128) ∧ w < 2 ^ n ∧ decodeTableWord n w = some i) ∧
  (∀ i j : Instr, i.wf = true → j.wf = true → encode i ≠ none → encode i = encode j → i = j) ∧
  (∀ i : Instr, encode i ≠ none ↔ i.encoded = true) ∧
  (∀ (n w : Nat) (i : Instr), decodeTableWord n w = some i → i.encoded = true)

/-- O57. From every state whose memory and tables are in canonical form (keys strictly rising, and no entry that equals what an unlisted key reads as), a
step that answers a next state, whatever instruction, event or clock tick it carries out, gives one whose memory and tables are in canonical form. The
canonical form is the model's own, and equal contents are equal data under it. (08_memory_spaces.md R160) -/
def Obligations.StepKeepsCanonicalForm : Prop :=
  (∀ s t : State, s.canonical = true → step s = .next t → t.canonical = true ∧ Memory.wf t.mem = true) ∧
  (∀ a b : Memory, Memory.wf a = true → Memory.wf b = true →
    (∀ k, Tab.get zeroByte a k = Tab.get zeroByte b k) → a = b)

/-- O58. In the state after reset every byte of memory, every general register, accumulator and table entry is 0, no group is live, every sequencer
context is idle with STATE 0b00, no frame has an attribute or key, no core is fenced, the debug state is CLOSED, HLOG of every EFHI is 16, DTLIM, CTMO
and KGRACE hold their reset values, no work is pending, and the state is in canonical form. The times are 0, which is the model's choice (log 5).
(20_host_security.md R348, 22_debug_trace_power.md R354, 14_event_filter_coprocessor.md R271, 20_host_security.md R335) -/
def Obligations.ResetState : Prop :=
  let s := State.reset
  s.canonical = true ∧ s.agenda = [] ∧ s.inputs = [] ∧ s.ops = [] ∧ s.cycle = 0 ∧ s.time = 0 ∧ s.dbg = 0 ∧
  (∀ a, s.memAt a = 0) ∧ (∀ k, (s.groupsAt k).live = false) ∧ (∀ k, (s.ctxsAt k).state = 0) ∧ (∀ k, s.accAt k = 0 ∧ s.accMetaAt k = 0) ∧
  (∀ k, s.framesAt k = 0) ∧ (∀ k, s.keysAt k = 0) ∧ (∀ k, (s.coresAt k).fenced = false) ∧ (∀ k, (s.fifosAt k).recs = []) ∧
  (∀ k r l, (s.groupsAt k).readV r l = 0 ∧ (s.groupsAt k).readS r = 0) ∧
  s.efc 0 0x5B00 = 16 ∧ s.efc 1 0x5B00 = 16 ∧ s.efc 2 0x5B00 = 16 ∧ s.efc 3 0x5B00 = 16 ∧
  (∀ v, v < 64 → s.regBits 0 (0x400000 + 64 * v + 8) 60 29 = 1700000 ∧ s.regBits 0 (0x400000 + 64 * v + 16) 63 32 = 100000) ∧
  (s.reg 0 0x418000).toNat = 1000

/-- O59. When the model's agenda names a live fragment, a running context or a pipe, and the bytes at its PC, which do not cross a 32-byte line and lie
inside the text, decode to an instruction, the step is exec of that instruction with that issuer's turn and its transfer target forgotten, and with a
free choice, for each lane and each s register with a write outstanding whose value is known, of the old or the new value (R22). When the agenda names
an event, the step is exec of that event; when it names an EFC cycle, the step begins it; when it names the choice of what issues, the step makes it.
A pipe's instruction is that of the code with which its run started. The agenda and its order are the model's (log 1). (01_sequential_machine.md R14,
01_sequential_machine.md R22, 03_encoding_assembly.md R49, 03_encoding_assembly.md R67, 14_event_filter_coprocessor.md R272) -/
def Obligations.StepRunsDecoded : Prop :=
  ∀ (s : State) (rest : List Item) (i : Instr),
    let u := { s with agenda := rest }
    let mix := fun (w : Issuer) => ((u.lateS w).zipIdx.map fun p => (p.1.1, p.1.2, u.freeAt p.2 % 65536) : Tab (DWord × Nat))
    let drawn := fun (w : Issuer) => if u.lateS w = [] then [] else [Effect.fresh (s.fresh + (u.lateS w).length)]
    let reads := fun (g : Group) (f : Frag) (w : Issuer) => ∃ n,
      let text := s.textOf g
      let len := textAt text f.pc 1 % 4
      len ≠ 3 ∧ 8 * n = lenBits len ∧ f.pc + n ≤ text.length ∧ f.pc % 32 + n ≤ 32 ∧
        decodeCore (s.decCtx w) (textAt text f.pc n) = .ok i
    (∀ k j, s.agenda = .issue (.grp k j) :: rest → (s.groupsAt k).live = true → ((s.groupsAt k).frag j).fst = .live →
      reads (s.groupsAt k) ((s.groupsAt k).frag j) (.grp k j) →
      step s = exec i (runAll u ([.turn (.grp k j),
        .groups k { (s.groupsAt k).setFrag j { (s.groupsAt k).frag j with target := false } with mix := mix (.grp k j) }] ++ drawn (.grp k j)))) ∧
    (∀ k, s.agenda = .issue (.ctx k) :: rest → (s.ctxsAt k).state = 1 → ((s.ctxsAt k).g.frag 0).fst = .live →
      reads (s.ctxsAt k).g ((s.ctxsAt k).g.frag 0) (.ctx k) →
      step s = exec i (runAll u ([.turn (.ctx k),
        .ctxs k { s.ctxsAt k with g := { (s.ctxsAt k).g.setFrag 0 { (s.ctxsAt k).g.frag 0 with target := false } with mix := mix (.ctx k) } }] ++
          drawn (.ctx k)))) ∧
    (∀ d p r, s.agenda = .issue (.pipe d p) :: rest → Tab.get (fun _ => none) (s.efcsAt d).pipes p = some r → r.readyT ≤ s.efcNow →
      decodeFilter (r.code.getD r.pc 0) = .ok i → step s = exec i (runAll u [.turn (.pipe d p)])) ∧
    (s.agenda = .event i :: rest → step s = exec i u) ∧
    (s.agenda = .plan :: rest → step s = Prog.plan.go u) ∧
    (∀ t, s.agenda = .clock t :: rest → step s = .next { u with efcNow := t })

/-- O60. The word that Table 3.14 assembles is FFMA v10, v11, v12, v13 guarded by p3 with its waits; IADD.i32 v3, v2, v2, LD.i32 v2, [s4 + 0x40] at device
scope, MZERO of rows 5 to 12 of the implied region, EXIT, RETT and EVLD.vf e3, each written field by field, decode to these instructions; a word with
the unassigned opcode 0x0F decodes to none. (03_encoding_assembly.md R50, 03_encoding_assembly.md R55, 03_encoding_assembly.md R56,
03_encoding_assembly.md R58, 03_encoding_assembly.md R62, 14_event_filter_coprocessor.md R272) -/
def Obligations.DecodedWords : Prop :=
  let h0 : Hdr := { stall := 0, gp := 0, gn := false, sbs := 0, sbw := 0 }
  decodeTableWord 96 (0x0000000D * 2 ^ 64 + 0x06030160 * 2 ^ 32 + 0xA0C4C909) =
    some (.ffma { stall := 2, gp := 3, gn := false, sbs := 1, sbw := 6 } .rn 10 (.v 11) (.v 12) (.v 13)) ∧
  decodeTableWord 64 (0 + 0x00 * 2 ^ 2 + 3 * 2 ^ 28 + 2 * 2 ^ 37 + 2 * 2 ^ 46 + 0x02 * 2 ^ 55) = some (.iadd h0 .i32 false 3 (.v 2) (.reg (.v 2))) ∧
  decodeTableWord 128 (2 + 0xC0 * 2 ^ 2 + 2 * 2 ^ 28 + 0x144 * 2 ^ 37 + 0x02 * 2 ^ 55 + 0x40 * 2 ^ 64 + 2 * 2 ^ 96) =
    some (.ld h0 (.int .i32) .x1 false .dev 2 (.reg (.s 4) 0x40)) ∧
  decodeTableWord 128 (2 + 0xE8 * 2 ^ 2 + 5 * 2 ^ 64 + 7 * 2 ^ 74) = some (.mzero h0 .implied 5 7) ∧
  decodeTableWord 64 (0 + 0x8C * 2 ^ 2) = some (.exit h0) ∧
  decodeTableWord 64 (0 + 0xF1 * 2 ^ 2) = some (.rett h0) ∧
  decodeTableWord 32 (1 * 2 ^ 26 + 3 * 2 ^ 22 + 3) = some (.evld 3 .vf) ∧
  decodeTableWord 64 (0 + 0x0F * 2 ^ 2) = none
end

