-- ==== Sys2Proof/Laws/Tab.lean ====
section
/-! SUPPORT. Laws of tables: reading back a write, frames, and that every table operation keeps the form. -/

namespace Sys2Proof.Machine
variable {α : Type} [DecidableEq α]

theorem Tab.wfFrom_mono {d : Nat → α} : ∀ {t : Tab α} {a b : Nat}, b ≤ a → Tab.wfFrom d a t = true → Tab.wfFrom d b t = true
  | [], _, _, _, _ => rfl
  | (k, v) :: t, a, b, h, w => by
    simp only [Tab.wfFrom, Bool.and_eq_true, decide_eq_true_eq] at w ⊢
    exact ⟨Nat.le_trans h w.1, w.2⟩

theorem Tab.get_low {d : Nat → α} : ∀ {t : Tab α} {lo k : Nat}, Tab.wfFrom d lo t = true → k < lo → Tab.get d t k = d k
  | [], _, _, _, _ => rfl
  | (j, v) :: t, lo, k, w, h => by
    simp only [Tab.wfFrom, Bool.and_eq_true, decide_eq_true_eq] at w
    have : k ≠ j := by omega
    simp only [Tab.get, this, if_false]
    exact Tab.get_low w.2.2 (by omega)

theorem Tab.wfFrom_del {d : Nat → α} : ∀ {t : Tab α} {lo k : Nat}, Tab.wfFrom d lo t = true → Tab.wfFrom d lo (Tab.del t k) = true
  | [], _, _, _ => rfl
  | (j, v) :: t, lo, k, w => by
    simp only [Tab.wfFrom, Bool.and_eq_true, decide_eq_true_eq] at w
    have ih := Tab.wfFrom_del (k := k) w.2.2
    by_cases h : j = k
    · simp only [Tab.del, h, if_true]; exact Tab.wfFrom_mono (by omega) ih
    · simp only [Tab.del, h, if_false, Tab.wfFrom, Bool.and_eq_true, decide_eq_true_eq]; exact ⟨w.1, w.2.1, ih⟩
omit [DecidableEq α] in

theorem Tab.get_del {d : Nat → α} : ∀ {t : Tab α} {k j : Nat}, Tab.get d (Tab.del t k) j = if j = k then d j else Tab.get d t j
  | [], k, j => by simp [Tab.del, Tab.get]
  | (i, v) :: t, k, j => by
    have ih := Tab.get_del (d := d) (t := t) (k := k) (j := j)
    by_cases h : i = k
    · subst h
      by_cases hj : j = i
      · subst hj; simpa [Tab.del] using ih
      · simp [Tab.del, Tab.get, ih, hj]
    · by_cases hj : j = i
      · subst hj; simp [Tab.del, Tab.get, h]
      · simp [Tab.del, Tab.get, h, hj, ih]

theorem Tab.wfFrom_put {d : Nat → α} : ∀ {t : Tab α} {lo k : Nat} {v : α}, Tab.wfFrom d lo t = true → lo ≤ k →
    Tab.wfFrom d lo (Tab.put d t k v) = true
  | [], lo, k, v, _, h => by
    by_cases hv : v = d k <;> simp [Tab.put, Tab.wfFrom, hv, h]
  | (j, x) :: t, lo, k, v, w, h => by
    simp only [Tab.wfFrom, Bool.and_eq_true, decide_eq_true_eq] at w
    obtain ⟨w1, w2, w3⟩ := w
    by_cases h1 : k < j
    · by_cases hv : v = d k
      · have := Tab.wfFrom_del (k := k) w3
        simp [Tab.put, h1, hv, Tab.wfFrom, w1, w2, this] at *
      · have : k + 1 ≤ j := h1
        simp [Tab.put, h1, hv, Tab.wfFrom, h, this]; simp_all
    · by_cases h2 : k = j
      · subst h2
        by_cases hv : v = d k
        · simp [Tab.put, hv]; exact Tab.wfFrom_mono (by omega) (Tab.wfFrom_del w3)
        · simp [Tab.put, hv, Tab.wfFrom, w1, w3]
      · have := Tab.wfFrom_put (v := v) w3 (show j + 1 ≤ k by omega)
        simp [Tab.put, h1, h2, Tab.wfFrom, w1, this]; simp_all

theorem Tab.wf_put {d : Nat → α} {t : Tab α} (k : Nat) (v : α) (w : Tab.wf d t = true) : Tab.wf d (Tab.put d t k v) = true :=
  Tab.wfFrom_put w (Nat.zero_le k)

/-- Reading after a write, of a table in any form. -/
theorem Tab.get_put {d : Nat → α} : ∀ {t : Tab α} (k : Nat) (v : α) (j : Nat),
    Tab.get d (Tab.put d t k v) j = if j = k then v else Tab.get d t j
  | [], k, v, j => by
    by_cases hv : v = d k
    · by_cases hj : j = k <;> simp [Tab.put, hv, Tab.get, hj]
    · simp [Tab.put, hv, Tab.get]
  | (i, x) :: t, k, v, j => by
    by_cases h1 : k < i
    · by_cases hv : v = d k
      · by_cases hj : j = k
        · subst hj
          have : j ≠ i := by omega
          simp [Tab.put, h1, hv, Tab.get, this, Tab.get_del]
        · simp [Tab.put, h1, hv, Tab.get, hj, Tab.get_del]
      · simp [Tab.put, h1, hv, Tab.get]
    · by_cases h2 : k = i
      · subst h2
        by_cases hv : v = d k
        · by_cases hj : j = k
          · subst hj; simp [Tab.put, hv, Tab.get_del]
          · simp [Tab.put, hv, Tab.get, hj, Tab.get_del]
        · by_cases hj : j = k <;> simp [Tab.put, hv, Tab.get, hj]
      · have ih := Tab.get_put (d := d) (t := t) k v j
        by_cases hj : j = i
        · subst hj
          have : ¬ j = k := fun h => h2 h.symm
          simp [Tab.put, h1, h2, Tab.get, this]
        · simp [Tab.put, h1, h2, Tab.get, hj, ih]

/-- What was written is read back. -/
@[simp] theorem Tab.get_put_self {d : Nat → α} {t : Tab α} (k : Nat) (v : α) : Tab.get d (Tab.put d t k v) k = v := by simp [Tab.get_put]

/-- A write leaves every other key alone. -/
theorem Tab.get_put_ne {d : Nat → α} {t : Tab α} {k j : Nat} {v : α} (h : j ≠ k) : Tab.get d (Tab.put d t k v) j = Tab.get d t j := by
  simp [Tab.get_put, h]

theorem keepHost_wfFrom : ∀ {t : Memory} {lo : Nat}, Tab.wfFrom zeroByte lo t = true → Tab.wfFrom zeroByte lo (keepHost t) = true
  | [], _, _ => rfl
  | (k, v) :: t, lo, w => by
    simp only [Tab.wfFrom, Bool.and_eq_true, decide_eq_true_eq] at w
    have ih := keepHost_wfFrom w.2.2
    by_cases h : k < 18446744073709551616
    · simp only [keepHost, h, if_true]; exact Tab.wfFrom_mono (by omega) ih
    · simp only [keepHost, h, if_false, Tab.wfFrom, Bool.and_eq_true, decide_eq_true_eq]; exact ⟨w.1, w.2.1, ih⟩

theorem keepHost_wf {t : Memory} (w : Tab.wf zeroByte t = true) : Tab.wf zeroByte (keepHost t) = true := keepHost_wfFrom w

theorem clearRange_wfFrom (a n : Nat) : ∀ {t : Memory} {lo : Nat}, Tab.wfFrom zeroByte lo t = true →
    Tab.wfFrom zeroByte lo (clearRange a n t) = true
  | [], _, _ => rfl
  | (k, v) :: t, lo, w => by
    simp only [Tab.wfFrom, Bool.and_eq_true, decide_eq_true_eq] at w
    have ih := clearRange_wfFrom a n w.2.2
    by_cases h : a ≤ k ∧ k < a + n
    · simp only [clearRange, h, and_self, if_true]; exact Tab.wfFrom_mono (by omega) ih
    · simp only [clearRange, h, if_false, Tab.wfFrom, Bool.and_eq_true, decide_eq_true_eq]; exact ⟨w.1, w.2.1, ih⟩

theorem clearRange_wf (a n : Nat) {t : Memory} (w : Tab.wf zeroByte t = true) : Tab.wf zeroByte (clearRange a n t) = true :=
  clearRange_wfFrom a n w

theorem get_keepHost : ∀ (t : Memory) (k : Nat),
    Tab.get zeroByte (keepHost t) k = if k < 18446744073709551616 then 0 else Tab.get zeroByte t k
  | [], k => by simp [keepHost, Tab.get, zeroByte]
  | (j, v) :: t, k => by
    have ih := get_keepHost t k
    by_cases h : j < 18446744073709551616
    · by_cases hk : k = j
      · subst hk; simp [keepHost, h, ih]
      · simp [keepHost, h, ih, Tab.get, hk]
    · by_cases hk : k = j
      · subst hk; simp [keepHost, h, Tab.get]
      · simp [keepHost, h, Tab.get, hk, ih]

theorem get_clearRange (a n : Nat) : ∀ (t : Memory) (k : Nat),
    Tab.get zeroByte (clearRange a n t) k = if a ≤ k ∧ k < a + n then 0 else Tab.get zeroByte t k
  | [], k => by simp [clearRange, Tab.get, zeroByte]
  | (j, v) :: t, k => by
    have ih := get_clearRange a n t k
    by_cases h : a ≤ j ∧ j < a + n
    · by_cases hk : k = j
      · subst hk; simp [clearRange, h, ih]
      · simp [clearRange, h, ih, Tab.get, hk]
    · by_cases hk : k = j
      · subst hk; simp [clearRange, h, Tab.get]
      · simp [clearRange, h, Tab.get, hk, ih]

end Sys2Proof.Machine
end

