-- ==== Sys2Proof/Laws/Regs.lean ====
section
/-! SUPPORT. Laws of a group's registers: what one register result does, and what a list of results does. -/

namespace Sys2Proof.Machine

/-! ## Tables of a group -/

@[simp] theorem Group.frag_setFrag (g : Group) (i j : Nat) (f : Frag) : (g.setFrag i f).frag j = if j = i then f else g.frag j := by
  simp [Group.frag, Group.setFrag, Tab.get_put]

@[simp] theorem Frag.slotAt_setSlot (f : Frag) (k j n : Nat) : (f.setSlot k n).slotAt j = if j = k then n else f.slotAt j := by
  simp [Frag.slotAt, Frag.setSlot, Tab.get_put]

/-! ## One result -/

theorem key_inj {r l r' l' : Nat} (h : l < 16) (h' : l' < 16) : 16 * r + l = 16 * r' + l' ↔ r = r' ∧ l = l' := by omega

theorem Group.writeOut_v (g : Group) (r l x m : Nat) : g.writeOut ⟨.v, r, l, x, m⟩ =
    { g with v := Tab.put (fun _ => 0) g.v (16 * r + l) (BitVec.ofNat 32 x) } := rfl

theorem Group.readV_writeOut_v (g : Group) (r l x m r' l' : Nat) (h : l < 16) (h' : l' < 16) :
    (g.writeOut ⟨.v, r, l, x, m⟩).readV r' l' = if r' = r ∧ l' = l then BitVec.ofNat 32 x else g.readV r' l' := by
  simp [Group.readV, Group.writeOut_v, Tab.get_put, key_inj h' h]

theorem Group.writeOut_flags (g : Group) (r l x : Nat) : g.writeOut ⟨.flags, r, l, x, 1⟩ =
    { g with flags := g.flags ||| (BitVec.ofNat 64 x &&& flagsW1c) } := rfl

/-- A result that is not of file v leaves the v registers. -/
theorem Group.writeOut_v_of_ne {g : Group} {o : Out} (h : o.file ≠ .v) : (g.writeOut o).v = g.v := by
  obtain ⟨f, r, l, x, m⟩ := o
  cases f <;> simp [Group.writeOut] at h ⊢ <;> (repeat' split) <;> rfl

theorem Group.writeOut_flags_of_ne {g : Group} {o : Out} (h : o.file ≠ .flags) : (g.writeOut o).flags = g.flags := by
  obtain ⟨f, r, l, x, m⟩ := o
  cases f <;> simp [Group.writeOut] at h ⊢ <;> (repeat' split) <;> rfl

/-! ## Lists of results

A register that some result writes, and every result that writes it writes the same value to, has that value; a register that no
result writes keeps its own. -/

theorem Group.writeOuts_nil (g : Group) : g.writeOuts [] = g := rfl

theorem foldl_writeOut_readV_keep {r l : Nat} (hl : l < 16) : ∀ (outs : List Out) (g : Group),
    (∀ o ∈ outs, o.file = .v → o.lane < 16 ∧ ¬ (o.reg = r ∧ o.lane = l)) → (outs.foldl Group.writeOut g).readV r l = g.readV r l
  | [], _, _ => rfl
  | o :: t, g, h => by
    rw [List.foldl_cons, foldl_writeOut_readV_keep hl t _ (fun o' ho => h o' (by simp [ho]))]
    by_cases hv : o.file = .v
    · obtain ⟨f, r', l', x, m⟩ := o
      subst hv
      have := h _ (List.mem_cons_self) rfl
      rw [Group.readV_writeOut_v _ _ _ _ _ _ _ this.1 hl]
      have : ¬ (r = r' ∧ l = l') := fun e => this.2 ⟨e.1.symm, e.2.symm⟩
      simp [this]
    · simp [Group.readV, Group.writeOut_v_of_ne hv]

theorem foldl_writeOut_readV {r l : Nat} {x : Word} (hl : l < 16) : ∀ (outs : List Out) (g : Group),
    (∀ o ∈ outs, o.file = .v → o.lane < 16) → (∀ o ∈ outs, o.file = .v → o.reg = r → o.lane = l → BitVec.ofNat 32 o.val = x) →
    (∃ o ∈ outs, o.file = .v ∧ o.reg = r ∧ o.lane = l) → (outs.foldl Group.writeOut g).readV r l = x
  | [], _, _, _, ⟨o, ho, _⟩ => absurd ho List.not_mem_nil
  | o :: t, g, h1, h2, h3 => by
    rw [List.foldl_cons]
    by_cases ht : ∃ o' ∈ t, o'.file = .v ∧ o'.reg = r ∧ o'.lane = l
    · exact foldl_writeOut_readV hl t _ (fun o' ho => h1 o' (by simp [ho])) (fun o' ho => h2 o' (by simp [ho])) ht
    · rw [foldl_writeOut_readV_keep hl t _ (fun o' ho hv => ⟨h1 o' (by simp [ho]) hv, fun e => ht ⟨o', ho, hv, e⟩⟩)]
      obtain ⟨o', ho, hv, hr, hl'⟩ := h3
      rcases List.mem_cons.1 ho with rfl | ho
      · have hx := h2 o' (by simp) hv hr hl'
        obtain ⟨f, r', l', y, m⟩ := o'
        simp only at hv hr hl' hx
        subst hv hr hl'
        rw [Group.readV_writeOut_v _ _ _ _ _ _ _ hl hl]; simp [hx]
      · exact absurd ⟨o', ho, hv, hr, hl'⟩ ht

theorem foldl_writeOut_v : ∀ (outs : List Out) (g : Group), (∀ o ∈ outs, o.file ≠ .v) → (outs.foldl Group.writeOut g).v = g.v
  | [], _, _ => rfl
  | o :: t, g, h => by
    rw [List.foldl_cons, foldl_writeOut_v t _ (fun o' ho => h o' (by simp [ho])), Group.writeOut_v_of_ne (h o (by simp))]

theorem Out.sets_file {o : Out} (h : o.sets = true) : o.file = .status ∨ o.file = .flags := by
  simp [Out.sets] at h; exact h.1

/-- Results of file v, and any that set sticky bits. -/
theorem Group.readV_writeOuts {outs : List Out} {r l : Nat} {x : Word} (g : Group) (hl : l < 16)
    (h1 : ∀ o ∈ outs, o.file = .v → o.lane < 16) (h2 : ∀ o ∈ outs, o.file = .v → o.reg = r → o.lane = l → BitVec.ofNat 32 o.val = x)
    (h3 : ∃ o ∈ outs, o.file = .v ∧ o.reg = r ∧ o.lane = l) : (g.writeOuts outs).readV r l = x := by
  unfold Group.writeOuts
  simp only [Group.readV]
  rw [foldl_writeOut_v _ _ (fun o ho e => by
    have := Out.sets_file (List.mem_filter.1 ho).2
    rw [e] at this; simp at this)]
  refine foldl_writeOut_readV hl _ g (fun o ho => h1 o (List.mem_filter.1 ho).1) (fun o ho => h2 o (List.mem_filter.1 ho).1) ?_
  obtain ⟨o, ho, hv, hr⟩ := h3
  exact ⟨o, List.mem_filter.2 ⟨ho, by simp [Out.sets, hv]⟩, hv, hr⟩

theorem Group.readV_writeOuts_keep {outs : List Out} {r l : Nat} (g : Group) (hl : l < 16)
    (h : ∀ o ∈ outs, o.file = .v → o.lane < 16 ∧ ¬ (o.reg = r ∧ o.lane = l)) : (g.writeOuts outs).readV r l = g.readV r l := by
  unfold Group.writeOuts
  simp only [Group.readV]
  rw [foldl_writeOut_v _ _ (fun o ho e => by
    have := Out.sets_file (List.mem_filter.1 ho).2
    rw [e] at this; simp at this)]
  exact foldl_writeOut_readV_keep hl _ g (fun o ho => h o (List.mem_filter.1 ho).1)

/-! ## FLAGS -/

theorem foldl_writeOut_flags_keep : ∀ (outs : List Out) (g : Group), (∀ o ∈ outs, o.file ≠ .flags) →
    (outs.foldl Group.writeOut g).flags = g.flags
  | [], _, _ => rfl
  | o :: t, g, h => by
    rw [List.foldl_cons, foldl_writeOut_flags_keep t _ (fun o' ho => h o' (by simp [ho])), Group.writeOut_flags_of_ne (h o (by simp))]

theorem foldl_writeOut_flags_bit (j : Nat) : ∀ (outs : List Out) (g : Group), (∀ o ∈ outs, o.file = .flags → o.msk = 1) →
    ((outs.foldl Group.writeOut g).flags.getLsbD j = true ↔ g.flags.getLsbD j = true ∨
      ∃ o ∈ outs, o.file = .flags ∧ (BitVec.ofNat 64 o.val &&& flagsW1c).getLsbD j = true)
  | [], _, _ => by simp
  | o :: t, g, h => by
    rw [List.foldl_cons, foldl_writeOut_flags_bit j t _ (fun o' ho => h o' (by simp [ho]))]
    by_cases hf : o.file = .flags
    · have hm := h o (by simp) hf
      obtain ⟨f, r, l, x, m⟩ := o
      simp only at hf hm
      subst hf hm
      simp [Group.writeOut_flags, or_assoc]
    · rw [Group.writeOut_flags_of_ne hf]; simp [hf]

/-- FLAGS gains the bits that some result sets. -/
theorem Group.flags_writeOuts (g : Group) {outs : List Out} (h : ∀ o ∈ outs, o.file = .flags → o.msk = 1) (j : Nat) :
    (g.writeOuts outs).flags.getLsbD j = true ↔ g.flags.getLsbD j = true ∨
      ∃ o ∈ outs, o.file = .flags ∧ (BitVec.ofNat 64 o.val &&& flagsW1c).getLsbD j = true := by
  unfold Group.writeOuts
  simp only
  rw [foldl_writeOut_flags_bit j _ _ (fun o ho => h o (List.mem_filter.1 ho).1),
    foldl_writeOut_flags_keep _ _ (fun o ho e => by
      have := List.mem_filter.1 ho
      simp [Out.sets, e, h o this.1 e] at this)]
  constructor
  · rintro (h' | ⟨o, ho, h'⟩)
    · exact .inl h'
    · exact .inr ⟨o, (List.mem_filter.1 ho).1, h'⟩
  · rintro (h' | ⟨o, ho, hf, h'⟩)
    · exact .inl h'
    · exact .inr ⟨o, List.mem_filter.2 ⟨ho, by simp [Out.sets, hf, h o ho hf]⟩, hf, h'⟩

/-! ## What a list of results leaves -/

/-- A property of a group that each of the results keeps. -/
theorem foldl_writeOut_inv (P : Group → Prop) : ∀ (outs : List Out) (g : Group), (∀ o ∈ outs, ∀ g, P g → P (g.writeOut o)) → P g →
    P (outs.foldl Group.writeOut g)
  | [], _, _, hp => hp
  | o :: t, g, h, hp => by
    rw [List.foldl_cons]
    exact foldl_writeOut_inv P t _ (fun o' ho => h o' (by simp [ho])) (h o (by simp) g hp)

theorem Group.writeOuts_inv {outs : List Out} (P : Group → Prop) (g : Group) (h : ∀ o ∈ outs, ∀ g, P g → P (g.writeOut o)) (hp : P g) :
    P (g.writeOuts outs) := by
  unfold Group.writeOuts
  exact foldl_writeOut_inv P _ _ (fun o ho => h o (List.mem_filter.1 ho).1)
    (foldl_writeOut_inv P _ _ (fun o ho => h o (List.mem_filter.1 ho).1) hp)

/-- Results of files v and flags leave everything but the v registers and FLAGS. -/
theorem Group.writeOuts_rest_v {outs : List Out} (g : Group) (h : ∀ o ∈ outs, o.file = .v ∨ (o.file = .flags ∧ o.msk = 1)) :
    { g.writeOuts outs with v := g.v, flags := g.flags } = g := by
  refine Group.writeOuts_inv (fun g' => { g' with v := g.v, flags := g.flags } = g) g ?_ rfl
  intro o ho g' hg
  obtain ⟨f, r, l, x, m⟩ := o
  rcases h _ ho with h | ⟨h, h'⟩
  · simp only at h; subst h; exact hg
  · simp only at h h'; subst h h'; exact hg

end Sys2Proof.Machine
end

