-- ==== Sys2Proof/Laws/State.lean ====
section
/-! SUPPORT. Laws of the writes to the state: what each write leaves, that a run of writes keeps every table canonical, and that it leaves alone every
field that it does not name. -/

namespace Sys2Proof.Machine

/-! ## One lemma per write -/

@[simp] theorem Effect.run_mem (s : State) (k : Nat) (v : Byte) : Effect.run s (.mem k v) = { s with mem := Tab.put (zeroByte) s.mem k v } := rfl
@[simp] theorem Effect.run_cycle (s : State) (v : Cycle) : Effect.run s (.cycle v) = { s with cycle := v } := rfl
@[simp] theorem Effect.run_time (s : State) (v : Nat) : Effect.run s (.time v) = { s with time := v } := rfl
@[simp] theorem Effect.run_groups (s : State) (k : Nat) (v : Group) : Effect.run s (.groups k v) = { s with groups := Tab.put (fun _ => Group.empty) s.groups k v } := rfl
@[simp] theorem Effect.run_ctxs (s : State) (k : Nat) (v : Ctx) : Effect.run s (.ctxs k v) = { s with ctxs := Tab.put (fun _ => Ctx.empty) s.ctxs k v } := rfl
@[simp] theorem Effect.run_scheds (s : State) (k : Nat) (v : Sched) : Effect.run s (.scheds k v) = { s with scheds := Tab.put (fun _ => Sched.empty) s.scheds k v } := rfl
@[simp] theorem Effect.run_cores (s : State) (k : Nat) (v : Core) : Effect.run s (.cores k v) = { s with cores := Tab.put (fun _ => Core.empty) s.cores k v } := rfl
@[simp] theorem Effect.run_acc (s : State) (k : Nat) (v : Int) : Effect.run s (.acc k v) = { s with acc := Tab.put (fun _ => 0) s.acc k v } := rfl
@[simp] theorem Effect.run_accMeta (s : State) (k : Nat) (v : Nat) : Effect.run s (.accMeta k v) = { s with accMeta := Tab.put (fun _ => 0) s.accMeta k v } := rfl
@[simp] theorem Effect.run_scales (s : State) (k : Nat) (v : Word) : Effect.run s (.scales k v) = { s with scales := Tab.put (fun _ => 0) s.scales k v } := rfl
@[simp] theorem Effect.run_latches (s : State) (k : Nat) (v : Latch) : Effect.run s (.latches k v) = { s with latches := Tab.put (fun _ => Latch.empty) s.latches k v } := rfl
@[simp] theorem Effect.run_images (s : State) (k : Nat) (v : DWord) : Effect.run s (.images k v) = { s with images := Tab.put (fun _ => 0) s.images k v } := rfl
@[simp] theorem Effect.run_codes (s : State) (k : Nat) (v : Code) : Effect.run s (.codes k v) = { s with codes := Tab.put (fun _ => Code.empty) s.codes k v } := rfl
@[simp] theorem Effect.run_ops (s : State) (k : Nat) (v : (Option Op)) : Effect.run s (.ops k v) = { s with ops := Tab.put (fun _ => none) s.ops k v } := rfl
@[simp] theorem Effect.run_engs (s : State) (k : Nat) (v : (Option EngOp)) : Effect.run s (.engs k v) = { s with engs := Tab.put (fun _ => none) s.engs k v } := rfl
@[simp] theorem Effect.run_launches (s : State) (k : Nat) (v : (Option Launch)) : Effect.run s (.launches k v) = { s with launches := Tab.put (fun _ => none) s.launches k v } := rfl
@[simp] theorem Effect.run_wgs (s : State) (k : Nat) (v : (Option Wg)) : Effect.run s (.wgs k v) = { s with wgs := Tab.put (fun _ => none) s.wgs k v } := rfl
@[simp] theorem Effect.run_devq (s : State) (k : Nat) (v : (List DevRec)) : Effect.run s (.devq k v) = { s with devq := Tab.put (fun _ => []) s.devq k v } := rfl
@[simp] theorem Effect.run_tasks (s : State) (k : Nat) (v : Task) : Effect.run s (.tasks k v) = { s with tasks := Tab.put (fun _ => Task.empty) s.tasks k v } := rfl
@[simp] theorem Effect.run_admits (s : State) (v : List Admit) : Effect.run s (.admits v) = { s with admits := v } := rfl
@[simp] theorem Effect.run_mktNext (s : State) (v : Nat) : Effect.run s (.mktNext v) = { s with mktNext := v } := rfl
@[simp] theorem Effect.run_mktCore (s : State) (v : Nat) : Effect.run s (.mktCore v) = { s with mktCore := v } := rfl
@[simp] theorem Effect.run_dispatched (s : State) (v : List DevRec) : Effect.run s (.dispatched v) = { s with dispatched := v } := rfl
@[simp] theorem Effect.run_fns (s : State) (k : Nat) (v : Func) : Effect.run s (.fns k v) = { s with fns := Tab.put (fun _ => Func.empty) s.fns k v } := rfl
@[simp] theorem Effect.run_win (s : State) (k : Nat) (v : DWord) : Effect.run s (.win k v) = { s with win := Tab.put (winReset) s.win k v } := rfl
@[simp] theorem Effect.run_frames (s : State) (k : Nat) (v : Nat) : Effect.run s (.frames k v) = { s with frames := Tab.put (fun _ => 0) s.frames k v } := rfl
@[simp] theorem Effect.run_slotsUsed (s : State) (v : Nat) : Effect.run s (.slotsUsed v) = { s with slotsUsed := v } := rfl
@[simp] theorem Effect.run_keys (s : State) (k : Nat) (v : Nat) : Effect.run s (.keys k v) = { s with keys := Tab.put (fun _ => 0) s.keys k v } := rfl
@[simp] theorem Effect.run_fifos (s : State) (k : Nat) (v : Fifo) : Effect.run s (.fifos k v) = { s with fifos := Tab.put (fun _ => Fifo.empty) s.fifos k v } := rfl
@[simp] theorem Effect.run_efcs (s : State) (k : Nat) (v : Efc) : Effect.run s (.efcs k v) = { s with efcs := Tab.put (fun _ => Efc.empty) s.efcs k v } := rfl
@[simp] theorem Effect.run_traces (s : State) (k : Nat) (v : TraceUnit) : Effect.run s (.traces k v) = { s with traces := Tab.put (fun _ => TraceUnit.empty) s.traces k v } := rfl
@[simp] theorem Effect.run_banks (s : State) (k : Nat) (v : Bank) : Effect.run s (.banks k v) = { s with banks := Tab.put (fun _ => Bank.empty) s.banks k v } := rfl
@[simp] theorem Effect.run_dbg (s : State) (v : Nat) : Effect.run s (.dbg v) = { s with dbg := v } := rfl
@[simp] theorem Effect.run_root (s : State) (v : Nat) : Effect.run s (.root v) = { s with root := v } := rfl
@[simp] theorem Effect.run_copyTurn (s : State) (k : Nat) (v : Nat) : Effect.run s (.copyTurn k v) = { s with copyTurn := Tab.put (fun _ => 0) s.copyTurn k v } := rfl
@[simp] theorem Effect.run_peers (s : State) (k : Nat) (v : Peer) : Effect.run s (.peers k v) = { s with peers := Tab.put (fun _ => Peer.empty) s.peers k v } := rfl
@[simp] theorem Effect.run_saved (s : State) (k : Nat) (v : (Option Saved)) : Effect.run s (.saved k v) = { s with saved := Tab.put (fun _ => none) s.saved k v } := rfl
@[simp] theorem Effect.run_contribs (s : State) (v : List Contrib) : Effect.run s (.contribs v) = { s with contribs := v } := rfl
@[simp] theorem Effect.run_results (s : State) (v : List ChunkRes) : Effect.run s (.results v) = { s with results := v } := rfl
@[simp] theorem Effect.run_paths (s : State) (k : Nat) (v : Nat) : Effect.run s (.paths k v) = { s with paths := Tab.put (fun _ => 0) s.paths k v } := rfl
@[simp] theorem Effect.run_sec (s : State) (v : Sec) : Effect.run s (.sec v) = { s with sec := v } := rfl
@[simp] theorem Effect.run_msix (s : State) (k : Nat) (v : Nat) : Effect.run s (.msix k v) = { s with msix := Tab.put (fun _ => 0) s.msix k v } := rfl
@[simp] theorem Effect.run_turn (s : State) (v : Issuer) : Effect.run s (.turn v) = { s with turn := v } := rfl
@[simp] theorem Effect.run_agenda (s : State) (v : List Item) : Effect.run s (.agenda v) = { s with agenda := v } := rfl
@[simp] theorem Effect.run_inputs (s : State) (v : List (Nat × Instr)) : Effect.run s (.inputs v) = { s with inputs := v } := rfl
@[simp] theorem Effect.run_badLines (s : State) (k : Nat) (v : Nat) : Effect.run s (.badLines k v) = { s with badLines := Tab.put (fun _ => 0) s.badLines k v } := rfl
@[simp] theorem Effect.run_badMem (s : State) (k : Nat) (v : Nat) : Effect.run s (.badMem k v) = { s with badMem := Tab.put (fun _ => 0) s.badMem k v } := rfl
@[simp] theorem Effect.run_errors (s : State) (v : List (Nat × Nat)) : Effect.run s (.errors v) = { s with errors := v } := rfl
@[simp] theorem Effect.run_integ (s : State) (k : Nat) (v : Nat) : Effect.run s (.integ k v) = { s with integ := Tab.put (fun _ => 0) s.integ k v } := rfl
@[simp] theorem Effect.run_raise (s : State) (k n : Nat) : Effect.run s (.raise k n) = { s with integ := s.raises k n } := rfl
@[simp] theorem Effect.run_efcNow (s : State) (v : Nat) : Effect.run s (.efcNow v) = { s with efcNow := v } := rfl
@[simp] theorem Effect.run_hostReply (s : State) (v : Option (List Byte)) : Effect.run s (.hostReply v) = { s with hostReply := v } := rfl
@[simp] theorem Effect.run_fresh (s : State) (v : Nat) : Effect.run s (.fresh v) = { s with fresh := v } := rfl
@[simp] theorem Effect.run_nextId (s : State) (v : Nat) : Effect.run s (.nextId v) = { s with nextId := v } := rfl
@[simp] theorem Effect.run_memClear (s : State) (lo n : Nat) : Effect.run s (.memClear lo n) = { s with mem := clearRange lo n s.mem } := rfl
@[simp] theorem Effect.run_wipe (s : State) (v : Sec) : Effect.run s (.wipe v) = s.wiped v := rfl

/-! ## Runs of writes -/

@[simp] theorem runAll_nil (s : State) : runAll s [] = s := rfl
@[simp] theorem runAll_cons (s : State) (e : Effect) (l : List Effect) : runAll s (e :: l) = runAll (e.run s) l := rfl
theorem runAll_append (s : State) (a b : List Effect) : runAll s (a ++ b) = runAll (runAll s a) b := by
  induction a generalizing s with
  | nil => rfl
  | cons e l ih => simp [runAll, ih]

/-! ## Frames: the number of the field that a write names -/

/-- The field that a write names: its place among the constructors of Effect; clearing a range writes memory, a wipe (100) writes every field. -/
def Effect.tag : Effect → Nat
  | .mem _ _ => 0
  | .cycle _ => 1
  | .time _ => 2
  | .groups _ _ => 3
  | .ctxs _ _ => 4
  | .scheds _ _ => 5
  | .cores _ _ => 6
  | .acc _ _ => 7
  | .accMeta _ _ => 8
  | .scales _ _ => 9
  | .latches _ _ => 10
  | .images _ _ => 11
  | .codes _ _ => 12
  | .ops _ _ => 13
  | .engs _ _ => 14
  | .launches _ _ => 15
  | .wgs _ _ => 16
  | .devq _ _ => 17
  | .tasks _ _ => 18
  | .admits _ => 19
  | .mktNext _ => 20
  | .mktCore _ => 21
  | .dispatched _ => 22
  | .fns _ _ => 23
  | .win _ _ => 24
  | .frames _ _ => 25
  | .slotsUsed _ => 26
  | .keys _ _ => 27
  | .fifos _ _ => 28
  | .efcs _ _ => 29
  | .traces _ _ => 30
  | .banks _ _ => 31
  | .dbg _ => 32
  | .root _ => 33
  | .copyTurn _ _ => 34
  | .peers _ _ => 35
  | .saved _ _ => 36
  | .contribs _ => 37
  | .results _ => 38
  | .paths _ _ => 39
  | .sec _ => 40
  | .msix _ _ => 41
  | .turn _ => 42
  | .agenda _ => 43
  | .inputs _ => 44
  | .badLines _ _ => 45
  | .efcNow _ => 46
  | .hostReply _ => 47
  | .fresh _ => 48
  | .nextId _ => 49
  | .integ _ _ => 50
  | .raise _ _ => 50
  | .badMem _ _ => 51
  | .errors _ => 52
  | .memClear _ _ => 0
  | .wipe _ => 100

theorem Effect.run_mem_ne {s : State} {e : Effect} (h : e.tag ≠ 0 ∧ e.tag ≠ 100) : (e.run s).mem = s.mem := by
  cases e <;> first | rfl | exact absurd rfl h.1 | exact absurd rfl h.2
theorem runAll_mem_ne {l : List Effect} : ∀ {s : State}, (∀ e ∈ l, e.tag ≠ 0 ∧ e.tag ≠ 100) → (runAll s l).mem = s.mem := by
  induction l with
  | nil => intros; rfl
  | cons e l ih => intro s h; rw [runAll_cons, ih (fun x hx => h x (List.mem_cons_of_mem _ hx)), Effect.run_mem_ne (h e List.mem_cons_self)]
theorem Effect.run_cycle_ne {s : State} {e : Effect} (h : e.tag ≠ 1 ∧ e.tag ≠ 100) : (e.run s).cycle = s.cycle := by
  cases e <;> first | rfl | exact absurd rfl h.1 | exact absurd rfl h.2
theorem runAll_cycle_ne {l : List Effect} : ∀ {s : State}, (∀ e ∈ l, e.tag ≠ 1 ∧ e.tag ≠ 100) → (runAll s l).cycle = s.cycle := by
  induction l with
  | nil => intros; rfl
  | cons e l ih => intro s h; rw [runAll_cons, ih (fun x hx => h x (List.mem_cons_of_mem _ hx)), Effect.run_cycle_ne (h e List.mem_cons_self)]
theorem Effect.run_time_ne {s : State} {e : Effect} (h : e.tag ≠ 2 ∧ e.tag ≠ 100) : (e.run s).time = s.time := by
  cases e <;> first | rfl | exact absurd rfl h.1 | exact absurd rfl h.2
theorem runAll_time_ne {l : List Effect} : ∀ {s : State}, (∀ e ∈ l, e.tag ≠ 2 ∧ e.tag ≠ 100) → (runAll s l).time = s.time := by
  induction l with
  | nil => intros; rfl
  | cons e l ih => intro s h; rw [runAll_cons, ih (fun x hx => h x (List.mem_cons_of_mem _ hx)), Effect.run_time_ne (h e List.mem_cons_self)]
theorem Effect.run_groups_ne {s : State} {e : Effect} (h : e.tag ≠ 3 ∧ e.tag ≠ 100) : (e.run s).groups = s.groups := by
  cases e <;> first | rfl | exact absurd rfl h.1 | exact absurd rfl h.2
theorem runAll_groups_ne {l : List Effect} : ∀ {s : State}, (∀ e ∈ l, e.tag ≠ 3 ∧ e.tag ≠ 100) → (runAll s l).groups = s.groups := by
  induction l with
  | nil => intros; rfl
  | cons e l ih => intro s h; rw [runAll_cons, ih (fun x hx => h x (List.mem_cons_of_mem _ hx)), Effect.run_groups_ne (h e List.mem_cons_self)]
theorem Effect.run_ctxs_ne {s : State} {e : Effect} (h : e.tag ≠ 4 ∧ e.tag ≠ 100) : (e.run s).ctxs = s.ctxs := by
  cases e <;> first | rfl | exact absurd rfl h.1 | exact absurd rfl h.2
theorem runAll_ctxs_ne {l : List Effect} : ∀ {s : State}, (∀ e ∈ l, e.tag ≠ 4 ∧ e.tag ≠ 100) → (runAll s l).ctxs = s.ctxs := by
  induction l with
  | nil => intros; rfl
  | cons e l ih => intro s h; rw [runAll_cons, ih (fun x hx => h x (List.mem_cons_of_mem _ hx)), Effect.run_ctxs_ne (h e List.mem_cons_self)]
theorem Effect.run_scheds_ne {s : State} {e : Effect} (h : e.tag ≠ 5 ∧ e.tag ≠ 100) : (e.run s).scheds = s.scheds := by
  cases e <;> first | rfl | exact absurd rfl h.1 | exact absurd rfl h.2
theorem runAll_scheds_ne {l : List Effect} : ∀ {s : State}, (∀ e ∈ l, e.tag ≠ 5 ∧ e.tag ≠ 100) → (runAll s l).scheds = s.scheds := by
  induction l with
  | nil => intros; rfl
  | cons e l ih => intro s h; rw [runAll_cons, ih (fun x hx => h x (List.mem_cons_of_mem _ hx)), Effect.run_scheds_ne (h e List.mem_cons_self)]
theorem Effect.run_cores_ne {s : State} {e : Effect} (h : e.tag ≠ 6 ∧ e.tag ≠ 100) : (e.run s).cores = s.cores := by
  cases e <;> first | rfl | exact absurd rfl h.1 | exact absurd rfl h.2
theorem runAll_cores_ne {l : List Effect} : ∀ {s : State}, (∀ e ∈ l, e.tag ≠ 6 ∧ e.tag ≠ 100) → (runAll s l).cores = s.cores := by
  induction l with
  | nil => intros; rfl
  | cons e l ih => intro s h; rw [runAll_cons, ih (fun x hx => h x (List.mem_cons_of_mem _ hx)), Effect.run_cores_ne (h e List.mem_cons_self)]
theorem Effect.run_acc_ne {s : State} {e : Effect} (h : e.tag ≠ 7 ∧ e.tag ≠ 100) : (e.run s).acc = s.acc := by
  cases e <;> first | rfl | exact absurd rfl h.1 | exact absurd rfl h.2
theorem runAll_acc_ne {l : List Effect} : ∀ {s : State}, (∀ e ∈ l, e.tag ≠ 7 ∧ e.tag ≠ 100) → (runAll s l).acc = s.acc := by
  induction l with
  | nil => intros; rfl
  | cons e l ih => intro s h; rw [runAll_cons, ih (fun x hx => h x (List.mem_cons_of_mem _ hx)), Effect.run_acc_ne (h e List.mem_cons_self)]
theorem Effect.run_accMeta_ne {s : State} {e : Effect} (h : e.tag ≠ 8 ∧ e.tag ≠ 100) : (e.run s).accMeta = s.accMeta := by
  cases e <;> first | rfl | exact absurd rfl h.1 | exact absurd rfl h.2
theorem runAll_accMeta_ne {l : List Effect} : ∀ {s : State}, (∀ e ∈ l, e.tag ≠ 8 ∧ e.tag ≠ 100) → (runAll s l).accMeta = s.accMeta := by
  induction l with
  | nil => intros; rfl
  | cons e l ih => intro s h; rw [runAll_cons, ih (fun x hx => h x (List.mem_cons_of_mem _ hx)), Effect.run_accMeta_ne (h e List.mem_cons_self)]
theorem Effect.run_scales_ne {s : State} {e : Effect} (h : e.tag ≠ 9 ∧ e.tag ≠ 100) : (e.run s).scales = s.scales := by
  cases e <;> first | rfl | exact absurd rfl h.1 | exact absurd rfl h.2
theorem runAll_scales_ne {l : List Effect} : ∀ {s : State}, (∀ e ∈ l, e.tag ≠ 9 ∧ e.tag ≠ 100) → (runAll s l).scales = s.scales := by
  induction l with
  | nil => intros; rfl
  | cons e l ih => intro s h; rw [runAll_cons, ih (fun x hx => h x (List.mem_cons_of_mem _ hx)), Effect.run_scales_ne (h e List.mem_cons_self)]
theorem Effect.run_latches_ne {s : State} {e : Effect} (h : e.tag ≠ 10 ∧ e.tag ≠ 100) : (e.run s).latches = s.latches := by
  cases e <;> first | rfl | exact absurd rfl h.1 | exact absurd rfl h.2
theorem runAll_latches_ne {l : List Effect} : ∀ {s : State}, (∀ e ∈ l, e.tag ≠ 10 ∧ e.tag ≠ 100) → (runAll s l).latches = s.latches := by
  induction l with
  | nil => intros; rfl
  | cons e l ih => intro s h; rw [runAll_cons, ih (fun x hx => h x (List.mem_cons_of_mem _ hx)), Effect.run_latches_ne (h e List.mem_cons_self)]
theorem Effect.run_images_ne {s : State} {e : Effect} (h : e.tag ≠ 11 ∧ e.tag ≠ 100) : (e.run s).images = s.images := by
  cases e <;> first | rfl | exact absurd rfl h.1 | exact absurd rfl h.2
theorem runAll_images_ne {l : List Effect} : ∀ {s : State}, (∀ e ∈ l, e.tag ≠ 11 ∧ e.tag ≠ 100) → (runAll s l).images = s.images := by
  induction l with
  | nil => intros; rfl
  | cons e l ih => intro s h; rw [runAll_cons, ih (fun x hx => h x (List.mem_cons_of_mem _ hx)), Effect.run_images_ne (h e List.mem_cons_self)]
theorem Effect.run_codes_ne {s : State} {e : Effect} (h : e.tag ≠ 12 ∧ e.tag ≠ 100) : (e.run s).codes = s.codes := by
  cases e <;> first | rfl | exact absurd rfl h.1 | exact absurd rfl h.2
theorem runAll_codes_ne {l : List Effect} : ∀ {s : State}, (∀ e ∈ l, e.tag ≠ 12 ∧ e.tag ≠ 100) → (runAll s l).codes = s.codes := by
  induction l with
  | nil => intros; rfl
  | cons e l ih => intro s h; rw [runAll_cons, ih (fun x hx => h x (List.mem_cons_of_mem _ hx)), Effect.run_codes_ne (h e List.mem_cons_self)]
theorem Effect.run_ops_ne {s : State} {e : Effect} (h : e.tag ≠ 13 ∧ e.tag ≠ 100) : (e.run s).ops = s.ops := by
  cases e <;> first | rfl | exact absurd rfl h.1 | exact absurd rfl h.2
theorem runAll_ops_ne {l : List Effect} : ∀ {s : State}, (∀ e ∈ l, e.tag ≠ 13 ∧ e.tag ≠ 100) → (runAll s l).ops = s.ops := by
  induction l with
  | nil => intros; rfl
  | cons e l ih => intro s h; rw [runAll_cons, ih (fun x hx => h x (List.mem_cons_of_mem _ hx)), Effect.run_ops_ne (h e List.mem_cons_self)]
theorem Effect.run_engs_ne {s : State} {e : Effect} (h : e.tag ≠ 14 ∧ e.tag ≠ 100) : (e.run s).engs = s.engs := by
  cases e <;> first | rfl | exact absurd rfl h.1 | exact absurd rfl h.2
theorem runAll_engs_ne {l : List Effect} : ∀ {s : State}, (∀ e ∈ l, e.tag ≠ 14 ∧ e.tag ≠ 100) → (runAll s l).engs = s.engs := by
  induction l with
  | nil => intros; rfl
  | cons e l ih => intro s h; rw [runAll_cons, ih (fun x hx => h x (List.mem_cons_of_mem _ hx)), Effect.run_engs_ne (h e List.mem_cons_self)]
theorem Effect.run_launches_ne {s : State} {e : Effect} (h : e.tag ≠ 15 ∧ e.tag ≠ 100) : (e.run s).launches = s.launches := by
  cases e <;> first | rfl | exact absurd rfl h.1 | exact absurd rfl h.2
theorem runAll_launches_ne {l : List Effect} : ∀ {s : State}, (∀ e ∈ l, e.tag ≠ 15 ∧ e.tag ≠ 100) → (runAll s l).launches = s.launches := by
  induction l with
  | nil => intros; rfl
  | cons e l ih => intro s h; rw [runAll_cons, ih (fun x hx => h x (List.mem_cons_of_mem _ hx)), Effect.run_launches_ne (h e List.mem_cons_self)]
theorem Effect.run_wgs_ne {s : State} {e : Effect} (h : e.tag ≠ 16 ∧ e.tag ≠ 100) : (e.run s).wgs = s.wgs := by
  cases e <;> first | rfl | exact absurd rfl h.1 | exact absurd rfl h.2
theorem runAll_wgs_ne {l : List Effect} : ∀ {s : State}, (∀ e ∈ l, e.tag ≠ 16 ∧ e.tag ≠ 100) → (runAll s l).wgs = s.wgs := by
  induction l with
  | nil => intros; rfl
  | cons e l ih => intro s h; rw [runAll_cons, ih (fun x hx => h x (List.mem_cons_of_mem _ hx)), Effect.run_wgs_ne (h e List.mem_cons_self)]
theorem Effect.run_devq_ne {s : State} {e : Effect} (h : e.tag ≠ 17 ∧ e.tag ≠ 100) : (e.run s).devq = s.devq := by
  cases e <;> first | rfl | exact absurd rfl h.1 | exact absurd rfl h.2
theorem runAll_devq_ne {l : List Effect} : ∀ {s : State}, (∀ e ∈ l, e.tag ≠ 17 ∧ e.tag ≠ 100) → (runAll s l).devq = s.devq := by
  induction l with
  | nil => intros; rfl
  | cons e l ih => intro s h; rw [runAll_cons, ih (fun x hx => h x (List.mem_cons_of_mem _ hx)), Effect.run_devq_ne (h e List.mem_cons_self)]
theorem Effect.run_tasks_ne {s : State} {e : Effect} (h : e.tag ≠ 18 ∧ e.tag ≠ 100) : (e.run s).tasks = s.tasks := by
  cases e <;> first | rfl | exact absurd rfl h.1 | exact absurd rfl h.2
theorem runAll_tasks_ne {l : List Effect} : ∀ {s : State}, (∀ e ∈ l, e.tag ≠ 18 ∧ e.tag ≠ 100) → (runAll s l).tasks = s.tasks := by
  induction l with
  | nil => intros; rfl
  | cons e l ih => intro s h; rw [runAll_cons, ih (fun x hx => h x (List.mem_cons_of_mem _ hx)), Effect.run_tasks_ne (h e List.mem_cons_self)]
theorem Effect.run_admits_ne {s : State} {e : Effect} (h : e.tag ≠ 19 ∧ e.tag ≠ 100) : (e.run s).admits = s.admits := by
  cases e <;> first | rfl | exact absurd rfl h.1 | exact absurd rfl h.2
theorem runAll_admits_ne {l : List Effect} : ∀ {s : State}, (∀ e ∈ l, e.tag ≠ 19 ∧ e.tag ≠ 100) → (runAll s l).admits = s.admits := by
  induction l with
  | nil => intros; rfl
  | cons e l ih => intro s h; rw [runAll_cons, ih (fun x hx => h x (List.mem_cons_of_mem _ hx)), Effect.run_admits_ne (h e List.mem_cons_self)]
theorem Effect.run_mktNext_ne {s : State} {e : Effect} (h : e.tag ≠ 20 ∧ e.tag ≠ 100) : (e.run s).mktNext = s.mktNext := by
  cases e <;> first | rfl | exact absurd rfl h.1 | exact absurd rfl h.2
theorem runAll_mktNext_ne {l : List Effect} : ∀ {s : State}, (∀ e ∈ l, e.tag ≠ 20 ∧ e.tag ≠ 100) → (runAll s l).mktNext = s.mktNext := by
  induction l with
  | nil => intros; rfl
  | cons e l ih => intro s h; rw [runAll_cons, ih (fun x hx => h x (List.mem_cons_of_mem _ hx)), Effect.run_mktNext_ne (h e List.mem_cons_self)]
theorem Effect.run_mktCore_ne {s : State} {e : Effect} (h : e.tag ≠ 21 ∧ e.tag ≠ 100) : (e.run s).mktCore = s.mktCore := by
  cases e <;> first | rfl | exact absurd rfl h.1 | exact absurd rfl h.2
theorem runAll_mktCore_ne {l : List Effect} : ∀ {s : State}, (∀ e ∈ l, e.tag ≠ 21 ∧ e.tag ≠ 100) → (runAll s l).mktCore = s.mktCore := by
  induction l with
  | nil => intros; rfl
  | cons e l ih => intro s h; rw [runAll_cons, ih (fun x hx => h x (List.mem_cons_of_mem _ hx)), Effect.run_mktCore_ne (h e List.mem_cons_self)]
theorem Effect.run_dispatched_ne {s : State} {e : Effect} (h : e.tag ≠ 22 ∧ e.tag ≠ 100) : (e.run s).dispatched = s.dispatched := by
  cases e <;> first | rfl | exact absurd rfl h.1 | exact absurd rfl h.2
theorem runAll_dispatched_ne {l : List Effect} : ∀ {s : State}, (∀ e ∈ l, e.tag ≠ 22 ∧ e.tag ≠ 100) → (runAll s l).dispatched = s.dispatched := by
  induction l with
  | nil => intros; rfl
  | cons e l ih => intro s h; rw [runAll_cons, ih (fun x hx => h x (List.mem_cons_of_mem _ hx)), Effect.run_dispatched_ne (h e List.mem_cons_self)]
theorem Effect.run_fns_ne {s : State} {e : Effect} (h : e.tag ≠ 23 ∧ e.tag ≠ 100) : (e.run s).fns = s.fns := by
  cases e <;> first | rfl | exact absurd rfl h.1 | exact absurd rfl h.2
theorem runAll_fns_ne {l : List Effect} : ∀ {s : State}, (∀ e ∈ l, e.tag ≠ 23 ∧ e.tag ≠ 100) → (runAll s l).fns = s.fns := by
  induction l with
  | nil => intros; rfl
  | cons e l ih => intro s h; rw [runAll_cons, ih (fun x hx => h x (List.mem_cons_of_mem _ hx)), Effect.run_fns_ne (h e List.mem_cons_self)]
theorem Effect.run_win_ne {s : State} {e : Effect} (h : e.tag ≠ 24 ∧ e.tag ≠ 100) : (e.run s).win = s.win := by
  cases e <;> first | rfl | exact absurd rfl h.1 | exact absurd rfl h.2
theorem runAll_win_ne {l : List Effect} : ∀ {s : State}, (∀ e ∈ l, e.tag ≠ 24 ∧ e.tag ≠ 100) → (runAll s l).win = s.win := by
  induction l with
  | nil => intros; rfl
  | cons e l ih => intro s h; rw [runAll_cons, ih (fun x hx => h x (List.mem_cons_of_mem _ hx)), Effect.run_win_ne (h e List.mem_cons_self)]
theorem Effect.run_frames_ne {s : State} {e : Effect} (h : e.tag ≠ 25 ∧ e.tag ≠ 100) : (e.run s).frames = s.frames := by
  cases e <;> first | rfl | exact absurd rfl h.1 | exact absurd rfl h.2
theorem runAll_frames_ne {l : List Effect} : ∀ {s : State}, (∀ e ∈ l, e.tag ≠ 25 ∧ e.tag ≠ 100) → (runAll s l).frames = s.frames := by
  induction l with
  | nil => intros; rfl
  | cons e l ih => intro s h; rw [runAll_cons, ih (fun x hx => h x (List.mem_cons_of_mem _ hx)), Effect.run_frames_ne (h e List.mem_cons_self)]
theorem Effect.run_slotsUsed_ne {s : State} {e : Effect} (h : e.tag ≠ 26 ∧ e.tag ≠ 100) : (e.run s).slotsUsed = s.slotsUsed := by
  cases e <;> first | rfl | exact absurd rfl h.1 | exact absurd rfl h.2
theorem runAll_slotsUsed_ne {l : List Effect} : ∀ {s : State}, (∀ e ∈ l, e.tag ≠ 26 ∧ e.tag ≠ 100) → (runAll s l).slotsUsed = s.slotsUsed := by
  induction l with
  | nil => intros; rfl
  | cons e l ih => intro s h; rw [runAll_cons, ih (fun x hx => h x (List.mem_cons_of_mem _ hx)), Effect.run_slotsUsed_ne (h e List.mem_cons_self)]
theorem Effect.run_keys_ne {s : State} {e : Effect} (h : e.tag ≠ 27 ∧ e.tag ≠ 100) : (e.run s).keys = s.keys := by
  cases e <;> first | rfl | exact absurd rfl h.1 | exact absurd rfl h.2
theorem runAll_keys_ne {l : List Effect} : ∀ {s : State}, (∀ e ∈ l, e.tag ≠ 27 ∧ e.tag ≠ 100) → (runAll s l).keys = s.keys := by
  induction l with
  | nil => intros; rfl
  | cons e l ih => intro s h; rw [runAll_cons, ih (fun x hx => h x (List.mem_cons_of_mem _ hx)), Effect.run_keys_ne (h e List.mem_cons_self)]
theorem Effect.run_fifos_ne {s : State} {e : Effect} (h : e.tag ≠ 28 ∧ e.tag ≠ 100) : (e.run s).fifos = s.fifos := by
  cases e <;> first | rfl | exact absurd rfl h.1 | exact absurd rfl h.2
theorem runAll_fifos_ne {l : List Effect} : ∀ {s : State}, (∀ e ∈ l, e.tag ≠ 28 ∧ e.tag ≠ 100) → (runAll s l).fifos = s.fifos := by
  induction l with
  | nil => intros; rfl
  | cons e l ih => intro s h; rw [runAll_cons, ih (fun x hx => h x (List.mem_cons_of_mem _ hx)), Effect.run_fifos_ne (h e List.mem_cons_self)]
theorem Effect.run_efcs_ne {s : State} {e : Effect} (h : e.tag ≠ 29 ∧ e.tag ≠ 100) : (e.run s).efcs = s.efcs := by
  cases e <;> first | rfl | exact absurd rfl h.1 | exact absurd rfl h.2
theorem runAll_efcs_ne {l : List Effect} : ∀ {s : State}, (∀ e ∈ l, e.tag ≠ 29 ∧ e.tag ≠ 100) → (runAll s l).efcs = s.efcs := by
  induction l with
  | nil => intros; rfl
  | cons e l ih => intro s h; rw [runAll_cons, ih (fun x hx => h x (List.mem_cons_of_mem _ hx)), Effect.run_efcs_ne (h e List.mem_cons_self)]
theorem Effect.run_traces_ne {s : State} {e : Effect} (h : e.tag ≠ 30 ∧ e.tag ≠ 100) : (e.run s).traces = s.traces := by
  cases e <;> first | rfl | exact absurd rfl h.1 | exact absurd rfl h.2
theorem runAll_traces_ne {l : List Effect} : ∀ {s : State}, (∀ e ∈ l, e.tag ≠ 30 ∧ e.tag ≠ 100) → (runAll s l).traces = s.traces := by
  induction l with
  | nil => intros; rfl
  | cons e l ih => intro s h; rw [runAll_cons, ih (fun x hx => h x (List.mem_cons_of_mem _ hx)), Effect.run_traces_ne (h e List.mem_cons_self)]
theorem Effect.run_banks_ne {s : State} {e : Effect} (h : e.tag ≠ 31 ∧ e.tag ≠ 100) : (e.run s).banks = s.banks := by
  cases e <;> first | rfl | exact absurd rfl h.1 | exact absurd rfl h.2
theorem runAll_banks_ne {l : List Effect} : ∀ {s : State}, (∀ e ∈ l, e.tag ≠ 31 ∧ e.tag ≠ 100) → (runAll s l).banks = s.banks := by
  induction l with
  | nil => intros; rfl
  | cons e l ih => intro s h; rw [runAll_cons, ih (fun x hx => h x (List.mem_cons_of_mem _ hx)), Effect.run_banks_ne (h e List.mem_cons_self)]
theorem Effect.run_dbg_ne {s : State} {e : Effect} (h : e.tag ≠ 32 ∧ e.tag ≠ 100) : (e.run s).dbg = s.dbg := by
  cases e <;> first | rfl | exact absurd rfl h.1 | exact absurd rfl h.2
theorem runAll_dbg_ne {l : List Effect} : ∀ {s : State}, (∀ e ∈ l, e.tag ≠ 32 ∧ e.tag ≠ 100) → (runAll s l).dbg = s.dbg := by
  induction l with
  | nil => intros; rfl
  | cons e l ih => intro s h; rw [runAll_cons, ih (fun x hx => h x (List.mem_cons_of_mem _ hx)), Effect.run_dbg_ne (h e List.mem_cons_self)]
theorem Effect.run_root_ne {s : State} {e : Effect} (h : e.tag ≠ 33 ∧ e.tag ≠ 100) : (e.run s).root = s.root := by
  cases e <;> first | rfl | exact absurd rfl h.1 | exact absurd rfl h.2
theorem runAll_root_ne {l : List Effect} : ∀ {s : State}, (∀ e ∈ l, e.tag ≠ 33 ∧ e.tag ≠ 100) → (runAll s l).root = s.root := by
  induction l with
  | nil => intros; rfl
  | cons e l ih => intro s h; rw [runAll_cons, ih (fun x hx => h x (List.mem_cons_of_mem _ hx)), Effect.run_root_ne (h e List.mem_cons_self)]
theorem Effect.run_copyTurn_ne {s : State} {e : Effect} (h : e.tag ≠ 34 ∧ e.tag ≠ 100) : (e.run s).copyTurn = s.copyTurn := by
  cases e <;> first | rfl | exact absurd rfl h.1 | exact absurd rfl h.2
theorem runAll_copyTurn_ne {l : List Effect} : ∀ {s : State}, (∀ e ∈ l, e.tag ≠ 34 ∧ e.tag ≠ 100) → (runAll s l).copyTurn = s.copyTurn := by
  induction l with
  | nil => intros; rfl
  | cons e l ih => intro s h; rw [runAll_cons, ih (fun x hx => h x (List.mem_cons_of_mem _ hx)), Effect.run_copyTurn_ne (h e List.mem_cons_self)]
theorem Effect.run_peers_ne {s : State} {e : Effect} (h : e.tag ≠ 35 ∧ e.tag ≠ 100) : (e.run s).peers = s.peers := by
  cases e <;> first | rfl | exact absurd rfl h.1 | exact absurd rfl h.2
theorem runAll_peers_ne {l : List Effect} : ∀ {s : State}, (∀ e ∈ l, e.tag ≠ 35 ∧ e.tag ≠ 100) → (runAll s l).peers = s.peers := by
  induction l with
  | nil => intros; rfl
  | cons e l ih => intro s h; rw [runAll_cons, ih (fun x hx => h x (List.mem_cons_of_mem _ hx)), Effect.run_peers_ne (h e List.mem_cons_self)]
theorem Effect.run_saved_ne {s : State} {e : Effect} (h : e.tag ≠ 36 ∧ e.tag ≠ 100) : (e.run s).saved = s.saved := by
  cases e <;> first | rfl | exact absurd rfl h.1 | exact absurd rfl h.2
theorem runAll_saved_ne {l : List Effect} : ∀ {s : State}, (∀ e ∈ l, e.tag ≠ 36 ∧ e.tag ≠ 100) → (runAll s l).saved = s.saved := by
  induction l with
  | nil => intros; rfl
  | cons e l ih => intro s h; rw [runAll_cons, ih (fun x hx => h x (List.mem_cons_of_mem _ hx)), Effect.run_saved_ne (h e List.mem_cons_self)]
theorem Effect.run_contribs_ne {s : State} {e : Effect} (h : e.tag ≠ 37 ∧ e.tag ≠ 100) : (e.run s).contribs = s.contribs := by
  cases e <;> first | rfl | exact absurd rfl h.1 | exact absurd rfl h.2
theorem runAll_contribs_ne {l : List Effect} : ∀ {s : State}, (∀ e ∈ l, e.tag ≠ 37 ∧ e.tag ≠ 100) → (runAll s l).contribs = s.contribs := by
  induction l with
  | nil => intros; rfl
  | cons e l ih => intro s h; rw [runAll_cons, ih (fun x hx => h x (List.mem_cons_of_mem _ hx)), Effect.run_contribs_ne (h e List.mem_cons_self)]
theorem Effect.run_results_ne {s : State} {e : Effect} (h : e.tag ≠ 38 ∧ e.tag ≠ 100) : (e.run s).results = s.results := by
  cases e <;> first | rfl | exact absurd rfl h.1 | exact absurd rfl h.2
theorem runAll_results_ne {l : List Effect} : ∀ {s : State}, (∀ e ∈ l, e.tag ≠ 38 ∧ e.tag ≠ 100) → (runAll s l).results = s.results := by
  induction l with
  | nil => intros; rfl
  | cons e l ih => intro s h; rw [runAll_cons, ih (fun x hx => h x (List.mem_cons_of_mem _ hx)), Effect.run_results_ne (h e List.mem_cons_self)]
theorem Effect.run_paths_ne {s : State} {e : Effect} (h : e.tag ≠ 39 ∧ e.tag ≠ 100) : (e.run s).paths = s.paths := by
  cases e <;> first | rfl | exact absurd rfl h.1 | exact absurd rfl h.2
theorem runAll_paths_ne {l : List Effect} : ∀ {s : State}, (∀ e ∈ l, e.tag ≠ 39 ∧ e.tag ≠ 100) → (runAll s l).paths = s.paths := by
  induction l with
  | nil => intros; rfl
  | cons e l ih => intro s h; rw [runAll_cons, ih (fun x hx => h x (List.mem_cons_of_mem _ hx)), Effect.run_paths_ne (h e List.mem_cons_self)]
theorem Effect.run_sec_ne {s : State} {e : Effect} (h : e.tag ≠ 40 ∧ e.tag ≠ 100) : (e.run s).sec = s.sec := by
  cases e <;> first | rfl | exact absurd rfl h.1 | exact absurd rfl h.2
theorem runAll_sec_ne {l : List Effect} : ∀ {s : State}, (∀ e ∈ l, e.tag ≠ 40 ∧ e.tag ≠ 100) → (runAll s l).sec = s.sec := by
  induction l with
  | nil => intros; rfl
  | cons e l ih => intro s h; rw [runAll_cons, ih (fun x hx => h x (List.mem_cons_of_mem _ hx)), Effect.run_sec_ne (h e List.mem_cons_self)]
theorem Effect.run_msix_ne {s : State} {e : Effect} (h : e.tag ≠ 41 ∧ e.tag ≠ 100) : (e.run s).msix = s.msix := by
  cases e <;> first | rfl | exact absurd rfl h.1
theorem runAll_msix_ne {l : List Effect} : ∀ {s : State}, (∀ e ∈ l, e.tag ≠ 41 ∧ e.tag ≠ 100) → (runAll s l).msix = s.msix := by
  induction l with
  | nil => intros; rfl
  | cons e l ih => intro s h; rw [runAll_cons, ih (fun x hx => h x (List.mem_cons_of_mem _ hx)), Effect.run_msix_ne (h e List.mem_cons_self)]
theorem Effect.run_turn_ne {s : State} {e : Effect} (h : e.tag ≠ 42 ∧ e.tag ≠ 100) : (e.run s).turn = s.turn := by
  cases e <;> first | rfl | exact absurd rfl h.1
theorem runAll_turn_ne {l : List Effect} : ∀ {s : State}, (∀ e ∈ l, e.tag ≠ 42 ∧ e.tag ≠ 100) → (runAll s l).turn = s.turn := by
  induction l with
  | nil => intros; rfl
  | cons e l ih => intro s h; rw [runAll_cons, ih (fun x hx => h x (List.mem_cons_of_mem _ hx)), Effect.run_turn_ne (h e List.mem_cons_self)]
theorem Effect.run_agenda_ne {s : State} {e : Effect} (h : e.tag ≠ 43 ∧ e.tag ≠ 100) : (e.run s).agenda = s.agenda := by
  cases e <;> first | rfl | exact absurd rfl h.1
theorem runAll_agenda_ne {l : List Effect} : ∀ {s : State}, (∀ e ∈ l, e.tag ≠ 43 ∧ e.tag ≠ 100) → (runAll s l).agenda = s.agenda := by
  induction l with
  | nil => intros; rfl
  | cons e l ih => intro s h; rw [runAll_cons, ih (fun x hx => h x (List.mem_cons_of_mem _ hx)), Effect.run_agenda_ne (h e List.mem_cons_self)]
theorem Effect.run_inputs_ne {s : State} {e : Effect} (h : e.tag ≠ 44 ∧ e.tag ≠ 100) : (e.run s).inputs = s.inputs := by
  cases e <;> first | rfl | exact absurd rfl h.1 | exact absurd rfl h.2
theorem runAll_inputs_ne {l : List Effect} : ∀ {s : State}, (∀ e ∈ l, e.tag ≠ 44 ∧ e.tag ≠ 100) → (runAll s l).inputs = s.inputs := by
  induction l with
  | nil => intros; rfl
  | cons e l ih => intro s h; rw [runAll_cons, ih (fun x hx => h x (List.mem_cons_of_mem _ hx)), Effect.run_inputs_ne (h e List.mem_cons_self)]
theorem Effect.run_badLines_ne {s : State} {e : Effect} (h : e.tag ≠ 45 ∧ e.tag ≠ 100) : (e.run s).badLines = s.badLines := by
  cases e <;> first | rfl | exact absurd rfl h.1 | exact absurd rfl h.2
theorem runAll_badLines_ne {l : List Effect} : ∀ {s : State}, (∀ e ∈ l, e.tag ≠ 45 ∧ e.tag ≠ 100) → (runAll s l).badLines = s.badLines := by
  induction l with
  | nil => intros; rfl
  | cons e l ih => intro s h; rw [runAll_cons, ih (fun x hx => h x (List.mem_cons_of_mem _ hx)), Effect.run_badLines_ne (h e List.mem_cons_self)]
theorem Effect.run_efcNow_ne {s : State} {e : Effect} (h : e.tag ≠ 46 ∧ e.tag ≠ 100) : (e.run s).efcNow = s.efcNow := by
  cases e <;> first | rfl | exact absurd rfl h.1 | exact absurd rfl h.2
theorem runAll_efcNow_ne {l : List Effect} : ∀ {s : State}, (∀ e ∈ l, e.tag ≠ 46 ∧ e.tag ≠ 100) → (runAll s l).efcNow = s.efcNow := by
  induction l with
  | nil => intros; rfl
  | cons e l ih => intro s h; rw [runAll_cons, ih (fun x hx => h x (List.mem_cons_of_mem _ hx)), Effect.run_efcNow_ne (h e List.mem_cons_self)]
theorem Effect.run_hostReply_ne {s : State} {e : Effect} (h : e.tag ≠ 47 ∧ e.tag ≠ 100) : (e.run s).hostReply = s.hostReply := by
  cases e <;> first | rfl | exact absurd rfl h.1
theorem runAll_hostReply_ne {l : List Effect} : ∀ {s : State}, (∀ e ∈ l, e.tag ≠ 47 ∧ e.tag ≠ 100) → (runAll s l).hostReply = s.hostReply := by
  induction l with
  | nil => intros; rfl
  | cons e l ih => intro s h; rw [runAll_cons, ih (fun x hx => h x (List.mem_cons_of_mem _ hx)), Effect.run_hostReply_ne (h e List.mem_cons_self)]
theorem Effect.run_fresh_ne {s : State} {e : Effect} (h : e.tag ≠ 48 ∧ e.tag ≠ 100) : (e.run s).fresh = s.fresh := by
  cases e <;> first | rfl | exact absurd rfl h.1
theorem runAll_fresh_ne {l : List Effect} : ∀ {s : State}, (∀ e ∈ l, e.tag ≠ 48 ∧ e.tag ≠ 100) → (runAll s l).fresh = s.fresh := by
  induction l with
  | nil => intros; rfl
  | cons e l ih => intro s h; rw [runAll_cons, ih (fun x hx => h x (List.mem_cons_of_mem _ hx)), Effect.run_fresh_ne (h e List.mem_cons_self)]
theorem Effect.run_nextId_ne {s : State} {e : Effect} (h : e.tag ≠ 49 ∧ e.tag ≠ 100) : (e.run s).nextId = s.nextId := by
  cases e <;> first | rfl | exact absurd rfl h.1
theorem runAll_nextId_ne {l : List Effect} : ∀ {s : State}, (∀ e ∈ l, e.tag ≠ 49 ∧ e.tag ≠ 100) → (runAll s l).nextId = s.nextId := by
  induction l with
  | nil => intros; rfl
  | cons e l ih => intro s h; rw [runAll_cons, ih (fun x hx => h x (List.mem_cons_of_mem _ hx)), Effect.run_nextId_ne (h e List.mem_cons_self)]
theorem Effect.run_integ_ne {s : State} {e : Effect} (h : e.tag ≠ 50 ∧ e.tag ≠ 100) : (e.run s).integ = s.integ := by
  cases e <;> first | rfl | exact absurd rfl h.1 | exact absurd rfl h.2
theorem runAll_integ_ne {l : List Effect} : ∀ {s : State}, (∀ e ∈ l, e.tag ≠ 50 ∧ e.tag ≠ 100) → (runAll s l).integ = s.integ := by
  induction l with
  | nil => intros; rfl
  | cons e l ih => intro s h; rw [runAll_cons, ih (fun x hx => h x (List.mem_cons_of_mem _ hx)), Effect.run_integ_ne (h e List.mem_cons_self)]
theorem Effect.run_badMem_ne {s : State} {e : Effect} (h : e.tag ≠ 51 ∧ e.tag ≠ 100) : (e.run s).badMem = s.badMem := by
  cases e <;> first | rfl | exact absurd rfl h.1 | exact absurd rfl h.2
theorem runAll_badMem_ne {l : List Effect} : ∀ {s : State}, (∀ e ∈ l, e.tag ≠ 51 ∧ e.tag ≠ 100) → (runAll s l).badMem = s.badMem := by
  induction l with
  | nil => intros; rfl
  | cons e l ih => intro s h; rw [runAll_cons, ih (fun x hx => h x (List.mem_cons_of_mem _ hx)), Effect.run_badMem_ne (h e List.mem_cons_self)]
theorem Effect.run_errors_ne {s : State} {e : Effect} (h : e.tag ≠ 52 ∧ e.tag ≠ 100) : (e.run s).errors = s.errors := by
  cases e <;> first | rfl | exact absurd rfl h.1
theorem runAll_errors_ne {l : List Effect} : ∀ {s : State}, (∀ e ∈ l, e.tag ≠ 52 ∧ e.tag ≠ 100) → (runAll s l).errors = s.errors := by
  induction l with
  | nil => intros; rfl
  | cons e l ih => intro s h; rw [runAll_cons, ih (fun x hx => h x (List.mem_cons_of_mem _ hx)), Effect.run_errors_ne (h e List.mem_cons_self)]

/-! ## The canonical form -/

/-- What State.canonical says, table by table. -/
theorem State.canonical_iff (s : State) : s.canonical = true ↔
    Tab.wf (zeroByte) s.mem = true ∧
    Tab.wf (fun _ => Group.empty) s.groups = true ∧
    Tab.wf (fun _ => Ctx.empty) s.ctxs = true ∧
    Tab.wf (fun _ => Sched.empty) s.scheds = true ∧
    Tab.wf (fun _ => Core.empty) s.cores = true ∧
    Tab.wf (fun _ => 0) s.acc = true ∧
    Tab.wf (fun _ => 0) s.accMeta = true ∧
    Tab.wf (fun _ => 0) s.scales = true ∧
    Tab.wf (fun _ => Latch.empty) s.latches = true ∧
    Tab.wf (fun _ => 0) s.images = true ∧
    Tab.wf (fun _ => Code.empty) s.codes = true ∧
    Tab.wf (fun _ => none) s.ops = true ∧
    Tab.wf (fun _ => none) s.engs = true ∧
    Tab.wf (fun _ => none) s.launches = true ∧
    Tab.wf (fun _ => none) s.wgs = true ∧
    Tab.wf (fun _ => []) s.devq = true ∧
    Tab.wf (fun _ => Task.empty) s.tasks = true ∧
    Tab.wf (fun _ => Func.empty) s.fns = true ∧
    Tab.wf (winReset) s.win = true ∧
    Tab.wf (fun _ => 0) s.frames = true ∧
    Tab.wf (fun _ => 0) s.integ = true ∧
    Tab.wf (fun _ => 0) s.keys = true ∧
    Tab.wf (fun _ => Fifo.empty) s.fifos = true ∧
    Tab.wf (fun _ => Efc.empty) s.efcs = true ∧
    Tab.wf (fun _ => TraceUnit.empty) s.traces = true ∧
    Tab.wf (fun _ => Bank.empty) s.banks = true ∧
    Tab.wf (fun _ => 0) s.copyTurn = true ∧
    Tab.wf (fun _ => Peer.empty) s.peers = true ∧
    Tab.wf (fun _ => none) s.saved = true ∧
    Tab.wf (fun _ => 0) s.paths = true ∧
    Tab.wf (fun _ => 0) s.msix = true ∧
    Tab.wf (fun _ => 0) s.badLines = true ∧
    Tab.wf (fun _ => 0) s.badMem = true := by
  simp only [State.canonical, Bool.and_eq_true, and_assoc]

/-- The integrity counts that writes raise stay a table (R339). -/
theorem State.raises_wf {s : State} (h : Tab.wf (fun _ => 0) s.integ = true) (k n : Nat) : Tab.wf (fun _ => 0) (s.raises k n) = true := by
  unfold State.raises
  split
  · exact h
  · refine List.foldlRecOn (motive := fun t => Tab.wf (fun _ => 0) t = true) _ _ h fun t ht j _ => ?_
    dsimp only
    split
    · exact Tab.wf_put _ _ (Tab.wf_put _ _ (Tab.wf_put _ _ ht))
    · exact ht

/-- Every write keeps every table canonical. -/
theorem Effect.run_canonical {s : State} (e : Effect) (h : s.canonical = true) : (e.run s).canonical = true := by
  rw [State.canonical_iff] at h ⊢
  obtain ⟨h0, h1, h2, h3, h4, h5, h6, h7, h8, h9, h10, h11, h12, h13, h14, h15, h16, h17, h18, h19, h20, h21, h22, h23, h24, h25, h26, h27, h28, h29, h30, h31, h32⟩ := h
  cases e
  case mem => exact ⟨Tab.wf_put _ _ h0, h1, h2, h3, h4, h5, h6, h7, h8, h9, h10, h11, h12, h13, h14, h15, h16, h17, h18, h19, h20, h21, h22, h23, h24, h25, h26, h27, h28, h29, h30, h31, h32⟩
  case cycle => exact ⟨h0, h1, h2, h3, h4, h5, h6, h7, h8, h9, h10, h11, h12, h13, h14, h15, h16, h17, h18, h19, h20, h21, h22, h23, h24, h25, h26, h27, h28, h29, h30, h31, h32⟩
  case time => exact ⟨h0, h1, h2, h3, h4, h5, h6, h7, h8, h9, h10, h11, h12, h13, h14, h15, h16, h17, h18, h19, h20, h21, h22, h23, h24, h25, h26, h27, h28, h29, h30, h31, h32⟩
  case groups => exact ⟨h0, Tab.wf_put _ _ h1, h2, h3, h4, h5, h6, h7, h8, h9, h10, h11, h12, h13, h14, h15, h16, h17, h18, h19, h20, h21, h22, h23, h24, h25, h26, h27, h28, h29, h30, h31, h32⟩
  case ctxs => exact ⟨h0, h1, Tab.wf_put _ _ h2, h3, h4, h5, h6, h7, h8, h9, h10, h11, h12, h13, h14, h15, h16, h17, h18, h19, h20, h21, h22, h23, h24, h25, h26, h27, h28, h29, h30, h31, h32⟩
  case scheds => exact ⟨h0, h1, h2, Tab.wf_put _ _ h3, h4, h5, h6, h7, h8, h9, h10, h11, h12, h13, h14, h15, h16, h17, h18, h19, h20, h21, h22, h23, h24, h25, h26, h27, h28, h29, h30, h31, h32⟩
  case cores => exact ⟨h0, h1, h2, h3, Tab.wf_put _ _ h4, h5, h6, h7, h8, h9, h10, h11, h12, h13, h14, h15, h16, h17, h18, h19, h20, h21, h22, h23, h24, h25, h26, h27, h28, h29, h30, h31, h32⟩
  case acc => exact ⟨h0, h1, h2, h3, h4, Tab.wf_put _ _ h5, h6, h7, h8, h9, h10, h11, h12, h13, h14, h15, h16, h17, h18, h19, h20, h21, h22, h23, h24, h25, h26, h27, h28, h29, h30, h31, h32⟩
  case accMeta => exact ⟨h0, h1, h2, h3, h4, h5, Tab.wf_put _ _ h6, h7, h8, h9, h10, h11, h12, h13, h14, h15, h16, h17, h18, h19, h20, h21, h22, h23, h24, h25, h26, h27, h28, h29, h30, h31, h32⟩
  case scales => exact ⟨h0, h1, h2, h3, h4, h5, h6, Tab.wf_put _ _ h7, h8, h9, h10, h11, h12, h13, h14, h15, h16, h17, h18, h19, h20, h21, h22, h23, h24, h25, h26, h27, h28, h29, h30, h31, h32⟩
  case latches => exact ⟨h0, h1, h2, h3, h4, h5, h6, h7, Tab.wf_put _ _ h8, h9, h10, h11, h12, h13, h14, h15, h16, h17, h18, h19, h20, h21, h22, h23, h24, h25, h26, h27, h28, h29, h30, h31, h32⟩
  case images => exact ⟨h0, h1, h2, h3, h4, h5, h6, h7, h8, Tab.wf_put _ _ h9, h10, h11, h12, h13, h14, h15, h16, h17, h18, h19, h20, h21, h22, h23, h24, h25, h26, h27, h28, h29, h30, h31, h32⟩
  case codes => exact ⟨h0, h1, h2, h3, h4, h5, h6, h7, h8, h9, Tab.wf_put _ _ h10, h11, h12, h13, h14, h15, h16, h17, h18, h19, h20, h21, h22, h23, h24, h25, h26, h27, h28, h29, h30, h31, h32⟩
  case ops => exact ⟨h0, h1, h2, h3, h4, h5, h6, h7, h8, h9, h10, Tab.wf_put _ _ h11, h12, h13, h14, h15, h16, h17, h18, h19, h20, h21, h22, h23, h24, h25, h26, h27, h28, h29, h30, h31, h32⟩
  case engs => exact ⟨h0, h1, h2, h3, h4, h5, h6, h7, h8, h9, h10, h11, Tab.wf_put _ _ h12, h13, h14, h15, h16, h17, h18, h19, h20, h21, h22, h23, h24, h25, h26, h27, h28, h29, h30, h31, h32⟩
  case launches => exact ⟨h0, h1, h2, h3, h4, h5, h6, h7, h8, h9, h10, h11, h12, Tab.wf_put _ _ h13, h14, h15, h16, h17, h18, h19, h20, h21, h22, h23, h24, h25, h26, h27, h28, h29, h30, h31, h32⟩
  case wgs => exact ⟨h0, h1, h2, h3, h4, h5, h6, h7, h8, h9, h10, h11, h12, h13, Tab.wf_put _ _ h14, h15, h16, h17, h18, h19, h20, h21, h22, h23, h24, h25, h26, h27, h28, h29, h30, h31, h32⟩
  case devq => exact ⟨h0, h1, h2, h3, h4, h5, h6, h7, h8, h9, h10, h11, h12, h13, h14, Tab.wf_put _ _ h15, h16, h17, h18, h19, h20, h21, h22, h23, h24, h25, h26, h27, h28, h29, h30, h31, h32⟩
  case tasks => exact ⟨h0, h1, h2, h3, h4, h5, h6, h7, h8, h9, h10, h11, h12, h13, h14, h15, Tab.wf_put _ _ h16, h17, h18, h19, h20, h21, h22, h23, h24, h25, h26, h27, h28, h29, h30, h31, h32⟩
  case admits => exact ⟨h0, h1, h2, h3, h4, h5, h6, h7, h8, h9, h10, h11, h12, h13, h14, h15, h16, h17, h18, h19, h20, h21, h22, h23, h24, h25, h26, h27, h28, h29, h30, h31, h32⟩
  case mktNext => exact ⟨h0, h1, h2, h3, h4, h5, h6, h7, h8, h9, h10, h11, h12, h13, h14, h15, h16, h17, h18, h19, h20, h21, h22, h23, h24, h25, h26, h27, h28, h29, h30, h31, h32⟩
  case mktCore => exact ⟨h0, h1, h2, h3, h4, h5, h6, h7, h8, h9, h10, h11, h12, h13, h14, h15, h16, h17, h18, h19, h20, h21, h22, h23, h24, h25, h26, h27, h28, h29, h30, h31, h32⟩
  case dispatched => exact ⟨h0, h1, h2, h3, h4, h5, h6, h7, h8, h9, h10, h11, h12, h13, h14, h15, h16, h17, h18, h19, h20, h21, h22, h23, h24, h25, h26, h27, h28, h29, h30, h31, h32⟩
  case fns => exact ⟨h0, h1, h2, h3, h4, h5, h6, h7, h8, h9, h10, h11, h12, h13, h14, h15, h16, Tab.wf_put _ _ h17, h18, h19, h20, h21, h22, h23, h24, h25, h26, h27, h28, h29, h30, h31, h32⟩
  case win => exact ⟨h0, h1, h2, h3, h4, h5, h6, h7, h8, h9, h10, h11, h12, h13, h14, h15, h16, h17, Tab.wf_put _ _ h18, h19, h20, h21, h22, h23, h24, h25, h26, h27, h28, h29, h30, h31, h32⟩
  case frames => exact ⟨h0, h1, h2, h3, h4, h5, h6, h7, h8, h9, h10, h11, h12, h13, h14, h15, h16, h17, h18, Tab.wf_put _ _ h19, h20, h21, h22, h23, h24, h25, h26, h27, h28, h29, h30, h31, h32⟩
  case slotsUsed => exact ⟨h0, h1, h2, h3, h4, h5, h6, h7, h8, h9, h10, h11, h12, h13, h14, h15, h16, h17, h18, h19, h20, h21, h22, h23, h24, h25, h26, h27, h28, h29, h30, h31, h32⟩
  case keys => exact ⟨h0, h1, h2, h3, h4, h5, h6, h7, h8, h9, h10, h11, h12, h13, h14, h15, h16, h17, h18, h19, h20, Tab.wf_put _ _ h21, h22, h23, h24, h25, h26, h27, h28, h29, h30, h31, h32⟩
  case fifos => exact ⟨h0, h1, h2, h3, h4, h5, h6, h7, h8, h9, h10, h11, h12, h13, h14, h15, h16, h17, h18, h19, h20, h21, Tab.wf_put _ _ h22, h23, h24, h25, h26, h27, h28, h29, h30, h31, h32⟩
  case efcs => exact ⟨h0, h1, h2, h3, h4, h5, h6, h7, h8, h9, h10, h11, h12, h13, h14, h15, h16, h17, h18, h19, h20, h21, h22, Tab.wf_put _ _ h23, h24, h25, h26, h27, h28, h29, h30, h31, h32⟩
  case traces => exact ⟨h0, h1, h2, h3, h4, h5, h6, h7, h8, h9, h10, h11, h12, h13, h14, h15, h16, h17, h18, h19, h20, h21, h22, h23, Tab.wf_put _ _ h24, h25, h26, h27, h28, h29, h30, h31, h32⟩
  case banks => exact ⟨h0, h1, h2, h3, h4, h5, h6, h7, h8, h9, h10, h11, h12, h13, h14, h15, h16, h17, h18, h19, h20, h21, h22, h23, h24, Tab.wf_put _ _ h25, h26, h27, h28, h29, h30, h31, h32⟩
  case dbg => exact ⟨h0, h1, h2, h3, h4, h5, h6, h7, h8, h9, h10, h11, h12, h13, h14, h15, h16, h17, h18, h19, h20, h21, h22, h23, h24, h25, h26, h27, h28, h29, h30, h31, h32⟩
  case root => exact ⟨h0, h1, h2, h3, h4, h5, h6, h7, h8, h9, h10, h11, h12, h13, h14, h15, h16, h17, h18, h19, h20, h21, h22, h23, h24, h25, h26, h27, h28, h29, h30, h31, h32⟩
  case copyTurn => exact ⟨h0, h1, h2, h3, h4, h5, h6, h7, h8, h9, h10, h11, h12, h13, h14, h15, h16, h17, h18, h19, h20, h21, h22, h23, h24, h25, Tab.wf_put _ _ h26, h27, h28, h29, h30, h31, h32⟩
  case peers => exact ⟨h0, h1, h2, h3, h4, h5, h6, h7, h8, h9, h10, h11, h12, h13, h14, h15, h16, h17, h18, h19, h20, h21, h22, h23, h24, h25, h26, Tab.wf_put _ _ h27, h28, h29, h30, h31, h32⟩
  case saved => exact ⟨h0, h1, h2, h3, h4, h5, h6, h7, h8, h9, h10, h11, h12, h13, h14, h15, h16, h17, h18, h19, h20, h21, h22, h23, h24, h25, h26, h27, Tab.wf_put _ _ h28, h29, h30, h31, h32⟩
  case contribs => exact ⟨h0, h1, h2, h3, h4, h5, h6, h7, h8, h9, h10, h11, h12, h13, h14, h15, h16, h17, h18, h19, h20, h21, h22, h23, h24, h25, h26, h27, h28, h29, h30, h31, h32⟩
  case results => exact ⟨h0, h1, h2, h3, h4, h5, h6, h7, h8, h9, h10, h11, h12, h13, h14, h15, h16, h17, h18, h19, h20, h21, h22, h23, h24, h25, h26, h27, h28, h29, h30, h31, h32⟩
  case paths => exact ⟨h0, h1, h2, h3, h4, h5, h6, h7, h8, h9, h10, h11, h12, h13, h14, h15, h16, h17, h18, h19, h20, h21, h22, h23, h24, h25, h26, h27, h28, Tab.wf_put _ _ h29, h30, h31, h32⟩
  case sec => exact ⟨h0, h1, h2, h3, h4, h5, h6, h7, h8, h9, h10, h11, h12, h13, h14, h15, h16, h17, h18, h19, h20, h21, h22, h23, h24, h25, h26, h27, h28, h29, h30, h31, h32⟩
  case msix => exact ⟨h0, h1, h2, h3, h4, h5, h6, h7, h8, h9, h10, h11, h12, h13, h14, h15, h16, h17, h18, h19, h20, h21, h22, h23, h24, h25, h26, h27, h28, h29, Tab.wf_put _ _ h30, h31, h32⟩
  case turn => exact ⟨h0, h1, h2, h3, h4, h5, h6, h7, h8, h9, h10, h11, h12, h13, h14, h15, h16, h17, h18, h19, h20, h21, h22, h23, h24, h25, h26, h27, h28, h29, h30, h31, h32⟩
  case agenda => exact ⟨h0, h1, h2, h3, h4, h5, h6, h7, h8, h9, h10, h11, h12, h13, h14, h15, h16, h17, h18, h19, h20, h21, h22, h23, h24, h25, h26, h27, h28, h29, h30, h31, h32⟩
  case inputs => exact ⟨h0, h1, h2, h3, h4, h5, h6, h7, h8, h9, h10, h11, h12, h13, h14, h15, h16, h17, h18, h19, h20, h21, h22, h23, h24, h25, h26, h27, h28, h29, h30, h31, h32⟩
  case badLines => exact ⟨h0, h1, h2, h3, h4, h5, h6, h7, h8, h9, h10, h11, h12, h13, h14, h15, h16, h17, h18, h19, h20, h21, h22, h23, h24, h25, h26, h27, h28, h29, h30, Tab.wf_put _ _ h31, h32⟩
  case badMem => exact ⟨h0, h1, h2, h3, h4, h5, h6, h7, h8, h9, h10, h11, h12, h13, h14, h15, h16, h17, h18, h19, h20, h21, h22, h23, h24, h25, h26, h27, h28, h29, h30, h31, Tab.wf_put _ _ h32⟩
  case errors => exact ⟨h0, h1, h2, h3, h4, h5, h6, h7, h8, h9, h10, h11, h12, h13, h14, h15, h16, h17, h18, h19, h20, h21, h22, h23, h24, h25, h26, h27, h28, h29, h30, h31, h32⟩
  case integ => exact ⟨h0, h1, h2, h3, h4, h5, h6, h7, h8, h9, h10, h11, h12, h13, h14, h15, h16, h17, h18, h19, Tab.wf_put _ _ h20, h21, h22, h23, h24, h25, h26, h27, h28, h29, h30, h31, h32⟩
  case raise => exact ⟨h0, h1, h2, h3, h4, h5, h6, h7, h8, h9, h10, h11, h12, h13, h14, h15, h16, h17, h18, h19, State.raises_wf h20 _ _, h21, h22, h23, h24, h25, h26, h27, h28, h29, h30, h31, h32⟩
  case efcNow => exact ⟨h0, h1, h2, h3, h4, h5, h6, h7, h8, h9, h10, h11, h12, h13, h14, h15, h16, h17, h18, h19, h20, h21, h22, h23, h24, h25, h26, h27, h28, h29, h30, h31, h32⟩
  case hostReply => exact ⟨h0, h1, h2, h3, h4, h5, h6, h7, h8, h9, h10, h11, h12, h13, h14, h15, h16, h17, h18, h19, h20, h21, h22, h23, h24, h25, h26, h27, h28, h29, h30, h31, h32⟩
  case fresh => exact ⟨h0, h1, h2, h3, h4, h5, h6, h7, h8, h9, h10, h11, h12, h13, h14, h15, h16, h17, h18, h19, h20, h21, h22, h23, h24, h25, h26, h27, h28, h29, h30, h31, h32⟩
  case nextId => exact ⟨h0, h1, h2, h3, h4, h5, h6, h7, h8, h9, h10, h11, h12, h13, h14, h15, h16, h17, h18, h19, h20, h21, h22, h23, h24, h25, h26, h27, h28, h29, h30, h31, h32⟩
  case memClear => exact ⟨clearRange_wf _ _ h0, h1, h2, h3, h4, h5, h6, h7, h8, h9, h10, h11, h12, h13, h14, h15, h16, h17, h18, h19, h20, h21, h22, h23, h24, h25, h26, h27, h28, h29, h30, h31, h32⟩
  case wipe => exact ⟨keepHost_wf h0, rfl, rfl, rfl, rfl, rfl, rfl, rfl, rfl, rfl, rfl, rfl, rfl, rfl, rfl, rfl, rfl, rfl, rfl, rfl, rfl, rfl, rfl, rfl, rfl, rfl, rfl, rfl, rfl, rfl, h30, rfl, rfl⟩

theorem runAll_canonical {s : State} (l : List Effect) (h : s.canonical = true) : (runAll s l).canonical = true := by
  induction l generalizing s with
  | nil => exact h
  | cons e l ih => exact ih (e.run_canonical h)

end Sys2Proof.Machine
end

