-- ==== Sys2Proof/Laws/Issue.lean ====
section
/-! SUPPORT. Laws of issue: what an instruction that issues leaves, and what the results of the common forms do to registers. -/

namespace Sys2Proof.Spec
open Sys2Proof.Machine

/-! ## The turn -/

/-- The issue that a turn gives. -/
def exOf (s : State) (w : Issuer) (g : Group) (i : Nat) (h : Hdr) (len : Nat) : Ex :=
  { w := w, g := g, i := i, f := g.frag i, h := h, len := len, cyc := s.cycle, mem := false }

theorem Turn.ex {s : State} {w : Issuer} {g : Group} {i : Nat} (t : Turn s w g i) (h : Hdr) (len : Nat) :
    Ex.of s h len = some (exOf s w g i h len) := by
  cases t with
  | group k i ht hl hf => simp [Ex.of, ht, hl, hf, exOf]
  | context k ht hs hf => simp [Ex.of, ht, hs, hf, exOf]

theorem Turn.live {s : State} {w : Issuer} {g : Group} {i : Nat} (t : Turn s w g i) : (g.frag i).fst = .live := by
  cases t <;> assumption

theorem issue_eq {s : State} {w : Issuer} {g : Group} {i : Nat} (t : Turn s w g i) (h : Hdr) (len : Nat) (p : Ex → Prog) :
    issue h len s p = (p (exOf s w g i h len)).go s := by
  simp [issue, t.ex h len]

theorem Calm.hazard {s : State} {w : Issuer} {g : Group} (c : Calm s w g) (i : Nat) (h : Hdr) (len : Nat) (feet : List Foot) :
    (exOf s w g i h len).hazard s feet = false := by
  rcases c with c | ⟨c1, c2⟩
  · simp [Ex.hazard, exOf, c]
  · have : s.ops.any (fun p => match p.2 with
        | some o => sameAgent o.who w && false
        | none => false) = false := by
      simp only [List.any_eq_false]; intro p _; cases p.2 <;> simp
    simp only [Ex.hazard, exOf, c1, List.any_nil, Bool.false_or, Bool.and_eq_false_iff, List.any_eq_false]
    right
    intro ft _
    simp only [Bool.not_eq_true, List.any_eq_false]
    intro p hp
    cases ho : p.2 with
    | none => simp
    | some o => simp [c2 p hp o ho]

/-- Checks that object to nothing. -/
theorem check_eq {s : State} {w : Issuer} {g : Group} (c : Calm s w g) (i : Nat) (h : Hdr) (len : Nat) (feet : List Foot) (p : Prog) :
    ((exOf s w g i h len).check feet false p) s = p s := by
  simp [Ex.check, Prog.on, c.hazard]

theorem check_marked_eq {s : State} {w : Issuer} {g : Group} (c : Calm s w g) (i : Nat) (h : Hdr) (len : Nat) (feet : List Foot) (p : Prog)
    {m : Bool} (hm : m = true → g.mixed (g.frag i).mask = false) :
    ((exOf s w g i h len).check feet m p) s = p s := by
  have hm' : (m && g.mixed (g.frag i).mask) = false := by cases m <;> simp_all
  simp only [Ex.check, Prog.on, c.hazard, Bool.false_eq_true, if_false]
  have : (m && (exOf s w g i h len).g.mixed (exOf s w g i h len).f.mask) = false := hm'
  simp [this]

theorem only_grp_eq (s : State) (k i' : Nat) (g : Group) (i : Nat) (h : Hdr) (len : Nat) (ctx : Bool) (p : Prog) :
    (exOf s (.grp k i') g i h len).only true ctx p = p := by
  simp [Ex.only, Ex.isCtx, exOf]

theorem only_both_eq (x : Ex) (p : Prog) : x.only true true p = p := by simp [Ex.only]

theorem only_ctx_eq (s : State) (k : Nat) (g : Group) (i : Nat) (h : Hdr) (len : Nat) (b : Bool) (p : Prog) :
    (exOf s (.ctx k) g i h len).only b true p = p := by
  simp [Ex.only, Ex.isCtx, exOf]

/-! ## Writing back the issuer's group -/

theorem Turn.others {s : State} {w : Issuer} {g : Group} {i : Nat} (t : Turn s w g i) (g' : Group) :
    Others s (runAll s (Prog.grp w g' s)) w g' := by
  cases t with
  | group k i ht hl hf =>
    refine ⟨fun j => ?_, ?_⟩
    · simp [Prog.grp, State.groupsAt, Tab.get_put]
    · simp [Prog.grp]
  | context k ht hs hf =>
    refine ⟨fun j => ?_, ?_⟩
    · simp [Prog.grp, State.ctxsAt, Tab.get_put]
    · simp [Prog.grp]

/-! ## The group after an issue -/

theorem issued_issued (s : State) (w : Issuer) (g : Group) (i : Nat) (h : Hdr) (len : Nat) (covers : Bool) :
    Issued g ((exOf s w g i h len).issued covers) i len s.cycle h covers := by
  have hf : ((exOf s w g i h len).issued covers).frag i = (exOf s w g i h len).after covers := by
    show (g.setFrag i _).frag i = _
    simp
  constructor
  · rw [hf]; simp only [Ex.after]; split <;> rfl
  · rw [hf]; simp only [Ex.after]; split <;> rfl
  · intro n
    rw [hf]; simp only [Ex.after]
    split
    · rename_i hc
      simp only [Bool.and_eq_true, bne_iff_ne, exOf] at hc
      by_cases hn : n = h.sbs.val
      · subst hn
        simp [Frag.slotAt, Frag.setSlot, exOf, hc.1, hc.2]
      · simp [Frag.slotAt, Frag.setSlot, exOf, hn, Tab.get_put]
    · rename_i hc
      have : ¬ (covers = true ∧ n = h.sbs.val ∧ n ≠ 0) := by
        rintro ⟨a, b, c⟩; subst b; simp [exOf, a, c] at hc
      simp [this]; rfl
  · rw [hf]; simp only [Ex.after]; split <;> exact ⟨rfl, rfl, rfl, rfl, rfl⟩
  · rw [hf]; simp only [Ex.after]; split <;> exact ⟨rfl, rfl, rfl⟩
  · intro j hj
    show (g.setFrag i _).frag j = _
    simp [hj]
  · exact ⟨rfl, rfl⟩
  · rfl

theorem issued_later {g g' : Group} {i len cyc : Nat} {h : Hdr} {c : Bool} (p : Pend) (hi : Issued g g' i len cyc h c) :
    Issued g (g'.later p) i len cyc h c := by
  obtain ⟨a, b, c, d, e, f, k, r⟩ := hi
  exact ⟨a, b, c, d, e, f, k, r⟩

theorem issued_fixedG (s : State) (w : Issuer) (g : Group) (i : Nat) (h : Hdr) (len lat : Nat) (covers : Bool) (outs : List Out) :
    Issued g ((exOf s w g i h len).fixedG lat covers outs) i len s.cycle h covers := by
  unfold Ex.fixedG
  simp only
  split
  · exact issued_issued ..
  · exact issued_later _ (issued_issued ..)

theorem pending_fixedG (s : State) (w : Issuer) (g : Group) (i : Nat) (h : Hdr) (len lat : Nat) (covers : Bool) (outs : List Out)
    {R : List Out → Prop} (hR : R outs) : Pending g ((exOf s w g i h len).fixedG lat covers outs) i (s.cycle + lat) h covers R := by
  unfold Ex.fixedG
  simp only
  split
  · rename_i hc
    simp only [Bool.and_eq_true, List.isEmpty_iff, Bool.or_eq_true, beq_iff_eq, Bool.not_eq_true'] at hc
    refine ⟨[], by simp [Ex.issued, exOf, Group.setFrag], by simp, by simp, ?_, by simpa [hc.1] using hR⟩
    intro h1 h2
    rcases hc.2 with h3 | h3
    · exact absurd h3 h2
    · simp [h1] at h3
  · exact ⟨[{ ready := s.cycle + lat, age := s.cycle, outs := outs, slot := if covers then h.sbs.val else 0, heirs := [i] }], rfl, by simp, by simp, by simp, by simpa using hR⟩

/-- An instruction of fixed latency completes (R16, R19). -/
theorem completes_fixed {s : State} {w : Issuer} {g : Group} {i : Nat} (t : Turn s w g i) (h : Hdr) (len lat : Nat) (covers : Bool)
    (outs : List Out) {R : List Out → Prop} (hR : R outs) {o : Answer} (ho : o = ((exOf s w g i h len).fixed lat covers outs).go s) :
    Completes s o w g i len lat h covers R :=
  ⟨_, _, ho, t.others _, issued_fixedG .., pending_fixedG _ _ _ _ _ _ _ _ _ hR⟩

/-! ## The common forms -/

/-- A lane instruction of fixed latency completes. -/
theorem laneFixed_completes {s : State} {k i : Nat} {g : Group} (t : Turn s (.grp k i) g i) (c : Calm s (.grp k i) g) (h : Hdr) (len lat : Nat)
    (feet : Nat → List Foot) (outs : Group → Nat → List Out) {R : List Out → Prop}
    (hR : R ((lanesOf (g.act (g.frag i).mask h)).flatMap (outs g))) :
    Completes s (laneFixed h len s lat feet outs) (.grp k i) g i len lat h (g.act (g.frag i).mask h != 0) R := by
  refine completes_fixed t h len lat _ _ hR ?_
  rw [laneFixed, issue_eq t]
  simp only [only_grp_eq, Prog.go]
  rw [check_eq c]
  rfl

/-- A group-wide instruction of fixed latency completes. -/
theorem groupFixed_completes {s : State} {w : Issuer} {i : Nat} {g : Group} (t : Turn s w g i) (c : Calm s w g) (h : Hdr) (len lat : Nat)
    (feet : List Foot) (m : Bool) (hm : m = true → g.mixed (g.frag i).mask = false) (outs : Ex → List Out) {R : List Out → Prop}
    (hR : R (if g.actQ (g.frag i).mask h = 0 then [] else outs (exOf s w g i h len))) :
    Completes s (groupFixed h len s true lat feet m outs) w g i len lat h (g.actQ (g.frag i).mask h != 0) R := by
  refine completes_fixed t h len lat _ _ hR ?_
  rw [groupFixed, issue_eq t, only_both_eq]
  simp only [Prog.go]
  rw [check_marked_eq c _ _ _ _ _ hm]
  rfl

/-! ## What the results of lane instructions do -/

theorem mem_lanesOf {m l : Nat} : l ∈ lanesOf m ↔ l < 16 ∧ bit m l = true := by
  simp [lanesOf, onesOf]

theorem mem_flagOut {o : Out} {b : Nat} : o ∈ flagOut b ↔ b ≠ 0 ∧ o = ⟨.flags, 0, 0, b, 1⟩ := by
  unfold flagOut; split <;> simp_all

/-- Bits of FLAGS that instructions set. -/
theorem flag_bit {b j : Nat} (hb : b &&& 0x73F = b) : (BitVec.ofNat 64 b &&& flagsW1c).getLsbD j = true ↔ bit b j = true := by
  have h1 : bit b j = b.testBit j := by simp [bit, Nat.testBit, Nat.shiftRight_eq_div_pow, Nat.one_and_eq_mod_two, Bool.beq_eq_decide_eq]
  have hlt : b < 2 ^ 64 := by rw [← hb]; exact Nat.lt_of_le_of_lt Nat.and_le_right (by decide)
  have h2 : b.testBit j = (b.testBit j && (0x73F : Nat).testBit j) := by rw [← Nat.testBit_and, hb]
  rw [h1]
  simp only [flagsW1c, BitVec.getLsbD_and, BitVec.getLsbD_ofNat, Bool.and_eq_true, decide_eq_true_eq]
  constructor
  · rintro ⟨⟨-, h⟩, -⟩; exact h
  · intro h
    have h3 := h; rw [h2] at h3; simp only [Bool.and_eq_true] at h3
    have : j < 64 := by
      by_cases hj : j < 64
      · exact hj
      · have := Nat.testBit_lt_two_pow (x := b) (i := j) (Nat.lt_of_lt_of_le hlt (Nat.pow_le_pow_right (by decide) (by omega)))
        rw [this] at h; exact absurd h (by decide)
    refine ⟨⟨this, h⟩, ?_⟩
    have e : BitVec.getLsbD (BitVec.ofNat 64 0x73F) j = (decide (j < 64) && Nat.testBit 0x73F j) := BitVec.getLsbD_ofNat ..
    exact e.trans (by rw [h3.2]; simp [this])

/-- The results of a lane instruction that writes a v register and may set flags. -/
theorem landsV (act n d : Nat) (sg : Bool) (x : Nat → Nat) (val : Nat → Int) (fl : Nat → Nat) (hn : n ≠ 64 → ∀ l, bit act l →
      BitVec.ofNat 32 (extend32 n sg (x l)) = BitVec.ofInt 32 (val l))
    (h64 : n = 64 → ∀ l, bit act l → BitVec.ofNat 32 (x l) = BitVec.ofInt 32 (val l) ∧
      BitVec.ofNat 32 (x l / 4294967296) = BitVec.ofInt 32 (val l / 4294967296))
    (hf : ∀ l, fl l &&& 0x73F = fl l) :
    LandsV act n d val fl ((lanesOf act).flatMap fun l => vOut d l n sg (x l) ++ flagOut (fl l)) := by
  have hmod : ∀ y : Nat, BitVec.ofNat 32 (y % 4294967296) = BitVec.ofNat 32 y := fun y => by
    apply BitVec.eq_of_toNat_eq; simp
  have hv : ∀ o, o ∈ ((lanesOf act).flatMap fun l => vOut d l n sg (x l) ++ flagOut (fl l)) ↔
      ∃ l, l < 16 ∧ bit act l = true ∧ (o ∈ vOut d l n sg (x l) ∨ (fl l ≠ 0 ∧ o = ⟨.flags, 0, 0, fl l, 1⟩)) := by
    intro o; simp only [List.mem_flatMap, mem_lanesOf, List.mem_append, mem_flagOut, and_assoc]
  refine ⟨?_, ?_, ?_⟩
  · intro g r l hl
    by_cases h64' : n = 64
    · subst h64'
      by_cases ha : bit act l = true
      · by_cases hr : r = d
        · subst hr
          simp only [ha, true_and, if_true]
          refine Group.readV_writeOuts g hl ?_ ?_ ?_
          · intro o ho hof; obtain ⟨l', hl', _, h⟩ := (hv o).1 ho
            rcases h with h | ⟨_, rfl⟩
            · simp only [vOut, if_true, List.mem_cons, List.not_mem_nil, or_false] at h; rcases h with rfl | rfl <;> exact hl'
            · simp at hof
          · intro o ho hof hor hol; obtain ⟨l', hl', ha', h⟩ := (hv o).1 ho
            rcases h with h | ⟨_, rfl⟩
            · simp only [vOut, if_true, List.mem_cons, List.not_mem_nil, or_false] at h
              rcases h with rfl | rfl
              · simp only at hol; subst hol; rw [hmod]; exact (h64 rfl _ ha).1
              · simp at hor
            · simp at hof
          · exact ⟨⟨.v, r, l, x l % 4294967296, 0⟩, (hv _).2 ⟨l, hl, ha, .inl (by simp [vOut])⟩, rfl, rfl, rfl⟩
        · by_cases hr1 : r = d + 1
          · subst hr1
            simp only [ha, true_and, hr, if_false, if_true]
            refine Group.readV_writeOuts g hl ?_ ?_ ?_
            · intro o ho hof; obtain ⟨l', hl', _, h⟩ := (hv o).1 ho
              rcases h with h | ⟨_, rfl⟩
              · simp only [vOut, if_true, List.mem_cons, List.not_mem_nil, or_false] at h; rcases h with rfl | rfl <;> exact hl'
              · simp at hof
            · intro o ho hof hor hol; obtain ⟨l', hl', ha', h⟩ := (hv o).1 ho
              rcases h with h | ⟨_, rfl⟩
              · simp only [vOut, if_true, List.mem_cons, List.not_mem_nil, or_false] at h
                rcases h with rfl | rfl
                · simp at hor
                · simp only at hol; subst hol; rw [hmod]; exact (h64 rfl _ ha).2
              · simp at hof
            · exact ⟨⟨.v, d + 1, l, x l / 4294967296 % 4294967296, 0⟩, (hv _).2 ⟨l, hl, ha, .inl (by simp [vOut])⟩, rfl, rfl, rfl⟩
          · simp only [hr, hr1, and_false, if_false]
            refine Group.readV_writeOuts_keep g hl ?_
            intro o ho hof; obtain ⟨l', hl', _, h⟩ := (hv o).1 ho
            rcases h with h | ⟨_, rfl⟩
            · simp only [vOut, if_true, List.mem_cons, List.not_mem_nil, or_false] at h
              rcases h with rfl | rfl
              · exact ⟨hl', fun e => hr e.1.symm⟩
              · exact ⟨hl', fun e => hr1 e.1.symm⟩
            · simp at hof
      · simp only [ha, false_and, if_false, Bool.false_eq_true]
        refine Group.readV_writeOuts_keep g hl ?_
        intro o ho hof; obtain ⟨l', hl', ha', h⟩ := (hv o).1 ho
        have : l' ≠ l := fun e => ha (e ▸ ha')
        rcases h with h | ⟨_, rfl⟩
        · simp only [vOut, if_true, List.mem_cons, List.not_mem_nil, or_false] at h
          rcases h with rfl | rfl <;> exact ⟨hl', fun e => this e.2⟩
        · simp at hof
    · simp only [h64', and_false, false_and, if_false]
      by_cases ha : bit act l = true ∧ r = d
      · rw [if_pos ha]
        obtain ⟨ha, rfl⟩ := ha
        refine Group.readV_writeOuts g hl ?_ ?_ ?_
        · intro o ho hof; obtain ⟨l', hl', _, h⟩ := (hv o).1 ho
          rcases h with h | ⟨_, rfl⟩
          · simp only [vOut, h64', if_false, List.mem_cons, List.not_mem_nil, or_false] at h; subst h; exact hl'
          · simp at hof
        · intro o ho hof hor hol; obtain ⟨l', hl', ha', h⟩ := (hv o).1 ho
          rcases h with h | ⟨_, rfl⟩
          · simp only [vOut, h64', if_false, List.mem_cons, List.not_mem_nil, or_false] at h
            subst h; simp only at hol; subst hol; exact hn h64' _ ha
          · simp at hof
        · exact ⟨⟨.v, r, l, extend32 n sg (x l), 0⟩, (hv _).2 ⟨l, hl, ha, .inl (by simp [vOut, h64'])⟩, rfl, rfl, rfl⟩
      · rw [if_neg ha]
        refine Group.readV_writeOuts_keep g hl ?_
        intro o ho hof; obtain ⟨l', hl', ha', h⟩ := (hv o).1 ho
        rcases h with h | ⟨_, rfl⟩
        · simp only [vOut, h64', if_false, List.mem_cons, List.not_mem_nil, or_false] at h
          subst h; exact ⟨hl', fun e => ha ⟨e.2 ▸ ha', e.1.symm⟩⟩
        · simp at hof
  · intro g j
    rw [Group.flags_writeOuts g (by
      intro o ho hof; obtain ⟨l', hl', _, h⟩ := (hv o).1 ho
      rcases h with h | ⟨_, rfl⟩
      · unfold vOut at h; split at h <;> simp only [List.mem_cons, List.not_mem_nil, or_false] at h
        · rcases h with rfl | rfl <;> simp at hof
        · subst h; simp at hof
      · rfl)]
    constructor
    · rintro (h | ⟨o, ho, hof, hb⟩)
      · exact .inl h
      · obtain ⟨l', hl', ha', h⟩ := (hv o).1 ho
        rcases h with h | ⟨_, rfl⟩
        · unfold vOut at h; split at h <;> simp only [List.mem_cons, List.not_mem_nil, or_false] at h
          · rcases h with rfl | rfl <;> simp at hof
          · subst h; simp at hof
        · exact .inr ⟨l', hl', ha', (flag_bit (hf l')).1 hb⟩
    · rintro (h | ⟨l, hl, ha, hb⟩)
      · exact .inl h
      · refine .inr ⟨⟨.flags, 0, 0, fl l, 1⟩, (hv _).2 ⟨l, hl, ha, .inr ⟨?_, rfl⟩⟩, rfl, (flag_bit (hf l)).2 hb⟩
        intro e; rw [e] at hb; simp [bit] at hb
  · intro g
    refine Group.writeOuts_rest_v g ?_
    intro o ho; obtain ⟨l', hl', _, h⟩ := (hv o).1 ho
    rcases h with h | ⟨_, rfl⟩
    · unfold vOut at h; split at h <;> simp only [List.mem_cons, List.not_mem_nil, or_false] at h
      · rcases h with rfl | rfl <;> exact .inl rfl
      · subst h; exact .inl rfl
    · exact .inr ⟨rfl, rfl⟩

end Sys2Proof.Spec
end

