-- ==== Sys2Proof/Laws/PerInstr.lean ====
section
/-! SUPPORT. Family Shape, one lemma for each constructor: the fields that the encoder lays out are as many as the instruction's format has, and
no instruction has both a word of the Mladys set and one of the filter set. -/

namespace Sys2Proof.Laws.Shape

open Sys2Proof.Machine

/-- The fields above bit 63 are those of the format, and an instruction of the Mladys set has no filter word. -/
def Statement (i : Instr) : Prop :=
  (∀ x, fields i = some x → x.2.2.ext.length = x.2.1.widths.length) ∧ ((fields i).isSome = true → filterWord i = none)

theorem encI_ext (o : Opc) (h : Hdr) (d a fn mod : Nat) (b : SrcI) :
    (encI o h d a fn mod b).2.2.ext.length = (encI o h d a fn mod b).2.1.widths.length := by cases b <;> rfl

theorem encSm_ext (o : Opc) (h : Hdr) (d a fn mod : Nat) (b : SImm) :
    (encSm o h d a fn mod b).2.2.ext.length = (encSm o h d a fn mod b).2.1.widths.length := by cases b <;> rfl

theorem encMA_ext (o : Opc) (h : Hdr) (d : Nat) (m : MAddr) (b fn mod scope ord c nreg : Nat) :
    (encMA o h d m b fn mod scope ord c nreg).2.2.ext.length = (encMA o h d m b fn mod scope ord c nreg).2.1.widths.length := by
  cases m <;> rfl

theorem encA_ext (o : Opc) (h : Hdr) (d a b : Nat) (x : Async) (imm : Nat) :
    (encA o h d a b x imm).2.2.ext.length = (encA o h d a b x imm).2.1.widths.length := by
  unfold encA; split <;> rfl

/-- A statement from its two parts, where the fields are known. -/
theorem of_fields {i : Instr} {x : Opc × Format × Raw} (h : fields i = some x) (e : x.2.2.ext.length = x.2.1.widths.length)
    (f : filterWord i = none) : Statement i :=
  ⟨fun y hy => (by rw [h] at hy; cases hy; exact e), fun _ => f⟩

/-- A statement of an instruction that is not of the Mladys set. -/
theorem of_none {i : Instr} (h : fields i = none) : Statement i :=
  ⟨fun y hy => (by rw [h] at hy; cases hy), fun hy => (by rw [h] at hy; cases hy)⟩

theorem iadd (h : Hdr) (ty : ITy) (sat : Bool) (d : VReg) (a : Src) (b : SrcI) : Statement (.iadd h ty sat d a b) := of_fields rfl (encI_ext ..) rfl
theorem isub (h : Hdr) (ty : ITy) (sat : Bool) (d : VReg) (a : Src) (b : SrcI) : Statement (.isub h ty sat d a b) := of_fields rfl (encI_ext ..) rfl
theorem imul (h : Hdr) (ty : ITy) (sat : Bool) (d : VReg) (a : Src) (b : SrcI) : Statement (.imul h ty sat d a b) := of_fields rfl (encI_ext ..) rfl
theorem imulh (h : Hdr) (ty : ITy) (d : VReg) (a : Src) (b : SrcI) : Statement (.imulh h ty d a b) := of_fields rfl (encI_ext ..) rfl
theorem imin (h : Hdr) (ty : ITy) (d : VReg) (a : Src) (b : SrcI) : Statement (.imin h ty d a b) := of_fields rfl (encI_ext ..) rfl
theorem imax (h : Hdr) (ty : ITy) (d : VReg) (a : Src) (b : SrcI) : Statement (.imax h ty d a b) := of_fields rfl (encI_ext ..) rfl
theorem imad (h : Hdr) (ty : ITy) (sat : Bool) (d : VReg) (a b c : Src) : Statement (.imad h ty sat d a b c) := of_fields rfl rfl rfl
theorem iabs (h : Hdr) (ty : ITy) (sat : Bool) (d : VReg) (a : Src) : Statement (.iabs h ty sat d a) := of_fields rfl rfl rfl
theorem lop (h : Hdr) (fn : LogicFn) (ty : BTy) (d : VReg) (a : Src) (b : SrcI) : Statement (.lop h fn ty d a b) := by
  cases fn <;> first | exact of_fields rfl rfl rfl | exact of_fields rfl (encI_ext ..) rfl
theorem shf (h : Hdr) (fn : ShfFn) (ty : WTy) (d : VReg) (a : Src) (b : SrcI) : Statement (.shf h fn ty d a b) := of_fields rfl (encI_ext ..) rfl
theorem bfx (h : Hdr) (ty : ITy) (d : VReg) (a b c : Src) : Statement (.bfx h ty d a b c) := of_fields rfl rfl rfl
theorem bfi (h : Hdr) (ty : BTy) (d : VReg) (a b c : Src) : Statement (.bfi h ty d a b c) := of_fields rfl rfl rfl
theorem bitc (h : Hdr) (fn : BitcFn) (ty : BTy) (d : VReg) (a : Src) (b : SrcI) : Statement (.bitc h fn ty d a b) := of_fields rfl (encI_ext ..) rfl
theorem sel (h : Hdr) (ty : BTy) (d : VReg) (a b : Src) (c : PReg) : Statement (.sel h ty d a b c) := of_fields rfl rfl rfl
theorem icmp (h : Hdr) (ty : ITy) (cmp : Cmp) (d : PReg) (a : Src) (b : SrcI) : Statement (.icmp h ty cmp d a b) := of_fields rfl (encI_ext ..) rfl
theorem fadd (h : Hdr) (rm : Rm) (d : VReg) (a : Src) (b : SrcI) : Statement (.fadd h rm d a b) := of_fields rfl (encI_ext ..) rfl
theorem fmul (h : Hdr) (rm : Rm) (d : VReg) (a : Src) (b : SrcI) : Statement (.fmul h rm d a b) := of_fields rfl (encI_ext ..) rfl
theorem ffma (h : Hdr) (rm : Rm) (d : VReg) (a b c : Src) : Statement (.ffma h rm d a b c) := of_fields rfl rfl rfl
theorem fmnx (h : Hdr) (max : Bool) (d : VReg) (a : Src) (b : SrcI) : Statement (.fmnx h max d a b) := of_fields rfl (encI_ext ..) rfl
theorem fcmp (h : Hdr) (cmp : FCmp) (d : PReg) (a : Src) (b : SrcI) : Statement (.fcmp h cmp d a b) := of_fields rfl (encI_ext ..) rfl
theorem fcls (h : Hdr) (d : VReg) (a : Src) : Statement (.fcls h d a) := of_fields rfl rfl rfl
theorem fspc (h : Hdr) (fn : SpcFn) (rm : Rm) (d : VReg) (a : Src) : Statement (.fspc h fn rm d a) := of_fields rfl rfl rfl
theorem hadd2 (h : Hdr) (bf : Bool) (rm : Rm) (d : VReg) (a : Src) (b : SrcI) : Statement (.hadd2 h bf rm d a b) := of_fields rfl (encI_ext ..) rfl
theorem hmul2 (h : Hdr) (bf : Bool) (rm : Rm) (d : VReg) (a : Src) (b : SrcI) : Statement (.hmul2 h bf rm d a b) := of_fields rfl (encI_ext ..) rfl
theorem hfma2 (h : Hdr) (bf : Bool) (rm : Rm) (d : VReg) (a b c : Src) : Statement (.hfma2 h bf rm d a b c) := of_fields rfl rfl rfl
theorem fdp4 (h : Hdr) (e5 : Bool) (rm : Rm) (d : VReg) (a b c : Src) : Statement (.fdp4 h e5 rm d a b c) := of_fields rfl rfl rfl
theorem cvtf (h : Hdr) (dst src : Fmt) (rm : Rm) (sat : Bool) (d : VReg) (a : Src) : Statement (.cvtf h dst src rm sat d a) := of_fields rfl rfl rfl
theorem cvti (h : Hdr) (toInt : Bool) (fty : AFmt) (ity : ITy) (rm : Rm) (d : VReg) (a : Src) : Statement (.cvti h toInt fty ity rm d a) := of_fields rfl rfl rfl
theorem cvtq (h : Hdr) (q8 : Bool) (k : Fin 8) (d : VReg) (a b : Src) : Statement (.cvtq h q8 k d a b) := of_fields rfl rfl rfl
theorem mov (h : Hdr) (ty : BTy) (d : VReg) (a : Src) : Statement (.mov h ty d a) := of_fields rfl rfl rfl
theorem movi (h : Hdr) (ty : BTy) (d : VReg) (i : MovImm) : Statement (.movi h ty d i) := by cases i <;> exact of_fields rfl rfl rfl
theorem movs (h : Hdr) (src : MovsSrc) (d : VReg) : Statement (.movs h src d) := of_fields rfl rfl rfl
theorem movg (h : Hdr) (ty : BTy) (d : SReg) (a : Src) : Statement (.movg h ty d a) := of_fields rfl rfl rfl
theorem plog (h : Hdr) (fn : LogicFn) (x : PlogArgs) : Statement (.plog h fn x) := by cases x <;> exact of_fields rfl rfl rfl
theorem pset (h : Hdr) (x : PsetArgs) : Statement (.pset h x) := by cases x <;> exact of_fields rfl rfl rfl
theorem salu (h : Hdr) (fn : SaluFn) (d a : SReg) (b : GSrc) : Statement (.salu h fn d a b) := by cases b <;> exact of_fields rfl rfl rfl
theorem smov (h : Hdr) (d : GReg) (a : SMovSrc) : Statement (.smov h d a) := by cases a <;> exact of_fields rfl rfl rfl
theorem scmp (h : Hdr) (signed : Bool) (cmp : Cmp) (d : QReg) (a : SReg) (b : SImm) : Statement (.scmp h signed cmp d a b) := of_fields rfl (encSm_ext ..) rfl
theorem ssel (h : Hdr) (d a b : SReg) (c : QReg) : Statement (.ssel h d a b c) := of_fields rfl rfl rfl
theorem sld (h : Hdr) (ty : BTy) (n : NReg) (scope : Scope) (d : SReg) (m : MAddr) : Statement (.sld h ty n scope d m) := of_fields rfl (encMA_ext ..) rfl
theorem bra (h : Hdr) (off : BitVec 32) : Statement (.bra h off) := of_fields rfl rfl rfl
theorem jmp (h : Hdr) (a : SReg) : Statement (.jmp h a) := of_fields rfl rfl rfl
theorem call (h : Hdr) (d : SReg) (off : BitVec 32) : Statement (.call h d off) := of_fields rfl rfl rfl
theorem ret (h : Hdr) (a : SReg) : Statement (.ret h a) := of_fields rfl rfl rfl
theorem exit (h : Hdr) : Statement (.exit h) := of_fields rfl rfl rfl
theorem nop (h : Hdr) : Statement (.nop h) := of_fields rfl rfl rfl
theorem yield (h : Hdr) : Statement (.yield h) := of_fields rfl rfl rfl
theorem ld (h : Hdr) (ty : MTy) (n : NReg) (acq : Bool) (scope : Scope) (d : VReg) (m : MAddr) : Statement (.ld h ty n acq scope d m) := of_fields rfl (encMA_ext ..) rfl
theorem st (h : Hdr) (ty : MTy) (n : NReg) (rel : Bool) (scope : Scope) (m : MAddr) (data : Src) : Statement (.st h ty n rel scope m data) := of_fields rfl (encMA_ext ..) rfl
theorem brd (h : Hdr) (off : BitVec 32) (a : SReg) : Statement (.brd h off a) := of_fields rfl rfl rfl
theorem knot (h : Hdr) (off : BitVec 32) : Statement (.knot h off) := of_fields rfl rfl rfl
theorem join (h : Hdr) : Statement (.join h) := of_fields rfl rfl rfl
theorem vote (h : Hdr) (x : VoteArgs) : Statement (.vote h x) := by cases x <;> exact of_fields rfl rfl rfl
theorem elect (h : Hdr) (d : PReg) : Statement (.elect h d) := of_fields rfl rfl rfl
theorem matchl (h : Hdr) (ty : BTy) (d a : VReg) : Statement (.matchl h ty d a) := of_fields rfl rfl rfl
theorem ownq (h : Hdr) (fld : OwnField) (d : VReg) : Statement (.ownq h fld d) := of_fields rfl rfl rfl
theorem fragq (h : Hdr) (count : Bool) (d : VReg) : Statement (.fragq h count d) := of_fields rfl rfl rfl
theorem shfl (h : Hdr) (fn : ShflFn) (w : Fin 4) (d a : VReg) (b : SrcI) : Statement (.shfl h fn w d a b) := of_fields rfl (encI_ext ..) rfl
theorem bcst (h : Hdr) (ty : BTy) (d a : VReg) (b : SImm) : Statement (.bcst h ty d a b) := of_fields rfl (encSm_ext ..) rfl
theorem rdln (h : Hdr) (ty : BTy) (d : SReg) (a : VReg) (b : SImm) : Statement (.rdln h ty d a b) := of_fields rfl (encSm_ext ..) rfl
theorem lred (h : Hdr) (op : RedOp) (ty : RTy) (d a : VReg) : Statement (.lred h op ty d a) := of_fields rfl rfl rfl
theorem prfx (h : Hdr) (op : RedOp) (ty : RTy) (d a : VReg) : Statement (.prfx h op ty d a) := of_fields rfl rfl rfl
theorem backoff (h : Hdr) (a : SReg) : Statement (.backoff h a) := of_fields rfl rfl rfl
theorem launchNow (h : Hdr) (d : VReg) (a : Base) (lp : PReg) : Statement (.launchNow h d a lp) := of_fields rfl rfl rfl
theorem launchArm (h : Hdr) (d : VReg) (a : Base) (b : Src) (count : BitVec 16) (lp : PReg) : Statement (.launchArm h d a b count lp) := of_fields rfl rfl rfl
theorem ldaq (h : Hdr) (ty : MTy) (n : NReg) (acq : Bool) (scope : Scope) (d : VReg) (m : MAddr) : Statement (.ldaq h ty n acq scope d m) := of_fields rfl (encMA_ext ..) rfl
theorem strl (h : Hdr) (ty : MTy) (n : NReg) (rel : Bool) (scope : Scope) (m : MAddr) (data : Src) : Statement (.strl h ty n rel scope m data) := of_fields rfl (encMA_ext ..) rfl
theorem tmov (h : Hdr) (n : NReg) (src : MAddr) (dst : Base) : Statement (.tmov h n src dst) := of_fields rfl (encMA_ext ..) rfl
theorem sptst (h : Hdr) (win : Win) (d : PReg) (b : Base) (off : BitVec 32) : Statement (.sptst h win d b off) := of_fields rfl rfl rfl
theorem spcst (h : Hdr) (win : Win) (toOff : Bool) (d : VReg) (b : Base) (off : BitVec 32) : Statement (.spcst h win toOff d b off) := of_fields rfl rfl rfl
theorem atom (h : Hdr) (ty : WTy) (op : AtomOp) (ord : Ord4) (scope : Scope) (d : VReg) (b : Base) (off : BitVec 32) (data : Src) : Statement (.atom h ty op ord scope d b off data) := of_fields rfl rfl rfl
theorem ared (h : Hdr) (ty : WTy) (op : AtomOp) (rel : Bool) (scope : Scope) (b : Base) (off : BitVec 32) (data : Src) : Statement (.ared h ty op rel scope b off data) := of_fields rfl rfl rfl
theorem acas (h : Hdr) (ty : BTy) (ord : Ord4) (scope : Scope) (d : VReg) (b : Base) (off : BitVec 32) (cmp new : Src) : Statement (.acas h ty ord scope d b off cmp new) := of_fields rfl rfl rfl
theorem atomf (h : Hdr) (ty : AFmt) (op : AtomFOp) (ord : Ord4) (scope : Scope) (d : VReg) (b : Base) (off : BitVec 32) (data : Src) : Statement (.atomf h ty op ord scope d b off data) := of_fields rfl rfl rfl
theorem fence (h : Hdr) (ord : FenceOrd) (scope : Scope) : Statement (.fence h ord scope) := of_fields rfl rfl rfl
theorem bari (h : Hdr) (bytes rel : Bool) (scope : Scope) (b : Base) (off : BitVec 32) (data : Src) : Statement (.bari h bytes rel scope b off data) := of_fields rfl rfl rfl
theorem barv (h : Hdr) (mode : BarMode) (scope : Scope) (d : VReg) (b : Base) (off : BitVec 32) : Statement (.barv h mode scope d b off) := of_fields rfl rfl rfl
theorem bwait (h : Hdr) (scope : Scope) (b : Base) (off : BitVec 32) (data : Src) : Statement (.bwait h scope b off data) := of_fields rfl rfl rfl
theorem btest (h : Hdr) (scope : Scope) (d : PReg) (b : Base) (off : BitVec 32) (data : Src) : Statement (.btest h scope d b off data) := of_fields rfl rfl rfl
theorem tpack (h : Hdr) (d : VReg) (a b : Src) : Statement (.tpack h d a b) := of_fields rfl rfl rfl
theorem tunpk (h : Hdr) (d : VReg) (a : Src) : Statement (.tunpk h d a) := of_fields rfl rfl rfl
theorem wload (h : Hdr) (a : Base) (slot : Fin 256) (qm : Qm) (line : Fin 4096) (x : Async) : Statement (.wload h a slot qm line x) := of_fields rfl (encA_ext ..) rfl
theorem afeed (h : Hdr) (fmt : FeedFmt) (a : Base) (rows : Fin 64) (anc : BitVec 8) (stride : BitVec 16) : Statement (.afeed h fmt a rows anc stride) := of_fields rfl rfl rfl
theorem adrain (h : Hdr) (fmt : DrainFmt) (a : Base) (row rows : Fin 1024) (stride : BitVec 16) : Statement (.adrain h fmt a row rows stride) := of_fields rfl rfl rfl
theorem mlatch (h : Hdr) (qm : Qm) (slot : Fin 256) (set : Fin 8) : Statement (.mlatch h qm slot set) := of_fields rfl rfl rfl
theorem mmul (h : Hdr) (ovr : Bool) (qm : Qm) (row : Fin 1024) (rows : Fin 64) (anc : BitVec 8) : Statement (.mmul h ovr qm row rows anc) := of_fields rfl rfl rfl
theorem mmulb (h : Hdr) (ovr : Bool) (qm : Qm) (row : Fin 1024) (rows : Fin 64) (anc : BitVec 8) : Statement (.mmulb h ovr qm row rows anc) := of_fields rfl rfl rfl
theorem mzero (h : Hdr) (qm : Qm) (row rows : Fin 1024) : Statement (.mzero h qm row rows) := of_fields rfl rfl rfl
theorem bfence (h : Hdr) (d : SReg) : Statement (.bfence h d) := of_fields rfl rfl rfl
theorem bwaita (h : Hdr) (a : SReg) : Statement (.bwaita h a) := of_fields rfl rfl rfl
theorem waitc (h : Hdr) (cls : EClass) (n : Fin 256) : Statement (.waitc h cls n) := of_fields rfl rfl rfl
theorem tsig (h : Hdr) (task : Fin 4096) (lp : PReg) : Statement (.tsig h task lp) := of_fields rfl rfl rfl
theorem tcopy (h : Hdr) (a : Base) (coords : Src) (x : Async) : Statement (.tcopy h a coords x) := of_fields rfl (encA_ext ..) rfl
theorem gath (h : Hdr) (d a b : Base) (lsize : Fin 13) (count : Fin 1024) (x : Async) : Statement (.gath h d a b lsize count x) := of_fields rfl (encA_ext ..) rfl
theorem coll (h : Hdr) (a : Base) (task : Option (Fin 4096)) (lp : PReg) : Statement (.coll h a task lp) := of_fields rfl rfl rfl
theorem trap (h : Hdr) (code : BitVec 32) : Statement (.trap h code) := of_fields rfl rfl rfl
theorem dbrk (h : Hdr) (code : BitVec 32) : Statement (.dbrk h code) := of_fields rfl rfl rfl
theorem rett (h : Hdr) : Statement (.rett h) := of_fields rfl rfl rfl
theorem mfsr (h : Hdr) (d a : SReg) (i : BitVec 16) : Statement (.mfsr h d a i) := of_fields rfl rfl rfl
theorem mtsr (h : Hdr) (a : SReg) (i : BitVec 16) (v : SReg) : Statement (.mtsr h a i v) := of_fields rfl rfl rfl
theorem ckpt (h : Hdr) (a : SReg) : Statement (.ckpt h a) := of_fields rfl rfl rfl
theorem evtx (h : Hdr) (a b : Src) : Statement (.evtx h a b) := of_fields rfl rfl rfl
theorem evld (d : Fin 16) (f : EvField) : Statement (.evld d f) := of_none rfl
theorem emov (d a : Fin 16) : Statement (.emov d a) := of_none rfl
theorem emovi (d : Fin 16) (k : Fin 5) (i : BitVec 14) : Statement (.emovi d k i) := of_none rfl
theorem ealu (op : EaluOp) (d a : Fin 16) (b : ESrc) : Statement (.ealu op d a b) := of_none rfl
theorem ecmp (c : EcmpOp) (d a : Fin 16) (b : ESrc) : Statement (.ecmp c d a b) := of_none rfl
theorem ebf (c : EbfCond) (off : Fin 64) : Statement (.ebf c off) := of_none rfl
theorem ehash (d a seed : Fin 16) : Statement (.ehash d a seed) := of_none rfl
theorem hinc (a b : Fin 16) (base : BitVec 14) : Statement (.hinc a b base) := of_none rfl
theorem hmax (a b : Fin 16) (base : BitVec 14) : Statement (.hmax a b base) := of_none rfl
theorem cmsu (a b : Fin 16) (k : CmK) (base : BitVec 10) : Statement (.cmsu a b k base) := of_none rfl
theorem cmsq (d a : Fin 16) (k : CmK) (base : BitVec 10) : Statement (.cmsq d a k base) := of_none rfl
theorem wsum (d a b : Fin 16) (base : BitVec 14) : Statement (.wsum d a b base) := of_none rfl
theorem trig (line : Fin 8) : Statement (.trig line) := of_none rfl
theorem emit (a : Fin 14) (tag : Fin 16) : Statement (.emit a tag) := of_none rfl
theorem eend : Statement .eend := of_none rfl
theorem resultWriteback (op : Nat) (lanes : Lanes) (err : Bool) : Statement (.resultWriteback op lanes err) := of_none rfl
theorem storeSourceRead (op : Nat) : Statement (.storeSourceRead op) := of_none rfl
theorem writePerform (op elem : Nat) : Statement (.writePerform op elem) := of_none rfl
theorem rmwPerform (op elem : Nat) : Statement (.rmwPerform op elem) := of_none rfl
theorem releasePerform (op : Nat) : Statement (.releasePerform op) := of_none rfl
theorem translationFill (core vf asid page : Nat) : Statement (.translationFill core vf asid page) := of_none rfl
theorem pathSlotHoldLimit (grp frag : Nat) : Statement (.pathSlotHoldLimit grp frag) := of_none rfl
theorem pathSlotIssueLimit (grp frag : Nat) : Statement (.pathSlotIssueLimit grp frag) := of_none rfl
theorem marketVisit : Statement .marketVisit := of_none rfl
theorem admission (unit : Nat) : Statement (.admission unit) := of_none rfl
theorem waveStart (launch : Nat) : Statement (.waveStart launch) := of_none rfl
theorem workgroupEnd (wg : Nat) : Statement (.workgroupEnd wg) := of_none rfl
theorem groupEnd (grp : Nat) : Statement (.groupEnd grp) := of_none rfl
theorem launchComplete (launch : Nat) : Statement (.launchComplete launch) := of_none rfl
theorem copyStart (cluster : Nat) : Statement (.copyStart cluster) := of_none rfl
theorem copyComplete (op : Nat) (err : Bool) : Statement (.copyComplete op err) := of_none rfl
theorem feedRowAppend (core : Nat) : Statement (.feedRowAppend core) := of_none rfl
theorem drainRow (core : Nat) : Statement (.drainRow core) := of_none rfl
theorem drainComplete (op : Nat) : Statement (.drainComplete op) := of_none rfl
theorem batchComplete (ctx : Nat) : Statement (.batchComplete ctx) := of_none rfl
theorem batchChargeLimit (ctx : Nat) : Statement (.batchChargeLimit ctx) := of_none rfl
theorem contextStop (ctx : Nat) : Statement (.contextStop ctx) := of_none rfl
theorem barvReturn (who : Issuer) : Statement (.barvReturn who) := of_none rfl
theorem bwaitComplete (who : Issuer) : Statement (.bwaitComplete who) := of_none rfl
theorem btestReturn (who : Issuer) : Statement (.btestReturn who) := of_none rfl
theorem bwaitaComplete (who : Issuer) : Statement (.bwaitaComplete who) := of_none rfl
theorem waitcComplete (who : Issuer) : Statement (.waitcComplete who) := of_none rfl
theorem rettComplete (grp : Nat) : Statement (.rettComplete grp) := of_none rfl
theorem faultRecordDelivery (fn : Nat) (hostFail : Bool) : Statement (.faultRecordDelivery fn hostFail) := of_none rfl
theorem statusEntryWrite (fn : Nat) (hostFail : Bool) : Statement (.statusEntryWrite fn hostFail) := of_none rfl
theorem fltresResume (fn : Nat) (token : BitVec 32) : Statement (.fltresResume fn token) := of_none rfl
theorem fltresKill (fn : Nat) (token : BitVec 32) : Statement (.fltresKill fn token) := of_none rfl
theorem sliceEnd (fn : Nat) : Statement (.sliceEnd fn) := of_none rfl
theorem sliceEndComplete (fn : Nat) : Statement (.sliceEndComplete fn) := of_none rfl
theorem preempt (fn : Nat) : Statement (.preempt fn) := of_none rfl
theorem handlerStart (grp : Nat) : Statement (.handlerStart grp) := of_none rfl
theorem resume (fn : Nat) : Statement (.resume fn) := of_none rfl
theorem restoreAdmission (unit : Nat) : Statement (.restoreAdmission unit) := of_none rfl
theorem retire (fn : Nat) : Statement (.retire fn) := of_none rfl
theorem inval (fn : Nat) : Statement (.inval fn) := of_none rfl
theorem setfa (fn : Nat) : Statement (.setfa fn) := of_none rfl
theorem keygen (fn : Nat) : Statement (.keygen fn) := of_none rfl
theorem keydel (fn : Nat) : Statement (.keydel fn) := of_none rfl
theorem late (fn : Nat) (signed : Bool) (version running family : Nat) : Statement (.late fn signed version running family) := of_none rfl
theorem confset (fn : Nat) : Statement (.confset fn) := of_none rfl
theorem reset (fn : Nat) : Statement (.reset fn) := of_none rfl
theorem rotate (fn : Nat) : Statement (.rotate fn) := of_none rfl
theorem dtlimExpiry (fn : Nat) : Statement (.dtlimExpiry fn) := of_none rfl
theorem coreFence (core : Nat) (hit : List Nat) : Statement (.coreFence core hit) := of_none rfl
theorem flr (vf : Nat) : Statement (.flr vf) := of_none rfl
theorem lockInterface (vf : Nat) : Statement (.lockInterface vf) := of_none rfl
theorem startInterface (vf : Nat) : Statement (.startInterface vf) := of_none rfl
theorem stopInterface (vf : Nat) : Statement (.stopInterface vf) := of_none rfl
theorem getVersion (fn : Nat) : Statement (.getVersion fn) := of_none rfl
theorem getCapabilities (fn : Nat) : Statement (.getCapabilities fn) := of_none rfl
theorem negotiateAlgorithms (fn : Nat) : Statement (.negotiateAlgorithms fn) := of_none rfl
theorem getDigests (fn : Nat) : Statement (.getDigests fn) := of_none rfl
theorem getCertificate (fn : Nat) : Statement (.getCertificate fn) := of_none rfl
theorem challenge (fn : Nat) : Statement (.challenge fn) := of_none rfl
theorem getMeasurements (fn index : Nat) : Statement (.getMeasurements fn index) := of_none rfl
theorem keyExchange (fn : Nat) : Statement (.keyExchange fn) := of_none rfl
theorem finish (fn : Nat) : Statement (.finish fn) := of_none rfl
theorem keyUpdate (fn : Nat) : Statement (.keyUpdate fn) := of_none rfl
theorem heartbeat (fn : Nat) : Statement (.heartbeat fn) := of_none rfl
theorem endSession (fn : Nat) : Statement (.endSession fn) := of_none rfl
theorem ideKm (fn stream : Nat) : Statement (.ideKm fn stream) := of_none rfl
theorem hostAccess (a : HostAcc) : Statement (.hostAccess a) := of_none rfl
theorem hostCompletionTimeout (op : Nat) : Statement (.hostCompletionTimeout op) := of_none rfl
theorem go (fn ctx : Nat) (val : BitVec 64) : Statement (.go fn ctx val) := of_none rfl
theorem stop (fn ctx : Nat) : Statement (.stop fn ctx) := of_none rfl
theorem launchQueueEnable (fn q : Nat) (val : BitVec 64) : Statement (.launchQueueEnable fn q val) := of_none rfl
theorem ringEnable (fn ring : Nat) (val : BitVec 64) : Statement (.ringEnable fn ring val) := of_none rfl
theorem clusterEntryWrite (cluster : Nat) (val : BitVec 64) : Statement (.clusterEntryWrite cluster val) := of_none rfl
theorem scratchRangeWrite (die : Bool) (unit idx : Nat) (val : BitVec 64) : Statement (.scratchRangeWrite die unit idx val) := of_none rfl
theorem fnstatWrite (fn : Nat) (val : BitVec 64) : Statement (.fnstatWrite fn val) := of_none rfl
theorem slotArm (fn die slot : Nat) (val : BitVec 64) : Statement (.slotArm fn die slot val) := of_none rfl
theorem slotDisarm (fn die slot : Nat) (val : BitVec 64) : Statement (.slotDisarm fn die slot val) := of_none rfl
theorem efscRead (fn die slot : Nat) : Statement (.efscRead fn die slot) := of_none rfl
theorem efbgRead (fn die v : Nat) : Statement (.efbgRead fn die v) := of_none rfl
theorem efrpRead (fn die ring : Nat) : Statement (.efrpRead fn die ring) := of_none rfl
theorem fdropRead (fn die src : Nat) : Statement (.fdropRead fn die src) := of_none rfl
theorem claim (fn core : Nat) (bank : Bool) : Statement (.claim fn core bank) := of_none rfl
theorem release (fn core : Nat) (bank : Bool) : Statement (.release fn core bank) := of_none rfl
theorem rvk (fn core : Nat) (bank : Bool) : Statement (.rvk fn core bank) := of_none rfl
theorem revocationComplete (core : Nat) (bank : Bool) : Statement (.revocationComplete core bank) := of_none rfl
theorem dbcmdStop (fn : Nat) (val : BitVec 64) : Statement (.dbcmdStop fn val) := of_none rfl
theorem dbcmdStep (fn : Nat) (val : BitVec 64) : Statement (.dbcmdStep fn val) := of_none rfl
theorem dbcmdGo (fn : Nat) (val : BitVec 64) : Statement (.dbcmdGo fn val) := of_none rfl
theorem preciseStop (grp fn : Nat) : Statement (.preciseStop grp fn) := of_none rfl
theorem tuctlWrite (fn core : Nat) (val : BitVec 64) : Statement (.tuctlWrite fn core val) := of_none rfl
theorem tuctlRead (fn core : Nat) : Statement (.tuctlRead fn core) := of_none rfl
theorem tbdataRead (fn core : Nat) : Statement (.tbdataRead fn core) := of_none rfl
theorem traceTrigger (die : Nat) : Statement (.traceTrigger die) := of_none rfl
theorem cbselWrite (fn core i : Nat) (val : BitVec 64) : Statement (.cbselWrite fn core i val) := of_none rfl
theorem registerWrite (fn off n : Nat) (val : BitVec 64) (tbit : Bool) : Statement (.registerWrite fn off n val tbit) := of_none rfl
theorem eventRecord (die : Nat) (rec : BitVec 128) : Statement (.eventRecord die rec) := of_none rfl
theorem noeligRunEnd (sched : Nat) : Statement (.noeligRunEnd sched) := of_none rfl
theorem histIntervalEnd (sched : Nat) : Statement (.histIntervalEnd sched) := of_none rfl
theorem efcDispatch (die : Nat) : Statement (.efcDispatch die) := of_none rfl
theorem filterRunStart (die : Nat) : Statement (.filterRunStart die) := of_none rfl
theorem budgetWindowStart : Statement .budgetWindowStart := of_none rfl
theorem powerEvaluation (watts tj : Nat) (over10 under10 : Bool) : Statement (.powerEvaluation watts tj over10 under10) := of_none rfl
theorem flitReceive (path op elem : Nat) (crcOk : Bool) : Statement (.flitReceive path op elem crcOk) := of_none rfl
theorem pathDown (path : Nat) : Statement (.pathDown path) := of_none rfl
theorem dataFlit (peer : Nat) (kg : Bool) (fctr seq : Nat) (tagOk : Bool) (c : Carried) : Statement (.dataFlit peer kg fctr seq tagOk c) := of_none rfl
theorem markerFlit (peer : Nat) (kg : Bool) (fctr seq : Nat) (count : Option Nat) (tagOk : Bool) : Statement (.markerFlit peer kg fctr seq count tagOk) := of_none rfl
theorem ackFlit (peer : Sealed) (seq : Nat) : Statement (.ackFlit peer seq) := of_none rfl
theorem refusalFlit (peer : Sealed) (seq : Nat) : Statement (.refusalFlit peer seq) := of_none rfl
theorem staleFlit (peer : Sealed) (flit : FlitName) : Statement (.staleFlit peer flit) := of_none rfl
theorem retransmitTimeout (peer seq : Nat) : Statement (.retransmitTimeout peer seq) := of_none rfl
theorem transportGiveUp (peer seq : Nat) : Statement (.transportGiveUp peer seq) := of_none rfl
theorem rotationRequest (peer : Nat) : Statement (.rotationRequest peer) := of_none rfl
theorem keyGraceExpiry (side : LinkSide) : Statement (.keyGraceExpiry side) := of_none rfl
theorem chunkReduce (coll chunk : Nat) : Statement (.chunkReduce coll chunk) := of_none rfl
theorem collComplete (coll : Nat) : Statement (.collComplete coll) := of_none rfl
theorem ctmoExpiry (coll : Nat) : Statement (.ctmoExpiry coll) := of_none rfl
theorem powerOn (b : BringUp) : Statement (.powerOn b) := of_none rfl
theorem perst : Statement .perst := of_none rfl
theorem lifeCycleChange : Statement .lifeCycleChange := of_none rfl
theorem d3hotEntry : Statement .d3hotEntry := of_none rfl
theorem d3cold : Statement .d3cold := of_none rfl
theorem d3hotExit : Statement .d3hotExit := of_none rfl
theorem debugStateChange (dbg : Fin 4) : Statement (.debugStateChange dbg) := of_none rfl
theorem firmwareImageLoad (good : Bool) (version image : Nat) : Statement (.firmwareImageLoad good version image) := of_none rfl
theorem externalPortDown (x : PortEnd) : Statement (.externalPortDown x) := of_none rfl
theorem externalPortUp (x : PortEnd) : Statement (.externalPortUp x) := of_none rfl
theorem keyInstalled (k : KeyChange) : Statement (.keyInstalled k) := of_none rfl
theorem nakFlit (peer : Nat) (flit : FlitName) : Statement (.nakFlit peer flit) := of_none rfl

end Sys2Proof.Laws.Shape
end

