-- ==== Sys2Proof/Laws/Values.lean ====
section
/-! SUPPORT. Laws of operands and of integer results: the model's readings of registers as integers, and narrowing. -/

namespace Sys2Proof.Spec
open Sys2Proof.Machine

/-- The widths of the integer and raw types. -/
theorem ityBits_cases (t : ITy) : ityBits t = 8 ∨ ityBits t = 16 ∨ ityBits t = 32 ∨ ityBits t = 64 := by cases t <;> simp [ityBits]
theorem btyBits_cases (t : BTy) : btyBits t = 32 ∨ btyBits t = 64 := by cases t <;> simp [btyBits]
theorem wtyBits_cases (t : WTy) : wtyBits t = 32 ∨ wtyBits t = 64 := by cases t <;> simp [wtyBits]

/-- sext is the balanced remainder. -/
theorem sext_eq_bmod {n : Nat} (hn : 0 < n) (x : Nat) : sext x n = (x : Int).bmod (2 ^ n) := by
  unfold sext Int.bmod
  have hp : 0 < 2 ^ n := Nat.pow_pos (by decide)
  have he : 2 ^ n = 2 * 2 ^ (n - 1) := by rw [← Nat.pow_succ']; congr 1; omega
  generalize 2 ^ n = p at *
  generalize 2 ^ (n - 1) = q at *
  have : ((x : Int) % (p : Int)) = ((x % p : Nat) : Int) := by simp
  simp only [this]
  have hlt : x % p < p := Nat.mod_lt _ hp
  generalize x % p = y at *
  subst he
  split <;> split <;> omega

theorem inBits_nat {n : Nat} (hn : 0 < n) (sg : Bool) (x : Nat) : readInt n sg x = inBits n sg (x : Int) := by
  unfold readInt inBits
  split
  · exact sext_eq_bmod hn x
  · simp

theorem inBits_mod {n : Nat} (sg : Bool) (x : Int) : inBits n sg (x % ((2 ^ n : Nat) : Int)) = inBits n sg x := by
  unfold inBits
  split
  · exact Int.emod_bmod ..
  · simp

/-- A source operand of n bits, read as an integer of its type. -/
theorem readInt_src (g : Group) (l n : Nat) (sg : Bool) (a : Src) (hn : n = 8 ∨ n = 16 ∨ n = 32 ∨ n = 64) :
    readInt n sg (g.srcVal l n a) = inBits n sg (lane g l a) := by
  have h0 : 0 < n := by omega
  rw [inBits_nat h0]
  have : ((g.srcVal l n a : Nat) : Int) % ((2 ^ n : Nat) : Int) = lane g l a % ((2 ^ n : Nat) : Int) := by
    cases a with
    | v r =>
      simp only [Group.srcVal, lane]
      rcases hn with rfl | rfl | rfl | rfl
      · simp only [show ¬ (8 : Nat) = 64 by decide, if_false]; omega
      · simp only [show ¬ (16 : Nat) = 64 by decide, if_false]; omega
      · simp only [show ¬ (32 : Nat) = 64 by decide, if_false]; omega
      · simp
    | s r =>
      simp only [Group.srcVal, lane]
      rcases hn with rfl | rfl | rfl | rfl <;> omega
  rw [← inBits_mod, this, inBits_mod]

theorem readInt_srcI (g : Group) (l n : Nat) (sg z : Bool) (b : SrcI) (hn : n = 8 ∨ n = 16 ∨ n = 32 ∨ n = 64) :
    readInt n sg (g.srcIVal l n z b) = inBits n sg (laneI z g l b) := by
  cases b with
  | reg r => exact readInt_src g l n sg r hn
  | imm i =>
    have h0 : 0 < n := by omega
    rw [inBits_nat h0]
    have : ((immVal n z i : Nat) : Int) % ((2 ^ n : Nat) : Int) = laneI z g l (.imm i) % ((2 ^ n : Nat) : Int) := by
      have hi := i.isLt
      simp only [laneI, immVal, BitVec.toInt_eq_toNat_bmod, Int.bmod]
      rcases hn with rfl | rfl | rfl | rfl
      · simp only [show ¬ (8 : Nat) = 64 by decide, if_false]; split <;> (try split) <;> omega
      · simp only [show ¬ (16 : Nat) = 64 by decide, if_false]; split <;> (try split) <;> omega
      · simp only [show ¬ (32 : Nat) = 64 by decide, if_false]; split <;> (try split) <;> omega
      · simp only [if_true]
        cases z
        · simp only [Bool.false_eq_true, if_false, wrap, sext]; split <;> split <;> omega
        · simp
    simp only [Group.srcIVal]
    rw [← inBits_mod, this, inBits_mod]

/-- Narrowed values as register words. -/
theorem narrow_word (n : Nat) (sg sat : Bool) (x : Int) (hn : n = 8 ∨ n = 16 ∨ n = 32 ∨ n = 64) :
    (n ≠ 64 → BitVec.ofNat 32 (extend32 n sg (narrow n sg sat x).1) = BitVec.ofInt 32 (narrowed n sg sat x)) ∧
    (n = 64 → BitVec.ofNat 32 (narrow n sg sat x).1 = BitVec.ofInt 32 (narrowed n sg sat x) ∧
      BitVec.ofNat 32 ((narrow n sg sat x).1 / 4294967296) = BitVec.ofInt 32 (narrowed n sg sat x / 4294967296)) := by
  have key : ∀ (a : Nat) (b : Int), ((a : Int) - b) % 4294967296 = 0 → BitVec.ofNat 32 a = BitVec.ofInt 32 b := by
    intro a b h
    apply BitVec.eq_of_toNat_eq
    simp only [BitVec.toNat_ofNat, BitVec.toNat_ofInt]
    omega
  constructor
  · intro h
    apply key
    unfold extend32 narrow narrowed inBits
    rcases hn with rfl | rfl | rfl | rfl
    · cases sg <;> cases sat <;> simp only [Bool.false_eq_true, if_false, if_true, wrap, sext, clamp, minOf, maxOf, Int.bmod] <;>
        norm_num <;> (repeat' split) <;> omega
    · cases sg <;> cases sat <;> simp only [Bool.false_eq_true, if_false, if_true, wrap, sext, clamp, minOf, maxOf, Int.bmod] <;>
        norm_num <;> (repeat' split) <;> omega
    · cases sg <;> cases sat <;> simp only [Bool.false_eq_true, if_false, if_true, wrap, sext, clamp, minOf, maxOf, Int.bmod] <;>
        norm_num <;> (repeat' split) <;> omega
    · exact absurd rfl h
  · rintro rfl
    unfold narrow narrowed inBits
    constructor <;> apply key <;> cases sg <;> cases sat <;>
      simp only [Bool.false_eq_true, if_false, if_true, wrap, clamp, minOf, maxOf, Int.bmod] <;>
        norm_num <;> (repeat' split) <;> omega

theorem narrow_flag (n : Nat) (sg sat : Bool) (x : Int) : (narrow n sg sat x).2 = satFlag n sg sat x := by
  have hle : minOf n sg ≤ maxOf n sg := by
    unfold minOf maxOf
    have h1 : (0 : Int) < ((2 ^ (n - 1) : Nat) : Int) := by exact_mod_cast Nat.pow_pos (by decide : 0 < 2)
    have h2 : (0 : Int) < ((2 ^ n : Nat) : Int) := by exact_mod_cast Nat.pow_pos (by decide : 0 < 2)
    cases sg <;> simp only [Bool.false_eq_true, if_false, if_true] <;> omega
  unfold narrow satFlag
  cases sat
  · simp
  · simp only [if_true, true_and, clamp, fISAT]
    generalize minOf n sg = a at *
    generalize maxOf n sg = b at *
    by_cases h1 : x < a
    · have : a ≠ x := by omega
      simp [h1, this]
    · by_cases h2 : b < x
      · have : b ≠ x := by omega
        simp [h1, h2, this]
      · simp [h1, h2]

/-- The results of an integer instruction (R26, R82). -/
theorem landsV_int (act n d : Nat) (sg sat : Bool) (x : Nat → Int) (hn : n = 8 ∨ n = 16 ∨ n = 32 ∨ n = 64) :
    LandsV act n d (fun l => narrowed n sg sat (x l)) (fun l => satFlag n sg sat (x l))
      ((lanesOf act).flatMap fun l => intOut d l n sg sat (x l)) := by
  have := landsV act n d sg (fun l => (narrow n sg sat (x l)).1) (fun l => narrowed n sg sat (x l)) (fun l => satFlag n sg sat (x l))
    (fun h l _ => (narrow_word n sg sat (x l) hn).1 h) (fun h l _ => (narrow_word n sg sat (x l) hn).2 h)
    (fun l => by unfold satFlag; split <;> rfl)
  simpa only [intOut, narrow_flag] using this

end Sys2Proof.Spec
end

