-- ==== Sys2Proof/Tests/Slice0.lean ====
section
/-! SUPPORT. Tests: an ill-formed term for each check of WellFormed; words written out field by field from the spec's encoding tables, for every
constructor; one step of instructions whose rules carry a corner; and for each statement with hypotheses a state and operands that meet them.
Expected values are worked out by hand from the rules named. -/

namespace Sys2Proof.Tests

open Sys2Proof Sys2Proof.Machine Sys2Proof.Spec

set_option maxRecDepth 4000

/-! ## Small states -/

/-- No guard, no stall, no scoreboard slot. -/
def plain : Hdr := { stall := 0, gp := 0, gn := false, sbs := 0, sbw := 0 }
/-- Guarded by p1 or q1, which are 0 in `lone`. -/
def off : Hdr := { plain with gp := 1 }

/-- A group of sixteen lanes of one owner in one live fragment, with 64 registers and a segment of 1,024 bytes of core scratch. -/
def lone : Group :=
  { Group.empty with
    live := true, regs := 64, pres := 0xFFFF,
    owners := [(0, { Owner.empty with valid := true, lanes := 0xFFFF, slen := 16 })],
    frags := [(0, { Frag.empty with fst := .live, slot := 1, mask := 0xFFFF })] }

/-- The machine after reset, with a group in slot 0 of core 0 whose fragment 0 has the turn. -/
def at0 (g : Group) : State := { State.reset with groups := [(0, g)] }

/-- A running sequencer context, number 0. -/
def seq : Ctx :=
  { Ctx.empty with
    state := 1, owned := true
    g := { Group.empty with live := true, pres := 1, owners := [(0, { Owner.empty with valid := true, lanes := 1 })],
                            frags := [(0, { Frag.empty with fst := .live, slot := 1, mask := 1 })] } }

/-- The machine after reset, with a context that has the turn. -/
def ctx0 (c : Ctx) : State := { State.reset with ctxs := [(0, c)], turn := .ctx 0 }

/-- A run in pipe 0 of die 0, and the machine in which it has the turn. -/
def run0 : Run := { slot := 0, src := 0, word := 0, carry := 0, regs := [], pc := 0, steps := 0, window := 0, readyT := 0, nlen := 3, own := 0, old := false, code := [] }
def pipe0 (r : Run) : State := { State.reset with efcs := [(0, { Efc.empty with pipes := [(0, some r)] })], turn := .pipe 0 0 }

/-- Lane l of register d after the results of one instruction of a group that reads `g`. -/
def vAfter (g : Group) (i : Instr) (d l : Nat) : Nat :=
  match exec i (at0 g) with
  | .next t =>
    let u := ((t.groupsAt 0).pend.flatMap (·.outs)) ++ (t.ops.flatMap fun p => match p.2 with | some o => o.outs | none => [])
    (((t.groupsAt 0).writeOuts u).readV d l).toNat
  | _ => 0

/-- FLAGS after the results. -/
def flagsAfter (g : Group) (i : Instr) : Nat :=
  match exec i (at0 g) with
  | .next t =>
    let u := ((t.groupsAt 0).pend.flatMap (·.outs)) ++ (t.ops.flatMap fun p => match p.2 with | some o => o.outs | none => [])
    ((t.groupsAt 0).writeOuts u).flags.toNat
  | _ => 0

/-- `lone` with register r of every lane. -/
def withV (r : Nat) (x : Word) (g : Group) : Group := { g with v := (List.range 16).foldl (fun t l => Tab.put (fun _ => 0) t (16 * r + l) x) g.v }
def withS (r : Nat) (x : DWord) (g : Group) : Group := { g with s := Tab.put (fun _ => 0) g.s r x }

/-! ## What the statements ask for can be met: instructions of groups -/

theorem turn_lone : Turn (at0 lone) (.grp 0 0) lone 0 := .group 0 0 rfl rfl rfl
theorem calm_lone : Calm (at0 lone) (.grp 0 0) lone := .inl rfl
theorem turn_at0 {g : Group} (h : g.live = true) (f : (g.frag 0).fst = .live) : Turn (at0 g) (.grp 0 0) g 0 := .group 0 0 rfl h f
theorem turn_ctx0 {c : Ctx} (h : c.state = 1) (f : (c.g.frag 0).fst = .live) : Turn (ctx0 c) (.ctx 0) c.g 0 := .context 0 rfl h f

theorem test_meets_IntegerTwoOperand : Turn (at0 lone) (.grp 0 0) lone 0 ∧ Calm (at0 lone) (.grp 0 0) lone := ⟨turn_lone, calm_lone⟩
theorem test_meets_IntegerMulAddAbs : itySigned .i32 = true ∧ Turn (at0 lone) (.grp 0 0) lone 0 ∧ Calm (at0 lone) (.grp 0 0) lone :=
  ⟨rfl, turn_lone, calm_lone⟩
theorem test_meets_LogicSelectCompare : Turn (at0 lone) (.grp 0 0) lone 0 ∧ Calm (at0 lone) (.grp 0 0) lone ∧
    (Instr.lop plain .not .b32 3 (.v 2) (.reg (.v 0))).wf = true := ⟨turn_lone, calm_lone, by decide⟩
theorem test_meets_ShiftsFieldsCounts : Turn (at0 lone) (.grp 0 0) lone 0 ∧ Calm (at0 lone) (.grp 0 0) lone ∧ 32 ≤ ityBits .i32 :=
  ⟨turn_lone, calm_lone, by decide⟩
theorem test_meets_ActiveLanes : 15 < 16 ∧ 0xFFFF < 65536 ∧ plain.gp.val = 0 ∧ plain.gn = false := by decide
theorem test_meets_FloatRounding : 0 < 1 ∧ 149 ≤ 149 ∧ (0 : Int) ≤ -149 + (149 : Nat) := by decide

/-- 1.0 and −1.0, and zero. -/
theorem finite_one : Finite .f32 0x3F800000 := ⟨by decide, false, _, _, rfl⟩
theorem finite_minus : Finite .f32 0xBF800000 := ⟨by decide, true, _, _, rfl⟩
theorem finite_zero : Finite .f32 0 := ⟨by decide, false, _, _, rfl⟩
theorem test_meets_FloatSumsAndProducts : Finite .f32 0x3F800000 ∧ Finite .f32 0xBF800000 ∧ Finite .f32 0 ∧
    scaled .f32 0x3F800000 + scaled .f32 0x3F800000 ≠ 0 ∧ scaled .f32 0 = 0 ∧ scaled .f32 0x3F800000 ≠ 0 ∧
    scaled .f32 0x3F800000 + scaled .f32 0xBF800000 = 0 ∧ scaled .f32 0x3F800000 * scaled .f32 0x3F800000 ≠ 0 ∧
    scaled .f32 0x3F800000 * scaled .f32 0x3F800000 + scaled .f32 0xBF800000 * 2 ^ 149 = 0 := by
  refine ⟨finite_one, finite_minus, finite_zero, ?_⟩
  decide
theorem test_meets_FloatNaNs : (decodeFp .f32 0x7F800001).isSnan = true ∧ (decodeFp .f32 0x7FC00001).isNan = true ∧
    (decodeFp .e4m3 0x7F).isNan = true ∧ (decodeFp .e5m2 0x7D).isNan = true := by decide
theorem test_meets_FloatLanes : Turn (at0 lone) (.grp 0 0) lone 0 ∧ Calm (at0 lone) (.grp 0 0) lone ∧ Finite .f32 0xBF800000 ∧
    scaled .f32 0xBF800000 < 0 ∧ Finite .f32 0x3F800000 ∧ 0 < scaled .f32 0x3F800000 :=
  ⟨turn_lone, calm_lone, finite_minus, by decide, finite_one, by decide⟩
theorem test_meets_FloatCompareAndClass : Turn (at0 lone) (.grp 0 0) lone 0 ∧ Calm (at0 lone) (.grp 0 0) lone := ⟨turn_lone, calm_lone⟩

theorem test_meets_Moves : Turn (at0 lone) (.grp 0 0) lone 0 ∧ Calm (at0 lone) (.grp 0 0) lone ∧ OneClass lone 0 ∧ active lone 0 off = 0 ∧
    bit (active lone 0 plain) 0 = true := ⟨turn_lone, calm_lone, rfl, by decide⟩
theorem test_meets_PredicateOps : Turn (ctx0 seq) (.ctx 0) seq.g 0 ∧ Calm (ctx0 seq) (.ctx 0) seq.g := ⟨turn_ctx0 rfl rfl, .inl rfl⟩
theorem test_meets_GroupArithmetic : Turn (at0 lone) (.grp 0 0) lone 0 ∧ Calm (at0 lone) (.grp 0 0) lone ∧ OneClass lone 0 ∧ plain.gp.val = 0 ∧
    bit (lone.frag 0).mask 15 = true := ⟨turn_lone, calm_lone, rfl, by decide⟩
theorem test_meets_ControlRegisterMoves : Turn (at0 lone) (.grp 0 0) lone 0 ∧ Calm (at0 lone) (.grp 0 0) lone ∧ OneClass lone 0 :=
  ⟨turn_lone, calm_lone, rfl⟩
theorem test_meets_VotesAndQueries : Turn (at0 lone) (.grp 0 0) lone 0 ∧ Calm (at0 lone) (.grp 0 0) lone ∧ OneClass lone 0 :=
  ⟨turn_lone, calm_lone, rfl⟩
theorem test_meets_LaneExchange : Turn (at0 lone) (.grp 0 0) lone 0 ∧ Calm (at0 lone) (.grp 0 0) lone ∧ OneClass lone 0 :=
  ⟨turn_lone, calm_lone, rfl⟩
theorem test_meets_ReductionsAndScans : Turn (at0 lone) (.grp 0 0) lone 0 ∧ Calm (at0 lone) (.grp 0 0) lone ∧ redPair false .i32 .add = true ∧
    redPair true .i32 .xadd = true ∧ (5 < 2 ^ rtyBits .i32) := ⟨turn_lone, calm_lone, by decide⟩

theorem test_meets_FloatSpecials : decodeFp .f32 0x7F800000 = .inf false ∧ decodeFp .f32 0xFF800000 = .inf true ∧ decodeFp .f32 0x7FC00000 = .nan false ∧ (decodeFp .f32 0x7FC00000).isNan = true ∧
    RoundsInt .rz (scaled .f32 0x3FC00000) 1 ∧ Finite .f32 0x3FC00000 ∧ (decodeFp .e5m2 0x7C).isInf = true ∧ scaled .e5m2 0 = 0 ∧ Finite .e5m2 0 ∧ Finite .e5m2 0x3C ∧
    (decodeFp .e5m2 0x7C).isNan = false ∧ isNaN32 0x7FC00000 = true ∧ isNaN32 0x3F800000 = false ∧ Finite .f32 0x40000000 ∧ scaled .f32 0x40000000 = 1 * 2 ^ 150 := by
  refine ⟨by decide, by decide, by decide, by decide, ?_, ⟨by decide, false, _, _, rfl⟩, by decide, by decide, ⟨by decide, false, _, _, rfl⟩, ⟨by decide, false, _, _, rfl⟩, by decide, by decide, by decide,
    ⟨by decide, false, _, _, rfl⟩, by decide⟩
  unfold RoundsInt; decide
theorem test_meets_FloatConversions : Turn (at0 lone) (.grp 0 0) lone 0 ∧ Calm (at0 lone) (.grp 0 0) lone ∧
    (∀ l, bit (active lone 0 plain) l = true → (pattern 8 lone l (.v 0)).toNat < 64) ∧ (255 < 256) ∧
    expBits .f16 ≤ expBits .f32 ∧ fracBits .f16 ≤ fracBits .f32 ∧ Finite .f16 0x3C00 ∧
    (Finite .f32 0x7F7FFFFF ∧ (maxOf 32 true + 1) * 2 ^ 149 < scaled .f32 0x7F7FFFFF) ∧
    (Finite .f32 0xFF7FFFFF ∧ scaled .f32 0xFF7FFFFF < (minOf 32 true - 1) * 2 ^ 149) ∧ scaled .f32 0x3F800000 = 1 * 2 ^ 149 :=
  ⟨turn_lone, calm_lone, fun _ _ => (by simp [pattern, lane, lone, Group.empty, Group.readV, Tab.get]), by decide, by decide, by decide,
    ⟨by decide, false, _, _, rfl⟩, ⟨⟨by decide, false, _, _, rfl⟩, by decide⟩, ⟨⟨by decide, true, _, _, rfl⟩, by decide⟩, by decide⟩

/-- `lone` over a text of 256 bytes, in which s1 names byte 64. -/
def text0 : State := { at0 (withS 1 64 lone) with codes := [(0, { Code.empty with text := List.replicate 256 0 })] }
theorem turn_text0 : Turn text0 (.grp 0 0) (withS 1 64 lone) 0 := .group 0 0 rfl rfl rfl
/-- The lanes 0 to 7 only, p1 true in them; q1 true in every slot. -/
def half0 : Group := { withS 1 64 lone with p := [(1, 0x00FF)] }

theorem test_meets_TransfersAndLinks : Turn text0 (.grp 0 0) (withS 1 64 lone) 0 ∧ Calm text0 (.grp 0 0) (withS 1 64 lone) ∧
    (let g := withS 1 64 lone
     g.actQ (g.frag 0).mask plain = g.classMask (g.frag 0).mask ∧ g.actQ (g.frag 0).mask plain ≠ 0 ∧ g.actQ (g.frag 0).mask off = 0 ∧
     (g.readS 1).toNat < 2 ^ 32 ∧ (g.readS 1).toNat % 4 = 0 ∧ (g.readS 1).toNat < (text0.textOf g).length) ∧
    (let text : List Byte := [0, 0, 0, 0, 0, 0, 0, 0, 0, 0, 0, 0, 3, 0, 0, 0]
     text.length % 4 = 0 ∧ 0 + 12 ≤ text.length) :=
  ⟨turn_text0, .inl rfl, by decide, by decide⟩

theorem test_meets_Divergence :
    (Turn text0 (.grp 0 0) (withS 1 64 lone) 0 ∧ Calm text0 (.grp 0 0) (withS 1 64 lone)) ∧
    (let g := withS 1 64 lone
     (g.frag 0).mask ≠ 0 ∧ active g 0 plain = (g.frag 0).mask ∧ active g 0 off = 0 ∧ g.freeKnot = some 0 ∧
     (g.readS 1).toNat < (text0.textOf g).length ∧ (g.readS 1).toNat % 4 = 0 ∧
     ((g.frag 0).pc + 8) % 2 ^ 32 < (text0.textOf g).length) ∧
    (Turn (at0 half0) (.grp 0 0) half0 0 ∧ Calm (at0 half0) (.grp 0 0) half0) ∧
    (half0.freeFrags = 1 :: (List.range 14).map (· + 2) ∧ active half0 0 off = 0xFF ∧ active half0 0 off ≠ (half0.frag 0).mask) ∧
    (let g : Group := { half0 with owners := [(0, { Owner.empty with valid := true, lanes := 0xFF }), (1, { Owner.empty with valid := true, cls := 1, lanes := 0xFF00 })], q := [(1, 1)] }
     Turn (at0 g) (.grp 0 0) g 0 ∧ g.actQ (g.frag 0).mask off ≠ 0 ∧ g.actQ (g.frag 0).mask off ≠ g.classMask (g.frag 0).mask) :=
  ⟨⟨turn_text0, .inl rfl⟩, by decide, ⟨.group 0 0 rfl rfl rfl, .inl rfl⟩, by decide, .group 0 0 rfl rfl rfl, by decide⟩

/-- `lone` at a JOIN with a knot for its lanes: met by all of them, or by half; and with a counter still set. -/
def knot0 (m : Nat) : Group := { lone with knots := [(3, { valid := true, mask := 0xFFFF, arr := 0, pc := 0, ord := 0 })], frags := [(0, { Frag.empty with fst := .live, slot := 1, mask := m })] }
theorem test_meets_Reconvergence : Turn (at0 lone) (.grp 0 0) lone 0 ∧ lone.findKnot 0 0xFFFF = none ∧
    (∀ m ∈ [0xFFFF, 0x00FF], Turn (at0 (knot0 m)) (.grp 0 0) (knot0 m) 0 ∧ (knot0 m).findKnot 0 m = some 3 ∧ ((knot0 m).frag 0).sb = [] ∧
      mDiff m ((knot0 m).knot 3).mask = 0 ∧ ((knot0 m).knot 3).mask ≠ 0 ∧ 0 ∉ (knot0 m).waiting) ∧
    (((knot0 0xFFFF).knot 3).arr ||| 0xFFFF = 0xFFFF ∧ ((knot0 0x00FF).knot 3).arr ||| 0x00FF ≠ 0xFFFF) ∧
    (let g := (knot0 0xFFFF).setFrag 0 { (knot0 0xFFFF).frag 0 with sb := [(1, 1)] }
     Turn (at0 g) (.grp 0 0) g 0 ∧ g.findKnot 0 0xFFFF = some 3 ∧ (g.frag 0).sb ≠ []) := by
  refine ⟨turn_lone, by decide, ?_, by decide, .group 0 0 rfl rfl rfl, by decide⟩
  intro m h
  fin_cases h
  · exact ⟨.group 0 0 rfl rfl rfl, by decide⟩
  · exact ⟨.group 0 0 rfl rfl rfl, by decide⟩

/-- Three fragments: two in the path slots, and one that waits. -/
def three : Group := { lone with waiting := [2], frags := [(0, { Frag.empty with fst := .live, slot := 1, mask := 0xF }), (1, { Frag.empty with fst := .live, slot := 2, mask := 0xF0 }), (2, { Frag.empty with fst := .live, mask := 0xFF00 })] }
theorem test_meets_ExitAndYield : (Turn (at0 lone) (.grp 0 0) lone 0 ∧ Calm (at0 lone) (.grp 0 0) lone ∧ active lone 0 plain ≠ 0 ∧ active lone 0 off = 0) ∧
    (Turn (ctx0 seq) (.ctx 0) seq.g 0 ∧ active seq.g 0 plain ≠ 0 ∧ active seq.g 0 off = 0) ∧
    (lone.waiting = [] ∧ lone.actQ (lone.frag 0).mask plain ≠ 0 ∧ lone.actQ (lone.frag 0).mask off = 0) ∧
    (Turn (at0 three) (.grp 0 0) three 0 ∧ three.actQ (three.frag 0).mask plain ≠ 0 ∧ three.waiting = 2 :: [] ∧ 0 ∉ three.waiting ∧ three.freeSlots = [] ∧
      three.rpl = false ∧ (three.frag 0).slot = 1 ∧ (three.frag 2).fst = .live ∧ (three.frag 2).slot = 0) ∧
    (∀ e, e ≠ 0 → (three.frag e).slot ≠ (three.frag 0).slot) := by
  refine ⟨⟨turn_lone, calm_lone, by decide⟩, ⟨turn_ctx0 rfl rfl, by decide⟩, by decide, ⟨.group 0 0 rfl rfl rfl, by decide⟩, ?_⟩
  intro e h
  match e, h with
  | 0, h => exact absurd rfl h
  | 1, _ => decide
  | 2, _ => decide
  | n + 3, _ =>
    have : three.frag (n + 3) = Frag.empty := by simp [three, Group.frag, Tab.get]
    rw [this]; decide

/-- Every lane's address s1 is byte 8 of its core scratch. -/
def scratch : Group := withS 1 0xFD00000000000008 lone
theorem turn_scratch : Turn (at0 scratch) (.grp 0 0) scratch 0 := .group 0 0 rfl rfl rfl
def at8 : Nat → List Got := fun _ => [.at (coreKey 0 8)]
theorem reaches_scratch (acc : Access) (scope : Scope) (lanes : List LaneReq) (h : lanes ≠ [])
    (ok : (lanes.all fun q => (at0 scratch).laneGot (.grp 0 0) scratch { acc := acc, scope := scope, hdr := plain, act := 0xFFFF, lanes := lanes, missing := [], faults := [], op := none, data := none, passed := [] } q == .ok (at8 q.lane)) = true)
    (f : (at0 scratch).rangeHeld (.grp 0 0) scratch acc lanes = false) (u : (at0 scratch).fenceHeld (.grp 0 0) 0 = false := by decide) :
    Reaches (at0 scratch) (.grp 0 0) scratch plain 0xFFFF acc scope lanes at8 :=
  ⟨h, fun q hq => eq_of_beq (List.all_eq_true.mp ok q hq), f, u⟩
/-- The requests of one lane, or of all. -/
def reqs (m : Nat) : List LaneReq := requests scratch m (.reg (.s 1) 0) (fun _ => 0) fun _ => 0

/-- Aligned or not, one byte past the window, a window that does not exist, and the first byte that the segment lacks. -/
theorem test_meets_AccessChecks :
    (let w : List Want := [0xFD00000000000001, 0x0100000000000000, 0xF900000100000000, 0xFD00000000040000, 0xFD00200000000000, 0xFD00000000000400, 0xFD000000000003FC,
      0xFC00000000000000, 0xFC00800000000000, 0xFC00000000200000, 0xFB00000000000000, 0xFB00000002000000, 0xFA00000000000000].map fun a => { wantOf a 4 1 with align := 4 }
     (w.map fun t => decide (t.addr < 2 ^ 64 ∧ t.addr % t.align = 0)) = [false, true, true, true, true, true, true, true, true, true, true, true, true] ∧
     (w.map fun t => (BitVec.ofNat 64 t.addr).extractLsb' 56 8) = [0xFD, 0x01, 0xF9, 0xFD, 0xFD, 0xFD, 0xFD, 0xFC, 0xFC, 0xFC, 0xFB, 0xFB, 0xFA]) := by decide

theorem reaches_ld : Reaches (at0 scratch) (.grp 0 0) scratch plain 0xFFFF (.ld (.raw .b32) 1 false 4 false) .wg (reqs 0xFFFF) at8 :=
  reaches_scratch _ _ _ (by decide) (by decide) (by decide)
theorem reaches_ldaq : Reaches (at0 scratch) (.grp 0 0) scratch plain 0xFFFF (.ld (.raw .b32) 1 false 4 true) .wg (reqs 1) at8 :=
  reaches_scratch _ _ _ (by decide) (by decide) (by decide)
theorem reaches_sld : Reaches (at0 scratch) (.grp 0 0) scratch plain 0xFFFF (.sld .b32 1 4) .wg [{ lane := 0, addr := 0xFD00000000000008, addr2 := 0, x := 0, y := 0 }] at8 :=
  reaches_scratch _ _ _ (by decide) (by decide) (by decide)
theorem test_meets_LoadsBegin : Turn (at0 scratch) (.grp 0 0) scratch 0 ∧ Calm (at0 scratch) (.grp 0 0) scratch ∧ active scratch 0 off = 0 ∧
    leaders scratch 0xFFFF = 1 ∧ scratch.actQ (scratch.frag 0).mask plain ≠ 0 ∧ scratch.actQ (scratch.frag 0).mask off = 0 ∧ scratch.entCount ≤ 1 ∧
    (∃ l, Reaches (at0 scratch) (.grp 0 0) scratch plain 0xFFFF (.ld (.raw .b32) 1 false 4 false) .wg l at8) ∧
    (∃ l, Reaches (at0 scratch) (.grp 0 0) scratch plain 0xFFFF (.ld (.raw .b32) 1 false 4 true) .wg l at8) ∧
    (∃ l, Reaches (at0 scratch) (.grp 0 0) scratch plain 0xFFFF (.sld .b32 1 4) .wg l at8) :=
  ⟨turn_scratch, .inl rfl, by decide, by decide, by decide, by decide, by decide, ⟨_, reaches_ld⟩, ⟨_, reaches_ldaq⟩, ⟨_, reaches_sld⟩⟩

theorem reaches_st : Reaches (at0 scratch) (.grp 0 0) scratch plain 0xFFFF (.st (.raw .b32) 1 false (.v 4) false) .wg (reqs 0xFFFF) at8 :=
  reaches_scratch _ _ _ (by decide) (by decide) (by decide)
theorem reaches_strl : Reaches (at0 scratch) (.grp 0 0) scratch plain 0xFFFF (.st (.raw .b32) 1 false (.v 4) true) .wg (reqs 1) at8 :=
  reaches_scratch _ _ _ (by decide) (by decide) (by decide)
theorem reaches_bari : Reaches (at0 scratch) (.grp 0 0) scratch plain 0xFFFF (.bari false false (.s 1)) .wg (requests scratch 0xFFFF (.reg (.s 1) 0) (fun _ => 8) fun _ => 0) at8 :=
  reaches_scratch _ _ _ (by decide) (by decide) (by decide)
/-- TMOV of 16 bytes from byte 8 to byte 8. -/
theorem reaches_tmov : ∃ at_, Reaches (at0 scratch) (.grp 0 0) scratch plain 0xFFFF (.tmov 16) .wg
    ((lanesOf 0xFFFF).map fun l => { lane := l, addr := 0xFD00000000000010, addr2 := 0xFD00000000000020, x := 0, y := 0 }) at_ :=
  ⟨fun _ => [.at (coreKey 0 16), .at (coreKey 0 32)], by decide, by decide, by decide, by decide⟩
theorem test_meets_StoresAndScratchPointers : Turn (at0 scratch) (.grp 0 0) scratch 0 ∧ Calm (at0 scratch) (.grp 0 0) scratch ∧ active scratch 0 off = 0 ∧
    scratch.handler = none ∧
    (∃ l, Reaches (at0 scratch) (.grp 0 0) scratch plain 0xFFFF (.st (.raw .b32) 1 false (.v 4) false) .wg l at8) ∧
    (∃ l, Reaches (at0 scratch) (.grp 0 0) scratch plain 0xFFFF (.st (.raw .b32) 1 false (.v 4) true) .wg l at8) ∧
    (∃ l, Reaches (at0 scratch) (.grp 0 0) scratch plain 0xFFFF (.bari false false (.s 1)) .wg l at8) :=
  ⟨turn_scratch, .inl rfl, by decide, rfl, ⟨_, reaches_st⟩, ⟨_, reaches_strl⟩, ⟨_, reaches_bari⟩⟩

theorem test_meets_AtomicsBegin : Turn (at0 scratch) (.grp 0 0) scratch 0 ∧ Calm (at0 scratch) (.grp 0 0) scratch ∧ active scratch 0 off = 0 ∧
    Reaches (at0 scratch) (.grp 0 0) scratch plain 0xFFFF (.atom .i32 .add .rlx 4) .wg (reqs 0xFFFF) at8 ∧
    Reaches (at0 scratch) (.grp 0 0) scratch plain 0xFFFF (.ared .i32 .add true (.v 4)) .wg (reqs 0xFFFF) at8 ∧
    Reaches (at0 scratch) (.grp 0 0) scratch plain 0xFFFF (.acas .b32 .ar 4) .wg (reqs 0xFFFF) at8 ∧
    Reaches (at0 scratch) (.grp 0 0) scratch plain 0xFFFF (.atomf .f32 .add .rlx 4) .wg (reqs 0xFFFF) at8 :=
  ⟨turn_scratch, .inl rfl, by decide, reaches_scratch _ _ _ (by decide) (by decide) (by decide), reaches_scratch _ _ _ (by decide) (by decide) (by decide),
    reaches_scratch _ _ _ (by decide) (by decide) (by decide), reaches_scratch _ _ _ (by decide) (by decide) (by decide)⟩

theorem test_meets_BarrierWaitsBegin : Turn (at0 scratch) (.grp 0 0) scratch 0 ∧ Calm (at0 scratch) (.grp 0 0) scratch ∧ active scratch 0 off = 0 ∧
    active scratch 0 plain ≠ 0 ∧
    Reaches (at0 scratch) (.grp 0 0) scratch plain 0xFFFF (.barv .arrive 4) .wg (reqs 0xFFFF) at8 ∧
    Reaches (at0 scratch) (.grp 0 0) scratch plain 0xFFFF .bwait .wg (reqs 0xFFFF) at8 ∧
    Reaches (at0 scratch) (.grp 0 0) scratch plain 0xFFFF (.btest 1) .wg (reqs 0xFFFF) at8 :=
  ⟨turn_scratch, .inl rfl, by decide, by decide, reaches_scratch _ _ _ (by decide) (by decide) (by decide), reaches_scratch _ _ _ (by decide) (by decide) (by decide),
    reaches_scratch _ _ _ (by decide) (by decide) (by decide)⟩

/-! ## What the statements ask for can be met: partial transfers and joins, faults -/

/-- Two classes of one owner each; q1 is true in the slot of the second. -/
def classes2 : Group :=
  { half0 with owners := [(0, { Owner.empty with valid := true, lanes := 0xFF }), (1, { Owner.empty with valid := true, cls := 1, lanes := 0xFF00 })], q := [(1, 2)] }
def classesText : State := { text0 with groups := [(0, classes2)] }
theorem turn_classes2 : Turn classesText (.grp 0 0) classes2 0 := .group 0 0 rfl rfl rfl
theorem test_meets_DivergenceTargets : Turn classesText (.grp 0 0) classes2 0 ∧ Calm classesText (.grp 0 0) classes2 ∧ classes2.freeFrags = 1 :: (List.range 14).map (· + 2) ∧
    classes2.actQ (classes2.frag 0).mask off ≠ 0 ∧ classes2.actQ (classes2.frag 0).mask off ≠ classes2.classMask (classes2.frag 0).mask ∧
    (classes2.readS 1).toNat < 2 ^ 32 ∧ (classes2.readS 1).toNat % 4 = 0 ∧ (classes2.readS 1).toNat < (classesText.textOf classes2).length :=
  ⟨turn_classes2, .inl rfl, by decide⟩
/-- A JOIN of lanes 0 to 3 and 8 to 15 at a knot of lanes 0 to 7. -/
def knotPart : Group := { knot0 0xFF0F with knots := [(3, { valid := true, mask := 0xFF, arr := 0, pc := 0, ord := 0 })] }
theorem test_meets_JoinSplits : Turn (at0 knotPart) (.grp 0 0) knotPart 0 ∧ knotPart.findKnot (knotPart.frag 0).pc (knotPart.frag 0).mask = some 3 ∧ (knotPart.frag 0).sb = [] ∧
    knotPart.freeFrags = 1 :: (List.range 14).map (· + 2) ∧ mDiff (knotPart.frag 0).mask (knotPart.knot 3).mask ≠ 0 ∧
    (knotPart.knot 3).arr ||| ((knotPart.frag 0).mask &&& (knotPart.knot 3).mask) ≠ (knotPart.knot 3).mask ∧ (knotPart.frag 0).mask < 65536 ∧ 0 ∉ knotPart.waiting :=
  ⟨.group 0 0 rfl rfl rfl, by decide⟩

/-- Lane 0 reads at 0x40000, which its entry of the RTB does not permit, or whose fill has failed; the other lanes read byte 8 of their scratch. -/
def faulty : Group := { lone with v := Tab.put (fun _ => 0) (Tab.put (fun _ => 0) (withV 3 0xFD000000 (withV 2 8 lone)).v 32 0x40000) 48 0 }
def denies : RtbEntry := { vf := 0, asid := 0, lo := 0x40000, hi := 0x41000, add := 0, tgt := 0, pair := 0, r := false, w := false, a := false }
def denied0 : State := { at0 faulty with cores := [(0, { Core.empty with rtb := [denies] })] }
def bad0 (l : Nat) : Option Nat := if l = 0 then some 0x40000 else none
/-- Each lane's outcome is what `F` says. -/
def outcomesAs (u : State) (g : Group) (r : MemReq) (c : Nat) (F : Nat → Option Nat) : Bool := r.lanes.all fun q => match F q.lane, u.laneGot (.grp 0 0) g r q with
  | some a, x => x == .bad { lane := q.lane, cause := c, addr := a }
  | none, .ok _ => true
  | none, _ => false
theorem outcomes_of {u : State} {g : Group} {r : MemReq} {c : Nat} {F : Nat → Option Nat} (h : outcomesAs u g r c F = true) :
    ∀ q ∈ r.lanes, match F q.lane with
      | some a => u.laneGot (.grp 0 0) g r q = .bad { lane := q.lane, cause := c, addr := a }
      | none => ∃ l, u.laneGot (.grp 0 0) g r q = .ok l := by
  intro q hq
  have := List.all_eq_true.mp h q hq
  split <;> simp_all
  split at this <;> simp_all
def ldReq (faults : List FillFault) : MemReq :=
  { acc := .ld (.raw .b32) 1 false 4 false, scope := .wg, hdr := plain, act := 0xFFFF, lanes := requests faulty 0xFFFF (.reg (.v 2) 0) (fun _ => 0) fun _ => 0, missing := [], faults := faults, op := none,
    data := none, passed := [] }
def noFill : List FillFault := [{ vf := 0, asid := 0, addr := 0x40000, need := 1, cause := 8 }]
def heldFaulty : Group := faulty.setFrag 0 { faulty.frag 0 with hold := .probe (ldReq noFill) }
def resumed0 : State := { at0 heldFaulty with agenda := [.resume (.grp 0 0)] }
theorem test_meets_LoadFaults :
    (Turn denied0 (.grp 0 0) faulty 0 ∧ Calm denied0 (.grp 0 0) faulty ∧ faulty.handler = none ∧ Owned faulty 0 0 (active faulty 0 plain) ∧ active faulty 0 plain = 0xFFFF ∧
      denied0.rangeHeld (.grp 0 0) faulty (ldReq []).acc (ldReq []).lanes = false ∧ denied0.fenceHeld (.grp 0 0) 0 = false ∧
      (maskWhere fun l => bit 0xFFFF l && (bad0 l).isSome) = 1) ∧
    (∀ q ∈ (ldReq []).lanes, match bad0 q.lane with
      | some a => denied0.laneGot (.grp 0 0) faulty (ldReq []) q = .bad { lane := q.lane, cause := 9, addr := a }
      | none => ∃ l, denied0.laneGot (.grp 0 0) faulty (ldReq []) q = .ok l) ∧
    (let u := { resumed0 with agenda := [] }
     resumed0.groupsAt 0 = heldFaulty ∧ heldFaulty.live = true ∧ (heldFaulty.frag 0).fst = .live ∧ (heldFaulty.frag 0).hold = .probe (ldReq noFill) ∧ u.keeps (.grp 0 0) = false ∧
       (ldReq noFill).lanes.map (·.lane) = lanesOf 0xFFFF ∧ 0xFFFF &&& (heldFaulty.frag 0).mask = 0xFFFF ∧ Owned heldFaulty 0 0 0xFFFF ∧
       u.rangeHeld (.grp 0 0) heldFaulty (ldReq noFill).acc (ldReq noFill).lanes = false) ∧
    (∀ q ∈ (ldReq noFill).lanes, match bad0 q.lane with
      | some a => { resumed0 with agenda := [] }.laneGot (.grp 0 0) heldFaulty (ldReq noFill) q = .bad { lane := q.lane, cause := 8, addr := a }
      | none => ∃ l, { resumed0 with agenda := [] }.laneGot (.grp 0 0) heldFaulty (ldReq noFill) q = .ok l) :=
  ⟨⟨.group 0 0 rfl rfl rfl, .inl rfl, rfl, ⟨by decide, by decide, by decide, by decide⟩, by decide, by decide, by decide, by decide⟩, outcomes_of (by decide),
    ⟨by decide, by decide, by decide, by decide, by decide, by decide, by decide, ⟨by decide, by decide, by decide, by decide⟩, by decide⟩, outcomes_of (by decide)⟩

/-! ## What the statements ask for can be met: the array and the engines -/

/-- Context 0 about to latch slot 0: one row and one column, whose line holds the trit byte `b`. -/
def slot1 : DWord := 0x8020000000000000
def latch0 (b : Byte) : State := { ctx0 seq with images := [(0, slot1)], mem := if b = 0 then [] else [(patternKey 0 0 0 0, b)] }
/-- Bytes 0x79 (trits 0, pads 0) and 0xF3 (no trits). -/
theorem test_meets_Latching : Turn (latch0 0x79) (.ctx 0) seq.g 0 ∧ Calm (latch0 0x79) (.ctx 0) seq.g ∧ seq.g.actQ (seq.g.frag 0).mask plain ≠ 0 ∧
    ((latch0 0x79).ctxsAt 0).charge < 65536 ∧ ((latch0 0x79).ctxRegion 0).getD 0 = 1 ∧
    (let w := slot1.toNat
     slotV w = true ∧ slotVf w = ((latch0 0x79).ctxsAt 0).vf ∧ slotQm w = 1 ∧ (latch0 0x79).slotBad 0 w ((regionCols 1).take (slotNcol w)) = false ∧ slotK w = 1) ∧
    ((latch0 0x79).memAt (patternKey 0 0 0 0)).toNat < 0xF3 ∧ (∀ p, 1 ≤ p → p < 5 → ((latch0 0x79).memAt (patternKey 0 0 0 0)).toNat / 3 ^ (p % 5) % 3 = 1) ∧
    ¬ ((latch0 0xF3).memAt (patternKey 0 0 0 0)).toNat < 0xF3 ∧ slotV 0 = false :=
  ⟨.context 0 rfl rfl rfl, .inl rfl, by decide, by decide, by decide, by decide, by decide, by decide, by decide, by decide⟩

/-- Context 0 with a loaded latch, and a row in its feed queue or none. -/
def fed0 (rows : List FeedRow) : State :=
  { ctx0 { seq with latched := true } with latches := [(0, { Latch.empty with loaded := true, kind := 0, rows := 1, cols := [[1]] })], cores := [(0, { Core.empty with rows := rows })] }
theorem test_meets_ArrayPasses : Turn (fed0 []) (.ctx 0) seq.g 0 ∧ Calm (fed0 []) (.ctx 0) seq.g ∧ seq.g.actQ (seq.g.frag 0).mask plain ≠ 0 ∧
    ((fed0 []).ctxsAt 0).charge < 65536 ∧ ((fed0 []).ctxsAt 0).latched = true ∧ ((feedersOf (((fed0 []).ctxRegion 0).getD 0)).map fun q => 4 * (0 / 4) + q) = [0] ∧
    ¬ 1 ≤ ((fed0 []).coresAt 0).rows.length ∧
    (let s := fed0 [{ vals := [5], anc := 7 }]
     1 ≤ (s.coresAt 0).rows.length ∧ (∀ r ∈ (s.coresAt 0).rows.take 1, r.anc = 7) ∧ bit (s.accMetaAt 1023) 11 = false ∧ 1023 + 0 + 1 ≤ 1024) :=
  ⟨.context 0 rfl rfl rfl, .inl rfl, by decide, by decide, by decide, by decide, by decide, by decide⟩

theorem test_meets_TritPacking : Turn (at0 lone) (.grp 0 0) lone 0 ∧ Calm (at0 lone) (.grp 0 0) lone := ⟨turn_lone, calm_lone⟩

/-- `scratch` with s1 at a record at byte 64, in the region of its own context, with accumulator rows, a communicator, and a TCOPY record at byte 64 and a
descriptor at byte 128 of its segment. -/
def engGroup : Group := withS 2 0xFD00000000000080 (withS 1 0xFD00000000000040 lone)
def layout : Nat := 0xFD00000000000100 + 0xFD00000000000200 * 2 ^ 64 + 2 ^ 128 * (1 + 2 ^ 160)
def descr : Nat := 0xFD00000000000100 * 2 ^ 192 * 2 ^ 256 + 0xFD00000000000200 * 2 ^ 192 * 2 ^ 192 + 2 ^ 152 * 2 ^ 200 + 2 ^ 115 * 2 ^ 200
def eng0 : State :=
  runAll { at0 engGroup with
    ctxs := [(0, { Ctx.empty with owned := true })]
    win := [(0x419000, 0x8008000000000000)]
    wgs := [(0, some { launch := 0, num := 0, core := 0, origin := 0, lanes := 16, slots := 1, groups := [0], left := 16, seg := 0, acr := 16, accBase := 0, blk := none, age := 0, saved := false, saving := false, area := 0, pool := 0, ended := false, wr := [] })] }
    (storeBytes (coreKey 0 64) (toBytes layout 64) ++ storeBytes (coreKey 0 128) (toBytes descr 64))
def eng0Got (k : EngKind) (bar : Option Nat) : LaneGot := eng0.engineGot (.grp 0 0) engGroup [] [] none 0 0 k bar
def isOk (x : LaneGot) : Bool := match x with | .ok _ => true | _ => false
theorem turn_eng0 : Turn eng0 (.grp 0 0) engGroup 0 := .group 0 0 rfl rfl rfl

set_option exponentiation.threshold 600 in
/-- Barriers at a misaligned byte and outside scratch; bases off their alignment; regions that are none or not owned; a row past the run. -/
theorem test_meets_EngineChecks : eng0.got (.grp 0 0) engGroup [] 0 (wantOf 0xFD00000000000040 64 1) = .at (coreKey 0 64) ∧
    eng0.got (.grp 0 0) engGroup [] 0 (wantOf 0xFD00000000000080 64 1) = .at (coreKey 0 128) ∧ inScratch 8 = false ∧
    eng0.regionOk 0 0 (eng0.wloadRegion 0 0) = true ∧ eng0.regionOk 0 0 (eng0.wloadRegion 0 3) = false ∧
    eng0.ownsRegion engGroup 0 (engGroup.ownerOf 0) = true ∧ (at0 lone).ownsRegion lone 0 (lone.ownerOf 0) = false ∧
    0 ∈ feedersOf (regionOf (eng0.fuse 0) 0) ∧ ((eng0.wg 0).map (·.acr)).getD 0 = 16 ∧
    eng0.recordFree (.grp 0 0) 0 [.at (coreKey 0 64)] = true ∧ eng0.recordLost (.grp 0 0) [.at (coreKey 0 64)] = false ∧ isPeer (coreKey 0 64) = false ∧ layoutBad (eng0.load (coreKey 0 64) 64) = false ∧ layoutBad (eng0.load (coreKey 0 0) 64) = true ∧
    descBad (eng0.load (coreKey 0 64) 64) (eng0.comm 0) 0 = true := by decide

set_option exponentiation.threshold 600 in
theorem test_meets_EnginesStart : Turn eng0 (.grp 0 0) engGroup 0 ∧ Calm eng0 (.grp 0 0) engGroup ∧ active engGroup 0 plain = 0xFFFF ∧ active engGroup 0 off = 0 ∧
    engGroup.readP 0 0 = true ∧ engGroup.readP 1 0 = false ∧
    (∀ k ∈ [EngKind.wload 0xFD00000000000040 0 0 0, .feed .f16 0xFD00000000000000 1 0 256, .drain .f32 0xFD00000000000000 15 1 512,
        .tcopy 0xFD00000000000040 0 [0, 0, 0, 0], .gath 0xFD00000000000100 0xFD00000000000200 0xFD00000000000300 8 1, .coll 0xFD00000000000080 0],
      eng0.engineRoom (.grp 0 0) engGroup k = true ∧ isOk (eng0Got k none) = true) :=
  ⟨turn_eng0, .inl rfl, by decide, by decide, by decide, by decide, by decide⟩

/-- An engine operation outstanding in class 0. -/
def waits : Group := { engGroup with engNum := [(0, 1)], eng := [(0, 1)] }
theorem test_meets_WaitsAndSignals : Turn eng0 (.grp 0 0) engGroup 0 ∧ active engGroup 0 off = 0 ∧ active engGroup 0 plain ≠ 0 ∧
    eng0.ownsRegion engGroup 0 (engGroup.ownerOf (lowest (active engGroup 0 plain))) = true ∧
    ¬ (1 ≤ (((eng0.ctxsAt (eng0.leadCtx 0)).bdone : Int) - (0 : Nat)) % 2 ^ 32) ∧ (1 ≤ (((1 : Nat) : Int) - (0 : Nat)) % 2 ^ 32 ∧ (((1 : Nat) : Int) - (0 : Nat)) % 2 ^ 32 ≤ 2 ^ 31) ∧
    (∀ e, e < 16 → (engGroup.fail e).cause = 0) ∧ (Turn (at0 waits) (.grp 0 0) waits 0 ∧ Calm (at0 waits) (.grp 0 0) waits) ∧
    Tab.get (fun _ => 0) waits.engNum 0 - waits.engCount 0 < Tab.get (fun _ => 0) waits.engNum 0 - 0 ∧
    waits.readP 0 0 = true ∧ waits.readP 1 0 = false :=
  ⟨turn_eng0, by decide, by decide, by decide, by decide, by decide, by decide, ⟨.group 0 0 rfl rfl rfl, .inl rfl⟩, by decide, by decide, by decide⟩

/-- A launch record at byte 64, led by lane 0. -/
def launcher : List LaneReq := [{ lane := 0, addr := 0xFD00000000000040, addr2 := 0, x := 0, y := 0 }]
theorem reaches_launch (arm : Bool) (h : (eng0.laneGot (.grp 0 0) engGroup { acc := .launch 4 arm 0 0, scope := .dev, hdr := plain, act := 0xFFFF, lanes := launcher, missing := [], faults := [], op := none, data := none, passed := [] }
      (launcher.headD { lane := 0, addr := 0, addr2 := 0, x := 0, y := 0 }) == .ok [.at (coreKey 0 64)]) = true) :
    Reaches eng0 (.grp 0 0) engGroup plain 0xFFFF (.launch 4 arm 0 0) .dev launcher fun _ => [.at (coreKey 0 64)] := by
  refine ⟨by decide, fun q hq => ?_, rfl, rfl⟩
  have e : q = launcher.headD { lane := 0, addr := 0, addr2 := 0, x := 0, y := 0 } := by simpa [launcher] using hq
  rw [e]; exact eq_of_beq h
theorem test_meets_DeviceLaunches : Turn eng0 (.grp 0 0) engGroup 0 ∧ Calm eng0 (.grp 0 0) engGroup ∧ bit (active engGroup 0 plain) 0 = true ∧ engGroup.readP 0 0 = true ∧
    engGroup.readP 1 0 = false ∧ Reaches eng0 (.grp 0 0) engGroup plain 0xFFFF (.launch 4 false 0 0) .dev launcher (fun _ => [.at (coreKey 0 64)]) ∧
    Reaches eng0 (.grp 0 0) engGroup plain 0xFFFF (.launch 4 true 0 0) .dev launcher (fun _ => [.at (coreKey 0 64)]) ∧ (eng0.tasksAt 0).tst = 0 ∧
    ({ eng0 with tasks := [(0, { Task.empty with tst := 1 })] }.tasksAt 0).tst ≠ 0 ∧ (eng0.devqAt 0).length < 32 :=
  ⟨turn_eng0, .inl rfl, by decide, by decide, by decide, reaches_launch false (by decide), reaches_launch true (by decide), by decide, by decide, by decide⟩

/-- A record in a peer's memory. -/
def peerSide : State := { eng0 with cores := [(0, { eng0.coresAt 0 with rtb := [{ vf := 0, asid := 0, lo := 0x40000, hi := 0x41000, add := 0, tgt := 7, pair := 0, r := true, w := false, a := false }] })] }
set_option exponentiation.threshold 600 in
theorem test_meets_PeerRecord : 0x40000 % 64 = 0 ∧ isPeer (peerKey 5 0x40000) = true ∧ peerSide.got (.grp 0 0) engGroup [] 0 (wantOf 0x40000 64 1) = .at (peerKey 5 0x40000) := by decide

/-! ## What the statements ask for can be met: faults, system registers, events -/

/-- `lone` with a debugger attached to its function. -/
def attached0 : State := { at0 lone with dbg := 1, win := [(0x800000, 0xC000000000000000)] }
/-- `lone` under CHECK, with a result for v2 of lane 0 to come. -/
def early : Group := { lone with check := 1, pend := [{ ready := 9, age := 0, outs := [{ file := .v, reg := 2, lane := 0, val := 0, msk := 0 }], slot := 0, heirs := [0] }] }
theorem test_meets_TrapsBreaksShortStalls : (Turn (at0 lone) (.grp 0 0) lone 0 ∧ Calm (at0 lone) (.grp 0 0) lone) ∧ active lone 0 off = 0 ∧ active lone 0 plain ≠ 0 ∧
    (∀ l, l < 16 → (at0 lone).attached (lone.ownerOf l).vf (lone.ownerOf l).asid = false) ∧
    lone.entsOf 0xFFFF = [0] ∧ 0xFFFF &&& (lone.owner 0).lanes = 0xFFFF ∧ 0xFFFF = (lone.frag 0).mask ∧ lone.freeFrags ≠ [] ∧
    (Turn attached0 (.grp 0 0) lone 0 ∧ attached0.attached 0 0 = true ∧ ∀ l, l < 16 → lone.entOf l = 0) ∧
    (Turn (at0 early) (.grp 0 0) early 0 ∧ early.handler = none ∧ early.check.toNat % 2 = 1 ∧ early.entsOf (early.frag 0).mask = [0] ∧
      (early.frag 0).mask &&& (early.owner 0).lanes = (early.frag 0).mask ∧ (early.frag 0).mask ≠ 0 ∧ bit (early.frag 0).mask 0 = true ∧
      (∃ p ∈ early.pend, (at0 early).cycle < p.ready ∧ ∃ x ∈ p.outs, x.file = .v ∧ x.reg = 2 ∧ x.lane = 0 ∧ x.sets = false)) ∧
    (∃ t, exec (.iadd plain .i32 false 3 (.v 2) (.reg (.v 2))) (at0 early) = .next t) :=
  ⟨⟨turn_lone, calm_lone⟩, by decide, by decide, by decide, by decide, by decide, by decide, by decide, ⟨.group 0 0 rfl rfl rfl, by decide, by decide⟩,
    ⟨.group 0 0 rfl rfl rfl, by decide, by decide, by decide, by decide, by decide, by decide, ⟨_, .head _, by decide, _, .head _, by decide⟩⟩, ⟨_, rfl⟩⟩

/-- A handler at level 2 in a group whose s1 is `n`. -/
def hnd0 : Handler :=
  { fn := 0, level := 2, restore := false, cause := 0x22, code := 0, area := 0, warea := 0, unit := 1, idx := 0, owners := [], pres := 0xFFFF, frozen := [], header := [], shadow := [],
    inner := [], guest := none, clk := 0, failed := false, vstatus := 0, vflags := 0 }
def inHandler (n : DWord) : Group := withS 1 n { lone with handler := some hnd0 }
theorem test_meets_SystemRegisters : (Turn (at0 lone) (.grp 0 0) lone 0 ∧ Calm (at0 lone) (.grp 0 0) lone ∧ lone.handler = none) ∧
    (∀ n ∈ ([0x0100, 0x0710, 0x06FF, 0x0400] : List DWord), Turn (at0 (inHandler n)) (.grp 0 0) (inHandler n) 0 ∧ (inHandler n).handler = some hnd0) ∧
    (0x010F % 256 < 16 ∧ 0x0707 / 256 = 7 ∧ 2 ≤ hnd0.level ∧ 0x0807 / 256 = 8 ∧ ¬ 0x0110 % 256 < 16) ∧
    lone.actQ (lone.frag 0).mask plain ≠ 0 ∧ lone.actQ (lone.frag 0).mask off = 0 ∧ ((inHandler 0).readS 1).toNat / 2 ^ 16 % 64 = 0 := by
  refine ⟨⟨turn_lone, calm_lone, rfl⟩, ?_, by decide, by decide, by decide, by decide⟩
  intro n _
  exact ⟨.group 0 0 rfl rfl rfl, rfl⟩

theorem test_meets_CheckpointsAndEvents : Turn (at0 lone) (.grp 0 0) lone 0 ∧ Calm (at0 lone) (.grp 0 0) lone ∧ lone.actQ (lone.frag 0).mask plain ≠ 0 ∧
    lone.actQ (lone.frag 0).mask off = 0 := ⟨turn_lone, calm_lone, by decide, by decide⟩

theorem run_pipe0 (r : Run) : (pipe0 r).turn = .pipe 0 0 ∧ Tab.get (fun _ => none) ((pipe0 r).efcsAt 0).pipes 0 = some r := ⟨rfl, rfl⟩
theorem test_meets_FilterRegisters : (pipe0 run0).turn = .pipe 0 0 ∧ Tab.get (fun _ => none) ((pipe0 run0).efcsAt 0).pipes 0 = some run0 := run_pipe0 run0
/-- Slot 0 with a region of 32 words at word 0, no trigger lines but line 7, and ring 0 of two records. -/
def sketch0 : State := { pipe0 run0 with win := [(0x1004008, 0x0000004010000000), (0x1005A00, 0x0000200000000000)] }
theorem test_meets_FilterSketches : sketch0.turn = .pipe 0 0 ∧ Tab.get (fun _ => none) (sketch0.efcsAt 0).pipes 0 = some run0 ∧ run0.slot < 64 ∧
    (let x := sketch0.efsr 0 0
     x / 2 ^ 33 % 2 ^ 16 = 32 ∧ x / 2 ^ 49 % 2 ^ 15 + 31 < 32768 ∧ ¬ 32 < x / 2 ^ 33 % 2 ^ 16) ∧ sketch0.load (sketchKey 0 0) 8 / 2 ^ 58 % 64 < 32 := by decide
theorem test_meets_FilterOutput : sketch0.turn = .pipe 0 0 ∧ Tab.get (fun _ => none) (sketch0.efcsAt 0).pipes 0 = some run0 ∧ run0.slot < 64 ∧ run0.own < 64 ∧
    bit (sketch0.efsr 0 0 / 2 ^ 21 % 256) 7 = true ∧ bit (sketch0.efsr 0 0 / 2 ^ 21 % 256) 6 = false ∧
    run0.window = (sketch0.efcsAt 0).window ∧ { run0 with window := 1 }.window ≠ (sketch0.efcsAt 0).window ∧ Tab.get (fun _ => 0) (sketch0.efcsAt 0).loaded 0 < 4096 := by decide

/-! ## What the statements ask for can be met: translation, and what performs -/

/-- Function 0 maps every address below 2^46 to itself, in both stages, for ASID 0, and may reach region 0. -/
def mapAll : Nat := 2 ^ 46 * 2 ^ 128 + 15
def mapped (s : State) : State :=
  runAll { s with win := [(0x30000, 0x100000), (0x30008, 0x0020000000000000), (0x30018, 0x101000), (0x410000, 1)] }
    (storeBytes 0x100000 (toBytes mapAll 32) ++ storeBytes 0x101000 (toBytes 0x102000 8) ++ storeBytes 0x102000 (toBytes (1 + 2 ^ 81 * 2 ^ 200 + 0x100000 * 2 ^ 248 * 2 ^ 200) 64))
set_option exponentiation.threshold 600 in
theorem test_meets_FillTranslates : (let s := mapped State.reset
    0x40000 < 2 ^ 56 ∧ (∃ a b e, s.stage1 0 0 0x40000 0 = .ok a ∧ s.aperture 0 a.out 0 = .ok none ∧ s.stage2 0 a.out 0 = .ok b ∧ s.fill 0 0 0 0x40000 4 0 = .ok e false ∧
      a.out < b.hi ∧ 0x40000 < a.hi ∧ b.out < 2 ^ 48 ∧ b.key < 1024)) ∧
    State.reset.fill 0 0 0 0x40000 1 0 = .bad cXlatMiss := by
  refine ⟨⟨by decide, _, _, _, rfl, rfl, rfl, rfl, by decide, by decide, by decide, by decide⟩, by decide⟩

/-- Operation 5 of group 0, with one element of four bytes at byte 64 of memory. -/
def elem5 : Elem := { lane := 0, idx := 0, gaddr := 64, key := 64, n := 4, reg := 2, val := 0, cmp := 0, got := false, done := false, sent := false }
def op5 : Op :=
  { who := .grp 0 0, age := 0, passed := [], kind := .result, slot := 1, heirs := [0], elems := [], outs := [{ file := .v, reg := 2, lane := 0, val := 7, msk := 0 }], read := false, acq := false, rel := false,
    released := false, marked := false, scope := .wg, after := [], vf := 0, asid := 0, pc := 0, wg := [] }
def ops5 (o : Op) : State := { at0 lone with ops := [(5, some o)], nextId := 6 }
theorem test_meets_ResultsLand : (ops5 op5).opsAt 5 = some op5 ∧ op5.outs ≠ [] ∧ (∀ x ∈ op5.outs, x.inLanes 1 = true) ∧ op5.elems = [] ∧
    (let o := { op5 with kind := .load false, elems := [elem5] }
     (ops5 o).opsAt 5 = some o ∧ ∀ e ∈ o.elems, e.got = false ∧ e.key < 2 ^ 80 ∧ (ops5 o).afterOk o = true ∧ (ops5 o).granuleFree 5 o e.key = true ∧ (ops5 o).reserved (.grp 0 0) (5 :: o.after) e.key e.n false = false ∧ (ops5 o).lineBad e.key e.n = false ∧ (ops5 o).followedBy (.grp 0 0) = false ∧ o.sources 1 e = true) ∧
    (∀ k ∈ [OpKind.store, .operands], (ops5 { op5 with kind := k, outs := [] }).opsAt 5 = some { op5 with kind := k, outs := [] }) ∧
    (let g : Group := { lone with pend := [{ ready := 4, age := 0, outs := [], slot := 1, heirs := [0] }] }
     g.pend = [{ ready := 4, age := 0, outs := [], slot := 1, heirs := [0] }] ∧ 3 < 4 ∧ 4 ≤ 4) ∧ (∀ p ∈ lone.landed, p.ready ≠ 4) ∧ [0, 1].Nodup := by decide

/-- What performs in operation 5. -/
def perf (k : OpKind) (n : Nat) : Op := { op5 with kind := k, outs := [], read := true, elems := [{ elem5 with n := n, got := true }] }
/-- A barrier word that expects two arrivals, has one, and changes its count by none. -/
def barWord : Nat := 2 * 2 ^ 46 + 2 ^ 30
theorem test_meets_MemoryPerforms : (∀ p ∈ [(OpKind.store, 4), (.rmw .i32 .add, 4), (.cas, 4), (.rmwf .f32 .add 0, 4), (.arrive .arrive, 8)],
      let o := perf p.1 p.2
      let s := ops5 o
      s.engsAt 5 = none ∧ s.opsAt 5 = some o ∧ o.elems[0]? = some { elem5 with n := p.2, got := true } ∧ o.read = true ∧ s.afterOk o = true ∧ o.rel = false ∧
        s.granuleFree 5 o 64 = true ∧ s.reserved o.who (5 :: o.after) 64 p.2 true = false ∧ s.followedBy o.who = false ∧ s.lineBad 64 p.2 = false) ∧
    (let f := fun (hi lo : Nat) => barWord / 2 ^ lo % 2 ^ (hi + 1 - lo)
     f 13 0 = 0 ∧ f 45 30 < f 61 46 ∧ f 62 62 = 0 ∧ f 45 30 + 1 = f 61 46 ∧ 1 ≤ f 61 46) ∧
    (let f := fun (hi lo : Nat) => (3 * 2 ^ 46) / 2 ^ lo % 2 ^ (hi + 1 - lo)
     f 45 30 + 1 ≠ f 61 46 ∧ f 45 30 < f 61 46) ∧
    (∀ k ∈ [OpKind.fence .ar, .signal 0 3 0 0], let o := { op5 with kind := k, outs := [] }
      let s := ops5 o
      s.opsAt 5 = some o ∧ s.afterOk o = true ∧ (s.grp o.who).peersW = [] ∧ s.markersOut 5 = false ∧ o.marked = false ∧ s.followHeld o = false) ∧
    ((ops5 op5).tasksAt 3).tst ≠ 1 ∧ ({ ops5 op5 with tasks := [(3, { Task.empty with tst := 1, cnt := 2 })] }.tasksAt 3).cnt = 2 := by decide

/-! ## What the statements ask for can be met: holds, the market, launches and engines -/

/-- `lone` with its fragment held. -/
def heldBy (h : Hold) : Group := lone.setFrag 0 { lone.frag 0 with hold := h }
/-- A request of lane 0 for the barrier word at byte 64. -/
def req1 (a : Access) : MemReq := { acc := a, scope := .wg, hdr := plain, act := 1, lanes := [{ lane := 0, addr := 64, addr2 := 64, x := 0, y := 0 }], missing := [], faults := [], op := none, data := none, passed := [] }
def word1 (s : State) : State := runAll s (storeBytes 64 (toBytes barWord 8))
/-- Fragment 1 waits while 0 and 2 hold the path slots, 0 since cycle 0 with 256 issues. -/
def three1 : Group :=
  { lone with frags := [(0, { lone.frag 0 with mask := 1, holdSince := some 0, iss := 256 }), (1, { Frag.empty with fst := .live, mask := 2 }),
                        (2, { Frag.empty with fst := .live, slot := 2, mask := 4 })], waiting := [1] }
def miss1 : Miss := { vf := 0, asid := 0, key := 0, addr := 0x40000, page := 0x40, need := 4 }
def missing1 : State := mapped (at0 (heldBy (.probe { req1 (.barv .arrive 2) with missing := [miss1] })))
def entry1 : RtbEntry := match missing1.fill 0 0 0 0x40000 4 0 with | .ok e _ => e | _ => { vf := 1, asid := 0, lo := 0, hi := 0, add := 0, tgt := 0, pair := 0, r := false, w := false, a := false }
set_option exponentiation.threshold 600 in
theorem test_meets_HoldsEnd :
    (let r := req1 (.barv .arrive 2)
     let o := { op5 with kind := .arrive .arrive, outs := [], elems := [{ elem5 with n := 8, got := true, done := true }] }
     let s := { at0 (heldBy (.barv 5 r)) with ops := [(5, some o)] }
     (s.groupsAt 0).live = true ∧ s.keeps (.grp 0 0) = false ∧ ((s.groupsAt 0).frag 0).hold = .barv 5 r ∧ s.opsAt 5 = some o ∧ r.lanes ≠ [] ∧ (∀ q ∈ r.lanes, q.lane < 16 ∧ bit ((s.groupsAt 0).frag 0).mask q.lane = true) ∧
       (∀ e ∈ o.elems, e.done = true ∧ e.cmp ≠ 1 ∧ e.val = 0) ∧ ∀ q ∈ r.lanes, ∃ e ∈ o.elems, e.idx = (s.groupsAt 0).entOf q.lane) ∧
    (∀ p ∈ [(Access.bwait, Hold.bwait), (.btest 3, .btest)], let r := req1 p.1
      let s := word1 (at0 (heldBy (p.2 r)))
      ((s.groupsAt 0).frag 0).hold = p.2 r ∧ (∀ q ∈ r.lanes, s.barReadOk (.grp 0 0) q = true ∧ s.barLost (.grp 0 0) q = false ∧ q.y < 2 ^ 64 ∧ s.load q.addr2 8 = barWord) ∧ barWord % 2 ^ 14 = 0 ∧
        barWord / 2 ^ 30 % 2 ^ 16 < barWord / 2 ^ 46 % 2 ^ 16) ∧
    ((ctx0 seq).ctxsAt 0).completed 0xFFFFFFFF = true ∧ 0 ≤ Tab.get (fun _ => 0) lone.engNum 0 - lone.engCount 0 ∧ (∀ e, e < 16 → (lone.fail e).cause = 0) ∧
    (three1.waiting = [1] ∧ three1.stop.stopped = false ∧ 0 ∉ three1.waiting ∧ three1.freeSlots = [] ∧ three1.rpl = false ∧ (three1.frag 0).slot = 1 ∧ (three1.frag 1).slot = 0 ∧
      (three1.frag 0).holdSince = some 0 ∧ 256 ≤ (three1.frag 0).iss) ∧
    (missing1.probers 0 = [(.grp 0 0, { req1 (.barv .arrive 2) with missing := [miss1] })] ∧ (missing1.coresAt 0).rtb.length < 64 ∧ missing1.rtbFind 0 0 0 0x40000 = none ∧
      missing1.fillHeld 0 0 0x40000 0 = false ∧ missing1.fill 0 0 0 0x40000 4 0 = .ok entry1 false) ∧
    (∀ l ∈ [[], [miss1]], let s := { at0 (heldBy (.probe { req1 (.barv .arrive 2) with missing := l })) with agenda := [.resume (.grp 0 0)] }
      s.agenda = [.resume (.grp 0 0)] ∧ ((s.grp (.grp 0 0)).frag 0).hold = .probe { req1 (.barv .arrive 2) with missing := l }) := by decide

theorem test_meets_ShortStallsOfLaterResults : (let g := { lone with check := 1 }
    let o := { op5 with outs := [{ file := .s, reg := 2, lane := 0, val := 0, msk := 0 }] }
    let s := { at0 g with ops := [(5, some o)] }
    s.opsAt 5 = some o ∧ sameAgent o.who (.grp 0 0) = true ∧ (∀ x ∈ o.outs, x.sets = false ∧ x.file = .s ∧ x.reg = 2) ∧ g.check.toNat % 2 = 1 ∧ g.handler = none ∧ Owned g 0 0 (g.frag 0).mask) := by
  refine ⟨by decide, by decide, by decide, by decide, rfl, by decide, by decide, by decide, by decide⟩

/-- `lone` over text0 with s1 = 63, which no target may be, or with every knot taken. -/
def askew : Group := withS 1 63 lone
def knotted : Group := { withS 1 64 lone with knots := (List.range 32).map fun n => (n, { valid := true, mask := 1, arr := 0, pc := 0, ord := n }) }
theorem test_meets_BadTargets :
    (∀ g ∈ [askew, knotted], let s := { text0 with groups := [(0, g)] }
      s.groupsAt 0 = g ∧ g.live = true ∧ (g.frag 0).fst = .live ∧ g.handler = none ∧ s.canonical = true ∧ active g 0 plain = 0xFFFF ∧ (s.textOf g).length = 256 ∧
        (maskWhere fun l => bit (g.frag 0).mask l && bit (g.actQ (g.frag 0).mask plain) (g.clsOf l)) = 0xFFFF ∧ (g.frag 0).pc = 0 ∧
        g.entsOf 0xFFFF = [0] ∧ 0xFFFF &&& (g.owner 0).lanes = 0xFFFF ∧ (g.frag 0).mask = 0xFFFF) ∧
    (askew.readS 1).toNat % 4 ≠ 0 ∧ knotted.freeKnot = none ∧ (knotted.readS 1).toNat = 64 := by decide +kernel

/-- `lone` about to fetch the words of `text`, at byte `pc`, after a transfer or not. -/
def fetching (text : List Byte) (pc : Nat) (target : Bool) : State :=
  { at0 (lone.setFrag 0 { lone.frag 0 with pc := pc, target := target }) with codes := if text.isEmpty then [] else [(0, { Code.empty with text := text })], agenda := [.issue (.grp 0 0)] }
/-- A pad word after a transfer; past the end of the text; across a line; an unassigned opcode; EXIT with a bit where no field is. -/
theorem test_meets_BadFetches :
    (∀ p ∈ ([([3, 0, 0, 0], 0, true), ([], 0, false), (List.replicate 64 0, 28, false), ([0x3C, 0, 0, 0, 0, 0, 0, 0], 0, false), (toBytes (0x8C * 2 ^ 2 + 2 ^ 40) 8, 0, false)] : List (List Byte × Nat × Bool)),
      let s := fetching p.1 p.2.1 p.2.2
      let g := s.groupsAt 0
      s.canonical = true ∧ s.agenda = [.issue (.grp 0 0)] ∧ g.live = true ∧ (g.frag 0).fst = .live ∧ g.handler = none ∧ g.entsOf (g.frag 0).mask = [0] ∧
        (g.frag 0).mask &&& (g.owner 0).lanes = (g.frag 0).mask ∧ (g.frag 0).mask ≠ 0 ∧ (s.textOf g) = p.1 ∧ (g.frag 0).pc = p.2.1 ∧ (g.frag 0).target = p.2.2) ∧
    (0 + 4 ≤ ([3, 0, 0, 0] : List Byte).length ∧ textAt [3, 0, 0, 0] 0 1 % 4 = 3) ∧
    (32 < 28 % 32 + lenBits (textAt (List.replicate 64 0) 28 1 % 4) / 8 ∧ textAt (List.replicate 64 0) 28 1 % 4 ≠ 3) ∧
    (lenBits (0x3C % 4) / 8 = 8 ∧ (0x3C : Nat) / 4 % 256 = 0x0F) ∧
    (let w := 0x8C * 2 ^ 2 + 2 ^ 40
     let s := fetching (toBytes w 8) 0 false
     ∃ p, decodeCore (s.decCtx (.grp 0 0)) w = .error (.field p) ∧ (s.groupsAt 0).worse w = false) := by
  refine ⟨by decide, by decide, by decide, by decide, ⟨_, by rfl, by decide⟩⟩

/-- Sixteen lanes of two classes and two owners, each able to park by itself. -/
theorem test_meets_MixedClasses : Turn classesText (.grp 0 0) classes2 0 ∧ Calm classesText (.grp 0 0) classes2 ∧ classes2.handler = none ∧
    (classes2.entsOf (classes2.frag 0).mask).length ≤ classes2.freeFrags.length + 1 ∧ active classes2 0 plain ≠ 0 ∧ classes2.actQ (classes2.frag 0).mask off ≠ 0 ∧ off.gp.val ≠ 0 ∧
    (classes2.frag 0).mask < 65536 ∧ (∀ l, l < 16 → bit (classes2.frag 0).mask l = true → ∃ e ∈ classes2.entsOf (classes2.frag 0).mask, bit (classes2.owner e).lanes l = true) ∧
    ((2 : Nat) + (classes2.readS 0).toNat % 2 ^ 32) % 2 ^ 32 < 3 :=
  ⟨turn_classes2, .inl rfl, rfl, by decide⟩
theorem mixed_classes2 : ¬ OneClass classes2 0 := by unfold OneClass; decide
theorem apart_classes2 : ∀ e e', e ≠ e' → (classes2.owner e).lanes &&& (classes2.owner e').lanes = 0 := by
  intro e e' h
  match e, e' with
  | 0, 0 => exact absurd rfl h
  | 0, 1 => decide
  | 1, 0 => decide
  | 1, 1 => exact absurd rfl h
  | n + 2, _ => simp [Group.owner, classes2, half0, withS, lone, Tab.get, Owner.empty]
  | 0, n + 2 => simp [Group.owner, classes2, half0, withS, lone, Tab.get, Owner.empty]
  | 1, n + 2 => simp [Group.owner, classes2, half0, withS, lone, Tab.get, Owner.empty]

/-- Fragments 0 and 1 hold the path slots after 256 issues each, and 2 and 3 wait. -/
def two0 : Group :=
  { lone with frags := [(0, { lone.frag 0 with mask := 1, iss := 256 }), (1, { lone.frag 0 with slot := 2, mask := 2, iss := 256 }), (2, { Frag.empty with fst := .live, mask := 4 }),
                        (3, { Frag.empty with fst := .live, mask := 8 })], waiting := [2, 3] }
theorem test_meets_TwoSlotsAtTheirLimit : two0.live = true ∧ (at0 two0).keeps (.grp 0 0) = false ∧ two0.waiting = 2 :: 3 :: [] ∧ 0 ∉ two0.waiting ∧ 1 ∉ two0.waiting ∧ two0.rpl = false ∧
    two0.stop.stopped = false ∧ (two0.frag 2).slot = 0 ∧ (two0.frag 3).slot = 0 ∧ (two0.frag 2).fst = .live ∧ (two0.frag 3).fst = .live ∧
    (∀ e, e = 0 ∨ e = 1 → (two0.frag e).fst = .live ∧ 256 ≤ (two0.frag e).iss) ∧ (two0.frag 0).slot = 1 ∧ (two0.frag 1).slot = 2 ∧
    (∀ e, e < 16 → (two0.frag e).slot = 0 ∨ e = 0 ∨ e = 1) ∧ ∀ e, e ≠ 0 → e ≠ 1 → (two0.frag e).slot ≠ 1 ∧ (two0.frag e).slot ≠ 2 := by
  refine ⟨by decide, by decide, by decide, by decide, by decide, by decide, by decide, by decide, by decide, by decide, by decide, ?_, by decide, by decide, by decide, ?_⟩
  · rintro e (rfl | rfl) <;> decide
  · intro e h0 h1
    match e, h0, h1 with
    | 0, h, _ => exact absurd rfl h
    | 1, _, h => exact absurd rfl h
    | 2, _, _ => decide
    | 3, _, _ => decide
    | n + 4, _, _ => simp [two0, Group.frag, Tab.get, Frag.empty]
/-- Function 0 without tables: the fill of `missing0` fails. -/
def missing0 : State := at0 (heldBy (.probe { req1 (.barv .arrive 2) with missing := [miss1] }))
theorem test_meets_FillFails : missing0.probers 0 = [(.grp 0 0, { req1 (.barv .arrive 2) with missing := [miss1] })] ∧ (missing0.coresAt 0).rtb.length < 64 ∧ missing0.rtbFind 0 0 0 0x40000 = none ∧
    (∀ q, missing0.fillHeld 0 0 0x40000 q = false) ∧ (∀ q, missing0.fill 0 0 0 0x40000 4 q = .bad cXlatMiss) := ⟨by decide, by decide, by decide, fun _ => by rfl, fun _ => by rfl⟩

/-- A record of `nwg` workgroups of `lanes` lanes with 8 registers, and a launch of it from queue 0 of function 0. -/
def recOf (nwg lanes : Nat) : Nat := nwg * 2 ^ 192 + (lanes - 1) * 2 ^ 180
def launch0 (r : Nat) (merge : Bool) : Launch :=
  { rec_ := r, code := 1, vf := 0, asid := 0, awn := 0, pool := 1, cres := false, key := 0, prio := 0, origin := .queue 0 0 0, chain := [0x3000], elig := merge, next := 0, done := 0,
    waveEnd := 0, held := false, retired := false, restored := 0, status := 0, rpl := false }
/-- Function 0 may use every core (R335), its address spaces are mapped, and a launch waits in its queue 0. -/
def market0 (l : Launch) : State :=
  let s := mapped { State.reset with launches := [(9, some l)], nextId := 10 }
  { s with win := [(0x30000, 0x100000), (0x30008, 0x0020000000000000), (0x30018, 0x101000), (0x410000, 1)] }
def spot0 : Spot := { groups := [0], seg := 0, acc := 0, blk := none }
/-- With a range table of one entry no search has a choice (R168). -/
theorem search_one (base : Nat → Except Nat Nat) (x q : Nat) : searchBase base x 1 q 0 1 = searchBase base x 1 0 0 1 := rfl
theorem stage2_one (s : State) (vf gpa q : Nat) (h : s.regBits vf 196616 63 53 = 1) : s.stage2 vf gpa q = s.stage2 vf gpa 0 := by
  simp only [State.stage2, lookupStage, rangeLookup, h]
  rw [search_one]
theorem gpaAt_one (s : State) (vf q a : Nat) (h : s.regBits vf 196616 63 53 = 1) : s.gpaAt vf q a = s.gpaAt vf 0 a := by
  simp only [State.gpaAt, stage2_one s vf a q h]
theorem readGpa_one (s : State) (vf q a n : Nat) (h : s.regBits vf 196616 63 53 = 1) : s.readGpa vf q a n = s.readGpa vf 0 a n := by
  simp only [State.readGpa, gpaAt_one s vf q _ h]
theorem launchCtx_one (s : State) (l : Launch) (q : Nat) (h : s.regBits l.vf 196616 63 53 = 1) : s.launchCtx l q = s.launchCtx l 0 := by
  simp only [State.launchCtx, State.asidContext, readGpa_one s l.vf q _ _ h]
theorem context_one (s : State) (vf asid q : Nat) (h : s.regBits vf 196616 63 53 = 1) : s.asidContext vf asid q = s.asidContext vf asid 0 := by
  simp only [State.asidContext, readGpa_one s vf q _ _ h]
/-- The tables of function 0 of `s` for ASID 0 have one entry each, and it has no apertures. -/
def single (s : State) : Prop := s.regBits 0 196616 63 53 = 1 ∧ (s.reg 0 196640).toNat = 0 ∧ ∃ w, s.asidContext 0 0 0 = .ok w ∧ bits w 291 281 = 1
theorem translate_one (s : State) (key gva need q : Nat) (h : single s) : s.translate 0 0 key gva need q = s.translate 0 0 key gva need 0 := by
  obtain ⟨h1, h2, w, hw, hn⟩ := h
  have g : s.readGpa 0 q = s.readGpa 0 0 := by funext a n; exact readGpa_one s 0 q a n h1
  have f : s.stage1 0 0 gva q = s.stage1 0 0 gva 0 := by
    simp only [State.stage1, context_one s 0 0 q h1, hw, g, lookupStage, rangeLookup, hn]
    rw [search_one]
  simp only [State.translate, State.fillHeld, State.fill, f, State.aperture, h2, stage2_one s 0 _ q h1, ↓reduceIte]
theorem readVia_one (s : State) (via : Option (Tab Nat)) (key q : Nat) (h : single s) : ∀ fuel a n, s.readVia via 0 0 key q fuel a n = s.readVia via 0 0 key 0 fuel a n := by
  intro fuel
  induction fuel with
  | zero => intro a n; rfl
  | succ m ih => intro a n; simp only [State.readVia, translate_one s key _ 1 q h, ih]
theorem loadCode_one (s : State) (via : Option (Tab Nat)) (key q cl a : Nat) (h : single s) : s.loadCodeVia via 0 0 key q cl a = s.loadCodeVia via 0 0 key 0 cl a := by
  simp only [State.loadCodeVia, State.readGlobalVia, readVia_one s via key q h]

def mergeable : Launch := launch0 (recOf 3 8) true
def waves : Launch := launch0 (recOf 2 16 + 2 ^ 149) false
set_option exponentiation.threshold 600 in
theorem test_meets_MarketPlaces :
    (let s := market0 mergeable
     let u := { s with fresh := s.fresh + 1, mktNext := 1 }
     s.pendingQueues s.mktNext = [0] ∧ u.placing 0 = [(9, mergeable)] ∧ recDet mergeable.rec_ = false ∧ (u.mktCore + 1 + 0) % 2048 = 0 ∧
       (∀ q, u.spot mergeable (u.launchCtx mergeable q) 0 none = some spot0) ∧
       s.matches_ (launch0 (recOf 3 8) false) mergeable = false ∧ s.matches_ mergeable mergeable = true ∧ 0 + recLanes mergeable.rec_ ≤ 16 ∧
       (∀ q, s.spot mergeable (s.launchCtx mergeable q) 0 (some 5) = some { spot0 with groups := [5] })) ∧
    (let s := market0 waves
     let u := { s with fresh := s.fresh + 1 }
     s.launchesAt 9 = some waves ∧ recDet waves.rec_ = true ∧ s.sliceHeld waves = false ∧ waves.next < recNwg waves.rec_ ∧ s.wgs = [] ∧ s.groups = [] ∧
       (s.placing (queuePos waves.origin waves.vf)).head?.map (·.1) = some 9 ∧ (∀ n ∈ [0, 2, 3], decide (n ≤ s.waveSize waves) = decide (n ≤ 2048)) ∧ recLanes waves.rec_ ≠ 0 ∧
       (∀ q, u.launchCtx waves q = 1 + 2 ^ 81 * 2 ^ 200 + 0x100000 * 2 ^ 448) ∧ waves.retired = false ∧ min (recNwg waves.rec_ - waves.next) (u.waveSize waves) = 2 ∧
       s.spot waves (1 + 2 ^ 81 * 2 ^ 200 + 0x100000 * 2 ^ 448) 0 none = some spot0) ∧
    (let s := market0 mergeable
     s.placing 0 = [(9, mergeable)] ∧ s.waiting 0 = [(9, mergeable)] ∧ s.sliceHeld mergeable = false ∧ s.waitsSaved 9 = false) := by
  refine ⟨⟨by rfl, by rfl, by decide, by decide, fun q => by rw [launchCtx_one _ _ q (by decide)]; decide, by decide, by decide, by decide, fun q => by rw [launchCtx_one _ _ q (by decide)]; decide⟩,
    ⟨by rfl, by decide, by decide, by decide, by decide, by decide, by rfl, by decide, by decide, fun q => by rw [launchCtx_one _ _ q (by decide)]; decide, by decide, by decide, by decide⟩, by rfl, by rfl, by decide, by decide⟩
set_option exponentiation.threshold 600 in
theorem single_missing1 : single missing1 := ⟨by decide, by decide, 1 + 2 ^ 81 * 2 ^ 200 + 0x100000 * 2 ^ 448, by rfl, by decide⟩
theorem fill_one (s : State) (key gva need q : Nat) (h : single s) : s.fill 0 0 key gva need q = s.fill 0 0 key gva need 0 ∧ s.fillHeld 0 0 gva q = s.fillHeld 0 0 gva 0 := by
  obtain ⟨h1, h2, w, hw, hn⟩ := h
  have g : s.readGpa 0 q = s.readGpa 0 0 := by funext a n; exact readGpa_one s 0 q a n h1
  have f : s.stage1 0 0 gva q = s.stage1 0 0 gva 0 := by
    simp only [State.stage1, context_one s 0 0 q h1, hw, g, lookupStage, rangeLookup, hn]
    rw [search_one]
  constructor <;> simp only [State.fillHeld, State.fill, f, State.aperture, h2, stage2_one s 0 _ q h1, ↓reduceIte]
set_option exponentiation.threshold 600 in
theorem test_meets_FillReturns : (∀ q, missing1.fillHeld 0 0 0x40000 q = false) ∧ ∀ q, missing1.fill 0 0 0 0x40000 4 q = .ok entry1 false :=
  ⟨fun q => by rw [(fill_one _ 0 _ 0 q single_missing1).2]; decide, fun q => by rw [(fill_one _ _ _ _ q single_missing1).1]; decide⟩

/-- The first workgroup of `solo`, 8 lanes in group slot 1 of core 0; its admission, with a copy of its code that group 3 pins. -/
def solo : Launch := { launch0 (recOf 1 8) false with next := 1 }
def wg10 : Wg :=
  { launch := 9, num := 0, core := 0, origin := 0, lanes := 8, slots := 16, groups := [1], left := 8, seg := 0, acr := 0, accBase := 0, blk := none, age := 0, saved := false, saving := false,
    area := 0, pool := 1, ended := false, wr := [] }
def admit10 : Admit := { launch := 9, wg := 10, core := 0, slot := 1, first := 0, merged := false, ent := 0 }
def work0 : State := { market0 solo with wgs := [(10, some wg10)], nextId := 11 }
def entering : State :=
  { work0 with admits := [admit10], groups := [(3, { lone with code := 2 })], codes := [(1, { Code.empty with cluster := 512 }), (2, { Code.empty with regs := 1 })] }
theorem admitHeld_entering (q : Nat) : entering.admitHeld q admit10 = false := by
  show ((match entering.asidContext 0 0 q with | .error c => c == cHeld | .ok _ => false) || false || false) = false
  rw [context_one _ _ _ q (by decide)]
  decide
set_option exponentiation.threshold 600 in
theorem test_meets_WorkRunsAndEnds :
    (entering.admits.filter (fun b => b.wg == 10) = [admit10] ∧ entering.wgsAt 10 = some wg10 ∧ wg10.saved = false ∧
      (∀ b ∈ entering.admits, b.launch = 9 → ∀ v, entering.wgsAt b.wg = some v → v.saved = true ∨ wg10.num ≤ v.num) ∧ entering.launchesAt 9 = some solo ∧ wg10.launch = 9 ∧ entering.sliceHeld solo = false ∧ entering.waitsSaved 9 = false ∧
      (∀ b ∈ entering.admits, b.launch = 9 → (∀ q, entering.admitHeld q b = false) ∧ (recDet solo.rec_ = true → b.wg = 10)) ∧ recDet solo.rec_ = false ∧ wg10.blk.isSome = false ∧
      entering.freeBlock solo (1 + 2 ^ 81 * 2 ^ 200 + 0x100000 * 2 ^ 448) = some none ∧ wg10.groups = [1] ∧ admit10.ent = 0 ∧ admit10.first = 0 ∧ wg10.lanes ≤ 16 ∧ wg10.lanes ≠ 0 ∧
      (∀ q, entering.launchCtx solo q = 1 + 2 ^ 81 * 2 ^ 200 + 0x100000 * 2 ^ 448) ∧ contextOk (1 + 2 ^ 81 * 2 ^ 200 + 0x100000 * 2 ^ 448) = true ∧
      entering.pinned 0 (entering.codesAt solo.code) = some 2 ∧ (entering.groupsAt 1).owners = [] ∧ (entering.groupsAt 1).live = false ∧
      (∀ b ∈ entering.admits, b.wg ≠ 10 → ∀ v, entering.wgsAt b.wg = some v → 1 ∉ v.groups) ∧ (entering.tracesAt 0).gsl ≠ 1 ∧
      (∀ p ∈ [(0, none), (2, some (some 0))], entering.freeBlock solo (2 ^ 304 + p.1 * 2 ^ 292) = p.2)) ∧
    (work0.wgsAt 10 = some wg10 ∧ wg10.saving = false ∧ wg10.ended = false ∧ work0.admits = [] ∧ work0.wgHasLanes 10 wg10 = false ∧ work0.wgBusy 10 = false ∧
      work0.launchesAt 9 = some solo ∧ (work0.fnsAt 0).fnReset = 0 ∧ (work0.fnsAt 0).tdis ≠ 3 ∧ work0.saved = [] ∧ solo.chain = [0x3000]) ∧
    (let s := at0 { lone with frags := [] }
     let g := s.groupsAt 0
     g.live = true ∧ g.handler = none ∧ (∀ i, i < 16 → (g.frag i).fst = .free) ∧ g.pend = [] ∧ s.agentOps (.grp 0 0) = [] ∧ s.engs = [] ∧ ∀ p ∈ g.owners, (s.fnsAt p.2.vf).fnReset = 0 ∧ (s.fnsAt p.2.vf).tdis ≠ 3) ∧
    (∀ o ∈ [Origin.queue 0 0 0, .task 0 3], let l := { solo with done := 1, origin := o }
      let s := market0 l
      s.launchesAt 9 = some l ∧ s.wgs = [] ∧ l.retired = false ∧ recNwg l.rec_ ≤ l.done ∧ l.chain = [0x3000] ∧ recTask l.rec_ = none) := by
  refine ⟨⟨by decide, by decide, by decide, by decide, by decide, by decide, by decide, by decide, fun b hb _ => ?_, by decide, by decide, by decide, by decide, by decide, by decide, by decide, by decide, fun q => by rw [launchCtx_one _ _ q (by decide)]; decide, by decide, by decide, by decide, by decide, by decide, by decide, by decide⟩,
    by decide, by decide, by decide⟩
  rw [List.mem_singleton.mp hb]
  exact ⟨admitHeld_entering, by decide⟩


/-- A gather of one element of 8 bytes within the segment of group 0, as operation 5; `k` another kind of operation. -/
def engOp (cls : EClass) (k : EngKind) : EngOp :=
  { cls := cls, num := 0, grp := 0, ent := 0, lane := 0, owner := lone.owner 0, core := 0, ocrd := 0, hnd := false, det := false, pc := 0, kind := k, bar := none, task := none, since := 0,
    after := [], taken := false, turn := 0, steps := 0, reads := [], early := [], sent := [], stale := false, dest := none, bytes := 0, fail := none, done := false }
def gather1 : EngOp := engOp .gth (.gath 0xFD00000000000100 0xFD00000000000200 0xFD00000000000300 8 1)
def feed1 : EngOp := engOp .fed (.feed .f16 0xFD00000000000000 1 5 256)
def drain1 : EngOp := engOp .drn (.drain .f32 0xFD00000000000000 0 1 512)
def engs5 (e : EngOp) : State :=
  { at0 lone with engs := [(5, some e)], nextId := 6, cores := [(0, { Core.empty with copyQ := if e.cls = .gth then [5] else [], feedQ := if e.cls = .fed then [5] else [], drainQ := if e.cls = .drn then [5] else [] })] }
/-- The gather as it goes, with what it has read so far. -/
def moving (r : Tab Nat) : EngOp := { gather1 with taken := true, reads := r }
/-- A WLOAD of an image of one column of 8 rows of 8 (KIND 0, G = 8, NMW = 1) whose header has been read, and its mask word besides or not. The CRC-32 was worked
out apart from the model; with the mask word of memory, 0, the image fails its checks. -/
def wload1 (mask : Nat) : EngOp :=
  { engOp .wld (.wload 0xFD00000000000000 0 1 0) with
    taken := true, steps := 1, reads := [(0, 8 * 2 ^ 16 + 1 + 7 * 2 ^ 32 + 1), (8, 2714364102 + 1), (16, 1), (24, 1), (32, 1), (40, 1), (48, 1), (56, 1), (64, mask + 1)] }
def image1 (mask : Nat) : EngIn := { data := BitVec.ofNat 8 mask :: List.replicate 71 0, ask := [], waits := false }
set_option maxRecDepth 100000 in
set_option exponentiation.threshold 600 in
theorem test_meets_EnginesLoad :
    (∀ m ∈ [0, 1], let e := wload1 m
      let s := engs5 e
      Tab.wf (fun _ => none) s.engs = true ∧ s.engsAt 5 = some e ∧ (∀ p ∈ s.engs, p.1 = 5) ∧ e.fail = none ∧ e.task = none ∧ e.done = false ∧ e.cls = .wld ∧ e.taken = true ∧
        e.steps ≠ 0 ∧ e.bar = none ∧ s.olderWloads (clusterOf e.core) e.turn = [] ∧ imgLen e.header = 72 ∧ (image1 m).ready = true ∧
        imageOk e.header (image1 m).data 1 0 = decide (m = 1) ∧ (s.groupsAt 0).live = true ∧ (s.groupsAt 0).handler = none ∧ e.hnd = false ∧
        ((s.groupsAt 0).owner 0).valid = true ∧ ((s.groupsAt 0).owner 0).id = e.owner.id ∧ ((s.groupsAt 0).owner 0).lanes &&& (s.groupsAt 0).pres ≠ 0) ∧
    (∀ q, (engs5 (wload1 0)).engRead (wload1 0) 64 (0xFD00000000000000 + 64) 72 q = .ok (image1 0)) ∧
    (∀ q, (engs5 (wload1 1)).engRead (wload1 1) 64 (0xFD00000000000000 + 64) 72 q = .ok (image1 1)) :=
  ⟨by decide +kernel, fun _ => by rfl, fun _ => by rfl⟩

/-- Rows of Q4 and Q8, the first block of the latter illegal; a row of 16-bit floats of which the first is a NaN or an infinity. -/
def feedOf (fmt : FeedFmt) : EngOp := engOp .fed (.feed fmt 0xFD00000000000000 1 5 256)
def feeds (fmt : FeedFmt) (l : List Byte) : State := runAll (engs5 (feedOf fmt)) (storeBytes (coreKey 0 0) l)
theorem test_meets_EnginesFeed :
    (∀ p ∈ ([(.q4, [64]), (.q8, [64]), (.f16, [0, 0x7E]), (.f16, [0, 0x7C]), (.e4m3, [0x7F])] : List (FeedFmt × List Byte)), let s := feeds p.1 p.2
      let e := feedOf p.1
      (s.coresAt 0).feedQ = [5] ∧ s.engsAt 5 = some e ∧ (s.coresAt 0).rows.length < 64 ∧ s.engAt e ((0xFD00000000000000 + 0 * 256) % 2 ^ 64) (feedRowLen p.1) 1 0 = .at (coreKey 0 0) ∧
        s.reserved e.who e.after (coreKey 0 0) (feedRowLen p.1) false = false ∧ 1 ≤ e.steps + 1 ∧ e.bar = none ∧
        (let u := { s with engs := [(5, some { e with taken := true, steps := 1 })] }
         Tab.wf (fun _ => none) u.engs = true ∧ ∀ q ∈ u.engs, q.1 = 5)) ∧
    64 ≤ (feeds .q8 [64]).load (coreKey 0 0 + 33 * 0) 1 ∧ ¬ 64 ≤ (feeds .q8 [64]).load (coreKey 0 0 + 33 * 1) 1 ∧
    decodeFp .f16 ((feeds .f16 [0, 0x7E]).load (coreKey 0 0) 2) = .nan false ∧ decodeFp .f16 ((feeds .f16 [0, 0x7C]).load (coreKey 0 0) 2) = .inf false ∧
    decodeFp .e4m3 ((feeds .e4m3 [0x7F]).load (coreKey 0 0) 1) = .nan false := by decide

/-- Entries and scales of a drained row, valid, in every format. -/
def drains (fmt : DrainFmt) (a : Int) (scale : Word) : State :=
  { engs5 (engOp .drn (.drain fmt 0xFD00000000000000 0 1 512)) with acc := if a = 0 then [] else [(0, a)], accMeta := [(0, 2048)], scales := [(0, scale)] }
theorem test_meets_EnginesDrain :
    (∀ fmt ∈ [DrainFmt.f32, .f16, .bf16, .e4m3], let s := drains fmt 5 0x3F800000
      let e := engOp .drn (.drain fmt 0xFD00000000000000 0 1 512)
      (s.coresAt 0).drainQ = [5] ∧ s.engsAt 5 = some e ∧ e.steps < 1 ∧ (s.ctxsAt (s.leadCtx 0)).passes = [] ∧ s.engAt e ((0xFD00000000000000 + 0 * 512) % 2 ^ 64) (drainRowLen fmt) 2 0 = .at (coreKey 0 0) ∧
        s.reserved e.who e.after (coreKey 0 0) (drainRowLen fmt) true = false ∧ bit (s.accMetaAt 0) 11 = true ∧ s.accAt 0 = 5) ∧
    Finite .f32 ((drains .f32 5 0x3F800000).scalesAt 0).toNat ∧ (5 : Int) * scaled .f32 0x3F800000 ≠ 0 ∧ decodeFp .f32 ((drains .f32 5 0x7FC00000).scalesAt 0).toNat = .nan false ∧
    decodeFp .f32 ((drains .f32 5 0xFF800000).scalesAt 0).toNat = .inf true ∧ (drains .f32 0 0x7F800000).accAt 0 = 0 ∧ scaled .f32 0 = 0 :=
  ⟨by decide, ⟨by decide, false, _, _, rfl⟩, by decide, by decide, by decide, by decide, by decide⟩

set_option exponentiation.threshold 600 in
theorem test_meets_EnginesFinish :
    ((engs5 gather1).copyPick 0 = some 0 ∧ ((engs5 gather1).coresAt 0).copyQ = [5] ∧ (engs5 gather1).engsAt 5 = some gather1 ∧ (engs5 gather1).copiesTaken 0 < 8 ∧ gather1.cls ≠ .wld ∧
      ∀ a sl m b, gather1.kind ≠ .wload a sl m b) ∧
    (∀ p ∈ ([([], .index 1 0xFD00000000000300, 0x300, 4, false), ([(1, 1)], .move 0xFD00000000000200 0xFD00000000000100 8, 0x200, 8, false),
        ([(0, 5), (1, 1)], .move 0xFD00000000000200 0xFD00000000000100 8, 0x100, 8, true)] : List (Tab Nat × Piece × Nat × Nat × Bool)),
      let e := moving p.1
      let s := engs5 e
      let key := coreKey 0 p.2.2.1
      let n := p.2.2.2.1
      s.engsAt 5 = some e ∧ e.done = false ∧ e.fail = none ∧ 0 < e.kind.pieces ∧ 0 ∉ e.early ∧ e.piece 0 = p.2.1 ∧
        isPeer key = false ∧ s.pairDown (dieOf e.core) key = false ∧
        s.pathClear (dieOf e.core) key = true ∧ s.reserved e.who e.after key n p.2.2.2.2 = false ∧ s.lineBad key n = false) ∧
    (∀ q, (engs5 (moving [])).engAt (moving []) 0xFD00000000000300 4 1 q = .at (coreKey 0 0x300) ∧
      (engs5 (moving [(1, 1)])).engAt (moving [(1, 1)]) 0xFD00000000000200 8 1 q = .at (coreKey 0 0x200) ∧
      (engs5 (moving [(0, 5), (1, 1)])).engAt (moving [(0, 5), (1, 1)]) 0xFD00000000000100 8 2 q = .at (coreKey 0 0x100)) ∧
    (let e := { gather1 with taken := true, early := [0], bytes := 8, bar := some 0xFD00000000000000 }
     let w := 2 * 2 ^ 46 + 2 ^ 62 + 2 ^ 30
     let s := runAll (engs5 e) (storeBytes (coreKey 0 0) (toBytes w 8))
     Tab.wf (fun _ => none) s.engs = true ∧ s.engsAt 5 = some e ∧ (∀ p ∈ s.engs, p.1 = 5) ∧ e.fail = none ∧ e.task = none ∧ e.done = false ∧ e.taken = true ∧
       (∀ k, k < e.kind.pieces → k ∈ e.early) ∧ (∀ q, s.engAt e 0xFD00000000000000 8 4 q = .at (coreKey 0 0)) ∧ isPeer (coreKey 0 0) = false ∧ s.pairDown (dieOf e.core) (coreKey 0 0) = false ∧ s.pathClear (dieOf e.core) (coreKey 0 0) = true ∧
       s.reserved e.who e.after (coreKey 0 0) 8 true = false ∧ s.load (coreKey 0 0) 8 = w ∧ w % 2 ^ 14 = 0 ∧
       w / 2 ^ 30 % 2 ^ 16 < w / 2 ^ 46 % 2 ^ 16 ∧ w / 2 ^ 62 % 2 = 1 ∧ w / 2 ^ 30 % 2 ^ 16 + (8 + 63) / 64 ≤ w / 2 ^ 46 % 2 ^ 16) ∧
    (((engs5 feed1).coresAt 0).feedQ = [5] ∧ ((engs5 feed1).coresAt 0).rows.length < 64 ∧ feedRowLen .f16 = 256 ∧
      (engs5 feed1).engAt feed1 ((0xFD00000000000000 + 0 * 256) % 2 ^ 64) 256 1 0 = .at (coreKey 0 0) ∧ (engs5 feed1).reserved feed1.who feed1.after (coreKey 0 0) 256 false = false) ∧ Finite .f16 ((engs5 feed1).load (coreKey 0 0) 2) ∧
    (((engs5 drain1).coresAt 0).drainQ = [5] ∧ ((engs5 drain1).ctxsAt ((engs5 drain1).leadCtx 0)).passes = [] ∧ drainRowLen .f32 = 512 ∧
      (engs5 drain1).engAt drain1 ((0xFD00000000000000 + 0 * 512) % 2 ^ 64) 512 2 0 = .at (coreKey 0 0) ∧ (engs5 drain1).reserved drain1.who drain1.after (coreKey 0 0) 512 true = false) ∧
    (∀ q ∈ [0, 2048], bit ({ engs5 drain1 with accMeta := [(0, q)] }.accMetaAt 0) 11 = decide (q = 2048)) ∧
    (engs5 { drain1 with steps := 1 }).engsAt 5 = some { drain1 with steps := 1 } := by
  refine ⟨⟨by decide, by decide, by decide, by decide, by decide, fun _ _ _ _ => by simp [gather1, engOp]⟩, by decide, fun _ => ⟨by rfl, by rfl, by rfl⟩,
    ⟨by decide, by decide, by decide, by decide, by decide, by decide, by decide, by decide, fun _ => by rfl, by decide, by decide, by decide, by decide, by decide, by decide, by decide, by decide, by decide⟩,
    by decide, ⟨by decide, false, 0, -24, by decide⟩, by decide, by decide, by decide⟩

/-- Context 0 with batch 0 closed, and its one row to be carried out; a context whose open batch has reached the charge limit, and one asked to stop, before NOP. -/
def finishing (k : PassKind) : Ctx := { seq with closed := [(0, 7)], passes := [{ core := 0, row := 3, kind := k, vals := [2 ^ 47], cols := 2 ^ 128 - 1, batch := 0 }] }
def fencing (c : Ctx) : State := { ctx0 c with codes := [(0, { Code.empty with text := toBytes 86436217764 8 })] }
theorem test_meets_BatchesFinish :
    (∀ k ∈ [PassKind.add, .set], ((ctx0 (finishing k)).ctxsAt 0).closed = (0, 7) :: [] ∧
      ((ctx0 (finishing k)).ctxsAt 0).passes = [{ core := 0, row := 3, kind := k, vals := [2 ^ 47], cols := 2 ^ 128 - 1, batch := 0 }] ∧ k ≠ .scale) ∧
    (let s := fencing { seq with charge := 65536, stopping := true }
     (s.ctxsAt 0).state = 1 ∧ 65536 ≤ (s.ctxsAt 0).charge ∧ s.fetch (.ctx 0) = some (.instr (.bfence plain 2) 0) ∧ (s.ctxsAt 0).stopping = true ∧
       ((s.ctxsAt 0).g.frag 0).sb = [] ∧ ((s.ctxsAt 0).g.frag 0).hold = .none ∧ (s.ctxsAt 0).closedAt ≠ some (s.ctxsAt 0).g.retired) ∧
    (let s := fencing { seq with stopping := true, closedAt := some 0 }
     (s.ctxsAt 0).closedAt = some (s.ctxsAt 0).g.retired) ∧
    (let s := fencing { seq with stopping := true, leftHold := some 0 }
     (s.ctxsAt 0).leftHold = some (s.ctxsAt 0).g.retired ∧ (s.ctxsAt 0).closedAt ≠ some (s.ctxsAt 0).g.retired) ∧
    (let c : Ctx := { seq with g := seq.g.setFrag 0 { seq.g.frag 0 with sb := [(1, 1)] }, latched := true, stopping := true }
     let s : State := { fencing c with latches := (fed0 []).latches }
     (s.ctxsAt 0).state = 1 ∧ (s.ctxsAt 0).stopping = true ∧ ((s.ctxsAt 0).g.frag 0).hold = .none ∧ ((s.ctxsAt 0).g.frag 0).sb ≠ [] ∧ (s.fetch (.ctx 0)).isSome = true ∧
       s.feedShort 0 (.mmul plain false .implied 0 0 0) = true ∧ s.feedShort 0 (.bfence plain 2) = false) := by decide

/-! ## What the statements ask for can be met: records, commands, saves, resets -/

/-- Both rings of function 0 enabled in host memory with two slots each, a record and an entry waiting, and token 5 open for fragment 0 of group 1, whose launch's node is a fault domain. -/
def rec5 (cause : Nat) : FRec := { word := 5, cause := cause, parked := some (1, 0), node := 0x3000, notice := false, delivered := true, resolved := 0, home := none }
def rings0 (f : Func) (g : Group) : State :=
  { at0 g with
    groups := [(1, g)], fns := [(0, f)], mem := [(0x3007, 2)], launches := [(9, some (launch0 (recOf 1 8) false))], win := [(0x20008, 0xC400000000000000), (0x20048, 0xC400000000000000)] }
def parked5 : Group := { lone with frags := [(0, { lone.frag 0 with fst := .parked, slot := 0 })], parkRec := [(0, 5)] }
theorem test_meets_RecordsAndStatus :
    (∀ fault ∈ [true, false], let s := rings0 { Func.empty with faultWait := [5], statWait := [2 * 2 ^ 56, 4 * 2 ^ 56] } lone
      let off := if fault then 0x20040 else 0x20000
      let c := (s.reg 0 (off + 8)).toNat
      let p := (s.reg 0 (off + 16)).toNat
      bit c 63 = true ∧ (p % 2 ^ 32 + 2 ^ 32 - p / 2 ^ 32) % 2 ^ 32 ≠ 2 ^ (c / 2 ^ 58 % 16) ∧ bit c 62 = true ∧ (s.fnsAt 0).faultWait = [5] ∧ (s.fnsAt 0).tdis ≠ 3 ∧
        (s.fnsAt 0).statWait = [2 * 2 ^ 56, 4 * 2 ^ 56] ∧ (2 * 2 ^ 56) / 2 ^ 56 % 256 ≠ 6 ∧ (4 * 2 ^ 56) / 2 ^ 56 % 256 = 4) ∧
    (∀ p ∈ [(0x08, true), (0x07, false)], let s := rings0 { Func.empty with recs := [(5, rec5 p.1)] } parked5
      let r := (s.fnsAt 0).recAt 5
      (5 ≠ 0 ∧ r.word ≠ 0 ∧ r.delivered = true ∧ r.resolved = 0) ∧ r.parked = some (1, 0) ∧ r.notice = false ∧ (s.groupsAt 1).live = true ∧ (s.groupsAt 1).handler = none ∧
        ((s.groupsAt 1).frag 0).fst = .parked ∧ Tab.get (fun _ => 0) (s.groupsAt 1).parkRec 0 = 5 ∧ (s.tracesAt 0).gsl ≠ 1 ∧ resumable r.cause = p.2 ∧ s.canonical = true) ∧
    (let s := rings0 { Func.empty with recs := [(5, { rec5 0x08 with parked := none, notice := true })] } lone
     ((s.fnsAt 0).recAt 5).parked = none ∧ ((s.fnsAt 0).recAt 5).notice = true ∧ s.load (0x3000 + 4) 1 / 64 % 4 ≠ 2 ∧ s.canonical = true) ∧
    (let s := rings0 { Func.empty with recs := [(5, { rec5 0x08 with parked := none })] } lone
     let r := (s.fnsAt 0).recAt 5
     (5 ≠ 0 ∧ r.word ≠ 0 ∧ r.delivered = true ∧ r.resolved = 0) ∧ r.parked = none ∧ r.notice = false) ∧
    (∀ h ∈ [{ hnd0 with frozen := [(0x0100, 3 * 2 ^ 62)] }, { hnd0 with restore := true }], let r := { rec5 0x08 with word := 5 + 2 ^ 112 }
      let s := rings0 { Func.empty with recs := [(5, r)] } { lone with handler := some h }
      (5 ≠ 0 ∧ r.word ≠ 0 ∧ r.delivered = true ∧ r.resolved = 0) ∧ (s.fnsAt 0).recAt 5 = r ∧ r.parked = some (1, 0) ∧ r.notice = false ∧ resumable r.cause = true ∧ (s.groupsAt 1).handler = some h ∧ h.parkGone 0 r = false) ∧
    (∀ q, let s := rings0 { Func.empty with recs := [(5, rec5 0x08)] } parked5
      s.domain (s.keptChain 0 (rec5 0x08).node q) = some 0x3000) := by
  refine ⟨by decide, by decide, by decide, by decide, by decide, fun q => by rfl⟩

/-- Function fn has a command outstanding; one of its PREEMPT with a node and blocks chosen. -/
def cmdOf (op : Nat) (args : List Nat) : Cmd := { op := op, args := args, node := 0, start := 0, victims := [], short := false, noRun := false, seq := 1, begun := false }
def commanded (s : State) (fn : Nat) (c : Cmd) : State := { s with fns := [(fn, { Func.empty with cmd := some c })] }
theorem commands_met (s : State) (fn : Nat) (c : Cmd) : Commands (commanded s fn c) fn c.op c := by
  have h : (commanded s fn c).fnsAt fn = { Func.empty with cmd := some c } := by simp [commanded, State.fnsAt, Tab.get]
  refine ⟨by rw [h], rfl, by rw [h]; rfl, by rw [h]; exact (by decide : (0 : Nat) ≠ 3), fun q => ?_⟩
  simp [State.cmdWaits, commanded]
def rootArg : Nat := 2 ^ 64 - 1
/-- A level-3 RCB at byte 0x3000. -/
def node3 : State := { State.reset with mem := [(0x3007, 0x60)] }
/-- Workgroup 10 in its group on core 0, and a save pool of two blocks. -/
def resident0 : State :=
  { work0 with groups := [(1, { lone with owners := [(0, { lone.owner 0 with id := 10 })] })],
               win := [(0x30000, 0x100000), (0x30008, 0x0020000000000000), (0x30018, 0x101000), (0x30040, 0x200000), (0x30048, 0x0002000000000000), (0x410000, 1)] }
def needFile : Cmd := cmdOf 2 [rootArg, 0, 524288 * 2 ^ 32, 0]
/-- More scratch than a core has. -/
def needMuch : Cmd := cmdOf 2 [rootArg, 0, 2 ^ 32 - 1, 0]
theorem victims_work0 : (commanded work0 0 needMuch).victims 0 = [] := List.mergeSort_nil
theorem victims_resident0 : (commanded resident0 0 needFile).victims 0 = [{ wgs := [10], grps := [1], age := wg10.age }] := List.mergeSort_singleton _
theorem test_meets_CommandsAct :
    (∀ op args fn s, Commands (commanded s fn (cmdOf op args)) fn op (cmdOf op args)) ∧
    (∀ q, State.cmdNode (commanded node3 0 (cmdOf 4 [2 ^ 63 + 0x3000])) 0 (2 ^ 63 + 0x3000) q = .ok (0x3000 + 1)) ∧ (commanded node3 0 (cmdOf 4 [2 ^ 63 + 0x3000])).canonical = true ∧
    (∀ q, State.cmdNode (commanded node3 0 (cmdOf 3 [rootArg])) 0 rootArg q = .ok 0) ∧
    (framesOk 0x10000 2 = true ∧ (0x10000 / 65536 + 0 < 0x10000) ∧ (2 % 4 = 2) ∧ State.reset.framesAt 1 / 1024 ≠ 2 ∧ State.reset.slotsUsed < 65536 ∧ 65536 ≤ ({ State.reset with slotsUsed := 65536 } : State).slotsUsed ∧
      State.reset.frameBusy 1 = false ∧ ({ cmdOf 6 [0x10000, 2, 2] with begun := true } : Cmd).begun = true ∧ State.reset.canonical = true) ∧
    (State.reset.sec.lcs ≠ 3 ∧ (∀ v, State.frozenFn (commanded State.reset 0 (cmdOf 7 [5, 3])) v = false) ∧ pairOf 2 5 ≠ 0 ∧ pairOf 2 5 % 1024 = 5 ∧ State.reset.frames = [] ∧
      State.reset.sec.conf = false ∧ hpaMapped 0 = true ∧ hpaMapped (0 + 64 - 1) = true ∧ hpaMapped (2 ^ 48) = false ∧ State.reset.lineBad 0 64 = false ∧ State.reset.sec.rtVer ≤ 1 ∧ State.reset.dbg ≠ 2) ∧
    ((∀ q, (commanded (ctx0 seq) 0 (cmdOf 1 [rootArg])).ctxsBelow 0 q = [0]) ∧ (ctx0 seq).admits = []) ∧
    (let c : Cmd := { cmdOf 1 [rootArg] with begun := true }
     let s := commanded (market0 (launch0 (recOf 3 8) false)) 0 c
     Commands s 0 1 c ∧ s.residentBelow c.node = false ∧ s.launches = [(9, some (launch0 (recOf 3 8) false))] ∧ (launch0 (recOf 3 8) false).under c.node = true ∧
       (launch0 (recOf 3 8) false).next < recNwg (launch0 (recOf 3 8) false).rec_ ∧ (launch0 (recOf 3 8) false).chain = [0x3000]) ∧
    (let s := commanded work0 0 needMuch
     s.choose 0 needMuch.need ((s.victims 0).filter (s.evictable 0 0)) (s.roomOf 0) (s.fnsAt 0).blocks = ([], (false, false))) ∧
    (let s := commanded resident0 0 needFile
     s.choose 0 needFile.need ((s.victims 0).filter (s.evictable 0 0)) (s.roomOf 0) (s.fnsAt 0).blocks = ([({ wgs := [10], grps := [1], age := wg10.age }, [0x200000], [1])], (true, false)) ∧
       s.wgsAt 10 = some wg10 ∧ (s.groupsAt 1).stop.stopped = false) ∧
    (let c : Cmd := { needMuch with begun := true }
     let s := commanded work0 0 c
     Commands s 0 2 c ∧ (∀ k ∈ c.victims, s.victimDone k = true) ∧ ({ c with short := true } : Cmd).short = true ∧ (s.roomOf 0).meets c.need = false ∧ s.detOn 0 0 = []) := by
  refine ⟨fun op args fn s => commands_met s fn (cmdOf op args), fun _ => by rfl, by decide, fun _ => by rfl, by decide,
    ⟨by decide, fun v => ?_, by decide, by decide, by decide, by decide, by decide, by decide, by decide, by decide⟩, ⟨fun _ => by rfl, by decide⟩,
    ⟨commands_met _ 0 _, by decide, by decide, by decide, by decide, by decide⟩, by dsimp only; rw [victims_work0]; decide, ⟨by rw [victims_resident0]; decide, by decide, by decide⟩, ⟨commands_met _ 0 _, by decide, by decide, by decide, by decide⟩⟩
  by_cases h : v = 0 <;> simp [State.frozenFn, commanded, State.fnsAt, Tab.get, Func.empty, h]

/-- A code object of one NOP at byte 0x40000 with its digest. -/
def objHead : List Byte := toBytes (0x4D1D + 2 ^ 16 + 128 * 2 ^ 576 + 8 * 2 ^ 608 + 136 * 2 ^ 640 + 192 * 2 ^ 704) 96
def objText : List Byte := toBytes 564 8
/-- Its SM3 digest, worked out apart from the model. -/
def objDigest : List Byte := toBytes 73006503820475839888427261856347881813967801834409257361455445678808133884210 32
def withObj (s : State) : State := runAll s (storeBytes 0x40000 (objHead ++ objDigest ++ objText))
set_option maxRecDepth 100000 in
set_option exponentiation.threshold 800 in
theorem test_sm3 : sm3 (objHead ++ List.replicate 32 0 ++ objText) = objDigest := by decide +kernel
/-- Group 0 is a victim of function 0, whose handler's code lies at 0x40000; its area lies at 0x200400, its workgroup's at 0x200000. -/
def unit20 (left : Nat) : Saved :=
  { fn := 0, rqn := 0, wgs := [10], grps := [0], areas := [0x200000], lens := [1], garea := [0x200400], groups := [Group.empty], left := left, resumed := false, failed := false, cause := 0x22,
    node := none, notes := [] }
def victim0 : State :=
  let s := mapped (withObj { at0 { lone with evict := true } with saved := [(20, some (unit20 1))], wgs := [(10, some wg10)] })
  { s with win := [(0x30000, 0x100000), (0x30008, 0x0020000000000000), (0x30018, 0x101000), (0x30030, 0x40000), (0x410000, 1)] }
set_option maxRecDepth 100000 in
set_option exponentiation.threshold 800 in
theorem single_victim0 : single victim0 := ⟨by decide, by decide, 1 + 2 ^ 81 * 2 ^ 200 + 0x100000 * 2 ^ 448, by rfl, by decide⟩
theorem writes_one (s : State) (q a p : Nat) (l : List Byte) (h : single s) (h0 : s.hasid 0 = 0) (hl : l.length ≤ 512) (ha : a % 2 ^ 56 % 4096 ≤ 3584)
    (ht : s.translate 0 0 (s.hkey 0 0) (a % 2 ^ 56) 2 0 = .ok p) (hp : isPeer p = false) : ∃ e, s.hostedWrite 0 q a l = .ok e := by
  have hk : s.hkey 0 q = s.hkey 0 0 := by simp only [State.hkey, context_one s 0 _ q h.1]
  have hm : min l.length (4096 - a % 2 ^ 56 % 4096) = l.length := by omega
  have hf : l.length / 4096 + 2 = 2 := by omega
  by_cases hz : l.length = 0
  · exact ⟨spotWrites [] l, by simp [State.hostedWrite, State.writeSpots, hz, Except.map]⟩
  · have hw : s.writeSpots 0 0 (s.hkey 0 0) q 2 (a % 2 ^ 56) l.length = .ok [(p, l.length)] := by
      rw [State.writeSpots, if_neg hz]
      simp only [hm, Nat.mod_mod, translate_one s _ _ 2 q h, ht, hp, Nat.sub_self]
      simp [State.writeSpots]
    exact ⟨spotWrites [(p, l.length)] l, by simp only [State.hostedWrite, hf, h0, hk, hw, Except.map]⟩
def retting : Handler := { hnd0 with restore := true }
/-- A handler of function 0 at its RETT, and the machine that holds it; a saved unit of workgroup 10, to be restored on core 0, the only core not fenced. -/
def atRett (h : Handler) (u : Saved) : State :=
  { victim0 with groups := [(0, { lone with handler := some h, frags := [(0, { lone.frag 0 with hold := .rett plain })] })], saved := [(1, some u)] }
def restorer : State := atRett retting (unit20 2)
set_option maxRecDepth 100000 in
set_option exponentiation.threshold 800 in
theorem read_restorer256 : restorer.readVirt 0 0 (restorer.hkey 0 0) 0 3 0x40 256 = .ok (List.replicate 256 0) := by decide +kernel
theorem read_restorer64 : restorer.readVirt 0 0 (restorer.hkey 0 0) 0 3 0x300 64 = .ok (List.replicate 64 0) := by decide +kernel
set_option maxRecDepth 100000 in
set_option exponentiation.threshold 800 in
theorem single_restorer : single restorer := ⟨by decide, by decide, 1 + 2 ^ 81 * 2 ^ 200 + 0x100000 * 2 ^ 448, by rfl, by decide⟩
def fencedCore : Core := { Core.empty with fenced := true }
def restorable : Saved := { unit20 0 with resumed := true, groups := [{ lone with handler := some hnd0 }] }
def restoring : State :=
  { work0 with saved := [(20, some restorable)], wgs := [(10, some { wg10 with saved := true, groups := [0] })], cores := [(1, fencedCore), (2, fencedCore), (3, fencedCore)] }
def detLaunch : Launch := launch0 (recOf 3 8 + 2 ^ 149) false
def detOn0 : State := { commanded work0 0 { needMuch with begun := true, short := true } with launches := [(9, some detLaunch)], cycle := 2 ^ 40 }
set_option maxRecDepth 100000 in
set_option exponentiation.threshold 800 in
theorem test_meets_SavesAndResets :
    (victim0.unitAt 0 = some (20, unit20 1, 0) ∧ (victim0.groupsAt 0).live = true ∧ (victim0.groupsAt 0).evict = true ∧ (victim0.groupsAt 0).handler = none ∧ victim0.settled 0 = true ∧ (∃ e, e < 16 ∧ ((victim0.groupsAt 0).owner e).valid = true) ∧
      (∀ q a (l : List Byte), a ∈ (unit20 1).areas ∨ a = (unit20 1).garea.getD 0 0 ∨ a = (unit20 1).garea.getD 0 0 + 0x300 → l.length ≤ 512 → ∃ e, victim0.hostedWrite 0 q a l = .ok e) ∧
      (∀ q, ∃ c, victim0.loadCode 0 (victim0.hasid 0) (victim0.hkey 0 q) q (0 / 256 / 4) (victim0.reg 0 0x30030).toNat = .ok c)) ∧
    (∀ n ∈ [1, 2], let s := atRett hnd0 (unit20 n)
      ((s.groupsAt 0).frag 0).hold = .rett plain ∧ (s.groupsAt 0).handler = some hnd0 ∧ (s.groupsAt 0).eng = [] ∧ s.agentOps (.grp 0 0) = [] ∧ (s.groupsAt 0).pend = [] ∧ hnd0.failed = false ∧ hnd0.restore = false ∧
        hnd0.guest = none ∧ (∀ x, x < 16 → (Tab.get (fun _ => (0 : DWord)) hnd0.frozen (0x0100 + x)).toNat / 2 ^ 62 ≠ 3) ∧ s.fns = [] ∧ s.canonical = true ∧ (∀ p ∈ s.saved, p.1 = hnd0.unit) ∧ (unit20 n).groups.length = (unit20 n).grps.length ∧ hnd0.idx = 0 ∧ s.savedAt hnd0.unit = some (unit20 n) ∧
        (unit20 n).wgs = [10] ∧ s.wgsAt 10 = some wg10) ∧
    (let h := retting
     let s := restorer
     h.failed = false ∧ h.guest = none ∧ frozenOk h.frozen = true ∧ 1 < (unit20 2).left ∧
       (∀ q, s.readVirt h.fn (s.hasid h.fn) (s.hkey h.fn q) q 3 ((h.area + 0x40) % 2 ^ 56) 256 = .ok (List.replicate 256 0)) ∧
       (∀ q, s.readVirt h.fn (s.hasid h.fn) (s.hkey h.fn q) q 3 ((h.area + 0x300) % 2 ^ 56) 64 = .ok (List.replicate 64 0)) ∧
       (∀ x, x < 32 → (Tab.get (fun _ => (0 : DWord)) h.frozen (0x0300 + x)).toNat = 0) ∧ (∀ x, x < 16 → (Tab.get (fun _ => (0 : DWord)) h.frozen (0x0100 + x)).toNat = 0)) ∧
    (restoring.savedAt 20 = some restorable ∧ restorable.failed = false ∧ restorable.left = 0 ∧ wg10.ended = false ∧ restoring.fns = [] ∧ restorable.cause = 0x22 ∧ restorable.grps.length = 1 ∧ restoring.wgsAt 10 = some { wg10 with saved := true, groups := [0] } ∧
      restoring.launchesAt 9 = some solo ∧ restoring.sliceHeld solo = false ∧ hnd0.guest = none ∧ (∃ es, restoring.restoreSpots restorable = [(0, [0], es)])) ∧
    ((detOn0.fnsAt 0).cmd = some { needMuch with begun := true, short := true } ∧ (detOn0.roomOf 0).meets needMuch.need = false ∧ detOn0.detOn 0 0 = [(9, detLaunch)] ∧
      detLaunch.chain = [0x3000] ∧ detOn0.canonical = true ∧ detOn0.part 0 1 / 2 ^ 29 % 2 ^ 32 ≤ detOn0.cycle - 0) ∧
    (∀ r ∈ [0, 1, 2], let s := { State.reset with fns := [(1, { Func.empty with session := 2, fnReset := r })] }
      (s.fnsAt 1).session = 2 ∧ (s.fnsAt 1).fnReset = r ∧ s.vfBusy 1 = false ∧ s.canonical = true) ∧
    (∀ d ∈ [0, 1], (({ State.reset with fns := [(1, { Func.empty with session := 2, tdis := d })] } : State).fnsAt 1).tdis = d) ∧ State.reset.sec.crs = false ∧ State.reset.sec.streams.length < 64 := by
  have hz : ∀ s, single s → ∀ q, s.hkey 0 q = s.hkey 0 0 := fun s h q => by simp only [State.hkey, context_one s 0 _ q h.1]
  refine ⟨⟨by decide, by decide, by decide, by decide, by decide, ⟨0, by decide⟩, ?_, fun q => ?_⟩, by decide, ⟨by decide, by decide, by decide, by decide, fun q => ?_, fun q => ?_, by decide, by decide⟩,
    ⟨by decide, by decide, by decide, by decide, by decide, by decide, by decide, by decide, by decide, by decide, by decide, ⟨_, by rfl⟩⟩, by decide, by decide, by decide, by decide⟩
  · intro q a l ha hl
    have ha' : a = 0x200000 ∨ a = 0x200400 ∨ a = 0x200700 := by
      rcases ha with ha | ha | ha
      · exact .inl (by simpa [unit20] using ha)
      · exact .inr (.inl ha)
      · exact .inr (.inr ha)
    rcases ha' with rfl | rfl | rfl
    · exact writes_one victim0 q _ 0x200000 l single_victim0 (by decide) hl (by decide) (by decide) (by decide)
    · exact writes_one victim0 q _ 0x200400 l single_victim0 (by decide) hl (by decide) (by decide) (by decide)
    · exact writes_one victim0 q _ 0x200700 l single_victim0 (by decide) hl (by decide) (by decide) (by decide)
  · rw [hz _ single_victim0 q, show victim0.hasid 0 = 0 by decide, State.loadCode, loadCode_one _ none _ q _ _ single_victim0]
    exact ⟨{ cluster := 0, vf := 0, addr := 0x40000, dgst := objDigest, text := objText, consts := [], regs := 8, scr := 0, msafe := false, det := false }, by decide +kernel⟩
  · show restorer.readVirt 0 (restorer.hasid 0) (restorer.hkey 0 q) q 3 0x40 256 = _
    rw [hz _ single_restorer q, show restorer.hasid 0 = 0 by decide, State.readVirt, readVia_one _ none _ q single_restorer]
    exact read_restorer256
  · show restorer.readVirt 0 (restorer.hasid 0) (restorer.hkey 0 q) q 3 0x300 64 = _
    rw [hz _ single_restorer q, show restorer.hasid 0 = 0 by decide, State.readVirt, readVia_one _ none _ q single_restorer]
    exact read_restorer64

/-! ## What the statements ask for can be met: the host, events, debugging, the fabric -/

/-- Function 0 has a context at 0x40000's code, which group 3 pins. -/
def ctxCode : Code := { cluster := 0, vf := 0, addr := 0x40000, dgst := objDigest, text := objText, consts := [], regs := 8, scr := 0, msafe := false, det := false }
def going (state : Nat) : State :=
  { victim0 with groups := [(3, { lone with code := 2 })], codes := [(2, ctxCode)], ctxs := [(0, { Ctx.empty with code := 0x40000, state := state })] }
set_option maxRecDepth 100000 in
set_option exponentiation.threshold 800 in
theorem single_going : single (going 0) := ⟨by decide, by decide, 1 + 2 ^ 81 * 2 ^ 200 + 0x100000 * 2 ^ 448, by rfl, by decide⟩
set_option exponentiation.threshold 800 in
theorem code_going : (going 0).loadCodeVia (some []) 0 0 ((going 0).hkey 0 0) 0 0 0x40000 = .ok ctxCode := by decide +kernel
set_option exponentiation.threshold 800 in
theorem context_going : (going 0).asidContext 0 0 0 = .ok (1 + 2 ^ 81 * 2 ^ 200 + 0x100000 * 2 ^ 448) := by decide +kernel
/-- Launch queue 1 of function 0 is enabled for ASID 0 with AWN 1. -/
def queue1 : State := { State.reset with win := [(0x10048, 0x8000000000004000)] }
/-- A load of host memory with nothing returned. -/
def hostLoad : Op := { op5 with kind := .load false, outs := [], elems := [{ elem5 with key := 2 ^ 64 }] }
set_option exponentiation.threshold 800 in
theorem test_meets_HostDrives :
    ((State.reset.fnsAt 0).tdis ≠ 3 ∧ (State.reset.fnsAt 0).tdis ≠ 2 ∧ State.reset.sec.crs = false ∧ (∀ j, j < 16 → bit (State.reset.lqc 0 j) 63 = false) ∧ State.reset.frozenFn 0 = false ∧ (∀ v, State.reset.frozenFn v = false) ∧
      bit (queue1.lqc 0 1) 63 = true ∧ bit (queue1.lqc 0 0) 63 = false ∧ queue1.lqc 0 1 / 2 ^ 14 % 2 ^ 16 = 1 ∧ queue1.lqc 0 1 / 2 ^ 30 % 2 ^ 20 = 0) ∧
    (State.reset.ctxReach 1 0 = false ∧ ∀ n, n < 4 → (going n).ctxReach 0 0 = true ∧ ((going n).ctxsAt 0).state = n ∧ ((going n).ctxRegion 0).isSome = true) ∧
    ((∀ q, (going 0).asidContext 0 0 q = .ok (1 + 2 ^ 81 * 2 ^ 200 + 0x100000 * 2 ^ 448)) ∧ contextOk (1 + 2 ^ 81 * 2 ^ 200 + 0x100000 * 2 ^ 448) = true ∧
      (∀ q, (going 0).loadCodeVia (some ((going 0).ctxsAt 0).loaded) 0 0 0 q 0 ((going 0).ctxsAt 0).code.toNat = .ok ctxCode) ∧
      (∀ c' : Ctx, c'.state = 0 → c'.g = ((going 0).ctxsAt 0).g → State.pinned { going 0 with ctxs := Tab.put (fun _ => Ctx.empty) (going 0).ctxs 0 c' } (0 / 4) ctxCode = some 2) ∧
      2 ≠ (going 0).nextId) ∧
    (bit (State.reset.reg 0 8).toNat 5 = false ∧ bit (({ State.reset with win := [(8, 32)] } : State).reg 0 8).toNat 5 = true) ∧
    (State.reset.clusterBusy 0 0 = false ∧ (going 1).clusterBusy 0 0 = true) ∧
    (let s : State := { State.reset with win := [(0x402008, 0x8001000000000000)] }
     (s.reg 0 0x402008).toNat / 2 ^ 63 = 1 ∧ (s.reg 0 0x402008).toNat / 2 ^ 48 % 2 ^ 9 = 1 ∧ (State.reset.reg 0 0x402008).toNat / 2 ^ 63 = 0) ∧
    (let s : State := { State.reset with win := [(0x410000, 1)] }
     s.barSpan 64 8 = true ∧ State.reset.barSpan 64 8 = false) ∧
    ((ops5 hostLoad).opsAt 5 = some hostLoad ∧ hostLoad.elems = [{ elem5 with key := 2 ^ 64 }] ∧ ∀ x ∈ hostLoad.outs, x.inLanes (2 ^ 0) = true) := by
  have hk : (going 0).hkey 0 0 = 0 := by decide +kernel
  refine ⟨⟨by decide, by decide, by decide, by decide, by decide, fun v => ?_, by decide, by decide, by decide, by decide⟩, by decide,
    ⟨fun q => by rw [context_one _ _ _ q single_going.1]; exact context_going, by decide +kernel, fun q => ?_, fun _ _ _ => by rfl, by decide⟩,
    by decide, by decide, by decide, by decide, by decide⟩
  · by_cases h : v = 0 <;> simp [State.frozenFn, State.reset, State.fnsAt, Tab.get, Func.empty, h]
  · rw [show ((going 0).ctxsAt 0).code.toNat = 0x40000 by decide, loadCode_one _ _ _ q _ _ single_going, ← hk]
    exact code_going

/-- Slot 0 of die 0 with EEND as its only instruction, disarmed or armed; a source with one event at time 0; a matched run. -/
def slotWin (arm : Bool) : State :=
  { State.reset with win := [(0x1000000, 1006632960), (0x1004000, if arm then 0x8000000000000000 else 0)], time := 1,
                     fifos := [(3, { recs := [{ word := 5, carry := 0, fromTime := 0 }], carry := 0, busy := 0 })], efcs := [(0, { Efc.empty with waiting := [run0] })] }
def eventsState : State := { slotWin true with win := [(0x1000000, 1006632960), (0x1004000, 0x8000000000000000), (0x1005800, 0x0000010000000000)] }
theorem test_meets_EventsFlow :
    ((slotWin true).dispatchable 0).filter (fun x => decide (((slotWin true).efcsAt 0).next ≤ x)) ++ (slotWin true).dispatchable 0 = 3 :: [3] ∧
    ((slotWin true).fifosAt (0 * 65536 + 3)).recs = [{ word := 5, carry := 0, fromTime := 0 }] ∧
    (((slotWin true).efcsAt 0).waiting = [run0] ∧ (slotWin true).run 0 0 = none ∧ eventsState.efc 0 0x5800 / 2 ^ 40 % 2 ^ 12 = 1 ∧ (slotWin true).efc 0 0x5800 / 2 ^ 40 % 2 ^ 12 = 0 ∧
      (slotWin true).efsc 0 0 / 2 ^ 48 % 2 ^ 6 + 1 = 1) ∧
    ((slotWin true).efsc 0 0 / 2 ^ 54 % 2 ^ 6 = 0 ∧ bit ((slotWin true).efsc 0 0) 63 = true ∧ bit ((slotWin false).efsc 0 0) 63 = false ∧ (slotWin false).verify 0 0 0 0 = (0, 0) ∧
      ((slotWin true).fnsAt 0).tdis ≠ 3) ∧
    (let s : State := { slotWin false with efcs := [(0, { Efc.empty with pipes := [(0, some run0)] })] }
     s.run 0 0 = some run0 ∧ run0.slot = 0 ∧ run0.old = false ∧ ({ run0 with old := true } : Run).old = true) ∧
    (let x : Stall := { cause := 1, grp := 0, slot := 0, vf := 0, asid := 0, start := 0, len := 3 }
     (({ State.reset with scheds := [(0, { Sched.empty with ended := [x] })] } : State).schedsAt 0).ended = [x]) ∧
    ({ State.reset with cycle := 2 ^ 32 } : State).cycle + 1 ≥ (State.reset.schedsAt 0).histStart + 2 ^ (State.reset.efc 0 0x5B00 % 32) := by decide

/-- Debugging is open for all; unit and bank of core 3 are held by `h` and being revoked or not; a status ring of two slots. -/
def debug0 (g : Group) (h : Option Nat) (rvk : Bool) : State :=
  { at0 g with
    dbg := 2, win := [(0x20008, 0xC400000000000000), (0x800008, 0x8000000000000000)], traces := [(3, { TraceUnit.empty with hold := h, rvk := rvk, tstp := 1, tsta := 2 })],
    banks := [(3, { Bank.empty with hold := h, rvk := rvk })], efcs := [(0, { Efc.empty with trig := 2 })] }
def rvkEntry : Nat := 2 * 2 ^ 48 + 6 * 2 ^ 56 + 3 * 2 ^ 64
theorem test_meets_DebugAndPower :
    (∀ h ∈ [none, some 0, some 1], let s := debug0 lone h false
      (s.fnsAt 0).tdis ≠ 3 ∧ s.guestFor 0 = true ∧ (s.banksAt 3).hold = h ∧ (s.tracesAt 3).hold = h ∧ (s.banksAt 3).rvk = false ∧ Item.event (.claim 0 3 true) ∉ s.agenda) ∧
    Item.event (.claim 0 3 true) ∈ ({ debug0 lone none false with agenda := [.event (.claim 0 3 true)] } : State).agenda ∧
    (let s := { debug0 lone (some 1) true with fns := [(1, { Func.empty with statWait := [rvkEntry] })], win := [(0x4020008, 0xC400000000000000)] }
     s.canonical = true ∧ (s.banksAt 3).rvk = true ∧ (s.fnsAt 1).statWait = [rvkEntry] ∧ (s.fnsAt 0).statWait = [] ∧ bit (s.reg 1 0x20008).toNat 63 = true ∧
       bit (s.reg 1 0x20008).toNat 62 = true ∧ bit (s.reg 1 0x20008).toNat 57 = false ∧ (s.reg 1 0x20010).toNat = 0) ∧
    (let s := debug0 lone none false
     s.mayStop 0 lone = true ∧ ({ s with dbg := 0 } : State).mayStop 0 lone = false ∧ (s.groupsAt 1).live = false ∧ lone.stepFrag 0 = some 0 ∧ lone.stepFrag (2 ^ 61 + 2 ^ 57) = none ∧
       (lone.frag 0).slot ≠ 0 ∧ ({ lone with stop := { lone.stop with stopped := true } } : Group).stepFrag 0 = some 0 ∧ lone.stop.stopped = false ∧ lone.stop.passed ≠ lone.clk + 1 ∧
       bit (s.reg 0 0x800008).toNat 63 = true ∧ lone.ckptn = (s.reg 0 0x800008).toNat % 2 ^ 32 ∧ lone.retired = s.reg 0 0x800010 ∧
       ((lone.owner 0).valid = true ∧ (lone.owner 0).vf = 0 ∧ (lone.owner 0).asid = (s.reg 0 0x800008).toNat / 2 ^ 43 % 2 ^ 20 ∧ (lone.owner 0).lanes &&& lone.pres ≠ 0)) ∧
    (let s := debug0 lone (some 0) false
     s.traceReach 0 3 = true ∧ ((s.tracesAt 3).wr + 2 ^ 32 - (s.tracesAt 3).rd) % 2 ^ 32 < 8 ∧ (s.efcsAt 0).trig ≠ 0 ∧ s.canonical = true ∧
       8 ≤ (({ TraceUnit.empty with wr := 8 } : TraceUnit).wr + 2 ^ 32 - TraceUnit.empty.rd) % 2 ^ 32) ∧
    (State.reset.sec.power = 0 ∧ State.reset.traces = [] ∧ State.reset.sec.lcs < 3 ∧ State.reset.canonical = true ∧ State.reset.sec.conf = false ∧
      ({ Sec.reset with power := 1 } : Sec).power = 1 ∧ ({ Sec.reset with lcs := 2 } : Sec).lcs = 2) := by
  decide

/-- A packet in sequence 7, and peer 5 with both directions keyed, ports live at both ends and that packet outstanding. -/
def packet0 (k : PackKind) : Packet := { seq := 7, kind := k, kg := false, fctr := 3, flits := 1, tries := 64, sentAt := 0 }
def peer5 (k : PackKind) : Peer := { Peer.empty with slot0 := 1, in0 := 1, out := [packet0 k], fctr := 4 }
def linked (k : PackKind) (s : State) : State := { s with peers := [(5, peer5 k)], time := 10 ^ 12, win := [(0x418100, 0xE000000000000005), (0x418110, 0x10000)] }
/-- An operation with an element in die 1, for a core of die 0. -/
def farOp : Op := { op5 with kind := .store, outs := [], elems := [{ elem5 with key := 68719476736, got := true }] }
/-- A collective of two members and one word, from byte 0x100 of scratch to byte 0x200. -/
def collDesc : Nat := 2 ^ 352 + 0xFD00000000000200 * 2 ^ 384 + 0xFD00000000000100 * 2 ^ 448
def coll5 : EngOp := { engOp .col (.coll 0xFD00000000000000 collDesc) with taken := true }
def contribution0 (rank : Nat) (stale : Bool) : Contrib :=
  { comm := 0, tag := 0, rank := rank, kind := 0, ty := 0, opr := 0, root := 0, cnt := 1, part := 0, data := if stale then [] else [1, 0, 0, 0], stale := stale }
def reducing (e : EngOp) (cs : List Contrib) (res : List ChunkRes) : State :=
  { engs5 e with contribs := cs, results := res, win := [(0x419000, 0x8008000000000000)], time := 10 ^ 12 }
def result0 : ChunkRes := { comm := 0, tag := 0, chunk := 0, stat := 1, part := 0, data := [2, 0, 0, 0] }
/-- The collective once its result and its status have been written. -/
def written : EngOp := { coll5 with early := [statBase, dstBase] }
def both : State := reducing coll5 [contribution0 0 false, contribution0 1 false] []
set_option exponentiation.threshold 600 in
theorem parts_both : both.chunkParts collDesc 0 = [] := List.mergeSort_nil
set_option exponentiation.threshold 600 in
theorem contrib_both (k : Nat) (h : k < 2) : both.contribOf collDesc k = [contribution0 k false] := by
  match k, h with
  | 0, _ => exact List.mergeSort_singleton _
  | 1, _ => exact List.mergeSort_singleton _
set_option exponentiation.threshold 600 in
theorem contrib_none : (reducing coll5 [] []).contribOf collDesc 0 = [] := List.mergeSort_nil
set_option exponentiation.threshold 600 in
theorem parts_written : (reducing written [] [result0]).chunkParts collDesc 0 = [result0] := List.mergeSort_singleton _
set_option exponentiation.threshold 600 in
theorem stat_written : (reducing written [] [result0]).chunkStat collDesc 0 = some 1 := by
  simp only [State.chunkStat, State.chunkData, parts_written]; decide
theorem at_written (q : Nat) : (reducing written [] [result0]).engAt written 0xFD00000000000200 4 2 q = .at (coreKey 0 0x200) := rfl
theorem put_written (q : Nat) : (reducing written [] [result0]).engPut written 0xFD00000000000200 4 q = .home (coreKey 0 0x200) := by
  rw [State.engPut, at_written]; decide
set_option exponentiation.threshold 600 in
theorem test_meets_Fabric :
    (let s := ops5 farOp
     s.flitPath 5 0 = some (2 * pairIdx 0 1) ∧ s.opsAt 5 = some farOp ∧ farOp.elems[0]? = some { elem5 with key := 68719476736, got := true } ∧ farOp.kind ≠ .tmov ∧
       homeDie 68719476736 ≠ (grpPos farOp.who).1 ∧ s.pathFor 0 68719476736 = some (2 * pairIdx 0 1) ∧ s.pathsAt (2 * pairIdx 0 1) < 9 ∧
       9 ≤ ({ s with paths := [(0, 9)] } : State).pathsAt 0 ∧ ({ s with paths := [(0, 9)] } : State).pathsAt (0 / 2 * 2 + (1 - 0 % 2)) ≠ 256) ∧
    (∀ k ∈ [PackKind.reply 1 [], .access 5 0, .contribution 5 0], let s := linked k (at0 lone)
      let p := s.peersAt 5
      (p.down = false ∧ p.rekeying = false ∧ s.livePorts 5 ≠ 0 ∧ s.sec.conf = false) ∧ p.data 7 = some (packet0 k) ∧ p.request 7 = some (packet0 k) ∧ (packet0 k).fctr < 2 ^ 47 - 1 ∧
        p.out = [] ++ [packet0 k] ++ [] ∧ ((packet0 k).kg = false ∧ 3 < (packet0 k).fctr + (packet0 k).flits) ∧ (false, 3) ∉ p.naks ∧ p.fctr + (packet0 k).flits ≤ 2 ^ 47 - 1 ∧
        (packet0 k).sentAt + 20 * 2618000 ≤ s.time ∧ (p.out ++ p.waiting).filter (fun j => j.seq == 7) = [packet0 k] ∧ 64 ≤ (packet0 k).tries ∧
        p.inSlot false = 1 ∧ ¬ p.inSlot true = 1 ∧ p.in0 ≠ 0 ∧ (false, 3) ∉ p.tagFail ∧ p.delivered 0 = false ∧ p.held = [] ∧ p.seen = [] ∧ p.markers = [] ∧ p.delivered (2 ^ 32 - 1) = true ∧
        p.turn { seq := 1, prev := some 0, req := .reply 1 [] } = false ∧ s.granted 5 64 4 62 = true ∧ s.granted 5 64 4 61 = true ∧ s.granted 5 0x20000 4 61 = false ∧ p.rekeys.length < 3 ∧
        seqAhead p.inNext 0 = 0 ∧ 0 < seqAhead p.inNext 1 ∧ seqAhead p.inNext 1 < 2 ^ 31 ∧ p.fresh = false ∧ p.switched = none) ∧
    (∀ k ∈ [OpKind.store, .load false], let o := { farOp with kind := k }
      let s := linked (.access 5 0) (ops5 o)
      s.opsAt 5 = some o ∧ o.slot ≠ 0) ∧
    (let s := linked (.access 5 0) (engs5 { gather1 with taken := true })
     s.opsAt 5 = none ∧ s.engsAt 5 = some { gather1 with taken := true } ∧ gather1.fail = none ∧ gather1.done = false) ∧
    (let s := linked (.contribution 5 0) (engs5 coll5)
     s.engsAt 5 = some coll5 ∧ coll5.fail = none ∧ coll5.done = false) ∧
    (let s := linked (.access 5 0) (at0 lone)
     let p := s.peersAt 5
     (false ≠ p.kg ∨ 3 < p.fctr) ∧ (false, 3) ∈ ({ p with naks := [(false, 3)] } : Peer).naks ∧ s.reqWaits (.read 1 64 4) = false ∧ s.pairDown ioDie 64 = false ∧
       s.lineBad 64 4 = false ∧ ({ s with badMem := [1] } : State).lineBad 64 4 = true ∧ (∃ e ∈ p.out, e.seq = 7 ∧ e.sentAt + 20 * 2618000 ≤ s.time)) ∧
    (let m := { packet0 (.access 6 0) with tries := 0 }
     let p : Peer := { peer5 (.access 5 0) with out := [packet0 (.access 5 0), m], progress := 10 ^ 12 }
     p.out.filter (fun j => j.seq == 7) = [packet0 (.access 5 0), m] ∧ p.waiting = [] ∧ p.down = false ∧ (linked (.access 5 0) State.reset).time < p.progress + 10000 * 2618000 ∧ m.tries < 64) ∧
    (let s : State := { linked (.contribution 5 0) (at0 lone) with win := [(0x418100, 0xE000000000000005), (0x419000, 0x8008000000000000)] }
     let p := s.peersAt 5
     bit (s.comm 0) 63 = true ∧ bit (s.comm 1) 63 = false ∧ p.delivered 0 = false ∧ p.held = [] ∧ p.markers = [] ∧ ¬ p.inSlot true = 1 ∧ p.in0 ≠ 0 ∧ 4096 * 0 < s.collTotal (2 ^ 352) ∧
       0 % (s.comm 0 / 2 ^ 51 % 64 + 1) = s.comm 0 / 2 ^ 45 % 64 ∧ 1 ∈ s.chunkFrom (2 ^ 352) 0) ∧
    (let p := Peer.empty
     p.slot0 = 0 ∧ p.slot1 = 0 ∧ p.in0 = 0 ∧ p.in1 = 0 ∧ (p.out.map (·.flits)).sum ≤ 2 ^ 47 - 1) ∧
    (let p : Peer := { peer5 (.reply 1 []) with asked := false, fctr := 2 ^ 46, in1 := 1 }
     2 ^ 46 ≤ p.fctr ∧ p.fresh = false ∧ p.slot (!p.kg) ≠ 1 ∧ (peer5 (.reply 1 [])).inSlot true ≠ 1 ∧ ({ p with fresh := true } : Peer).fresh = true ∧ (∀ k ∈ p.out, k.fctr < 2 ^ 47 - 1) ∧
       p.inSwitched = none ∧ p.inSlot (!p.inKg) = 1 ∧ ({ p with rekeying := true } : Peer).rekeying = true ∧ ({ p with down := true } : Peer).down = true ∧
       0 + (State.reset.reg 0 0x418000).toNat * 2618000 ≤ (linked (.access 5 0) State.reset).time) ∧
    (let s := reducing coll5 [contribution0 0 false, contribution0 1 false] []
     s.engsAt 5 = some coll5 ∧ coll5.taken = true ∧ coll5.done = false ∧ s.comm 0 / 2 ^ 51 % 64 + 1 = 2 ∧ s.comm 0 / 2 ^ 45 % 64 = 0 ∧ collDesc / 2 ^ 352 % 2 ^ 32 * collWidth 0 = 4 ∧
       s.contribs.filter (fun c => c.comm == 0 && c.tag == 0) = s.contribs ∧ coll5.turn + s.part 0 2 / 2 ^ 32 % 2 ^ 32 * 2618000 ≤ s.time) ∧
    (let s := both
     s.chunkStat collDesc 0 = none ∧ s.collClash collDesc = false ∧ s.contribHere collDesc 0 = true ∧ s.contribHere collDesc 1 = true ∧
       (reducing coll5 [] []).contribHere collDesc 0 = false) ∧
    (let s := reducing written [] [result0]
     (∀ q, s.collPutDone written statBase ((0xFD00000000000000 + 7) % 2 ^ 64) 1 q = true) ∧ written.fail = none ∧ written.stale = false ∧ s.chunkStat collDesc 0 ≠ none ∧
       s.collPieces written collDesc = [(dstBase, 0xFD00000000000200, [2, 0, 0, 0])] ∧ ∀ q, s.engPut written 0xFD00000000000200 4 q = .home (coreKey 0 0x200)) := by
  refine ⟨by decide, by decide, by decide, by decide, by decide, by decide, by decide, by decide, by decide, by decide, by decide, ?_, ?_⟩
  · have here : ∀ k, k < 2 → both.contribHere collDesc k = true := by
      intro k h
      simp only [State.contribHere, State.contribData, contrib_both k h]
      match k, h with
      | 0, _ => decide
      | 1, _ => decide
    refine ⟨?_, ?_, here 0 (by decide), here 1 (by decide), ?_⟩
    · simp only [State.chunkStat, parts_both]; decide
    · have n : List.range (both.collN collDesc) = [0, 1] := by decide
      simp only [State.collClash, n, List.any_cons, List.any_nil, contrib_both 0 (by decide), contrib_both 1 (by decide)]; decide
    · simp only [State.contribHere, State.contribData, contrib_none]; decide
  · refine ⟨fun _ => rfl, by decide, by decide, by rw [stat_written]; decide, ?_, put_written⟩
    have c : (reducing written [] [result0]).chunks collDesc = [0] := by decide
    simp only [State.collPieces, c, List.flatMap_cons, List.flatMap_nil, stat_written, State.chunkData, parts_written]; rfl

/-- A revocation that waits behind no other entry of its word, and read pointers before and past WR. -/
theorem test_meets_TraceReads : rvkEntry ∉ ([] : List Nat) ∧ ({ TraceUnit.empty with wr := 8 } : TraceUnit).gap = false ∧
    2 ^ 31 ≤ (({ TraceUnit.empty with rd := 8 } : TraceUnit).wr + 2 ^ 32 - ({ TraceUnit.empty with rd := 8 } : TraceUnit).rd) % 2 ^ 32 ∧
    (({ TraceUnit.empty with wr := 8 } : TraceUnit).wr + 2 ^ 32 - TraceUnit.empty.rd) % 2 ^ 32 < 2 ^ 31 := by decide

/-- Groups, contexts and pipes whose next bytes decode: EXIT and BFENCE, and EEND. -/
def exiting : State := { at0 lone with codes := [(0, { Code.empty with text := toBytes (0x8C * 2 ^ 2) 8 })], agenda := [.issue (.grp 0 0)] }
theorem test_meets_StepRunsDecoded :
    (exiting.agenda = [.issue (.grp 0 0)] ∧ (exiting.groupsAt 0).live = true ∧ ((exiting.groupsAt 0).frag 0).fst = .live ∧
      (let text := exiting.textOf (exiting.groupsAt 0)
       textAt text 0 1 % 4 ≠ 3 ∧ 8 * 8 = lenBits (textAt text 0 1 % 4) ∧ 0 + 8 ≤ text.length ∧ 0 % 32 + 8 ≤ 32 ∧ decodeCore (exiting.decCtx (.grp 0 0)) (textAt text 0 8) = .ok (.exit plain))) ∧
    (let s := { fencing seq with agenda := [.issue (.ctx 0)] }
     (s.ctxsAt 0).state = 1 ∧ ((s.ctxsAt 0).g.frag 0).fst = .live ∧ decodeCore (s.decCtx (.ctx 0)) (textAt (s.textOf (s.ctxsAt 0).g) 0 8) = .ok (.bfence plain 2)) ∧
    (let r := { run0 with code := [1006632960] }
     let s := { pipe0 r with agenda := [.issue (.pipe 0 0)] }
     Tab.get (fun _ => none) (s.efcsAt 0).pipes 0 = some r ∧ r.readyT ≤ s.efcNow ∧ decodeFilter (r.code.getD r.pc 0) = .ok .eend) :=
  ⟨⟨by decide, by decide, by decide, by decide, by decide, by decide, by decide, by rfl⟩, ⟨by decide, by decide, by rfl⟩, by decide, by decide, by rfl⟩

theorem test_meets_DecodeInvertsEncode : Instr.wf (.exit plain) = true ∧ encode (.exit plain) = some (64, 0x8C * 2 ^ 2) ∧ Instr.wf .eend = true ∧ encode .eend ≠ none ∧
    decodeTableWord 64 (0x8C * 2 ^ 2) = some (.exit plain) ∧ (Instr.exit plain).encoded = true ∧ encode (.marketVisit) = none := ⟨by decide, by decide, by decide, by decide, by rfl, by decide, by decide⟩

theorem test_meets_StepKeepsCanonicalForm : exiting.canonical = true ∧ Memory.wf exiting.mem = true ∧ ∃ t, step exiting = .next t := ⟨by decide, by decide, _, rfl⟩

/-! ## Words, field by field

`v3` to `y128` place the fields as Tables 3.1 and 3.3 to 3.7 give (header fields but OP and LEN 0), `ew` as Table 14.10. Register codes are those of Table 3.2. -/

def sc (n : Nat) : Nat := 0x140 + n
def pc (n : Nat) : Nat := 0x180 + n
def qc (n : Nat) : Nat := 0x190 + n
def base3 (len op fn mode d a b : Nat) : Nat := len + op * 2 ^ 2 + d * 2 ^ 28 + a * 2 ^ 37 + b * 2 ^ 46 + fn * 2 ^ 55 + mode * 2 ^ 61
def v3 (op fn mode d a b : Nat) : Nat := base3 0 op fn mode d a b
def i96 (op fn mode d a imm : Nat) : Nat := base3 1 op fn mode d a 0 + imm * 2 ^ 64
def q96 (op fn mode d a b c : Nat) : Nat := base3 1 op fn mode d a b + c * 2 ^ 64
def m128 (op fn mode d a b c off scope ord cw nreg : Nat) : Nat :=
  base3 2 op fn mode d a b + off * 2 ^ 64 + scope * 2 ^ 96 + ord * 2 ^ 98 + cw * 2 ^ 100 + c * 2 ^ 102 + nreg * 2 ^ 112
def x128 (op mode d a b c task lp tsen bren imm : Nat) : Nat :=
  base3 2 op 0 mode d a b + c * 2 ^ 64 + task * 2 ^ 73 + lp * 2 ^ 87 + tsen * 2 ^ 90 + bren * 2 ^ 91 + imm * 2 ^ 96
def y128 (op fn a row nrow qm anc acm imm : Nat) : Nat := base3 2 op fn 0 0 a 0 + row * 2 ^ 64 + nrow * 2 ^ 74 + qm * 2 ^ 84 + anc * 2 ^ 88 + acm * 2 ^ 96 + imm * 2 ^ 112
def ew (eop ed ea eb imm : Nat) : Nat := eop * 2 ^ 26 + ed * 2 ^ 22 + ea * 2 ^ 18 + eb * 2 ^ 14 + imm

/-- R82 to R91 (Tables 3.9 to 3.12). -/
theorem test_words_integer : ∀ p ∈ ([
    (64, v3 0x00 0x02 1 3 4 5, .iadd plain .i32 true 3 (.v 4) (.reg (.v 5))), (96, i96 0x01 0x07 0 2 4 0x80000000, .isub plain .n64 false 2 (.v 4) (.imm 0x80000000)),
    (64, v3 0x02 0x00 0 3 4 (sc 5), .imul plain .i8 false 3 (.v 4) (.reg (.s 5))), (64, v3 0x03 0x03 0 2 4 6, .imulh plain .i64 2 (.v 4) (.reg (.v 6))),
    (96, q96 0x04 0x05 1 3 4 5 6, .imad plain .n16 true 3 (.v 4) (.v 5) (.v 6)), (64, v3 0x05 0x04 0 3 4 5, .imin plain .n8 3 (.v 4) (.reg (.v 5))),
    (96, i96 0x06 0x01 0 3 4 7, .imax plain .i16 3 (.v 4) (.imm 7)), (64, v3 0x07 0x02 1 3 4 0, .iabs plain .i32 true 3 (.v 4)),
    (96, i96 0x08 0x08 3 3 4 0xFF, .lop plain .andn .b32 3 (.v 4) (.imm 0xFF)), (64, v3 0x08 0x09 6 2 4 0, .lop plain .not .b64 2 (.v 4) (.reg (.v 0))),
    (64, v3 0x09 0x03 1 8 10 13, .shf plain .shr .i64 8 (.v 10) (.reg (.v 13))), (96, q96 0x0A 0x06 0 3 4 5 6, .bfx plain .n32 3 (.v 4) (.v 5) (.v 6)),
    (96, q96 0x0B 0x09 0 2 4 6 7, .bfi plain .b64 2 (.v 4) (.v 6) (.v 7)), (64, v3 0x0C 0x08 3 3 4 5, .bitc plain .brev .b32 3 (.v 4) (.reg (.v 5))),
    (96, q96 0x0D 0x08 0 3 4 5 (pc 6), .sel plain .b32 3 (.v 4) (.v 5) 6), (64, v3 0x0E 0x06 5 (pc 2) 4 5, .icmp plain .n32 .ge 2 (.v 4) (.reg (.v 5)))] : List (Nat × Nat × Instr)),
    decodeTableWord p.1 p.2.1 = some p.2.2 ∧ p.2.2.wf = true ∧ encode p.2.2 = some (p.1, p.2.1) := by decide

/-- R92 to R101. -/
theorem test_words_float : ∀ p ∈ ([
    (64, v3 0x40 0x0C 1 3 4 5, .fadd plain .rz 3 (.v 4) (.reg (.v 5))), (96, i96 0x41 0x0C 2 3 4 0x3F800000, .fmul plain .rp 3 (.v 4) (.imm 0x3F800000)),
    (96, q96 0x42 0x0C 3 3 4 5 (sc 0), .ffma plain .rminf 3 (.v 4) (.v 5) (.s 0)), (64, v3 0x43 0x0C 1 3 4 5, .fmnx plain true 3 (.v 4) (.reg (.v 5))),
    (64, v3 0x44 0x0C 6 (pc 1) 4 5, .fcmp plain .un 1 (.v 4) (.reg (.v 5))), (64, v3 0x45 0x0C 0 3 4 0, .fcls plain 3 (.v 4)), (64, v3 0x46 0x03 2 3 4 0, .fspc plain .exp2 .rp 3 (.v 4)),
    (64, v3 0x48 0x0E 0 3 4 5, .hadd2 plain true .rn 3 (.v 4) (.reg (.v 5))), (64, v3 0x49 0x0D 1 3 4 5, .hmul2 plain false .rz 3 (.v 4) (.reg (.v 5))),
    (96, q96 0x4A 0x0E 0 3 4 5 6, .hfma2 plain true .rn 3 (.v 4) (.v 5) (.v 6)), (96, q96 0x4B 0x11 0 3 4 5 6, .fdp4 plain true .rn 3 (.v 4) (.v 5) (.v 6)),
    (64, v3 0x50 (3 * 8 + 1) 5 3 4 0, .cvtf plain .e4m3 .f16 .rz true 3 (.v 4)), (64, v3 0x51 (32 + 1 * 8 + 7) 1 2 4 0, .cvti plain true .f16 .n64 .rz 2 (.v 4)),
    (64, v3 0x52 0x14 7 3 4 5, .cvtq plain false 7 3 (.v 4) (.v 5))] : List (Nat × Nat × Instr)), decodeTableWord p.1 p.2.1 = some p.2.2 ∧ p.2.2.wf = true ∧ encode p.2.2 = some (p.1, p.2.1) := by decide

/-- R102 to R113. -/
theorem test_words_moves : ∀ p ∈ ([
    (64, v3 0x60 0x09 0 6 (sc 9) 0, .mov plain .b64 6 (.s 9)), (96, i96 0x61 0x08 0 1 0 0x3F800000, .movi plain .b32 1 (.imm32 0x3F800000)),
    (128, base3 2 0x61 0x09 0 2 0 0 + 0x123456789 * 2 ^ 64, .movi plain .b64 2 (.imm64 0x123456789)), (64, v3 0x62 0x03 0 3 0 0, .movs plain .coord 3),
    (64, v3 0x63 0x08 0 (sc 12) 3 0, .movg plain .b32 12 (.v 3)), (64, v3 0x64 0x00 1 (pc 4) (pc 2) (pc 3), .plog plain .or (.p 4 2 3)),
    (64, v3 0x64 0x01 4 (qc 9) (qc 10) (qc 11), .plog plain .orn (.q 9 10 11)), (64, v3 0x65 0x01 0 (qc 9) (sc 4) 0, .pset plain (.q 9 4)),
    (64, v3 0x80 0x08 0 (sc 6) (sc 7) (sc 8), .salu plain .sar 6 7 (.s 8)), (128, base3 2 0x81 0x09 0 0x1A2 0 0 + 0x10 * 2 ^ 64, .smov plain (.ctl .flags) (.imm64 0x10)),
    (64, v3 0x81 0x09 0 (sc 4) 0x1A0 0, .smov plain (.s 4) (.reg (.ctl .status))), (64, v3 0x82 0x07 2 (qc 2) (sc 4) (sc 5), .scmp plain false .lt 2 4 (.s 5)),
    (96, q96 0x83 0x09 0 (sc 10) (sc 11) (sc 12) (qc 1), .ssel plain 10 11 12 1), (96, i96 0x88 0 0 0 0 0xFFFFFFF0, .bra plain 0xFFFFFFF0), (64, v3 0x89 0 0 0 (sc 4) 0, .jmp plain 4),
    (96, i96 0x8A 0 0 (sc 3) 0 0x40, .call plain 3 0x40), (64, v3 0x8B 0 0 0 (sc 3) 0, .ret plain 3), (64, v3 0x8C 0 0 0 0 0 + 5 * 2 ^ 14 + 2 ^ 17, .exit { plain with gp := 5, gn := true }),
    (64, v3 0x8D 0 0 0 0 0 + 9 * 2 ^ 10, .nop { plain with stall := 9 }), (64, v3 0x8E 0 0 0 0 0 + 0x41 * 2 ^ 21, .yield { plain with sbw := 0x41 })] : List (Nat × Nat × Instr)),
    decodeTableWord p.1 p.2.1 = some p.2.2 ∧ p.2.2.wf = true ∧ encode p.2.2 = some (p.1, p.2.1) := by decide

/-- R144 to R157 (Table 6.1). -/
theorem test_words_parallel : ∀ p ∈ ([
    (96, i96 0xA0 0 0 0 (sc 5) 0x20, .brd plain 0x20 5), (64, v3 0xA1 0 0 0 0 0, .join plain), (64, v3 0xA2 2 0 (sc 4) (pc 3) 0, .vote plain (.ballot (.s 4) 3)),
    (64, v3 0xA2 3 0 (qc 2) 7 0, .vote plain (.uni (.q 2) (.v 7))), (64, v3 0xA3 1 2 3 4 5, .shfl plain .up 2 3 4 (.reg (.v 5))), (64, v3 0xA4 0x03 1 2 4 0, .lred plain .min .i64 2 4),
    (96, i96 0xA5 0x08 0 3 4 9, .bcst plain .b32 3 4 (.imm 9)), (64, v3 0xA6 0x09 0 (sc 7) 4 (sc 5), .rdln plain .b64 7 4 (.s 5)), (64, v3 0xA7 0x0C 6 3 4 0, .prfx plain .xadd .f32 3 4),
    (64, v3 0xA8 0x09 0 3 4 0, .matchl plain .b64 3 4), (64, v3 0xA9 3 0 3 0 0, .ownq plain .awn 3), (64, v3 0xAA 1 0 3 0 0, .fragq plain true 3), (64, v3 0xAB 0 0 (pc 6) 0 0, .elect plain 6),
    (64, v3 0xAC 0 0 0 (sc 8) 0, .backoff plain 8), (128, x128 0xAD 0 9 (sc 20) 0 0 0 2 0 0 0, .launchNow plain 9 (.s 20) 2),
    (128, x128 0xAD 1 9 (sc 20) (sc 21) 0 0 2 0 0 3, .launchArm plain 9 (.s 20) (.s 21) 3 2), (96, i96 0xAE 0 0 0 0 0x24, .knot plain 0x24)] : List (Nat × Nat × Instr)),
    decodeTableWord p.1 p.2.1 = some p.2.2 ∧ p.2.2.wf = true ∧ encode p.2.2 = some (p.1, p.2.1) := by decide

/-- R110, R115, R191 to R210 (Table 10.1). -/
theorem test_words_memory : ∀ p ∈ ([
    (128, m128 0x84 0x09 0 (sc 8) (sc 4) 0 0 16 2 0 0 1, .sld plain .b64 .x2 .dev 8 (.reg (.s 4) 16)), (128, m128 0xC0 0x09 0 4 2 0 0 0xFFFFFFF8 1 1 0 1, .ld plain (.raw .b64) .x2 true .cl 4 (.reg (.v 2) 0xFFFFFFF8)),
    (128, m128 0xC1 0x02 0 8 (sc 4) 0 0 4 2 2 0 2, .st plain (.int .i32) .x4 true .dev (.reg (.s 4) 4) (.v 8)), (128, m128 0xC2 0x04 0 3 0 0 0 8 0 0 1 0, .ldaq plain (.int .n8) .x1 false .wg 3 (.const 8)),
    (128, m128 0xC3 0x08 0 (sc 6) 2 0 0 0 3 2 0 0, .strl plain (.raw .b32) .x1 true .sys (.reg (.v 2) 0) (.s 6)), (128, m128 0xC4 0 0 0 2 0 (sc 5) 64 0 0 0 2, .tmov plain .x4 (.reg (.v 2) 64) (.s 5)),
    (128, m128 0xC5 2 0 (pc 3) 6 0 0 1 0 0 0 0, .sptst plain .die 3 (.v 6) 1), (128, m128 0xC6 1 1 8 (sc 3) 0 0 0x200 0 0 0 0, .spcst plain .cluster true 8 (.s 3) 0x200),
    (128, m128 0xC8 0x03 2 4 2 6 0 8 3 3 0 0, .atom plain .i64 .max .ar .sys 4 (.v 2) 8 (.v 6)), (128, m128 0xC9 0x08 0 3 2 5 6 8 0 1 0 0, .acas plain .b32 .acq .wg 3 (.v 2) 8 (.v 5) (.v 6)),
    (128, m128 0xCA 0x09 5 6 2 0 0 8 2 2 0 0, .ared plain .b64 .xor true .dev (.v 2) 8 (.v 6)), (128, m128 0xCB 0x0D 1 3 2 5 0 8 1 2 0 0, .atomf plain .f16 .min .rel .cl 3 (.v 2) 8 (.v 5)),
    (128, m128 0xCC 0 0 0 0 0 0 0 3 3 0 0, .fence plain .ar .sys), (128, m128 0xD0 0 1 (sc 6) 2 0 0 8 2 2 0 0, .bari plain true true .dev (.v 2) 8 (.s 6)),
    (128, m128 0xD1 0 2 3 2 0 0 8 1 0 0 0, .barv plain .join .cl 3 (.v 2) 8), (128, m128 0xD2 0 0 0 2 5 0 8 0 0 0 0, .bwait plain .wg (.v 2) 8 (.v 5)),
    (128, m128 0xD3 0 0 (pc 4) 2 (sc 5) 0 8 3 0 0 0, .btest plain .sys 4 (.v 2) 8 (.s 5))] : List (Nat × Nat × Instr)), decodeTableWord p.1 p.2.1 = some p.2.2 ∧ p.2.2.wf = true ∧ encode p.2.2 = some (p.1, p.2.1) := by decide

/-- R240 to R256, R327, R303 to R311 (Tables 12.1, 12.2, 17.1); a word of the sequencer set is read as one by `decodeTableWord`. -/
theorem test_words_async : ∀ p ∈ ([
    (64, v3 0xE0 0 0 3 4 5, .tpack plain 3 (.v 4) (.v 5)), (64, v3 0xE1 0 0 4 3 0, .tunpk plain 4 (.v 3)),
    (128, x128 0xE2 0 0 (sc 4) 0 (sc 5) 7 2 1 1 (0x21 + 1 * 2 ^ 8 + 0x123 * 2 ^ 12), .wload plain (.s 4) 0x21 .nw 0x123 { bar := some (.s 5), task := some 7, lp := 2 }),
    (128, y128 0xE3 0x14 (sc 4) 0 63 0 0xF0 0 80, .afeed plain .q4 (.s 4) 63 0xF0 80), (128, y128 0xE4 0x0C (sc 7) 64 47 0 0 0 512, .adrain plain .f32 (.s 7) 64 47 512),
    (128, y128 0xE5 0 0 0 0 5 0 0 (0x21 + 3 * 2 ^ 8), .mlatch plain .w 0x21 3), (128, y128 0xE6 0 0 9 8 15 0xFF 1 0, .mmul plain true .all 9 8 0xFF), (128, y128 0xE7 0 0 9 8 0 3 0 0, .mmulb plain false .implied 9 8 3),
    (128, y128 0xE8 0 0 5 7 10 0 0 0, .mzero plain .e 5 7), (64, v3 0xE9 0 0 (sc 2) 0 0, .bfence plain 2), (64, v3 0xEA 0 0 0 (sc 2) 0, .bwaita plain 2),
    (128, x128 0xEB 0 0 2 4 0 0 1 0 0 0, .tcopy plain (.v 2) (.v 4) { bar := none, task := none, lp := 1 }),
    (128, x128 0xEC 0 (sc 4) (sc 5) (sc 6) 0 9 0 1 0 (3 + 63 * 2 ^ 4), .gath plain (.s 4) (.s 5) (.s 6) 3 63 { bar := none, task := some 9, lp := 0 }), (96, i96 0xED 4 0 0 0 255, .waitc plain .gth 255),
    (128, x128 0xEE 0 0 0 0 0 4095 3 1 0 0, .tsig plain 4095 3), (128, x128 0xEF 0 0 (sc 1) 0 0 12 0 1 0 0, .coll plain (.s 1) (some 12) 0), (96, i96 0xF0 0 0 0 0 0xDEAD, .trap plain 0xDEAD),
    (64, v3 0xF1 0 0 0 0 0, .rett plain), (96, i96 0xF2 0 0 (sc 4) (sc 5) 0x0710, .mfsr plain 4 5 0x0710), (96, i96 0xF3 0 0 (sc 4) (sc 5) 0x0100, .mtsr plain 5 0x0100 4),
    (96, i96 0xF4 0 0 0 0 7, .dbrk plain 7), (64, v3 0xF5 0 0 0 (sc 9) 0, .ckpt plain 9), (64, v3 0xF6 0 0 0 2 (sc 3), .evtx plain (.v 2) (.s 3))] : List (Nat × Nat × Instr)),
    decodeTableWord p.1 p.2.1 = some p.2.2 ∧ p.2.2.wf = true ∧ encode p.2.2 = some (p.1, p.2.1) := by decide

/-- R272 (Table 14.11). -/
theorem test_words_filter : ∀ p ∈ ([
    (32, ew 1 2 0 0 7, .evld 2 .val), (32, ew 2 2 3 0 0, .emov 2 3), (32, ew 3 7 2 0 0x1FFF, .emovi 7 2 0x1FFF), (32, ew 4 2 3 4 (1 * 2 ^ 10), .ealu .sub 2 3 (.reg 4)),
    (32, ew 5 2 3 0 (7 * 2 ^ 10 + 2 ^ 9 + 0x1FF), .ecmp .gei 2 3 (.imm 0x1FF)), (32, ew 6 0 3 0 (2 ^ 6 + 5), .ebf (.z 3) 5), (32, ew 6 0 0 0 (2 ^ 7 + 63), .ebf (.always false) 63), (32, ew 6 0 0 0 (2 ^ 7 + 2 ^ 6 + 5), .ebf (.always true) 5),
    (32, ew 7 2 3 0 9, .ehash 2 3 9), (32, ew 8 0 3 4 100, .hinc 3 4 100), (32, ew 9 0 3 4 101, .hmax 3 4 101), (32, ew 10 0 3 4 (13 * 2 ^ 10 + 6), .cmsu 3 4 13 6), (32, ew 11 2 3 0 (1 * 2 ^ 10 + 6), .cmsq 2 3 1 6),
    (32, ew 12 2 3 4 102, .wsum 2 3 4 102), (32, ew 13 0 0 0 7, .trig 7), (32, ew 14 0 13 0 15, .emit 13 15), (32, ew 15 0 0 0 0, .eend)] : List (Nat × Nat × Instr)),
    decodeTableWord p.1 p.2.1 = some p.2.2 ∧ p.2.2.wf = true ∧ encode p.2.2 = some (p.1, p.2.1) := by decide

/-! ## Ill-formed terms, and words that decode to none -/

/-- One ill-formed term for each check of `Instr.wf`: odd pairs (R8), the functions and types that a rule pairs (R26, R85, R99, R101, R155, R203), bases that are
odd (R114), data off their alignment (R115), offsets off 4 (R61), a guard where none is taken (R146, R303), strides (R245, R247), and the rest of the fields. -/
theorem test_wf_integer : ∀ i ∈ ([
    .iadd plain .i64 false 3 (.v 4) (.reg (.v 6)), .isub plain .n64 false 2 (.v 5) (.reg (.v 6)), .imul plain .i64 false 2 (.v 4) (.reg (.v 7)), .imulh plain .i64 1 (.v 4) (.reg (.v 6)),
    .imin plain .n64 2 (.v 3) (.reg (.v 6)), .imax plain .i64 2 (.v 4) (.reg (.v 5)), .imad plain .i64 false 2 (.v 4) (.v 6) (.v 9), .iabs plain .n32 false 2 (.v 4), .iabs plain .i64 false 3 (.v 4),
    .lop plain .not .b32 2 (.v 4) (.reg (.v 1)), .lop plain .not .b32 2 (.v 4) (.imm 0), .lop plain .and .b64 2 (.v 4) (.reg (.v 1)), .shf plain .shl .i64 3 (.v 4) (.imm 1), .bfx plain .i16 2 (.v 4) (.v 5) (.v 6),
    .bfx plain .i64 3 (.v 4) (.v 5) (.v 6), .bfi plain .b64 2 (.v 4) (.v 5) (.v 6), .bitc plain .brev .b64 3 (.v 4) (.reg (.v 6)), .sel plain .b64 2 (.v 4) (.v 5) 0, .icmp plain .i64 .eq 0 (.v 3) (.imm 0),
    .cvtf plain .f16 .f16 .rn false 2 (.v 3), .cvtf plain .f16 .f32 .rn true 2 (.v 3), .cvti plain true .f32 .i64 .rn 3 (.v 4), .cvti plain false .f32 .i64 .rn 3 (.v 5), .cvtq plain true 4 2 (.v 3) (.v 4),
    .mov plain .b64 3 (.v 4), .movi plain .b32 2 (.imm64 1), .movi plain .b64 3 (.imm32 1), .movg plain .b64 2 (.v 3), .plog plain .not (.p 1 2 3), .plog plain .not (.q 1 2 3)] : List Instr),
    i.wf = false := by decide

theorem test_wf_rest : ∀ i ∈ ([
    .sld plain .b32 .x2 .wg 3 (.reg (.s 4) 0), .sld plain .b32 .x1 .wg 3 (.reg (.v 4) 0), .bra plain 2, .call plain 1 6, .brd plain 1 0, .knot plain 3, .ld plain (.raw .b64) .x2 false .wg 2 (.reg (.s 1) 0),
    .ldaq plain (.int .i32) .x1 false .wg 2 (.reg (.v 3) 0), .st plain (.int .i32) .x4 false .wg (.reg (.s 1) 0) (.v 6), .strl plain (.int .i32) .x2 false .wg (.reg (.s 1) 0) (.s 3), .join off,
    .rett { plain with gn := true }, .matchl plain .b64 2 3, .bcst plain .b64 2 3 (.imm 0), .bcst plain .b64 3 2 (.imm 0), .rdln plain .b64 2 3 (.imm 0), .lred plain .and .f32 2 3, .lred plain .xadd .i32 2 3,
    .lred plain .add .i64 2 3, .prfx plain .and .f32 2 3, .prfx plain .add .n64 3 2, .launchNow plain 2 (.v 3) 0, .launchArm plain 2 (.v 3) (.v 4) 1 0, .tmov plain .x1 (.reg (.s 1) 0) (.v 3),
    .tmov plain .x1 (.reg (.v 3) 0) (.s 1), .sptst plain .core 1 (.v 3) 0, .spcst plain .core false 3 (.v 4) 0, .spcst plain .core false 2 (.v 5) 0, .atom plain .i32 .and .rlx .wg 2 (.s 1) 0 (.v 3),
    .atom plain .b64 .min .rlx .wg 2 (.s 1) 0 (.v 4), .atom plain .i64 .add .rlx .wg 3 (.s 1) 0 (.v 4), .ared plain .b32 .exch false .wg (.s 1) 0 (.v 4), .ared plain .i64 .add false .wg (.s 1) 0 (.v 3),
    .acas plain .b64 .rlx .wg 2 (.s 1) 0 (.v 4) (.v 7), .atomf plain .f32 .add .rlx .wg 2 (.v 3) 0 (.v 4), .bari plain false false .wg (.v 3) 0 (.v 4), .barv plain .arrive .wg 2 (.v 3) 0, .bwait plain .wg (.v 3) 0 (.v 4),
    .btest plain .wg 1 (.v 3) 0 (.v 4), .tunpk plain 3 (.v 4), .wload plain (.v 3) 0 .all 0 { bar := none, task := none, lp := 0 }, .wload plain (.s 3) 0 .all 0 { bar := some (.v 5), task := none, lp := 0 },
    .afeed plain .f16 (.v 3) 0 0 256, .afeed plain .f16 (.s 3) 0 0 255, .adrain plain .f32 (.s 3) 0 0 8, .tcopy plain (.s 1) (.v 2) { bar := none, task := none, lp := 0 },
    .tcopy plain (.s 1) (.s 3) { bar := none, task := none, lp := 0 }, .gath plain (.v 1) (.s 1) (.s 2) 0 0 { bar := none, task := none, lp := 0 }, .coll plain (.v 3) none 0, .emovi 1 4 256, .ebf (.always false) 0,
    .cmsu 1 2 0 0, .cmsq 1 2 14 0] : List Instr), i.wf = false := by decide

/-- Unassigned opcodes and functions, a length that the opcode does not take, an odd pair, a reserved code, a nonzero unused field, an unassigned MOD, a misaligned offset, an illegal
QM, a pad word, a word too short (R49, R52, R58 to R67); filter words of an unassigned opcode and with a field marked 0 (R273). -/
theorem test_words_refused : ∀ p ∈ ([
    (64, v3 0x0F 0 0 0 0 0), (64, v3 0x10 0 0 0 0 0), (64, v3 0x40 0x0D 0 3 4 5), (64, base3 0 0x42 0x0C 0 3 4 5), (64, v3 0x00 0x03 0 3 4 6), (64, v3 0x00 0x02 0 320 4 5), (64, v3 0x00 0x02 0 3 (pc 8 + 8) 5),
    (64, v3 0x07 0x02 0 3 4 1), (64, v3 0x00 0x02 2 3 4 5), (96, i96 0x88 0 0 0 0 2), (128, y128 0xE8 0 0 5 7 6 0 0 0), (64, 3), (32, v3 0x00 0x02 0 3 4 0), (32, ew 16 0 0 0 0), (32, ew 0 0 0 0 0),
    (32, ew 15 1 0 0 0), (32, ew 14 0 14 0 0), (32, ew 3 1 4 0 256)] : List (Nat × Nat)), decodeTableWord p.1 p.2 = none := by decide

/-! ## One step: values worked out by hand from the rules -/

def w4 (a b c : Word) : Group := withV 2 a (withV 3 b (withV 4 c lone))
/-- R26, R78, R82 to R84: saturation, the upper half, the exact product and sum, the absolute value of the least number. -/
theorem test_step_integer :
    vAfter (w4 0x7FFFFFFF 1 0) (.iadd plain .i32 true 8 (.v 2) (.reg (.v 3))) 8 5 = 0x7FFFFFFF ∧ flagsAfter (w4 0x7FFFFFFF 1 0) (.iadd plain .i32 true 8 (.v 2) (.reg (.v 3))) = 32 ∧
    vAfter (w4 0x7FFFFFFF 1 0) (.iadd plain .i32 false 8 (.v 2) (.reg (.v 3))) 8 5 = 0x80000000 ∧ vAfter (w4 1 2 0) (.isub plain .n32 true 8 (.v 2) (.reg (.v 3))) 8 0 = 0 ∧
    vAfter (w4 0xFFFFFFFF 0xFFFFFFFF 0) (.imulh plain .i32 8 (.v 2) (.reg (.v 3))) 8 0 = 0 ∧ vAfter (w4 0xFFFFFFFF 0xFFFFFFFF 0) (.imulh plain .n32 8 (.v 2) (.reg (.v 3))) 8 0 = 0xFFFFFFFE ∧
    vAfter (w4 0xFFFFFFFF 5 7) (.imad plain .i32 false 8 (.v 2) (.v 3) (.v 4)) 8 0 = 2 ∧ vAfter (w4 0x80000000 0 0) (.iabs plain .i32 true 8 (.v 2)) 8 0 = 0x7FFFFFFF ∧
    vAfter (w4 0x80 0 0) (.imin plain .i8 8 (.v 2) (.reg (.v 3))) 8 0 = 0xFFFFFF80 ∧ vAfter (w4 0x80 0 0) (.imax plain .n8 8 (.v 2) (.reg (.v 3))) 8 0 = 0x80 := by decide

/-- R85 to R89: the spec's examples and the full-width shifts. -/
theorem test_step_bits :
    vAfter (w4 0x1FF 0xFF 0) (.lop plain .andn .b32 3 (.v 2) (.imm 0xFF)) 3 7 = 0x100 ∧ vAfter (w4 0x80000000 40 0) (.shf plain .shr .i32 8 (.v 2) (.reg (.v 3))) 8 0 = 0xFFFFFFFF ∧
    vAfter (w4 0x80000001 33 0) (.shf plain .rol .n32 8 (.v 2) (.reg (.v 3))) 8 0 = 3 ∧ vAfter (w4 1 32 0) (.shf plain .shl .b32 8 (.v 2) (.reg (.v 3))) 8 0 = 0 ∧
    vAfter (w4 0xFFFF0F00 8 4) (.bfx plain .i32 8 (.v 2) (.v 3) (.v 4)) 8 0 = 0xFFFFFFFF ∧ vAfter (w4 0xFFFF0F00 8 4) (.bfx plain .n32 8 (.v 2) (.v 3) (.v 4)) 8 0 = 0xF ∧
    vAfter (w4 0xABCDEF12 0x5 0xFFFF0408) (.bfi plain .b32 8 (.v 2) (.v 3) (.v 4)) 8 0 = 0xABCDE512 ∧ vAfter (w4 0x10 0xFF 0) (.bitc plain .clz .b32 8 (.v 2) (.reg (.v 3))) 8 0 = 27 ∧
    vAfter (w4 0x10 0xF 0) (.bitc plain .ctz .b32 8 (.v 2) (.reg (.v 3))) 8 0 = 32 := by decide

/-- R30 to R37, R92 to R101: rounding to nearest even and up, the smaller zero, infinities of both signs, a quiet NaN compared, and the spec's examples of
CVTF and CVTQ. NX is bit 4, NV bit 0, OF bit 2. -/
theorem test_step_float :
    vAfter (w4 0x3F800000 0x33800000 0) (.fadd plain .rn 8 (.v 2) (.reg (.v 3))) 8 0 = 0x3F800000 ∧ flagsAfter (w4 0x3F800000 0x33800000 0) (.fadd plain .rn 8 (.v 2) (.reg (.v 3))) = 16 ∧
    vAfter (w4 0x3F800000 0x33800000 0) (.fadd plain .rp 8 (.v 2) (.reg (.v 3))) 8 0 = 0x3F800001 ∧ vAfter (w4 0x7F800000 0xFF800000 0) (.fadd plain .rn 8 (.v 2) (.reg (.v 3))) 8 0 = 0x7FC00000 ∧
    flagsAfter (w4 0x7F800000 0xFF800000 0) (.fadd plain .rn 8 (.v 2) (.reg (.v 3))) = 1 ∧ vAfter (w4 0x40400000 0x40000000 0xC0C00000) (.ffma plain .rn 8 (.v 2) (.v 3) (.v 4)) 8 0 = 0 ∧
    vAfter (w4 0 0x80000000 0) (.fmnx plain false 8 (.v 2) (.reg (.v 3))) 8 0 = 0x80000000 ∧
    vAfter (w4 0x43FA0000 0 0) (.cvtf plain .e4m3 .f32 .rn true 8 (.v 2)) 8 0 = 0x7E ∧ flagsAfter (w4 0x43FA0000 0 0) (.cvtf plain .e4m3 .f32 .rn true 8 (.v 2)) = 20 ∧
    vAfter (w4 0xBFC00000 0 0) (.cvti plain true .f32 .i32 .rz 8 (.v 2)) 8 0 = 0xFFFFFFFF ∧ vAfter (w4 0x5F 0xB0 0) (.cvtq plain false 1 8 (.v 2) (.v 3)) 8 0 = 0xBF400000 := by decide

/-- R96: 1/3 rounds up to 0x3EAAAAAB; the root of 2 is 0x3FB504F3. -/
theorem test_step_special : vAfter (w4 0x40400000 0 0) (.fspc plain .rcp .rn 8 (.v 2)) 8 0 = 0x3EAAAAAB ∧ vAfter (w4 0x40000000 0 0) (.fspc plain .sqrt .rn 8 (.v 2)) 8 0 = 0x3FB504F3 := by decide +kernel

/-- R16, R102, R150 to R155: a lane whose guard fails keeps its register; lane numbers; a scan and a sum of ones over sixteen lanes; a shuffle past its segment keeps the lane's own value (R152). -/
theorem test_step_lanes :
    vAfter (withV 8 9 lone) (.movs off .lane 8) 8 3 = 9 ∧ vAfter lone (.movs plain .lane 8) 8 3 = 3 ∧ vAfter (w4 1 0 0) (.prfx plain .add .n32 8 2) 8 4 = 5 ∧
    vAfter (w4 1 0 0) (.lred plain .add .n32 8 2) 8 4 = 16 ∧ vAfter (withV 2 7 lone) (.shfl plain .up 0 8 2 (.imm 1)) 8 0 = 7 ∧ vAfter (withV 2 7 lone) (.shfl plain .up 0 8 2 (.imm 1)) 8 1 = 7 ∧
    vAfter lone (.fragq plain true 8) 8 2 = 16 := by decide

/-- R276, R278: EALU.mul keeps the low 64 bits; ECMP.lti is signed. -/
def eAfter (regs : Tab DWord) (i : Instr) (d : Nat) : Nat :=
  match exec i (pipe0 { run0 with regs := regs }) with
  | .next t => (match t.run 0 0 with | some r => (Tab.get (fun _ => (0 : DWord)) r.regs d).toNat | none => 0)
  | _ => 0
theorem test_step_filter : eAfter [(2, 0x8000000000000001), (3, 3)] (.ealu .mul 4 2 (.reg 3)) 4 = 0x8000000000000003 ∧ eAfter [(2, 0x8000000000000001), (3, 3)] (.ecmp .lti 4 2 (.reg 3)) 4 = 1 ∧
    eAfter [(2, 0x8000000000000001), (3, 3)] (.ecmp .ltn 4 2 (.reg 3)) 4 = 0 ∧ eAfter [] (.emovi 4 0 0x3FFF) 4 = 0xFFFFFFFFFFFFFFFF := by decide

/-- R112: EXIT of all lanes frees the fragment. -/
theorem test_step_exit : (match exec (.exit plain) (at0 lone) with | .next t => ((t.groupsAt 0).frag 0).fst == .free | _ => false) = true := by decide
end Sys2Proof.Tests
end

section
/-! SUPPORT. Masks bit by bit, and the guards that choose lanes and class slots (R16, O5). -/

namespace Sys2Proof.Machine

/-- The model's bit of a number is the library's. -/
theorem bit_eq_testBit (x n : Nat) : bit x n = x.testBit n := by
  simp [bit, Nat.testBit, Nat.shiftRight_eq_div_pow, Nat.one_and_eq_mod_two, Bool.beq_eq_decide_eq]

/-- The number whose one bits are the places below n where f holds. -/
theorem testBit_sum_pows (f : Nat → Bool) (n : Nat) :
    ((List.range n).filter f).foldl (fun m l => m + 2 ^ l) 0 < 2 ^ n ∧
      ∀ k, (((List.range n).filter f).foldl (fun m l => m + 2 ^ l) 0).testBit k = (decide (k < n) && f k) := by
  induction n with
  | zero => simp
  | succ n ih =>
    obtain ⟨hlt, hbit⟩ := ih
    rw [List.range_succ, List.filter_append, List.foldl_append]
    generalize ((List.range n).filter f).foldl (fun m l => m + 2 ^ l) 0 = x at hlt hbit
    have hpow : 2 ^ (n + 1) = 2 ^ n + 2 ^ n := by omega
    cases hf : f n with
    | false =>
      refine ⟨by simp [hf]; omega, fun k => ?_⟩
      rcases Nat.lt_trichotomy k n with h | rfl | h
      · simp [hf, hbit, h, Nat.lt_succ_of_lt h]
      · simp [hf, hbit]
      · simp [hf, hbit, Nat.not_lt_of_gt h, Nat.not_lt.2 h]
    | true =>
      have hsum : [n].filter f = [n] := by simp [hf]
      rw [hsum, List.foldl_cons, List.foldl_nil, Nat.add_comm x]
      refine ⟨by omega, fun k => ?_⟩
      rcases Nat.lt_trichotomy k n with h | rfl | h
      · simp [Nat.testBit_two_pow_add_gt h, hbit, h, Nat.lt_succ_of_lt h]
      · simp [Nat.testBit_two_pow_add_eq, hbit, hf]
      · have hk : 2 ^ (n + 1) ≤ 2 ^ k := Nat.pow_le_pow_right (by decide) h
        rw [Nat.testBit_lt_two_pow (by omega)]
        simp [Nat.not_lt.2 h]

/-- A lane is in the mask of the lanes where f holds exactly where f holds of it. -/
theorem testBit_maskWhere (f : Nat → Bool) (l : Nat) : (maskWhere f).testBit l = (decide (l < 16) && f l) :=
  (testBit_sum_pows f 16).2 l

@[simp] theorem bit_maskWhere (f : Nat → Bool) (l : Nat) : bit (maskWhere f) l = (decide (l < 16) && f l) := by
  rw [bit_eq_testBit, testBit_maskWhere]

@[simp] theorem Group.readP_zero (g : Group) (l : Nat) : g.readP 0 l = true := by simp [Group.readP]

/-- Under p0, not negated, every lane of the mask is active. -/
theorem Group.act_true {g : Group} {m : Nat} {h : Hdr} (hm : m < 65536) (hp : h.gp.val = 0) (hn : h.gn = false) : g.act m h = m := by
  refine Nat.eq_of_testBit_eq fun l => ?_
  rw [Group.act, testBit_maskWhere, hp, hn, ← bit_eq_testBit]
  by_cases hl : l < 16
  · simp [hl]
  · have : (2 : Nat) ^ 16 ≤ 2 ^ l := Nat.pow_le_pow_right (by decide) (by omega)
    simp [hl, bit_eq_testBit, Nat.testBit_lt_two_pow (show m < 2 ^ l by omega)]

/-- A class slot is present in a mask exactly where a lane of the mask is in it. -/
theorem Group.mem_classes {g : Group} {m c : Nat} : c ∈ g.classes m ↔ c < 16 ∧ ∃ l, l < 16 ∧ bit m l = true ∧ g.clsOf l = c := by
  simp [Group.classes, Spec.mem_lanesOf, and_assoc]

/-- A class slot is active exactly where it is present and the guard holds in it. -/
theorem Group.bit_actQ (g : Group) (m : Nat) (h : Hdr) (c : Nat) :
    bit (g.actQ m h) c = true ↔ c ∈ g.classes m ∧ (g.readQ h.gp.val).getLsbD c ≠ h.gn := by
  rw [bit_eq_testBit, Group.actQ, Group.classes, List.filter_filter, (testBit_sum_pows _ 16).2]
  simp [and_comm, and_left_comm]

end Sys2Proof.Machine

namespace Sys2Proof.Spec
open Sys2Proof.Machine

/-- Settles O5: the active lanes and the active class slots are masks of a filter, read bit by bit. -/
theorem activeLanes : Obligations.ActiveLanes := by
  refine ⟨fun g m h l hl => ?_, fun g m h hm hp hn => Group.act_true hm hp hn, fun g m h c hc => ?_⟩
  · cases hn : h.gn <;> simp [Group.act, hl, hn]
  · rw [Group.bit_actQ, Group.mem_classes]
    cases hn : h.gn <;> simp [hc]

end Sys2Proof.Spec
end

section
/-! SUPPORT. Runs of programs of writes, fetching at a PC, and the turn that an issuer is given (R14, R22, R49, O59). -/

namespace Sys2Proof.Machine

/-! ## Running a program of writes -/

@[simp] theorem runAll_skip (s : State) : runAll s (Prog.skip s) = s := rfl
@[simp] theorem runAll_put (s : State) (e : Effect) : runAll s (Prog.put e s) = e.run s := rfl

/-- A sequence runs its second program on what its first leaves. -/
@[simp] theorem runAll_seq (s : State) (p q : Prog) : runAll s (Prog.seq p q s) = runAll (runAll s (p s)) (q (runAll s (p s))) :=
  runAll_append ..

@[simp] theorem runAll_all_nil (s : State) : runAll s (Prog.all [] s) = s := rfl
@[simp] theorem runAll_all_cons (s : State) (p : Prog) (l : List Prog) :
    runAll s (Prog.all (p :: l) s) = runAll (runAll s (p s)) (Prog.all l (runAll s (p s))) := runAll_seq ..

@[simp] theorem runAll_each_nil {α : Type} (s : State) (f : α → Prog) : runAll s (Prog.each f [] s) = s := rfl
@[simp] theorem runAll_each_cons {α : Type} (s : State) (f : α → Prog) (a : α) (l : List α) :
    runAll s (Prog.each f (a :: l) s) = runAll (runAll s (f a s)) (Prog.each f l (runAll s (f a s))) := runAll_seq ..

@[simp] theorem Prog.when_true (p : Prog) : Prog.when true p = p := rfl
@[simp] theorem Prog.when_false (p : Prog) : Prog.when false p = Prog.skip := rfl

/-! ## Fetching -/

theorem getAt_eq_getD {α : Type} (d : α) : ∀ (l : List α) (i : Nat), getAt d l i = l.getD i d
  | [], _ => rfl
  | _ :: _, 0 => rfl
  | _ :: t, i + 1 => by simpa [getAt] using getAt_eq_getD d t i

/-- Where no pad word stands there is nothing to skip. -/
theorem skipPads_of_not_pad {text : List Byte} {len fuel pc : Nat} (h : textAt text pc 1 % 4 ≠ 3) : skipPads text len fuel pc = pc := by
  cases fuel with
  | zero => rfl
  | succ n => simp [skipPads, h]

/-- Fetch finds the instruction that the bytes at a PC decode to, where they start no pad word, lie in the text and cross no line (R14, R49). -/
theorem fetchText_of_decodes {cx : DecCtx} {worse : Nat → Bool} {text : List Byte} {pc n : Nat} {target : Bool} {i : Instr}
    (hpad : textAt text pc 1 % 4 ≠ 3) (hn : 8 * n = lenBits (textAt text pc 1 % 4)) (hin : pc + n ≤ text.length)
    (hline : pc % 32 + n ≤ 32) (hdec : decodeCore cx (textAt text pc n) = .ok i) :
    fetchText cx worse text pc target = .instr i pc := by
  have hlen : lenBits (textAt text pc 1 % 4) / 8 = n := by omega
  have hmin : 4 ≤ n := by
    have : 64 ≤ lenBits (textAt text pc 1 % 4) := by unfold lenBits; split <;> (try split) <;> omega
    omega
  have hpad' : (textAt text pc 1 % 4 == 3) = false := by simpa using hpad
  simp only [fetchText, hpad', Bool.and_false, Bool.false_eq_true, if_false, skipPads_of_not_pad hpad, hlen, hdec]
  rw [if_neg (by omega), if_neg (by omega), if_neg (by omega)]

/-! ## The turn of a group's fragment and of a context -/

/-- The free choices of a reading are drawn where there is something to choose (R22). -/
theorem mixDrawn_eq (w : Issuer) (s : State) :
    Prog.mixDrawn w s = if s.lateS w = [] then [] else [.fresh (s.fresh + (s.lateS w).length)] := by
  cases h : s.lateS w <;> simp [Prog.mixDrawn, Prog.on, h, Prog.skip, Prog.put]

/-- What giving a turn at its own PC writes, for a fragment of a group. -/
theorem turnAt_grp (s : State) (k j : Nat) :
    let g := s.groupsAt k
    Prog.turnAt (.grp k j) (g.frag j).pc s =
      [.turn (.grp k j), .groups k { g.setFrag j { g.frag j with target := false } with mix := s.mixOf (.grp k j) }] ++
        (Prog.mixDrawn (.grp k j) s ++ []) := rfl

theorem turnAt_ctx (s : State) (k : Nat) :
    let g := (s.ctxsAt k).g
    Prog.turnAt (.ctx k) (g.frag 0).pc s =
      [.turn (.ctx k), .ctxs k { s.ctxsAt k with g := { g.setFrag 0 { g.frag 0 with target := false } with mix := s.mixOf (.ctx k) } }] ++
        (Prog.mixDrawn (.ctx k) s ++ []) := rfl

theorem canIssue_grp {s : State} {k j : Nat} (hl : (s.groupsAt k).live = true) (hf : ((s.groupsAt k).frag j).fst = .live) :
    s.canIssue (.grp k j) = true := by
  simp [State.canIssue, hl, hf]

theorem canIssue_ctx {s : State} {k : Nat} (hs : (s.ctxsAt k).state = 1) (hf : ((s.ctxsAt k).g.frag 0).fst = .live) :
    s.canIssue (.ctx k) = true := by
  simp [State.canIssue, hs, hf]

/-- An issue that the agenda names executes what is fetched, once the issuer has its turn. -/
theorem step_of_issue {s : State} {rest : List Item} {w : Issuer} {i : Instr} {pc : Nat} (ha : s.agenda = .issue w :: rest)
    (hw : (s.withAgenda rest).canIssue w = true) (hf : (s.withAgenda rest).fetch w = some (.instr i pc)) :
    step s = exec i (runAll (s.withAgenda rest) (Prog.turnAt w pc (s.withAgenda rest))) := by
  simp only [step, ha, issueStep, hw, if_true, hf]

end Sys2Proof.Machine

namespace Sys2Proof.Spec
open Sys2Proof.Machine

/-- Settles O59: an issue fetches the instruction at the PC and runs it with the turn; the other items are the step's own cases. -/
theorem stepRunsDecoded : Obligations.StepRunsDecoded := by
  intro s rest i u mix drawn reads
  refine ⟨?group, ?context, ?pipe, ?event, ?plan, ?clock⟩
  case group =>
    rintro k j ha hl hf ⟨n, hpad, hn, hin, hline, hdec⟩
    have hfetch : u.fetch (.grp k j) = some (.instr i ((u.groupsAt k).frag j).pc) :=
      congrArg some (fetchText_of_decodes hpad hn hin hline hdec)
    rw [step_of_issue ha (canIssue_grp hl hf) hfetch]
    exact congrArg (fun l => exec i (runAll u l)) ((turnAt_grp u k j).trans (by rw [mixDrawn_eq, List.append_nil]; rfl))
  case context =>
    rintro k ha hs hf ⟨n, hpad, hn, hin, hline, hdec⟩
    have hfetch : u.fetch (.ctx k) = some (.instr i ((u.ctxsAt k).g.frag 0).pc) :=
      congrArg some (fetchText_of_decodes hpad hn hin hline hdec)
    rw [step_of_issue ha (canIssue_ctx hs hf) hfetch]
    exact congrArg (fun l => exec i (runAll u l)) ((turnAt_ctx u k).trans (by rw [mixDrawn_eq, List.append_nil]; rfl))
  case pipe =>
    intro d p r ha hr hready hdec
    have hrun : Tab.get (fun _ => none) ((s.withAgenda rest).efcsAt d).pipes p = some r := hr
    have hcan : (s.withAgenda rest).canIssue (.pipe d p) = true := by
      simp only [State.canIssue, hrun]; exact decide_eq_true hready
    have hfetch : (s.withAgenda rest).fetch (.pipe d p) = some (.instr i r.pc) := by
      simp only [State.fetch, hrun, getAt_eq_getD, hdec]
    rw [step_of_issue ha hcan hfetch]
    rfl
  case event => intro ha; simp only [step, ha]; rfl
  case plan => intro ha; simp only [step, ha]; rfl
  case clock => intro t ha; simp only [step, ha]; rfl

end Sys2Proof.Spec
end

section
/-! SUPPORT. What results leave in a group: the last result of a register stays, a counter loses what is released, and nothing else changes
(R19, R21, R22, O42). -/

namespace Sys2Proof.Machine

/-! ## The result that stays -/

/-- What stands in a register of value `old` after some results for it: the value of the last one. -/
def lastVal (old : Nat) (l : List Out) : Nat := (l.getLast?.map (·.val)).getD old

@[simp] theorem lastVal_nil (old : Nat) : lastVal old [] = old := rfl
@[simp] theorem lastVal_concat (old : Nat) (l : List Out) (o : Out) : lastVal old (l ++ [o]) = o.val := by simp [lastVal]

/-- A reading `rd` of a group, of n bits, that a result replaces where it hits and keeps where it does not. `P` is what the results keep. -/
structure ReadsLast (P : Group → Prop) (rd : Group → Nat) (n : Nat) (hit : Out → Bool) (outs : List Out) : Prop where
  keeps : ∀ o ∈ outs, ∀ g, P g → P (g.writeOut o)
  one : ∀ o ∈ outs, ∀ g, P g → rd (g.writeOut o) = if hit o then o.val % 2 ^ n else rd g
  small : ∀ g, rd g < 2 ^ n
  plain : ∀ o ∈ outs, hit o = true → o.sets = false

theorem ReadsLast.mono {P : Group → Prop} {rd : Group → Nat} {n : Nat} {hit : Out → Bool} {l l' : List Out}
    (h : ReadsLast P rd n hit l) (hs : ∀ o ∈ l', o ∈ l) : ReadsLast P rd n hit l' :=
  ⟨fun o ho => h.keeps o (hs o ho), fun o ho => h.one o (hs o ho), h.small, fun o ho => h.plain o (hs o ho)⟩

theorem ReadsLast.foldl {P : Group → Prop} {rd : Group → Nat} {n : Nat} {hit : Out → Bool} {l : List Out}
    (h : ReadsLast P rd n hit l) {g : Group} (hg : P g) :
    P (l.foldl Group.writeOut g) ∧ rd (l.foldl Group.writeOut g) = lastVal (rd g) (l.filter hit) % 2 ^ n := by
  induction l using List.reverseRecOn with
  | nil => exact ⟨hg, (Nat.mod_eq_of_lt (h.small g)).symm⟩
  | append_singleton l o ih =>
    obtain ⟨hP, hrd⟩ := ih (h.mono fun x hx => List.mem_append_left _ hx)
    have ho : o ∈ l ++ [o] := by simp
    rw [List.foldl_append, List.foldl_cons, List.foldl_nil, h.one o ho _ hP, List.filter_append]
    refine ⟨h.keeps o ho _ hP, ?_⟩
    cases hh : hit o <;> simp [hh, hrd]

/-- A register that results hit has the value of the last of them. -/
theorem ReadsLast.writeOuts {P : Group → Prop} {rd : Group → Nat} {n : Nat} {hit : Out → Bool} {l : List Out}
    (h : ReadsLast P rd n hit l) {g : Group} (hg : P g) :
    P (g.writeOuts l) ∧ rd (g.writeOuts l) = lastVal (rd g) (l.filter hit) % 2 ^ n := by
  have hsub : ∀ f : Out → Bool, ReadsLast P rd n hit (l.filter f) := fun f => h.mono fun o ho => (List.mem_filter.1 ho).1
  obtain ⟨hP1, hrd1⟩ := (hsub fun o => !o.sets).foldl hg
  obtain ⟨hP2, hrd2⟩ := (hsub Out.sets).foldl hP1
  have hnone : (l.filter Out.sets).filter hit = [] := by
    simp only [List.filter_eq_nil_iff, List.mem_filter]
    exact fun o ho hh => absurd (h.plain o ho.1 hh) (by simp [ho.2])
  have hall : (l.filter fun o => !o.sets).filter hit = l.filter hit := by
    rw [List.filter_filter]
    refine List.filter_congr fun o ho => ?_
    cases hh : hit o
    · rfl
    · simp [h.plain o ho hh]
  rw [hnone, lastVal_nil, Nat.mod_eq_of_lt (h.small _), hrd1, hall] at hrd2
  exact ⟨hP2, hrd2⟩

/-! ## The v and s registers -/

/-- Whether a result is for lane l of v register r, and for s register r. -/
def Out.hitsV (r l : Nat) (o : Out) : Bool := o.file == .v && o.reg == r && o.lane == l
def Out.hitsS (r : Nat) (o : Out) : Bool := o.file == .s && o.reg == r

theorem Group.writeOut_handler_none {g : Group} (h : g.handler = none) (o : Out) : (g.writeOut o).handler = none := by
  obtain ⟨f, r, l, x, m⟩ := o
  cases f <;> simp only [Group.writeOut, h] <;> (try split) <;> simp [h]

theorem Group.readV_writeOut (g : Group) (o : Out) (r l : Nat) : ((g.writeOut o).readV r l).toNat =
    if o.file == .v && 16 * o.reg + o.lane == 16 * r + l then o.val % 2 ^ 32 else (g.readV r l).toNat := by
  by_cases hv : o.file = .v
  · obtain ⟨f, r', l', x, m⟩ := o
    simp only at hv
    subst hv
    by_cases hk : 16 * r + l = 16 * r' + l'
    · simp [Group.readV, Group.writeOut_v, hk]
    · simp [Group.readV, Group.writeOut_v, Tab.get_put, hk, Ne.symm hk]
  · simp [Group.readV, Group.writeOut_v_of_ne hv, hv]

theorem Group.readS_writeOut {g : Group} (hg : g.handler = none) (o : Out) {r : Nat} (hr : r ≠ 0) : ((g.writeOut o).readS r).toNat =
    if o.hitsS r then o.val % 2 ^ 64 else (g.readS r).toNat := by
  have hget : ∀ g' : Group, g'.handler = none → g'.readS r = Tab.get (fun _ => 0) g'.s r := fun g' h => by simp [Group.readS, hr, h]
  rw [hget _ (Group.writeOut_handler_none hg o), hget _ hg]
  obtain ⟨f, r', l', x, m⟩ := o
  cases f
  case s =>
    by_cases h0 : r' = 0
    · simp [Group.writeOut, Out.hitsS, h0, Ne.symm hr]
    · by_cases hrr : r' = r
      · simp [Group.writeOut, Out.hitsS, hg, hrr, hr]
      · simp [Group.writeOut, Out.hitsS, hg, h0, hrr, Tab.get_put, Ne.symm hrr]
  all_goals (simp only [Group.writeOut, Out.hitsS]; (try split) <;> rfl)

/-- Lane l of v register r, by its place in the table. -/
theorem readsLast_key (r l : Nat) (outs : List Out) :
    ReadsLast (fun _ => True) (fun g => (g.readV r l).toNat) 32 (fun o => o.file == .v && 16 * o.reg + o.lane == 16 * r + l) outs :=
  ⟨fun _ _ _ _ => trivial, fun o _ g _ => g.readV_writeOut o r l, fun g => (g.readV r l).isLt,
   fun o _ h => by simp only [Bool.and_eq_true, beq_iff_eq] at h; simp [Out.sets, h.1]⟩

theorem readsLast_v {r l : Nat} (hl : l < 16) {outs : List Out} (ho : ∀ o ∈ outs, o.lane < 16) :
    ReadsLast (fun _ => True) (fun g => (g.readV r l).toNat) 32 (Out.hitsV r l) outs :=
  ⟨fun _ _ _ _ => trivial,
   fun o h g _ => by
     have hk : (16 * o.reg + o.lane == 16 * r + l) = (o.reg == r && o.lane == l) := by
       rw [Bool.eq_iff_iff]; simp [key_inj (ho o h) hl]
     simp [g.readV_writeOut o r l, Out.hitsV, hk, Bool.and_assoc],
   fun g => (g.readV r l).isLt,
   fun o _ h => by simp only [Out.hitsV, Bool.and_eq_true, beq_iff_eq] at h; simp [Out.sets, h.1.1]⟩

theorem readsLast_s {r : Nat} (hr : r ≠ 0) (outs : List Out) :
    ReadsLast (fun g => g.handler = none) (fun g => (g.readS r).toNat) 64 (Out.hitsS r) outs :=
  ⟨fun o _ _ h => Group.writeOut_handler_none h o, fun o _ _ h => Group.readS_writeOut h o hr, fun g => (g.readS r).isLt,
   fun o _ h => by simp only [Out.hitsS, Bool.and_eq_true, beq_iff_eq] at h; simp [Out.sets, h.1]⟩

/-! ## What results leave -/

/-- A result leaves the fragments and the results that are waiting or have landed. -/
theorem Group.writeOut_rest (g : Group) (o : Out) :
    (g.writeOut o).frags = g.frags ∧ (g.writeOut o).pend = g.pend ∧ (g.writeOut o).landed = g.landed := by
  obtain ⟨f, r, l, x, m⟩ := o
  cases f <;> unfold Group.writeOut <;> dsimp only <;> (repeat' split) <;> exact ⟨rfl, rfl, rfl⟩

theorem Group.writeOuts_rest (g : Group) (l : List Out) :
    (g.writeOuts l).frags = g.frags ∧ (g.writeOuts l).pend = g.pend ∧ (g.writeOuts l).landed = g.landed :=
  Group.writeOuts_inv (fun g' => g'.frags = g.frags ∧ g'.pend = g.pend ∧ g'.landed = g.landed) g
    (fun o _ g' ⟨hf, hp, hl⟩ =>
      have ⟨hf', hp', hl'⟩ := g'.writeOut_rest o
      ⟨hf'.trans hf, hp'.trans hp, hl'.trans hl⟩) ⟨rfl, rfl, rfl⟩

@[simp] theorem Group.frags_writeOuts (g : Group) (l : List Out) : (g.writeOuts l).frags = g.frags := (g.writeOuts_rest l).1
@[simp] theorem Group.pend_writeOuts (g : Group) (l : List Out) : (g.writeOuts l).pend = g.pend := (g.writeOuts_rest l).2.1
@[simp] theorem Group.landed_writeOuts (g : Group) (l : List Out) : (g.writeOuts l).landed = g.landed := (g.writeOuts_rest l).2.2

/-! ## Scoreboard counters -/

/-- One fragment's counter loses 1. -/
def Group.decOne (k : Nat) (g : Group) (i : Nat) : Group := g.setFrag i ((g.frag i).setSlot k ((g.frag i).slotAt k - 1))

theorem Group.decSlot_eq (g : Group) (hs : List Nat) (k : Nat) : g.decSlot hs k = if k = 0 then g else hs.foldl (Group.decOne k) g := rfl

theorem Group.slotAt_decOne (g : Group) (k i f m : Nat) :
    ((g.decOne k i).frag f).slotAt m = if f = i ∧ m = k then (g.frag f).slotAt m - 1 else (g.frag f).slotAt m := by
  by_cases hf : f = i
  · subst hf
    by_cases hm : m = k <;> simp [Group.decOne, hm]
  · simp [Group.decOne, hf]

theorem Group.slotAt_foldl_decOne (k f m : Nat) : ∀ (hs : List Nat) (g : Group), hs.Nodup →
    ((hs.foldl (Group.decOne k) g).frag f).slotAt m = if f ∈ hs ∧ m = k then (g.frag f).slotAt m - 1 else (g.frag f).slotAt m
  | [], _, _ => by simp
  | i :: t, g, h => by
    obtain ⟨hi, ht⟩ := List.nodup_cons.1 h
    rw [List.foldl_cons, Group.slotAt_foldl_decOne k f m t _ ht, Group.slotAt_decOne]
    by_cases hf : f = i
    · subst hf; simp [hi]
    · simp [hf]

/-- A covered event takes 1 from its slot in every fragment that holds a copy (R21, R128). -/
theorem Group.slotAt_decSlot (g : Group) {hs : List Nat} (h : hs.Nodup) (n f m : Nat) : ((g.decSlot hs n).frag f).slotAt m =
    if f ∈ hs ∧ m = n ∧ n ≠ 0 then (g.frag f).slotAt m - 1 else (g.frag f).slotAt m := by
  rw [Group.decSlot_eq]
  by_cases hn : n = 0
  · simp [hn]
  · simp [hn, Group.slotAt_foldl_decOne n f m hs g h]

theorem Group.foldl_decOne_rest (k : Nat) (g₀ : Group) : ∀ (hs : List Nat) (g : Group), { g with frags := g₀.frags } = g₀ →
    { hs.foldl (Group.decOne k) g with frags := g₀.frags } = g₀
  | [], _, h => h
  | _ :: t, _, h => Group.foldl_decOne_rest k g₀ t _ h

theorem Group.decSlot_rest (g : Group) (hs : List Nat) (n : Nat) : { g.decSlot hs n with frags := g.frags } = g := by
  rw [Group.decSlot_eq]
  split
  · rfl
  · exact Group.foldl_decOne_rest n g hs g rfl

/-- The releases of several results. -/
theorem Group.foldl_decSlot_rest (g₀ : Group) : ∀ (l : List Pend) (g : Group), { g with frags := g₀.frags } = g₀ →
    { l.foldl (fun g p => g.decSlot p.heirs p.slot) g with frags := g₀.frags } = g₀
  | [], _, h => h
  | p :: t, g, h => Group.foldl_decSlot_rest g₀ t _
      ((congrArg (fun x : Group => { x with frags := g₀.frags }) (g.decSlot_rest p.heirs p.slot)).trans h)

theorem Group.slotAt_foldl_decSlot (i n : Nat) : ∀ (l : List Pend) (g : Group), (∀ p ∈ l, p.heirs.Nodup) →
    ((l.foldl (fun g p => g.decSlot p.heirs p.slot) g).frag i).slotAt n =
      (g.frag i).slotAt n - if n = 0 then 0 else (l.filter fun p => decide (i ∈ p.heirs) && p.slot == n).length
  | [], _, _ => by simp
  | p :: t, g, h => by
    rw [List.foldl_cons, Group.slotAt_foldl_decSlot i n t _ (fun q hq => h q (by simp [hq])), Group.slotAt_decSlot _ (h p (by simp))]
    by_cases hn : n = 0
    · simp [hn]; omega
    · by_cases hp : i ∈ p.heirs ∧ p.slot = n
      · obtain ⟨hi, rfl⟩ := hp
        simp [hn, hi]; omega
      · have : ¬ (i ∈ p.heirs ∧ n = p.slot ∧ p.slot ≠ 0) := fun ⟨hi, hs, _⟩ => hp ⟨hi, hs.symm⟩
        simp [hn, hp, this]


/-! ## Results that land together -/

/-- The fixed-latency results that are readable by a cycle. -/
def Group.due (g : Group) (cyc : Nat) : List Pend := g.pend.filter fun p => decide (p.ready ≤ cyc)

/-- A group whose readable results have left the waiting ones, and that group once its registers have taken them. -/
def Group.landing (g : Group) (cyc : Nat) : Group :=
  { g with pend := g.pend.filter fun p => decide (cyc < p.ready), landed := g.due cyc }
def Group.taken (g : Group) (cyc : Nat) : Group := (g.landing cyc).writeOuts ((g.due cyc).flatMap Pend.outs)

theorem Group.commit_eq (g : Group) (cyc : Nat) :
    g.commit cyc = (g.due cyc).foldl (fun g p => g.decSlot p.heirs p.slot) (g.taken cyc) := by
  have hflat : ∀ l : List Pend, l.foldr (fun p l => p.outs ++ l) [] = l.flatMap Pend.outs := fun l => by
    induction l with
    | nil => rfl
    | cons p t ih => simp [ih]
  rw [Group.taken, ← hflat]
  rfl

/-- The releases change fragments only. -/
theorem Group.commit_rest (g : Group) (cyc : Nat) : { g.commit cyc with frags := (g.taken cyc).frags } = g.taken cyc := by
  rw [Group.commit_eq]
  exact Group.foldl_decSlot_rest _ _ _ rfl

theorem Group.pend_commit (g : Group) (cyc : Nat) : (g.commit cyc).pend = g.pend.filter fun p => decide (cyc < p.ready) :=
  (congrArg Group.pend (g.commit_rest cyc)).trans (Group.pend_writeOuts _ _)

theorem Group.landed_commit (g : Group) (cyc : Nat) : (g.commit cyc).landed = g.due cyc :=
  (congrArg Group.landed (g.commit_rest cyc)).trans (Group.landed_writeOuts _ _)

theorem Group.readV_commit (g : Group) (cyc r l : Nat) : ((g.commit cyc).readV r l).toNat =
    lastVal (g.readV r l).toNat (((g.due cyc).flatMap Pend.outs).filter fun o => o.file == .v && 16 * o.reg + o.lane == 16 * r + l) % 2 ^ 32 :=
  (congrArg (fun x : Group => (x.readV r l).toNat) (g.commit_rest cyc)).trans ((readsLast_key r l _).writeOuts trivial).2

theorem Group.readS_commit {g : Group} (hg : g.handler = none) (cyc : Nat) {r : Nat} (hr : r ≠ 0) : ((g.commit cyc).readS r).toNat =
    lastVal (g.readS r).toNat (((g.due cyc).flatMap Pend.outs).filter (Out.hitsS r)) % 2 ^ 64 :=
  (congrArg (fun x : Group => (x.readS r).toNat) (g.commit_rest cyc)).trans ((readsLast_s hr _).writeOuts (g := g.landing cyc) hg).2

theorem Group.slotAt_commit (g : Group) (cyc : Nat) (h : ∀ p ∈ g.due cyc, p.heirs.Nodup) (i n : Nat) : ((g.commit cyc).frag i).slotAt n =
    (g.frag i).slotAt n - if n = 0 then 0 else ((g.due cyc).filter fun p => decide (i ∈ p.heirs) && p.slot == n).length := by
  rw [Group.commit_eq, Group.slotAt_foldl_decSlot i n _ _ h]
  simp [Group.taken, Group.landing, Group.frag]

/-- Where nothing is readable, nothing happens. -/
theorem Group.commit_none {g : Group} {cyc : Nat} (h : g.due cyc = []) : g.commit cyc = { g with landed := [] } := by
  have hwait : (g.pend.filter fun p => decide (cyc < p.ready)) = g.pend := by
    rw [List.filter_eq_self]
    exact fun p hp => decide_eq_true (Nat.lt_of_not_le fun hle => List.filter_eq_nil_iff.1 h p hp (decide_eq_true hle))
  rw [Group.commit_eq, Group.taken, Group.landing, h, hwait]
  rfl

theorem Group.commit_one {g : Group} {cyc : Nat} {p : Pend} (h : g.pend = [p]) (hp : p.ready ≤ cyc) :
    g.commit cyc = ({ g with pend := [], landed := [p] }.writeOuts p.outs).decSlot p.heirs p.slot := by
  have hdue : g.due cyc = [p] := by simp [Group.due, h, hp]
  have hwait : (g.pend.filter fun p => decide (cyc < p.ready)) = [] := by simp [h, hp]
  rw [Group.commit_eq, Group.taken, Group.landing, hdue, hwait]
  simp

/-! ## Results of variable latency -/

/-- What younger instructions of fixed latency have written in a cycle (R22). -/
def Group.younger (g : Group) (cyc age : Nat) : List Out :=
  (g.landed.filter fun p => p.ready == cyc && decide (age < p.age)).flatMap Pend.outs

theorem Group.with_landed_self {g : Group} {x : List Pend} (h : g.landed = x) : { g with landed := x } = g := by subst h; rfl

/-- The results are written, and then what younger instructions wrote for the same registers. -/
theorem Group.landLate_eq (g : Group) (cyc age : Nat) (l : List Out) : { g.landLate cyc age l with landed := g.landed } =
    (g.writeOuts l).writeOuts ((g.younger cyc age).filter fun o => l.any o.same) := by
  have hyoung : (((g.landed.filter fun p => p.ready == cyc).filter fun p => decide (age < p.age)).flatMap fun p =>
      p.outs.filter fun o => l.any o.same) = (g.younger cyc age).filter fun o => l.any o.same := by
    simp [Group.younger, List.filter_flatMap, List.filter_filter, Bool.and_comm]
  rw [← hyoung]
  exact Group.with_landed_self (g := (g.writeOuts l).writeOuts _) (by simp)

theorem Group.landLate_alone {g : Group} {cyc : Nat} (h : ∀ p ∈ g.landed, p.ready ≠ cyc) (age : Nat) (l : List Out) :
    { g.landLate cyc age l with landed := g.landed } = g.writeOuts l := by
  have hnone : g.younger cyc age = [] := by
    have : (g.landed.filter fun p => p.ready == cyc && decide (age < p.age)) = [] := by
      rw [List.filter_eq_nil_iff]; exact fun p hp => by simp [h p hp]
    rw [Group.younger, this]; rfl
  rw [Group.landLate_eq, hnone]
  rfl

/-- The value that stays in a register: a younger instruction's, or else the last that lands, or the old one (R22). -/
def stays (hit : Out → Bool) (l younger : List Out) (old : Nat) : Nat :=
  if l.any hit = false then old else ((((younger.filter hit).getLast?.or (l.filter hit).getLast?).map (·.val)).getD 0)

/-- What stays, where the younger results for the registers that land are written behind the others. -/
theorem lastVal_behind {hit : Out → Bool} {l younger : List Out} {n old : Nat}
    (hsame : ∀ o x : Out, o.same x = true → hit x = hit o) (hhit : ∀ o x : Out, hit o = true → hit x = true → o.same x = true) :
    lastVal (lastVal old (l.filter hit) % 2 ^ n) ((younger.filter fun o => l.any o.same).filter hit) % 2 ^ n = stays hit l younger old % 2 ^ n := by
  cases hl : l.any hit with
  | false =>
    have hnone : ∀ x ∈ l, hit x = false := by simpa using hl
    have hmine : l.filter hit = [] := by rw [List.filter_eq_nil_iff]; exact fun x hx => by simp [hnone x hx]
    have hyoung : (younger.filter fun o => l.any o.same).filter hit = [] := by
      simp only [List.filter_eq_nil_iff, List.mem_filter, List.any_eq_true]
      rintro o ⟨_, x, hx, hs⟩ hh
      exact absurd ((hsame o x hs).trans hh) (by simp [hnone x hx])
    simp [hmine, hyoung, stays, hl]
  | true =>
    obtain ⟨x, hx, hxh⟩ := List.any_eq_true.1 hl
    have hyoung : (younger.filter fun o => l.any o.same).filter hit = younger.filter hit := by
      rw [List.filter_filter]
      refine List.filter_congr fun o _ => ?_
      cases hh : hit o with
      | false => rfl
      | true => simpa using ⟨x, hx, hhit o x hh hxh⟩
    have hmine : l.filter hit ≠ [] := fun h => List.filter_eq_nil_iff.1 h x hx hxh
    rw [hyoung, stays, if_neg (by simp [hl])]
    rcases List.eq_nil_or_concat (younger.filter hit) with hy | ⟨ys, y, hy⟩
    · obtain ⟨ms, m, hm⟩ := (List.eq_nil_or_concat (l.filter hit)).resolve_left hmine
      simp [hy, hm, List.concat_eq_append]
    · simp [hy, List.concat_eq_append]

/-- What stays in a register that is read with the last result. -/
theorem ReadsLast.landLate {P : Group → Prop} {rd : Group → Nat} {n : Nat} {hit : Out → Bool} {g : Group} {cyc age : Nat} {l : List Out}
    (h : ReadsLast P rd n hit (l ++ g.younger cyc age)) (hg : P g)
    (hsame : ∀ o x : Out, o.same x = true → hit x = hit o) (hhit : ∀ o x : Out, hit o = true → hit x = true → o.same x = true) :
    rd { g.landLate cyc age l with landed := g.landed } = stays hit l (g.younger cyc age) (rd g) % 2 ^ n := by
  obtain ⟨hP, hrd⟩ := (h.mono (l' := l) fun o ho => List.mem_append_left _ ho).writeOuts hg
  have hyoung := ((h.mono (l' := (g.younger cyc age).filter fun o => l.any o.same)
    fun o ho => List.mem_append_right _ (List.mem_filter.1 ho).1).writeOuts hP).2
  rw [Group.landLate_eq, hyoung, hrd]
  exact lastVal_behind hsame hhit

theorem Out.same_file {o x : Out} (h : o.same x = true) : o.file = x.file ∧ o.reg = x.reg := by
  simp only [Out.same, Bool.and_eq_true, beq_iff_eq] at h
  exact h.1

theorem Out.same_lane {o x : Out} (h : o.same x = true) (hv : o.file = .v) : o.lane = x.lane := by
  simp only [Out.same, Bool.and_eq_true, hv, beq_iff_eq] at h
  exact h.2

theorem Out.hitsV_of_same {r l : Nat} (o x : Out) (h : o.same x = true) : x.hitsV r l = o.hitsV r l := by
  obtain ⟨hf, hr⟩ := Out.same_file h
  by_cases hv : o.file = .v
  · simp [Out.hitsV, hf, hr, Out.same_lane h hv]
  · have hv' : (o.file == .v) = false := by simpa using hv
    simp [Out.hitsV, ← hf, hv']

theorem Out.same_of_hitsV {r l : Nat} (o x : Out) (ho : o.hitsV r l = true) (hx : x.hitsV r l = true) : o.same x = true := by
  simp only [Out.hitsV, Bool.and_eq_true, beq_iff_eq] at ho hx
  obtain ⟨⟨hof, hor⟩, hol⟩ := ho
  obtain ⟨⟨hxf, hxr⟩, hxl⟩ := hx
  simp [Out.same, hof, hor, hol, hxf, hxr, hxl]

theorem Out.hitsS_of_same {r : Nat} (o x : Out) (h : o.same x = true) : x.hitsS r = o.hitsS r := by
  obtain ⟨hf, hr⟩ := Out.same_file h
  simp [Out.hitsS, hf, hr]

theorem Out.same_of_hitsS {r : Nat} (o x : Out) (ho : o.hitsS r = true) (hx : x.hitsS r = true) : o.same x = true := by
  simp only [Out.hitsS, Bool.and_eq_true, beq_iff_eq] at ho hx
  simp [Out.same, ho.1, ho.2, hx.1, hx.2]

theorem Group.readV_landLate (g : Group) (cyc age : Nat) {l : List Out} {r j : Nat} (hj : j < 16)
    (hl : ∀ x ∈ l ++ g.younger cyc age, x.lane < 16) :
    ((g.landLate cyc age l).readV r j).toNat = stays (Out.hitsV r j) l (g.younger cyc age) (g.readV r j).toNat % 2 ^ 32 :=
  (readsLast_v hj hl).landLate trivial Out.hitsV_of_same Out.same_of_hitsV

theorem Group.readS_landLate {g : Group} (hg : g.handler = none) (cyc age : Nat) (l : List Out) {r : Nat} (hr : r ≠ 0) :
    ((g.landLate cyc age l).readS r).toNat = stays (Out.hitsS r) l (g.younger cyc age) (g.readS r).toNat % 2 ^ 64 :=
  (readsLast_s hr _).landLate hg Out.hitsS_of_same Out.same_of_hitsS

end Sys2Proof.Machine
end

section
/-! SUPPORT. Operations that land, read and end: what the events of a result, a load and a store leave (R19 to R22, R186, O42). -/

namespace Sys2Proof.Spec
open Sys2Proof.Machine

/-! ## One group and one operation change -/

/-- t is s but for the issuer's group, which is g', and operation n, which is x. -/
def Leaves (s t : State) (w : Issuer) (g' : Group) (n : Nat) (x : Option Op) : Prop :=
  Others { s with ops := t.ops } t w g' ∧ ∀ j, t.opsAt j = if j = n then x else s.opsAt j

theorem Leaves.opsAt_self {s t : State} {w : Issuer} {g' : Group} {n : Nat} {x : Option Op} (h : Leaves s t w g' n x) : t.opsAt n = x := by
  rw [h.2 n, if_pos rfl]

theorem Leaves.grp_eq {s t : State} {w : Issuer} {g' : Group} {n : Nat} {x : Option Op} (h : Leaves s t w g' n x) : t.grp w = g' := by
  obtain ⟨ho, -⟩ := h
  cases w with
  | grp k i => exact (ho.1 k).trans (if_pos rfl)
  | ctx k => exact (congrArg Ctx.g (ho.1 k)).trans (by rw [if_pos rfl])
  | pipe d p => exact ho.elim

theorem Leaves.trans {s t u : State} {w : Issuer} {g g' : Group} {n : Nat} {x y : Option Op}
    (h : Leaves s t w g n x) (h' : Leaves t u w g' n y) : Leaves s u w g' n y := by
  obtain ⟨ho, hx⟩ := h
  obtain ⟨ho', hy⟩ := h'
  refine ⟨?_, fun j => ?_⟩
  · cases w with
    | grp k i =>
      obtain ⟨hg, hr⟩ := ho
      obtain ⟨hg', hr'⟩ := ho'
      refine ⟨fun j => ?_, ?_⟩
      · rw [hg' j]
        split
        · rfl
        · rename_i hj; exact (hg j).trans (if_neg hj)
      · have h1 := congrArg (fun a : State => { a with groups := s.groups }) hr'
        have h2 := congrArg (fun a : State => { a with ops := u.ops }) hr
        exact h1.trans h2
    | ctx k =>
      obtain ⟨hg, hr⟩ := ho
      obtain ⟨hg', hr'⟩ := ho'
      refine ⟨fun j => ?_, ?_⟩
      · rw [hg' j]
        split
        · have : t.ctxsAt k = { s.ctxsAt k with g := g } := (hg k).trans (if_pos rfl)
          show { t.ctxsAt k with g := g' } = _
          rw [this]; rfl
        · rename_i hj; exact (hg j).trans (if_neg hj)
      · have h1 := congrArg (fun a : State => { a with ctxs := s.ctxs }) hr'
        have h2 := congrArg (fun a : State => { a with ops := u.ops }) hr
        exact h1.trans h2
    | pipe d p => exact ho.elim
  · rw [hy j]
    split
    · rfl
    · rename_i hj; rw [hx j, if_neg hj]

theorem ite_apply_self {α : Type} (f : Nat → α) (j k : Nat) : (if j = k then f k else f j) = f j := by
  split
  · rename_i hj; rw [hj]
  · rfl

section
variable {s : State} {w : Issuer} (hw : ∀ d p, w ≠ .pipe d p)
include hw

/-- A group is written back. -/
theorem leaves_grp (g : Group) (n : Nat) : Leaves s (runAll s (Prog.grp w g s)) w g n (s.opsAt n) := by
  have hops : ∀ j, (runAll s (Prog.grp w g s)).opsAt j = if j = n then s.opsAt n else s.opsAt j := fun j => by
    have : (runAll s (Prog.grp w g s)).opsAt j = s.opsAt j := by cases w <;> rfl
    rw [this, ite_apply_self]
  refine ⟨?_, hops⟩
  cases w with
  | grp k i => exact ⟨fun j => Tab.get_put k g j, rfl⟩
  | ctx k => exact ⟨fun j => Tab.get_put k _ j, rfl⟩
  | pipe d p => exact absurd rfl (hw d p)

/-- An operation is written, with all else as it stands. -/
theorem leaves_ops (q : Tab (Option Op)) {n : Nat} {x : Option Op} (hx : Tab.get (fun _ => none) q n = x)
    (hq : ∀ j, j ≠ n → Tab.get (fun _ => none) q j = s.opsAt j) : Leaves s { s with ops := q } w (s.grp w) n x := by
  refine ⟨?_, fun j => ?_⟩
  · cases w with
    | grp k i => exact ⟨fun j => (ite_apply_self (State.groupsAt s) j k).symm, rfl⟩
    | ctx k => exact ⟨fun j => (ite_apply_self (State.ctxsAt s) j k).symm, rfl⟩
    | pipe d p => exact absurd rfl (hw d p)
  · split
    · rename_i hj; rw [hj]; exact hx
    · rename_i hj; exact hq j hj

theorem leaves_putOp (n : Nat) (x : Option Op) : Leaves s (Effect.run s (.ops n x)) w (s.grp w) n x :=
  leaves_ops hw (Tab.put (fun _ => none) s.ops n x) (Tab.get_put_self ..) fun _ hj => Tab.get_put_ne hj

end

/-! ## The slot and the end of an operation -/

/-- The covered event of an operation takes 1 from its slot in every fragment that holds it (R21). -/
theorem leaves_slotEvent {s : State} {n : Nat} {o : Op} (hn : s.opsAt n = some o) (hw : ∀ d p, o.who ≠ .pipe d p) :
    Leaves s (runAll s (Prog.slotEvent n s)) o.who ((s.grp o.who).decSlot o.heirs o.slot) n (some { o with slot := 0 }) := by
  have hrun : Prog.slotEvent n s = Prog.seq (Prog.grp o.who ((s.grp o.who).decSlot o.heirs o.slot))
      (Prog.put (.ops n (some { o with slot := 0 }))) s := by simp [Prog.slotEvent, Prog.on, hn]
  have hgrp := leaves_grp (s := s) hw ((s.grp o.who).decSlot o.heirs o.slot) n
  have hput := leaves_putOp (s := runAll s (Prog.grp o.who ((s.grp o.who).decSlot o.heirs o.slot) s)) hw n (some { o with slot := 0 })
  rw [hgrp.grp_eq] at hput
  rw [hrun, runAll_seq]
  exact hgrp.trans hput

/-- A result or a load with nothing left to do ends. -/
theorem leaves_tidy {s : State} {n : Nat} {o : Op} {w : Issuer} (hn : s.opsAt n = some o) (hw : ∀ d p, w ≠ .pipe d p)
    (hkind : o.kind = .result ∨ ∃ sg, o.kind = .load sg) (houts : o.outs = []) (hdone : ∀ e ∈ o.elems, e.done = true) (hslot : o.slot = 0) :
    Leaves s (runAll s (Prog.tidy n s)) w (s.grp w) n none := by
  have hall : o.elems.all (·.done) = true := List.all_eq_true.2 hdone
  have hrun : Prog.tidy n s = Prog.put (.ops n none) s := by
    rcases hkind with hk | ⟨sg, hk⟩ <;> simp [Prog.tidy, Prog.on, hn, houts, hall, hslot, hk]
  rw [hrun]
  exact leaves_putOp hw n none

/-- All results of an operation are written: the registers take them, the slot loses 1, and the operation ends (R20, R21). -/
theorem leaves_writeBack {s : State} {n m : Nat} {o : Op} (hn : s.opsAt n = some o) (hw : ∀ d p, o.who ≠ .pipe d p)
    (hkind : o.kind = .result ∨ ∃ sg, o.kind = .load sg) (hne : o.outs ≠ []) (hin : ∀ x ∈ o.outs, x.inLanes m = true)
    (hready : ∀ x ∈ o.outs, o.ready x = true) (hdone : ∀ e ∈ o.elems, e.done = true) :
    Leaves s (runAll s (Prog.writeBack n m s)) o.who
      (((s.grp o.who).landLate s.cycle o.age (o.outs.map o.value)).decSlot o.heirs o.slot) n none := by
  have hnow : (o.outs.filter fun t => t.inLanes m && o.ready t) = o.outs := by
    rw [List.filter_eq_self]; exact fun x hx => by simp [hin x hx, hready x hx]
  have hleft : (o.outs.filter fun t => !(t.inLanes m && o.ready t)) = [] := by
    rw [List.filter_eq_nil_iff]; exact fun x hx => by simp [hin x hx, hready x hx]
  let g := (s.grp o.who).landLate s.cycle o.age (o.outs.map o.value)
  let empty : Op := { o with outs := [] }
  have hrun : Prog.writeBack n m s = Prog.all [Prog.grp o.who g, Prog.put (.ops n (some empty)), Prog.slotEvent n, Prog.tidy n] s := by
    have hne' : o.outs.isEmpty = false := by simpa using hne
    simp only [Prog.writeBack, Prog.on, hn, hnow, hleft, hne', List.isEmpty_nil, Bool.not_false, Bool.and_self, Prog.when_true]
    rfl
  rw [hrun, runAll_all_cons, runAll_all_cons, runAll_all_cons, runAll_all_cons, runAll_all_nil, runAll_put]
  have h1 := leaves_grp (s := s) hw g n
  generalize runAll s (Prog.grp o.who g s) = s1 at h1 ⊢
  have h2 := h1.trans (h1.grp_eq ▸ leaves_putOp (s := s1) hw n (some empty))
  generalize Effect.run s1 (.ops n (some empty)) = s2 at h2 ⊢
  have h3 := h2.trans (h2.grp_eq ▸ leaves_slotEvent (s := s2) (o := empty) h2.opsAt_self hw)
  generalize runAll s2 (Prog.slotEvent n s2) = s3 at h3 ⊢
  exact h3.trans (h3.grp_eq ▸ leaves_tidy (s := s3) h3.opsAt_self hw hkind rfl hdone rfl)

end Sys2Proof.Spec
end

section
/-! SUPPORT. A load of local memory reads its elements, one after another (R186, O42). -/

namespace Sys2Proof.Machine

/-! ## Tables, memory, lists and lanes -/

theorem Tab.mem_del {α : Type} : ∀ {t : Tab α} {k : Nat} {p : Nat × α}, p ∈ Tab.del t k → p ∈ t
  | [], _, _, h => h
  | (j, v) :: t, k, p, h => by
    unfold Tab.del at h
    split at h
    · exact List.mem_cons_of_mem _ (Tab.mem_del h)
    · rcases List.mem_cons.1 h with h | h
      · exact h ▸ List.mem_cons_self
      · exact List.mem_cons_of_mem _ (Tab.mem_del h)

/-- A write adds no entry but its own. -/
theorem Tab.mem_put {α : Type} [DecidableEq α] {d : Nat → α} : ∀ {t : Tab α} {k : Nat} {v : α} {p : Nat × α}, p ∈ Tab.put d t k v → p = (k, v) ∨ p ∈ t
  | [], k, v, p, h => by
    unfold Tab.put at h
    split at h
    · exact .inr h
    · exact .inl (List.mem_singleton.1 h)
  | (j, x) :: t, k, v, p, h => by
    have hdel : p ∈ Tab.del t k → p ∈ (j, x) :: t := fun h => List.mem_cons_of_mem _ (Tab.mem_del h)
    unfold Tab.put at h
    split at h
    · split at h
      · rcases List.mem_cons.1 h with h | h
        · exact .inr (h ▸ List.mem_cons_self)
        · exact .inr (hdel h)
      · exact List.mem_cons.1 h
    · split at h
      · split at h
        · exact .inr (hdel h)
        · rcases List.mem_cons.1 h with h | h
          · exact .inl h
          · exact .inr (List.mem_cons_of_mem _ h)
      · rcases List.mem_cons.1 h with h | h
        · exact .inr (h ▸ List.mem_cons_self)
        · exact (Tab.mem_put h).imp_right (List.mem_cons_of_mem _)

/-- What memory holds does not depend on the operations. -/
theorem bytes_with_ops (s : State) (q : Tab (Option Op)) : ∀ k len : Nat, ({ s with ops := q } : State).bytes k len = s.bytes k len
  | _, 0 => rfl
  | k, len + 1 => congrArg (s.memAt k :: ·) (bytes_with_ops s q (k + 1) len)

theorem setAt_append_cons {α : Type} (b : α) : ∀ (l : List α) (a : α) (r : List α), setAt (l ++ a :: r) l.length b = l ++ b :: r
  | [], _, _ => rfl
  | x :: l, a, r => congrArg (x :: ·) (setAt_append_cons b l a r)

theorem Out.inLanes_zero (t : Out) : t.inLanes 0 = false := by
  cases h : t.file <;> simp [Out.inLanes, h, bit]

end Sys2Proof.Machine

namespace Sys2Proof.Spec
open Sys2Proof.Machine

/-! ## The elements of a load -/

/-- An element of operation n that nothing holds back, in memory of the device, in lines that pass their checks. -/
structure Readable (s : State) (n : Nat) (o : Op) (e : Elem) : Prop where
  todo : e.got = false
  home : e.key < 2 ^ 80
  after : s.afterOk o = true
  granule : s.granuleFree n o e.key = true
  unreserved : s.reserved o.who (n :: o.after) e.key e.n false = false
  sound : s.lineBad e.key e.n = false

/-- The element with the bytes that stand at its location. -/
def filledFrom (s : State) (e : Elem) : Elem := { e with got := true, val := s.load e.key e.n, done := true }

/-- A table of operations in which operation n has the elements `es`, and the others are those of s. -/
structure Reading (s : State) (n : Nat) (o : Op) (q : Tab (Option Op)) (es : List Elem) : Prop where
  here : Tab.get (fun _ => none) q n = some { o with elems := es }
  rest : ∀ j, j ≠ n → Tab.get (fun _ => none) q j = s.opsAt j
  entries : ∀ p ∈ q, p ∈ s.ops ∨ ∃ es', p = (n, some { o with elems := es' })

theorem Reading.start {s : State} {n : Nat} {o : Op} (hn : s.opsAt n = some o) : Reading s n o s.ops o.elems :=
  ⟨hn, fun _ _ => rfl, fun _ hp => .inl hp⟩

theorem Reading.put {s : State} {n : Nat} {o : Op} {q : Tab (Option Op)} {es : List Elem} (h : Reading s n o q es) (es' : List Elem) :
    Reading s n o (Tab.put (fun _ => none) q n (some { o with elems := es' })) es' :=
  ⟨Tab.get_put_self .., fun j hj => (Tab.get_put_ne hj).trans (h.rest j hj), fun p hp => by
    rcases Tab.mem_put hp with rfl | hp
    · exact .inr ⟨es', rfl⟩
    · exact h.entries p hp⟩

/-- The other operations of the table are those of s. -/
theorem Reading.mem_ops {s : State} {n : Nat} {o : Op} {q : Tab (Option Op)} {es : List Elem} (h : Reading s n o q es) {p : Nat × Option Op}
    (hp : p ∈ q) (hne : p.1 ≠ n) : p ∈ s.ops :=
  (h.entries p hp).resolve_right fun ⟨_, he⟩ => hne (congrArg Prod.fst he)

/-! ## Nothing holds the reading back -/

/-- What a load waits for has ended. -/
theorem ended_of_afterOk {s : State} {o : Op} {sg : Bool} (hk : o.kind = .load sg) (ha : s.afterOk o = true) :
    ∀ j ∈ o.after, s.opsAt j = none := by
  intro j hj
  have := List.all_eq_true.1 ha j hj
  cases hj' : s.opsAt j with
  | none => rfl
  | some a => simp [State.holdsBack, hj', hk] at this

section
variable {s : State} {n : Nat} {o : Op} {sg : Bool} {q : Tab (Option Op)} {es : List Elem} {e : Elem}
variable (hk : o.kind = .load sg) (hn : s.opsAt n = some o) (hq : Reading s n o q es) (he : Readable s n o e)

include hk hn hq he in
theorem passes_reading : ({ s with ops := q } : State).passes { o with elems := es, rel := false } e.key e.n false = some [] := by
  have hended := ended_of_afterOk hk he.after
  have hnone : (o.after.filter (({ s with ops := q } : State).holdsBack { o with elems := es, rel := false } (!false))) = [] := by
    rw [List.filter_eq_nil_iff]
    intro j hj
    have hjn : j ≠ n := fun h => by
      have := hended j hj
      rw [h, hn] at this
      exact absurd this (by simp)
    have : ({ s with ops := q } : State).opsAt j = none := (hq.rest j hjn).trans (hended j hj)
    simp [State.holdsBack, this]
  unfold State.passes
  rw [hnone]
  rfl

include hq he in
theorem granuleFree_reading : ({ s with ops := q } : State).granuleFree n { o with elems := es, rel := false } e.key = true := by
  have hg := he.granule
  simp only [State.granuleFree, Bool.and_eq_true, Bool.not_eq_true', List.any_eq_false, decide_eq_true_eq] at hg ⊢
  refine ⟨hg.1, fun p hp => ?_⟩
  by_cases hlt : p.1 < n
  · refine hg.2 p ?_
    simp only [State.agentOps, List.mem_filterMap] at hp ⊢
    obtain ⟨r, hr, hrp⟩ := hp
    refine ⟨r, hq.mem_ops hr ?_, hrp⟩
    have : r.1 = p.1 := by
      cases hr2 : r.2 with
      | none => simp [hr2] at hrp
      | some a => simp only [hr2] at hrp; split at hrp <;> simp_all [Prod.ext_iff]
    omega
  · exact fun h => hlt h.1

/-- An access that meets no overtaking one, of a group that follows none, adds nothing to an operation. -/
theorem follow_none {t : State} {n : Nat} {o : Op} {key len : Nat} {a : Op}
    (hmeets : a.passed.find? (fun x => x.meets o.who (t.agentWgs o.who) key len false) = none)
    (hfollow : ∀ k i, o.who = .grp k i → a.passed.find? (fun x => x.trail == some k) = none) :
    t.follow n o key len false a = some none := by
  unfold State.follow
  rw [hmeets]
  cases hw : o.who with
  | grp k i => simp [hfollow k i hw]
  | ctx k => rfl
  | pipe d p => rfl

include hq he in
theorem follows_reading (hf : s.followedBy o.who = false) :
    ({ s with ops := q } : State).follows n { o with elems := es, rel := false } e.key e.n false = some [] := by
  unfold State.follows
  refine List.foldrRecOn (motive := (· = some [])) q _ rfl fun l hl p hp => ?_
  subst hl
  cases ha : p.2 with
  | none => rfl
  | some a =>
    by_cases hskip : p.1 = n ∨ p.1 ∈ o.after
    · exact if_pos hskip
    · have hmem : p ∈ s.ops := hq.mem_ops hp fun h => hskip (.inl h)
      have hmeets : a.passed.find? (fun x => x.meets o.who (s.agentWgs o.who) e.key e.n false) = none := by
        have := List.any_eq_false.1 he.unreserved p hmem
        simp only [ha, List.mem_cons, hskip, decide_false, Bool.not_false, Bool.true_and] at this
        simpa using this
      have htrail : ∀ k i, o.who = .grp k i → a.passed.find? (fun x => x.trail == some k) = none := fun k i hw => by
        rw [hw] at hf
        have := List.any_eq_false.1 hf p hmem
        simp only [ha] at this
        simpa using this
      have hnone : ({ s with ops := q } : State).follow n { o with elems := es, rel := false } e.key e.n false a = some none :=
        follow_none hmeets htrail
      dsimp only
      rw [if_neg hskip, hnone]

include hk hn hq he in
theorem touching_reading (hf : s.followedBy o.who = false) :
    ({ s with ops := q } : State).touching n { o with elems := es, rel := false } e.key e.n false = some [] := by
  simp [State.touching, granuleFree_reading hq he, follows_reading hq he hf, passes_reading hk hn hq he]

/-- An element that may be read takes the bytes at its location. -/
theorem readElem_eq {t : State} {n i : Nat} {o : Op} {sg : Bool} {e : Elem} (ht : t.opsAt n = some o) (hk : o.kind = .load sg)
    (hi : o.elems[i]? = some e) (htodo : e.got = false) (hhome : e.key < 2 ^ 80) (hsound : t.lineBad e.key e.n = false)
    (htouch : t.touching n { o with rel := false } e.key e.n false = some []) :
    Prog.readElem n i t = [.ops n (some (o.setElem i (filledFrom t e)))] := by
  have hpeer : isPeer e.key = false := by simpa [isPeer] using hhome
  have htmov : o.kind ≠ .tmov := by rw [hk]; exact OpKind.noConfusion
  have hdone : (o.kind != .tmov) = true := bne_iff_ne.2 htmov
  simp only [Prog.readElem, Prog.on, ht, hi, if_neg htmov, htodo, Bool.false_eq_true, if_false, htouch, hpeer, hsound, hdone]
  rfl

include hk hn hq he in
theorem run_readElem (hf : s.followedBy o.who = false) {i : Nat} (hi : es[i]? = some e) :
    runAll { s with ops := q } (Prog.readElem n i { s with ops := q }) =
      { s with ops := Tab.put (fun _ => none) q n (some { o with elems := setAt es i (filledFrom s e) }) } := by
  have hfill : filledFrom { s with ops := q } e = filledFrom s e := by
    simp only [filledFrom, State.load, bytes_with_ops]
  have htouch := touching_reading hk hn hq he hf
  rw [readElem_eq (t := { s with ops := q }) (o := { o with elems := es }) hq.here hk hi he.todo he.home he.sound htouch, hfill]
  rfl

/-- The elements of a load whose lanes are named, read in order. -/
def readSources (n m : Nat) (o : Op) : Nat → Prog := fun i => match o.elems[i]? with
  | some e => Prog.when (o.sources m e) (Prog.readElem n i)
  | none => Prog.skip

include hk hn in
/-- Read from some place on, all elements of a load stand filled. -/
theorem run_readSources (hf : s.followedBy o.who = false) {m : Nat} : ∀ (suf pre : List Elem) (q : Tab (Option Op)), o.elems = pre ++ suf →
    (∀ e ∈ suf, Readable s n o e ∧ o.sources m e = true) → Reading s n o q (pre.map (filledFrom s) ++ suf) →
    ∃ q', runAll { s with ops := q } (Prog.each (readSources n m o) (List.range' pre.length suf.length) { s with ops := q }) = { s with ops := q' } ∧
      Reading s n o q' (o.elems.map (filledFrom s))
  | [], pre, q, hsplit, _, hq => ⟨q, rfl, by simpa [hsplit] using hq⟩
  | e :: suf, pre, q, hsplit, hread, hq => by
    obtain ⟨he, hsrc⟩ := hread e List.mem_cons_self
    have hat : o.elems[pre.length]? = some e := by simp [hsplit]
    have hbody : readSources n m o pre.length = Prog.readElem n pre.length := by simp [readSources, hat, hsrc]
    have hset : setAt (pre.map (filledFrom s) ++ e :: suf) pre.length (filledFrom s e) = (pre ++ [e]).map (filledFrom s) ++ suf := by
      have := setAt_append_cons (filledFrom s e) (pre.map (filledFrom s)) e suf
      rw [List.length_map] at this
      simp [this]
    have hstep := run_readElem hk hn hq he hf (i := pre.length) (by simp)
    rw [hset] at hstep
    obtain ⟨q', hrun, hq'⟩ := run_readSources hf suf (pre ++ [e]) _ (by simp [hsplit])
      (fun x hx => hread x (List.mem_cons_of_mem _ hx)) (hq.put ((pre ++ [e]).map (filledFrom s) ++ suf))
    refine ⟨q', ?_, hq'⟩
    rw [List.length_cons, List.range'_succ, runAll_each_cons, hbody, hstep]
    simpa using hrun

end

/-! ## The events -/

/-- Lanes that name a result are not empty. -/
theorem ne_zero_of_inLanes {l : List Out} {m : Nat} (hne : l ≠ []) (h : ∀ x ∈ l, x.inLanes m = true) : m ≠ 0 := by
  rintro rfl
  obtain ⟨x, hx⟩ := List.exists_mem_of_ne_nil l hne
  exact absurd (h x hx) (by simp [Out.inLanes_zero])

/-- RESULT_WRITEBACK of a result known at issue, for some lane. -/
theorem exec_resultWriteback_result {s : State} {n : Nat} {o : Op} {m : Lanes} (hn : s.opsAt n = some o) (hk : o.kind = .result) (hm : m.toNat ≠ 0) :
    exec (.resultWriteback n m false) s = .next (runAll s (Prog.writeBack n m.toNat s)) := by
  show execResultWriteback n m false s = _
  simp [execResultWriteback, hn, hk, hm, Prog.go]

/-- RESULT_WRITEBACK of a load, for some lane: its elements are read first. -/
theorem exec_resultWriteback_load {s : State} {n : Nat} {o : Op} {sg : Bool} {m : Lanes} (hn : s.opsAt n = some o) (hk : o.kind = .load sg)
    (hm : m.toNat ≠ 0) : exec (.resultWriteback n m false) s =
      .next (runAll s (Prog.seq (Prog.each (readSources n m.toNat o) (List.range o.elems.length)) (Prog.writeBack n m.toNat) s)) := by
  show execResultWriteback n m false s = _
  simp only [execResultWriteback, hn, hk, Bool.false_eq_true, if_false, hm, Prog.when_true, Prog.go]
  rfl

/-- The results of an instruction of variable latency are written for all their lanes (R20, R21, R22). -/
theorem resultWriteback_lands {s : State} {n : Nat} {o : Op} {m : Lanes} (hn : s.opsAt n = some o) (hw : ∀ d p, o.who ≠ .pipe d p)
    (hne : o.outs ≠ []) (hin : ∀ x ∈ o.outs, x.inLanes m.toNat = true) (hk : o.kind = .result) (helems : o.elems = []) :
    ∃ t, exec (.resultWriteback n m false) s = .next t ∧
      Leaves s t o.who (((s.grp o.who).landLate s.cycle o.age o.outs).decSlot o.heirs o.slot) n none := by
  have hvalue : o.outs.map o.value = o.outs := by
    have : ∀ x ∈ o.outs, o.value x = x := fun x _ => by simp [Op.value, hk]
    simpa using List.map_congr_left this
  refine ⟨_, exec_resultWriteback_result hn hk (ne_zero_of_inLanes hne hin), ?_⟩
  have := leaves_writeBack hn hw (.inl hk) hne hin (fun x _ => by simp [Op.ready, hk]) (by simp [helems])
  rwa [hvalue] at this

/-- A load whose elements may all be read takes memory's values and ends (R186). -/
theorem resultWriteback_loads {s : State} {n : Nat} {o : Op} {sg : Bool} {m : Lanes} (hn : s.opsAt n = some o) (hw : ∀ d p, o.who ≠ .pipe d p)
    (hne : o.outs ≠ []) (hin : ∀ x ∈ o.outs, x.inLanes m.toNat = true) (hk : o.kind = .load sg)
    (hread : ∀ e ∈ o.elems, Readable s n o e ∧ o.sources m.toNat e = true) (hf : s.followedBy o.who = false) :
    let o' := { o with elems := o.elems.map (filledFrom s) }
    ∃ t, exec (.resultWriteback n m false) s = .next t ∧
      Leaves s t o.who (((s.grp o.who).landLate s.cycle o.age (o.outs.map o'.value)).decSlot o.heirs o.slot) n none := by
  intro o'
  refine ⟨_, exec_resultWriteback_load hn hk (ne_zero_of_inLanes hne hin), ?_⟩
  obtain ⟨q, hrun, hq⟩ := run_readSources hk hn hf o.elems [] s.ops rfl hread (Reading.start hn)
  have hrun' : runAll s (Prog.each (readSources n m.toNat o) (List.range o.elems.length) s) = { s with ops := q } := by
    rw [List.range_eq_range']; exact hrun
  have hfilled : ∀ e ∈ o'.elems, e.got = true ∧ e.done = true := fun e he => by
    obtain ⟨x, -, rfl⟩ := List.mem_map.1 he
    exact ⟨rfl, rfl⟩
  have hready : ∀ x ∈ o'.outs, o'.ready x = true := fun x _ => by
    have : o'.elems.all (fun e => e.lane != x.msk || e.got) = true := List.all_eq_true.2 fun e he => by simp [(hfilled e he).1]
    simp only [Op.ready, o', hk]
    exact this
  rw [runAll_seq, hrun']
  have hwrite := leaves_writeBack (s := { s with ops := q }) (o := o') (m := m.toNat) hq.here hw (.inr ⟨sg, hk⟩) hne hin hready fun e he => (hfilled e he).2
  have hgrp : ({ s with ops := q } : State).grp o.who = s.grp o.who := by cases o.who <;> rfl
  rw [show o'.who = o.who from rfl, hgrp] at hwrite
  exact (leaves_ops hw q hq.here hq.rest).trans hwrite

end Sys2Proof.Spec
end

section
/-! SUPPORT. A store reads its source registers (R20, R21, R22, O42). -/

namespace Sys2Proof.Spec
open Sys2Proof.Machine

/-- The group of registers as an instruction's operands are read now (R22). -/
def readingGroup (s : State) (w : Issuer) : Group := { s.grp w with mix := s.mixOf w }

/-- What a lane reads of an s register: the value that stands, or one that an outstanding write brings (R22). -/
theorem laneS_cases (s : State) (w : Issuer) (r l : Nat) :
    (readingGroup s w).laneS r l = (s.grp w).readS r ∨ (r, (readingGroup s w).laneS r l) ∈ s.lateS w := by
  have hread : (readingGroup s w).readS r = (s.grp w).readS r := rfl
  unfold Group.laneS
  cases hfind : (readingGroup s w).mix.find? fun p => p.1 == r with
  | none => exact .inl hread
  | some p =>
    dsimp only
    split
    · right
      have hr : p.1 = r := by simpa using List.find?_some hfind
      obtain ⟨x, hx, rfl⟩ := List.mem_map.1 (List.mem_of_find?_eq_some hfind)
      have hmem : x.1 ∈ s.lateS w := by
        have := List.mem_zipIdx hx
        simp [this.2.2]
      rw [← hr]
      exact hmem
    · exact .inl hread

/-- An s register as the source of an element. -/
theorem srcElem_sreg (s : State) (w : Issuer) {e : Elem} (hs : e.cmp = 1) :
    (readingGroup s w).srcElem e = ((s.grp w).readS e.reg).toNat % 2 ^ (8 * e.n) ∨
      ∃ x, (e.reg, x) ∈ s.lateS w ∧ (readingGroup s w).srcElem e = x.toNat % 2 ^ (8 * e.n) := by
  have hval : (readingGroup s w).srcElem e = ((readingGroup s w).laneS e.reg e.lane).toNat % 2 ^ (8 * e.n) := by
    simp [Group.srcElem, hs]
  rcases laneS_cases s w e.reg e.lane with h | h
  · exact .inl (by rw [hval, h])
  · exact .inr ⟨_, h, hval⟩

/-- A store that reads its sources, not having read them: it takes each element's value, and its slot loses 1. -/
theorem storeSourceRead_reads {s : State} {n : Nat} {o : Op} (hn : s.opsAt n = some o) (hw : ∀ d p, o.who ≠ .pipe d p) (hk : o.kind = .store)
    (hread : o.read = false) :
    let filled := fun e => { e with got := true, val := (readingGroup s o.who).srcElem e }
    ∃ t, exec (.storeSourceRead n) s = .next t ∧
      Leaves { s with fresh := s.fresh + (s.lateS o.who).length } t o.who ((s.grp o.who).decSlot o.heirs o.slot) n
        (some { o with read := true, slot := 0, elems := o.elems.map fun e => if e.got then e else filled e }) := by
  intro filled
  let o' : Op := { o with read := true, elems := o.elems.map fun e => if e.got then e else filled e }
  have hrun : exec (.storeSourceRead n) s =
      .next (runAll s (Prog.all [fun _ => Prog.mixDrawn o.who s, Prog.put (.ops n (some o')), Prog.slotEvent n] s)) := by
    have hgot : (o.kind == .store) = true := by rw [hk]; rfl
    have hkind : o.kind ≠ .operands := by rw [hk]; exact OpKind.noConfusion
    show execStoreSourceRead n s = _
    simp only [execStoreSourceRead, hn, hread, Bool.false_eq_true, if_false, if_neg hkind, hgot]
    rfl
  have hdrawn : runAll s (Prog.mixDrawn o.who s) = { s with fresh := s.fresh + (s.lateS o.who).length } := by
    rw [mixDrawn_eq]
    split
    · rename_i hnone; rw [hnone]; rfl
    · rfl
  refine ⟨_, hrun, ?_⟩
  rw [runAll_all_cons, runAll_all_cons, runAll_all_cons, runAll_all_nil, runAll_put, hdrawn]
  have hgrp : ({ s with fresh := s.fresh + (s.lateS o.who).length } : State).grp o.who = s.grp o.who := by cases o.who <;> rfl
  have h1 := leaves_putOp (s := { s with fresh := s.fresh + (s.lateS o.who).length }) hw n (some o')
  rw [hgrp] at h1
  generalize Effect.run _ (.ops n (some o')) = s1 at h1 ⊢
  exact h1.trans (h1.grp_eq ▸ leaves_slotEvent (s := s1) (o := o') h1.opsAt_self hw)

/-- The reading of an engine instruction's operands ends with its slot (R240). -/
theorem storeSourceRead_operands {s : State} {n : Nat} {o : Op} (hn : s.opsAt n = some o) (hw : ∀ d p, o.who ≠ .pipe d p) (hk : o.kind = .operands)
    (hread : o.read = false) :
    ∃ t, exec (.storeSourceRead n) s = .next t ∧ Leaves s t o.who ((s.grp o.who).decSlot o.heirs o.slot) n none := by
  have hrun : exec (.storeSourceRead n) s = .next (runAll s (Prog.seq (Prog.slotEvent n) (Prog.put (.ops n none)) s)) := by
    show execStoreSourceRead n s = _
    simp only [execStoreSourceRead, hn, hread, Bool.false_eq_true, if_false, hk, if_true]
    rfl
  refine ⟨_, hrun, ?_⟩
  rw [runAll_seq, runAll_put]
  have h1 := leaves_slotEvent hn hw
  generalize runAll s (Prog.slotEvent n s) = s1 at h1 ⊢
  exact h1.trans (h1.grp_eq ▸ leaves_putOp (s := s1) hw n none)

/-- Settles O42: the events of one operation by what they leave, and the landing of results by the last result of each register. -/
theorem resultsLand : Obligations.ResultsLand := by
  refine ⟨?operations, ?cycle, ?alone, ?together, ?slots⟩
  case operations =>
    rintro s n o w hn rfl hw g released
    refine ⟨fun m hne hin => ⟨fun hk helems => resultWriteback_lands hn hw hne hin hk helems, ?load⟩, ?store,
      fun hk hread => storeSourceRead_operands hn hw hk hread⟩
    case load =>
      intro sg hk hread hf
      refine resultWriteback_loads hn hw hne hin hk (fun e he => ?_) hf
      obtain ⟨htodo, hhome, hafter, hgran, hres, hbad, hsrc⟩ := hread e he
      exact ⟨⟨htodo, hhome, hafter, hgran, hres, hbad⟩, hsrc⟩
    case store =>
      intro hk hread
      obtain ⟨t, hexec, hothers, hops⟩ := storeSourceRead_reads hn hw hk hread
      refine ⟨t, (readingGroup s o.who).srcElem, hexec, hothers, hops, fun e => ⟨fun hs => ?_, fun hearly => ?_, fun hv => ?_⟩⟩
      · exact srcElem_sreg s o.who hs
      · simp [Group.srcElem, hearly]
      · simp only [Group.srcElem, hv]; rfl
  case cycle =>
    intro g cyc due outs g' takes
    exact ⟨g.pend_commit cyc, g.landed_commit cyc, g.readV_commit cyc, fun r hr hg => Group.readS_commit hg cyc hr, g.slotAt_commit cyc,
      Group.commit_none, fun p => Group.commit_one⟩
  case alone => exact fun g cyc age l h => Group.landLate_alone h age l
  case together =>
    intro g cyc age l younger last
    exact ⟨fun r j _ hj hlanes => g.readV_landLate cyc age hj hlanes, fun r hr hg => Group.readS_landLate hg cyc age l hr⟩
  case slots => exact fun g hs n f m h => ⟨g.slotAt_decSlot h n f m, g.decSlot_rest hs n⟩

end Sys2Proof.Spec
end

section
/-! SUPPORT. Codes of a format in the order of their magnitudes (R27, Table 2.1): a code below `signBit` stands for `codeMag` units of 2^−149, a strictly
increasing function of it. -/

namespace Sys2Proof.Machine
open Sys2Proof.Spec

/-! ## The magnitude of a code -/

/-- The least subnormal of a format is 2^(`quantum` − 149). -/
def quantum (f : Fmt) : Nat := 150 - bias f - fracBits f

/-- The significand of a code without sign, its leading bit restored. -/
def codeSig (f : Fmt) (c : Nat) : Nat := if c / 2 ^ fracBits f = 0 then c else c % 2 ^ fracBits f + 2 ^ fracBits f

/-- The magnitude of a code without sign, in units of the least subnormal; the exponent goes on above the format's. -/
def codeUnits (f : Fmt) (c : Nat) : Nat := codeSig f c * 2 ^ (c / 2 ^ fracBits f - 1)

/-- The magnitude of a code without sign, in units of 2^−149. -/
def codeMag (f : Fmt) (c : Nat) : Nat := codeUnits f c * 2 ^ quantum f

/-- A code as its binade and its significand, of which the upper end belongs to the next binade as well. -/
theorem codeUnits_binade (f : Fmt) {q n : Nat} (hn : n ≤ 2 * 2 ^ fracBits f) (hq : q = 0 ∨ 2 ^ fracBits f ≤ n) :
    codeUnits f (q * 2 ^ fracBits f + n) = n * 2 ^ q := by
  have hp : 0 < 2 ^ fracBits f := Nat.two_pow_pos _
  unfold codeUnits codeSig
  generalize 2 ^ fracBits f = p at *
  have hdiv : (q * p + n) / p = q + n / p := by rw [Nat.add_comm, Nat.add_mul_div_right _ _ hp, Nat.add_comm]
  have hmod : (q * p + n) % p = n % p := by rw [Nat.add_comm, Nat.add_mul_mod_self_right]
  rw [hdiv, hmod]
  rcases Nat.lt_or_ge n p with hlt | hge
  · obtain rfl : q = 0 := by omega
    simp [Nat.div_eq_of_lt hlt]
  rcases Nat.lt_or_ge n (2 * p) with hlt2 | hge2
  · have h1 : n / p = 1 := Nat.div_eq_of_lt_le (by omega) (by omega)
    have h2 : n % p = n - p := by rw [Nat.mod_eq_sub_mod hge, Nat.mod_eq_of_lt (by omega)]
    simp [h1, h2, Nat.sub_add_cancel hge]
  · obtain rfl : n = 2 * p := by omega
    simp [Nat.mul_div_cancel _ hp, pow_succ]
    ring

/-- Every code lies in a binade. -/
theorem exists_binade (f : Fmt) (c : Nat) :
    ∃ q n, c = q * 2 ^ fracBits f + n ∧ n < 2 * 2 ^ fracBits f ∧ (q = 0 ∨ 2 ^ fracBits f ≤ n) := by
  have hp : 0 < 2 ^ fracBits f := Nat.two_pow_pos _
  generalize 2 ^ fracBits f = p at *
  rcases Nat.lt_or_ge c p with h | h
  · exact ⟨0, c, by omega, by omega, .inl rfl⟩
  · have h1 : 1 ≤ c / p := (Nat.one_le_div_iff hp).2 h
    have h2 : (c / p - 1) * p + (c % p + p) = c := by
      obtain ⟨k, hk⟩ := Nat.exists_eq_add_of_le h1
      have := Nat.div_add_mod c p
      rw [hk] at this ⊢
      rw [Nat.add_sub_cancel_left]
      linarith [Nat.mul_comm p k]
    exact ⟨c / p - 1, c % p + p, h2.symm, by have := Nat.mod_lt c hp; omega, .inr (by omega)⟩

theorem codeUnits_strictMono (f : Fmt) : StrictMono (codeUnits f) := by
  refine strictMono_nat_of_lt_succ fun c => ?_
  obtain ⟨q, n, rfl, hn, hq⟩ := exists_binade f c
  rw [codeUnits_binade f hn.le hq, Nat.add_assoc, codeUnits_binade f hn (hq.imp_right fun h => h.trans n.le_succ)]
  exact Nat.mul_lt_mul_of_pos_right n.lt_succ_self (Nat.two_pow_pos q)

@[simp] theorem codeUnits_zero (f : Fmt) : codeUnits f 0 = 0 := by simp [codeUnits, codeSig]

theorem codeMag_strictMono (f : Fmt) : StrictMono (codeMag f) :=
  fun _ _ h => Nat.mul_lt_mul_of_pos_right (codeUnits_strictMono f h) (Nat.two_pow_pos _)

/-- The largest finite value is as far from the place above it, which has no finite code, as from the one below. -/
theorem codeMag_above_max (f : Fmt) : codeMag f (maxBits f + 1) + codeMag f (maxBits f - 1) = 2 * codeMag f (maxBits f) := by
  cases f <;> decide

/-! ## Finite codes are the signed codes up to the largest -/

theorem signBit_eq (f : Fmt) : signBit f = 2 ^ expBits f * 2 ^ fracBits f := pow_add ..

theorem fmtBits_eq (f : Fmt) : 2 ^ fmtBits f = 2 * signBit f := by
  rw [signBit, fmtBits, Nat.add_assoc, Nat.pow_add, pow_one]

theorem maxBits_lt_signBit (f : Fmt) : maxBits f < signBit f := by cases f <;> decide

/-- The sign bit stands above the exponent field. -/
theorem bit_withSign (f : Fmt) (neg : Bool) {c : Nat} (hc : c < signBit f) : bit (withSign f neg c) (expBits f + fracBits f) = neg := by
  have hbit : ∀ x, bit x (expBits f + fracBits f) = (x / signBit f % 2 == 1) := fun _ => rfl
  have hp : 0 < signBit f := Nat.two_pow_pos _
  rw [hbit]
  cases neg
  · simp [withSign, Nat.div_eq_of_lt hc]
  · simp [withSign, Nat.add_div_left _ hp, Nat.div_eq_of_lt hc]

/-- The sign bit touches neither the exponent nor the fraction field. -/
theorem expField_withSign (f : Fmt) (neg : Bool) {c : Nat} (hc : c < signBit f) :
    withSign f neg c / 2 ^ fracBits f % 2 ^ expBits f = c / 2 ^ fracBits f := by
  have hp : 0 < 2 ^ fracBits f := Nat.two_pow_pos _
  have hlt : c / 2 ^ fracBits f < 2 ^ expBits f := by rwa [Nat.div_lt_iff_lt_mul hp, ← signBit_eq]
  cases neg
  · simp [withSign, Nat.mod_eq_of_lt hlt]
  · rw [withSign, if_pos rfl, signBit_eq, Nat.add_comm, Nat.add_mul_div_right _ _ hp, Nat.add_mod_right, Nat.mod_eq_of_lt hlt]

theorem fracField_withSign (f : Fmt) (neg : Bool) (c : Nat) : withSign f neg c % 2 ^ fracBits f = c % 2 ^ fracBits f := by
  cases neg
  · simp [withSign]
  · rw [withSign, if_pos rfl, signBit_eq, Nat.add_comm, Nat.add_mul_mod_self_right]

/-- Above the largest finite value stand the NaN of E4M3 and, in the other formats, the codes whose exponent is all ones (Table 2.1). -/
theorem maxBits_lt_iff (f : Fmt) {c : Nat} (hc : c < signBit f) :
    maxBits f < c ↔ (f = .e4m3 ∧ c / 2 ^ fracBits f = 15 ∧ c % 2 ^ fracBits f = 7) ∨ (f ≠ .e4m3 ∧ c / 2 ^ fracBits f = 2 ^ expBits f - 1) := by
  cases f <;> simp [maxBits, infBits, signBit, expBits, fracBits] at hc ⊢ <;> omega

/-- A code up to the largest is finite, with the significand and the exponent of its fields. -/
theorem decodeFp_withSign (f : Fmt) (neg : Bool) {c : Nat} (hc : c ≤ maxBits f) :
    decodeFp f (withSign f neg c) = .fin neg (codeSig f c) (((quantum f + (c / 2 ^ fracBits f - 1) : Nat) : Int) - 149) := by
  have hlt := hc.trans_lt (maxBits_lt_signBit f)
  obtain ⟨hnan, hinf⟩ := not_or.1 (mt (maxBits_lt_iff f hlt).2 hc.not_gt)
  have hq : bias f + fracBits f ≤ 150 := by cases f <;> decide
  simp only [decodeFp, bit_withSign f neg hlt, expField_withSign f neg hlt, fracField_withSign, if_neg hnan, if_neg hinf, codeSig, quantum]
  split
  · rename_i h0
    rw [Nat.mod_eq_of_lt ((Nat.div_eq_zero_iff_lt (Nat.two_pow_pos _)).1 h0), h0]
    congr 1; omega
  · generalize c / 2 ^ fracBits f = k at *
    congr 1; omega

/-- A code below the sign bit that is not finite is an infinity or a NaN. -/
theorem decodeFp_withSign_ne_fin (f : Fmt) (neg : Bool) {c : Nat} (hc : c < signBit f) (hmax : maxBits f < c) (n : Bool) (m : Nat) (e : Int) :
    decodeFp f (withSign f neg c) ≠ .fin n m e := by
  simp only [decodeFp, bit_withSign f neg hc, expField_withSign f neg hc, fracField_withSign]
  rcases (maxBits_lt_iff f hc).1 hmax with h | h
  · simp [if_pos h]
  · rw [if_neg (fun h' => h.1 h'.1), if_pos h]
    split <;> exact Fp.noConfusion

theorem exists_withSign (f : Fmt) {x : Nat} (hx : x < 2 ^ fmtBits f) : ∃ neg c, c < signBit f ∧ x = withSign f neg c := by
  rw [fmtBits_eq] at hx
  rcases Nat.lt_or_ge x (signBit f) with h | h
  · exact ⟨false, x, h, rfl⟩
  · exact ⟨true, x - signBit f, by omega, by simp [withSign, h]⟩

theorem withSign_lt (f : Fmt) (neg : Bool) {c : Nat} (hc : c < signBit f) : withSign f neg c < 2 ^ fmtBits f := by
  rw [fmtBits_eq, withSign]
  split <;> omega

/-- The finite codes are the signed codes up to the largest. -/
theorem finite_iff (f : Fmt) (x : Nat) : Spec.Finite f x ↔ ∃ neg c, c ≤ maxBits f ∧ x = withSign f neg c := by
  constructor
  · rintro ⟨hx, n, m, e, hdec⟩
    obtain ⟨neg, c, hc, rfl⟩ := exists_withSign f hx
    exact ⟨neg, c, not_lt.1 fun hmax => decodeFp_withSign_ne_fin f neg hc hmax n m e hdec, rfl⟩
  · rintro ⟨neg, c, hc, rfl⟩
    exact ⟨withSign_lt f neg (hc.trans_lt (maxBits_lt_signBit f)), _, _, _, decodeFp_withSign f neg hc⟩

/-- The value of a finite code is its magnitude with its sign. -/
theorem scaled_withSign (f : Fmt) (neg : Bool) {c : Nat} (hc : c ≤ maxBits f) :
    scaled f (withSign f neg c) = (if neg then -1 else 1) * (codeMag f c : Int) := by
  simp only [scaled, decodeFp_withSign f neg hc, codeMag, codeUnits, sub_add_cancel, Int.toNat_natCast]
  push_cast
  ring

end Sys2Proof.Machine
end

section
/-! SUPPORT. Rounding a magnitude on an increasing scale (R30): the place that a value rounds to, said by which places it rounds to or below. -/

namespace Sys2Proof.Machine

/-- What a mode does with a magnitude: to the nearest place, to the one below, or to the one above. -/
inductive RoundDir where
  | near | down | up

/-- The direction of a mode for a sign (R30). -/
def roundDir : Rm → Bool → RoundDir
  | .rn, _ => .near
  | .rz, _ => .down
  | .rp, neg => if neg then .down else .up
  | .rminf, neg => if neg then .up else .down

/-- W rounds to place k of the scale g or to one below it; a tie goes to the even place. -/
def RoundDir.AtMost (g : Nat → Nat) (W k : Nat) : RoundDir → Prop
  | .near => 2 * W < g k + g (k + 1) ∨ (2 * W = g k + g (k + 1) ∧ k % 2 = 0)
  | .down => W < g (k + 1)
  | .up => W ≤ g k

/-- W rounds to place c of the scale g. -/
def RoundDir.Rounds (d : RoundDir) (g : Nat → Nat) (W c : Nat) : Prop := ∀ k, c ≤ k ↔ d.AtMost g W k

section
variable {d : RoundDir} {g : Nat → Nat} {W c k : Nat}

/-- Below a place of the scale, a value rounds at most to that place. -/
theorem RoundDir.atMost_of_le (hg : StrictMono g) (h : W ≤ g k) : d.AtMost g W k := by
  have := hg k.lt_add_one
  cases d <;> simp only [AtMost] <;> omega

/-- From a place of the scale on, a value does not round below that place. -/
theorem RoundDir.not_atMost_of_lt (hg : StrictMono g) (hW : g c ≤ W) (h : k < c) : ¬ d.AtMost g W k := by
  have h1 := hg k.lt_add_one
  have h2 : g (k + 1) ≤ g c := hg.monotone h
  cases d <;> simp only [AtMost] <;> omega

/-- Whether a value rounds at most to a place depends on that place, on the next one, and on which of them is even. -/
theorem RoundDir.atMost_congr {g' : Nat → Nat} {k' : Nat} (h0 : g k = g' k') (h1 : g (k + 1) = g' (k' + 1)) (heven : k % 2 = k' % 2) :
    d.AtMost g W k ↔ d.AtMost g' W k' := by
  cases d <;> simp only [AtMost, h0, h1, heven]

/-- A value that lies at or below a place rounds so, and one that lies at or above it. -/
theorem RoundDir.Rounds.le_of_le (h : d.Rounds g W c) (hg : StrictMono g) (hW : W ≤ g k) : c ≤ k := (h k).2 (atMost_of_le hg hW)
theorem RoundDir.Rounds.ge_of_ge (h : d.Rounds g W c) (hg : StrictMono g) (hW : g k ≤ W) : k ≤ c :=
  not_lt.1 fun hlt => not_atMost_of_lt hg hW hlt ((h c).1 le_rfl)

/-- Between two neighbouring places, the choice of one of them decides where a value rounds to. -/
theorem RoundDir.Rounds.of_floor (hg : StrictMono g) (hlo : g k ≤ W) (hhi : W ≤ g (k + 1)) (hc : k ≤ c) (hc' : c ≤ k + 1)
    (h : c ≤ k ↔ d.AtMost g W k) : d.Rounds g W c := by
  intro j
  rcases Nat.lt_trichotomy j k with hj | rfl | hj
  · exact iff_of_false (by omega) (not_atMost_of_lt hg hlo hj)
  · exact h
  · exact iff_of_true (by omega) (atMost_of_le hg (hhi.trans (hg.monotone hj)))

/-- Scaling the value and the scale alike moves no place. -/
theorem RoundDir.atMost_mul {A : Nat} (hA : 0 < A) : d.AtMost (fun j => g j * A) (W * A) k ↔ d.AtMost g W k := by
  have hsum : g k * A + g (k + 1) * A = (g k + g (k + 1)) * A := (Nat.add_mul ..).symm
  cases d <;> simp only [AtMost]
  case near => rw [hsum, ← Nat.mul_assoc, Nat.mul_lt_mul_right hA, Nat.mul_left_inj hA.ne']
  case down => exact Nat.mul_lt_mul_right hA
  case up => exact Nat.mul_le_mul_right_iff hA

theorem RoundDir.Rounds.mul {A : Nat} (hA : 0 < A) (h : d.Rounds g W c) : d.Rounds (fun j => g j * A) (W * A) c :=
  fun k => (h k).trans (atMost_mul hA).symm

end

/-- The multiples of a unit. -/
theorem strictMono_mul {D : Nat} (hD : 0 < D) : StrictMono fun k => k * D := fun _ _ h => Nat.mul_lt_mul_of_pos_right h hD

/-! ## What `roundUnits` does -/

/-- Whether a mode goes on to the next unit, of t units and r parts of the next one's D. -/
def roundsUp (rm : Rm) (neg : Bool) (D t r : Nat) : Bool :=
  match rm with
  | .rn => decide (D < 2 * r) || (decide (2 * r = D) && t % 2 == 1)
  | .rz => false
  | .rp => !neg && r != 0
  | .rminf => neg && r != 0

/-- A value that is a multiple of the unit stays. -/
theorem roundUnits_of_le (rm : Rm) (neg : Bool) (m : Nat) {e q : Int} (h : q ≤ e) :
    roundUnits rm neg m e q = (m * 2 ^ (e - q).toNat, false) := if_pos h

theorem roundUnits_of_lt (rm : Rm) (neg : Bool) (m : Nat) {e q : Int} (h : ¬ q ≤ e) :
    let D := 2 ^ (q - e).toNat
    roundUnits rm neg m e q = (if roundsUp rm neg D (m / D) (m % D) then m / D + 1 else m / D, m % D != 0) := if_neg h

/-- The part of a unit that is cut off decides in the direction of the mode. -/
theorem roundsUp_iff (rm : Rm) (neg : Bool) {D t r : Nat} (hr : r < D) :
    roundsUp rm neg D t r = false ↔ (roundDir rm neg).AtMost (fun k => k * D) (t * D + r) t := by
  have h : (t + 1) * D = t * D + D := by ring
  cases rm <;> cases neg <;> simp [roundsUp, roundDir, RoundDir.AtMost, h] <;> generalize t * D = x <;> omega

/-- A value rounds to the whole units in it, or to one more where it `up`s; the rest is not 0 exactly where the result is not the value. -/
theorem rounds_units {d : RoundDir} {D m : Nat} {up : Bool} (hD : 0 < D)
    (hup : up = false ↔ d.AtMost (fun k => k * D) (m / D * D + m % D) (m / D)) :
    let n := if up then m / D + 1 else m / D
    d.Rounds (fun k => k * D) m n ∧ ((m % D != 0) = true ↔ n * D ≠ m) := by
  have hg := strictMono_mul hD
  have hlt := Nat.mod_lt m hD
  have hnext : (m / D + 1) * D = m / D * D + D := by ring
  have hm := Nat.div_add_mod' m D
  rw [hm] at hup
  cases up with
  | false =>
    refine ⟨.of_floor (k := m / D) hg (by omega) (by omega) le_rfl (Nat.le_succ _) (iff_of_true le_rfl (hup.1 rfl)), ?_⟩
    simp only [bne_iff_ne, Bool.false_eq_true, if_false]
    omega
  | true =>
    have hmore : ¬ d.AtMost (fun k => k * D) m (m / D) := fun h => Bool.noConfusion (hup.2 h)
    refine ⟨.of_floor (k := m / D) hg (by omega) (by omega) (Nat.le_succ _) le_rfl (iff_of_false (by simp) hmore), ?_⟩
    have hrest : m % D ≠ 0 := fun h0 => hmore (RoundDir.atMost_of_le hg (by omega))
    simp only [bne_iff_ne, if_true]
    omega

/-- m · 2^(a − s) in units of 2^(b − s) is m · 2^a in units of 2^b: `roundUnits` rounds it, and tells whether the result is not the value. -/
theorem roundUnits_spec (rm : Rm) (neg : Bool) (m a b : Nat) (s : Int) :
    let r := roundUnits rm neg m ((a : Int) - s) ((b : Int) - s)
    (roundDir rm neg).Rounds (fun k => k * 2 ^ b) (m * 2 ^ a) r.1 ∧ (r.2 = true ↔ r.1 * 2 ^ b ≠ m * 2 ^ a) := by
  rcases Nat.lt_or_ge a b with hab | hab
  · obtain ⟨j, rfl⟩ := Nat.exists_eq_add_of_le hab.le
    have hj : (((a + j : Nat) : Int) - s - ((a : Int) - s)).toNat = j := by omega
    have hA : 0 < 2 ^ a := Nat.two_pow_pos a
    have hscale : ∀ k, k * 2 ^ (a + j) = k * 2 ^ j * 2 ^ a := fun k => by ring
    obtain ⟨hround, hrest⟩ := rounds_units (Nat.two_pow_pos j) (roundsUp_iff rm neg (t := m / 2 ^ j) (Nat.mod_lt m (Nat.two_pow_pos j)))
    rw [roundUnits_of_lt rm neg m (by omega), hj]
    simp only [hscale]
    exact ⟨hround.mul hA, hrest.trans (Nat.mul_left_inj hA.ne').not.symm⟩
  · obtain ⟨j, rfl⟩ := Nat.exists_eq_add_of_le hab
    have hj : (((b + j : Nat) : Int) - s - ((b : Int) - s)).toNat = j := by omega
    have hW : m * 2 ^ (b + j) = m * 2 ^ j * 2 ^ b := by ring
    have hg := strictMono_mul (Nat.two_pow_pos b)
    rw [roundUnits_of_le rm neg m (by omega), hj, hW]
    exact ⟨.of_floor hg le_rfl (hg (Nat.lt_add_one _)).le le_rfl (Nat.le_succ _) (iff_of_true le_rfl (RoundDir.atMost_of_le hg le_rfl)), by simp⟩

end Sys2Proof.Machine
end

section
/-! SUPPORT. `fpRound` on the scale of the codes of a format: the code that the exact value rounds to, and the flags (R30, R31, R34). -/

namespace Sys2Proof.Machine
open Sys2Proof.Spec

/-! ## The scale of the codes -/

/-- The magnitudes of the codes in units of 2^−u. -/
def codeScale (f : Fmt) (u c : Nat) : Nat := codeMag f c * 2 ^ (u - 149)

theorem codeScale_strictMono (f : Fmt) (u : Nat) : StrictMono (codeScale f u) :=
  fun _ _ h => Nat.mul_lt_mul_of_pos_right (codeMag_strictMono f h) (Nat.two_pow_pos _)

@[simp] theorem codeScale_zero (f : Fmt) (u : Nat) : codeScale f u 0 = 0 := by simp [codeScale, codeMag]

theorem codeScale_binade (f : Fmt) (u : Nat) {q n : Nat} (hn : n ≤ 2 * 2 ^ fracBits f) (hq : q = 0 ∨ 2 ^ fracBits f ≤ n) :
    codeScale f u (q * 2 ^ fracBits f + n) = n * 2 ^ (q + (quantum f + (u - 149))) := by
  rw [codeScale, codeMag, codeUnits_binade f hn hq]
  ring

/-- The smallest normal value. -/
theorem codeScale_normal (f : Fmt) (u : Nat) : codeScale f u (2 ^ fracBits f) = 2 ^ (fracBits f + (quantum f + (u - 149))) := by
  have := codeScale_binade f u (q := 0) (n := 2 ^ fracBits f) (by omega) (.inl rfl)
  simpa [pow_add] using this

theorem two_dvd_fracPow (f : Fmt) : 2 ∣ 2 ^ fracBits f := by cases f <;> decide

/-- Within a binade, rounding to whole units is rounding on the scale of the codes. -/
theorem rounds_codeScale (f : Fmt) (u : Nat) {d : RoundDir} {W q n : Nat} (hW : W < 2 * 2 ^ fracBits f * 2 ^ (q + (quantum f + (u - 149))))
    (hq : q = 0 ∨ 2 ^ fracBits f * 2 ^ (q + (quantum f + (u - 149))) ≤ W) (h : d.Rounds (fun k => k * 2 ^ (q + (quantum f + (u - 149)))) W n) :
    d.Rounds (codeScale f u) W (q * 2 ^ fracBits f + n) ∧
      codeScale f u (q * 2 ^ fracBits f + n) = n * 2 ^ (q + (quantum f + (u - 149))) := by
  have hbin : ∀ {n}, n ≤ 2 * 2 ^ fracBits f → _ → _ := fun {n} => codeScale_binade f u (q := q) (n := n)
  have heven := two_dvd_fracPow f
  have hD : 0 < 2 ^ (q + (quantum f + (u - 149))) := Nat.two_pow_pos _
  generalize 2 ^ (q + (quantum f + (u - 149))) = D at *
  generalize 2 ^ fracBits f = p at *
  have hg := strictMono_mul hD
  obtain ⟨t, ht⟩ : ∃ t, t = W / D := ⟨_, rfl⟩
  have hlo : t * D ≤ W := ht ▸ Nat.div_mul_le_self W D
  have hhi : W < (t + 1) * D := (Nat.div_lt_iff_lt_mul hD).1 (by omega)
  have ht2 : t < 2 * p := ht ▸ (Nat.div_lt_iff_lt_mul hD).2 hW
  have htq : q = 0 ∨ p ≤ t := hq.imp_right fun h => ht ▸ (Nat.le_div_iff_mul_le hD).2 h
  have hn : t ≤ n := h.ge_of_ge hg hlo
  have hn' : n ≤ t + 1 := h.le_of_le hg hhi.le
  have h0 : codeScale f u (q * p + t) = t * D := hbin ht2.le htq
  have h1 : codeScale f u (q * p + t + 1) = (t + 1) * D := by
    rw [Nat.add_assoc]; exact hbin ht2 (htq.imp_right fun h => h.trans t.le_succ)
  have hparity : (q * p + t) % 2 = t % 2 := by rw [Nat.add_mod, Nat.mod_eq_zero_of_dvd (heven.mul_left q)]; simp
  refine ⟨.of_floor (k := q * p + t) (codeScale_strictMono f u) (by omega) (by omega) (by omega) (by omega) ?_,
    hbin (by omega) (htq.imp_right fun h => h.trans hn)⟩
  rw [Nat.add_le_add_iff_left, h t]
  exact (RoundDir.atMost_congr (g' := fun k => k * D) h0 h1 hparity).symm

/-! ## Tiny results (R34) -/

/-- Whether a magnitude, rounded as though the exponent range were unbounded, stays below the smallest normal value N, where a significand has the
units 1 / P: the place below N is (4P − 2) / 4P · N. -/
def RoundDir.tiny (P N W : Nat) : RoundDir → Bool
  | .near => decide (4 * P * W < (4 * P - 1) * N)
  | .down => decide (W < N)
  | .up => decide (4 * P * W ≤ (4 * P - 2) * N)

theorem RoundDir.lt_of_tiny {d : RoundDir} {P N W : Nat} (hP : 0 < P) (hN : 0 < N) (h : d.tiny P N W = true) : W < N := by
  have h1 : (4 * P - 1) * N < 4 * P * N := Nat.mul_lt_mul_of_pos_right (by omega) hN
  have h2 : (4 * P - 2) * N < 4 * P * N := Nat.mul_lt_mul_of_pos_right (by omega) hN
  cases d <;> simp only [tiny, decide_eq_true_eq] at h
  case near => exact Nat.lt_of_mul_lt_mul_left (h.trans h1)
  case down => exact h
  case up => exact Nat.lt_of_mul_lt_mul_left (h.trans_lt h2)

/-- The place below N = 2 · A · J in units of A / P, and in units of its own binade: they differ only where W, below 2 · A, is far below both. -/
theorem atMost_iff_tiny {d : RoundDir} {A P J W : Nat} (hP : 0 < P) (hJ : J = 1 ∨ ∃ i, J = 2 * i ∧ 0 < i) (hW : W < 2 * A) :
    d.AtMost (fun k => k * A) (W * P) (2 * (J * P) - 1) ↔ d.tiny P (2 * (A * J)) W = true := by
  have hJP : 0 < J * P := by rcases hJ with rfl | ⟨i, rfl, hi⟩ <;> positivity
  have hodd : (2 * (J * P) - 1) % 2 = 1 := by omega
  have hnext : 2 * (J * P) - 1 + 1 = 2 * (J * P) := by omega
  have hX : W * P < 2 * (A * P) := by rw [← Nat.mul_assoc]; exact Nat.mul_lt_mul_of_pos_right hW hP
  have hAP : A ≤ A * P := Nat.le_mul_of_pos_right A hP
  have hplace : (2 * (J * P) - 1) * A = 2 * (A * P * J) - A := by rw [Nat.sub_mul, Nat.one_mul]; ring_nf
  have hplace' : 2 * (J * P) * A = 2 * (A * P * J) := by ring
  have hnear : (4 * P - 1) * (2 * (A * J)) = 8 * (A * P * J) - 2 * (A * J) := by rw [Nat.sub_mul, Nat.one_mul]; ring_nf
  have hup : (4 * P - 2) * (2 * (A * J)) = 8 * (A * P * J) - 4 * (A * J) := by rw [Nat.sub_mul]; ring_nf
  have hvalue : 4 * P * W = 4 * (W * P) := by ring
  cases d <;> simp only [RoundDir.AtMost, RoundDir.tiny, decide_eq_true_eq, hnext, hodd, hplace, hplace', hnear, hup, hvalue]
  case down => rw [show 2 * (A * P * J) = 2 * (A * J) * P by ring, Nat.mul_lt_mul_right hP]
  all_goals
    generalize W * P = X at *
    generalize A * P = B at *
    rcases hJ with rfl | ⟨i, rfl, hi⟩
    · simp only [Nat.mul_one]
      omega
    · have hBi : B ≤ B * i := Nat.le_mul_of_pos_right B hi
      have hAi : A * i ≤ B * i := Nat.mul_le_mul_right i hAP
      rw [Nat.mul_left_comm B, Nat.mul_left_comm A]
      generalize B * i = Y at *
      generalize A * i = Z at *
      omega

/-- A value of 2^L up to 2^(L + 1), below 2^K, rounded to the units of its own binade, is tiny where it stays below 2^K. -/
theorem rounds_lt_iff_tiny {d : RoundDir} {L K b W n : Nat} (hhi : W < 2 ^ (L + 1)) (hK : L < K)
    (h : d.Rounds (fun k => k * 2 ^ L) (W * 2 ^ b) n) : n < 2 ^ (K - L + b) ↔ d.tiny (2 ^ b) (2 ^ K) W = true := by
  obtain ⟨j, rfl⟩ := Nat.exists_eq_add_of_lt hK
  have hT : 2 ^ (L + j + 1 - L + b) = 2 * (2 ^ j * 2 ^ b) := by
    rw [show L + j + 1 - L + b = 1 + (j + b) by omega, pow_add, pow_add, pow_one]
  have hN : 2 ^ (L + j + 1) = 2 * (2 ^ L * 2 ^ j) := by ring
  have hj : 2 ^ j = 1 ∨ ∃ i, 2 ^ j = 2 * i ∧ 0 < i := by
    cases j with
    | zero => exact .inl rfl
    | succ j => exact .inr ⟨2 ^ j, by ring, Nat.two_pow_pos j⟩
  have hpos : 0 < 2 ^ j * 2 ^ b := by positivity
  rw [hT, hN, show n < 2 * (2 ^ j * 2 ^ b) ↔ n ≤ 2 * (2 ^ j * 2 ^ b) - 1 by omega, h]
  exact atMost_iff_tiny (Nat.two_pow_pos b) hj (by rwa [pow_succ, Nat.mul_comm] at hhi)

/-! ## `fpRound` -/

/-- The code and the flags of a value that rounds above the largest finite one (R31, R34). -/
def overflowed (f : Fmt) (rm : Rm) (sat neg : Bool) : Nat × Nat :=
  if toInf rm neg then
    (if f = .e4m3 then (if sat then (withSign f neg 0x7E, fOF + fNX) else (0x7F, fOF + fNX + fNV))
     else (withSign f neg (infBits f), fOF + fNX))
  else (withSign f neg (maxBits f), fOF + fNX)

/-- The flags of a magnitude W · 2^−u that is rounded to the finite code c (R34). -/
def finiteFlags (f : Fmt) (d : RoundDir) (u W c : Nat) : Nat :=
  if codeScale f u c = W then 0
  else fNX + (if d.tiny (2 ^ fracBits f) (codeScale f u (2 ^ fracBits f)) W then fUF else 0) +
    (if codeScale f u (maxBits f) < W then fOF else 0)

/-- `fpRound` with its parts named: the unit 2^q of the value's binade or of the least one, the place c, whether the value is tiny, and whether it was
rounded down. -/
theorem fpRound_units (f : Fmt) (rm : Rm) (sat neg : Bool) (m : Nat) (e : Int) {q qu : Int} {i c : Nat}
    (hqu : (Nat.log2 m : Int) + e - fracBits f = qu) (hq : max qu (1 - (bias f : Int) - fracBits f) = q)
    (hi : (q - (1 - (bias f : Int) - fracBits f)).toNat = i) (hc : i * 2 ^ fracBits f + (roundUnits rm neg m e q).1 = c) :
    let emin := 1 - (bias f : Int)
    let r := roundUnits rm neg m e q
    let tiny := decide ((Nat.log2 m : Int) + e < emin) && decide ((roundUnits rm neg m e qu).1 < 2 ^ (emin - qu).toNat)
    let down := decide (r.1 * 2 ^ (q - e).toNat < m)
    fpRound f rm sat neg m e = if maxBits f < c then overflowed f rm sat neg
      else (withSign f neg c, (if r.2 then fNX else 0) + (if tiny && r.2 then fUF else 0) + (if r.2 && c == maxBits f && down then fOF else 0)) := by
  subst hc hi hq hqu
  rfl

/-- At or below the largest finite code, the value is above the largest finite one exactly where it rounded down to that. -/
theorem RoundDir.Rounds.above_max_iff {d : RoundDir} {f : Fmt} {u W c : Nat} (h : d.Rounds (codeScale f u) W c) (hc : c ≤ maxBits f) :
    codeScale f u (maxBits f) < W ↔ c = maxBits f ∧ codeScale f u c < W :=
  ⟨fun hlt => by
    have hceq : c = maxBits f := hc.antisymm (h.ge_of_ge (codeScale_strictMono f u) hlt.le)
    exact ⟨hceq, hceq ▸ hlt⟩, fun ⟨hceq, hlt⟩ => hceq ▸ hlt⟩

/-- The flags that `fpRound` puts together: whether the result is not the value, whether that is tiny, and whether it is rounded down. -/
theorem finiteFlags_eq {f : Fmt} {d : RoundDir} {u W c : Nat} {ix tiny down : Bool} (h : d.Rounds (codeScale f u) W c) (hc : c ≤ maxBits f)
    (hix : ix = true ↔ codeScale f u c ≠ W) (htiny : tiny = d.tiny (2 ^ fracBits f) (codeScale f u (2 ^ fracBits f)) W)
    (hdown : ix = true → (down = true ↔ codeScale f u c < W)) :
    (if ix then fNX else 0) + (if tiny && ix then fUF else 0) + (if ix && c == maxBits f && down then fOF else 0) = finiteFlags f d u W c := by
  have habove := h.above_max_iff hc
  subst htiny
  unfold finiteFlags
  cases ix with
  | false => simp [of_not_not (mt hix.2 Bool.false_ne_true)]
  | true =>
    have hflag : (c == maxBits f && down) = decide (codeScale f u (maxBits f) < W) := by
      rw [Bool.eq_iff_iff, Bool.and_eq_true, beq_iff_eq, hdown rfl, decide_eq_true_eq, habove]
    rw [if_neg (hix.1 rfl), Bool.and_true, Bool.true_and, hflag]
    simp

/-- An inexact result of n units is below the value where it is so in units of 2^a. -/
theorem inexact_below_iff {rm : Rm} {neg : Bool} {m a b : Nat} {s : Int} (hix : (roundUnits rm neg m ((a : Int) - s) ((b : Int) - s)).2 = true)
    (n : Nat) : n * 2 ^ (((b : Int) - s) - ((a : Int) - s)).toNat < m ↔ n * 2 ^ b < m * 2 ^ a := by
  have hab : a ≤ b := not_lt.1 fun h => by
    rw [roundUnits_of_le rm neg m (by omega)] at hix
    exact Bool.noConfusion hix
  obtain ⟨j, rfl⟩ := Nat.exists_eq_add_of_le hab
  rw [show (((a + j : Nat) : Int) - s - ((a : Int) - s)).toNat = j by omega, Nat.add_comm a, pow_add, ← Nat.mul_assoc]
  exact (Nat.mul_lt_mul_right (Nat.two_pow_pos a)).symm

theorem two_pow_log2_bounds {m : Nat} (hm : 0 < m) (a : Nat) : 2 ^ (Nat.log2 m + a) ≤ m * 2 ^ a ∧ m * 2 ^ a < 2 ^ (Nat.log2 m + a + 1) := by
  rw [Nat.add_right_comm, pow_add, pow_add]
  exact ⟨Nat.mul_le_mul_right _ (Nat.log2_self_le hm.ne'), Nat.mul_lt_mul_of_pos_right Nat.lt_log2_self (Nat.two_pow_pos a)⟩

theorem quantum_eq (f : Fmt) : (quantum f : Int) = 150 - bias f - fracBits f := by cases f <;> rfl

/-- `fpRound` finds a tiny value by its binade and by its rounding in the units of that binade (R34). -/
theorem fpRound_tiny (f : Fmt) (rm : Rm) (neg : Bool) {m a u : Nat} (hm : 0 < m) (hu : 149 ≤ u) :
    let top := (Nat.log2 m : Int) + ((a : Int) - u)
    let emin := 1 - (bias f : Int)
    let qu := top - fracBits f
    (decide (top < emin) && decide ((roundUnits rm neg m ((a : Int) - u) qu).1 < 2 ^ (emin - qu).toNat)) =
      (roundDir rm neg).tiny (2 ^ fracBits f) (codeScale f u (2 ^ fracBits f)) (m * 2 ^ a) := by
  intro top emin qu
  obtain ⟨L, hL⟩ : ∃ L, L = Nat.log2 m + a := ⟨_, rfl⟩
  obtain ⟨K, hK⟩ : ∃ K, K = fracBits f + (quantum f + (u - 149)) := ⟨_, rfl⟩
  have hquant := quantum_eq f
  obtain ⟨hlo, hhi⟩ := two_pow_log2_bounds hm a
  rw [← hL] at hlo hhi
  have hbinade : top < emin ↔ L < K := by omega
  rw [codeScale_normal, ← hK, Bool.eq_iff_iff, Bool.and_eq_true, decide_eq_true_eq, decide_eq_true_eq, hbinade]
  rcases Nat.lt_or_ge L K with h | h
  · have hunit : qu = (L : Int) - (u + fracBits f : Nat) := by omega
    have he : (a : Int) - u = ((a + fracBits f : Nat) : Int) - (u + fracBits f : Nat) := by omega
    have hround := (roundUnits_spec rm neg m (a + fracBits f) L (u + fracBits f : Nat)).1
    rw [pow_add, ← Nat.mul_assoc, ← he, ← hunit] at hround
    rw [show (emin - qu).toNat = K - L + fracBits f by omega, rounds_lt_iff_tiny hhi h hround]
    exact and_iff_right h
  · refine iff_of_false (fun hlt => absurd hlt.1 h.not_gt) fun htiny => ?_
    have := RoundDir.lt_of_tiny (Nat.two_pow_pos _) (Nat.two_pow_pos K) htiny
    exact absurd (this.trans_le (Nat.pow_le_pow_right (by decide) h)) hlo.not_gt

/-- The value ±m · 2^(a − u) rounds, in the direction of the mode, to a place on the scale of the codes; that is its code up to the largest. -/
theorem fpRound_spec (f : Fmt) (rm : Rm) (sat neg : Bool) {m a u : Nat} (hm : 0 < m) (hu : 149 ≤ u) :
    ∃ c, (roundDir rm neg).Rounds (codeScale f u) (m * 2 ^ a) c ∧ fpRound f rm sat neg m ((a : Int) - u) =
      if maxBits f < c then overflowed f rm sat neg
      else (withSign f neg c, finiteFlags f (roundDir rm neg) u (m * 2 ^ a) c) := by
  obtain ⟨L, hL⟩ : ∃ L, L = Nat.log2 m + a := ⟨_, rfl⟩
  obtain ⟨i, hi⟩ : ∃ i, i = L - (fracBits f + (quantum f + (u - 149))) := ⟨_, rfl⟩
  have hquant := quantum_eq f
  obtain ⟨hlo, hhi⟩ := two_pow_log2_bounds hm a
  rw [← hL] at hlo hhi
  obtain ⟨hround, hrest⟩ := roundUnits_spec rm neg m a (i + (quantum f + (u - 149))) u
  have hbelow : m * 2 ^ a < 2 * 2 ^ fracBits f * 2 ^ (i + (quantum f + (u - 149))) := by
    refine hhi.trans_le ?_
    rw [← pow_succ', ← pow_add]
    exact Nat.pow_le_pow_right (by decide) (by omega)
  have hnormal : i = 0 ∨ 2 ^ fracBits f * 2 ^ (i + (quantum f + (u - 149))) ≤ m * 2 ^ a := by
    refine (Nat.eq_zero_or_pos i).imp_right fun hpos => le_trans ?_ hlo
    rw [← pow_add]
    exact Nat.pow_le_pow_right (by decide) (by omega)
  obtain ⟨hcode, hval⟩ := rounds_codeScale f u hbelow hnormal hround
  refine ⟨_, hcode, ?_⟩
  have hq : max ((Nat.log2 m : Int) + ((a : Int) - u) - fracBits f) (1 - (bias f : Int) - fracBits f) =
    ((i + (quantum f + (u - 149)) : Nat) : Int) - u := by omega
  rw [fpRound_units f rm sat neg m _ rfl hq (i := i) (by omega) rfl]
  split
  · rfl
  · rename_i hmax
    exact congrArg (Prod.mk _) (finiteFlags_eq hcode (not_lt.1 hmax) (by rw [hval]; exact hrest) (fpRound_tiny f rm neg hm hu) fun hix => by
      rw [decide_eq_true_eq, hval]; exact inexact_below_iff hix _)

end Sys2Proof.Machine
end

section
/-! SUPPORT. The rounded code in the words of the spec (R30, R31): the closest of the finite codes that the mode allows, or what stands for an overflow. -/

namespace Sys2Proof.Machine
open Sys2Proof.Spec

/-! ## Places of a scale by their distances -/

section
variable {g : Nat → Nat} {W c : Nat}

theorem RoundDir.Rounds.down_spec (hg : StrictMono g) (h0 : g 0 = 0) (h : RoundDir.down.Rounds g W c) :
    g c ≤ W ∧ ∀ k, g k ≤ W → k ≤ c := by
  refine ⟨?_, fun _ => h.ge_of_ge hg⟩
  rcases c with _ | c
  · omega
  · exact not_lt.1 fun hlt => absurd ((h c).2 hlt) (Nat.not_succ_le_self c)

theorem RoundDir.Rounds.up_spec (hg : StrictMono g) (h : RoundDir.up.Rounds g W c) : W ≤ g c ∧ ∀ k, W ≤ g k → c ≤ k :=
  ⟨(h c).1 le_rfl, fun _ => h.le_of_le hg⟩

/-- The nearest place: no other is nearer, and of two as near the even one is taken. -/
theorem RoundDir.Rounds.near_spec (hg : StrictMono g) (h : RoundDir.near.Rounds g W c) (k : Nat) :
    |(g c : Int) - W| ≤ |(g k : Int) - W| ∧ (|(g k : Int) - W| = |(g c : Int) - W| → g k ≠ g c → c % 2 = 0) := by
  have hc : RoundDir.near.AtMost g W c := (h c).1 le_rfl
  simp only [AtMost] at hc
  simp only [Int.abs_eq_natAbs]
  rcases Nat.lt_trichotomy k c with hlt | rfl | hlt
  · obtain ⟨j, rfl⟩ : ∃ j, c = j + 1 := ⟨c - 1, by omega⟩
    have hj : ¬ RoundDir.near.AtMost g W j := fun h' => absurd ((h j).2 h') (Nat.not_succ_le_self j)
    have hkj : g k ≤ g j := hg.monotone (by omega)
    have hjj := hg j.lt_add_one
    simp only [AtMost] at hj
    omega
  · simp
  · have h1 : g (c + 1) ≤ g k := hg.monotone hlt
    have h2 := hg c.lt_add_one
    omega

end

/-! ## The closest finite code -/

/-- The factor of a sign. -/
def signInt (neg : Bool) : Int := if neg then -1 else 1

@[simp] theorem signInt_false_mul (x : Int) : signInt false * x = x := one_mul x
@[simp] theorem signInt_true_mul (x : Int) : signInt true * x = -x := neg_one_mul x

/-- Code r is a finite code whose value is allowed, and no allowed value of a finite code is closer to V. -/
def IsClosest (f : Fmt) (u : Nat) (V : Int) (ok : Int → Prop) (r : Nat) : Prop :=
  Spec.Finite f r ∧ ok (scaled f r * 2 ^ (u - 149)) ∧
    ∀ c, Spec.Finite f c → ok (scaled f c * 2 ^ (u - 149)) → |scaled f r * 2 ^ (u - 149) - V| ≤ |scaled f c * 2 ^ (u - 149) - V|

section
variable {f : Fmt} {u W c : Nat} {neg : Bool} {ok : Int → Prop}

/-- The value of a finite code in units of 2^−u. -/
theorem scaled_mul_withSign (hc : c ≤ maxBits f) :
    scaled f (withSign f neg c) * 2 ^ (u - 149) = signInt neg * (codeScale f u c : Int) := by
  rw [scaled_withSign f neg hc, codeScale, signInt]
  push_cast
  ring

/-- Values of one sign are as far apart as their magnitudes; of two signs, as their sum. -/
theorem abs_signInt_sub (neg n : Bool) (x y : Nat) :
    |signInt n * (x : Int) - signInt neg * (y : Int)| = if n = neg then |(x : Int) - y| else (x : Int) + y := by
  cases n <;> cases neg <;> simp [signInt, Int.abs_eq_natAbs, -Nat.cast_natAbs] <;> omega

/-- A code is the closest one where it is so by the magnitudes, among the codes of its sign and of the other. -/
theorem IsClosest.of_magnitudes (hc : c ≤ maxBits f) (hok : ok (signInt neg * codeScale f u c))
    (hsame : ∀ k, k ≤ maxBits f → ok (signInt neg * codeScale f u k) → |(codeScale f u c : Int) - W| ≤ |(codeScale f u k : Int) - W|)
    (hother : ∀ k, k ≤ maxBits f → ok (signInt (!neg) * codeScale f u k) → |(codeScale f u c : Int) - W| ≤ codeScale f u k + W) :
    IsClosest f u (signInt neg * W) ok (withSign f neg c) := by
  refine ⟨(finite_iff f _).2 ⟨neg, c, hc, rfl⟩, scaled_mul_withSign hc ▸ hok, fun x hx hxok => ?_⟩
  obtain ⟨n, k, hk, rfl⟩ := (finite_iff f x).1 hx
  rw [scaled_mul_withSign hk] at hxok
  rw [scaled_mul_withSign hc, scaled_mul_withSign hk, abs_signInt_sub, abs_signInt_sub, if_pos rfl]
  split
  · rename_i h; subst h; exact hsame k hk hxok
  · rename_i h
    obtain rfl : n = !neg := Bool.eq_not_of_ne h
    exact hother k hk hxok

/-- Rounding toward zero gives the closest code where the mode allows the magnitudes up to the value's. -/
theorem IsClosest.of_down (h : RoundDir.down.Rounds (codeScale f u) W c)
    (hok : ∀ k, ok (signInt neg * codeScale f u k) ↔ codeScale f u k ≤ W) :
    IsClosest f u (signInt neg * W) ok (withSign f neg (min c (maxBits f))) := by
  have hg := codeScale_strictMono f u
  obtain ⟨hle, hmost⟩ := h.down_spec hg (codeScale_zero f u)
  have hmin : codeScale f u (min c (maxBits f)) ≤ W := (hg.monotone (min_le_left ..)).trans hle
  refine .of_magnitudes (min_le_right ..) ((hok _).2 hmin) (fun k hk hkok => ?_) (fun k _ _ => by rw [Int.abs_eq_natAbs]; omega)
  have hkW := (hok k).1 hkok
  have : codeScale f u k ≤ codeScale f u (min c (maxBits f)) := hg.monotone (le_min (hmost k hkW) hk)
  simp only [Int.abs_eq_natAbs]
  omega

/-- Rounding away from zero gives the closest code where the mode allows the magnitudes from the value's on. -/
theorem IsClosest.of_up (h : RoundDir.up.Rounds (codeScale f u) W c) (hc : c ≤ maxBits f)
    (hok : ∀ k, ok (signInt neg * codeScale f u k) ↔ W ≤ codeScale f u k) (hother : ∀ k, ¬ ok (signInt (!neg) * codeScale f u k)) :
    IsClosest f u (signInt neg * W) ok (withSign f neg c) := by
  have hg := codeScale_strictMono f u
  obtain ⟨hle, hleast⟩ := h.up_spec hg
  refine .of_magnitudes hc ((hok c).2 hle) (fun k hk hkok => ?_) (fun k hk hkok => absurd hkok (hother k))
  have : codeScale f u c ≤ codeScale f u k := hg.monotone (hleast k ((hok k).1 hkok))
  have := (hok k).1 hkok
  simp only [Int.abs_eq_natAbs]
  omega

/-- Rounding to nearest gives the closest code of all. -/
theorem IsClosest.of_near (h : RoundDir.near.Rounds (codeScale f u) W c) (hc : c ≤ maxBits f) :
    IsClosest f u (signInt neg * W) (fun _ => True) (withSign f neg c) := by
  have hnear := h.near_spec (codeScale_strictMono f u)
  refine .of_magnitudes hc trivial (fun k _ _ => (hnear k).1) (fun k _ _ => (hnear 0).1.trans ?_)
  simp only [codeScale_zero, Int.abs_eq_natAbs]
  omega

end

/-! ## Overflow -/

/-- The code in place of a magnitude that rounds above the largest finite one, where it does not round down (R31). -/
theorem overflowed_code {f : Fmt} {rm : Rm} {neg : Bool} (h : toInf rm neg = true) :
    (overflowed f rm false neg).1 = if f = .e4m3 then 0x7F else withSign f neg (infBits f) := by
  simp only [overflowed, h, if_true]
  split <;> rfl

theorem overflowed_down {f : Fmt} {rm : Rm} {neg : Bool} (h : toInf rm neg = false) (sat : Bool) :
    overflowed f rm sat neg = (withSign f neg (maxBits f), fOF + fNX) := by
  simp only [overflowed, h, Bool.false_eq_true, if_false]

/-- The code of a magnitude that rounds to place c, without saturation. -/
def resultCode (f : Fmt) (rm : Rm) (neg : Bool) (c : Nat) : Nat :=
  if maxBits f < c then (overflowed f rm false neg).1 else withSign f neg c

section
variable {f : Fmt} {rm : Rm} {u W c : Nat} {neg : Bool}

theorem resultCode_over (hto : toInf rm neg = true) (hc : maxBits f < c) :
    resultCode f rm neg c = if f = .e4m3 then 0x7F else withSign f neg (infBits f) := by
  rw [resultCode, if_pos hc, overflowed_code hto]

theorem resultCode_of_le (hc : c ≤ maxBits f) : resultCode f rm neg c = withSign f neg c := if_neg hc.not_gt

theorem resultCode_down (h : toInf rm neg = false) : resultCode f rm neg c = withSign f neg (min c (maxBits f)) := by
  rcases Nat.lt_or_ge (maxBits f) c with hc | hc
  · rw [resultCode, if_pos hc, overflowed_down h, min_eq_right hc.le]
  · rw [resultCode_of_le hc, min_eq_left hc]

/-- The value of the largest finite code in units of 2^−u, as the spec's rules write it. -/
theorem scaled_max (f : Fmt) (u : Nat) : scaled f (maxBits f) * 2 ^ (u - 149) = codeScale f u (maxBits f) := by
  exact (scaled_mul_withSign (neg := false) le_rfl).trans (one_mul _)

theorem scaled_below_max (f : Fmt) (u : Nat) : scaled f (maxBits f - 1) * 2 ^ (u - 149) = codeScale f u (maxBits f - 1) := by
  exact (scaled_mul_withSign (neg := false) (Nat.sub_le ..)).trans (one_mul _)

theorem codeScale_above_max (f : Fmt) (u : Nat) :
    codeScale f u (maxBits f + 1) + codeScale f u (maxBits f - 1) = 2 * codeScale f u (maxBits f) := by
  simp only [codeScale, ← Nat.add_mul, codeMag_above_max, Nat.mul_assoc]

/-- Above the largest finite value by half its distance to the one below, with a tie where its code is odd. -/
theorem max_lt_iff_near (h : RoundDir.near.Rounds (codeScale f u) W c) :
    let M := (codeScale f u (maxBits f) : Int)
    let U := M - codeScale f u (maxBits f - 1)
    maxBits f < c ↔ 2 * M + U < 2 * W ∨ (2 * M + U = 2 * W ∧ maxBits f % 2 = 1) := by
  have := codeScale_above_max f u
  rw [← not_le, h]
  simp only [RoundDir.AtMost]
  omega

theorem max_lt_iff_up (h : RoundDir.up.Rounds (codeScale f u) W c) : maxBits f < c ↔ codeScale f u (maxBits f) < W := by
  rw [← not_le, h]
  exact not_le

end

/-! ## The rounded code -/

section
variable {neg : Bool} {x W : Nat}

theorem abs_signInt_mul (neg : Bool) (x : Nat) : |signInt neg * (x : Int)| = x := by cases neg <;> simp [signInt]

theorem signInt_mul_neg_iff (hW : 0 < W) : signInt neg * (W : Int) < 0 ↔ neg = true := by
  cases neg <;> simp [signInt, hW]

/-- What rz allows: magnitudes up to the value's, of its sign. -/
theorem toward_zero_iff : (|signInt neg * (x : Int)| ≤ |signInt neg * (W : Int)| ∧ 0 ≤ signInt neg * (x : Int) * (signInt neg * (W : Int))) ↔ x ≤ W := by
  have : 0 ≤ signInt neg * (x : Int) * (signInt neg * (W : Int)) := by cases neg <;> simp [signInt] <;> positivity
  rw [abs_signInt_mul, abs_signInt_mul, and_iff_left this, Nat.cast_le]

end

theorem withSign_mod_two (f : Fmt) (neg : Bool) (c : Nat) : withSign f neg c % 2 = c % 2 := by
  have : signBit f % 2 = 0 := by cases f <;> decide
  rw [withSign]
  split <;> omega

section
variable {f : Fmt} {neg : Bool} {u W c : Nat}

/-- Of two finite codes as near as each other, rounding to nearest has taken the even one. -/
theorem resultCode_even_of_tie (h : RoundDir.near.Rounds (codeScale f u) W c) (hc : c ≤ maxBits f) {x : Nat} (hx : Spec.Finite f x)
    (htie : |scaled f x * 2 ^ (u - 149) - signInt neg * W| = |scaled f (withSign f neg c) * 2 ^ (u - 149) - signInt neg * W|)
    (hne : scaled f x * 2 ^ (u - 149) ≠ scaled f (withSign f neg c) * 2 ^ (u - 149)) : withSign f neg c % 2 = 0 := by
  obtain ⟨n, k, hk, rfl⟩ := (finite_iff f x).1 hx
  have hnear := h.near_spec (codeScale_strictMono f u)
  rw [scaled_mul_withSign hk, scaled_mul_withSign hc] at hne
  rw [scaled_mul_withSign hk, scaled_mul_withSign hc, abs_signInt_sub, abs_signInt_sub, if_pos rfl] at htie
  rw [withSign_mod_two]
  by_cases hn : n = neg
  · subst hn
    rw [if_pos rfl] at htie
    exact (hnear k).2 htie fun heq => hne (by rw [heq])
  · -- the other sign is as near only from zero
    rw [if_neg hn] at htie
    obtain ⟨hzero, heven⟩ := hnear 0
    rw [codeScale_zero, Nat.cast_zero, zero_sub, abs_neg, Nat.abs_cast] at hzero heven
    have hk0 : codeScale f u k = 0 := by omega
    refine heven (by omega) fun h0 => hne ?_
    simp only [hk0, ← h0, Nat.cast_zero, mul_zero]

theorem rounds_rn (hW : 0 < W) (h : RoundDir.near.Rounds (codeScale f u) W c) : Rounds f .rn (signInt neg * W) u (resultCode f .rn neg c) := by
  have hover := max_lt_iff_near h
  have hsign : (if signInt neg * (W : Int) < 0 then signBit f + infBits f else infBits f) = withSign f neg (infBits f) := by
    simp only [signInt_mul_neg_iff hW, withSign]
  by_cases hc : maxBits f < c <;> simp only [Rounds, scaled_max, scaled_below_max, Int.natCast_natAbs, abs_signInt_mul, hsign]
  · rw [if_pos (hover.1 hc)]
    exact resultCode_over rfl hc
  · rw [if_neg (mt hover.2 hc), resultCode_of_le (not_lt.1 hc)]
    exact ⟨IsClosest.of_near h (not_lt.1 hc), fun x hx => resultCode_even_of_tie h (not_lt.1 hc) hx⟩

theorem rounds_rz (h : RoundDir.down.Rounds (codeScale f u) W c) : Rounds f .rz (signInt neg * W) u (resultCode f .rz neg c) := by
  rw [resultCode_down rfl]
  exact IsClosest.of_down (ok := fun v => |v| ≤ |signInt neg * (W : Int)| ∧ 0 ≤ v * (signInt neg * W)) h fun k => toward_zero_iff

theorem rounds_rp (hW : 0 < W) (h : (roundDir .rp neg).Rounds (codeScale f u) W c) :
    Rounds f .rp (signInt neg * W) u (resultCode f .rp neg c) := by
  cases neg with
  | false =>
    have hover : maxBits f < c ↔ (codeScale f u (maxBits f) : Int) < signInt false * W := by
      rw [signInt_false_mul, Nat.cast_lt, max_lt_iff_up h]
    by_cases hc : maxBits f < c <;> simp only [Rounds, scaled_max]
    · rw [if_pos (hover.1 hc)]
      exact resultCode_over rfl hc
    · rw [if_neg (mt hover.2 hc), resultCode_of_le (not_lt.1 hc)]
      refine IsClosest.of_up (ok := fun v => signInt false * (W : Int) ≤ v) h (not_lt.1 hc) (fun k => ?_) fun k => ?_
      · simp only [signInt_false_mul, Nat.cast_le]
      · simp only [signInt_false_mul, Bool.not_false, signInt_true_mul]; omega
  | true =>
    simp only [Rounds, scaled_max]
    rw [if_neg ?_, resultCode_down rfl]
    · exact IsClosest.of_down (ok := fun v => signInt true * (W : Int) ≤ v) h fun k => by
        simp only [signInt_true_mul, neg_le_neg_iff, Nat.cast_le]
    · rw [signInt_true_mul]; omega

theorem rounds_rminf (hW : 0 < W) (h : (roundDir .rminf neg).Rounds (codeScale f u) W c) :
    Rounds f .rminf (signInt neg * W) u (resultCode f .rminf neg c) := by
  cases neg with
  | true =>
    have hover : maxBits f < c ↔ signInt true * (W : Int) < -(codeScale f u (maxBits f) : Int) := by
      rw [signInt_true_mul, neg_lt_neg_iff, Nat.cast_lt, max_lt_iff_up h]
    by_cases hc : maxBits f < c <;> simp only [Rounds, scaled_max]
    · rw [if_pos (hover.1 hc)]
      exact resultCode_over rfl hc
    · rw [if_neg (mt hover.2 hc), resultCode_of_le (not_lt.1 hc)]
      refine IsClosest.of_up (ok := fun v => v ≤ signInt true * (W : Int)) h (not_lt.1 hc) (fun k => ?_) fun k => ?_
      · simp only [signInt_true_mul, neg_le_neg_iff, Nat.cast_le]
      · simp only [signInt_false_mul, Bool.not_true, signInt_true_mul]; omega
  | false =>
    simp only [Rounds, scaled_max]
    rw [if_neg ?_, resultCode_down rfl]
    · exact IsClosest.of_down (ok := fun v => v ≤ signInt false * (W : Int)) h fun k => by
        simp only [signInt_false_mul, Nat.cast_le]
    · rw [signInt_false_mul]; omega

/-- The code that a magnitude rounds to is the one of R30 and R31. -/
theorem rounds_resultCode (rm : Rm) (hW : 0 < W) (h : (roundDir rm neg).Rounds (codeScale f u) W c) :
    Rounds f rm (signInt neg * W) u (resultCode f rm neg c) := by
  cases rm with
  | rn => exact rounds_rn hW h
  | rz => exact rounds_rz h
  | rp => exact rounds_rp hW h
  | rminf => exact rounds_rminf hW h

/-! ## The flags -/

theorem fracPow_le_max (f : Fmt) : 2 ^ fracBits f ≤ maxBits f := by cases f <;> decide

theorem scaled_normal (f : Fmt) (u : Nat) : scaled f (2 ^ fracBits f) * 2 ^ (u - 149) = codeScale f u (2 ^ fracBits f) :=
  (scaled_mul_withSign (neg := false) (fracPow_le_max f)).trans (one_mul _)

/-- Table 2.2's bounds of a tiny value, by the direction of rounding. -/
theorem tiny_iff_table (rm : Rm) (hW : 0 < W) (b N : Nat) :
    let p : Int := 2 ^ (b + 2)
    let away := (rm = .rp ∧ 0 < signInt neg * (W : Int)) ∨ (rm = .rminf ∧ signInt neg * (W : Int) < 0)
    (if rm = .rn then p * W < (p - 1) * N else if away then p * W ≤ (p - 2) * N else (W : Int) < N) ↔
      (roundDir rm neg).tiny (2 ^ b) N W = true := by
  intro p away
  have hp : p = 4 * 2 ^ b := by simp only [p, pow_add]; ring
  have hP : 0 < 2 ^ b := Nat.two_pow_pos b
  have hsub : ∀ k ≤ 2, ((4 * 2 ^ b - k : Nat) : Int) = p - k := fun k hk => by
    rw [Nat.cast_sub (by omega), hp]; push_cast; rfl
  have hnear : p * W < (p - 1) * N ↔ 4 * 2 ^ b * W < (4 * 2 ^ b - 1) * N := by
    rw [← Nat.cast_lt (α := Int), Nat.cast_mul, Nat.cast_mul _ N, hsub 1 (by omega), hp]; push_cast; rfl
  have hup : p * W ≤ (p - 2) * N ↔ 4 * 2 ^ b * W ≤ (4 * 2 ^ b - 2) * N := by
    rw [← Nat.cast_le (α := Int), Nat.cast_mul, Nat.cast_mul _ N, hsub 2 le_rfl, hp]; push_cast; rfl
  cases rm <;> cases neg <;> simp [away, roundDir, RoundDir.tiny, hnear, hup, hW]

/-- Table 2.2's flags of a magnitude with its sign. -/
theorem roundFlags_signInt (rm : Rm) (hW : 0 < W) (r : Nat) :
    roundFlags f rm (signInt neg * W) u r = if scaled f r * 2 ^ (u - 149) = signInt neg * W then 0
      else fNX + (if codeScale f u (maxBits f) < W then fOF else 0) +
        (if (roundDir rm neg).tiny (2 ^ fracBits f) (codeScale f u (2 ^ fracBits f)) W then fUF else 0) +
        (if f = .e4m3 ∧ r = 0x7F then fNV else 0) := by
  have htiny := tiny_iff_table (neg := neg) rm hW (fracBits f) (codeScale f u (2 ^ fracBits f))
  dsimp only at htiny
  simp only [roundFlags, scaled_max, scaled_normal, abs_signInt_mul, htiny]
  simp only [Nat.cast_lt]
  rfl

theorem signInt_mul_inj {x : Nat} : signInt neg * (x : Int) = signInt neg * W ↔ x = W := by
  cases neg <;> simp

/-- A code with sign is the NaN of E4M3 for no code up to the largest. -/
theorem withSign_ne_nan (hc : c ≤ maxBits f) : ¬ (f = .e4m3 ∧ withSign f neg c = 0x7F) := by
  rintro ⟨rfl, h⟩
  have : c ≤ 0x7E := hc
  cases neg <;> simp [withSign, signBit, expBits, fracBits] at h <;> omega

/-- The flags of a finite result are those of Table 2.2. -/
theorem roundFlags_finite (rm : Rm) (hW : 0 < W) (hc : c ≤ maxBits f) :
    roundFlags f rm (signInt neg * W) u (withSign f neg c) = finiteFlags f (roundDir rm neg) u W c := by
  rw [roundFlags_signInt rm hW, scaled_mul_withSign hc, if_neg (withSign_ne_nan hc), finiteFlags]
  simp only [signInt_mul_inj, Nat.add_zero, Nat.add_right_comm]

/-- An infinity and the NaN of E4M3 are no finite values. -/
theorem scaled_overflow (f : Fmt) (neg : Bool) (u : Nat) :
    scaled f (if f = .e4m3 then 0x7F else withSign f neg (infBits f)) * 2 ^ (u - 149) = 0 := by
  have h : scaled f (if f = .e4m3 then 0x7F else withSign f neg (infBits f)) = 0 := by cases f <;> cases neg <;> decide
  rw [h]
  exact zero_mul _

/-- The flags of an overflow are those of Table 2.2. -/
theorem roundFlags_overflowed {rm : Rm} (hW : 0 < W) (h : (roundDir rm neg).Rounds (codeScale f u) W c) (hc : maxBits f < c) :
    roundFlags f rm (signInt neg * W) u (overflowed f rm false neg).1 = (overflowed f rm false neg).2 := by
  have hg := codeScale_strictMono f u
  have habove : codeScale f u (maxBits f) < W := not_le.1 fun hle => hc.not_ge (h.le_of_le hg hle)
  have hnormal : codeScale f u (2 ^ fracBits f) ≤ codeScale f u (maxBits f) := hg.monotone (fracPow_le_max f)
  have htiny : ¬ (roundDir rm neg).tiny (2 ^ fracBits f) (codeScale f u (2 ^ fracBits f)) W = true := fun ht => by
    have hN : 0 < codeScale f u (2 ^ fracBits f) := by rw [codeScale_normal]; exact Nat.two_pow_pos _
    have := RoundDir.lt_of_tiny (Nat.two_pow_pos _) hN ht
    omega
  have hflags : ∀ r, ¬ scaled f r * 2 ^ (u - 149) = signInt neg * W →
      roundFlags f rm (signInt neg * W) u r = fNX + fOF + 0 + (if f = .e4m3 ∧ r = 0x7F then fNV else 0) := fun r hr => by
    rw [roundFlags_signInt rm hW, if_neg hr, if_pos habove, if_neg htiny]
  cases hto : toInf rm neg with
  | false =>
    rw [overflowed_down hto, hflags _ (by rw [scaled_mul_withSign le_rfl]; exact mt signInt_mul_inj.1 habove.ne), if_neg (withSign_ne_nan le_rfl)]
    rfl
  | true =>
    rw [overflowed_code hto, hflags _ (by rw [scaled_overflow]; exact fun h0 => hW.ne (signInt_mul_inj.1 ((mul_zero _).trans h0))),
      overflowed, if_pos hto]
    cases f <;> cases neg <;> rfl

end

/-! ## `fpRound` -/

/-- Without saturation the code of `fpRound` and its flags are those of the place that the value rounds to. -/
theorem fpRound_rounds (f : Fmt) (rm : Rm) (neg : Bool) {m a u : Nat} (hm : 0 < m) (hu : 149 ≤ u) :
    let r := fpRound f rm false neg m ((a : Int) - u)
    let V := signInt neg * ((m * 2 ^ a : Nat) : Int)
    Rounds f rm V u r.1 ∧ r.2 = roundFlags f rm V u r.1 := by
  have hW : 0 < m * 2 ^ a := Nat.mul_pos hm (Nat.two_pow_pos a)
  obtain ⟨c, hc, hr⟩ := fpRound_spec f rm false neg (a := a) hm hu
  have hrounds := rounds_resultCode rm hW hc
  dsimp only
  rw [hr]
  by_cases hmax : maxBits f < c
  · rw [if_pos hmax]
    rw [resultCode, if_pos hmax] at hrounds
    exact ⟨hrounds, (roundFlags_overflowed hW hc hmax).symm⟩
  · rw [if_neg hmax]
    rw [resultCode_of_le (not_lt.1 hmax)] at hrounds
    dsimp only
    exact ⟨hrounds, (roundFlags_finite rm hW (not_lt.1 hmax)).symm⟩

/-- Saturation replaces the NaN of an overflow by the largest finite value, and nothing else. -/
theorem fpRound_sat (rm : Rm) (neg : Bool) {m : Nat} (hm : 0 < m) (e : Int) :
    fpRound .e4m3 rm true neg m e = if (fpRound .e4m3 rm false neg m e).1 = 0x7F then (withSign .e4m3 neg 0x7E, fOF + fNX)
      else fpRound .e4m3 rm false neg m e := by
  obtain ⟨u, a, hu, rfl⟩ : ∃ u a : Nat, 149 ≤ u ∧ e = (a : Int) - u := ⟨149 + e.natAbs, (e + (149 + e.natAbs : Nat)).toNat, by omega, by omega⟩
  obtain ⟨c, hc, hsat⟩ := fpRound_spec .e4m3 rm true neg (a := a) hm hu
  obtain ⟨c', hc', hr⟩ := fpRound_spec .e4m3 rm false neg (a := a) hm hu
  obtain rfl : c = c' := le_antisymm ((hc c').2 ((hc' c').1 le_rfl)) ((hc' c).2 ((hc c).1 le_rfl))
  rw [hsat, hr]
  by_cases hmax : maxBits .e4m3 < c
  · rw [if_pos hmax, if_pos hmax]
    cases rm <;> cases neg <;> rfl
  · rw [if_neg hmax, if_neg hmax, if_neg fun h => withSign_ne_nan (not_lt.1 hmax) ⟨rfl, h⟩]

end Sys2Proof.Machine

namespace Sys2Proof.Spec
open Sys2Proof.Machine

/-- Settles O6: `fpRound` rounds to a place on the scale of the format's codes, and that place is the one that the mode names. -/
theorem floatRounding : Obligations.FloatRounding := by
  refine ⟨fun f rm neg m e u hm hu he => ?_, fun rm neg m e hm => ?_⟩
  · have hround := fpRound_rounds f rm neg (a := (e + u).toNat) hm hu
    rw [show ((e + u).toNat : Int) - u = e by omega] at hround
    have hV : signInt neg * ((m * 2 ^ (e + u).toNat : Nat) : Int) = (if neg then -1 else 1) * (m : Int) * 2 ^ (e + u).toNat := by
      rw [signInt, Nat.cast_mul, Nat.cast_pow, mul_assoc]; rfl
    rw [hV] at hround
    exact hround
  · rw [fpRound_sat rm neg hm]
    cases neg <;> rfl

end Sys2Proof.Spec
end

section
/-! SUPPORT. NaN results and NaN operands of the floating-point operations (R33, R93, R98, O8). -/

namespace Sys2Proof.Machine

/-! ## Codes that are no NaN, and the canonical NaN -/

/-- A code that is a NaN is the canonical one, with sign 0 (R33). -/
def CanonicalNaN (f : Fmt) (x : Nat) : Prop := (decodeFp f x).isNan = true → x = nanBits f ∧ bit x (fmtBits f - 1) = false

theorem nanBits_isNan (f : Fmt) : (decodeFp f (nanBits f)).isNan = true := by cases f <;> decide

section
variable {f : Fmt}

theorem CanonicalNaN.nanBits : CanonicalNaN f (nanBits f) := fun _ => ⟨rfl, by cases f <;> decide⟩

theorem CanonicalNaN.of_not_nan {x : Nat} (h : (decodeFp f x).isNan = false) : CanonicalNaN f x :=
  fun hn => Bool.noConfusion (h.symm.trans hn)

/-- A finite code is no NaN. -/
theorem CanonicalNaN.finite {neg : Bool} {c : Nat} (hc : c ≤ maxBits f) : CanonicalNaN f (withSign f neg c) :=
  .of_not_nan (by rw [decodeFp_withSign f neg hc]; rfl)

theorem CanonicalNaN.zero {neg : Bool} : CanonicalNaN f (withSign f neg 0) := .finite (Nat.zero_le _)

theorem CanonicalNaN.inf (hf : f ≠ .e4m3) {neg : Bool} : CanonicalNaN f (withSign f neg (infBits f)) := by
  refine .of_not_nan ?_
  cases f with
  | e4m3 => exact absurd rfl hf
  | _ => cases neg <;> rfl

/-- Either of two results is canonical. -/
theorem CanonicalNaN.ite {p : Prop} [Decidable p] {a b : Nat × Nat} (ha : CanonicalNaN f a.1) (hb : CanonicalNaN f b.1) :
    CanonicalNaN f (if p then a else b).1 := by
  split
  · exact ha
  · exact hb

/-! ## Rounded results -/

/-- What `fpRound` gives is a finite code with its sign, or stands for an overflow. -/
theorem fpRound_cases (f : Fmt) (rm : Rm) (sat neg : Bool) (m : Nat) (e : Int) :
    fpRound f rm sat neg m e = overflowed f rm sat neg ∨ ∃ c, c ≤ maxBits f ∧ (fpRound f rm sat neg m e).1 = withSign f neg c := by
  rw [fpRound_units f rm sat neg m e rfl rfl rfl rfl]
  split
  · exact .inl rfl
  · rename_i h
    exact .inr ⟨_, not_lt.1 h, rfl⟩

variable {rm : Rm} {neg : Bool} {m : Nat} {e : Int}

theorem CanonicalNaN.overflowed {sat : Bool} : CanonicalNaN f (overflowed f rm sat neg).1 := by
  refine .ite ?_ (.finite le_rfl)
  by_cases hf : f = .e4m3
  · subst hf
    rw [if_pos rfl]
    exact .ite (.finite le_rfl) .nanBits
  · rw [if_neg hf]
    exact .inf hf

theorem CanonicalNaN.fpRound {sat : Bool} : CanonicalNaN f (fpRound f rm sat neg m e).1 := by
  rcases fpRound_cases f rm sat neg m e with h | ⟨c, hc, h⟩
  · rw [h]; exact .overflowed
  · rw [h]; exact .finite hc

theorem CanonicalNaN.sumRound {terms : List (Bool × Nat × Int)} : CanonicalNaN f (sumRound f rm terms).1 :=
  .ite .fpRound (.ite (.zero (neg := true)) (.ite (.zero (neg := false)) .zero))

theorem CanonicalNaN.cutRound {whole : Bool} : CanonicalNaN .f32 (cutRound rm neg m e whole).1 := .ite .fpRound .fpRound

/-! ## The operations -/

variable {x y z : Nat}

theorem CanonicalNaN.fpAdd (hf : f ≠ .e4m3) : CanonicalNaN f (fpAdd f rm x y).1 :=
  .ite .nanBits (.ite .nanBits (.ite (.inf hf) (.ite (.inf hf) .sumRound)))

theorem CanonicalNaN.fpMul (hf : f ≠ .e4m3) : CanonicalNaN f (fpMul f rm x y).1 :=
  .ite .nanBits (.ite .nanBits (.ite (.inf hf) .sumRound))

theorem CanonicalNaN.fpFma (hf : f ≠ .e4m3) : CanonicalNaN f (fpFma f rm x y z).1 :=
  .ite .nanBits (.ite .nanBits (.ite .nanBits (.ite (.inf hf) (.ite (.inf hf) .sumRound))))

theorem fpMinMax_of_nans {max : Bool} (hx : (decodeFp .f32 x).isNan = true) (hy : (decodeFp .f32 y).isNan = true) :
    (fpMinMax .f32 max x y).1 = Machine.nanBits .f32 := by
  simp only [fpMinMax, hx, hy, Bool.and_self, if_true]

/-- The minimum or maximum is an operand that is no NaN, but for two NaNs (R93). -/
theorem CanonicalNaN.fpMinMax {max : Bool} : CanonicalNaN .f32 (fpMinMax .f32 max x y).1 := by
  cases hx : (decodeFp .f32 x).isNan <;> cases hy : (decodeFp .f32 y).isNan <;>
    simp only [Machine.fpMinMax, hx, hy, Bool.and_true, Bool.and_false, Bool.false_eq_true, if_true, if_false]
  case true.true => exact .nanBits
  case true.false => exact .of_not_nan hy
  case false.true => exact .of_not_nan hx
  case false.false => exact .ite (.of_not_nan hx) (.of_not_nan hy)

theorem CanonicalNaN.fpConvert {src : Fmt} {sat : Bool} : CanonicalNaN f (fpConvert f src rm sat x).1 := by
  unfold Machine.fpConvert
  cases decodeFp src x with
  | nan sig => exact .nanBits
  | inf n =>
    by_cases hf : f = .e4m3
    · subst hf
      simp only [if_true]
      exact .ite (.finite le_rfl) .nanBits
    · simp only [if_neg hf]
      exact .inf hf
  | fin n m e => exact .ite .zero .fpRound

/-- FDP4 gives the canonical NaN for a NaN of the elements or of the addend, for a product of a zero and an infinity (`zi`) and for infinities of both
signs (`both`), with NV but for a quiet addend alone; else a result that is no other NaN (R98). -/
theorem fpDot4_shape (f : Fmt) (rm : Rm) (x y z : Nat) : ∃ zi both r,
    let el := fun w i => decodeFp f (w / 2 ^ (8 * i) % 256)
    let nan := ((List.range 4).map (el x) ++ (List.range 4).map (el y)).any Fp.isNan
    let c := decodeFp .f32 z
    fpDot4 f rm x y z = (if nan || c.isNan || zi || both then (Machine.nanBits .f32, if nan || c.isSnan || zi || both then fNV else 0) else r) ∧
      CanonicalNaN .f32 r.1 := by
  refine ⟨_, _, _, rfl, ?_⟩
  split
  · exact .inf (by decide)
  · exact .sumRound

theorem CanonicalNaN.fpDot4 : CanonicalNaN .f32 (fpDot4 f rm x y z).1 := by
  obtain ⟨zi, both, r, h, hr⟩ := fpDot4_shape f rm x y z
  rw [h]
  exact .ite .nanBits hr

theorem CanonicalNaN.fpSpecial {fn : SpcFn} : CanonicalNaN .f32 (fpSpecial fn rm x).1 := by
  have hinf : ∀ {n}, CanonicalNaN .f32 (withSign .f32 n (infBits .f32)) := .inf (by decide)
  have hpos : CanonicalNaN .f32 (infBits .f32) := hinf (n := false)
  have hneg : CanonicalNaN .f32 (withSign .f32 true (infBits .f32)) := hinf
  have hzero : CanonicalNaN .f32 0 := .zero (neg := false)
  have hone : CanonicalNaN .f32 0x3F800000 := .of_not_nan (by decide)
  unfold Machine.fpSpecial
  cases decodeFp .f32 x with
  | nan sig => exact .nanBits
  | inf n =>
    cases fn with
    | rcp => exact .zero
    | rsq => exact .ite .nanBits hzero
    | sqrt => exact .ite .nanBits hpos
    | log2 => exact .ite .nanBits hpos
    | exp2 => exact .ite hzero hpos
  | fin n m e =>
    refine .ite ?_ ?_
    · cases fn with
      | rcp => exact hinf
      | rsq => exact hinf
      | sqrt => exact .zero
      | exp2 => exact hone
      | log2 => exact hneg
    · cases fn <;> dsimp only
      case rcp => exact .cutRound
      case rsq => exact .ite .nanBits .cutRound
      case sqrt => exact .ite .nanBits .cutRound
      case exp2 => exact .ite .fpRound .cutRound
      case log2 => exact .ite .nanBits (.ite (.ite hzero .fpRound) .cutRound)

end

/-! ## NaN operands -/

theorem Fp.isNan_iff {a : Fp} : a.isNan = true ↔ ∃ sig, a = .nan sig := by cases a <;> simp [Fp.isNan]
theorem Fp.isSnan_iff {a : Fp} : a.isSnan = true ↔ a = .nan true := by cases a <;> simp [Fp.isSnan]

theorem Fp.isNan_of_isSnan {a : Fp} (h : a.isSnan = true) : a.isNan = true := Fp.isNan_iff.2 ⟨true, Fp.isSnan_iff.1 h⟩

@[simp] theorem bit_fNV : bit fNV 0 = true := by decide

/-- NV of a list of operands stands where one of them signals. -/
theorem bit_nvOf (l : List Fp) : bit (nvOf l) 0 = l.any Fp.isSnan := by
  unfold nvOf
  cases l.any Fp.isSnan <;> rfl

section
variable {f : Fmt} (rm : Rm) {x y z : Nat}

theorem fpAdd_of_nan (h : (decodeFp f x).isNan = true ∨ (decodeFp f y).isNan = true) :
    fpAdd f rm x y = (nanBits f, nvOf [decodeFp f x, decodeFp f y]) := if_pos (Bool.or_eq_true_iff.2 h)

theorem fpMul_of_nan (h : (decodeFp f x).isNan = true ∨ (decodeFp f y).isNan = true) :
    fpMul f rm x y = (nanBits f, nvOf [decodeFp f x, decodeFp f y]) := if_pos (Bool.or_eq_true_iff.2 h)

/-- A NaN operand of a fused multiply-add gives the canonical NaN; the product of a zero and an infinity does so before it, with NV. -/
theorem fpFma_of_nan (h : (decodeFp f x).isNan = true ∨ (decodeFp f y).isNan = true ∨ (decodeFp f z).isNan = true) :
    fpFma f rm x y z = (nanBits f, fNV) ∨ fpFma f rm x y z = (nanBits f, nvOf [decodeFp f x, decodeFp f y, decodeFp f z]) := by
  have hnan : ((decodeFp f x).isNan || (decodeFp f y).isNan || (decodeFp f z).isNan) = true := by
    simpa only [Bool.or_eq_true, or_assoc] using h
  simp only [fpFma, hnan, if_true]
  split
  · exact .inl rfl
  · exact .inr rfl

theorem fpFma_fst_of_nan (h : (decodeFp f x).isNan = true ∨ (decodeFp f y).isNan = true ∨ (decodeFp f z).isNan = true) :
    (fpFma f rm x y z).1 = nanBits f := by
  rcases fpFma_of_nan rm h with h | h <;> rw [h]

theorem fpFma_nv_of_snan (h : (decodeFp f x).isSnan = true ∨ (decodeFp f y).isSnan = true ∨ (decodeFp f z).isSnan = true) :
    bit (fpFma f rm x y z).2 0 = true := by
  rcases fpFma_of_nan rm (h.imp Fp.isNan_of_isSnan (.imp Fp.isNan_of_isSnan Fp.isNan_of_isSnan)) with heq | heq <;> rw [heq]
  · exact bit_fNV
  · rw [bit_nvOf]; simpa using h

theorem fpMinMax_flags (max : Bool) (x y : Nat) : (fpMinMax .f32 max x y).2 = nvOf [decodeFp .f32 x, decodeFp .f32 y] := by
  simp only [fpMinMax, apply_ite Prod.snd, ite_self]

/-- A NaN is converted to the canonical NaN, with NV where it signals. -/
theorem fpConvert_of_nan {src : Fmt} {sig : Bool} (dst : Fmt) (sat : Bool) (h : decodeFp src x = .nan sig) :
    fpConvert dst src rm sat x = (nanBits dst, if sig then fNV else 0) := by
  simp only [fpConvert, h]

theorem fpSpecial_of_nan {sig : Bool} (fn : SpcFn) (h : decodeFp .f32 x = .nan sig) :
    fpSpecial fn rm x = (nanBits .f32, if sig then fNV else 0) := by
  simp only [fpSpecial, h]

/-- A NaN addend of FDP4 gives the canonical NaN, with NV where it signals. -/
theorem fpDot4_of_nan (f : Fmt) (x y : Nat) (h : (decodeFp .f32 z).isNan = true) :
    (fpDot4 f rm x y z).1 = nanBits .f32 ∧ ((decodeFp .f32 z).isSnan = true → (fpDot4 f rm x y z).2 = fNV) := by
  obtain ⟨zi, both, r, heq, -⟩ := fpDot4_shape f rm x y z
  simp only [heq, h, Bool.or_true, Bool.true_or, if_true, true_and]
  intro hs
  simp only [hs, Bool.or_true, Bool.true_or, if_true]

/-- A NaN element of FDP4 gives the canonical NaN with NV. -/
theorem fpDot4_of_element_nan (z : Nat) {j : Nat} (hj : j < 4)
    (h : (decodeFp f (x / 2 ^ (8 * j) % 256)).isNan = true ∨ (decodeFp f (y / 2 ^ (8 * j) % 256)).isNan = true) :
    fpDot4 f rm x y z = (nanBits .f32, fNV) := by
  obtain ⟨zi, both, r, heq, -⟩ := fpDot4_shape f rm x y z
  have hany : (((List.range 4).map fun i => decodeFp f (x / 2 ^ (8 * i) % 256)) ++
      (List.range 4).map fun i => decodeFp f (y / 2 ^ (8 * i) % 256)).any Fp.isNan = true := by
    rw [List.any_append, List.any_map, List.any_map, Bool.or_eq_true, List.any_eq_true, List.any_eq_true]
    exact h.imp (fun h => ⟨j, List.mem_range.2 hj, h⟩) fun h => ⟨j, List.mem_range.2 hj, h⟩
  simp only [heq, hany, Bool.true_or, if_true]

end

end Sys2Proof.Machine

namespace Sys2Proof.Spec
open Sys2Proof.Machine

/-- Settles O8: what an operation gives besides the canonical NaN is no NaN, and a NaN operand is found first. -/
theorem floatNaNs : Obligations.FloatNaNs := by
  unfold Obligations.FloatNaNs
  dsimp only
  refine ⟨fun f rm x y z hf => ?sums, fun max x y => ?minmax, fun dst src rm sat x => ?convert, fun f rm x y z => ?dot, fun fn rm x => ?special⟩
  case sums =>
    have hne : f ≠ .e4m3 := by rcases hf with rfl | rfl | rfl <;> decide
    have hnan := nanBits_isNan f
    refine ⟨CanonicalNaN.fpAdd hne, CanonicalNaN.fpMul hne, CanonicalNaN.fpFma hne, fun h => ⟨?_, ?_, ?_⟩, fun h => ?_, fun h => ⟨?_, ?_⟩, fun h => ?_⟩
    · rw [fpAdd_of_nan rm h]; exact hnan
    · rw [fpMul_of_nan rm h]; exact hnan
    · rw [fpFma_fst_of_nan rm (or_assoc.1 (.inl h))]; exact hnan
    · rw [fpFma_fst_of_nan rm (.inr (.inr h))]; exact hnan
    · rw [fpAdd_of_nan rm (h.imp Fp.isNan_of_isSnan Fp.isNan_of_isSnan), bit_nvOf]; simpa using h
    · rw [fpMul_of_nan rm (h.imp Fp.isNan_of_isSnan Fp.isNan_of_isSnan), bit_nvOf]; simpa using h
    · exact fpFma_nv_of_snan rm h
  case minmax =>
    refine ⟨CanonicalNaN.fpMinMax, fun hx hy => ?_, fun h => ?_⟩
    · rw [fpMinMax_of_nans hx hy]; exact nanBits_isNan .f32
    · rw [fpMinMax_flags, bit_nvOf]; simpa using h
  case convert =>
    refine ⟨CanonicalNaN.fpConvert, fun h => ?_, fun h => ?_⟩
    · obtain ⟨sig, hsig⟩ := Fp.isNan_iff.1 h
      rw [fpConvert_of_nan rm dst sat hsig]; exact nanBits_isNan dst
    · rw [fpConvert_of_nan rm dst sat (Fp.isSnan_iff.1 h)]; exact bit_fNV
  case dot =>
    refine ⟨CanonicalNaN.fpDot4, fun h => ?_, fun h => ?_, fun j hj h => ?_⟩
    · rw [(fpDot4_of_nan rm f x y h).1]; exact nanBits_isNan .f32
    · rw [(fpDot4_of_nan rm f x y (Fp.isNan_of_isSnan h)).2 h]; exact bit_fNV
    · rw [fpDot4_of_element_nan rm z hj h]; exact ⟨nanBits_isNan .f32, bit_fNV⟩
  case special =>
    refine ⟨CanonicalNaN.fpSpecial, fun h => ?_, fun h => ?_⟩
    · obtain ⟨sig, hsig⟩ := Fp.isNan_iff.1 h
      rw [fpSpecial_of_nan rm fn hsig]; exact nanBits_isNan .f32
    · rw [fpSpecial_of_nan rm fn (Fp.isSnan_iff.1 h)]; exact bit_fNV

end Sys2Proof.Spec
end

section
/-! SUPPORT. A word is read back as the fields it was joined from, and these name its opcode and its format (R50, R53 to R60, R62, O56). -/

namespace Sys2Proof
open Sys2Proof.Machine

/-! ## A word and its fields -/

/-- The value v has room in a field of w bits. -/
def InField (w v : Nat) : Prop := v < 2 ^ w

theorem inField_of_lt {w v : Nat} (h : v < 2 ^ w) : InField w v := h

@[simp] theorem inField_zero (w : Nat) : InField w 0 := Nat.two_pow_pos w

@[simp] theorem inField_one (w : Nat) : InField (w + 1) 1 := Nat.one_lt_two_pow (Nat.succ_ne_zero w)

@[simp] theorem inField_toNat {w v : Nat} (hv : v ≤ w) (x : BitVec v) : InField w x.toNat :=
  x.isLt.trans_le (Nat.pow_le_pow_right Nat.two_pos hv)

/-- Fields of the widths ws hold the values vs. -/
abbrev Fit (ws vs : List Nat) : Prop := List.Forall₂ InField ws vs

theorem fieldsOf_joinFields {ws vs : List Nat} (h : Fit ws vs) : fieldsOf ws (joinFields ws vs) = vs := by
  induction h with
  | nil => rfl
  | @cons w v ws vs hv _ ih =>
    simp only [fieldsOf, joinFields, Nat.mod_eq_of_lt hv, Nat.add_mul_mod_self_left, Nat.add_mul_div_left _ _ (Nat.two_pow_pos w), Nat.div_eq_of_lt hv,
      Nat.zero_add, ih]

theorem joinFields_lt (ws vs : List Nat) : joinFields ws vs < 2 ^ ws.sum := by
  induction ws generalizing vs with
  | nil => simp [joinFields]
  | cons w ws ih =>
    cases vs with
    | nil => simp [joinFields]
    | cons v vs =>
      have hv : v % 2 ^ w < 2 ^ w := Nat.mod_lt _ (Nat.two_pow_pos w)
      have hj : joinFields ws vs + 1 ≤ 2 ^ ws.sum := ih vs
      calc joinFields (w :: ws) (v :: vs) < 2 ^ w + 2 ^ w * joinFields ws vs := Nat.add_lt_add_right hv _
        _ = 2 ^ w * (joinFields ws vs + 1) := by ring
        _ ≤ 2 ^ w * 2 ^ ws.sum := Nat.mul_le_mul_left _ hj
        _ = 2 ^ (w :: ws).sum := by rw [List.sum_cons, Nat.pow_add]

/-- The fields above the opcode lie within their widths (Tables 3.1 and 3.3 to 3.7). -/
def Raw.Fits (f : Format) (r : Raw) : Prop :=
  Fit (baseWidths.drop 2 ++ f.widths) ([r.stall, r.gp, r.gn, r.sbs, r.sbw, r.d, r.a, r.b, r.fn, r.mod] ++ r.ext)

section
variable {o : Opc} {f : Format} {r : Raw}

theorem fit_wordOf (h : r.Fits f) :
    Fit (baseWidths ++ f.widths) ([f.len, o.code, r.stall, r.gp, r.gn, r.sbs, r.sbw, r.d, r.a, r.b, r.fn, r.mod] ++ r.ext) := by
  have hlen : InField 2 f.len := by cases f <;> exact inField_of_lt (by decide)
  have hcode : InField 8 o.code := by cases o <;> exact inField_of_lt (by decide)
  exact .cons hlen (.cons hcode h)

theorem fieldsOf_wordOf (h : r.Fits f) :
    fieldsOf (baseWidths ++ f.widths) (wordOf o f r) =
      [f.len, o.code, r.stall, r.gp, r.gn, r.sbs, r.sbw, r.d, r.a, r.b, r.fn, r.mod] ++ r.ext :=
  fieldsOf_joinFields (fit_wordOf h)

theorem wordOf_lt (o : Opc) (f : Format) (r : Raw) : wordOf o f r < 2 ^ lenBits f.len := by
  have hsum : (baseWidths ++ f.widths).sum = lenBits f.len := by cases f <;> rfl
  exact hsum ▸ joinFields_lt _ _

theorem wordOf_len_code (h : r.Fits f) : wordOf o f r % 4 = f.len ∧ wordOf o f r / 4 % 256 = o.code := by
  have hl := fieldsOf_wordOf (o := o) h
  simp only [baseWidths, List.cons_append, fieldsOf, List.cons.injEq] at hl
  obtain ⟨hlen, hcode, -⟩ := hl
  exact ⟨hlen, hcode⟩

theorem rawOfWord_wordOf (h : r.Fits f) : rawOfWord f (wordOf o f r) = r := by
  simp only [rawOfWord, fieldsOf_wordOf h]
  rfl

end

/-! ## The opcode and its formats -/

theorem opcOf_code (o : Opc) : opcOf o.code = some o := by cases o <;> rfl

/-- No opcode has two formats of one length (R60). -/
theorem format_len {o : Opc} {f : Format} (h : f ∈ o.formats) : o.format f.len = some f := by
  have hall : ∀ f ∈ o.formats, o.format f.len = some f := by cases o <;> decide
  exact hall f h

theorem opcAllowed_any (o : Opc) : opcAllowed DecCtx.any o = true := by simp [opcAllowed, DecCtx.any]

/-- The decoder reads the instruction i from the fields r of opcode o in format f. -/
structure ReadsAs (o : Opc) (f : Format) (r : Raw) (i : Instr) : Prop where
  format : f ∈ o.formats
  fits : r.Fits f
  parse : parse DecCtx.any f r (hdrOf r) o = some (.ok i)

theorem ReadsAs.decode {o : Opc} {f : Format} {r : Raw} {i : Instr} (h : ReadsAs o f r i) :
    decodeTableWord (lenBits f.len) (wordOf o f r) = some i := by
  obtain ⟨hw, hc⟩ := wordOf_len_code (o := o) h.fits
  have hcore : decodeCore DecCtx.any (wordOf o f r) = .ok i := by
    simp [decodeCore, hc, opcOf_code, hw, format_len h.format, opcAllowed_any, rawOfWord_wordOf h.fits, h.parse]
  have hbits : lenBits f.len ≠ 32 := by cases f <;> decide
  have hlen : f.len ≠ 3 := by cases f <;> decide
  simp [decodeTableWord, hbits, hw, hlen, hcore]

end Sys2Proof
end

section
/-! SUPPORT. The codes of types, functions and registers, and what they are read back as (R52, R62, R65, Tables 3.2, 3.10 to 3.12, O56). -/

namespace Sys2Proof
open Sys2Proof.Machine

/-! ## Codes and their readings (Tables 3.10 to 3.12 and 14.11) -/

/-- Every value has a code of w bits, which reads back as the value. -/
abbrev Coded {α : Type} (read : Nat → Option α) (code : α → Nat) (w : Nat) : Prop := ∀ t, read (code t) = some t ∧ InField w (code t)

/-! ### Codes of 6 bits: FN -/

@[simp] theorem ityOf_code : Coded ityOf ityCode 6 := fun t => by cases t <;> exact ⟨rfl, inField_of_lt (by decide)⟩
@[simp] theorem btyOf_code : Coded btyOf btyCode 6 := fun t => by cases t <;> exact ⟨rfl, inField_of_lt (by decide)⟩
@[simp] theorem mtyOf_code : Coded mtyOf mtyCode 6 := fun t => by rcases t with t | t <;> cases t <;> exact ⟨rfl, inField_of_lt (by decide)⟩
@[simp] theorem rtyOf_code : Coded rtyOf rtyCode 6 := fun t => by cases t <;> exact ⟨rfl, inField_of_lt (by decide)⟩
@[simp] theorem wtyOf_code : Coded wtyOf wtyCode 6 := fun t => by cases t <;> exact ⟨rfl, inField_of_lt (by decide)⟩
@[simp] theorem afmtOf_code : Coded afmtOf afmtCode 6 := fun t => by cases t <;> exact ⟨rfl, inField_of_lt (by decide)⟩
@[simp] theorem feedOf_code : Coded feedOf feedCode 6 := fun t => by cases t <;> exact ⟨rfl, inField_of_lt (by decide)⟩
@[simp] theorem drainOf_code : Coded drainOf drainCode 6 := fun t => by cases t <;> exact ⟨rfl, inField_of_lt (by decide)⟩
@[simp] theorem spcOf_code : Coded spcOf spcCode 6 := fun t => by cases t <;> exact ⟨rfl, inField_of_lt (by decide)⟩
@[simp] theorem saluOf_code : Coded saluOf saluCode 6 := fun t => by cases t <;> exact ⟨rfl, inField_of_lt (by decide)⟩
@[simp] theorem movsOf_code : Coded movsOf movsCode 6 := fun t => by cases t <;> exact ⟨rfl, inField_of_lt (by decide)⟩
@[simp] theorem ownOf_code : Coded ownOf ownCode 6 := fun t => by cases t <;> exact ⟨rfl, inField_of_lt (by decide)⟩
@[simp] theorem shflOf_code : Coded shflOf shflCode 6 := fun t => by cases t <;> exact ⟨rfl, inField_of_lt (by decide)⟩
@[simp] theorem winOf_code : Coded winOf winCode 6 := fun t => by cases t <;> exact ⟨rfl, inField_of_lt (by decide)⟩
@[simp] theorem classOf_code : Coded classOf classCode 6 := fun t => by cases t <;> exact ⟨rfl, inField_of_lt (by decide)⟩

/-! ### Codes of 3 bits: MOD -/

@[simp] theorem rmOf_code : Coded rmOf rmCode 3 := fun t => by cases t <;> exact ⟨rfl, inField_of_lt (by decide)⟩
@[simp] theorem cmpOf_code : Coded cmpOf cmpCode 3 := fun t => by cases t <;> exact ⟨rfl, inField_of_lt (by decide)⟩
@[simp] theorem fcmpOf_code : Coded fcmpOf fcmpCode 3 := fun t => by cases t <;> exact ⟨rfl, inField_of_lt (by decide)⟩
@[simp] theorem logicOf_code : Coded logicOf logicCode 3 := fun t => by cases t <;> exact ⟨rfl, inField_of_lt (by decide)⟩
@[simp] theorem shfOf_code : Coded shfOf shfCode 3 := fun t => by cases t <;> exact ⟨rfl, inField_of_lt (by decide)⟩
@[simp] theorem bitcOf_code : Coded bitcOf bitcCode 3 := fun t => by cases t <;> exact ⟨rfl, inField_of_lt (by decide)⟩
@[simp] theorem redOf_code : Coded redOf redCode 3 := fun t => by cases t <;> exact ⟨rfl, inField_of_lt (by decide)⟩
@[simp] theorem atomOpOf_code : Coded atomOpOf atomOpCode 3 := fun t => by cases t <;> exact ⟨rfl, inField_of_lt (by decide)⟩
@[simp] theorem atomfOf_code : Coded atomfOf atomfCode 3 := fun t => by cases t <;> exact ⟨rfl, inField_of_lt (by decide)⟩
@[simp] theorem barmOf_code : Coded barmOf barmCode 3 := fun t => by cases t <;> exact ⟨rfl, inField_of_lt (by decide)⟩

/-! ### Codes of 2 bits: SCOPE, ORD and NREG -/

@[simp] theorem ordOf_code : Coded ordOf ordCode 2 := fun t => by cases t <;> exact ⟨rfl, inField_of_lt (by decide)⟩
@[simp] theorem fenceOf_code : Coded fenceOf fenceCode 2 := fun t => by cases t <;> exact ⟨rfl, inField_of_lt (by decide)⟩
@[simp] theorem scopeOf_code : Coded scopeOf scopeCode 2 := fun t => by cases t <;> exact ⟨rfl, inField_of_lt (by decide)⟩
@[simp] theorem nregOf_code : Coded nregOf nregCode 2 := fun t => by cases t <;> exact ⟨rfl, inField_of_lt (by decide)⟩

/-! ### Codes of 4 bits: QM, and the filter instructions -/

@[simp] theorem qmOf_code : Coded qmOf qmCode 4 := fun t => by cases t <;> exact ⟨rfl, inField_of_lt (by decide)⟩
@[simp] theorem evOf_code : Coded evOf evCode 4 := fun t => by cases t <;> exact ⟨rfl, inField_of_lt (by decide)⟩
@[simp] theorem ealuOf_code : Coded ealuOf ealuCode 4 := fun t => by cases t <;> exact ⟨rfl, inField_of_lt (by decide)⟩
@[simp] theorem ecmpOf_code : Coded ecmpOf ecmpCode 4 := fun t => by cases t <;> exact ⟨rfl, inField_of_lt (by decide)⟩

/-! ### Flags, and codes with parts -/

@[simp] theorem inField_flag (w : Nat) (s : Bool) : InField (w + 1) (flag s) := by
  cases s
  · exact Nat.two_pow_pos _
  · exact Nat.one_lt_two_pow (Nat.succ_ne_zero w)

@[simp] theorem inField_two_flag (s : Bool) : InField 2 (2 * flag s) := by cases s <;> exact inField_of_lt (by decide)

@[simp] theorem inField_add_flag {w k : Nat} (hk : k + 1 < 2 ^ w) (s : Bool) : InField w (k + flag s) := by
  cases s
  · exact Nat.lt_of_succ_lt hk
  · exact hk

@[simp] theorem two_flag (s : Bool) : two 0 1 (flag s) = some s := by cases s <;> rfl

@[simp] theorem two_two_flag (s : Bool) : two 0 2 (2 * flag s) = some s := by cases s <;> rfl

@[simp] theorem two_add_flag (k : Nat) (s : Bool) : two k (k + 1) (k + flag s) = some s := by cases s <;> simp [two, flag]

theorem sityOf_code {t : ITy} : itySigned t = true → sityOf (ityCode t) = some t := by cases t <;> decide

theorem wityOf_code {t : ITy} : 32 ≤ ityBits t → wityOf (ityCode t) = some t := by cases t <;> decide

theorem cvtfOf_code {x y : Fmt} : x ≠ y → cvtfOf (8 * fmtxCode x + fmtxCode y) = some (x, y) := by cases x <;> cases y <;> decide

theorem rmCode_lt (m : Rm) : rmCode m < 4 := by cases m <;> decide

@[simp] theorem inField_cvtf_mod (m : Rm) (s : Bool) : InField 3 (rmCode m + 4 * flag s) := by
  cases m <;> cases s <;> exact inField_of_lt (by decide)

@[simp] theorem logicCode_eq_six {f : LogicFn} : logicCode f = 6 ↔ f = .not := by cases f <;> decide

@[simp] theorem bitcCode_eq_three {f : BitcFn} : bitcCode f = 3 ↔ f = .brev := by cases f <;> decide

@[simp] theorem inField_cvtf (x y : Fmt) : InField 6 (8 * fmtxCode x + fmtxCode y) := by
  cases x <;> cases y <;> exact inField_of_lt (by decide)

@[simp] theorem cvtiOf_code (s : Bool) (x : AFmt) (t : ITy) :
    cvtiOf (32 * flag s + 8 * cvtiFmtCode x + ityCode t) = some (s, x, t) ∧ InField 6 (32 * flag s + 8 * cvtiFmtCode x + ityCode t) := by
  cases s <;> cases x <;> cases t <;> exact ⟨rfl, inField_of_lt (by decide)⟩

@[simp] theorem nregAt_code (n : NReg) : nregAt (nregCode n) = nregCount n := by cases n <;> rfl

/-! ## Register codes (R8, R9, R52, Table 3.2) -/

@[simp] theorem inField_vC (r : VReg) : InField 9 (vC r) := by unfold InField vC; omega
@[simp] theorem inField_sC (r : SReg) : InField 9 (sC r) := by unfold InField sC; omega
@[simp] theorem inField_pC (r : PReg) : InField 9 (pC r) := by unfold InField pC; omega
@[simp] theorem inField_qC (r : QReg) : InField 9 (qC r) := by unfold InField qC; omega
@[simp] theorem inField_srcC (x : Src) : InField 9 (srcC x) := by cases x <;> simp [srcC]
@[simp] theorem inField_pqC (x : PQ) : InField 9 (pqC x) := by cases x <;> simp [pqC]
@[simp] theorem inField_gC (x : GReg) : InField 9 (gC x) := by
  cases x with
  | s r => simp [gC]
  | ctl c => cases c <;> exact inField_of_lt (by decide)

@[simp] theorem vAt_one (r : VReg) : vAt 1 r = true := by simp [vAt, Nat.mod_one]
@[simp] theorem srcAt_one (x : Src) : srcAt 1 x = true := by cases x <;> simp [srcAt, Nat.mod_one]
@[simp] theorem srcIAt_reg (n : Nat) (x : Src) : srcIAt n (.reg x) = srcAt n x := rfl

@[simp] theorem vF_code (pos : Nat) {n : Nat} {r : VReg} (h : vAt n r = true) : vF pos 320 n (vC r) = .ok r := by
  have hr : (r : Nat) % n = 0 := of_decide_eq_true h
  simp [vF, vC, hr]

@[simp] theorem sF_code (pos : Nat) {n : Nat} {r : SReg} (h : (r : Nat) % n = 0) : sF pos n (sC r) = .ok r := by
  simp [sF, sC, h]

@[simp] theorem sF_one_code (pos : Nat) (r : SReg) : sF pos 1 (sC r) = .ok r := sF_code pos (Nat.mod_one _)

@[simp] theorem pF_code (pos : Nat) (r : PReg) : pF pos (pC r) = .ok r := by simp [pF, pC]

@[simp] theorem qF_code (pos : Nat) (r : QReg) : qF pos (qC r) = .ok r := by simp [qF, qC]

@[simp] theorem pqF_code (pos : Nat) (x : PQ) : pqF pos (pqC x) = .ok x := by
  cases x with
  | p r =>
    have hp : pC r < 0x190 := by unfold pC; omega
    simp [pqF, pqC, hp, Chk.ap]
  | q r =>
    have hq : ¬ qC r < 0x190 := by unfold qC; omega
    simp [pqF, pqC, hq, Chk.ap]

@[simp] theorem gF_code (pos : Nat) (x : GReg) : gF pos (gC x) = .ok x := by
  cases x with
  | s r =>
    have hs : sC r ≠ 0x1A0 ∧ sC r ≠ 0x1A1 ∧ sC r ≠ 0x1A2 ∧ sC r ≠ 0x1A3 := by unfold sC; omega
    simp [gF, gC, hs, Chk.ap]
  | ctl c => cases c <;> rfl

/-- A source reads back where its register is aligned as the field asks. -/
theorem srcF_code (pos : Nat) {n m : Nat} {x : Src} (hv : ∀ r, x = .v r → vAt n r = true) (hs : ∀ r : SReg, x = .s r → (r : Nat) % m = 0) :
    srcF pos 320 n m (srcC x) = .ok x := by
  cases x with
  | v r =>
    have hr : vC r < 320 := r.isLt
    simp [srcF, srcC, hr, vF_code pos (hv r rfl), Chk.ap]
  | s r =>
    have hr : ¬ sC r < 320 := by unfold sC; omega
    simp [srcF, srcC, hr, sF_code pos (hs r rfl), Chk.ap]

@[simp] theorem srcF_of_srcAt (pos : Nat) {n : Nat} {x : Src} (h : srcAt n x = true) : srcF pos 320 n 1 (srcC x) = .ok x :=
  srcF_code pos (by rintro r rfl; exact h) fun r _ => Nat.mod_one r

@[simp] theorem srcF_of_storeData (pos : Nat) {w m : Nat} {x : Src} (h : storeData w m x = true) : srcF pos 320 (m * regsOf w) m (srcC x) = .ok x :=
  srcF_code pos (by rintro r rfl; exact h) (by rintro r rfl; exact of_decide_eq_true h)

@[simp] theorem srcF_of_coordsOk (pos : Nat) {x : Src} (h : coordsOk x = true) : srcF pos 320 4 2 (srcC x) = .ok x :=
  srcF_code pos (by rintro r rfl; exact h) (by rintro r rfl; exact of_decide_eq_true h)

end Sys2Proof
end

section
/-! SUPPORT. The readings of the decoder on the fields of an encoded instruction: each gives the operand back (R52 to R59, O56). -/

namespace Sys2Proof
open Sys2Proof.Machine

/-! ## Readings of the fields that an instruction was encoded in -/

@[simp] theorem Chk.ok_ap {α β : Type} (g : α → β) (a : α) : (Chk.ok g).ap (.ok a) = .ok (g a) := rfl
@[simp] theorem Chk.ok_skip {α : Type} (a : α) (u : Unit) : (Chk.ok a).skip (.ok u) = .ok a := rfl
@[simp] theorem isF_self (pos v : Nat) : isF pos v v = .ok () := by simp [isF]
@[simp] theorem zF_zero (pos : Nat) : zF pos 0 = .ok () := rfl

@[simp] theorem under_val (pos n : Nat) (hn : 0 < n) (x : Fin n) : under pos n hn x.val = .ok x := by
  simp [under, finOf, Nat.mod_eq_of_lt]
@[simp] theorem finOf_val (n : Nat) (hn : 0 < n) (x : Fin n) : finOf n hn x.val = x := by
  simp [finOf, Nat.mod_eq_of_lt]

@[simp] theorem inField_fin {w n : Nat} (hn : n ≤ 2 ^ w) (x : Fin n) : InField w x.val := lt_of_lt_of_le x.isLt hn

@[simp] theorem getAt_cons_zero (e x : Nat) (l : List Nat) : getAt e (x :: l) 0 = x := rfl
@[simp] theorem getAt_cons_succ (e x i : Nat) (l : List Nat) : getAt e (x :: l) (i + 1) = getAt e l i := rfl

@[simp] theorem any_lim : DecCtx.any.lim = 320 := rfl

/-! ### Immediates with parts (R157, R244, R248, R256, R306) -/

@[simp] theorem toNat_div_eq_zero (i : BitVec 16) : i.toNat / 65536 = 0 := Nat.div_eq_of_lt i.isLt

theorem wloadImm_parts {s q l : Nat} (hs : s < 256) (hq : q < 16) (hl : l < 4096) :
    InField 32 (s + 256 * q + 4096 * l) ∧ (s + 256 * q + 4096 * l) % 256 = s ∧ (s + 256 * q + 4096 * l) / 256 % 16 = q ∧
      (s + 256 * q + 4096 * l) / 4096 % 4096 = l ∧ (s + 256 * q + 4096 * l) / 16777216 = 0 := by
  unfold InField; omega

theorem gathImm_parts {z n : Nat} (hz : z < 16) (hn : n < 1024) :
    InField 32 (z + 16 * n) ∧ (z + 16 * n) % 16 = z ∧ (z + 16 * n) / 16 % 1024 = n ∧ (z + 16 * n) / 16384 = 0 := by
  unfold InField; omega

theorem mlatchImm_parts {s k : Nat} (hs : s < 256) (hk : k < 8) :
    InField 16 (s + 256 * k) ∧ (s + 256 * k) % 256 = s ∧ (s + 256 * k) / 256 % 8 = k ∧ (s + 256 * k) / 2048 = 0 := by
  unfold InField; omega

section
variable (h : Hdr) (d a b fn mod : Nat) (ext : List Nat)

@[simp] theorem mk_d : (mk h d a b fn mod ext).d = d := rfl
@[simp] theorem mk_a : (mk h d a b fn mod ext).a = a := rfl
@[simp] theorem mk_b : (mk h d a b fn mod ext).b = b := rfl
@[simp] theorem mk_fn : (mk h d a b fn mod ext).fn = fn := rfl
@[simp] theorem mk_mod : (mk h d a b fn mod ext).mod = mod := rfl
@[simp] theorem mk_x (i : Nat) : (mk h d a b fn mod ext).x i = getAt 0 ext i := rfl

@[simp] theorem hdrOf_mk : hdrOf (mk h d a b fn mod ext) = h := by
  obtain ⟨stall, gp, gn, sbs, sbw⟩ := h
  have hgn : (flag gn == 1) = gn := by cases gn <;> rfl
  simp [hdrOf, mk, hgn]

@[simp] theorem mk_fits (f : Format) : (mk h d a b fn mod ext).Fits f ↔
    InField 9 d ∧ InField 9 a ∧ InField 9 b ∧ InField 6 fn ∧ InField 3 mod ∧ Fit f.widths ext := by
  simp [Raw.Fits, baseWidths, mk]

theorem noGuard_mk {h : Hdr} (hg : noGuard h = true) (d a b fn mod : Nat) (ext : List Nat) :
    zF 14 (mk h d a b fn mod ext).gp = .ok () ∧ zF 17 (mk h d a b fn mod ext).gn = .ok () := by
  obtain ⟨hgp, hgn⟩ : (h.gp : Nat) = 0 ∧ h.gn = false := by simpa [noGuard] using hg
  simp [mk, hgp, hgn, flag]

/-! ### D, A, B, C and MOD -/

@[simp] theorem dZ_mk : dZ (mk h 0 a b fn mod ext) = .ok () := rfl
@[simp] theorem aZ_mk : aZ (mk h d 0 b fn mod ext) = .ok () := rfl
@[simp] theorem bZ_mk : bZ (mk h d a 0 fn mod ext) = .ok () := rfl
@[simp] theorem mZ_mk : mZ (mk h d a b fn 0 ext) = .ok () := rfl
@[simp] theorem extZ_mk (c : Nat) : extZ (mk h d a b fn mod (c :: 0 :: ext)) = .ok () := rfl

variable {n : Nat} {r : VReg} {x : Src}

@[simp] theorem dV_mk (hr : vAt n r = true) : dV DecCtx.any n (mk h (vC r) a b fn mod ext) = .ok r := vF_code 28 hr
@[simp] theorem aV_mk (hr : vAt n r = true) : aV DecCtx.any n (mk h d (vC r) b fn mod ext) = .ok r := vF_code 37 hr
@[simp] theorem aS_mk (hx : srcAt n x = true) : aS DecCtx.any n (mk h d (srcC x) b fn mod ext) = .ok x := srcF_of_srcAt 37 hx
@[simp] theorem bS_mk (hx : srcAt n x = true) : bS DecCtx.any n (mk h d a (srcC x) fn mod ext) = .ok x := srcF_of_srcAt 46 hx
@[simp] theorem cS_mk (hx : srcAt n x = true) : cS DecCtx.any n (mk h d a b fn mod (srcC x :: ext)) = .ok x := srcF_of_srcAt 64 hx

@[simp] theorem immF_mk (i : BitVec 32) : immF (mk h d a b fn mod (i.toNat :: ext)) = .ok i := by
  simp [immF]

@[simp] theorem bSI_mk_reg (hx : srcAt n x = true) : bSI DecCtx.any .v3 n (mk h d a (srcC x) fn mod ext) = .ok (.reg x) := by
  simp [bSI, hx]
@[simp] theorem bSI_mk_imm (i : BitVec 32) : bSI DecCtx.any .i96 n (mk h d a 0 fn mod (i.toNat :: ext)) = .ok (.imm i) := by
  simp [bSI]
@[simp] theorem bSm_mk_s (s : SReg) : bSm .v3 (mk h d a (sC s) fn mod ext) = .ok (.s s) := by simp [bSm]
@[simp] theorem bSm_mk_imm (i : BitVec 32) : bSm .i96 (mk h d a 0 fn mod (i.toNat :: ext)) = .ok (.imm i) := by simp [bSm]
@[simp] theorem bG_mk_s (s : SReg) : bG .v3 (mk h d a (sC s) fn mod ext) = .ok (.s s) := by simp [bG]
@[simp] theorem bG_mk_imm32 (i : BitVec 32) : bG .i96 (mk h d a 0 fn mod (i.toNat :: ext)) = .ok (.imm32 i) := by simp [bG]
@[simp] theorem bG_mk_imm64 (i : BitVec 64) : bG .i128 (mk h d a 0 fn mod (i.toNat :: ext)) = .ok (.imm64 i) := by
  simp [bG]
@[simp] theorem aG_mk_reg (g : GReg) : aG .v3 (mk h d (gC g) b fn mod ext) = .ok (.reg g) := by simp [aG]
@[simp] theorem aG_mk_imm32 (i : BitVec 32) : aG .i96 (mk h d 0 b fn mod (i.toNat :: ext)) = .ok (.imm32 i) := by simp [aG]
@[simp] theorem aG_mk_imm64 (i : BitVec 64) : aG .i128 (mk h d 0 b fn mod (i.toNat :: ext)) = .ok (.imm64 i) := by
  simp [aG]
@[simp] theorem moviImm_mk_imm32 (t : BTy) (i : BitVec 32) : moviImm .i96 t (mk h d a b fn mod (i.toNat :: ext)) = .ok (.imm32 i) := by
  simp [moviImm]
@[simp] theorem moviImm_mk_imm64 (i : BitVec 64) : moviImm .i128 .b64 (mk h d a b fn mod (i.toNat :: ext)) = .ok (.imm64 i) := by
  simp [moviImm]
@[simp] theorem offI_mk {i : BitVec 32} (hi : offOk i = true) : offI (mk h d a b fn mod (i.toNat :: ext)) = .ok i := by
  have h4 : i.toNat % 4 = 0 := of_decide_eq_true hi
  simp [offI, h4]

@[simp] theorem m01_mk (s : Bool) : m01 (mk h d a b fn (flag s) ext) = .ok s := by simp [m01, pick]
@[simp] theorem mSat_mk (s : Bool) : mSat (mk h d a b fn (flag s) ext) = .ok s := by simp [mSat]
@[simp] theorem mRm_mk (m : Rm) : mRm (mk h d a b fn (rmCode m) ext) = .ok m := by simp [mRm, pick]
@[simp] theorem mRmS_mk (m : Rm) (s : Bool) : mRmS (mk h d a b fn (rmCode m + 4 * flag s) ext) = .ok m := by
  simp [mRmS, pick, Nat.mod_eq_of_lt (rmCode_lt m)]
@[simp] theorem mSatBit_mk (m : Rm) {s : Bool} {t : Fmt} (hs : s = false ∨ t = .e4m3) :
    mSatBit t (mk h d a b fn (rmCode m + 4 * flag s) ext) = .ok s := by
  cases s with
  | false => simp [mSatBit, flag, rmCode_lt m]
  | true => simp [mSatBit, flag, hs.resolve_left Bool.noConfusion]
@[simp] theorem mK_mk {q : Bool} {k : Fin 8} (hk : q = false ∨ (k : Nat) ≤ 3) : mK q (mk h d a b fn k.val ext) = .ok k := by
  have hbad : ¬ (q = true ∧ 3 < (k : Nat)) := by rintro ⟨rfl, h3⟩; simp at hk; omega
  simp [mK, hbad]
@[simp] theorem mLop_mk {f : Format} {l : LogicFn} (hl : l = .not → f = .v3) : mLop f (mk h d a b fn (logicCode l) ext) = .ok l := by
  simp [mLop, pick]; exact hl
@[simp] theorem mW_mk (w : Fin 4) : mW (mk h d a b fn w.val ext) = .ok w := by simp [mW]
@[simp] theorem mRed_mk {prfx : Bool} {t : RTy} {o : RedOp} (ho : redPair prfx t o = true) :
    mRed prfx t (mk h d a b fn (redCode o) ext) = .ok o := by simp [mRed, ho]
@[simp] theorem mAtom_mk {exch : Bool} {t : WTy} {o : AtomOp} (ho : atomPair t o = true) (he : exch = true ∨ o ≠ .exch) :
    mAtom exch t (mk h d a b fn (atomOpCode o) ext) = .ok o := by simp [mAtom, ho, he]

/-! ### M128 -/

@[simp] theorem offM_mk (i : BitVec 32) : offM (mk h d a b fn mod (i.toNat :: ext)) = .ok i := by simp [offM]
@[simp] theorem scopeF_mk (off : Nat) (s : Scope) : scopeF (mk h d a b fn mod (off :: scopeCode s :: ext)) = .ok s := by
  simp [scopeF, pick]
@[simp] theorem scopeZ_mk (off : Nat) : scopeZ (mk h d a b fn mod (off :: 0 :: ext)) = .ok () := rfl

section
variable (off sc ord cw c nreg : Nat)

@[simp] theorem ord4_mk (q : Ord4) : ord4 (mk h d a b fn mod (off :: sc :: ordCode q :: ext)) = .ok q := by simp [ord4, pick]
@[simp] theorem ord2_mk_acq (q : Bool) : ord2 1 (mk h d a b fn mod (off :: sc :: flag q :: ext)) = .ok q := by
  simp [ord2, pick]
@[simp] theorem ord2_mk_rel (q : Bool) : ord2 2 (mk h d a b fn mod (off :: sc :: (2 * flag q) :: ext)) = .ok q := by
  simp [ord2, pick]
@[simp] theorem ordIn_mk : ordIn [0] (mk h d a b fn mod (off :: sc :: 0 :: ext)) = .ok () := rfl
@[simp] theorem noCw_mk : noCw (mk h d a b fn mod (off :: sc :: ord :: 0 :: ext)) = .ok () := rfl
@[simp] theorem cMZ_mk : cMZ (mk h d a b fn mod [off, sc, ord, cw, 0, 0, 0, nreg, 0]) = .ok () := rfl
@[simp] theorem nregZ_mk : nregZ (mk h d a b fn mod [off, sc, ord, cw, 0, c, 0, 0, 0]) = .ok () := rfl
@[simp] theorem mRes_mk : mRes (mk h d a b fn mod [off, sc, ord, cw, 0, c, 0, nreg, 0]) = .ok () := rfl

@[simp] theorem baseF_mk (hx : baseOk x = true) : baseF DecCtx.any (mk h d (srcC x) b fn mod ext) = .ok x := srcF_of_srcAt 37 hx
@[simp] theorem maddr_mk_reg (i : BitVec 32) (hx : baseOk x = true) :
    maddr DecCtx.any (mk h d (srcC x) b fn mod (i.toNat :: sc :: ord :: 0 :: ext)) = .ok (.reg x i) := by simp [maddr, hx]
@[simp] theorem maddr_mk_const (i : BitVec 32) :
    maddr DecCtx.any (mk h d 0 b fn mod (i.toNat :: sc :: ord :: 1 :: ext)) = .ok (.const i) := by simp [maddr]
@[simp] theorem maddrS_mk_reg (i : BitVec 32) (s : SReg) :
    maddrS (mk h d (srcC (.s s)) b fn mod (i.toNat :: sc :: ord :: 0 :: ext)) = .ok (.reg (.s s) i) := by simp [maddrS, srcC]
@[simp] theorem maddrS_mk_const (i : BitVec 32) :
    maddrS (mk h d 0 b fn mod (i.toNat :: sc :: ord :: 1 :: ext)) = .ok (.const i) := by simp [maddrS]
end
end

/-! ### X128 -/

/-- The fields above bit 63 that encode the completion fields x beside an immediate (R57, Table 3.6). -/
def asyncExt (x : Async) (imm : Nat) : List Nat :=
  [x.bar.elim 0 srcC, x.task.elim 0 Fin.val, 0, x.lp.val, flag x.task.isSome, flag x.bar.isSome, 0, imm]

theorem encA_eq (o : Opc) (h : Hdr) (d a b : Nat) (x : Async) (imm : Nat) :
    encA o h d a b x imm = (o, .x128, mk h d a b 0 0 (asyncExt x imm)) := by
  obtain ⟨_ | c, _ | t, lp⟩ := x <;> rfl

section
variable (h : Hdr) (d a b fn mod c task lp tsen bren imm : Nat)

@[simp] theorem xRes_mk : xRes (mk h d a b fn mod [c, task, 0, lp, tsen, bren, 0, imm]) = .ok () := rfl
@[simp] theorem lpF_mk (p : PReg) : lpF (mk h d a b fn mod [c, task, 0, p.val, tsen, bren, 0, imm]) = .ok p := by simp [lpF]
@[simp] theorem taskF_mk_none : taskF (mk h d a b fn mod [c, 0, 0, lp, 0, bren, 0, imm]) = .ok none := rfl
@[simp] theorem taskF_mk_some (t : Fin 4096) : taskF (mk h d a b fn mod [c, t.val, 0, lp, 1, bren, 0, imm]) = .ok (some t) := by
  simp [taskF]
@[simp] theorem launchRes_mk : launchRes (mk h d a b fn mod [0, 0, 0, lp, 0, 0, 0, imm]) = .ok () := rfl

variable {x : Async}

@[simp] theorem asyncF_mk (hx : asyncOk x = true) : asyncF DecCtx.any (mk h d a b fn mod (asyncExt x imm)) = .ok x := by
  obtain ⟨bar, task, lp⟩ := x
  have htask : taskF (mk h d a b fn mod (asyncExt ⟨bar, task, lp⟩ imm)) = .ok task := by
    cases task <;> simp [asyncExt, flag]
  have hbar : barF DecCtx.any (mk h d a b fn mod (asyncExt ⟨bar, task, lp⟩ imm)) = .ok bar := by
    cases bar with
    | none => rfl
    | some c => 
      have hc : srcF 64 320 2 1 (srcC c) = .ok c := srcF_of_srcAt 64 hx
      simp [barF, asyncExt, flag, hc]
  simp only [asyncF, htask, hbar, Chk.ok_ap]
  simp [asyncExt]
@[simp] theorem xRes_mk_async : xRes (mk h d a b fn mod (asyncExt x imm)) = .ok () := rfl
@[simp] theorem asyncExt_imm : getAt 0 (asyncExt x imm) 7 = imm := rfl
@[simp] theorem fit_asyncExt : Fit Format.x128.widths (asyncExt x imm) ↔ InField 32 imm := by
  obtain ⟨_ | c, _ | t, lp⟩ := x <;> simp [Format.widths, asyncExt, flag]

end

/-! ### Y128 -/

section
variable (h : Hdr) (d a b fn mod row nrow qm anc acm imm : Nat) (ext : List Nat)

@[simp] theorem qmF_mk (q : Qm) : qmF DecCtx.any (mk h d a b fn mod (row :: nrow :: qmCode q :: ext)) = .ok q := by
  simp [qmF, DecCtx.any, pick]
@[simp] theorem acmF_mk (o : Bool) : acmF (mk h d a b fn mod (row :: nrow :: qm :: anc :: flag o :: ext)) = .ok o := by
  simp [acmF, pick]
@[simp] theorem strideF_mk {len : Nat} {s : BitVec 16} (hs : strideOk len s.toNat = true) :
    strideF len (mk h d a b fn mod [row, nrow, qm, anc, acm, 0, s.toNat]) = .ok s := by simp [strideF, hs]
end

end Sys2Proof
end

section
/-! SUPPORT. Every instruction of the core set is read back from the fields it was encoded in (R62 to R66, O56). -/

namespace Sys2Proof
open Sys2Proof.Machine

/-- The decoder reads a well-formed instruction back from the fields that it was encoded in, if it was. -/
def ReadsBack (i : Instr) : Prop := i.wf = true → ∀ o f r, fields i = some (o, f, r) → ReadsAs o f r i

theorem readsBack_of {i : Instr} {o : Opc} {f : Format} {r : Raw} (he : fields i = some (o, f, r))
    (h : i.wf = true → r.Fits f ∧ parse DecCtx.any f r (hdrOf r) o = some (.ok i)) (hf : f ∈ o.formats := by decide) : ReadsBack i := by
  rintro hw o' f' r' he'
  obtain ⟨hr, hp⟩ := h hw
  obtain ⟨rfl, rfl, rfl⟩ : o = o' ∧ f = f' ∧ r = r' := by simpa using he.symm.trans he'
  exact ⟨hf, hr, hp⟩

theorem qmCode_lt (q : Qm) : qmCode q < 16 := (qmOf_code q).2

/-- Of every encoded instruction of the core set, case by case: each field that the decoder checks holds the code of the operand it gives back. -/
theorem readsBack (i : Instr) : ReadsBack i := by
  cases i with
  -- B is a register or an immediate.
  | iadd h t s d a b | isub h t s d a b | imul h t s d a b | imulh h t d a b | imin h t d a b | imax h t d a b | hadd2 h s m d a b
  | hmul2 h s m d a b | shfl h f w d a b | bcst h t d a b | rdln h t d a b | salu h f d a b =>
    cases b <;> exact readsBack_of rfl (by simp +contextual [Instr.wf, Format.widths, parse])
  | shf h f t d a b | bitc h f t d a b | icmp h t c d a b =>
    cases b <;> exact readsBack_of rfl (by simp +contextual [Instr.wf, Format.widths, parse, pick])
  | fadd h m d a b | fmul h m d a b | fmnx h m d a b | fcmp h c d a b =>
    cases b <;> exact readsBack_of rfl (by simp +contextual [Instr.wf, Format.widths, parse, only, inField_of_lt, pick])
  | scmp h s c d a b =>
    cases s <;> cases b <;> exact readsBack_of rfl (by simp +contextual [Instr.wf, Format.widths, parse, two, inField_of_lt, pick])
  | smov h d a =>
    cases a <;> exact readsBack_of rfl (by simp +contextual [Instr.wf, Format.widths, parse, only, inField_of_lt])
  -- Registers in every field.
  | imad | iabs | bfx | bfi | sel | fspc | hfma2 | fdp4 | cvtf | cvtq | mov | movs | movg =>
    exact readsBack_of rfl (by simp +contextual [Instr.wf, Format.widths, parse, sityOf_code, wityOf_code, cvtfOf_code])
  | ffma | fcls | ssel =>
    exact readsBack_of rfl (by simp +contextual [Instr.wf, Format.widths, parse, only, inField_of_lt])
  | elect | matchl | ownq | fragq | lred | prfx | tpack | tunpk | bfence | bwaita | backoff | ckpt | evtx | jmp | ret | exit | nop | yield =>
    exact readsBack_of rfl (by simp +contextual [Instr.wf, Format.widths, parse])
  | join | rett =>
    exact readsBack_of rfl (by simp +contextual [Instr.wf, Format.widths, parse, noGuard_mk])
  | cvti h s x t m d a =>
    cases s <;> exact readsBack_of rfl (by simp +contextual [Instr.wf, Format.widths, parse])
  | movi h t d i =>
    cases i <;> exact readsBack_of rfl (by simp +contextual [Instr.wf, Format.widths, parse, moviOk, regsOf, btyBits])
  | pset h x | vote h x =>
    cases x <;> exact readsBack_of rfl (by simp +contextual [Instr.wf, Format.widths, parse, two, below, inField_of_lt])
  | plog h f x =>
    by_cases hf : f = .not <;> cases x <;> exact readsBack_of rfl (by simp +contextual [Instr.wf, Format.widths, parse, two, pick, hf])
  | lop h f t d a b =>
    by_cases hf : f = .not
    · subst hf
      exact readsBack_of rfl (by simp +contextual [Instr.wf, Format.widths, parse, mLop, pick, logicOf, inField_of_lt])
    · cases b <;> exact readsBack_of (if_neg hf) (by simp +contextual [Instr.wf, Format.widths, parse, hf])
  -- I96 with an offset, a code or a count.
  | bra | call | brd | knot | waitc | trap | dbrk | mfsr | mtsr =>
    exact readsBack_of rfl (by simp +contextual [Instr.wf, Format.widths, parse, toNat_div_eq_zero])
  -- M128.
  | sld h t n sc d m =>
    rcases m with ⟨_ | _, _⟩ | _ <;> exact readsBack_of rfl (by simp +contextual [Instr.wf, Format.widths, parse, pick])
  | ld h t n q sc d m | ldaq h t n q sc d m | st h t n q sc m x | strl h t n q sc m x | tmov h n m x =>
    cases m <;> exact readsBack_of rfl (by simp +contextual [Instr.wf, Format.widths, parse, maddrOk, baseOk, pick])
  | sptst | spcst | atom | ared | acas | atomf | fence | bari | barv | bwait | btest =>
    exact readsBack_of rfl (by simp +contextual [Instr.wf, Format.widths, parse, pick])
  -- X128.
  | launchNow | launchArm | tsig =>
    exact readsBack_of rfl (by simp +contextual [Instr.wf, Format.widths, parse, toNat_div_eq_zero])
  | coll h a t lp =>
    cases t <;> exact readsBack_of rfl (by simp +contextual [Instr.wf, Format.widths, parse])
  | wload h a s q l x =>
    exact readsBack_of (congrArg some (encA_eq ..)) (by simp +contextual [Instr.wf, parse, pick, wloadImm_parts, qmCode_lt])
  | tcopy h a c x =>
    exact readsBack_of (congrArg some (encA_eq ..)) (by simp +contextual [Instr.wf, parse])
  | gath h d a b z n x =>
    obtain ⟨hin, -, hn, hzero⟩ := gathImm_parts (z.isLt.trans (by decide)) n.isLt
    have hz : (z : Nat) % 16 = z := Nat.mod_eq_of_lt (z.isLt.trans (by decide))
    exact readsBack_of (congrArg some (encA_eq ..)) (by simp +contextual [Instr.wf, parse, baseOk, hin, hz, hn, hzero])
  -- Y128.
  | afeed | adrain | mmul | mmulb | mzero =>
    exact readsBack_of rfl (by simp +contextual [Instr.wf, Format.widths, parse, yZ])
  | mlatch h q s k =>
    obtain ⟨hin, hs, hk, hzero⟩ := mlatchImm_parts s.isLt k.isLt
    exact readsBack_of rfl (by simp +contextual [Instr.wf, Format.widths, parse, yZ, hin, hs, hk, hzero])
  | _ => exact fun _ _ _ _ he => nomatch he

end Sys2Proof
end

section
/-! SUPPORT. Filter instructions are read back from their words (R272, Tables 14.10 and 14.11, O56). -/

namespace Sys2Proof
open Sys2Proof.Machine

theorem evCode_lt (f : EvField) : evCode f < 16 := (evOf_code f).2

@[simp] theorem inField_evCode (f : EvField) : InField 14 (evCode f) := (evCode_lt f).trans (by decide)

@[simp] theorem inField_esrcEb (b : ESrc) : InField 4 (esrcEb b) := by
  cases b <;> simp [esrcEb]

theorem esrcIm_lt (b : ESrc) : esrcIm b < 1024 := by
  cases b <;> simp only [esrcIm] <;> omega

theorem ealuCode_lt (o : EaluOp) : ealuCode o < 16 := (ealuOf_code o).2

theorem ecmpCode_lt (c : EcmpOp) : ecmpCode c < 16 := (ecmpOf_code c).2

/-- IMM14 of an instruction whose operation or width stands above ten other bits. -/
theorem subImm_parts {k e : Nat} (hk : k < 16) (he : e < 1024) :
    InField 14 (1024 * k + e) ∧ (1024 * k + e) / 1024 = k ∧ (1024 * k + e) / 512 % 2 = e / 512 ∧ (1024 * k + e) % 512 = e % 512 := by
  unfold InField; omega

theorem ofNat_subImm (k : Nat) (i : BitVec 10) : BitVec.ofNat 10 (1024 * k + i.toNat) = i := by
  have hmod : (1024 * k + i.toNat) % 2 ^ 10 = i.toNat := by omega
  exact BitVec.eq_of_toNat_eq ((BitVec.toNat_ofNat _ _).trans hmod)

theorem esrcOf_code (b : ESrc) : esrcOf (esrcEb b) (esrcIm b / 512) (esrcIm b % 512) = .ok b := by
  cases b with
  | reg r => simp [esrcOf, esrcEb, esrcIm]
  | imm i =>
    have hdiv : (512 + i.toNat) / 512 = 1 := by omega
    simp [esrcOf, esrcEb, esrcIm, hdiv, Nat.mod_eq_of_lt i.isLt]

section
variable {w k : Nat}

theorem esrcOf_subImm {b : ESrc} (hk : k < 16) (hb : w / 16384 % 16 = esrcEb b) (hi : w % 16384 = 1024 * k + esrcIm b) :
    esrcOf (w / 16384 % 16) (w % 16384 / 512 % 2) (w % 16384 % 512) = .ok b ∧ w % 16384 / 1024 = k := by
  obtain ⟨-, hdiv, hbit, hmod⟩ := subImm_parts hk (esrcIm_lt b)
  rw [hb, hi, hbit, hmod, hdiv]
  exact ⟨esrcOf_code b, rfl⟩

theorem decodeFilter_ealu {b : ESrc} {o : EaluOp} (hop : w / 67108864 = 4)
    (hb : esrcOf (w / 16384 % 16) (w % 16384 / 512 % 2) (w % 16384 % 512) = .ok b) (ho : ealuOf (w % 16384 / 1024) = some o) :
    decodeFilter w = .ok (.ealu o (finOf 16 (by decide) (w / 4194304 % 16)) (finOf 16 (by decide) (w / 262144 % 16)) b) := by
  simp only [decodeFilter, hop, hb, ho]

theorem decodeFilter_ecmp {b : ESrc} {c : EcmpOp} (hop : w / 67108864 = 5)
    (hb : esrcOf (w / 16384 % 16) (w % 16384 / 512 % 2) (w % 16384 % 512) = .ok b) (hc : ecmpOf (w % 16384 / 1024) = some c) :
    decodeFilter w = .ok (.ecmp c (finOf 16 (by decide) (w / 4194304 % 16)) (finOf 16 (by decide) (w / 262144 % 16)) b) := by
  simp only [decodeFilter, hop, hb, hc]

end

/-- The filter decoder reads the instruction i from the word w. -/
structure FilterReadsAs (w : Nat) (i : Instr) : Prop where
  lt : w < 2 ^ 32
  decode : decodeFilter w = .ok i

/-- A word with the fields of a filter instruction has 32 bits, and its decoding may be computed from these fields. -/
theorem filterReadsAs_of {i : Instr} {w eop ed ea eb im : Nat} (hop : eop < 16) (hw : w = fword eop ed ea eb im)
    (h : InField 4 ed ∧ InField 4 ea ∧ InField 4 eb ∧ InField 14 im ∧ (w / 67108864 = eop → w / 4194304 % 16 = ed → w / 262144 % 16 = ea →
      w / 16384 % 16 = eb → w % 16384 = im → decodeFilter w = .ok i)) : FilterReadsAs w i := by
  obtain ⟨hd, ha, hb, hi, hdec⟩ := h
  unfold InField at *
  unfold fword at hw
  exact ⟨by omega, hdec (by omega) (by omega) (by omega) (by omega) (by omega)⟩

/-- The instruction that the two bits k above the offset of EBF name, with EA (R277). -/
def ebfOf (k : Nat) (a : Fin 16) (o : Fin 64) : Except FErr Instr :=
  if k / 2 = 1 then (if a.val ≠ 0 then .error 2 else .ok (.ebf (.always (k % 2 == 1)) o))
  else if k % 2 = 1 then .ok (.ebf (.z a) o)
  else .ok (.ebf (.nz a) o)

theorem ebf_readsAs {w k : Nat} {a : Fin 16} {o : Fin 64} {i : Instr} (ho : (o : Nat) ≠ 0) (hk : k < 4) (hw : w = fword 6 0 a.val 0 (64 * k + o.val))
    (hi : ebfOf k a o = .ok i) : FilterReadsAs w i := by
  have him : InField 14 (64 * k + o) := by unfold InField; omega
  refine filterReadsAs_of (by decide) hw ⟨by simp, by simp, by simp, him, fun hop hd ha hb him => ?_⟩
  have hzero : (64 * k + (o : Nat)) / 256 = 0 := by omega
  have hhigh : (64 * k + (o : Nat)) / 128 = k / 2 := by omega
  have hlow : (64 * k + (o : Nat)) / 64 % 2 = k % 2 := by omega
  have hmod : (64 * k + (o : Nat)) % 64 = o := by omega
  have hoff : finOf 64 (by decide) (64 * k + (o : Nat)) = o := Fin.ext hmod
  rw [← hi, ebfOf]
  simp only [decodeFilter, hop, hd, ha, hb, him, hzero, hhigh, hlow, hmod, hoff, ho, finOf_val, and_self, if_true, if_false]

/-- The filter decoder reads every well-formed filter instruction back from its word. -/
theorem filterWord_readsAs {i : Instr} {w : Nat} (hwf : i.wf = true) (hw : filterWord i = some w) : FilterReadsAs w i := by
  cases i with
  | evld d f =>
    cases hw
    exact filterReadsAs_of (by decide) rfl (by simp +contextual [decodeFilter, evCode_lt, Nat.mod_eq_of_lt])
  | emovi d k i =>
    cases hw
    have hk : (k : Nat) = 4 → i.toNat < 256 := by simpa [Instr.wf, imp_iff_not_or] using hwf
    exact filterReadsAs_of (by decide) rfl (by simp +contextual [decodeFilter, hk])
  | emov | wsum | hinc | hmax | ehash | trig | emit | eend =>
    cases hw
    exact filterReadsAs_of (by decide) rfl (by simp +contextual [decodeFilter])
  | ealu o d a b =>
    cases hw
    obtain ⟨him, -⟩ := subImm_parts (ealuCode_lt o) (esrcIm_lt b)
    refine filterReadsAs_of (by decide) rfl ⟨by simp, by simp, by simp, him, fun hop hd ha hb hi => ?_⟩
    obtain ⟨hsrc, hdiv⟩ := esrcOf_subImm (ealuCode_lt o) hb hi
    simp [decodeFilter_ealu (o := o) hop hsrc (by simp [hdiv]), hd, ha]
  | ecmp c d a b =>
    cases hw
    obtain ⟨him, -⟩ := subImm_parts (ecmpCode_lt c) (esrcIm_lt b)
    refine filterReadsAs_of (by decide) rfl ⟨by simp, by simp, by simp, him, fun hop hd ha hb hi => ?_⟩
    obtain ⟨hsrc, hdiv⟩ := esrcOf_subImm (ecmpCode_lt c) hb hi
    simp [decodeFilter_ecmp (c := c) hop hsrc (by simp [hdiv]), hd, ha]
  | cmsu a b k i | cmsq a b k i =>
    cases hw
    have him := subImm_parts k.isLt i.isLt
    have hk : 1 ≤ (k : Nat) ∧ (k : Nat) ≤ 13 := by simpa [Instr.wf] using hwf
    exact filterReadsAs_of (by decide) rfl (by simp +contextual [decodeFilter, him, hk, ofNat_subImm])
  | ebf c o =>
    have ho : (o : Nat) ≠ 0 := by simpa [Instr.wf] using hwf
    rcases c with ⟨_ | _⟩ | a | a <;> cases hw
    · exact ebf_readsAs (k := 2) (a := 0) ho (by decide) rfl rfl
    · exact ebf_readsAs (k := 3) (a := 0) ho (by decide) rfl rfl
    · exact ebf_readsAs (k := 0) ho (by decide) (by simp) rfl
    · exact ebf_readsAs (k := 1) ho (by decide) rfl rfl
  | _ => cases hw

end Sys2Proof
end

section
/-! SUPPORT. The decoder gives instructions of the two sets alone, and exactly these have an encoding (R62, R272, O56). -/

namespace Sys2Proof
open Sys2Proof.Machine

/-- Whatever the reading c gives has P. -/
structure Chk.Gives {α : Type} (P : α → Prop) (c : Chk α) : Prop where
  holds : ∀ a, c = .ok a → P a

section
variable {α β : Type} {P : α → Prop}

theorem Chk.gives_ok {a : α} (h : P a) : (Chk.ok a).Gives P := ⟨by rintro _ ⟨⟩; exact h⟩

theorem Chk.gives_ap {Q : β → Prop} {f : Chk (α → β)} (hf : f.Gives fun g => ∀ a, Q (g a)) (x : Chk α) : (f.ap x).Gives Q := by
  refine ⟨fun b hb => ?_⟩
  cases f with
  | bad p => cases x <;> cases hb
  | ok g =>
    cases x with
    | bad q => cases hb
    | ok a =>
      cases hb
      exact hf.holds g rfl a

theorem Chk.gives_skip {f : Chk α} (hf : f.Gives P) (x : Chk Unit) : (f.skip x).Gives P := by
  refine ⟨fun b hb => ?_⟩
  cases f with
  | bad p => cases x <;> cases hb
  | ok a =>
    cases x with
    | bad q => cases hb
    | ok u => exact hf.holds b hb

theorem Chk.gives_ite {c c' : Chk α} (p : Prop) [Decidable p] (hc : c.Gives P) (hc' : c'.Gives P) : (if p then c else c').Gives P := by
  split
  · exact hc
  · exact hc'
end

/-- The reading of every opcode applies a constructor of an encoded instruction to what its fields give. -/
theorem parse_gives_encoded {cx : DecCtx} {f : Format} {r : Raw} {h : Hdr} {o : Opc} {c : Chk Instr} (hc : parse cx f r h o = some c) :
    c.Gives fun i => i.encoded = true := by
  cases o
  all_goals
    simp only [parse] at hc
    split at hc <;> cases hc
    apply_rules [Chk.gives_skip, Chk.gives_ap, Chk.gives_ite, Chk.gives_ok] <;> intros <;> rfl

/-- What the decoder of the core set gives is what some opcode's fields give. -/
theorem decodeCore_eq_ok {cx : DecCtx} {w : Nat} {i : Instr} (h : decodeCore cx w = .ok i) :
    ∃ o f, parse cx f (rawOfWord f w) (hdrOf (rawOfWord f w)) o = some (.ok i) := by
  unfold decodeCore at h
  split at h
  · cases h
  · split at h
    · cases h
    · split at h
      · dsimp only at h
        split at h <;> cases h
        exact ⟨_, _, ‹_›⟩
      · cases h

theorem decodeCore_encoded {cx : DecCtx} {w : Nat} {i : Instr} (h : decodeCore cx w = .ok i) : i.encoded = true := by
  obtain ⟨o, f, hp⟩ := decodeCore_eq_ok h
  exact (parse_gives_encoded hp).holds i rfl

theorem decodeFilter_encoded {w : Nat} {i : Instr} (h : decodeFilter w = .ok i) : i.encoded = true := by
  simp only [decodeFilter] at h
  repeat' split at h
  all_goals
    cases h <;> rfl

theorem encode_isSome (i : Instr) : (encode i).isSome = i.encoded := by
  cases i with
  | movi h t d x => cases x <;> rfl
  | plog h f x => cases x <;> rfl
  | pset h x => cases x <;> rfl
  | salu h f d a x => cases x <;> rfl
  | smov h d x => cases x <;> rfl
  | vote h x => cases x <;> rfl
  | ebf x o => cases x <;> rfl
  | lop h f t d a b =>
    by_cases hf : f = .not
    · subst hf; rfl
    · simp [encode, fields, hf, Instr.encoded]
  | _ => rfl

end Sys2Proof
end

section
/-! SUPPORT. Decoding inverts encoding (O56), and words written out from the tables (O60). -/

namespace Sys2Proof
open Sys2Proof.Machine

theorem decodeTableWord_eq_some {n w : Nat} {i : Instr} (h : decodeTableWord n w = some i) : decodeFilter w = .ok i ∨ decodeCore DecCtx.any w = .ok i := by
  unfold decodeTableWord at h
  split at h
  · split at h <;> cases h
    exact .inl ‹_›
  · split at h
    · cases h
    · split at h <;> cases h
      exact .inr ‹_›

theorem decodeTableWord_encoded {n w : Nat} {i : Instr} (h : decodeTableWord n w = some i) : i.encoded = true :=
  (decodeTableWord_eq_some h).elim decodeFilter_encoded decodeCore_encoded

/-- The encoding of a well-formed instruction lies within its length, and the decoder reads the instruction from it. -/
theorem decode_encode {i : Instr} {n w : Nat} (hwf : i.wf = true) (he : encode i = some (n, w)) :
    (n = 32 ∨ n = 64 ∨ n = 96 ∨ n = 128) ∧ w < 2 ^ n ∧ decodeTableWord n w = some i := by
  cases hf : fields i with
  | some e =>
    obtain ⟨o, f, r⟩ := e
    obtain ⟨rfl, rfl⟩ : lenBits f.len = n ∧ wordOf o f r = w := by simpa [encode, hf] using he
    have hbits : lenBits f.len = 64 ∨ lenBits f.len = 96 ∨ lenBits f.len = 128 := by cases f <;> decide
    exact ⟨.inr hbits, wordOf_lt o f r, (readsBack i hwf o f r hf).decode⟩
  | none =>
    obtain ⟨hw, rfl⟩ : filterWord i = some w ∧ 32 = n := by simpa [encode, hf] using he
    obtain ⟨hlt, hdec⟩ := filterWord_readsAs hwf hw
    exact ⟨.inl rfl, hlt, by simp [decodeTableWord, hdec]⟩

theorem encode_injective {i j : Instr} (hi : i.wf = true) (hj : j.wf = true) (he : encode i ≠ none) (hij : encode i = encode j) : i = j := by
  obtain ⟨⟨n, w⟩, hw⟩ := Option.ne_none_iff_exists'.1 he
  obtain ⟨-, -, hdi⟩ := decode_encode hi hw
  obtain ⟨-, -, hdj⟩ := decode_encode hj (hij ▸ hw)
  exact Option.some.inj (hdi.symm.trans hdj)

end Sys2Proof

namespace Sys2Proof.Spec
open Sys2Proof.Machine

/-- Settles O56: each field of an encoding holds the code of one operand, and the decoder's reading of the field gives that operand back. -/
theorem decodeInvertsEncode : Obligations.DecodeInvertsEncode := by
  unfold Obligations.DecodeInvertsEncode
  refine ⟨fun _ _ _ => decode_encode, fun _ _ => encode_injective, fun i => ?_, fun _ _ _ => decodeTableWord_encoded⟩
  rw [← encode_isSome, Option.isSome_iff_ne_none]

/-- Settles O60: each word is the encoding of its instruction, which is well formed, and no opcode has the code 0x0F. -/
theorem decodedWords : Obligations.DecodedWords := by
  unfold Obligations.DecodedWords
  have word : ∀ {i : Instr} {n w : Nat}, i.wf = true → encode i = some (n, w) → decodeTableWord n w = some i :=
    fun hwf he => (decode_encode hwf he).2.2
  exact ⟨word rfl rfl, word rfl rfl, word rfl rfl, word rfl rfl, word rfl rfl, word rfl rfl, word rfl rfl, rfl⟩

end Sys2Proof.Spec
end

section
/-! SUPPORT. A JOIN at which the entry split off takes a path slot while its lanes wait (R130, R132, O21). -/

namespace Sys2Proof.Spec
open Sys2Proof.Machine

/-- A group at the JOIN of knot 3, of which lane 0 is no member. Its free entry 2 stands in the waiting order and knot 4, whose lanes have all arrived, is still
held: no hypothesis of O21 rules these out. -/
def staleWaiter : Group :=
  { Group.empty with
    live := true, pres := 0xFFFF, waiting := [2]
    frags := [(0, { Frag.empty with fst := .live, slot := 1, mask := 0x3 }), (1, { Frag.empty with fst := .joining, kix := 4, mask := 0x100 })]
    knots := [(3, { valid := true, mask := 0xE, arr := 0, pc := 0, ord := 0 }), (4, { valid := true, mask := 0x100, arr := 0x100, pc := 64, ord := 1 })] }

/-- `staleWaiter` in group slot 0 of core 0, with the turn. -/
def staleWaiterTurn : State := { State.reset with groups := [(0, staleWaiter)] }

/-- A JOIN without a guard. -/
def joinHdr : Hdr := { stall := 0, gp := 0, gn := false, sbs := 0, sbw := 0 }

/-- The path slot of entry 2 of group 0 in an answer. -/
def slotOfEntryTwo : Answer → Nat
  | .next t => ((t.groupsAt 0).frag 2).slot
  | _ => 0

theorem turn_staleWaiter : Turn staleWaiterTurn (.grp 0 0) staleWaiter 0 := .group 0 0 rfl rfl rfl

/-- The member lane waits in entry 2, and the release of knot 4 hands that entry, first in the waiting order, path slot 2. -/
theorem join_staleWaiter_slot : slotOfEntryTwo (exec (.join joinHdr) staleWaiterTurn) = 2 := by decide +kernel

/-- Refutes O21: where only some lanes are members and the lowest lane is none of them, they wait in the lowest free entry; where that entry stands in the waiting
order (O21 excludes this only for the fragment's own entry) and another knot is released too, it is given a path slot. -/
theorem not_reconvergence : ¬ Obligations.Reconvergence := by
  unfold Obligations.Reconvergence
  intro h
  obtain ⟨-, -, -, partialArrival⟩ := h staleWaiterTurn 0 0 staleWaiter joinHdr turn_staleWaiter
  obtain ⟨t, ht, -, -, hslot, -⟩ := partialArrival 3 2 ((List.range 13).map (· + 3)) (by decide) (by decide) (by decide) (by decide) (by decide)
    (by decide) (by decide) (by decide) (by decide)
  have hgot : slotOfEntryTwo (.next t) = 2 := ht ▸ join_staleWaiter_slot
  exact absurd (hgot.symm.trans hslot) (by decide)

end Sys2Proof.Spec
end

section
/-! SUPPORT. The market's search for a core, what a place found there meets, and waves (R118, R119, R121, R122, R137, O45). -/

namespace Sys2Proof.Machine

/-! ## A place on a core (R118, R119) -/

/-- The least of a list, as a fold finds it, is one of the list or what the fold began with. -/
theorem foldl_least_mem {b : Nat} : ∀ (l : List Nat) (m : Option Nat),
    l.foldl (fun (m : Option Nat) b => match m with | some x => some (min x b) | none => some b) m = some b → b ∈ l ∨ m = some b
  | [], _, h => .inr h
  | a :: l, m, h => by
    rcases foldl_least_mem l _ h with h | h
    · exact .inl (List.mem_cons_of_mem _ h)
    · cases m with
      | none => exact .inl (by simp_all)
      | some x =>
        rcases Nat.le_total x a with hxa | hax
        · exact .inr (by simpa [Nat.min_eq_left hxa] using h)
        · exact .inl (by simp_all)

/-- A free run ends below the top and meets no other run (R119). -/
theorem lowestRun_eq_some {segs : List Seg} {n top b : Nat} (h : lowestRun segs n top = some b) :
    b + n ≤ top ∧ ∀ g ∈ segs, g.len = 0 ∨ b + n ≤ g.base ∨ g.base + g.len ≤ b := by
  rcases foldl_least_mem _ _ h with h | h
  · obtain ⟨-, h⟩ := List.mem_filter.1 h
    simpa [or_assoc] using h
  · cases h

theorem mem_freeGroups {s : State} {core k : Nat} (h : k ∈ s.freeGroups core) : k / 256 = core ∧ (s.groupsAt k).live = false := by
  simp only [State.freeGroups, State.slotFree, List.mem_filter, List.mem_map, List.mem_range, Bool.and_eq_true, Bool.not_eq_true'] at h
  obtain ⟨⟨i, hi, rfl⟩, ⟨hlive, -⟩, -⟩ := h
  exact ⟨by omega, hlive⟩

/-- A place on a core, found for a group of its own: the core may be used, its budgets and registers suffice, the group slots are the first free ones, and
the segment and the rows are free runs (R118, R119). -/
theorem spot_eq_some {s : State} {l : Launch} {ctx core : Nat} {p : Spot} (h : s.spot l ctx core none = some p) :
    (s.coresAt core).fenced = false ∧ bit (s.coreMask core) l.vf = true ∧ s.budgetsOk l core = true ∧
    s.regBytes core + 64 * recRegs l.rec_ * l.request.groups ≤ 524288 ∧
    p.groups = (s.freeGroups core).take l.request.groups ∧ l.request.groups ≤ p.groups.length ∧
    lowestRun (s.coresAt core).segs l.request.csb 262144 = some p.seg ∧ lowestRun (s.coresAt core).accs l.request.acr 1024 = some p.acc := by
  simp only [State.spot, Option.isSome_none, Bool.false_eq_true, if_false] at h
  split at h
  · cases h
  · rename_i husable
    split at h
    · cases h
    · rename_i hroom
      split at h
      · rename_i hseg hacc _
        cases h
        simp only [Bool.or_eq_true, Bool.not_eq_true', not_or, Bool.not_eq_true, Bool.not_eq_false, decide_eq_true_eq, Nat.not_lt] at husable hroom
        exact ⟨husable.1.1, husable.1.2, husable.2, hroom.2, rfl, hroom.1, hseg, hacc⟩
      · cases h

/-! ## The search (R121) -/

/-- The market's search: the first core with room, and the place there. -/
def State.search (s : State) (l : Launch) (ctx : Nat) : Option (Nat × Spot) :=
  s.searchCores.findSome? fun c => (s.spot l ctx c none).map fun p => (c, p)

/-- The first core of the search that has room is the m-th after the last one used, and p is the place there. -/
def State.FindsSpot (s : State) (l : Launch) (ctx core : Nat) (p : Spot) : Prop :=
  ∃ m, m < 2048 ∧ core = (s.mktCore + 1 + m) % 2048 ∧ s.spot l ctx core none = some p ∧
    ∀ j, j < m → s.spot l ctx ((s.mktCore + 1 + j) % 2048) none = none

theorem State.FindsSpot.search {s : State} {l : Launch} {ctx core : Nat} {p : Spot} (h : s.FindsSpot l ctx core p) :
    s.search l ctx = some (core, p) := by
  obtain ⟨m, hm, rfl, hp, hnone⟩ := h
  have hsplit : List.range 2048 = List.range m ++ (List.range (2047 - m + 1)).map (m + ·) := by
    rw [← List.range_add]; congr 1; omega
  rw [State.search, State.searchCores, hsplit, List.range_succ_eq_map, List.map_append, List.map_cons, List.map_cons, List.findSome?_eq_some_iff]
  refine ⟨_, _, _, rfl, by simp [hp], fun x hx => ?_⟩
  obtain ⟨j, hj, rfl⟩ := List.mem_map.1 hx
  simp [hnone j (List.mem_range.1 hj)]

/-! ## Placing many workgroups (R137) -/

/-- The writes that place the next workgroup of a wave at the place that the search found. -/
def Prog.placeAt (id : Nat) (l : Launch) (q : Nat × Spot) : Prog := Prog.seq (Prog.place id l q.1 q.2 0 0 false) (Prog.put (.mktCore q.1))

/-- The next workgroup of a launch as the market would place it, where the launch is there and some core has room. -/
def State.nextPlace (s : State) (id ctx : Nat) : Option Prog :=
  (s.launchesAt id).bind fun l => (s.search l ctx).map (Prog.placeAt id l)

/- `placeMany` and `wavePlaces` are unfolded by hand: the equations that Lean derives for them would evaluate the list of 2,048 cores. -/
theorem placeMany_succ (s : State) (id ctx n : Nat) : s.placeMany id ctx (n + 1) =
    (s.nextPlace id ctx).elim (s, 0) fun p => (((runAll s (p s)).placeMany id ctx n).1, ((runAll s (p s)).placeMany id ctx n).2 + 1) := by
  delta State.placeMany Nat.brecOn Nat.brecOn.go State.placeMany._f State.nextPlace State.search
  dsimp only
  cases s.launchesAt id with
  | none => rfl
  | some l => dsimp only [Option.bind_some]; cases s.searchCores.findSome? _ <;> rfl

theorem wavePlaces_succ (s : State) (id ctx n : Nat) : execWaveStart.wavePlaces s id ctx (n + 1) =
    (s.nextPlace id ctx).elim [] fun p => p s ++ execWaveStart.wavePlaces (runAll s (p s)) id ctx n := by
  delta execWaveStart.wavePlaces Nat.brecOn Nat.brecOn.go execWaveStart.wavePlaces._f State.nextPlace State.search
  dsimp only
  cases s.launchesAt id with
  | none => rfl
  | some l => dsimp only [Option.bind_some]; cases s.searchCores.findSome? _ <;> rfl

/-- Where the search finds a place for the next workgroup, the rest goes on from there. -/
theorem placeMany_of_found {s : State} {id ctx core : Nat} {l : Launch} {p : Spot} (hl : s.launchesAt id = some l) (hf : s.FindsSpot l ctx core p) (n : Nat) :
    let v := runAll s (Prog.place id l core p 0 0 false s ++ [.mktCore core])
    s.placeMany id ctx (n + 1) = ((v.placeMany id ctx n).1, (v.placeMany id ctx n).2 + 1) := by
  have hnext : s.nextPlace id ctx = some (Prog.placeAt id l (core, p)) := by simp [State.nextPlace, hl, hf.search]
  rw [placeMany_succ, hnext]
  rfl

/-- The writes of a wave lead to the state in which its workgroups are placed one after another. -/
theorem runAll_wavePlaces (id ctx : Nat) : ∀ (n : Nat) (s : State), runAll s (execWaveStart.wavePlaces s id ctx n) = (s.placeMany id ctx n).1
  | 0, _ => rfl
  | n + 1, s => by
    rw [wavePlaces_succ, placeMany_succ]
    cases s.nextPlace id ctx with
    | none => rfl
    | some p => simp only [Option.elim_some, runAll_append, runAll_wavePlaces id ctx n]

theorem placeMany_le (id ctx : Nat) : ∀ (n : Nat) (s : State), (s.placeMany id ctx n).2 ≤ n
  | 0, _ => Nat.le_refl 0
  | n + 1, s => by
    rw [placeMany_succ]
    cases s.nextPlace id ctx with
    | none => exact Nat.zero_le _
    | some p => exact Nat.succ_le_succ (placeMany_le id ctx n _)

/-! ## The size of a wave (R137, log 49) -/

theorem le_foldl_min {n : Nat} : ∀ (l : List Nat) (a : Nat), n ≤ l.foldl min a ↔ n ≤ a ∧ ∀ x ∈ l, n ≤ x
  | [], a => by simp
  | x :: l, a => by simp [le_foldl_min l, and_assoc]

/-- How many shares of n a resource of `have_` holds; of nothing, more than any wave takes. -/
def shares (have_ n : Nat) : Nat := if n = 0 then 4294967295 else have_ / n

theorem le_shares {m have_ n : Nat} (hm : m ≤ 4294967295) : m ≤ shares have_ n ↔ m * n ≤ have_ := by
  unfold shares
  split
  · simp_all
  · exact Nat.le_div_iff_mul_le (by omega)

/-- How many workgroups of a launch an empty core holds. -/
def Launch.perCore (l : Launch) : Nat :=
  [shares 256 l.request.groups, shares 524288 (64 * recRegs l.rec_ * l.request.groups), shares 262144 l.request.csb,
    shares 1024 l.request.acr].foldl min 256

theorem waveSize_eq (s : State) (l : Launch) : s.waveSize l =
    [shares (effective 1 319 288 (s.rcbs l.chain)) l.request.slots, shares (effective 2 383 352 (s.rcbs l.chain)) l.request.rfb,
      shares (effective 3 351 320 (s.rcbs l.chain)) l.request.csb, shares (effective 4 287 256 (s.rcbs l.chain)) l.request.acr].foldl min
      (min 2048 (effective 0 255 240 (s.rcbs l.chain)) * l.perCore) := rfl

/-- An empty core holds m workgroups exactly where m shares of each resource fit; its group slots hold at most 256. -/
theorem le_perCore_iff {l : Launch} (hgroups : 1 ≤ l.request.groups) (m : Nat) : m ≤ l.perCore ↔
    m * l.request.groups ≤ 256 ∧ m * (64 * recRegs l.rec_ * l.request.groups) ≤ 524288 ∧ m * l.request.csb ≤ 262144 ∧ m * l.request.acr ≤ 1024 := by
  have hslots : m * l.request.groups ≤ 256 → m ≤ 256 := fun h => (Nat.le_mul_of_pos_right m hgroups).trans h
  simp only [Launch.perCore, le_foldl_min, List.forall_mem_cons, List.not_mem_nil, false_imp_iff, implies_true, and_true]
  by_cases hm : m ≤ 256
  · have hm' : m ≤ 4294967295 := by omega
    simp only [le_shares hm', hm, true_and]
  · exact ⟨fun h => absurd h.1 hm, fun h => absurd (hslots h.1) hm⟩

theorem perCore_le (l : Launch) : l.perCore ≤ 256 := ((le_foldl_min _ _).1 (Nat.le_refl l.perCore)).1

/-- A product bounds n exactly where one with a smaller factor does, or the same. -/
theorem le_mul_iff_exists (n a b : Nat) : n ≤ a * b ↔ ∃ m, m ≤ b ∧ n ≤ a * m :=
  ⟨fun h => ⟨b, Nat.le_refl b, h⟩, fun ⟨_, hm, h⟩ => h.trans (Nat.mul_le_mul_left a hm)⟩

theorem le_waveSize_iff {s : State} {l : Launch} (n : Nat) (hlanes : recLanes l.rec_ ≠ 0) :
    let r := l.request
    let b := s.rcbs l.chain
    n ≤ s.waveSize l ↔ n * r.slots ≤ effective 1 319 288 b ∧ n * r.rfb ≤ effective 2 383 352 b ∧ n * r.csb ≤ effective 3 351 320 b ∧
      n * r.acr ≤ effective 4 287 256 b ∧ ∃ m, m * r.groups ≤ 256 ∧ m * (64 * recRegs l.rec_ * r.groups) ≤ 524288 ∧ m * r.csb ≤ 262144 ∧ m * r.acr ≤ 1024 ∧
        n ≤ min 2048 (effective 0 255 240 b) * m := by
  intro r b
  have hgroups : 1 ≤ r.groups := by
    show 1 ≤ ceilDiv (recLanes l.rec_) 16
    unfold ceilDiv; omega
  have hsmall : n ≤ min 2048 (effective 0 255 240 b) * l.perCore → n ≤ 4294967295 := fun h =>
    h.trans ((Nat.mul_le_mul (Nat.min_le_left _ _) (perCore_le l)).trans (by decide))
  have hcores : n ≤ min 2048 (effective 0 255 240 b) * l.perCore ↔ ∃ m, m * r.groups ≤ 256 ∧ m * (64 * recRegs l.rec_ * r.groups) ≤ 524288 ∧
      m * r.csb ≤ 262144 ∧ m * r.acr ≤ 1024 ∧ n ≤ min 2048 (effective 0 255 240 b) * m := by
    simp only [le_mul_iff_exists n _ l.perCore, le_perCore_iff hgroups, and_assoc]
    rfl
  rw [← hcores, waveSize_eq, le_foldl_min]
  simp only [List.forall_mem_cons, List.not_mem_nil, false_imp_iff, implies_true, and_true]
  by_cases hn : n ≤ 4294967295
  · simp only [le_shares hn]
    tauto
  · tauto
/-! ## Visits, fills and waves (R121, R122, R137) -/

theorem placing_eq {s : State} {pos id : Nat} {l : Launch} {t : List (Nat × Launch)} (h : s.waiting pos = (id, l) :: t) :
    s.placing pos = if s.sliceHeld l ∨ s.waitsSaved id then [] else (id, l) :: t := by
  simp only [State.placing, h, Bool.or_eq_true]

/-- A visit places the next workgroup of the oldest launch at the place that the search found, and fills its group where it is merge-eligible. -/
theorem runAll_visit {s : State} {pos q id core : Nat} {l : Launch} {p : Spot} {more : List (Nat × Launch)} (hp : s.placing pos = (id, l) :: more)
    (hdet : recDet l.rec_ = false) (hf : s.FindsSpot l (s.launchCtx l q) core p) :
    let v := runAll s (Prog.place id l core p 0 0 l.elig s ++ [.mktCore core])
    runAll s (Prog.visit pos q s) = if l.elig
      then runAll v (Prog.each (fun i => Prog.on fun w => Prog.fillFrom l core (p.groups.headD 0) q i (32 + w.backlog i)) (v.pendingQueues pos) v) else v := by
  have hs := hf.search
  unfold State.search at hs
  simp only [Prog.visit, runAll_seq, Prog.on, hp, List.isEmpty_cons, Bool.false_and, Prog.when_false, runAll_skip, hdet, Bool.false_eq_true, if_false,
    hs, runAll_all_cons, runAll_all_nil, runAll_append, runAll_put, runAll_cons, runAll_nil]
  cases l.elig with
  | false => rw [Prog.when_false, runAll_skip, if_neg Bool.false_ne_true]
  | true => rw [Prog.when_true, if_pos rfl, Prog.on]

/-- What the workgroups that are to start in a group hold of its lanes. -/
def State.lanesTaken (s : State) (k : Nat) : Nat :=
  ((s.admits.filter fun a => a.slot == k).map fun a => match s.wgsAt a.wg with
    | some w => w.lanes
    | none => 0).sum

theorem foldl_add_eq_sum {α : Type} (f : α → Nat) (l : List α) : l.foldl (fun n a => n + f a) 0 = (l.map f).sum := by
  rw [← List.foldl_map (f := f) (g := (· + ·)), List.sum_eq_foldl]

/-- Filling stops at a workgroup that does not match the seed or finds too few lanes. -/
theorem fillFrom_stops {s : State} {seed l : Launch} {core k q pos n id : Nat} {more : List (Nat × Launch)} (hp : s.placing pos = (id, l) :: more)
    (h : s.matches_ seed l = false ∨ 16 < s.lanesTaken k + recLanes l.rec_) : Prog.fillFrom seed core k q pos (n + 1) s = [] := by
  have hc : (!s.matches_ seed l || decide (16 < s.lanesTaken k + recLanes l.rec_)) = true := by simpa using h
  rw [Prog.fillFrom]
  simp only [Prog.on, hp, foldl_add_eq_sum]
  split
  · rfl
  · exact absurd hc ‹_›

/-- A workgroup that matches the seed and fits is placed in the seed's group, and filling goes on. -/
theorem runAll_fillFrom {s : State} {seed l : Launch} {core k q pos n id : Nat} {p : Spot} {more : List (Nat × Launch)} (hp : s.placing pos = (id, l) :: more)
    (hm : s.matches_ seed l = true) (hl : s.lanesTaken k + recLanes l.rec_ ≤ 16) (hs : s.spot l (s.launchCtx l q) core (some k) = some p) :
    let v := runAll s (Prog.place id l core p (s.lanesTaken k) (s.admits.filter fun a => a.slot == k).length true s)
    runAll s (Prog.fillFrom seed core k q pos (n + 1) s) = runAll v (Prog.fillFrom seed core k q pos n v) := by
  have hc : ¬ (!s.matches_ seed l || decide (16 < s.lanesTaken k + recLanes l.rec_)) = true := by simp [hm]; omega
  rw [Prog.fillFrom]
  simp only [Prog.on, hp, foldl_add_eq_sum, hs]
  split
  · exact absurd ‹_› hc
  · exact runAll_seq ..

/-- The state once a free value has been drawn (log 2). -/
def State.drawn (s : State) : State := { s with fresh := s.fresh + 1 }

theorem Prog.free_go (n : Nat) (k : Nat → Prog) (s : State) : (Prog.free n k).go s = (k (Config.freeNat s.fresh % n)).go s.drawn := by
  simp only [Prog.free, Prog.on, Prog.go, runAll_seq, runAll_put]
  rfl

theorem Prog.put_seq_go (e : Effect) (p : Prog) (s : State) : (Prog.seq (Prog.put e) p).go s = p.go (e.run s) := rfl

/-- A visit goes to the first queue with work, and the next one begins after it. -/
theorem exec_marketVisit {s : State} {pos : Nat} {rest : List Nat} (h : s.pendingQueues s.mktNext = pos :: rest) :
    exec .marketVisit s = (Prog.visit pos (Config.freeNat s.fresh % 2 ^ 200)).go { s.drawn with mktNext := (pos + 1) % 1344 } := by
  show execMarketVisit s = _
  unfold execMarketVisit
  rw [h]
  dsimp only
  rw [Prog.free_go, Prog.put_seq_go]
  rfl

/-- A wave is placed whole or not at all (R137). -/
theorem exec_waveStart {s : State} {id ctx size : Nat} {l : Launch} (hl : s.launchesAt id = some l) (hdet : recDet l.rec_ = true) (hret : l.retired = false)
    (hold : (s.placing (queuePos l.origin l.vf)).head?.map (·.1) = some id) (hleft : l.next < recNwg l.rec_)
    (hwgs : ∀ p ∈ s.wgs, ∀ w, p.2 = some w → w.launch ≠ id) (hgroups : ∀ p ∈ s.groups, p.2.live = true → p.2.wave ≠ some id)
    (hctx : ∀ q, s.drawn.launchCtx l q = ctx) (hsize : size = min (recNwg l.rec_ - l.next) (s.drawn.waveSize l)) (hne : size ≠ 0) :
    exec (.waveStart id) s = .next (if (s.drawn.placeMany id ctx size).2 = size then (s.drawn.placeMany id ctx size).1 else s.drawn) := by
  have hidle : (s.wgs.any (fun p => match p.2 with | some w => w.launch == id | none => false) ||
      s.groups.any fun p => p.2.live && p.2.wave == some id) = false := by
    simp only [Bool.or_eq_false_iff, List.any_eq_false]
    refine ⟨fun p hp => ?_, fun p hp => by simpa using hgroups p hp⟩
    cases hw : p.2 with
    | none => simp
    | some w => simpa using hwgs p hp w hw
  have hleft' : recNwg l.rec_ - l.next ≠ 0 := by omega
  show execWaveStart id s = _
  simp only [execWaveStart, hl, hdet, hret, hold, hleft', bne_self_eq_false, Bool.not_true, Bool.false_or, Bool.or_false, decide_false]
  split
  · exact absurd (hidle.symm.trans ‹_›) Bool.false_ne_true
  · rw [Prog.free_go]
    simp only [Prog.on, Prog.go, hctx, ← hsize, hne, false_or]
    have hle := placeMany_le id ctx size s.drawn
    by_cases hall : (s.drawn.placeMany id ctx size).2 = size
    · rw [if_neg (by omega), if_pos hall, runAll_wavePlaces]
    · rw [if_pos (by omega), if_neg hall, runAll_skip]

end Sys2Proof.Machine

namespace Sys2Proof.Spec
open Sys2Proof.Machine

/-- Settles O45: a visit and a wave by the search of the model, a place by what the model has checked of it. -/
theorem marketPlaces : Obligations.MarketPlaces := by
  unfold Obligations.MarketPlaces
  intro finds places
  refine ⟨?visit, ?fill, ?wave, ?size, ?queue, ?many, ?place⟩
  case visit =>
    intro s pos id core l p rest more hpos u hp hdet hf v
    refine ⟨Config.freeNat s.fresh % 2 ^ 200, ?_⟩
    rw [exec_marketVisit hpos]
    exact congrArg _ (runAll_visit (s := u) hp hdet (hf _))
  case fill =>
    intro s seed l core k q pos n id more hp used
    exact ⟨fillFrom_stops hp, fun p hm hl hs => runAll_fillFrom hp hm hl hs⟩
  case wave =>
    intro s id ctx size l hl hdet hret hold hleft hwgs hgroups u hctx hsize hne
    exact exec_waveStart hl hdet hret hold hleft hwgs hgroups hctx hsize hne
  case size => exact fun s l n h => le_waveSize_iff n h
  case queue => exact fun s pos id l t h => placing_eq h
  case many => exact fun s id ctx n core l p hl hf => placeMany_of_found hl hf n
  case place =>
    intro s l ctx core p h
    obtain ⟨hfence, hmask, hbudget, hregs, hgs, hlen, hseg, hacc⟩ := spot_eq_some h
    obtain ⟨hsegTop, hsegs⟩ := lowestRun_eq_some hseg
    obtain ⟨haccTop, haccs⟩ := lowestRun_eq_some hacc
    have hlen' : p.groups.length = l.request.groups := Nat.le_antisymm (hgs ▸ List.length_take_le _ _) hlen
    exact ⟨hfence, hmask, hbudget, hregs, hgs, hlen', fun k hk => mem_freeGroups (List.mem_of_mem_take (hgs ▸ hk)), hsegTop, haccTop, hsegs, haccs⟩

end Sys2Proof.Spec
end

section
/-! SUPPORT. Admission of a workgroup of one group, the registers it starts with, and the ends of workgroups, groups and launches (R118, R123, R125,
R136, O46). -/

namespace Sys2Proof.Machine

/-! ## What a drawn free value leaves unchanged: the readings of the device (log 2) -/

@[simp] theorem drawn_bytes (s : State) (k : Nat) : ∀ n, s.drawn.bytes k n = s.bytes k n := by
  intro n
  induction n generalizing k with
  | zero => rfl
  | succ n ih => simp only [State.bytes, ih]; rfl

@[simp] theorem drawn_load (s : State) : s.drawn.load = s.load := by
  funext k n; simp only [State.load, drawn_bytes]
@[simp] theorem drawn_readHpa (s : State) : s.drawn.readHpa = s.readHpa := by
  funext a n; simp only [State.readHpa, drawn_load]; rfl
@[simp] theorem drawn_stage2 (s : State) : s.drawn.stage2 = s.stage2 := by
  funext vf gpa q; simp only [State.stage2, drawn_readHpa]; rfl
@[simp] theorem drawn_gpaAt (s : State) : s.drawn.gpaAt = s.gpaAt := by
  funext vf q a; simp only [State.gpaAt, drawn_stage2]; rfl
@[simp] theorem drawn_readGpa (s : State) : s.drawn.readGpa = s.readGpa := by
  funext vf q a n; simp only [State.readGpa, drawn_gpaAt, drawn_readHpa]
@[simp] theorem drawn_asidContext (s : State) : s.drawn.asidContext = s.asidContext := by
  funext vf asid q; simp only [State.asidContext, drawn_readGpa]; rfl
@[simp] theorem drawn_launchCtx (s : State) : s.drawn.launchCtx = s.launchCtx := by
  funext l q; simp only [State.launchCtx, drawn_asidContext]
@[simp] theorem drawn_stage1 (s : State) : s.drawn.stage1 = s.stage1 := by
  funext vf asid gva q; simp only [State.stage1, drawn_asidContext, drawn_readGpa]
@[simp] theorem drawn_aperture (s : State) : s.drawn.aperture = s.aperture := by
  funext vf gpa q; simp only [State.aperture, drawn_load]; rfl
@[simp] theorem drawn_translate (s : State) : s.drawn.translate = s.translate := by
  funext vf asid key gva need q; simp only [State.translate, State.fillHeld, State.fill, drawn_stage1, drawn_aperture, drawn_stage2]; rfl
@[simp] theorem drawn_readAt (s : State) : s.drawn.readAt = s.readAt := by
  funext via p k; simp only [State.readAt, drawn_bytes]; rfl
@[simp] theorem drawn_readVia (s : State) (via : Option (Tab Nat)) (vf asid key q : Nat) : ∀ fuel a n,
    s.drawn.readVia via vf asid key q fuel a n = s.readVia via vf asid key q fuel a n := by
  intro fuel
  induction fuel with
  | zero => intro a n; rfl
  | succ m ih => intro a n; simp only [State.readVia, drawn_translate, drawn_readAt, ih]
@[simp] theorem drawn_readGlobal (s : State) : s.drawn.readGlobal = s.readGlobal := by
  funext vf asid key q a n; simp only [State.readGlobal, State.readGlobalVia, drawn_readVia]
@[simp] theorem drawn_codeFor (s : State) : s.drawn.codeFor = s.codeFor := by
  funext vf asid key q cl a
  have h : s.drawn.loadCode = s.loadCode := by
    funext vf asid key q cl a; simp only [State.loadCode, State.loadCodeVia, State.readGlobalVia, drawn_readVia]
  simp only [State.codeFor, drawn_readGlobal, h]; rfl
@[simp] theorem drawn_admitHeld (s : State) : s.drawn.admitHeld = s.admitHeld := by
  funext q a
  simp only [State.admitHeld, State.rangeTable, State.admitCode, drawn_asidContext, drawn_readGlobal, drawn_codeFor]
  rfl

/-! ## The start of a group of one workgroup (R125) -/

/-- The only fragment of a group. -/
theorem Group.setFrag_alone {g : Group} {f f' : Frag} (hf : f.fst = .live) (h : g.frags = [] ∨ g.frags = [(0, f')]) :
    g.setFrag 0 f = { g with frags := [(0, f)] } := by
  have hne : f ≠ Frag.empty := fun e => by rw [e] at hf; cases hf
  rcases h with h | h <;> simp [Group.setFrag, h, Tab.put, hne]

/-- Where nobody waits, no slot is given. -/
theorem Group.fill_nobody {g : Group} (h : g.waiting = []) (n : Nat) : g.fill n = g := by
  cases n with
  | zero => rfl
  | succ n => rw [Group.fill, h]; split <;> simp_all

theorem Group.freeSlots_alone {g : Group} {f : Frag} (h : g.frags = [(0, f)]) (hs : f.slot = 0) : ∃ r, g.freeSlots = 1 :: r := by
  have hnone : ∀ n, n ≠ 0 → (g.usedFrags.any fun i => (g.frag i).slot == n) = false := fun n hn => by
    simp only [List.any_eq_false, Group.frag, h, Tab.get]
    intro i _
    split
    · simpa [hs] using hn.symm
    · simpa [Frag.empty] using hn.symm
  cases hr : g.rpl
  · exact ⟨[2], by simp [Group.freeSlots, hr, hnone]⟩
  · exact ⟨[], by simp [Group.freeSlots, hr, hnone]⟩

/-- A live fragment alone in its group takes path slot 1 (R132). -/
theorem Group.enqueue_alone {g : Group} {f : Frag} (hw : g.waiting = []) (hg : g.frags = []) (hf : f.fst = .live) (hs : f.slot = 0) :
    (g.setFrag 0 f).enqueue 0 = { g with frags := [(0, { f with slot := 1, iss := 0 })] } := by
  obtain ⟨r, hr⟩ := Group.freeSlots_alone (g := { g with frags := [(0, f)], waiting := [0] }) rfl hs
  rw [Group.setFrag_alone (f' := f) hf (.inl hg), Group.enqueue, hw, List.nil_append, Group.fill, hr]
  show Group.fill (Group.setFrag { g with frags := [(0, f)], waiting := [] } 0 { f with slot := 1, iss := 0 }) 1 = _
  rw [Group.setFrag_alone (f := { f with slot := 1, iss := 0 }) (f' := f) hf (.inr rfl), Group.fill_nobody rfl]

/-- The owner of a group with one entry. -/
theorem Group.owner_alone {g : Group} {o : Owner} (h : g.owners = [(0, o)]) (e : Nat) : g.owner e = if e = 0 then o else Owner.empty := by
  simp only [Group.owner, h, Tab.get]

theorem Group.validEntries_alone {g : Group} {o : Owner} (h : g.owners = [(0, o)]) (ho : o.valid = true) :
    (List.range 16).filter (fun e => (g.owner e).valid) = [0] := by
  have hvalid : (fun e => (g.owner e).valid) = fun e => e == 0 := by
    funext e
    rw [g.owner_alone h]
    by_cases he : e = 0
    · simp [he, ho]
    · simp [he, Owner.empty]
  rw [hvalid]
  rfl

/-- A group of one workgroup w of launch l, whose owner is o, as it starts in state s (R125). -/
def Group.startedAlone (s : State) (g : Group) (o : Owner) (w : Wg) (l : Launch) : Group :=
  { g with
    live := true, order := s.nextId, pres := o.lanes
    v := (argRegs g (recArgs l.rec_) o.wg o).foldl (fun (t : Tab Word) p => Tab.put (fun _ => 0) t p.1 p.2) []
    s := Tab.put (fun _ => 0) (Tab.put (fun _ => 0) [] 1 (BitVec.ofNat 64 (recArgs l.rec_))) 2 (BitVec.ofNat 64 (if w.acr = 0 then 0 else w.accBase))
    status := BitVec.ofNat 64 ((if recDet l.rec_ then 1 else 0) + if (s.codesAt g.code).msafe then 2 else 0)
    births := 1, wave := if recDet l.rec_ then some w.launch else none, rpl := l.rpl
    frags := [(0, { Frag.empty with fst := .live, slot := 1, mask := o.lanes, pc := recEntry l.rec_ / 4 * 4, gate := s.cycle + 1 })] }

theorem traceEnter_untraced {s : State} {k : Nat} (h : (s.tracesAt (k / 256)).gsl ≠ k % 256) : Prog.traceEnter k s = [] := by
  have hgsl : ((Tab.get (fun _ => TraceUnit.empty) s.traces (k / 256)).gsl == k % 256) = false := beq_false_of_ne h
  rw [Prog.traceEnter, Prog.on, hgsl]
  rfl

/-- A group of one workgroup starts once nothing of it waits, in a slot that is not traced. -/
theorem runAll_groupStart_alone {s : State} {k : Nat} {g : Group} {o : Owner} {w : Wg} {l : Launch} (hg : s.groupsAt k = g) (hlive : g.live = false)
    (hown : g.owners = [(0, o)]) (hvalid : o.valid = true) (hcls : o.cls = 0) (hfrags : g.frags = []) (hwait : g.waiting = [])
    (hw : s.wgsAt o.id = some w) (hl : s.launchesAt w.launch = some l)
    (hadm : ∀ a ∈ s.admits, ∀ v, s.wgsAt a.wg = some v → k ∉ v.groups) (htr : (s.tracesAt (k / 256)).gsl ≠ k % 256) :
    runAll s (Prog.groupStart k s) =
      { s with groups := Tab.put (fun _ => Group.empty) s.groups k (Group.startedAlone s g o w l), nextId := s.nextId + 1 } := by
  have hentries := Group.validEntries_alone hown hvalid
  have hnowait : (s.admits.any fun a => match s.wgsAt a.wg with
      | some w => decide (k ∈ w.groups)
      | none => false) = false := by
    simp only [List.any_eq_false]
    intro a ha
    cases hv : s.wgsAt a.wg with
    | none => simp
    | some v => simpa using hadm a ha v hv
  have howner : g.owner 0 = o := g.owner_alone hown 0
  have hsame : g.setOwner 0 { o with cls := 0 } = g := by
    have ho : ({ o with cls := 0 } : Owner) = o := by rw [← hcls]
    have hne : o ≠ Owner.empty := fun e => by rw [e] at hvalid; cases hvalid
    have hput : Tab.put (fun _ => Owner.empty) g.owners 0 o = g.owners := by rw [hown]; simp [Tab.put, hne]
    rw [ho, Group.setOwner, hput]
  unfold Prog.groupStart Prog.on
  simp only [hg, hentries]
  split
  · rename_i h
    simp only [hlive, hown, List.isEmpty_cons, Bool.false_or] at h
    exact absurd (hnowait.symm.trans h) Bool.false_ne_true
  · simp only [List.isEmpty_cons, Bool.false_eq_true, if_false, List.map_cons, List.map_nil, howner, classSlots, List.find?_nil, List.nil_append,
      List.zip_cons_cons, List.zip_nil_left, List.foldl_cons, List.foldl_nil, hsame, List.headD_cons, List.flatMap_cons, List.flatMap_nil, List.append_nil, hw, hl]
    rw [runAll_seq, Group.enqueue_alone]
    · simp only [runAll_cons, runAll_nil, Effect.run_groups, Effect.run_nextId]
      rw [traceEnter_untraced (by exact htr)]
      simp [Group.startedAlone, recArgs, recDet, recEntry, howner, hw, hl] <;> rfl
    · exact hwait
    · exact hfrags
    · rfl
    · rfl

/-! ## The registers of a group that has started (R125) -/

/-- A key reads the value that all writes of it agree on. -/
theorem Tab.get_foldl_put {α : Type} [DecidableEq α] {d : Nat → α} {k : Nat} {x : α} : ∀ (l : List (Nat × α)) (t : Tab α),
    (∀ y, (k, y) ∈ l → y = x) → ((∃ y, (k, y) ∈ l) ∨ Tab.get d t k = x) → Tab.get d (l.foldl (fun t p => Tab.put d t p.1 p.2) t) k = x
  | [], _, _, h => h.elim (fun ⟨_, h⟩ => absurd h List.not_mem_nil) id
  | (j, v) :: l, t, hall, h => by
    refine Tab.get_foldl_put l _ (fun y hy => hall y (List.mem_cons_of_mem _ hy)) ?_
    rw [Tab.get_put]
    by_cases hj : k = j
    · subst hj
      exact .inr (by simpa using hall v List.mem_cons_self)
    · rw [if_neg hj]
      refine h.imp (fun ⟨y, hy⟩ => ⟨y, ?_⟩) id
      simpa [hj] using hy

/-- The launch argument that lane l finds in v register r (R125). -/
def argValue (args wgn r l : Nat) : Word :=
  match r with
  | 0 => BitVec.ofNat 32 args
  | 1 => BitVec.ofNat 32 (args / 2 ^ 32)
  | 2 => BitVec.ofNat 32 wgn
  | 3 => BitVec.ofNat 32 l
  | _ => 0

theorem mem_argRegs {g : Group} {o : Owner} (hregs : 8 ≤ g.regs) (hbase : o.base = 0) {args wgn k : Nat} {y : Word} :
    (k, y) ∈ argRegs g args wgn o ↔ ∃ l i, l < 16 ∧ i < 4 ∧ bit o.lanes l = true ∧ k = 16 * i + l ∧ y = argValue args wgn i l := by
  simp only [argRegs, onesOf, List.mem_flatMap, List.mem_filter, List.mem_range, List.mem_cons, List.not_mem_nil, or_false, Prod.mk.injEq, decide_eq_true_eq,
    hbase, Int.zero_add, Int.toNat_natCast]
  constructor
  · rintro ⟨l, ⟨hl, hb⟩, ⟨rfl, rfl⟩ | ⟨rfl, rfl⟩ | ⟨rfl, rfl⟩ | ⟨rfl, rfl⟩, -⟩
    · exact ⟨k, 0, hl, by decide, hb, by omega, rfl⟩
    · exact ⟨l, 1, hl, by decide, hb, by omega, rfl⟩
    · exact ⟨l, 2, hl, by decide, hb, by omega, rfl⟩
    · exact ⟨l, 3, hl, by decide, hb, by omega, rfl⟩
  · rintro ⟨l, i, hl, hi, hb, rfl, rfl⟩
    refine ⟨l, ⟨hl, hb⟩, ?_, by omega⟩
    match i, hi with
    | 0, _ => exact .inl ⟨by omega, rfl⟩
    | 1, _ => exact .inr (.inl ⟨by omega, rfl⟩)
    | 2, _ => exact .inr (.inr (.inl ⟨by omega, rfl⟩))
    | 3, _ => exact .inr (.inr (.inr ⟨by omega, rfl⟩))

theorem Group.readV_startedAlone (s : State) {g : Group} {o : Owner} (w : Wg) (l : Launch) (hregs : 8 ≤ g.regs) (hbase : o.base = 0) (r : Nat) {x : Nat}
    (hx : x < 16) : (g.startedAlone s o w l).readV r x = if bit o.lanes x = false then 0 else argValue (recArgs l.rec_) o.wg r x := by
  refine Tab.get_foldl_put _ _ (fun y hy => ?_) ?_
  · obtain ⟨j, i, hj, -, hb, hk, rfl⟩ := (mem_argRegs hregs hbase).1 hy
    obtain ⟨rfl, rfl⟩ := (key_inj hx hj).1 hk
    simp [hb]
  · by_cases hb : bit o.lanes x = true ∧ r < 4
    · exact .inl ⟨_, (mem_argRegs hregs hbase).2 ⟨x, r, hx, hb.2, hb.1, rfl, rfl⟩⟩
    · refine .inr ?_
      by_cases hbit : bit o.lanes x = true
      · have hr : 4 ≤ r := by
          by_contra h
          exact hb ⟨hbit, by omega⟩
        obtain ⟨n, rfl⟩ := Nat.exists_eq_add_of_le' hr
        simp [hbit, Tab.get, argValue]
      · simp [hbit, Tab.get]

theorem Group.readS_startedAlone (s : State) {g : Group} (o : Owner) (w : Wg) (l : Launch) (hh : g.handler = none) (r : Nat) :
    (g.startedAlone s o w l).readS r = match r with
      | 1 => BitVec.ofNat 64 (recArgs l.rec_)
      | 2 => if w.acr = 0 then 0 else BitVec.ofNat 64 w.accBase
      | _ => 0 := by
  match r with
  | 0 => rfl
  | 1 => simp [Group.readS, Group.startedAlone, hh, Tab.get_put]
  | 2 => by_cases hacr : w.acr = 0 <;> simp [Group.readS, Group.startedAlone, hh, hacr]
  | r + 3 => simp [Group.readS, Group.startedAlone, hh, Tab.get_put, Tab.get]

/-! ## Events (R259 to R263) -/

/-- The FIFOs of a state after a source of a die has taken an event, and the registers, in which a dropped event is counted (R263). -/
def State.fifosAfter (s : State) (die : Nat) (w : BitVec 128) : Tab Fifo :=
  let k := die * 65536 + w.toNat / 2 ^ 80 % 65536
  let f := s.fifosAt k
  Tab.put (fun _ => Fifo.empty) s.fifos k
    (if f.recs.length < 16 then { f with recs := f.recs ++ [{ word := w, carry := f.carry, fromTime := s.time }], carry := 0 }
     else { f with carry := min (f.carry + 1) 65535 })
def State.winAfter (s : State) (die : Nat) (w : BitVec 128) : Tab DWord :=
  let src := w.toNat / 2 ^ 80 % 65536
  let drop := 16777216 + 8388608 * die + 1048576 + 8 * src
  if (s.fifosAt (die * 65536 + src)).recs.length < 16 then s.win
  else Tab.put winReset s.win drop (BitVec.ofNat 64 (min ((s.winAt drop).toNat + 1) 4294967295))

/-- What an event changes, in a state that has been changed elsewhere. -/
theorem runAll_event (s : State) (die : Nat) (w : BitVec 128) :
    runAll s (Prog.event die w s) = { s with fifos := s.fifosAfter die w, win := s.winAfter die w } := by
  unfold Prog.event State.fifosAfter State.winAfter
  dsimp only
  split <;> simp [Prog.reg, Prog.put, State.reg]

theorem runAll_eventNow (s : State) (die cls unit vf asid kind aux val : Nat) :
    runAll s (Prog.eventNow die cls unit vf asid kind aux val s) =
      { s with fifos := s.fifosAfter die (evWord s.cycle cls unit vf asid kind aux val), win := s.winAfter die (evWord s.cycle cls unit vf asid kind aux val) } :=
  runAll_event ..

/-! ## The admission of a workgroup of one group (R118, R123, R125) -/

/-- The owner-table entry of workgroup `id`, of one group (R123). -/
def soleOwner (l : Launch) (w : Wg) (id ctx : Nat) : Owner :=
  { valid := true, cls := 0, vf := l.vf, asid := l.asid, awn := l.awn, prio := l.prio, key := bits ctx 280 271, sbase := w.seg / 64,
    slen := recScr l.rec_, wg := w.num, id := id, lanes := 2 ^ w.lanes - 1, base := 0, ctx := ctx, chain := l.chain }

theorem ownerEntry_sole {l : Launch} {w : Wg} {a : Admit} (id ctx : Nat) (hfirst : a.first = 0) (hlanes : w.lanes ≤ 16) :
    ownerEntry l w a id ctx 0 = soleOwner l w id ctx := by
  cases hm : a.merged <;> simp [ownerEntry, soleOwner, hm, hfirst, Nat.min_eq_right hlanes]

/-- The group of a workgroup that has entered its owner table, before it starts. -/
def Group.entered (g : Group) (l : Launch) (w : Wg) (core code : Nat) (o : Owner) : Group :=
  { Group.empty with code := code, regs := recRegs l.rec_, ocrd := core, stop := g.stop, owners := [(0, o)], gnum := w.num }

theorem runAll_enter_sole {s : State} {a : Admit} {l : Launch} {w : Wg} {k : Nat} (ctx n : Nat) (hgroups : w.groups = [k]) (hown : (s.groupsAt k).owners = [])
    (hent : a.ent = 0) (hfirst : a.first = 0) (hlanes : w.lanes ≤ 16) :
    runAll s (Prog.enter a l w ctx n s) =
      { s with groups := Tab.put (fun _ => Group.empty) s.groups k ((s.groupsAt k).entered l w a.core n (soleOwner l w a.wg ctx)) } := by
  have hne : soleOwner l w a.wg ctx ≠ Owner.empty := fun e => by injection e with e; cases e
  simp only [Prog.enter, hgroups, List.zipIdx_cons, List.zipIdx_nil, runAll_each_cons, runAll_each_nil, Prog.on, runAll_put, Effect.run_groups, hown, hent,
    ownerEntry_sole _ _ hfirst hlanes, List.isEmpty_nil, if_true]
  simp [Group.entered, Group.setOwner, Group.empty, Tab.put, hne]

/-- With a copy of its code at hand, a workgroup of one group is admitted and its group starts (R118, R123, R125). -/
theorem runAll_admitOne_sole {s : State} {unit q k n ctx : Nat} {a : Admit} {w : Wg} {l : Launch} {blk : Option Nat}
    (hfind : (s.admits.find? fun a => a.wg == unit) = some a) (hw : s.wgsAt unit = some w) (hl : s.launchesAt a.launch = some l) (hlaunch : w.launch = a.launch)
    (hctx : s.launchCtx l q = ctx) (hok : contextOk ctx = true) (hpin : s.pinned (a.core / 4) (s.codesAt l.code) = some n)
    (hgroups : w.groups = [k]) (hown : (s.groupsAt k).owners = []) (hent : a.ent = 0) (hfirst : a.first = 0) (hlanes : w.lanes ≤ 16)
    (hadm : ∀ b ∈ s.admits, b.wg ≠ unit → ∀ v, s.wgsAt b.wg = some v → k ∉ v.groups) (htr : (s.tracesAt (k / 256)).gsl ≠ k % 256)
    (hblk : if w.blk.isSome = true then blk = w.blk else s.freeBlock l ctx = some blk) :
    let word := evWord s.cycle 2 (a.core % 512) l.vf l.asid 0 w.lanes w.num
    let o := soleOwner l w unit ctx
    let g := (s.groupsAt k).entered l w a.core n o
    runAll s (Prog.admitOne unit q s) =
      { s with
        wgs := Tab.put (fun _ => none) s.wgs unit (some { w with wr := s.writeRanges l w.num q, age := s.nextId, blk := blk })
        nextId := s.nextId + 2
        admits := s.admits.filter fun b => b.wg != unit
        groups := Tab.put (fun _ => Group.empty) (Tab.put (fun _ => Group.empty) s.groups k g) k (g.startedAlone { s with nextId := s.nextId + 1 } o w l)
        fifos := s.fifosAfter (a.core / 512) word
        win := s.winAfter (a.core / 512) word } := by
  intro word o g
  have hunit : a.wg = unit := by simpa using List.find?_some hfind
  have hblk' : (if w.blk.isSome then w.blk else (s.freeBlock l ctx).getD none) = blk := by
    split at hblk
    · simp [*]
    · simp [*]
  have hcode : ∀ into, s.admitCode l q (clusterOf a.core) into = .ok (some n, s.codesAt n) := fun into => by
    have hpin' : s.pinned (clusterOf a.core) (s.codesAt l.code) = some n := hpin
    simp only [State.admitCode, hpin']
  simp only [Prog.admitOne, Prog.on, hfind, hw, hl, hctx, hok, hcode, Bool.not_true, Bool.false_eq_true, if_false, runAll_all_cons, runAll_all_nil,
    Option.isNone_some, Option.getD_some, Prog.when_false, runAll_skip, runAll_put, runAll_cons, runAll_nil, Effect.run_wgs, Effect.run_nextId, Effect.run_admits, hblk']
  obtain ⟨u, hu⟩ : ∃ u : State, u = { s with
      wgs := Tab.put (fun _ => none) s.wgs unit (some { w with wr := s.writeRanges l w.num q, age := s.nextId, blk := blk })
      nextId := s.nextId + 1, admits := s.admits.filter fun b => b.wg != unit } := ⟨_, rfl⟩
  have hugroup : u.groupsAt k = s.groupsAt k := by rw [hu]; rfl
  have huwgs : ∀ j, u.wgsAt j = if j = unit then some { w with wr := s.writeRanges l w.num q, age := s.nextId, blk := blk } else s.wgsAt j := fun j => by
    rw [hu]; exact Tab.get_put ..
  have huadm : ∀ b ∈ u.admits, ∀ v, u.wgsAt b.wg = some v → k ∉ v.groups := fun b hb v hv => by
    obtain ⟨hb, hne⟩ : b ∈ s.admits ∧ b.wg ≠ unit := by simpa [hu] using hb
    rw [huwgs, if_neg hne] at hv
    exact hadm b hb hne v hv
  rw [← hu, runAll_enter_sole ctx n hgroups (hugroup ▸ hown) hent hfirst hlanes, runAll_eventNow, hgroups, runAll_each_cons, runAll_each_nil, hunit, hugroup]
  rw [runAll_groupStart_alone (g := g) (o := o) (w := { w with wr := s.writeRanges l w.num q, age := s.nextId, blk := blk }) (l := l)]
  case hg => exact Tab.get_put_self k g
  case hw => exact (huwgs unit).trans (if_pos rfl)
  case hl => rw [hu]; exact hlaunch ▸ hl
  case hadm => exact huadm
  case htr => rw [hu]; exact htr
  case hlive | hown | hvalid | hcls | hfrags | hwait => rfl
  subst hu
  simp only [hgroups]
  rfl

/-- One workgroup never lacks a block of its owner: it has one, or finds a free one where its context gives any (R165). -/
theorem blocksShort_alone {s : State} {l : Launch} {ctx : Nat} {a : Admit} {w : Wg} {blk : Option Nat} (hw : s.wgsAt a.wg = some w)
    (hblk : if w.blk.isSome = true then blk = w.blk else s.freeBlock l ctx = some blk) : s.blocksShort l ctx [a] = false := by
  have hcount : ((([a] : List Admit).filter fun a => match s.wgsAt a.wg with | some w => w.blk.isNone | none => false)).length = if w.blk.isSome then 0 else 1 := by
    cases hb : w.blk <;> simp [hw, hb]
  rw [State.blocksShort, Bool.and_eq_false_imp, decide_eq_false_iff_not, not_lt]
  intro hgives
  refine hcount.trans_le ?_
  split at hblk
  · rename_i hb
    rw [if_pos hb]
    exact Nat.zero_le _
  · rename_i hb
    rw [if_neg hb]
    have hne : bits ctx 319 304 ≠ 0 := by simpa using hgives
    rw [State.freeBlock, if_neg hne, Option.map_eq_some_iff] at hblk
    obtain ⟨b, hfind, -⟩ := hblk
    have hunused := List.find?_some hfind
    refine List.length_pos_of_mem (a := b) (List.mem_filter.2 ⟨List.mem_of_find?_eq_some hfind, ?_⟩)
    simp only [Bool.not_eq_true', decide_eq_false_iff_not, List.mem_filterMap, not_exists, not_and, List.any_eq_false] at hunused ⊢
    intro p hp
    have h := hunused p hp
    split
    · rename_i v hv
      rw [hv] at h
      cases hl : s.launchesAt v.launch with
      | none => simp
      | some m =>
        simp only [Bool.and_eq_true, beq_iff_eq]
        rintro ⟨hbk, hvf, hasid⟩
        exact h (by simp only [hl, hvf, hasid, and_self, if_true, hbk])
    · simp

/-- What is admitted with a workgroup is itself alone, where the launch is not deterministic or nothing else of it waits (R137). -/
theorem admits_of_launch {s : State} {unit : Nat} {a : Admit} {l : Launch} (halone : s.admits.filter (fun b => b.wg == unit) = [a])
    (hall : recDet l.rec_ = true → ∀ b ∈ s.admits, b.launch = a.launch → b.wg = unit) :
    (if recDet l.rec_ then s.admits.filter fun b => b.launch == a.launch else [a]) = [a] := by
  split
  · rename_i hdet
    have hsame : ∀ b ∈ s.admits, (b.launch == a.launch) = (b.wg == unit) := fun b hb => by
      rw [Bool.eq_iff_iff, beq_iff_eq, beq_iff_eq]
      refine ⟨hall hdet b hb, fun hbu => ?_⟩
      have hmem : b ∈ s.admits.filter (fun b => b.wg == unit) := List.mem_filter.2 ⟨hb, by simp [hbu]⟩
      rw [halone, List.mem_singleton] at hmem
      rw [hmem]
    rw [List.filter_congr hsame, halone]
  · rfl

/-- An admission of a workgroup alone: with nothing before it and nothing in its way it is admitted as its reads find it (R118, R369). -/
theorem execAdmission_alone {s : State} {unit ctx : Nat} {a : Admit} {w : Wg} {l : Launch} {blk : Option Nat} (halone : s.admits.filter (fun b => b.wg == unit) = [a])
    (hw : s.wgsAt unit = some w) (hsaved : w.saved = false) (hbefore : ∀ b ∈ s.admits, b.launch = a.launch → ∀ v, s.wgsAt b.wg = some v → v.saved = true ∨ w.num ≤ v.num)
    (hl : s.launchesAt a.launch = some l) (hctx : ∀ q, s.launchCtx l q = ctx) (hblk : if w.blk.isSome = true then blk = w.blk else s.freeBlock l ctx = some blk)
    (hslice : s.sliceHeld l = false) (hwaits : s.waitsSaved a.launch = false)
    (hall : ∀ b ∈ s.admits, b.launch = a.launch → (∀ q, s.admitHeld q b = false) ∧ (recDet l.rec_ = true → b.wg = unit)) :
    ∃ q, exec (.admission unit) s = .next (runAll s.drawn (Prog.admitOne unit q s.drawn)) := by
  have hfind : (s.admits.find? fun b => b.wg == unit) = some a := by rw [← List.head?_filter, halone]; rfl
  have hunit : a.wg = unit := by simpa using List.find?_some hfind
  have hmem : a ∈ s.admits := List.mem_of_find?_eq_some hfind
  have hnone : (s.admits.any fun b => b.launch == a.launch && (match s.wgsAt b.wg with | some v => !v.saved && decide (v.num < w.num) | none => false)) = false := by
    simp only [List.any_eq_false, Bool.and_eq_true, beq_iff_eq, not_and]
    intro b hb hlaunch
    split
    · rename_i v hv
      rcases hbefore b hb hlaunch v hv with h | h
      · simp [h]
      · simp [h]
    · simp
  have hone := admits_of_launch halone fun hdet b hb hbl => (hall b hb hbl).2 hdet
  refine ⟨Config.freeNat s.fresh % 2 ^ 200, ?_⟩
  show execAdmission unit s = _
  unfold execAdmission
  simp only [hfind, hw, hl, hsaved, hslice, hwaits, hone, Bool.false_or, Bool.or_false, Bool.false_eq_true, if_false]
  split
  · rename_i h
    exact absurd (hnone.symm.trans h) Bool.false_ne_true
  · rw [Prog.free_go]
    have hshort : s.drawn.blocksShort l (s.launchCtx l (Config.freeNat s.fresh % 2 ^ 200)) [a] = false :=
      blocksShort_alone (s := s.drawn) (hunit ▸ hw) (by rw [hctx]; exact hblk)
    simp only [Prog.go, Prog.on, drawn_launchCtx, drawn_admitHeld, List.any_cons, List.any_nil, (hall a hmem rfl).1, hshort, Bool.or_false, Bool.not_false, Bool.and_self,
      Prog.when_true, runAll_each_cons, runAll_each_nil, hunit]

/-! ## A write of bytes to memory -/

/-- Memory with bytes written from a key upwards. -/
def putMem (m : Memory) (k : Nat) : List Byte → Memory
  | [] => m
  | b :: l => putMem (Tab.put zeroByte m k b) (k + 1) l

theorem runAll_putBytes : ∀ (l : List Byte) (s : State) (k : Nat), runAll s (putBytes k l) = { s with mem := putMem s.mem k l }
  | [], _, _ => rfl
  | _ :: l, _, k => runAll_putBytes l _ (k + 1)

/-- A write of at least one byte changes the memory there, and raises the counters of integrity frames (R339). -/
theorem runAll_storeBytes (s : State) (k : Nat) (b : Byte) (l : List Byte) :
    runAll s (storeBytes k (b :: l)) = { s with mem := putMem s.mem k (b :: l), integ := s.raises k (l.length + 1) } := by
  rw [storeBytes, runAll_append, runAll_putBytes]
  rfl

theorem get_putMem_outside : ∀ (l : List Byte) (m : Memory) {k x : Nat}, x < k ∨ k + l.length ≤ x →
    Tab.get zeroByte (putMem m k l) x = Tab.get zeroByte m x
  | [], _, _, _, _ => rfl
  | b :: l, m, k, x, h => by
    rw [List.length_cons] at h
    exact (get_putMem_outside l _ (by omega)).trans (Tab.get_put_ne (by omega))

/-- Where bytes were written they are read. -/
theorem bytes_putMem {t : State} : ∀ (l : List Byte) (m : Memory) (k : Nat), t.mem = putMem m k l → t.bytes k l.length = l
  | [], _, _, _ => rfl
  | b :: l, m, k, h => by
    have hb : t.memAt k = b := by
      rw [State.memAt, h]
      exact (get_putMem_outside l _ (.inl (Nat.lt_succ_self k))).trans (Tab.get_put_self k b)
    rw [List.length_cons, State.bytes, hb, bytes_putMem l _ (k + 1) h]

@[simp] theorem length_toBytes (x n : Nat) : (toBytes x n).length = n := by
  induction n generalizing x with
  | zero => rfl
  | succ n ih => simp [toBytes, ih]

theorem ofBytes_toBytes (x n : Nat) : ofBytes (toBytes x n) = x % 256 ^ n := by
  induction n generalizing x with
  | zero => simp [toBytes, ofBytes, Nat.mod_one]
  | succ n ih => rw [toBytes, ofBytes, ih, Nat.pow_succ', Nat.mod_mul, BitVec.toNat_ofNat]

/-- A number written in n bytes is read there. -/
theorem load_of_mem_eq {t : State} {m : Memory} {k x n : Nat} (h : t.mem = putMem m k (toBytes x n)) : t.load k n = x % 256 ^ n := by
  have hb := bytes_putMem _ _ _ h
  rw [length_toBytes] at hb
  rw [State.load, hb, ofBytes_toBytes]

/-! ## The end of a workgroup (R118, R242) -/

theorem findPos_eq_none {α : Type} {p : α → Bool} : ∀ {l : List α}, (∀ x ∈ l, p x = false) → findPos p l = none
  | [], _ => rfl
  | x :: l, h => by
    rw [findPos, h x List.mem_cons_self, findPos_eq_none fun y hy => h y (List.mem_cons_of_mem _ hy)]
    rfl

theorem runAll_each_skip {α : Type} {f : α → Prog} {s : State} : ∀ {l : List α}, (∀ a ∈ l, f a = Prog.skip) → runAll s (Prog.each f l s) = s
  | [], _ => rfl
  | a :: l, h => by
    rw [runAll_each_cons, h a List.mem_cons_self, runAll_skip, runAll_each_skip fun b hb => h b (List.mem_cons_of_mem _ hb)]

/-- A workgroup of no eviction unit leaves none. -/
theorem runAll_leaveUnit_none {s : State} {n : Nat} (h : ∀ p ∈ s.saved, ∀ u, p.2 = some u → n ∉ u.wgs) : runAll s (Prog.leaveUnit n s) = s := by
  refine runAll_each_skip fun p hp => ?_
  cases hu : p.2 with
  | none => rfl
  | some u =>
    have hpos : findPos (· == n) u.wgs = none := findPos_eq_none fun x hx => beq_false_of_ne fun e => h p hp u hu (e ▸ hx)
    simp only [hpos]

theorem runAll_freeSegs (s : State) (core : Nat) : runAll s (Prog.freeSegs core s) = { s with
      cores := Tab.put (fun _ => Core.empty) s.cores core { s.coresAt core with segs := (s.coresAt core).segs.filter fun g => !(g.dead && !s.inbound core g) } } := rfl

/-- A core whose accumulator rows a workgroup has left, and whose segment waits for what enters it. -/
def Core.leave (c : Core) (wg : Nat) : Core :=
  { c with
    segs := c.segs.map fun g => if g.wg == wg then { g with dead := true } else g
    accs := c.accs.filter fun g => g.wg != wg }

/-- A state without a workgroup that was on a core: its rows are free, and its segment once nothing enters it (R118, R242). -/
def State.without (s : State) (wg core : Nat) : State :=
  let c := (s.coresAt core).leave wg
  { s with
    wgs := Tab.put (fun _ => none) s.wgs wg none
    cores := Tab.put (fun _ => Core.empty) (Tab.put (fun _ => Core.empty) s.cores core c) core
      { c with segs := c.segs.filter fun g => !(g.dead && !s.inbound core g) } }

theorem runAll_leave_freeSegs (s : State) (wg core : Nat) :
    let u := runAll s [.wgs wg none, .cores core ((s.coresAt core).leave wg)]
    runAll u (Prog.freeSegs core u) = s.without wg core := by
  intro u
  have hcore : u.coresAt core = (s.coresAt core).leave wg := Tab.get_put_self ..
  rw [runAll_freeSegs, hcore]
  rfl

/-- What the end of a workgroup changes, where it is of no eviction unit. -/
theorem execWorkgroupEnd_alone {s : State} {wg a : Nat} {w : Wg} {l : Launch} {up : List Nat} (hw : s.wgsAt wg = some w) (hsaved : w.saved = false)
    (hsaving : w.saving = false) (hended : w.ended = false) (hadm : ∀ b ∈ s.admits, b.wg ≠ wg) (hlanes : s.wgHasLanes wg w = false) (hbusy : s.wgBusy wg = false)
    (hl : s.launchesAt w.launch = some l) (hreset : (s.fnsAt l.vf).fnReset = 0) (htdis : (s.fnsAt l.vf).tdis ≠ 3)
    (hunit : ∀ p ∈ s.saved, ∀ u, p.2 = some u → wg ∉ u.wgs) (hchain : l.chain = a :: up) :
    let word := evWord s.cycle 2 (w.core % 512) l.vf l.asid 1 w.lanes w.num
    let u := s.without wg w.core
    exec (.workgroupEnd wg) s = .next { u with
      launches := Tab.put (fun _ => none) s.launches w.launch (some { l with done := l.done + 1 })
      mem := putMem s.mem (a + 68) (toBytes (l.done + 1) 4)
      integ := s.raises (a + 68) 4
      fifos := s.fifosAfter (w.core / 512) word
      win := s.winAfter (w.core / 512) word } := by
  intro word u
  have hnowait : (s.admits.any fun b => b.wg == wg) = false := by simpa [List.any_eq_false] using hadm
  have hfn : s.fnHeld l.vf = false := by simp [State.fnHeld, hreset, htdis]
  have hleave : runAll (runAll s [.wgs wg none, .cores w.core ((s.coresAt w.core).leave wg)])
      (Prog.freeSegs w.core (runAll s [.wgs wg none, .cores w.core ((s.coresAt w.core).leave wg)])) = u := runAll_leave_freeSegs s wg w.core
  have hsavedUnits : ∀ p ∈ u.saved, ∀ v, p.2 = some v → wg ∉ v.wgs := hunit
  show execWorkgroupEnd wg s = _
  simp only [execWorkgroupEnd, hw, hsaved, hsaving, hended, hnowait, hlanes, hbusy, hl, hfn, hchain, Bool.or_false, Bool.false_and, Bool.false_eq_true, if_false, Prog.go,
    runAll_all_cons, runAll_all_nil]
  rw [← Core.leave, hleave, runAll_leaveUnit_none hsavedUnits]
  rw [runAll_put, runAll_eventNow]
  simp only [Prog.store, toBytes, runAll_storeBytes]
  rfl

/-! ## The ends of groups and launches (R112, R136) -/

/-- A test of a table's objects that fails for each of them, and where there is none. -/
theorem any_entry_ne_true {α : Type} {t : Tab (Option α)} {f : Nat × Option α → Bool} (hnone : ∀ k, f (k, none) = false)
    (hsome : ∀ k x, (k, some x) ∈ t → f (k, some x) = false) : ¬ t.any f = true := by
  rw [Bool.not_eq_true, List.any_eq_false]
  rintro ⟨k, _ | x⟩ hp
  · simp [hnone k]
  · simp [hsome k x hp]

/-- A group whose fragments and operations have ended gives its slot back. -/
theorem execGroupEnd_alone {s : State} {k : Nat} {g : Group} (hg : s.groupsAt k = g) (hlive : g.live = true) (hh : g.handler = none)
    (hfrags : ∀ i, i < 16 → (g.frag i).fst = .free) (hpend : g.pend = []) (hops : s.agentOps (.grp k 0) = [])
    (hengs : ∀ p ∈ s.engs, ∀ e, p.2 = some e → e.grp ≠ k) (hfns : ∀ p ∈ g.owners, (s.fnsAt p.2.vf).fnReset = 0 ∧ (s.fnsAt p.2.vf).tdis ≠ 3) :
    exec (.groupEnd k) s = .next (runAll s (.groups k Group.empty :: Prog.leaveSlot k s)) := by
  have hused : g.usedFrags = [] := by
    rw [Group.usedFrags, List.filter_eq_nil_iff]
    intro i hi
    simp [hfrags i (List.mem_range.1 hi)]
  have hnofn : (g.owners.any fun p => s.fnHeld p.2.vf) = false := by
    simp only [List.any_eq_false, State.fnHeld]
    intro p hp
    simp [hfns p hp]
  show execGroupEnd k s = _
  unfold execGroupEnd
  simp only [hg, hlive, hh, hused, hpend, hops, hnofn, List.isEmpty_nil, Option.isSome_none, Bool.not_true, Bool.or_false, Bool.false_or]
  split
  · rename_i h
    exact absurd h (any_entry_ne_true (fun _ => rfl) fun _ e he => beq_false_of_ne (hengs _ he e rfl))
  · rfl

/-- A node becomes idle: STATE, bits 39:38, becomes 0. -/
theorem nodeState_idle (s : State) (a : Nat) : Prog.nodeState a 0 s = [.mem (a + 4) (BitVec.ofNat 8 (s.load (a + 4) 1 % 64)), .raise (a + 4) 1] := by
  have hidle : BitVec.ofNat 8 (setBits (s.load (a + 4) 1) 7 6 0) = BitVec.ofNat 8 (s.load (a + 4) 1 % 64) := by
    apply BitVec.eq_of_toNat_eq
    simp only [setBits, BitVec.toNat_ofNat]
    omega
  show [Effect.mem (a + 4) (BitVec.ofNat 8 (setBits (s.load (a + 4) 1) 7 6 0)), .raise (a + 4) 1] = _
  rw [hidle]

/-- A launch whose workgroups have all completed ends: it leaves the device, and its RCB becomes idle. -/
theorem execLaunchComplete_done {s : State} {n a : Nat} {l : Launch} {up : List Nat} (hl : s.launchesAt n = some l)
    (hwgs : ∀ p ∈ s.wgs, ∀ w, p.2 = some w → w.launch ≠ n) (hret : l.retired = false) (hdone : recNwg l.rec_ ≤ l.done) (hchain : l.chain = a :: up)
    (htask : recTask l.rec_ = none) :
    let idle := [Effect.mem (a + 4) (BitVec.ofNat 8 (s.load (a + 4) 1 % 64)), Effect.raise (a + 4) 1]
    (∀ fn q idx, l.origin = .queue fn q idx → exec (.launchComplete n) s = .next (runAll s ([.launches n none] ++ idle ++ [
      .fns fn { s.fnsAt fn with statWait := (s.fnsAt fn).statWait ++ [statusWord 2 0 q idx (recLrcb l.rec_)] }]))) ∧
    (∀ die t, l.origin = .task die t → exec (.launchComplete n) s =
      .next (runAll s ([.launches n none, .tasks (die * 4096 + t) { s.tasksAt (die * 4096 + t) with tst := 0 }] ++ idle))) := by
  intro idle
  refine ⟨fun fn q idx horigin => ?_, fun die t horigin => ?_⟩
  all_goals
    show execLaunchComplete n s = _
    unfold execLaunchComplete
    simp only [hl, hret, hchain, htask, horigin, Nat.not_lt.2 hdone, Bool.false_eq_true, if_false]
    split
    · rename_i h
      exact absurd h (any_entry_ne_true (fun _ => rfl) fun _ w hw => beq_false_of_ne (hwgs _ hw w rfl))
    · simp only [Prog.go, runAll_all_cons, runAll_all_nil, nodeState_idle, runAll_put, runAll_skip, runAll_append]
      rfl

end Sys2Proof.Machine

namespace Sys2Proof.Spec
open Sys2Proof.Machine

/-- The FIFOs and registers after an event are those that `Sends` describes. -/
theorem sends_after (s : State) (die : Nat) (w : BitVec 128) : Sends s { s with fifos := s.fifosAfter die w, win := s.winAfter die w } die w := by
  refine ⟨fun j => ?_, fun j => ?_, rfl⟩
  · show Tab.get _ (State.fifosAfter s die w) j = _
    rw [State.fifosAfter, Tab.get_put]
    rfl
  · show Tab.get _ (State.winAfter s die w) j = _
    unfold State.winAfter
    dsimp only
    split
    · rw [if_neg (by omega)]; rfl
    · rw [Tab.get_put]
      have hfull : 16 ≤ (s.fifosAt (die * 65536 + w.toNat / 2 ^ 80 % 65536)).recs.length := by omega
      simp only [hfull, true_and]
      rfl

/-- Settles O46, clause by clause: each operation leaves the state that its lemma above writes out, and what the statement reads of it is read there. -/
theorem workRunsAndEnds : Obligations.WorkRunsAndEnds := by
  refine ⟨?_, ?_, ?_, ?_⟩
  · intro s unit a w l k n ctx blk halone hw hsaved hbefore hl hlaunch hctx hok hpin hgroups hown hlive hent hfirst hlanes hpos hadm htr hblk hslice hwaits hall m args
    obtain ⟨q, hq⟩ := execAdmission_alone halone hw hsaved hbefore hl hctx hblk hslice hwaits hall
    have hfind : (s.admits.find? fun b => b.wg == unit) = some a := by rw [← List.head?_filter, halone]; rfl
    rw [runAll_admitOne_sole (s := s.drawn) hfind hw hl hlaunch (by rw [drawn_launchCtx, hctx]) hok hpin hgroups hown hent hfirst hlanes hadm htr hblk] at hq
    have hregs : 8 ≤ recRegs l.rec_ := by
      unfold recRegs
      omega
    refine ⟨_, s.drawn.writeRanges l w.num q, hq, fun hdet => by simp [State.writeRanges, hdet], fun j => Tab.get_put .., rfl, fun j hj => ?_, ?_, ?_⟩
    · exact (Tab.get_put_ne hj).trans (Tab.get_put_ne hj)
    · have hgrp : ∀ t : Tab Group, ∀ g : Group, Tab.get (fun _ => Group.empty) (Tab.put (fun _ => Group.empty) t k g) k = g := fun t g => Tab.get_put_self ..
      simp only [State.groupsAt, hgrp]
      refine ⟨rfl, rfl, rfl, rfl, rfl, rfl, rfl, rfl, rfl, rfl, rfl, fun r x hx => ?_, fun r => Group.readS_startedAlone _ _ _ _ rfl r, rfl, fun e he => ?_, rfl, rfl, rfl, rfl, rfl, rfl⟩
      · rw [Group.readV_startedAlone _ _ _ hregs rfl r hx]
        rfl
      · have howner : ((s.groupsAt k).entered l w a.core n (soleOwner l w unit ctx)).owner e = Owner.empty :=
          (Group.owner_alone rfl e).trans (if_neg he)
        exact ⟨congrArg Owner.valid howner, by simp [Group.frag, Group.startedAlone, Tab.get, he, Frag.empty]⟩
    · exact sends_after s ..
  · intro s wg w l a up hw hsaved hsaving hended hadm hlanes hbusy hl hreset htdis hunit hchain c
    refine ⟨_, execWorkgroupEnd_alone hw hsaved hsaving hended hadm hlanes hbusy hl hreset htdis hunit hchain, fun j => Tab.get_put .., fun j => ?_,
      fun j => Tab.get_put .., ?_, fun x hx => ?_, sends_after s ..⟩
    · refine (Tab.get_put ..).trans ?_
      by_cases hj : j = w.core
      · rw [if_pos hj, if_pos hj]
        rfl
      · rw [if_neg hj, if_neg hj]
        exact Tab.get_put_ne hj
    · exact load_of_mem_eq rfl
    · exact get_putMem_outside _ _ (by rwa [length_toBytes])
  · intro s k g hlive hh hfrags hpend hops hengs hfns
    exact ⟨_, execGroupEnd_alone rfl hlive hh hfrags hpend hops hengs hfns, rfl⟩
  · intro s n a l up hl hwgs hret hdone hchain htask idle
    obtain ⟨hqueue, htasks⟩ := execLaunchComplete_done hl hwgs hret hdone hchain htask
    refine ⟨fun fn q idx horigin => ⟨_, hqueue fn q idx horigin, ?_⟩, fun die t horigin => ⟨_, htasks die t horigin, rfl⟩⟩
    have hword : statusWord 2 0 q idx (recLrcb l.rec_) = idx % 2 ^ 32 + q % 16 * 2 ^ 44 + 2 * 2 ^ 56 + recLrcb l.rec_ % 2 ^ 64 * 2 ^ 64 := by simp [statusWord]
    rw [hword]
    rfl

end Sys2Proof.Spec
end

section
/-! SUPPORT. Registers that take results of lanes and class slots in any order: v pairs, predicates, q bits and STATUS (R7, R8, R78, R79, R141). -/

namespace Sys2Proof.Machine

/-! ## A register that results hit, and one that they miss -/

theorem lastVal_of_forall {l : List Out} {x : Nat} (hne : l ≠ []) (h : ∀ o ∈ l, o.val = x) (old : Nat) : lastVal old l = x := by
  obtain ⟨t, o, rfl⟩ := (List.eq_nil_or_concat l).resolve_left hne
  rw [List.concat_eq_append, lastVal_concat]
  exact h o (by simp)

section
variable {P : Group → Prop} {rd : Group → Nat} {n : Nat} {hit : Out → Bool} {l : List Out} (h : ReadsLast P rd n hit l) {g : Group} (hg : P g)
include h hg

/-- A register that some result hits, and all that do with one value, has that value. -/
theorem ReadsLast.eq_of_hit {x : Nat} (hx : ∀ o ∈ l, hit o = true → o.val % 2 ^ n = x % 2 ^ n) (he : ∃ o ∈ l, hit o = true) :
    rd (g.writeOuts l) = x % 2 ^ n := by
  obtain ⟨o, ho, hh⟩ := he
  have hne : l.filter hit ≠ [] := fun e => List.filter_eq_nil_iff.1 e o ho hh
  obtain ⟨t, y, hy⟩ := (List.eq_nil_or_concat (l.filter hit)).resolve_left hne
  have hmem : y ∈ l.filter hit := by rw [hy]; simp
  rw [(h.writeOuts hg).2, hy, List.concat_eq_append, lastVal_concat]
  exact hx y (List.mem_filter.1 hmem).1 (List.mem_filter.1 hmem).2

/-- A register that no result hits keeps its value. -/
theorem ReadsLast.eq_of_miss (hn : ∀ o ∈ l, hit o = false) : rd (g.writeOuts l) = rd g := by
  have hnil : l.filter hit = [] := List.filter_eq_nil_iff.2 fun o ho => by simp [hn o ho]
  rw [(h.writeOuts hg).2, hnil, lastVal_nil, Nat.mod_eq_of_lt (h.small g)]

end

/-! ## v registers -/

/-- The results of a lane's v register or pair: which registers they are for, and the words that they bring. -/
theorem mem_vOut {d l n x : Nat} (hn : n = 32 ∨ n = 64) {o : Out} (h : o ∈ vOut d l n false x) :
    o.file = .v ∧ o.lane = l ∧
      ((o.reg = d ∧ o.val % 2 ^ 32 = x % 2 ^ 32) ∨ (n = 64 ∧ o.reg = d + 1 ∧ o.val % 2 ^ 32 = x / 4294967296 % 2 ^ 32)) := by
  rcases hn with rfl | rfl
  · simp only [vOut, show ¬ (32 : Nat) = 64 by decide, if_false, List.mem_singleton] at h
    subst h
    exact ⟨rfl, rfl, .inl ⟨rfl, by simp [extend32]⟩⟩
  · simp only [vOut, if_true, List.mem_cons, List.not_mem_nil, or_false] at h
    rcases h with rfl | rfl
    · exact ⟨rfl, rfl, .inl ⟨rfl, by simp⟩⟩
    · exact ⟨rfl, rfl, .inr ⟨rfl, rfl, by simp⟩⟩

theorem exists_vOut (d l n x : Nat) : ∃ o ∈ vOut d l n false x, o.file = .v ∧ o.reg = d ∧ o.lane = l := by
  unfold vOut; split
  · exact ⟨_, List.mem_cons_self, rfl, rfl, rfl⟩
  · exact ⟨_, List.mem_cons_self, rfl, rfl, rfl⟩

theorem exists_vOut_high (d l x : Nat) : ∃ o ∈ vOut d l 64 false x, o.file = .v ∧ o.reg = d + 1 ∧ o.lane = l :=
  ⟨_, List.mem_cons_of_mem _ List.mem_cons_self, rfl, rfl, rfl⟩

theorem Out.hitsV_iff {o : Out} {r l : Nat} : o.hitsV r l = true ↔ o.file = .v ∧ o.reg = r ∧ o.lane = l := by
  simp [Out.hitsV, and_assoc]

/-- The v results of a list are those of register d of the lanes of a mask. -/
def BringsV (act n d : Nat) (x : Nat → Nat) (outs : List Out) : Prop :=
  ∀ o : Out, o.file = .v → (o ∈ outs ↔ ∃ l, l < 16 ∧ bit act l = true ∧ o ∈ vOut d l n false (x l))

/-- Results of file v bring register d of the lanes of a mask their values, whatever their order. -/
theorem BringsV.readV {act n d : Nat} {x : Nat → Nat} {outs : List Out} (h : BringsV act n d x outs) (hn : n = 32 ∨ n = 64) (g : Group)
    {r l : Nat} (hl : l < 16) : (g.writeOuts outs).readV r l =
      if bit act l ∧ r = d then BitVec.ofInt 32 (x l : Int)
      else if bit act l ∧ n = 64 ∧ r = d + 1 then BitVec.ofInt 32 ((x l : Int) / 4294967296)
      else g.readV r l := by
  have hlane : ∀ o ∈ outs, o.file = .v → o.lane < 16 := fun o ho hv => by
    obtain ⟨l', hl', -, hm⟩ := (h o hv).1 ho
    exact (mem_vOut hn hm).2.1 ▸ hl'
  by_cases ha : bit act l = true
  · by_cases hr : r = d
    · subst hr
      rw [if_pos ⟨ha, rfl⟩, BitVec.ofInt_natCast]
      refine Group.readV_writeOuts g hl hlane (fun o ho hv hor hol => ?_) ?_
      · obtain ⟨l', -, -, hm⟩ := (h o hv).1 ho
        obtain ⟨-, hl', hval⟩ := mem_vOut hn hm
        obtain rfl : l' = l := hl'.symm.trans hol
        rcases hval with ⟨-, hval⟩ | ⟨-, hreg, -⟩
        · exact BitVec.eq_of_toNat_eq (by simpa using hval)
        · omega
      · obtain ⟨o, ho, hv, hor, hol⟩ := exists_vOut r l n (x l)
        exact ⟨o, (h o hv).2 ⟨l, hl, ha, ho⟩, hv, hor, hol⟩
    · rw [if_neg fun e => hr e.2]
      by_cases hr' : n = 64 ∧ r = d + 1
      · obtain ⟨rfl, rfl⟩ := hr'
        rw [if_pos ⟨ha, rfl, rfl⟩, show ((x l : Int) / 4294967296) = ((x l / 4294967296 : Nat) : Int) from rfl, BitVec.ofInt_natCast]
        refine Group.readV_writeOuts g hl hlane (fun o ho hv hor hol => ?_) ?_
        · obtain ⟨l', -, -, hm⟩ := (h o hv).1 ho
          obtain ⟨-, hl', hval⟩ := mem_vOut hn hm
          obtain rfl : l' = l := hl'.symm.trans hol
          rcases hval with ⟨hreg, -⟩ | ⟨-, -, hval⟩
          · omega
          · exact BitVec.eq_of_toNat_eq (by simpa using hval)
        · obtain ⟨o, ho, hv, hor, hol⟩ := exists_vOut_high d l (x l)
          exact ⟨o, (h o hv).2 ⟨l, hl, ha, ho⟩, hv, hor, hol⟩
      · rw [if_neg fun e => hr' e.2]
        refine Group.readV_writeOuts_keep g hl fun o ho hv => ⟨hlane o ho hv, fun e => ?_⟩
        obtain ⟨l', -, -, hm⟩ := (h o hv).1 ho
        obtain ⟨-, -, ⟨hreg, -⟩ | ⟨h64, hreg, -⟩⟩ := mem_vOut hn hm
        · exact hr (e.1.symm.trans hreg)
        · exact hr' ⟨h64, e.1.symm.trans hreg⟩
  · rw [if_neg fun e => ha e.1, if_neg fun e => ha e.1]
    refine Group.readV_writeOuts_keep g hl fun o ho hv => ⟨hlane o ho hv, fun e => ?_⟩
    obtain ⟨l', -, ha', hm⟩ := (h o hv).1 ho
    exact ha ((((mem_vOut hn hm).2.1).symm.trans e.2) ▸ ha')


/-! ## p registers -/

/-- Bits of a 16-bit word that a number gives. -/
theorem getLsbD_ofNat16 (y l : Nat) : (BitVec.ofNat 16 y).getLsbD l = (decide (l < 16) && y.testBit l) := BitVec.getLsbD_ofNat ..

/-- Lanes that leave a mask of 16, bit by bit. -/
theorem testBit_mDiff {a b l : Nat} (hl : l < 16) : (mDiff a b).testBit l = (a.testBit l && !b.testBit l) := by
  have h16 : (65535 : Nat).testBit l = true := by
    rw [show (65535 : Nat) = 2 ^ 16 - 1 from rfl, Nat.testBit_two_pow_sub_one]; exact decide_eq_true hl
  simp [mDiff, h16]

theorem Group.writeOut_p_of_ne {g : Group} {o : Out} (h : o.file ≠ .p) : (g.writeOut o).p = g.p := by
  obtain ⟨f, r, l, x, m⟩ := o
  cases f <;> simp [Group.writeOut] at h ⊢ <;> (repeat' split) <;> rfl

/-- A result for a lane of a p register replaces that lane's bit. -/
theorem Group.readP_writeOut (g : Group) {o : Out} (hval : o.val < 2) {r l : Nat} (hr : r ≠ 0) (hl : l < 16) :
    ((g.writeOut o).readP r l).toNat = if o.file == .p && o.reg == r && o.lane == l then o.val % 2 ^ 1 else (g.readP r l).toNat := by
  by_cases hp : o.file = .p
  · obtain ⟨f, r', l', x, m⟩ := o
    obtain rfl : f = .p := hp
    have hx : x = 0 ∨ x = 1 := by simp only at hval; omega
    by_cases h0 : r' = 0
    · simp [Group.writeOut, h0, hr.symm]
    · by_cases hrr : r' = r
      · subst hrr
        rcases hx with rfl | rfl <;> by_cases hll : l' = l <;>
          simp [Group.writeOut, Group.readP, hr, getLsbD_ofNat16, hl, testBit_mDiff, laneBit, BitVec.testBit_toNat, hll, mOr,
              -BitVec.ofNat_or, -BitVec.getLsbD_eq_getElem]
      · simp [Group.writeOut, Group.readP, h0, hrr, Tab.get_put, Ne.symm hrr]
  · simp [Group.readP, Group.writeOut_p_of_ne hp, hp]

theorem Group.readQ_writeOut_q (g : Group) {r val msk : Nat} (hr : r ≠ 0) {r' c : Nat} (hc : c < 16) :
    ((g.writeOut ⟨.q, r, 0, val, msk⟩).readQ r').getLsbD c =
      if r' = r ∧ msk.testBit c = true then val.testBit c else (g.readQ r').getLsbD c := by
  by_cases hrr : r' = r
  · subst hrr
    cases hm : msk.testBit c <;>
      simp [Group.writeOut, Group.readQ, hr, getLsbD_ofNat16, hc, testBit_mDiff, BitVec.testBit_toNat, hm, mOr, mAnd, -BitVec.ofNat_or, -BitVec.getLsbD_eq_getElem]
  · simp [Group.writeOut, Group.readQ, hr, hrr, Tab.get_put]


theorem readsLast_p {r l : Nat} (hr : r ≠ 0) (hl : l < 16) {outs : List Out} (hval : ∀ o ∈ outs, o.val < 2) :
    ReadsLast (fun _ => True) (fun g => (g.readP r l).toNat) 1 (fun o => o.file == .p && o.reg == r && o.lane == l) outs :=
  ⟨fun _ _ _ _ => trivial, fun o ho g _ => g.readP_writeOut (hval o ho) hr hl, fun g => by cases g.readP r l <;> decide,
   fun o _ h => by simp only [Bool.and_eq_true, beq_iff_eq] at h; simp [Out.sets, h.1.1]⟩

/-- The results of a list are those of p register d of the lanes of a mask. -/
def BringsP (act d : Nat) (val : Nat → Bool) (outs : List Out) : Prop :=
  ∀ o : Out, o ∈ outs ↔ ∃ l, l < 16 ∧ bit act l = true ∧ o ∈ pOut d l (val l)

theorem BringsP.readP {act d : Nat} {val : Nat → Bool} {outs : List Out} (h : BringsP act d val outs) (g : Group) {r l : Nat} (hl : l < 16) :
    (g.writeOuts outs).readP r l = if bit act l ∧ r = d ∧ d ≠ 0 then val l else g.readP r l := by
  by_cases hr : r = 0
  · rw [if_neg (by omega), hr, Group.readP_zero, Group.readP_zero]
  have hval : ∀ o ∈ outs, o.val < 2 := fun o ho => by
    obtain ⟨l', -, -, hm⟩ := (h o).1 ho
    obtain rfl := List.mem_singleton.1 hm
    cases val l' <;> simp
  have hreads := readsLast_p hr hl hval
  have hinj : ∀ {a b : Bool}, a.toNat = b.toNat → a = b := fun {a b} => by cases a <;> cases b <;> decide
  split
  · obtain ⟨ha, rfl, -⟩ := ‹_ ∧ _ ∧ _›
    refine hinj ((hreads.eq_of_hit (g := g) trivial (x := (val l).toNat) (fun o ho hh => ?_) ?_).trans (by cases val l <;> rfl))
    · obtain ⟨l', -, -, hm⟩ := (h o).1 ho
      obtain rfl := List.mem_singleton.1 hm
      obtain rfl : l' = l := by simpa using hh
      cases val l' <;> rfl
    · exact ⟨_, (h _).2 ⟨l, hl, ha, List.mem_singleton.2 rfl⟩, by simp⟩
  · rename_i hn
    refine hinj (hreads.eq_of_miss (g := g) trivial fun o ho => ?_)
    obtain ⟨l', -, ha, hm⟩ := (h o).1 ho
    obtain rfl := List.mem_singleton.1 hm
    rw [Bool.eq_false_iff]
    intro hh
    obtain ⟨rfl, rfl⟩ : d = r ∧ l' = l := by simpa using hh
    exact hn ⟨ha, rfl, hr⟩

/-! ## STATUS -/

theorem Group.writeOut_status_of_ne {g : Group} {o : Out} (h : o.file ≠ .status) : (g.writeOut o).status = g.status := by
  obtain ⟨f, r, l, x, m⟩ := o
  cases f <;> simp [Group.writeOut] at h ⊢ <;> (repeat' split) <;> rfl

theorem foldl_writeOut_status_bit (j : Nat) : ∀ (outs : List Out) (g : Group), (∀ o ∈ outs, o.file = .status → o.msk = 1) →
    ((outs.foldl Group.writeOut g).status.getLsbD j = true ↔ g.status.getLsbD j = true ∨
      ∃ o ∈ outs, o.file = .status ∧ (BitVec.ofNat 64 o.val).getLsbD j = true)
  | [], _, _ => by simp
  | o :: t, g, h => by
    rw [List.foldl_cons, foldl_writeOut_status_bit j t _ (fun o' ho => h o' (by simp [ho]))]
    by_cases hf : o.file = .status
    · have hm := h o (by simp) hf
      obtain ⟨f, r, l, x, m⟩ := o
      simp only at hf hm
      subst hf hm
      simp [Group.writeOut, or_assoc]
    · rw [Group.writeOut_status_of_ne hf]; simp [hf]

/-- STATUS gains the bits that some result sets. -/
theorem Group.status_writeOuts (g : Group) {outs : List Out} (h : ∀ o ∈ outs, o.file = .status → o.msk = 1) (j : Nat) :
    (g.writeOuts outs).status.getLsbD j = true ↔ g.status.getLsbD j = true ∨
      ∃ o ∈ outs, o.file = .status ∧ (BitVec.ofNat 64 o.val).getLsbD j = true := by
  have hsub : ∀ f : Out → Bool, ∀ o ∈ outs.filter f, o.file = .status → o.msk = 1 := fun f o ho => h o (List.mem_filter.1 ho).1
  have hsets : ∀ o ∈ outs, o.file = .status → o.sets = true := fun o ho hf => by simp [Out.sets, hf, h o ho hf]
  unfold Group.writeOuts
  rw [foldl_writeOut_status_bit j _ _ (hsub _), foldl_writeOut_status_bit j _ _ (hsub _), or_assoc]
  refine or_congr_right ⟨?_, fun ⟨o, ho, hf, hb⟩ => .inr ⟨o, List.mem_filter.2 ⟨ho, hsets o ho hf⟩, hf, hb⟩⟩
  rintro (⟨o, ho, hfb⟩ | ⟨o, ho, hfb⟩) <;> exact ⟨o, (List.mem_filter.1 ho).1, hfb⟩

/-! ## What results of one file leave -/

theorem Group.writeOuts_rest_p {outs : List Out} (g : Group) (h : ∀ o ∈ outs, o.file = .p) :
    { g.writeOuts outs with p := g.p, flags := g.flags } = g := by
  refine Group.writeOuts_inv (fun g' => { g' with p := g.p, flags := g.flags } = g) g (fun o ho g' hg => ?_) rfl
  obtain ⟨f, r, l, x, m⟩ := o
  obtain rfl : f = .p := h _ ho
  simp only [Group.writeOut]; split <;> exact hg

theorem Group.writeOuts_rest_x {outs : List Out} (g : Group) (h : ∀ o ∈ outs, o.file = .v ∨ (o.file = .status ∧ o.msk = 1)) :
    { g.writeOuts outs with v := g.v, status := g.status } = g := by
  refine Group.writeOuts_inv (fun g' => { g' with v := g.v, status := g.status } = g) g (fun o ho g' hg => ?_) rfl
  obtain ⟨f, r, l, x, m⟩ := o
  rcases h _ ho with hf | ⟨hf, hm⟩
  · obtain rfl : f = .v := hf
    exact hg
  · obtain rfl : f = .status := hf
    obtain rfl : m = 1 := hm
    exact hg

end Sys2Proof.Machine

namespace Sys2Proof.Spec
open Sys2Proof.Machine

/-! ## What the results of lanes do, in any order -/

/-- Results of lanes of a v register, with the flags that `fl` gives the lanes. -/
theorem landsV_of_brings {act n d : Nat} {x : Nat → Nat} {fl : Nat → Nat} {outs : List Out} (h : BringsV act n d x outs)
    (hn : n = 32 ∨ n = 64) (hfile : ∀ o ∈ outs, o.file = .v ∨ (o.file = .flags ∧ o.msk = 1 ∧ o.val &&& 0x73F = o.val))
    (hfl : ∀ j, (∃ o ∈ outs, o.file = .flags ∧ bit o.val j = true) ↔ ∃ l, l < 16 ∧ bit act l = true ∧ bit (fl l) j = true) :
    LandsV act n d (fun l => (x l : Int)) fl outs where
  reg g r l hl := h.readV hn g hl
  flags g j := by
    have hmsk : ∀ o ∈ outs, o.file = .flags → o.msk = 1 ∧ o.val &&& 0x73F = o.val := fun o ho hf => by
      rcases hfile o ho with hv | ⟨-, hm⟩
      · rw [hf] at hv; exact absurd hv (by decide)
      · exact hm
    rw [Group.flags_writeOuts g (fun o ho hf => (hmsk o ho hf).1), ← hfl j]
    refine or_congr_right (exists_congr fun o => and_congr_right fun ho => and_congr_right fun hf => flag_bit (hmsk o ho hf).2)
  rest g := Group.writeOuts_rest_v g fun o ho => (hfile o ho).imp_right fun hf => ⟨hf.1, hf.2.1⟩

theorem not_bit_noFlags (act j : Nat) : ¬ ∃ l, l < 16 ∧ bit act l = true ∧ bit (noFlags l) j = true := by
  rintro ⟨l, -, -, hb⟩
  simp [noFlags, bit] at hb

/-- Results of lanes of a v register that set no flag. -/
theorem landsV_of_brings_plain {act n d : Nat} {x : Nat → Nat} {outs : List Out} (h : BringsV act n d x outs)
    (hn : n = 32 ∨ n = 64) (hfile : ∀ o ∈ outs, o.file = .v) : LandsV act n d (fun l => (x l : Int)) noFlags outs := by
  refine landsV_of_brings h hn (fun o ho => .inl (hfile o ho)) fun j => iff_of_false ?_ (not_bit_noFlags act j)
  rintro ⟨o, ho, hf, -⟩
  rw [hfile o ho] at hf
  exact absurd hf (by decide)

/-- Results of lanes of a p register. -/
theorem landsP_of_brings {act d : Nat} {val : Nat → Bool} {outs : List Out} (h : BringsP act d val outs) : LandsP act d val noFlags outs := by
  have hfile : ∀ o ∈ outs, o.file = .p := fun o ho => by
    obtain ⟨l, -, -, hm⟩ := (h o).1 ho
    obtain rfl := List.mem_singleton.1 hm
    rfl
  have hnone : ∀ o ∈ outs, o.file ≠ .flags := fun o ho hf => by
    rw [hfile o ho] at hf; exact absurd hf (by decide)
  refine ⟨fun g r l hl => h.readP g hl, fun g j => ?_, fun g => Group.writeOuts_rest_p g hfile⟩
  rw [Group.flags_writeOuts g (fun o ho hf => absurd hf (hnone o ho))]
  exact or_congr_right (iff_of_false (fun ⟨o, ho, hf, _⟩ => hnone o ho hf) (not_bit_noFlags act j))

/-- Results of lanes of a v register, and STATUS.FILT of those whose value was filtered (R141). -/
theorem landsX_of_brings {act n d : Nat} {x : Nat → Nat} {filt : Nat → Bool} {outs : List Out} (h : BringsV act n d x outs)
    (hn : n = 32 ∨ n = 64) (hs : ∀ o : Out, o.file ≠ .v → (o ∈ outs ↔ ∃ l, l < 16 ∧ bit act l = true ∧ filt l = true ∧ o ∈ filtOut l)) :
    LandsX act n d (fun l => (x l : Int)) filt outs := by
  have hfile : ∀ o ∈ outs, o.file = .v ∨ (o.file = .status ∧ o.msk = 1) := fun o ho => by
    by_cases hv : o.file = .v
    · exact .inl hv
    · obtain ⟨l, -, -, -, hm⟩ := (hs o hv).1 ho
      obtain rfl := List.mem_singleton.1 hm
      exact .inr ⟨rfl, rfl⟩
  refine ⟨fun g r l hl => h.readV hn g hl, fun g j => ?_, fun g => Group.writeOuts_rest_x g hfile⟩
  have hbit : ∀ l, l < 16 → ((BitVec.ofNat 64 (2 ^ (32 + l))).getLsbD j = true ↔ j = 32 + l) := fun l hl => by
    rw [BitVec.getLsbD_ofNat, Nat.testBit_two_pow]
    simp only [Bool.and_eq_true, decide_eq_true_eq]
    omega
  rw [Group.status_writeOuts g (fun o ho hf => by
    rcases hfile o ho with hv | hv
    · rw [hf] at hv; exact absurd hv (by decide)
    · exact hv.2)]
  refine or_congr_right ⟨?_, ?_⟩
  · rintro ⟨o, ho, hf, hb⟩
    obtain ⟨l, hl, ha, hfl, hm⟩ := (hs o (by rw [hf]; decide)).1 ho
    obtain rfl := List.mem_singleton.1 hm
    exact ⟨l, hl, ha, hfl, (hbit l hl).1 hb⟩
  · rintro ⟨l, hl, ha, hfl, hj⟩
    exact ⟨_, (hs _ (by simp)).2 ⟨l, hl, ha, hfl, List.mem_singleton.2 rfl⟩, rfl, (hbit l hl).2 hj⟩

/-- One result of a q register for the class slots of a mask (R79). -/
theorem landsQ_qOut (act d val : Nat) : LandsQ act d (fun c => val.testBit c) (qOut d val act) := by
  have hone : ∀ g : Group, g.writeOuts (qOut d val act) = g.writeOut ⟨.q, d, 0, val, act⟩ := fun g => rfl
  refine ⟨fun g r c hc => ?_, fun g => ?_⟩
  · rw [hone]
    by_cases hd : d = 0
    · simp [Group.writeOut, hd]
    · rw [Group.readQ_writeOut_q g hd hc, bit_eq_testBit]
      simp [hd, and_comm]
  · rw [hone]
    simp only [Group.writeOut]; split <;> rfl

/-- One result of an s register (R7); a running handler's are those of its shadow bank (R291). -/
theorem landsS_sOut (d x : Nat) : LandsS True d (BitVec.ofNat 64 x) (sOut d x) := by
  have hone : ∀ g : Group, g.writeOuts (sOut d x) = g.writeOut ⟨.s, d, 0, x, 0⟩ := fun g => rfl
  refine ⟨fun _ g => ?_, fun g r hr => ?_, fun h => absurd trivial h, fun g => ?_⟩
  · rw [hone]
    by_cases hd : d = 0
    · simp [Group.readS, hd]
    · cases hh : g.handler with
      | none => simp [Group.writeOut, Group.readS, hd, hh]
      | some y => by_cases h56 : 56 ≤ d <;> simp [Group.writeOut, Group.readS, hd, hh, h56]
  · rw [hone]
    by_cases hd : d = 0
    · simp [Group.writeOut, hd]
    · cases hh : g.handler with
      | none => simp [Group.writeOut, Group.readS, hd, hh, Tab.get_put, hr]
      | some y => by_cases h56 : 56 ≤ d <;> simp [Group.writeOut, Group.readS, hd, hh, h56, Tab.get_put, hr]
  · rw [hone]
    simp only [Group.writeOut]
    repeat' split
    all_goals exact ⟨rfl, rfl, rfl, fun c => by cases c <;> rfl⟩

end Sys2Proof.Spec
end

section
/-! SUPPORT. Instructions whose results have variable latency: what they start (R16, R20, R142). -/

namespace Sys2Proof.Spec
open Sys2Proof.Machine

/-! ## What starts -/

/-- A group is written back and an operation starts: it takes the next number. -/
theorem starts_newOp {s : State} {w : Issuer} {g : Group} {i : Nat} (t : Turn s w g i) (g' : Group) (op : Op) :
    Starts s (runAll s (Prog.seq (Prog.grp w g') (Prog.newOp op) s)) w g' op := by
  cases t with
  | group k i ht hl hf =>
    refine ⟨fun j => ?_, rfl, fun j => ?_, rfl⟩
    · exact Tab.get_put ..
    · exact Tab.get_put ..
  | context k ht hs hf =>
    refine ⟨fun j => ?_, rfl, fun j => ?_, rfl⟩
    · exact Tab.get_put ..
    · exact Tab.get_put ..

/-- An instruction whose results have variable latency (R20): it starts an operation that holds them, if there are any. -/
theorem begins_variable {s : State} {k i : Nat} {g : Group} (t : Turn s (.grp k i) g i) (h : Hdr) (len : Nat) (covers : Bool)
    {outs : List Out} {on : Bool} (hon : outs.isEmpty = !on) {P : List Out → Prop} (hP : on = true → P outs) :
    let x := exOf s (.grp k i) g i h len
    Begins s ((x.variable (x.issued covers) outs).go s) (.grp k i) g i len h on covers
      fun op => op.kind = .result ∧ op.elems = [] ∧ P op.outs := by
  intro x
  cases on with
  | false =>
    have hrun : x.variable (x.issued covers) outs = Prog.grp (.grp k i) (x.issued covers) := by
      simp only [Ex.variable, hon, Bool.not_false, if_true]; rfl
    rw [hrun]
    exact ⟨_, _, rfl, issued_issued .., rfl, by rw [if_neg Bool.false_ne_true]; exact t.others _⟩
  | true =>
    have hrun : x.variable (x.issued covers) outs = Prog.seq (Prog.grp (.grp k i) (x.issued covers)) (Prog.newOp (x.op .result outs [])) := by
      simp only [Ex.variable, hon, Bool.not_true, Bool.false_eq_true, if_false]; rfl
    rw [hrun]
    exact ⟨_, _, rfl, issued_issued .., rfl, by
      rw [if_pos rfl]
      exact ⟨_, starts_newOp t _ _, rfl, rfl, rfl, rfl, rfl, hP rfl⟩⟩

/-- A lane instruction of variable latency, marked or not (R80): what it starts where a lane is active. -/
theorem laneLater_of_checked {s : State} {k i : Nat} {g : Group} {h : Hdr} {len : Nat} {feet : Ex → List Foot} {m : Bool} {outs : Ex → List Out}
    {o : Answer} {P : List Out → Prop}
    (ho : o = issue h len s fun x => x.only true false
      (x.check (feet x) m (x.variable (x.issued (x.act != 0)) (if x.act = 0 then [] else outs x))))
    (t : Turn s (.grp k i) g i) (c : Calm s (.grp k i) g) (hm : m = true → OneClass g i)
    (hne : active g i h ≠ 0 → outs (exOf s (.grp k i) g i h len) ≠ []) (hP : active g i h ≠ 0 → P (outs (exOf s (.grp k i) g i h len))) :
    LaneLater s o k i g h len P := by
  have hrun : o =
      (let x := exOf s (.grp k i) g i h len
       (x.variable (x.issued (active g i h != 0)) (if active g i h = 0 then [] else outs x)).go s) := by
    rw [ho, issue_eq t, only_grp_eq]
    simp only [Prog.go]
    rw [check_marked_eq c _ _ _ _ _ hm]
    rfl
  rw [hrun]
  by_cases ha : active g i h = 0
  · refine begins_variable t h len _ (by simp [ha]) fun hn => ?_
    simp [ha] at hn
  · simp only [if_neg ha]
    exact begins_variable t h len _ (by rw [List.isEmpty_eq_false_iff.2 (hne ha)]; simp [ha]) fun _ => hP ha

/-- A lane instruction of variable latency (R16, R20). -/
theorem laneVar_later {s : State} {k i : Nat} {g : Group} {h : Hdr} {len : Nat} {feet : Nat → List Foot} {outs : Ex → List Out}
    {o : Answer} {P : List Out → Prop} (ho : o = laneVar h len s feet outs) (t : Turn s (.grp k i) g i) (c : Calm s (.grp k i) g)
    (hne : active g i h ≠ 0 → outs (exOf s (.grp k i) g i h len) ≠ []) (hP : active g i h ≠ 0 → P (outs (exOf s (.grp k i) g i h len))) :
    LaneLater s o k i g h len P :=
  laneLater_of_checked (feet := fun x => x.guardP :: feet x.f.mask) ho t c (fun h => absurd h Bool.false_ne_true) hne hP

end Sys2Proof.Spec
end

section
/-! SUPPORT. The active lanes of each class, votes and queries over them (R141, R147 to R151, O16). -/

namespace Sys2Proof.Machine

/-! ## Masks of lanes where something holds -/

theorem maskWhere_eq_iff {f f' : Nat → Bool} : maskWhere f = maskWhere f' ↔ ∀ l, l < 16 → f l = f' l := by
  refine ⟨fun h l hl => ?_, fun h => Nat.eq_of_testBit_eq fun l => ?_⟩
  · have := congrArg (fun m => m.testBit l) h
    simpa only [testBit_maskWhere, hl, decide_true, Bool.true_and] using this
  · by_cases hl : l < 16
    · simp only [testBit_maskWhere, h l hl]
    · simp [testBit_maskWhere, hl]

theorem maskWhere_false : maskWhere (fun _ => false) = 0 := by decide

theorem maskWhere_eq_zero_iff {f : Nat → Bool} : maskWhere f = 0 ↔ ∀ l, l < 16 → f l = false := by
  rw [← maskWhere_false]; exact maskWhere_eq_iff

theorem lanesOf_maskWhere (f : Nat → Bool) : lanesOf (maskWhere f) = (List.range 16).filter f := by
  refine List.filter_congr fun l hl => ?_
  rw [bit_maskWhere, decide_eq_true (List.mem_range.1 hl), Bool.true_and]

/-- The mask of lanes is the sum of their bits. -/
theorem maskWhere_eq_sum (f : Nat → Bool) : maskWhere f = (((List.range 16).filter f).map fun l => 2 ^ l).sum := by
  rw [maskWhere, List.sum_eq_foldl, List.foldl_map]

theorem popcount_eq_length (x n : Nat) : popcount x n = (onesOf x n).length := by
  induction n with
  | zero => rfl
  | succ n ih =>
    simp only [popcount, ih, onesOf, List.range_succ, List.filter_append, List.length_append]
    cases hb : bit x n <;> simp [hb, Nat.add_comm]

theorem lanesOf_pairwise (m : Nat) : (lanesOf m).Pairwise (· < ·) := List.Pairwise.filter _ List.pairwise_lt_range

/-- The lowest lane of a mask is one of its lanes, and no other lies below it. -/
theorem lowest_spec {m l : Nat} (hl : l ∈ lanesOf m) : lowest m ∈ lanesOf m ∧ lowest m ≤ l := by
  have hsorted := lanesOf_pairwise m
  unfold lowest
  cases hm : lanesOf m with
  | nil => rw [hm] at hl; exact absurd hl List.not_mem_nil
  | cons x t =>
    rw [hm] at hl hsorted
    refine ⟨List.mem_cons_self, ?_⟩
    rcases List.mem_cons.1 hl with rfl | ht
    · exact Nat.le_refl _
    · exact Nat.le_of_lt ((List.pairwise_cons.1 hsorted).1 _ ht)

theorem Group.clsOf_lt (g : Group) (l : Nat) : g.clsOf l < 16 := Nat.mod_lt _ (by decide)

end Sys2Proof.Machine

namespace Sys2Proof.Spec
open Sys2Proof.Machine

/-! ## The lanes of a class -/

/-- The lanes of a mask in class slot c. -/
def partOf (g : Group) (act c : Nat) : Nat := maskWhere fun l => bit act l && g.clsOf l == c

section
variable {g : Group} {act : Nat}

@[simp] theorem bit_partOf (c l : Nat) : bit (partOf g act c) l = (decide (l < 16) && (bit act l && g.clsOf l == c)) := bit_maskWhere ..

theorem lanesOf_partOf (l : Nat) : lanesOf (partOf g act (g.clsOf l)) = classLanes g act l := lanesOf_maskWhere _

theorem mem_classLanes {l j : Nat} : j ∈ classLanes g act l ↔ j < 16 ∧ inClass g act l j = true := by
  simp [classLanes]

/-- An active lane is in its own class. -/
theorem self_mem_classLanes {l : Nat} (hl : l < 16) (ha : bit act l = true) : l ∈ classLanes g act l := by
  simp [mem_classLanes, inClass, hl, ha]

theorem exists_active {i : Nat} {h : Hdr} (ha : active g i h ≠ 0) : ∃ l, l < 16 ∧ bit (active g i h) l = true := by
  by_contra hn
  refine ha (maskWhere_eq_zero_iff.2 fun l hl => Bool.eq_false_iff.2 fun hb => hn ⟨l, hl, ?_⟩)
  simp only [active, Group.act, bit_maskWhere, hl, hb, decide_true, Bool.true_and]

/-- The results of each class's lanes, class after class, are those of the active lanes. -/
theorem mem_overClasses {f : Nat → Nat → List Out} {o : Out} :
    o ∈ ((g.classes act).map fun c => (c, partOf g act c)).flatMap (fun c => (lanesOf c.2).flatMap (f c.2)) ↔
      ∃ l, l < 16 ∧ bit act l = true ∧ o ∈ f (partOf g act (g.clsOf l)) l := by
  simp only [List.mem_flatMap, List.mem_map, Group.mem_classes, mem_lanesOf]
  constructor
  · rintro ⟨_, ⟨c, -, rfl⟩, l, ⟨hl, hb⟩, ho⟩
    simp only [bit_partOf, Bool.and_eq_true, decide_eq_true_eq, beq_iff_eq] at hb
    obtain ⟨-, ha, rfl⟩ := hb
    exact ⟨l, hl, ha, ho⟩
  · rintro ⟨l, hl, ha, ho⟩
    exact ⟨_, ⟨g.clsOf l, ⟨g.clsOf_lt l, l, hl, ha, rfl⟩, rfl⟩, l, ⟨hl, by simp [hl, ha]⟩, ho⟩

/-! ## Votes -/

/-- Where a predicate is true in the lanes of a class. -/
theorem trueIn_partOf (p l : Nat) : g.trueIn p (partOf g act (g.clsOf l)) = maskWhere fun j => inClass g act l j && g.readP p j :=
  maskWhere_eq_iff.2 fun j hj => by simp [inClass, hj]

theorem trueIn_all (p l : Nat) :
    (g.trueIn p (partOf g act (g.clsOf l)) == partOf g act (g.clsOf l)) = (classLanes g act l).all fun j => g.readP p j := by
  rw [Bool.eq_iff_iff, beq_iff_eq, trueIn_partOf, partOf, maskWhere_eq_iff, List.all_eq_true]
  refine ⟨fun h j hj => ?_, fun h j hj => ?_⟩
  · obtain ⟨hj, hc⟩ := mem_classLanes.1 hj
    have := h j hj
    rw [show (bit act j && g.clsOf j == g.clsOf l) = true from hc, hc] at this
    simpa using this
  · cases hc : inClass g act l j with
    | false => exact hc.symm
    | true => rw [h j (mem_classLanes.2 ⟨hj, hc⟩)]; exact hc.symm

theorem trueIn_any (p l : Nat) :
    (g.trueIn p (partOf g act (g.clsOf l)) != 0) = (classLanes g act l).any fun j => g.readP p j := by
  rw [Bool.eq_iff_iff, bne_iff_ne, trueIn_partOf, Ne, maskWhere_eq_zero_iff, List.any_eq_true]
  simp [mem_classLanes, and_assoc]

/-- The lowest lane of a class of active lanes. -/
theorem lowest_partOf {l j : Nat} (hj : j ∈ classLanes g act l) :
    lowest (partOf g act (g.clsOf l)) ∈ classLanes g act l ∧ lowest (partOf g act (g.clsOf l)) ≤ j := by
  rw [← lanesOf_partOf] at hj ⊢
  exact lowest_spec hj

end

/-- An operand of 32 or 64 bits, as the model reads it. -/
theorem toNat_pattern {n : Nat} (hn : n = 32 ∨ n = 64) (g : Group) (l : Nat) (a : Src) : (pattern n g l a).toNat = g.srcVal l n a := by
  rw [pattern, BitVec.toNat_ofInt]
  cases a with
  | v r => simp only [lane, Group.srcVal]; rcases hn with rfl | rfl <;> simp <;> omega
  | s r => exact Int.toNat_natCast _

theorem pattern_beq {n : Nat} (hn : n = 32 ∨ n = 64) (g : Group) (j l : Nat) (a : Src) :
    (pattern n g j a == pattern n g l a) = (g.srcVal j n a == g.srcVal l n a) := by
  rw [Bool.eq_iff_iff, beq_iff_eq, beq_iff_eq, ← BitVec.toNat_inj, toNat_pattern hn, toNat_pattern hn]

/-- The values of a class's active lanes agree where each agrees with that of one of them. -/
theorem uniform_eq {g : Group} {act l : Nat} (hl : l < 16) (ha : bit act l = true) (a : Src) :
    ((lanesOf (partOf g act (g.clsOf l))).all fun j => g.srcVal j 32 a == g.srcVal (lowest (partOf g act (g.clsOf l))) 32 a) =
      (classLanes g act l).all fun j => pattern 32 g j a == pattern 32 g l a := by
  have hself := self_mem_classLanes (g := g) hl ha
  have hlow := (lowest_partOf hself).1
  simp only [pattern_beq (.inl rfl), lanesOf_partOf]
  rw [Bool.eq_iff_iff]
  simp only [List.all_eq_true, beq_iff_eq]
  exact ⟨fun h j hj => (h j hj).trans (h l hself).symm, fun h j hj => (h j hj).trans (h _ hlow).symm⟩

/-! ## Results of the active lanes of each class -/

section
variable {s : State} {k i : Nat} {g : Group} {h : Hdr} {len : Nat}

/-- The results that the active lanes of a class are given by a function of the class's mask and the lane. -/
def overClasses (x : Ex) (f : Nat → Nat → List Out) : List Out := x.parts.flatMap fun c => (lanesOf c.2).flatMap (f c.2)

theorem mem_overParts {f : Nat → Nat → List Out} {o : Out} : o ∈ overClasses (exOf s (.grp k i) g i h len) f ↔
    ∃ l, l < 16 ∧ bit (active g i h) l = true ∧ o ∈ f (partOf g (active g i h) (g.clsOf l)) l := mem_overClasses

/-- A value of a v register for every active lane. -/
theorem landsV_overClasses (d : Nat) {f : Nat → Nat → Nat} {val : Nat → Nat}
    (hval : ∀ l, l < 16 → bit (active g i h) l = true → f (partOf g (active g i h) (g.clsOf l)) l = val l) :
    LandsV (active g i h) 32 d (fun l => (val l : Int)) noFlags
      (overClasses (exOf s (.grp k i) g i h len) fun m l => vOut d l 32 false (f m l)) := by
  have hmem : ∀ o : Out, o ∈ overClasses (exOf s (.grp k i) g i h len) (fun m l => vOut d l 32 false (f m l)) ↔
      ∃ l, l < 16 ∧ bit (active g i h) l = true ∧ o ∈ vOut d l 32 false (val l) := fun o => by
    rw [mem_overParts]
    exact exists_congr fun l => and_congr_right fun hl => and_congr_right fun ha => by rw [hval l hl ha]
  refine landsV_of_brings_plain (fun o _ => hmem o) (.inl rfl) fun o ho => ?_
  obtain ⟨l, -, -, hm⟩ := (hmem o).1 ho
  exact (mem_vOut (.inl rfl) hm).1

/-- A value of a p register for every active lane. -/
theorem landsP_overClasses (d : Nat) {f : Nat → Nat → Bool} {val : Nat → Bool}
    (hval : ∀ l, l < 16 → bit (active g i h) l = true → f (partOf g (active g i h) (g.clsOf l)) l = val l) :
    LandsP (active g i h) d val noFlags (overClasses (exOf s (.grp k i) g i h len) fun m l => pOut d l (f m l)) := by
  refine landsP_of_brings fun o => ?_
  rw [mem_overParts]
  exact exists_congr fun l => and_congr_right fun hl => and_congr_right fun ha => by rw [hval l hl ha]

/-- Where a lane is active and every lane gives a result, there is a result. -/
theorem overClasses_ne_nil {f : Nat → Nat → List Out} (hf : ∀ m l, f m l ≠ []) (ha : active g i h ≠ 0) :
    overClasses (exOf s (.grp k i) g i h len) f ≠ [] := by
  obtain ⟨l, hl, hb⟩ := exists_active ha
  obtain ⟨o, ho⟩ := List.exists_mem_of_ne_nil _ (hf (partOf g (active g i h) (g.clsOf l)) l)
  exact List.ne_nil_of_mem (mem_overParts.2 ⟨l, hl, hb, ho⟩)

theorem vOut_ne_nil (d l n : Nat) (sg : Bool) (x : Nat) : vOut d l n sg x ≠ [] := by unfold vOut; split <;> simp

/-! ## Votes into a p or a q register -/

/-- A vote into a p register: each active lane takes what its class says (R147). -/
theorem landsP_vote (d : PReg) {f : Nat → Bool} {val : Nat → Bool}
    (hval : ∀ l, l < 16 → bit (active g i h) l = true → f (partOf g (active g i h) (g.clsOf l)) = val l) :
    LandsP (active g i h) d.val val noFlags (pqOut (exOf s (.grp k i) g i h len) (.p d) f) :=
  landsP_overClasses (f := fun m _ => f m) d.val hval

/-- The slots of the classes of active lanes for which f holds, as one mask. -/
theorem foldl_parts (f : Nat → Bool) :
    ((exOf s (.grp k i) g i h len).parts.foldl (fun m c => if f c.2 then m + 2 ^ c.1 else m) 0) =
      maskWhere fun c => f (partOf g (active g i h) c) && (List.range 16).any fun l => bit (active g i h) l && g.clsOf l == c := by
  have hparts : (exOf s (.grp k i) g i h len).parts = (g.classes (active g i h)).map fun c => (c, partOf g (active g i h) c) := rfl
  have hclasses : g.classes (active g i h) = (List.range 16).filter fun c => (List.range 16).any fun l => bit (active g i h) l && g.clsOf l == c := by
    simp only [Group.classes, lanesOf, onesOf, List.any_filter]
  rw [hparts, List.foldl_map, hclasses, ← List.foldl_filter, List.filter_filter]
  rfl

theorem foldl_parts_slots : (exOf s (.grp k i) g i h len).parts.foldl (fun m c => m + 2 ^ c.1) 0 = slotsOf g (active g i h) := by
  have := foldl_parts (s := s) (k := k) (i := i) (g := g) (h := h) (len := len) fun _ => true
  simp only [if_true, Bool.true_and] at this
  exact this

/-- A vote into a q register: the bit of each class slot with an active lane is what the class says (R147). -/
theorem landsQ_vote (d : QReg) {f : Nat → Bool} {val : Nat → Bool}
    (hval : ∀ l, l < 16 → bit (active g i h) l = true → f (partOf g (active g i h) (g.clsOf l)) = val l) :
    ∃ v, LandsQ (slotsOf g (active g i h)) d.val v (pqOut (exOf s (.grp k i) g i h len) (.q d) f) ∧
      ∀ l, l < 16 → bit (active g i h) l = true → v (g.clsOf l) = val l := by
  refine ⟨fun c => (maskWhere fun c => f (partOf g (active g i h) c) && (List.range 16).any fun l => bit (active g i h) l && g.clsOf l == c).testBit c,
    ?_, fun l hl ha => ?_⟩
  · simp only [pqOut, foldl_parts, foldl_parts_slots]
    exact landsQ_qOut _ _ _
  · have hany : ((List.range 16).any fun j => bit (active g i h) j && g.clsOf j == g.clsOf l) = true :=
      List.any_eq_true.2 ⟨l, List.mem_range.2 hl, by simp [ha]⟩
    dsimp only
    rw [testBit_maskWhere, hany, decide_eq_true (g.clsOf_lt l), hval l hl ha, Bool.true_and, Bool.and_true]

theorem pqOut_ne_nil (d : PQ) (f : Nat → Bool) (ha : active g i h ≠ 0) : pqOut (exOf s (.grp k i) g i h len) d f ≠ [] := by
  cases d with
  | p r => exact overClasses_ne_nil (f := fun m l => pOut r.val l (f m)) (fun _ _ => List.cons_ne_nil _ _) ha
  | q r => exact List.cons_ne_nil _ _

end

/-! ## Queries -/

/-- The results of the active lanes one after the other. -/
theorem landsV_lanes {act : Nat} (d : Nat) (val : Nat → Nat) :
    LandsV act 32 d (fun l => (val l : Int)) noFlags ((lanesOf act).flatMap fun l => vOut d l 32 false (val l)) := by
  have hmem : ∀ o : Out, o ∈ (lanesOf act).flatMap (fun l => vOut d l 32 false (val l)) ↔
      ∃ l, l < 16 ∧ bit act l = true ∧ o ∈ vOut d l 32 false (val l) := fun o => by
    simp only [List.mem_flatMap, mem_lanesOf, and_assoc]
  refine landsV_of_brings_plain (fun o _ => hmem o) (.inl rfl) fun o ho => ?_
  obtain ⟨l, -, -, hm⟩ := (hmem o).1 ho
  exact (mem_vOut (.inl rfl) hm).1

theorem flatMap_lanes_ne_nil {g : Group} {i : Nat} {h : Hdr} {f : Nat → List Out} (hf : ∀ l, f l ≠ []) (ha : active g i h ≠ 0) :
    (lanesOf (active g i h)).flatMap f ≠ [] := by
  obtain ⟨l, hl, hb⟩ := exists_active ha
  obtain ⟨o, ho⟩ := List.exists_mem_of_ne_nil _ (hf l)
  exact List.ne_nil_of_mem (List.mem_flatMap.2 ⟨l, mem_lanesOf.2 ⟨hl, hb⟩, ho⟩)

/-- A lane is the lowest of its class where no other of the class lies below it (R148). -/
theorem elected_iff {g : Group} {act l : Nat} (hl : l < 16) (ha : bit act l = true) :
    (l == lowest (partOf g act (g.clsOf l))) = (classLanes g act l).all fun j => decide (l ≤ j) := by
  have hlow := fun j hj => lowest_partOf (g := g) (act := act) (l := l) (j := j) hj
  have hself := self_mem_classLanes (g := g) hl ha
  rw [Bool.eq_iff_iff]
  simp only [beq_iff_eq, List.all_eq_true, decide_eq_true_eq]
  exact ⟨fun h j hj => h ▸ (hlow j hj).2, fun h => Nat.le_antisymm (h _ (hlow l hself).1) (hlow l hself).2⟩

/-- The lanes of a mask in a lane's class, and how many they are (R151). -/
theorem cls_eq_sum (g : Group) (m l : Nat) : g.cls m l = ((classLanes g m l).map fun j => 2 ^ j).sum := maskWhere_eq_sum _
theorem popcount_cls (g : Group) (m l : Nat) : popcount (g.cls m l) 16 = (classLanes g m l).length := by
  rw [popcount_eq_length]; exact congrArg List.length (lanesOf_maskWhere _)

/-! ## The instructions as lane instructions of variable latency -/

section
variable (s : State) (h : Hdr)

theorem exec_vote_all (d : PQ) (a : PReg) : exec (.vote h (.all d a)) s =
    laneVar h 8 s (fun m => pqFoot m d ++ pFoot a.val m) fun x => pqOut x d fun c => x.g.trueIn a.val c == c := rfl
theorem exec_vote_any (d : PQ) (a : PReg) : exec (.vote h (.any d a)) s =
    laneVar h 8 s (fun m => pqFoot m d ++ pFoot a.val m) fun x => pqOut x d fun c => x.g.trueIn a.val c != 0 := rfl
theorem exec_vote_uni (d : PQ) (a : Src) : exec (.vote h (.uni d a)) s =
    laneVar h 8 s (fun m => pqFoot m d ++ srcFoot 32 m a) fun x =>
      pqOut x d fun c => (lanesOf c).all fun l => x.g.srcVal l 32 a == x.g.srcVal (lowest c) 32 a := rfl
theorem exec_vote_ballot_v (d : VReg) (a : PReg) : exec (.vote h (.ballot (.v d) a)) s =
    laneVar h 8 s (fun m => vFoot d.val 32 m ++ pFoot a.val m) fun x =>
      overClasses x fun m l => vOut d.val l 32 false (x.g.trueIn a.val m) := rfl
theorem exec_vote_ballot_s (d : SReg) (a : PReg) : exec (.vote h (.ballot (.s d) a)) s =
    issue h 8 s fun x => x.only true false (x.check (x.guardP :: (sFoot d.val ++ pFoot a.val x.f.mask)) true
      (x.variable (x.issued (x.act != 0)) (if x.act = 0 then [] else sOut d.val (x.g.trueIn a.val x.act)))) := rfl
theorem exec_elect (d : PReg) : exec (.elect h d) s =
    laneVar h 8 s (fun m => pFoot d.val m) fun x => overClasses x fun m l => pOut d.val l (l == lowest m) := rfl
theorem exec_matchl (ty : BTy) (d a : VReg) : exec (.matchl h ty d a) s =
    laneVar h 8 s (fun m => vFoot d.val 32 m ++ vFoot a.val (btyBits ty) m) fun x => overClasses x fun m l =>
      vOut d.val l 32 false (maskWhere fun j => bit m j && x.g.srcVal j (btyBits ty) (.v a) == x.g.srcVal l (btyBits ty) (.v a)) := rfl
theorem exec_ownq (fld : OwnField) (d : VReg) : exec (.ownq h fld d) s =
    laneVar h 8 s (fun m => vFoot d.val 32 m) fun x => (lanesOf x.act).flatMap fun l =>
      vOut d.val l 32 false (match fld with
        | .index => x.g.entOf l
        | .vf => (x.g.ownerOf l).vf
        | .asid => (x.g.ownerOf l).asid
        | .awn => (x.g.ownerOf l).awn) := rfl
theorem exec_fragq (count : Bool) (d : VReg) : exec (.fragq h count d) s =
    laneVar h 8 s (fun m => vFoot d.val 32 m) fun x => (lanesOf x.act).flatMap fun l =>
      vOut d.val l 32 false (if count then popcount (x.g.cls x.f.mask l) 16 else x.g.cls x.f.mask l) := rfl

end

/-- Settles O16: each class's active lanes are one part of the model's list of parts, and its results are those of the active lanes. -/
theorem votesAndQueries : Obligations.VotesAndQueries := by
  refine ⟨fun s k i g h t c => ?votes, fun s k i g h t c => ?queries⟩
  case votes =>
    dsimp only
    refine ⟨fun d a => ?all, fun d a => ?any, fun d a => ?uni, fun d a => ?lanes, fun d a one => ?group⟩
    case all =>
      refine laneVar_later (exec_vote_all s h d a) t c (pqOut_ne_nil d _) fun _ => ?_
      cases d with
      | p r => exact landsP_vote r fun l _ _ => trueIn_all a.val l
      | q r => exact landsQ_vote r fun l _ _ => trueIn_all a.val l
    case any =>
      refine laneVar_later (exec_vote_any s h d a) t c (pqOut_ne_nil d _) fun _ => ?_
      cases d with
      | p r => exact landsP_vote r fun l _ _ => trueIn_any a.val l
      | q r => exact landsQ_vote r fun l _ _ => trueIn_any a.val l
    case uni =>
      refine laneVar_later (exec_vote_uni s h d a) t c (pqOut_ne_nil d _) fun _ => ?_
      cases d with
      | p r => exact landsP_vote r fun l hl ha => uniform_eq hl ha a
      | q r => exact landsQ_vote r fun l hl ha => uniform_eq hl ha a
    case lanes =>
      exact laneVar_later (exec_vote_ballot_v s h d a) t c (overClasses_ne_nil fun _ _ => vOut_ne_nil _ _ _ _ _) fun _ =>
        landsV_overClasses d.val fun l _ _ => trueIn_partOf a.val l
    case group =>
      exact laneLater_of_checked (exec_vote_ballot_s s h d a) t c (fun _ => one) (fun _ => List.cons_ne_nil _ _) fun _ => landsS_sOut d.val _
  case queries =>
    dsimp only
    refine ⟨fun d => ?elect, fun ty d a => ?matchl, fun fld d => ?ownq, fun count d => ?fragq⟩
    case elect =>
      exact laneVar_later (exec_elect s h d) t c (overClasses_ne_nil fun _ _ => List.cons_ne_nil _ _) fun _ =>
        landsP_overClasses d.val fun l hl ha => elected_iff hl ha
    case matchl =>
      refine laneVar_later (exec_matchl s h ty d a) t c (overClasses_ne_nil fun _ _ => vOut_ne_nil _ _ _ _ _) fun _ =>
        landsV_overClasses d.val fun l hl ha => maskWhere_eq_iff.2 fun j hj => ?_
      rw [pattern_beq (btyBits_cases ty), bit_partOf, decide_eq_true hj, Bool.true_and]
      rfl
    case ownq =>
      exact laneVar_later (exec_ownq s h fld d) t c (flatMap_lanes_ne_nil fun _ => vOut_ne_nil _ _ _ _ _) fun _ => landsV_lanes d.val _
    case fragq =>
      refine laneVar_later (exec_fragq s h count d) t c (flatMap_lanes_ne_nil fun _ => vOut_ne_nil _ _ _ _ _) fun _ => ?_
      simp only [← cls_eq_sum, ← popcount_cls]
      exact landsV_lanes d.val _

end Sys2Proof.Spec
end

section
/-! SUPPORT. Exchanges between lanes: the source lane and the value that it gives, filtered by class (R141, R152 to R154, O17). -/

namespace Sys2Proof.Spec
open Sys2Proof.Machine

/-! ## Source lanes -/

theorem toNat_patternI (g : Group) (l : Nat) (b : SrcI) : (patternI 32 g l b).toNat = g.srcIVal l 32 false b := by
  cases b with
  | reg r => exact toNat_pattern (.inl rfl) g l r
  | imm i =>
    have hi : BitVec.ofInt 32 i.toInt = i := BitVec.ofInt_toInt
    have hlt := i.isLt
    simp only [patternI, laneI, Bool.false_eq_true, if_false, hi, Group.srcIVal, immVal, show ¬ (32 : Nat) = 64 by decide]
    omega

/-- The first lane of a lane's group of w (R152). -/
theorem sub_mod_eq (l w : Nat) : l - l % w = l / w * w := by
  have := Nat.div_add_mod' l w
  omega

/-- IMM32 names the lane by its low bits (R153, R154). -/
theorem laneArg_imm (g : Group) (x : BitVec 32) : g.laneArg (.imm x) = x.toNat % 16 := by
  have hx := x.isLt
  simp only [Group.laneArg, Group.simmVal, immVal, if_true, Bool.false_eq_true, if_false, wrap, sext]
  split <;> omega

/-! ## What an exchange brings -/

section
variable {s : State} {k i : Nat} {g : Group} {h : Hdr} {len : Nat} {n : Nat} (hn : n = 32 ∨ n = 64)
include hn

/-- The value of a source lane: its register where it is an active lane of the class, and otherwise 0, which is filtered where another class's lane is
active (R141). -/
theorem exchange_eq (d : Nat) (a : VReg) (l S : Nat) : (exOf s (.grp k i) g i h len).exchange d a.val n l S =
    vOut d l n false (if inClass g (active g i h) l S then (pattern n g S (.v a)).toNat else 0) ++
      (if bit (active g i h) S && g.clsOf S != g.clsOf l then filtOut l else []) := by
  have hact : (exOf s (.grp k i) g i h len).act = active g i h := rfl
  have hval : (if n = 64 then (g.readV a.val S).toNat + 4294967296 * (g.readV (a.val + 1) S).toNat else (g.readV a.val S).toNat) =
      (pattern n g S (.v a)).toNat := by
    rw [toNat_pattern hn, Group.srcVal]
    rcases hn with rfl | rfl
    · exact (Nat.mod_eq_of_lt (g.readV a.val S).isLt).symm
    · rfl
  cases ha : bit (active g i h) S with
  | false => simp [Ex.exchange, hact, ha, inClass]
  | true =>
    cases hc : g.clsOf S == g.clsOf l with
    | true =>
      have hc' : ((exOf s (.grp k i) g i h len).g.clsOf S == (exOf s (.grp k i) g i h len).g.clsOf l) = true := hc
      simp only [Ex.exchange, hact, ha, inClass, hc, hc', bne, Bool.not_true, Bool.and_false, Bool.and_self, Bool.false_eq_true, if_true, if_false,
        List.append_nil, ← hval]
      rfl
    | false =>
      have hc' : ((exOf s (.grp k i) g i h len).g.clsOf S == (exOf s (.grp k i) g i h len).g.clsOf l) = false := hc
      simp [Ex.exchange, hact, ha, inClass, hc, hc', bne]

/-- The results of SHFL and BCST, with the source lane of each lane. -/
theorem landsX_exchange (d : Nat) (a : VReg) {S S' : Nat → Nat} (hS : ∀ l, S' l = S l) :
    LandsX (active g i h) n d (fun l => if inClass g (active g i h) l (S l) then ((pattern n g (S l) (.v a)).toNat : Int) else 0)
      (fun l => bit (active g i h) (S l) && g.clsOf (S l) != g.clsOf l)
      ((lanesOf (active g i h)).flatMap fun l => (exOf s (.grp k i) g i h len).exchange d a.val n l (S' l)) := by
  obtain rfl : S = S' := (funext hS).symm
  have hmem : ∀ o : Out, o ∈ (lanesOf (active g i h)).flatMap (fun l => (exOf s (.grp k i) g i h len).exchange d a.val n l (S l)) ↔
      ∃ l, l < 16 ∧ bit (active g i h) l = true ∧
        (o ∈ vOut d l n false (if inClass g (active g i h) l (S l) then (pattern n g (S l) (.v a)).toNat else 0) ∨
          ((bit (active g i h) (S l) && g.clsOf (S l) != g.clsOf l) = true ∧ o ∈ filtOut l)) := fun o => by
    simp only [List.mem_flatMap, mem_lanesOf, and_assoc, exchange_eq hn, List.mem_append]
    refine exists_congr fun l => and_congr_right fun _ => and_congr_right fun _ => or_congr_right ?_
    split <;> simp_all
  have hfilt : ∀ {o : Out} {l : Nat}, o ∈ filtOut l → o.file = .status := fun {o l} ho => by
    obtain rfl := List.mem_singleton.1 ho
    rfl
  have hcast : (fun l => if inClass g (active g i h) l (S l) then ((pattern n g (S l) (.v a)).toNat : Int) else 0) =
      fun l => ((if inClass g (active g i h) l (S l) then (pattern n g (S l) (.v a)).toNat else 0 : Nat) : Int) := by
    funext l; split <;> rfl
  rw [hcast]
  refine landsX_of_brings (fun o hv => ?_) hn fun o hv => ?_
  · rw [hmem]
    refine exists_congr fun l => and_congr_right fun _ => and_congr_right fun _ => or_iff_left fun ⟨_, hf⟩ => ?_
    rw [hfilt hf] at hv
    exact absurd hv (by decide)
  · rw [hmem]
    exact exists_congr fun l => and_congr_right fun _ => and_congr_right fun _ => or_iff_right fun hm => hv (mem_vOut hn hm).1

/-- The result of RDLN, with its source lane (R154). -/
theorem landsS_rdln (d : Nat) (a : VReg) {S S' : Nat} (hS : S' = S) :
    LandsS True d (if bit (active g i h) S then (pattern n g S (.v a)).setWidth 64 else 0)
      (sOut d (if bit (active g i h) S' then g.srcVal S' n (.v a) else 0)) := by
  subst hS
  have hval : (if bit (active g i h) S' then (pattern n g S' (.v a)).setWidth 64 else 0) =
      BitVec.ofNat 64 (if bit (active g i h) S' then g.srcVal S' n (.v a) else 0) := by
    split
    · rw [← toNat_pattern hn, BitVec.ofNat_toNat]
    · rfl
  rw [hval]
  exact landsS_sOut d _

theorem exchange_ne_nil (d : Nat) (a : VReg) (l S : Nat) : (exOf s (.grp k i) g i h len).exchange d a.val n l S ≠ [] := by
  rw [exchange_eq hn]
  exact List.append_ne_nil_of_left_ne_nil (vOut_ne_nil _ _ _ _ _) _

end

/-! ## The instructions -/

section
variable (s : State) (h : Hdr)

theorem exec_shfl (fn : ShflFn) (m : Fin 4) (d a : VReg) (b : SrcI) : exec (.shfl h fn m d a b) s =
    laneVar h (srcILen b) s (fun m => vFoot d.val 32 m ++ vFoot a.val 32 m ++ srcIFoot 32 m b) fun x =>
      (lanesOf x.act).flatMap fun l => x.exchange d.val a.val 32 l (shflLane fn (16 / 2 ^ m.val) l (x.g.srcIVal l 32 false b)) := rfl
theorem exec_bcst (ty : BTy) (d a : VReg) (b : SImm) : exec (.bcst h ty d a b) s =
    laneVar h (simmLen b) s (fun m => vFoot d.val (btyBits ty) m ++ vFoot a.val (btyBits ty) m ++ simmFoot b) fun x =>
      (lanesOf x.act).flatMap fun l => x.exchange d.val a.val (btyBits ty) l (x.g.laneArg b) := rfl
theorem exec_rdln (ty : BTy) (d : SReg) (a : VReg) (b : SImm) : exec (.rdln h ty d a b) s =
    issue h (simmLen b) s fun x => x.only true false
      (x.check (x.guardP :: (sFoot d.val ++ vFoot a.val (btyBits ty) x.f.mask ++ simmFoot b)) true
        (x.variable (x.issued (x.act != 0)) (if x.act = 0 then [] else
          sOut d.val (if bit x.act (x.g.laneArg b) then x.g.srcVal (x.g.laneArg b) (btyBits ty) (.v a) else 0)))) := rfl

end

/-- Settles O17: what a lane takes from its source lane, by the cases of R141. -/
theorem laneExchange : Obligations.LaneExchange := by
  intro s k i g h t c
  dsimp only
  refine ⟨fun fn m d a b => ?shfl, fun ty d a b => ?bcst, fun ty d a b one => ?rdln⟩
  case shfl =>
    refine laneVar_later (exec_shfl s h fn m d a b) t c (flatMap_lanes_ne_nil fun l => exchange_ne_nil (.inl rfl) _ _ _ _) fun _ =>
      landsX_exchange (.inl rfl) d.val a fun l => ?_
    simp only [toNat_patternI, ← sub_mod_eq]
    cases fn <;> rfl
  case bcst =>
    refine laneVar_later (exec_bcst s h ty d a b) t c (flatMap_lanes_ne_nil fun l => exchange_ne_nil (btyBits_cases ty) _ _ _ _) fun _ =>
      landsX_exchange (btyBits_cases ty) d.val a fun l => ?_
    cases b with
    | s r => rfl
    | imm x => exact laneArg_imm g x
  case rdln =>
    refine laneLater_of_checked (exec_rdln s h ty d a b) t c (fun _ => one) (fun _ => List.cons_ne_nil _ _) fun _ =>
      landsS_rdln (btyBits_cases ty) d.val a ?_
    cases b with
    | s r => rfl
    | imm x => exact laneArg_imm g x

end Sys2Proof.Spec
end

section
/-! SUPPORT. Reductions and scans: the running results of a class, their flags, and what they are of each lane (R155, O18). -/

namespace Sys2Proof.Machine

/-! ## Bits of FLAGS that floating-point steps set (Table 2.2) -/

/-- Bits that instructions set in FLAGS (Table 1.4). -/
def IsFlags (b : Nat) : Prop := b &&& 0x73F = b

theorem IsFlags.or {a b : Nat} (ha : IsFlags a) (hb : IsFlags b) : IsFlags (a ||| b) := by
  unfold IsFlags at *
  rw [Nat.and_or_distrib_right, ha, hb]

theorem IsFlags.ite {p : Prop} [Decidable p] {a b : Nat × Nat} (ha : IsFlags a.2) (hb : IsFlags b.2) : IsFlags (if p then a else b).2 := by
  split
  · exact ha
  · exact hb

theorem isFlags_zero : IsFlags 0 := rfl
theorem isFlags_nv : IsFlags fNV := rfl

theorem isFlags_nvOf (l : List Fp) : IsFlags (nvOf l) := by
  unfold nvOf; split
  · exact isFlags_nv
  · exact isFlags_zero

theorem isFlags_fpRound (f : Fmt) (rm : Rm) (sat neg : Bool) (m : Nat) (e : Int) : IsFlags (fpRound f rm sat neg m e).2 := by
  have hsum : ∀ a b c : Bool, IsFlags ((if a then fNX else 0) + (if b then fUF else 0) + (if c then fOF else 0)) := by
    intro a b c
    cases a <;> cases b <;> cases c <;> rfl
  have hover : IsFlags (fOF + fNX) := rfl
  have hnan : IsFlags (fOF + fNX + fNV) := rfl
  exact .ite (.ite (.ite (.ite hover hnan) hover) hover) (hsum _ _ _)

theorem isFlags_sumRound (f : Fmt) (rm : Rm) (terms : List (Bool × Nat × Int)) : IsFlags (sumRound f rm terms).2 :=
  .ite (isFlags_fpRound ..) (.ite isFlags_zero (.ite isFlags_zero isFlags_zero))

theorem isFlags_fpAdd (f : Fmt) (rm : Rm) (x y : Nat) : IsFlags (fpAdd f rm x y).2 :=
  .ite (isFlags_nvOf _) (.ite isFlags_nv (.ite isFlags_zero (.ite isFlags_zero (isFlags_sumRound ..))))

/-- A step sets bits of FLAGS only. -/
theorem isFlags_redStep (op : RedOp) (ty : RTy) (rm : Rm) (a b : Nat) : IsFlags (redStep op ty rm a b).2 := by
  cases ty
  case f32 =>
    cases op
    case min => exact fpMinMax_flags false a b ▸ isFlags_nvOf _
    case max => exact fpMinMax_flags true a b ▸ isFlags_nvOf _
    all_goals exact isFlags_fpAdd ..
  all_goals cases op <;> exact isFlags_zero

theorem isFlags_redFirst (ty : RTy) (a : Nat) : IsFlags (redFirst ty a).2 := .ite isFlags_nv isFlags_zero

/-! ## Running results -/

section
variable (op : RedOp) (ty : RTy) (rm : Rm)

/-- The combination of some values from left to right; 0 of none (R155). -/
def combine : List Nat → Nat
  | [] => 0
  | v :: t => t.foldl (fun r y => (redStep op ty rm r y).1) (redFirst ty v).1

/-- The running result of a value that stands behind others, with the flags of its step. -/
def running (before : List Nat) (v : Nat) : Nat × Nat :=
  if before = [] then redFirst ty v else redStep op ty rm (combine op ty rm before) v

theorem combine_concat (l : List Nat) (v : Nat) : combine op ty rm (l ++ [v]) = (running op ty rm l v).1 := by
  cases l with
  | nil => rfl
  | cons x t => simp [combine, running]

theorem isFlags_running (l : List Nat) (v : Nat) : IsFlags (running op ty rm l v).2 := .ite (isFlags_redFirst ..) (isFlags_redStep ..)

theorem scanFrom_concat (t : List Nat) (r v : Nat) : scanFrom op ty rm r (t ++ [v]) =
    scanFrom op ty rm r t ++ [redStep op ty rm (t.foldl (fun r y => (redStep op ty rm r y).1) r) v] := by
  induction t generalizing r with
  | nil => rfl
  | cons x t ih => simp [scanFrom, ih]

theorem scanAll_concat (l : List Nat) (v : Nat) : scanAll op ty rm (l ++ [v]) = scanAll op ty rm l ++ [running op ty rm l v] := by
  cases l with
  | nil => rfl
  | cons x t => simp [scanAll, running, combine, scanFrom_concat]

/-- The running results, one for each value. -/
theorem scanAll_eq_map (l : List Nat) :
    scanAll op ty rm l = (List.range l.length).map fun j => running op ty rm (l.take j) (l.getD j 0) := by
  induction l using List.reverseRecOn with
  | nil => rfl
  | append_singleton l v ih =>
    rw [scanAll_concat, ih, List.length_append, List.length_singleton, List.range_succ, List.map_append]
    congr 1
    · refine List.map_congr_left fun j hj => ?_
      have hj := List.mem_range.1 hj
      rw [List.take_append_of_le_length (Nat.le_of_lt hj), List.getD_append _ _ _ _ hj]
    · simp

@[simp] theorem length_scanAll (l : List Nat) : (scanAll op ty rm l).length = l.length := by simp [scanAll_eq_map]

theorem getAt_scanAll {l : List Nat} {j : Nat} (hj : j < l.length) :
    getAt (0, 0) (scanAll op ty rm l) j = running op ty rm (l.take j) (l.getD j 0) := by
  rw [getAt_eq_getD, scanAll_eq_map, List.getD_eq_getElem?_getD, List.getElem?_map, List.getElem?_range hj]
  rfl

theorem take_succ_getD {l : List Nat} {j : Nat} (hj : j < l.length) : l.take (j + 1) = l.take j ++ [l.getD j 0] := by
  rw [List.take_add_one, List.getElem?_eq_getElem hj, List.getD_eq_getElem _ _ hj]; rfl

/-- The running result at a place is the combination of the values up to it. -/
theorem fst_getAt_scanAll {l : List Nat} {j : Nat} (hj : j < l.length) :
    (getAt (0, 0) (scanAll op ty rm l) j).1 = combine op ty rm (l.take (j + 1)) := by
  rw [getAt_scanAll op ty rm hj, take_succ_getD hj, combine_concat]

/-- The last running result is the combination of all values. -/
theorem fst_getLastD_scanAll (l : List Nat) : ((scanAll op ty rm l).getLastD (0, 0)).1 = combine op ty rm l := by
  rcases List.eq_nil_or_concat l with rfl | ⟨t, v, rfl⟩
  · rfl
  · rw [List.concat_eq_append, scanAll_concat, combine_concat, List.getLastD_concat]

end

/-- The flags of some steps together, bit by bit. -/
theorem bit_foldl_or (l : List (Nat × Nat)) (b j : Nat) : bit (l.foldl (fun m y => m ||| y.2) b) j = true ↔
    bit b j = true ∨ ∃ y ∈ l, bit y.2 j = true := by
  induction l generalizing b with
  | nil => simp
  | cons y t ih =>
    rw [List.foldl_cons, ih]
    simp [bit_eq_testBit, Nat.testBit_or, or_assoc]

theorem isFlags_foldl_or {l : List (Nat × Nat)} {b : Nat} (hb : IsFlags b) (h : ∀ y ∈ l, IsFlags y.2) :
    IsFlags (l.foldl (fun m y => m ||| y.2) b) := by
  induction l generalizing b with
  | nil => exact hb
  | cons y t ih => exact ih (hb.or (h y List.mem_cons_self)) fun z hz => h z (List.mem_cons_of_mem _ hz)

/-! ## Places in an ascending list -/

/-- The values of an ascending list below the one at a place are those before it. -/
theorem filter_lt_eq_take {l : List Nat} (hl : l.Pairwise (· < ·)) {j : Nat} (hj : j < l.length) :
    l.filter (fun y => decide (y < l[j])) = l.take j := by
  have hlt : ∀ {a b : Nat} (ha : a < l.length) (hb : b < l.length), a < b → l[a] < l[b] := fun ha hb h => List.pairwise_iff_getElem.1 hl _ _ ha hb h
  calc l.filter (fun y => decide (y < l[j]))
    _ = (l.take j ++ l.drop j).filter (fun y => decide (y < l[j])) := by rw [List.take_append_drop]
    _ = l.take j := ?_
  rw [List.filter_append, List.filter_eq_self.2, List.filter_eq_nil_iff.2, List.append_nil]
  · intro y hy
    obtain ⟨n, hn, rfl⟩ := List.mem_iff_getElem.1 hy
    rw [List.getElem_drop]
    rw [List.length_drop] at hn
    simp only [decide_eq_true_eq, not_lt]
    rcases Nat.eq_zero_or_pos n with rfl | hpos
    · exact Nat.le_refl _
    · exact Nat.le_of_lt (hlt hj (by omega) (by omega))
  · intro y hy
    obtain ⟨n, hn, rfl⟩ := List.mem_iff_getElem.1 hy
    rw [List.length_take] at hn
    rw [List.getElem_take]
    exact decide_eq_true (hlt (by omega) hj (by omega))

end Sys2Proof.Machine

namespace Sys2Proof.Spec
open Sys2Proof.Machine

/-! ## The lanes of a class, and their places -/

section
variable {g : Group} {act : Nat}

/-- Results of each class, class after class, are those of the classes of the active lanes. -/
theorem mem_byClass {f : Nat → List Out} {o : Out} : o ∈ ((g.classes act).map fun c => (c, partOf g act c)).flatMap (fun c => f c.2) ↔
    ∃ l, l < 16 ∧ bit act l = true ∧ o ∈ f (partOf g act (g.clsOf l)) := by
  simp only [List.mem_flatMap, List.mem_map, Group.mem_classes]
  constructor
  · rintro ⟨_, ⟨c, ⟨-, l, hl, ha, rfl⟩, rfl⟩, ho⟩
    exact ⟨l, hl, ha, ho⟩
  · rintro ⟨l, hl, ha, ho⟩
    exact ⟨_, ⟨g.clsOf l, ⟨g.clsOf_lt l, l, hl, ha, rfl⟩, rfl⟩, ho⟩

/-- Lanes of one class see the same lanes. -/
theorem classLanes_eq_of_mem {l j : Nat} (h : j ∈ classLanes g act l) : j < 16 ∧ bit act j = true ∧ classLanes g act j = classLanes g act l := by
  obtain ⟨hj, hc⟩ := mem_classLanes.1 h
  obtain ⟨ha, hcls⟩ : bit act j = true ∧ g.clsOf j = g.clsOf l := by simpa [inClass] using hc
  exact ⟨hj, ha, List.filter_congr fun x _ => by simp only [inClass, hcls]⟩

theorem classLanes_pairwise (l : Nat) : (classLanes g act l).Pairwise (· < ·) := List.Pairwise.filter _ List.pairwise_lt_range

end

/-! ## The results of the classes -/

section
variable (g : Group) (act : Nat) (op : RedOp) (ty : RTy) (a : VReg)

theorem rtyBits_cases (t : RTy) : rtyBits t = 32 ∨ rtyBits t = 64 := by cases t <;> simp [rtyBits]

/-- The values of lanes. -/
def valuesOf (ls : List Nat) : List Nat := ls.map fun l => g.srcVal l (rtyBits ty) (.v a)

/-- The active lanes of a lane's class that lie below it. -/
def lanesBelow (l : Nat) : List Nat := (classLanes g act l).filter fun j => decide (j < l)

/-- The running result at a lane, with the flags of its step. -/
def entryOf (l : Nat) : Nat × Nat := running op ty (drmOf g.fpctl) (valuesOf g ty a (lanesBelow g act l)) (g.srcVal l (rtyBits ty) (.v a))

theorem fst_entryOf (l : Nat) : (entryOf g act op ty a l).1 = combine op ty (drmOf g.fpctl) (valuesOf g ty a (lanesBelow g act l ++ [l])) := by
  rw [valuesOf, List.map_append, List.map_singleton, combine_concat]; rfl

/-- All running results of the class of lane l. -/
def scanOf (l : Nat) : List (Nat × Nat) := scanAll op ty (drmOf g.fpctl) (valuesOf g ty a (classLanes g act l))

/-- The lanes before a place in a class are those below the lane at that place. -/
theorem take_classLanes {l j : Nat} (hj : j < (classLanes g act l).length) :
    (classLanes g act l).take j = lanesBelow g act (classLanes g act l)[j] := by
  rw [lanesBelow, (classLanes_eq_of_mem (List.getElem_mem hj)).2.2, filter_lt_eq_take (classLanes_pairwise l) hj]

/-- The running results of a class are those at its lanes. -/
theorem scanOf_eq_map (l : Nat) : scanOf g act op ty a l = (classLanes g act l).map (entryOf g act op ty a) := by
  refine List.ext_getElem (by simp [scanOf, valuesOf]) fun j hj hj' => ?_
  have hlen : j < (classLanes g act l).length := by simpa using hj'
  simp only [scanOf, scanAll_eq_map, List.getElem_map, List.getElem_range, entryOf, ← take_classLanes g act hlen, valuesOf, List.map_take]
  rw [List.getD_eq_getElem _ _ (by simpa using hlen), List.getElem_map]

/-- The running results whose flags count (log 42). -/
def counted (r : List (Nat × Nat)) : List (Nat × Nat) := if op = .xadd then r.take (max 1 (r.length - 1)) else r

end

section
variable {s : State} {k i : Nat} {g : Group} {h : Hdr} {op : RedOp} {ty : RTy} {d a : VReg} {pick : List (Nat × Nat) → Nat → Nat}

/-- The results of one class, whose lanes these are. -/
def classResults (g : Group) (op : RedOp) (ty : RTy) (d a : VReg) (pick : List (Nat × Nat) → Nat → Nat) (ls : List Nat) : List Out :=
  let r := scanAll op ty (drmOf g.fpctl) (valuesOf g ty a ls)
  (ls.zipIdx.flatMap fun p => vOut d.val p.1 (rtyBits ty) false (pick r p.2)) ++ flagOut ((counted op r).foldl (fun m y => m ||| y.2) 0)

theorem reduce_eq : (exOf s (.grp k i) g i h 8).reduce op ty d a pick =
    ((g.classes (active g i h)).map fun c => (c, partOf g (active g i h) c)).flatMap fun c => classResults g op ty d a pick (lanesOf c.2) := rfl

/-- The results of a reduction: the value at each place of each class, and the flags of the class. -/
theorem mem_reduce {o : Out} : o ∈ (exOf s (.grp k i) g i h 8).reduce op ty d a pick ↔
    ∃ l, l < 16 ∧ bit (active g i h) l = true ∧
      ((∃ p ∈ (classLanes g (active g i h) l).zipIdx, o ∈ vOut d.val p.1 (rtyBits ty) false (pick (scanOf g (active g i h) op ty a l) p.2)) ∨
        o ∈ flagOut ((counted op (scanOf g (active g i h) op ty a l)).foldl (fun m y => m ||| y.2) 0)) := by
  rw [reduce_eq, mem_byClass (f := fun m => classResults g op ty d a pick (lanesOf m))]
  simp only [lanesOf_partOf, classResults, List.mem_append, List.mem_flatMap]
  rfl

theorem isFlags_counted (act l : Nat) : IsFlags ((counted op (scanOf g act op ty a l)).foldl (fun m y => m ||| y.2) 0) := by
  refine isFlags_foldl_or isFlags_zero fun y hy => ?_
  have hy' : y ∈ scanOf g act op ty a l := by
    unfold counted at hy
    split at hy
    · exact List.mem_of_mem_take hy
    · exact hy
  rw [scanOf_eq_map] at hy'
  obtain ⟨j, -, rfl⟩ := List.mem_map.1 hy'
  exact isFlags_running ..

/-- What the results of a reduction do: each lane takes what the rule picks at its place, and FLAGS gains the flags that count. -/
theorem landsV_reduce {val fl : Nat → Nat}
    (hval : ∀ l j (hj : j < (classLanes g (active g i h) l).length), (classLanes g (active g i h) l)[j] = l →
      pick (scanOf g (active g i h) op ty a l) j = val l)
    (hfl : ∀ l b, (∃ y ∈ counted op (scanOf g (active g i h) op ty a l), bit y.2 b = true) ↔
      ∃ j ∈ classLanes g (active g i h) l, bit (fl j) b = true) :
    LandsV (active g i h) (rtyBits ty) d.val (fun l => (val l : Int)) fl ((exOf s (.grp k i) g i h 8).reduce op ty d a pick) := by
  have hflag : ∀ {o : Out} {b : Nat}, o ∈ flagOut b → o = ⟨.flags, 0, 0, b, 1⟩ := fun ho => (mem_flagOut.1 ho).2
  refine landsV_of_brings (fun o hv => ?_) (rtyBits_cases ty) (fun o ho => ?_) fun b => ⟨?_, ?_⟩
  · rw [mem_reduce]
    constructor
    · rintro ⟨l, hl, ha, ⟨⟨l', j⟩, hp, ho⟩ | ho⟩
      · obtain ⟨hj, hget⟩ := List.getElem?_eq_some_iff.1 (List.mk_mem_zipIdx_iff_getElem?.1 hp)
        obtain ⟨hl', ha', heq⟩ := classLanes_eq_of_mem (hget ▸ List.getElem_mem hj)
        have := hval l' j (by rwa [heq]) (by simpa only [heq] using hget)
        rw [scanOf, heq] at this
        exact ⟨l', hl', ha', this ▸ ho⟩
      · rw [hflag ho] at hv; exact absurd hv (by simp)
    · rintro ⟨l, hl, ha, ho⟩
      obtain ⟨j, hj, hget⟩ := List.mem_iff_getElem.1 (self_mem_classLanes (g := g) hl ha)
      refine ⟨l, hl, ha, .inl ⟨(l, j), List.mk_mem_zipIdx_iff_getElem?.2 (List.getElem?_eq_some_iff.2 ⟨hj, hget⟩), ?_⟩⟩
      rw [hval l j hj hget]; exact ho
  · obtain ⟨l, -, -, ⟨p, -, hp⟩ | hp⟩ := mem_reduce.1 ho
    · exact .inl (mem_vOut (rtyBits_cases ty) hp).1
    · rw [hflag hp]; exact .inr ⟨rfl, rfl, isFlags_counted _ l⟩
  · rintro ⟨o, ho, hf, hb⟩
    obtain ⟨l, hl, ha, ⟨p, -, hp⟩ | hp⟩ := mem_reduce.1 ho
    · rw [(mem_vOut (rtyBits_cases ty) hp).1] at hf; exact absurd hf (by decide)
    · rw [hflag hp, bit_foldl_or] at hb
      obtain ⟨j, hj, hbit⟩ := (hfl l b).1 (hb.resolve_left (by simp [bit]))
      obtain ⟨hj16, hja, -⟩ := classLanes_eq_of_mem hj
      exact ⟨j, hj16, hja, hbit⟩
  · rintro ⟨l, hl, ha, hb⟩
    have hbit : bit ((counted op (scanOf g (active g i h) op ty a l)).foldl (fun m y => m ||| y.2) 0) b = true :=
      (bit_foldl_or _ _ _).2 (.inr ((hfl l b).2 ⟨l, self_mem_classLanes hl ha, hb⟩))
    refine ⟨⟨.flags, 0, 0, _, 1⟩, mem_reduce.2 ⟨l, hl, ha, .inr (mem_flagOut.2 ⟨fun h0 => ?_, rfl⟩)⟩, rfl, hbit⟩
    rw [h0] at hbit
    simp [bit] at hbit

end

/-! ## Which flags count -/

/-- In an ascending list, all places but the last of several (log 42): those of the values that are the first or are not the greatest. -/
theorem mem_take_all_but_last {l : List Nat} (hl : l.Pairwise (· < ·)) {x : Nat} (hx : x ∈ l) :
    x ∈ l.take (max 1 (l.length - 1)) ↔ ¬ (l.filter (fun y => decide (y < x)) ≠ [] ∧ ∀ y ∈ l, y ≤ x) := by
  have hlt : ∀ {a b : Nat} (ha : a < l.length) (hb : b < l.length), a < b → l[a] < l[b] := fun ha hb h => List.pairwise_iff_getElem.1 hl _ _ ha hb h
  obtain ⟨j, hj, rfl⟩ := List.mem_iff_getElem.1 hx
  have hmem : l[j] ∈ l.take (max 1 (l.length - 1)) ↔ j < max 1 (l.length - 1) := by
    rw [List.mem_take_iff_getElem]
    refine ⟨fun ⟨n, hn, he⟩ => ?_, fun h => ⟨j, by omega, rfl⟩⟩
    rcases Nat.lt_trichotomy n j with h | rfl | h
    · exact absurd he (Nat.ne_of_lt (hlt (by omega) hj h))
    · omega
    · exact absurd he.symm (Nat.ne_of_lt (hlt hj (by omega) h))
  have hfirst : l.filter (fun y => decide (y < l[j])) ≠ [] ↔ j ≠ 0 := by
    rw [filter_lt_eq_take hl hj, Ne, List.take_eq_nil_iff]
    exact not_congr (or_iff_left (List.ne_nil_of_mem hx))
  have hlast : (∀ y ∈ l, y ≤ l[j]) ↔ j = l.length - 1 := by
    constructor
    · intro h
      by_contra hn
      exact absurd (h _ (List.getElem_mem (n := l.length - 1) (by omega))) (Nat.not_le.2 (hlt hj (by omega) (by omega)))
    · rintro rfl y hy
      obtain ⟨n, hn, rfl⟩ := List.mem_iff_getElem.1 hy
      rcases Nat.lt_or_ge n (l.length - 1) with h | h
      · exact Nat.le_of_lt (hlt hn hj h)
      · exact Nat.le_of_eq (by congr 1; omega)
  rw [hmem, hfirst, hlast]
  omega

section
variable {g : Group} {act : Nat} {op : RedOp} {ty : RTy} {a : VReg}

/-- Every step of a class counts, but under xadd. -/
theorem counted_flags (hop : op ≠ .xadd) (l b : Nat) : (∃ y ∈ counted op (scanOf g act op ty a l), bit y.2 b = true) ↔
    ∃ j ∈ classLanes g act l, bit (entryOf g act op ty a j).2 b = true := by
  rw [counted, if_neg hop, scanOf_eq_map]
  simp only [List.mem_map, exists_exists_and_eq_and]

/-- Under xadd the last step of several does not count (log 42). -/
theorem counted_flags_xadd (hop : op = .xadd) (l b : Nat) : (∃ y ∈ counted op (scanOf g act op ty a l), bit y.2 b = true) ↔
    ∃ j ∈ classLanes g act l,
      bit (if lanesBelow g act j ≠ [] ∧ (∀ y ∈ classLanes g act j, y ≤ j) then 0 else (entryOf g act op ty a j).2) b = true := by
  rw [counted, if_pos hop, scanOf_eq_map, List.length_map, ← List.map_take]
  simp only [List.mem_map, exists_exists_and_eq_and]
  have hcount : ∀ j ∈ classLanes g act l, j ∈ (classLanes g act l).take (max 1 ((classLanes g act l).length - 1)) ↔
      ¬ (lanesBelow g act j ≠ [] ∧ ∀ y ∈ classLanes g act j, y ≤ j) := fun j hj => by
    rw [lanesBelow, (classLanes_eq_of_mem hj).2.2]
    exact mem_take_all_but_last (classLanes_pairwise l) hj
  constructor
  · rintro ⟨j, hj, hb⟩
    have hmem := List.mem_of_mem_take hj
    exact ⟨j, hmem, by rw [if_neg ((hcount j hmem).1 hj)]; exact hb⟩
  · rintro ⟨j, hj, hb⟩
    split at hb
    · simp [bit] at hb
    · exact ⟨j, (hcount j hj).2 ‹_›, hb⟩

/-! ## What the rules pick -/

theorem fst_getLastD_scanOf (l : Nat) :
    ((scanOf g act op ty a l).getLastD (0, 0)).1 = combine op ty (drmOf g.fpctl) (valuesOf g ty a (classLanes g act l)) :=
  fst_getLastD_scanAll ..

theorem fst_getAt_scanOf {l j : Nat} (hj : j < (classLanes g act l).length) (hl : (classLanes g act l)[j] = l) :
    (getAt (0, 0) (scanOf g act op ty a l) j).1 = combine op ty (drmOf g.fpctl) (valuesOf g ty a (lanesBelow g act l ++ [l])) := by
  rw [getAt_eq_getD, scanOf_eq_map, List.getD_eq_getElem _ _ (by simpa using hj), List.getElem_map, hl, fst_entryOf]

/-- The exclusive result at a place is the combination of the values before it. -/
theorem fst_getAt_pred_scanOf {l j : Nat} (hj : j < (classLanes g act l).length) (hl : (classLanes g act l)[j] = l) :
    (if j = 0 then 0 else (getAt (0, 0) (scanOf g act op ty a l) (j - 1)).1) =
      combine op ty (drmOf g.fpctl) (valuesOf g ty a (lanesBelow g act l)) := by
  have htake : lanesBelow g act l = (classLanes g act l).take j := by rw [take_classLanes g act hj, hl]
  rw [htake]
  rcases Nat.eq_zero_or_pos j with rfl | hpos
  · rfl
  · rw [if_neg (by omega), scanOf, fst_getAt_scanAll _ _ _ (by simp only [valuesOf, List.length_map]; omega), valuesOf, valuesOf, List.map_take,
      Nat.sub_add_cancel hpos]

/-! ## Steps of the integer types -/

theorem readInt_le_iff {n : Nat} (hn : 0 < n) (sg : Bool) (u v : Nat) : readInt n sg u ≤ readInt n sg v ↔
    (if sg then (BitVec.ofNat n u).sle (BitVec.ofNat n v) else (BitVec.ofNat n u).ule (BitVec.ofNat n v)) = true := by
  cases sg with
  | true => simp only [readInt, if_true, sext_eq_bmod hn, BitVec.sle, decide_eq_true_eq, BitVec.toInt_ofNat']
  | false => simp only [readInt, Bool.false_eq_true, if_false, BitVec.ule, BitVec.toNat_ofNat, decide_eq_true_eq, Int.ofNat_le]

/-- The step of an integer type, on patterns of its width (R155). -/
theorem redStep_int (rm : Rm) {u v : Nat} (hty : ty ≠ .f32) (hu : u < 2 ^ rtyBits ty) (hv : v < 2 ^ rtyBits ty) :
    let U := BitVec.ofNat (rtyBits ty) u
    let V := BitVec.ofNat (rtyBits ty) v
    let le := if rtySigned ty then U.sle V else U.ule V
    redStep op ty rm u v = match op with
      | .add | .xadd => ((U + V).toNat, 0)
      | .min => ((if le then U else V).toNat, 0)
      | .max => ((if le then V else U).toNat, 0)
      | .and => ((U &&& V).toNat, 0)
      | .or => ((U ||| V).toNat, 0)
      | .xor => ((U ^^^ V).toNat, 0) := by
  intro U V le
  have hU : U.toNat = u := by rw [BitVec.toNat_ofNat, Nat.mod_eq_of_lt hu]
  have hV : V.toNat = v := by rw [BitVec.toNat_ofNat, Nat.mod_eq_of_lt hv]
  have hle : readInt (rtyBits ty) (rtySigned ty) u ≤ readInt (rtyBits ty) (rtySigned ty) v ↔ le = true :=
    readInt_le_iff (by rcases rtyBits_cases ty with h | h <;> omega) _ u v
  have hstep : redStep op ty rm u v = match op with
      | .add | .xadd => ((u + v) % 2 ^ rtyBits ty, 0)
      | .min => (if readInt (rtyBits ty) (rtySigned ty) u ≤ readInt (rtyBits ty) (rtySigned ty) v then u else v, 0)
      | .max => (if readInt (rtyBits ty) (rtySigned ty) u ≤ readInt (rtyBits ty) (rtySigned ty) v then v else u, 0)
      | .and => (u &&& v, 0)
      | .or => (u ||| v, 0)
      | .xor => (u ^^^ v, 0) := by
    cases ty
    case f32 => exact absurd rfl hty
    all_goals cases op <;> rfl
  rw [hstep]
  cases op <;> dsimp only
  case add => rw [BitVec.toNat_add, hU, hV]
  case xadd => rw [BitVec.toNat_add, hU, hV]
  case min => rw [apply_ite BitVec.toNat, hU, hV]; simp only [hle]
  case max => rw [apply_ite BitVec.toNat, hU, hV]; simp only [hle]
  case and => rw [BitVec.toNat_and, hU, hV]
  case or => rw [BitVec.toNat_or, hU, hV]
  case xor => rw [BitVec.toNat_xor, hU, hV]

end

/-! ## The instructions -/

theorem exec_lred (s : State) (h : Hdr) (op : RedOp) (ty : RTy) (d a : VReg) : exec (.lred h op ty d a) s =
    laneVar h 8 s (redFoot op ty d a) fun x => x.reduce op ty d a fun r _ => (r.getLastD (0, 0)).1 := rfl
theorem exec_prfx (s : State) (h : Hdr) (op : RedOp) (ty : RTy) (d a : VReg) : exec (.prfx h op ty d a) s =
    laneVar h 8 s (redFoot op ty d a) fun x => x.reduce op ty d a fun r j =>
      if op = .xadd then (if j = 0 then 0 else (getAt (0, 0) r (j - 1)).1) else (getAt (0, 0) r j).1 := rfl

theorem reduce_ne_nil {s : State} {k i : Nat} {g : Group} {h : Hdr} {op : RedOp} {ty : RTy} {d a : VReg} {pick : List (Nat × Nat) → Nat → Nat}
    (ha : active g i h ≠ 0) : (exOf s (.grp k i) g i h 8).reduce op ty d a pick ≠ [] := by
  obtain ⟨l, hl, hb⟩ := exists_active ha
  obtain ⟨j, hj, hget⟩ := List.mem_iff_getElem.1 (self_mem_classLanes (g := g) hl hb)
  obtain ⟨o, ho⟩ := List.exists_mem_of_ne_nil _
    (vOut_ne_nil d.val l (rtyBits ty) false (pick (scanOf g (active g i h) op ty a l) j))
  exact List.ne_nil_of_mem (mem_reduce.2 ⟨l, hl, hb,
    .inl ⟨(l, j), List.mk_mem_zipIdx_iff_getElem?.2 (List.getElem?_eq_some_iff.2 ⟨hj, hget⟩), ho⟩⟩)

/-- Settles O18: the running results of a class, place by place, are the combinations of the lanes up to each lane. -/
theorem reductionsAndScans : Obligations.ReductionsAndScans := by
  intro s k i g h op ty d a t c act n rm x fold below flags
  have hx : ∀ l, x l = g.srcVal l (rtyBits ty) (.v a) := fun l => toNat_pattern (rtyBits_cases ty) g l (.v a)
  have hfold : ∀ ls, fold ls = combine op ty rm (valuesOf g ty a ls) := fun ls => by
    cases ls with
    | nil => rfl
    | cons l r => simp only [fold, valuesOf, List.map_cons, combine, List.foldl_map, hx]
  have hflags : ∀ l, flags l = (entryOf g act op ty a l).2 := fun l => by
    have hnil : valuesOf g ty a (below l) = [] ↔ below l = [] := List.map_eq_nil_iff
    show (if below l = [] then (redFirst ty (x l)).2 else (redStep op ty rm (fold (below l)) (x l)).2) =
      (if valuesOf g ty a (below l) = [] then redFirst ty _ else redStep op ty rm (combine op ty rm (valuesOf g ty a (below l))) _).2
    simp only [hnil, hfold, hx, apply_ite Prod.snd]
  refine ⟨fun hp => ?lred, fun _ hop => ?prfx, fun _ hop => ?xadd, fun u v => ?first, fun u v hty hu hv => ?int⟩
  case lred =>
    have hop : op ≠ .xadd := by rintro rfl; exact Bool.false_ne_true hp
    refine laneVar_later (exec_lred s h op ty d a) t c reduce_ne_nil fun _ => landsV_reduce (fun l j hj hl => ?_) fun l b => ?_
    · rw [hfold]; exact fst_getLastD_scanOf l
    · simp only [hflags]; exact counted_flags hop l b
  case prfx =>
    refine laneVar_later (exec_prfx s h op ty d a) t c reduce_ne_nil fun _ => landsV_reduce (fun l j hj hl => ?_) fun l b => ?_
    · rw [hfold, if_neg hop]; exact fst_getAt_scanOf hj hl
    · simp only [hflags]; exact counted_flags hop l b
  case xadd =>
    refine laneVar_later (exec_prfx s h op ty d a) t c reduce_ne_nil fun _ => landsV_reduce (fun l j hj hl => ?_) fun l b => ?_
    · rw [hfold, if_pos hop]; exact fst_getAt_pred_scanOf hj hl
    · simp only [hflags]; exact counted_flags_xadd hop l b
  case first =>
    refine ⟨rfl, ?_⟩
    rintro rfl
    refine ⟨?_, ?_, ?_⟩
    · rintro (rfl | rfl) <;> rfl
    · rintro rfl; rfl
    · rintro rfl; rfl
  case int =>
    rw [redStep_int rm hty hu hv]
    cases op <;> rfl

end Sys2Proof.Spec
end

section
/-! SUPPORT. Launches by the device (R157, R136): the leader, the access that reads the record, and what each instruction leaves. -/

namespace Sys2Proof.Spec
open Sys2Proof.Machine

/-! ## The leader (R57) -/

section
variable {x : Ex} {lp : PReg}

theorem leader_eq_none (h : ∀ l, l < 16 → bit x.act l = true → x.g.readP lp.val l = false) : x.leader lp = none :=
  List.find?_eq_none.2 fun l hl => by
    obtain ⟨h16, hb⟩ := mem_lanesOf.1 hl
    rw [h l h16 hb]
    exact Bool.false_ne_true

theorem leader_eq_some {l : Nat} (hl : l < 16) (hb : bit x.act l = true) (hp : x.g.readP lp.val l = true)
    (hlow : ∀ j, j < l → bit x.act j = true → x.g.readP lp.val j = false) : x.leader lp = some l := by
  unfold Ex.leader lanesOf onesOf
  rw [List.find?_filter, List.find?_range_eq_some]
  refine ⟨by simp [hb, hp], List.mem_range.2 hl, fun j hj => ?_⟩
  cases hbj : bit x.act j with
  | false => simp
  | true => simp [hlow j hj hbj]

end

/-! ## The access -/

/-- The operations that are go-before a fragment's next instruction, as R187 names them. -/
theorem goBefore_eq (s : State) (w : Issuer) (i : Nat) : s.goBefore w i = s.ops.filterMap fun p => match p.2 with
    | some x => if sameAgent x.who w && decide (i ∈ x.heirs) then some p.1 else none
    | none => none := by
  unfold State.goBefore State.agentOps
  rw [List.filter_filterMap, List.map_filterMap]
  congr 1
  funext p
  cases p.2 with
  | none => rfl
  | some o => by_cases ha : sameAgent o.who w <;> by_cases hi : i ∈ o.heirs <;> simp [ha, hi]

/-- The request of LAUNCH's leader. -/
def launchReq (h : Hdr) (act d : Nat) (arm : Bool) (task count : Nat) (q : LaneReq) : MemReq :=
  { acc := .launch d arm task count, scope := .dev, hdr := h, act := act, lanes := [q], missing := [], faults := [], op := none, data := none, passed := [] }

/-- An access of LAUNCH that nothing holds and that passes its probe starts at once (R172, R194, R206). -/
theorem access_launch {s : State} {k i : Nat} {g : Group} {h : Hdr} {len act d task count : Nat} {arm : Bool} {q : LaneReq} {at_ : Nat → List Got}
    (hr : Reaches s (.grp k i) g h act (.launch d arm task count) .dev [q] at_) (hq : bit (g.frag i).mask q.lane = true) :
    let x := exOf s (.grp k i) g i h len
    x.access (.launch d arm task count) .dev act [q] s = x.start (launchReq h act d arm task count q) [(q, at_ q.lane)] s := by
  intro x
  obtain ⟨-, hok, hfree, hfence⟩ := hr
  have hq' : bit x.f.mask q.lane = true := hq
  have hleft : (launchReq h act d arm task count q).left x.f.mask = launchReq h act d arm task count q := by
    simp only [MemReq.left, launchReq, List.filter_cons, List.filter_nil]
    rw [if_pos hq']
  have hgot : s.laneGot x.w x.g (launchReq h act d arm task count q) q = .ok (at_ q.lane) := hok q List.mem_cons_self
  have hfree' : s.rangeHeld x.w x.g (.launch d arm task count) [q] = false := hfree
  have hfence' : s.fenceHeld x.w x.i = false := hfence
  have hprobe : x.probe (launchReq h act d arm task count q) s = x.start (launchReq h act d arm task count q) [(q, at_ q.lane)] s := by
    simp only [Ex.probe, Prog.on, hleft]
    simp only [launchReq] at hgot ⊢
    simp [anyRetry, hgot, hfree']
  rw [← hprobe]
  simp only [Ex.access, Prog.on, hfree', hfence', List.isEmpty_cons, Bool.or_self, Bool.false_eq_true, if_false]
  rfl

/-! ## What the status of LAUNCH leaves (R157) -/

theorem lanesOf_two_pow {l : Nat} (hl : l < 16) : lanesOf (2 ^ l) = [l] := by
  interval_cases l <;> rfl

/-- A status for lane l alone. -/
theorem landsV_status {l : Nat} (hl : l < 16) (d st : Nat) : LandsV (2 ^ l) 32 d (fun _ => (st : Int)) noFlags (vOut d l 32 false st) := by
  have h := landsV_lanes (act := 2 ^ l) d fun _ => st
  rwa [lanesOf_two_pow hl, List.flatMap_singleton] at h

/-- The state once a group has issued LAUNCH and its status is to come. -/
def launched (s : State) (k : Nat) (g' : Group) (op : Op) : State :=
  { s with groups := Tab.put (fun _ => Group.empty) s.groups k g', ops := Tab.put (fun _ => none) s.ops s.nextId (some op), nextId := s.nextId + 1 }

section
variable {s : State} {k i : Nat} {g : Group} {h : Hdr} {q : LaneReq} {d : Nat}

/-- What a later result with this status is. -/
def statusOp (s : State) (k i : Nat) (g : Group) (h : Hdr) (d l st : Nat) : Op :=
  (exOf s (.grp k i) g i h 16).op .result (vOut d l 32 false st) []

/-- LAUNCH.now of a rejected record leaves an event and status 1. -/
theorem launchNow_rejected {u : State} {r q0 : Nat} {e : Rejected}
    (hc : u.checkRead (g.ownerOf q.lane).vf (g.ownerOf q.lane).asid (.ok r) q0 = .error e) :
    let x := exOf s (.grp k i) g i h 16
    ∃ f w, runAll u (Prog.launchNow x q r d q0 u) = { launched u k (x.issued true) (statusOp s k i g h d q.lane 1) with fifos := f, win := w } := by
  intro x
  have hc' : u.checkRead (x.g.ownerOf q.lane).vf (x.g.ownerOf q.lane).asid (.ok r) q0 = .error e := hc
  simp only [Prog.launchNow, Prog.on, hc', runAll_all_cons, runAll_all_nil, runAll_eventNow]
  exact ⟨_, _, rfl⟩

/-- LAUNCH.now of an accepted record leaves status 3 where the device queue is full. -/
theorem launchNow_full {u : State} {r q0 : Nat} {a : Accepted}
    (hc : u.checkRead (g.ownerOf q.lane).vf (g.ownerOf q.lane).asid (.ok r) q0 = .ok a)
    (hfull : 32 ≤ (u.devqAt (dieOf (coreOfGrp k) * 64 + (g.ownerOf q.lane).vf)).length) :
    let x := exOf s (.grp k i) g i h 16
    runAll u (Prog.launchNow x q r d q0 u) = launched u k (x.issued true) (statusOp s k i g h d q.lane 3) := by
  intro x
  have hc' : u.checkRead (x.g.ownerOf q.lane).vf (x.g.ownerOf q.lane).asid (.ok r) q0 = .ok a := hc
  have hfull' : 32 ≤ (u.devqAt (dieOf (coreOf x.w) * 64 + (x.g.ownerOf q.lane).vf)).length := hfull
  simp only [Prog.launchNow, Prog.on, hc', if_pos hfull']
  rfl

/-- The entry of the device queue that LAUNCH.now makes of a record it has read. -/
def nowRec (u : State) (k i : Nat) (o : Owner) (addr r : Nat) : DevRec :=
  { addr := addr, vf := o.vf, asid := o.asid, key := o.key, awn := o.awn, prio := o.prio, task := none, rec_ := some r, after := u.goBefore (.grp k i) i }

/-- LAUNCH.now of an accepted record puts it into a device queue with room, and leaves status 0. -/
theorem launchNow_queued {u : State} {r q0 : Nat} {a : Accepted}
    (hc : u.checkRead (g.ownerOf q.lane).vf (g.ownerOf q.lane).asid (.ok r) q0 = .ok a)
    (hroom : (u.devqAt (dieOf (coreOfGrp k) * 64 + (g.ownerOf q.lane).vf)).length < 32) :
    let x := exOf s (.grp k i) g i h 16
    let n := dieOf (coreOfGrp k) * 64 + (g.ownerOf q.lane).vf
    runAll u (Prog.launchNow x q r d q0 u) =
      { launched u k (x.issued true) (statusOp s k i g h d q.lane 0) with
        devq := Tab.put (fun _ => []) u.devq n (u.devqAt n ++ [nowRec u k i (g.ownerOf q.lane) q.addr r]) } := by
  intro x n
  have hc' : u.checkRead (x.g.ownerOf q.lane).vf (x.g.ownerOf q.lane).asid (.ok r) q0 = .ok a := hc
  have hroom' : ¬ 32 ≤ (u.devqAt (dieOf (coreOf x.w) * 64 + (x.g.ownerOf q.lane).vf)).length := Nat.not_le.2 hroom
  simp only [Prog.launchNow, Prog.on, hc', if_neg hroom']
  rfl

/-- LAUNCH.arm leaves status 2 where the task is not free. -/
theorem launchArm_busy {u : State} {task count : Nat} (hb : (u.tasksAt (dieOf (coreOfGrp k) * 4096 + task)).tst ≠ 0) :
    let x := exOf s (.grp k i) g i h 16
    runAll u (Prog.launchArm x q d task count u) = launched u k (x.issued true) (statusOp s k i g h d q.lane 2) := by
  intro x
  have hb' : ((u.tasksAt (dieOf (coreOf x.w) * 4096 + task)).tst == 0) = false := beq_eq_false_iff_ne.2 hb
  simp only [Prog.launchArm, Prog.on, hb']
  rfl

/-- An armed task (R157). -/
def armedTask (u : State) (k i : Nat) (o : Owner) (addr count : Nat) : Task :=
  { lrec := addr, tst := 1, vf := o.vf, asid := o.asid, awn := o.awn, key := o.key, prio := o.prio, cnt := count, after := u.goBefore (.grp k i) i }

/-- LAUNCH.arm with a count arms a free task and leaves status 0. -/
theorem launchArm_counted {u : State} {task count : Nat} (hf : (u.tasksAt (dieOf (coreOfGrp k) * 4096 + task)).tst = 0) (hn : count ≠ 0) :
    let x := exOf s (.grp k i) g i h 16
    runAll u (Prog.launchArm x q d task count u) =
      { launched u k (x.issued true) (statusOp s k i g h d q.lane 0) with
        tasks := Tab.put (fun _ => Task.empty) u.tasks (dieOf (coreOfGrp k) * 4096 + task) (armedTask u k i (g.ownerOf q.lane) q.addr count) } := by
  intro x
  have hf' : ((u.tasksAt (dieOf (coreOf x.w) * 4096 + task)).tst == 0) = true := beq_iff_eq.2 hf
  simp only [Prog.launchArm, Prog.on, hf', decide_eq_false hn]
  rfl

/-- The record of a dispatched task (R136). -/
def taskRec (die task : Nat) (tk : Task) : DevRec :=
  { addr := tk.lrec, vf := tk.vf, asid := tk.asid, key := tk.key, awn := tk.awn, prio := tk.prio, task := some (die, task), rec_ := none, after := tk.after }

/-- What a dispatch changes. -/
theorem runAll_dispatch {v : State} {die task : Nat} {tk : Task} (htk : v.tasksAt (die * 4096 + task) = tk) :
    runAll v (Prog.dispatch die task v) =
      { v with tasks := Tab.put (fun _ => Task.empty) v.tasks (die * 4096 + task) { tk with tst := 2, cnt := 0 },
               dispatched := v.dispatched ++ [taskRec die task tk] } := by
  subst htk
  rfl

/-- LAUNCH.arm with count 0 dispatches a free task at once, and leaves status 0. -/
theorem launchArm_dispatched {u : State} {task : Nat} (hf : (u.tasksAt (dieOf (coreOfGrp k) * 4096 + task)).tst = 0) :
    let x := exOf s (.grp k i) g i h 16
    let n := dieOf (coreOfGrp k) * 4096 + task
    let tk := armedTask u k i (g.ownerOf q.lane) q.addr 0
    runAll u (Prog.launchArm x q d task 0 u) =
      { launched u k (x.issued true) (statusOp s k i g h d q.lane 0) with
        tasks := Tab.put (fun _ => Task.empty) (Tab.put (fun _ => Task.empty) u.tasks n tk) n { tk with tst := 2 },
        dispatched := u.dispatched ++ [taskRec (dieOf (coreOfGrp k)) task tk] } := by
  intro x n tk
  have hf' : ((u.tasksAt (dieOf (coreOf x.w) * 4096 + task)).tst == 0) = true := beq_iff_eq.2 hf
  have hd := runAll_dispatch (v := Effect.run (runAll u (Prog.grp (.grp k i) (x.issued true) u)) (.tasks n tk)) (die := dieOf (coreOfGrp k)) (task := task) (tk := tk)
    ((Tab.get_put ..).trans (if_pos rfl))
  simp only [Prog.launchArm, Prog.on, hf', decide_true, Prog.when, if_true]
  exact congrArg (fun z => runAll z (Prog.newOp (statusOp s k i g h d q.lane 0) z)) hd

/-- A launch leaves its status as a later result. -/
theorem launched_opsAt (u : State) (g' : Group) (op : Op) (j : Nat) : (launched u k g' op).opsAt j = if j = u.nextId then some op else u.opsAt j :=
  Tab.get_put ..

theorem launched_groupsAt (u : State) (g' : Group) (op : Op) (j : Nat) : (launched u k g' op).groupsAt j = if j = k then g' else u.groupsAt j :=
  Tab.get_put ..

end

/-! ## The instructions -/

theorem go_congr {p q : Prog} {s : State} (h : p s = q s) : p.go s = q.go s := by
  rw [Prog.go, Prog.go, h]

section
variable {s : State} {k i : Nat} {g : Group} {h : Hdr} {d : VReg} {a : Base} {lp : PReg}

theorem exec_launchNow (t : Turn s (.grp k i) g i) (c : Calm s (.grp k i) g) : exec (.launchNow h d a lp) s =
    (let x := exOf s (.grp k i) g i h 16
     (match x.leader lp with
       | none => x.plain (x.act != 0)
       | some l => x.access (.launch d.val false 0 0) .dev x.act [laneReq l (x.g.srcVal l 64 a) 0 0 0]).go s) := by
  show execLaunchNow h d a lp s = _
  unfold execLaunchNow
  rw [issue_eq t, only_grp_eq]
  exact go_congr (check_eq c i h 16 _ _)

theorem exec_launchArm {b : Src} {count : BitVec 16} (t : Turn s (.grp k i) g i) (c : Calm s (.grp k i) g) : exec (.launchArm h d a b count lp) s =
    (let x := exOf s (.grp k i) g i h 16
     (match x.leader lp with
       | none => x.plain (x.act != 0)
       | some l =>
         x.access (.launch d.val true (x.g.srcVal l 32 b % 4096) count.toNat) .dev x.act [laneReq l (x.g.srcVal l 64 a) 0 0 0]).go s) := by
  show execLaunchArm h d a b count lp s = _
  unfold execLaunchArm
  rw [issue_eq t, only_grp_eq]
  exact go_congr (check_eq c i h 16 _ _)

/-- Without a leader neither has an effect but to go on. -/
theorem launchNow_idle (t : Turn s (.grp k i) g i) (c : Calm s (.grp k i) g) (hl : (exOf s (.grp k i) g i h 16).leader lp = none) :
    exec (.launchNow h d a lp) s = ((exOf s (.grp k i) g i h 16).plain (active g i h != 0)).go s := by
  rw [exec_launchNow t c]
  simp only [hl]
  rfl

theorem launchArm_idle {b : Src} {count : BitVec 16} (t : Turn s (.grp k i) g i) (c : Calm s (.grp k i) g)
    (hl : (exOf s (.grp k i) g i h 16).leader lp = none) :
    exec (.launchArm h d a b count lp) s = ((exOf s (.grp k i) g i h 16).plain (active g i h != 0)).go s := by
  rw [exec_launchArm t c]
  simp only [hl]
  rfl

variable {l : Nat} {at_ : Nat → List Got}

/-- LAUNCH.now by a leader whose access passes its probe: a free value is drawn, and the record that was read is checked. -/
theorem launchNow_run (t : Turn s (.grp k i) g i) (c : Calm s (.grp k i) g) (hl : (exOf s (.grp k i) g i h 16).leader lp = some l)
    (hm : bit (g.frag i).mask l = true)
    (hr : Reaches s (.grp k i) g h (active g i h) (.launch d.val false 0 0) .dev [laneReq l (g.srcVal l 64 a) 0 0 0] at_) :
    exec (.launchNow h d a lp) s = .next (runAll s.drawn (Prog.launchNow (exOf s (.grp k i) g i h 16) (laneReq l (g.srcVal l 64 a) 0 0 0)
      (s.recordAt g none (at_ l)) d.val (Config.freeNat s.fresh % 2 ^ 64) s.drawn)) := by
  rw [exec_launchNow t c]
  simp only [hl]
  have hstart : (exOf s (.grp k i) g i h 16).access (.launch d.val false 0 0) .dev (active g i h) [laneReq l (g.srcVal l 64 a) 0 0 0] s =
      Prog.free (2 ^ 64) (Prog.launchNow (exOf s (.grp k i) g i h 16) (laneReq l (g.srcVal l 64 a) 0 0 0) (s.recordAt g none (at_ l)) d.val) s :=
    access_launch hr hm
  exact (go_congr hstart).trans (Prog.free_go ..)

/-- LAUNCH.arm by a leader whose access passes its probe. -/
theorem launchArm_run {b : Src} {count : BitVec 16} (t : Turn s (.grp k i) g i) (c : Calm s (.grp k i) g)
    (hl : (exOf s (.grp k i) g i h 16).leader lp = some l) (hm : bit (g.frag i).mask l = true)
    (hr : Reaches s (.grp k i) g h (active g i h) (.launch d.val true (g.srcVal l 32 b % 4096) count.toNat) .dev
      [laneReq l (g.srcVal l 64 a) 0 0 0] at_) :
    exec (.launchArm h d a b count lp) s = .next (runAll s (Prog.launchArm (exOf s (.grp k i) g i h 16) (laneReq l (g.srcVal l 64 a) 0 0 0)
      d.val (g.srcVal l 32 b % 4096) count.toNat s)) := by
  rw [exec_launchArm t c]
  simp only [hl]
  exact go_congr (access_launch hr hm)

end

/-- The check of a record does not see that a free value was drawn (log 2). -/
theorem drawn_checkRead (s : State) : s.drawn.checkRead = s.checkRead := by
  have hchain : s.drawn.chainOf = s.chainOf := by
    funext fn lrcb q
    simp only [State.chainOf, State.rcbAt, State.gpaToHpa, drawn_gpaAt, drawn_load]
    rfl
  funext fn asid r q
  simp only [State.checkRead, State.rcbs, hchain, drawn_asidContext, drawn_codeFor, drawn_load]
  rfl

/-- The status is written later, to the leader lane alone. -/
theorem tells_of_ops {s t : State} {k i : Nat} {g : Group} {h : Hdr} {d l st : Nat} (hl : l < 16)
    (hops : t.ops = Tab.put (fun _ => none) s.ops s.nextId (some (statusOp s k i g h d l st))) (hnext : t.nextId = s.nextId + 1) :
    ∃ op, (∀ j, t.opsAt j = if j = s.nextId then some op else s.opsAt j) ∧ t.nextId = s.nextId + 1 ∧ op.kind = .result ∧ op.who = .grp k i ∧
      op.slot = h.sbs.val ∧ op.heirs = [i] ∧ LandsV (2 ^ l) 32 d (fun _ => (st : Int)) noFlags op.outs :=
  ⟨_, fun j => by rw [State.opsAt, hops]; exact Tab.get_put .., hnext, rfl, rfl, rfl, rfl, landsV_status hl d st⟩

theorem dieOf_coreOfGrp (k : Nat) : dieOf (coreOfGrp k) = k / 131072 := Nat.div_div_eq_div_mul k 256 512

/-- Settles O35, by what each instruction leaves in each case of its record or its task. -/
theorem deviceLaunches : Obligations.DeviceLaunches := by
  intro s k i g h d a lp l at_ t c act w leads addr o die dq before reaches tells
  have haddr : g.srcVal l 64 a = addr := (toNat_pattern (.inr rfl) g l a).symm
  have hbefore : s.goBefore w i = before := goBefore_eq s w i
  have hdie : dieOf (coreOfGrp k) = die := dieOf_coreOfGrp k
  have hmask : bit act l = true → bit (g.frag i).mask l = true := fun hb => by
    simp only [act, Group.act, bit_maskWhere, Bool.and_eq_true] at hb
    exact hb.2.1
  have hputGroup : ∀ (g' : Group) (j : Nat), Tab.get (fun _ => Group.empty) (Tab.put (fun _ => Group.empty) s.groups k g') j = if j = k then g' else s.groupsAt j :=
    fun g' j => Tab.get_put ..
  refine ⟨fun hno => ?none, ?now, ?arm⟩
  case none =>
    have hl := leader_eq_none (x := exOf s (.grp k i) g i h 16) hno
    exact ⟨completes_fixed t h 16 2 _ [] (R := fun l => l = []) rfl (launchNow_idle t c hl),
      fun b count => completes_fixed t h 16 2 _ [] (R := fun l => l = []) rfl (launchArm_idle t c hl)⟩
  case now =>
    rintro ⟨hl16, hact, hp, hlow⟩ hr
    have hrun := launchNow_run t c (leader_eq_some (x := exOf s (.grp k i) g i h 16) hl16 hact hp hlow) (hmask hact) (by rw [haddr]; exact hr)
    refine ⟨_, _, Config.freeNat s.fresh % 2 ^ 64, hrun, issued_issued s (.grp k i) g i h 16 true, ?_⟩
    cases hc : s.checkRead o.vf o.asid (.ok (s.recordAt g none (at_ l))) (Config.freeNat s.fresh % 2 ^ 64) with
    | error e =>
      obtain ⟨f, v, hf⟩ := launchNow_rejected (s := s) (u := s.drawn) (k := k) (i := i) (h := h) (q := laneReq l (g.srcVal l 64 a) 0 0 0) (d := d.val)
        (by rw [drawn_checkRead]; exact hc)
      rw [hf]
      refine ⟨hputGroup _, ?_⟩
      simp only [hc]
      exact ⟨tells_of_ops hl16 rfl rfl, rfl⟩
    | ok acc =>
      have hc' : s.drawn.checkRead o.vf o.asid (.ok (s.recordAt g none (at_ l))) (Config.freeNat s.fresh % 2 ^ 64) = .ok acc := by
        rw [drawn_checkRead]; exact hc
      rcases Nat.lt_or_ge (s.devqAt dq).length 32 with hroom | hfull
      · rw [launchNow_queued (q := laneReq l (g.srcVal l 64 a) 0 0 0) hc' (by rw [hdie]; exact hroom)]
        refine ⟨hputGroup _, ?_⟩
        simp only [hc]
        refine ⟨fun hn => absurd hn (by omega), fun _ => ⟨tells_of_ops hl16 rfl rfl, fun j => ?_⟩, rfl⟩
        rw [haddr, hdie]
        refine (Tab.get_put ..).trans ?_
        rw [← hbefore]
        rfl
      · rw [launchNow_full (q := laneReq l (g.srcVal l 64 a) 0 0 0) hc' (by rw [hdie]; exact hfull)]
        refine ⟨hputGroup _, ?_⟩
        simp only [hc]
        exact ⟨fun _ => ⟨tells_of_ops hl16 rfl rfl, rfl⟩, fun hn => absurd hn (by omega), rfl⟩
  case arm =>
    intro b count task tk
    rintro ⟨hl16, hact, hp, hlow⟩ hr
    have htask : g.srcVal l 32 b % 4096 = task := by rw [← toNat_pattern (.inl rfl) g l b]
    have hrun := launchArm_run t c (leader_eq_some (x := exOf s (.grp k i) g i h 16) hl16 hact hp hlow) (hmask hact) (by rw [htask, haddr]; exact hr)
    refine ⟨_, _, hrun, issued_issued s (.grp k i) g i h 16 true, ?_⟩
    rw [htask, haddr]
    by_cases hf : (s.tasksAt tk).tst = 0
    · have hf' : (s.tasksAt (dieOf (coreOfGrp k) * 4096 + task)).tst = 0 := by rw [hdie]; exact hf
      have hputTask : ∀ (v : Tab Task) (x : Task) (j : Nat), Tab.get (fun _ => Task.empty) (Tab.put (fun _ => Task.empty) v (dieOf (coreOfGrp k) * 4096 + task) x) j =
          if j = tk then x else Tab.get (fun _ => Task.empty) v j := fun v x j => by rw [hdie]; exact Tab.get_put ..
      by_cases hn : count = 0
      · have hzero : count.toNat = 0 := by rw [hn]; rfl
        rw [hzero, launchArm_dispatched (q := laneReq l addr 0 0 0) hf']
        have htk := fun v => (hputTask v { armedTask s k i o addr 0 with tst := 2 } tk).trans (if_pos rfl)
        refine ⟨hputGroup _, rfl, fun h0 => absurd hf h0, fun _ => ⟨tells_of_ops hl16 rfl rfl, fun j hj => ?_, congrArg Task.lrec (htk _), congrArg Task.vf (htk _),
          congrArg Task.asid (htk _), congrArg Task.cnt (htk _), fun h0 => absurd hn h0, fun _ => ⟨congrArg Task.tst (htk _), _, rfl, rfl, rfl, ?_⟩⟩⟩
        · exact (hputTask _ _ j).trans ((if_neg hj).trans ((hputTask _ _ j).trans (if_neg hj)))
        · exact congrArg (fun n => some (n, task)) hdie
      · have hn' : count.toNat ≠ 0 := fun h0 => hn (BitVec.eq_of_toNat_eq h0)
        rw [launchArm_counted (q := laneReq l addr 0 0 0) hf' hn']
        have htk := fun v => (hputTask v (armedTask s k i o addr count.toNat) tk).trans (if_pos rfl)
        exact ⟨hputGroup _, rfl, fun h0 => absurd hf h0, fun _ => ⟨tells_of_ops hl16 rfl rfl, fun j hj => (hputTask _ _ j).trans (if_neg hj),
          congrArg Task.lrec (htk _), congrArg Task.vf (htk _), congrArg Task.asid (htk _), congrArg Task.cnt (htk _),
          fun _ => ⟨congrArg Task.tst (htk _), rfl⟩, fun h0 => absurd h0 hn⟩⟩
    · rw [launchArm_busy (q := laneReq l addr 0 0 0) (by rw [hdie]; exact hf)]
      exact ⟨hputGroup _, rfl, fun _ => ⟨tells_of_ops hl16 rfl rfl, rfl, rfl⟩, fun h0 => absurd h0 hf⟩

end Sys2Proof.Spec
end

section
/-! SUPPORT. Trace packets about a group: what a step may write into the trace buffer of its core, and nowhere else (R361 to R363). -/

namespace Sys2Proof.Spec
open Sys2Proof.Machine

/-- The trace unit of a group's core does not trace its slot, or does not record. -/
def Untraced (k : Nat) (u : State) : Prop := (u.tracesAt (k / 256)).gsl ≠ k % 256 ∨ u.recording (k / 256) = false

/-- v is u but for trace packets about group k. -/
structure Tells (k : Nat) (u v : State) : Prop where
  mem : ∀ a, a < traceKey (k / 256) 0 ∨ traceKey (k / 256) 16384 ≤ a → v.memAt a = u.memAt a
  units : ∀ c, c ≠ k / 256 → v.tracesAt c = u.tracesAt c
  silent : Untraced k u → v = u
  rest : { v with mem := u.mem, traces := u.traces } = u

theorem Tells.refl (k : Nat) (u : State) : Tells k u u := ⟨fun _ _ => rfl, fun _ _ => rfl, fun _ => rfl, rfl⟩

theorem Tells.trans {k : Nat} {u v w : State} (h1 : Tells k u v) (h2 : Tells k v w) : Tells k u w where
  mem a ha := (h2.mem a ha).trans (h1.mem a ha)
  units c hc := (h2.units c hc).trans (h1.units c hc)
  silent hu := by
    have hv : v = u := h1.silent hu
    rw [h2.silent (hv.symm ▸ hu), hv]
  rest := by
    have e1 := h1.rest
    rw [← h2.rest] at e1
    exact e1

/-- What a list of writes to memory changes. -/
theorem runAll_traceStore (core wr : Nat) (l : List Byte) (u : State) :
    (∀ a, a < traceKey core 0 ∨ traceKey core 16384 ≤ a → (runAll u (traceStore core wr l)).memAt a = u.memAt a) ∧
      { runAll u (traceStore core wr l) with mem := u.mem } = u := by
  unfold traceStore
  generalize l.zipIdx = bs
  induction bs generalizing u with
  | nil => exact ⟨fun _ _ => rfl, rfl⟩
  | cons b bs ih =>
    obtain ⟨hmem, hrest⟩ := ih (Effect.run u (.mem (traceKey core ((wr + b.2) % 16384)) b.1))
    refine ⟨fun a ha => (hmem a ha).trans ?_, ?_⟩
    · refine (Tab.get_put ..).trans (if_neg fun he => ?_)
      simp only [traceKey] at he ha
      omega
    · exact congrArg (fun x : State => { x with mem := u.mem }) hrest

/-- What the unit of group k's core writes while it traces the group. -/
theorem tells_traceSet {k : Nat} {u : State} (hu : ¬ Untraced k u) (wr : Nat) (x : TraceUnit × List Byte) :
    Tells k u (runAll u (Prog.traceSet (k / 256) wr x u)) := by
  obtain ⟨hmem, hrest⟩ := runAll_traceStore (k / 256) wr x.2 (Effect.run u (.traces (k / 256) x.1))
  exact ⟨hmem, fun c hc => (congrArg (fun v : State => v.tracesAt c) hrest).trans ((Tab.get_put ..).trans (if_neg hc)), fun h => absurd h hu,
    congrArg (fun v : State => { v with traces := u.traces }) hrest⟩

/-- A packet about group k. -/
theorem tells_trace (k i pt : Nat) (body : List Byte) (u : State) : Tells k u (runAll u (Prog.trace (.grp k i) pt body u)) := by
  simp only [Prog.trace, Prog.on]
  cases hc : (Tab.get (fun _ => TraceUnit.empty) u.traces (k / 256)).gsl == k % 256 && u.recording (k / 256) with
  | false => exact Tells.refl k u
  | true =>
    obtain ⟨hslot, hrec⟩ := Bool.and_eq_true_iff.1 hc
    simp only [Prog.when, if_true, Prog.packet, Prog.on, hrec]
    refine tells_traceSet (fun hu => ?_) _ _
    rcases hu with hu | hu
    · exact hu (beq_iff_eq.1 hslot)
    · rw [hrec] at hu; cases hu

/-! ## A group written back -/

/-- Two groups of the same owners, whose trace is recorded alike. -/
def SameOwners (g g' : Group) : Prop := g'.live = g.live ∧ g'.handler = g.handler ∧ g'.owners = g.owners

theorem trueOwner_congr {g g' : Group} (h : SameOwners g g') : g'.trueOwner = g.trueOwner := by
  obtain ⟨-, hh, ho⟩ := h
  funext e
  simp only [Group.trueOwner, Group.ownerTable, hh, ho]

/-- A unit records a slot whose group has been written back if it recorded it before. -/
theorem recording_congr {s u : State} {k : Nat} {g' : Group} (ho : SameOwners (s.groupsAt k) g')
    (hg : ∀ j, u.groupsAt j = if j = k then g' else s.groupsAt j) (htr : u.traces = s.traces) (hdbg : u.dbg = s.dbg) (hsec : u.sec = s.sec)
    (hfns : u.fns = s.fns) : u.recording = s.recording := by
  funext c
  have hlive : ∀ j, (u.groupsAt j).live = (s.groupsAt j).live := fun j => by
    rw [hg]; split
    · next h => rw [h]; exact ho.1
    · rfl
  have howner : ∀ j, (u.groupsAt j).trueOwner = (s.groupsAt j).trueOwner := fun j => by
    rw [hg]; split
    · next h => rw [h]; exact trueOwner_congr ho
    · rfl
  simp only [State.recording, State.guestFor, State.fnsAt, htr, hdbg, hsec, hfns, hlive, howner]

/-- A group is written back, with changes to operations, and packets about it follow. -/
theorem traced_of_tells {s u v : State} {k i : Nat} {g' : Group} (ho : SameOwners (s.groupsAt k) g')
    (hg : ∀ j, u.groupsAt j = if j = k then g' else s.groupsAt j) (hu : { u with groups := s.groups, ops := s.ops } = s) (hv : Tells k u v) :
    Traced s v (.grp k i) := by
  have hmem : u.mem = s.mem := (congrArg State.mem hu :)
  have htr : u.traces = s.traces := (congrArg State.traces hu :)
  have hrec := recording_congr ho hg htr (congrArg State.dbg hu :) (congrArg State.sec hu :) (congrArg State.fns hu :)
  refine ⟨fun a ha => ?_, fun c hc => ?_, fun hq => ?_⟩
  · rw [hv.mem a ha, State.memAt, hmem]; rfl
  · rw [hv.units c hc, State.tracesAt, htr]; rfl
  · have hquiet : Untraced k u := by
      rw [Untraced, hrec, State.tracesAt, htr]; exact hq
    rw [hv.silent hquiet]
    exact ⟨hmem, htr⟩

/-- A group is written back and packets about it follow: nothing else changes. -/
theorem othersTraced_of_tells {s v : State} {k i : Nat} {g g' : Group} (t : Turn s (.grp k i) g i) (ho : SameOwners g g')
    (hv : Tells k (runAll s (Prog.grp (.grp k i) g' s)) v) : OthersTraced s v (.grp k i) g' := by
  obtain ⟨hg, hu⟩ : Others s _ (.grp k i) g' := t.others g'
  have ho' : SameOwners (s.groupsAt k) g' := by cases t; exact ho
  refine ⟨⟨fun j => ?_, ?_⟩, traced_of_tells ho' hg ?_ hv⟩
  · exact (congrArg (fun x : State => x.groupsAt j) hv.rest).trans (hg j)
  · exact congrArg (fun x : State => { x with groups := s.groups }) hv.rest
  · rfl

end Sys2Proof.Spec
end

section
/-! SUPPORT. Divergence (R128, R129, R144, R145): a fragment that moves as one. -/

namespace Sys2Proof.Spec
open Sys2Proof.Machine

/-! ## The group that holds a pushed knot (R129) -/

/-- Two groups that differ in their knots alone. -/
def SameButKnots (g g1 : Group) : Prop := { g1 with knots := g.knots, pushes := g.pushes } = g

theorem SameButKnots.refl (g : Group) : SameButKnots g g := rfl

/-- A knot for the whole mask of fragment i. -/
def pushedKnot (g : Group) (i n pc : Nat) : Group :=
  { g.setKnot n { valid := true, mask := (g.frag i).mask, arr := 0, pc := pc, ord := g.pushes } with pushes := g.pushes + 1 }

theorem sameButKnots_pushed (g : Group) (i n pc : Nat) : SameButKnots g (pushedKnot g i n pc) := rfl

theorem SameButKnots.frag {g g1 : Group} (hg : SameButKnots g g1) : g1.frag = g.frag := by
  unfold SameButKnots at hg
  rw [← hg]
  rfl

theorem SameButKnots.sameOwners {g g1 : Group} (hg : SameButKnots g g1) : SameOwners g g1 := by
  unfold SameButKnots at hg
  exact ⟨(congrArg Group.live hg :), (congrArg Group.handler hg :), (congrArg Group.owners hg :)⟩

theorem SameOwners.trans {g g1 g2 : Group} (h1 : SameOwners g g1) (h2 : SameOwners g1 g2) : SameOwners g g2 := by
  obtain ⟨a1, b1, c1⟩ := h1
  obtain ⟨a2, b2, c2⟩ := h2
  exact ⟨a2.trans a1, b2.trans b1, c2.trans c1⟩

/-! ## An issue that goes to a target -/

section
variable {s : State} {k i : Nat} {g g1 g' : Group} {h : Hdr} {covers : Bool}

theorem IssuedTo.sameOwners {pc gate : Nat} (hi : IssuedTo g g' i pc gate h covers) : SameOwners g g' :=
  ⟨(congrArg Group.live hi.rest :), (congrArg Group.handler hi.rest :), (congrArg Group.owners hi.rest :)⟩

/-- The fragment goes to a target instead (R14, R15). -/
theorem issuedTo_jumped {len pc : Nat} (hi : Issued g g' i len s.cycle h covers) :
    IssuedTo g ((exOf s (.grp k i) g1 i h len).jumped g' pc) i pc (s.cycle + h.stall.val + 3) h covers := by
  have hf : ((exOf s (.grp k i) g1 i h len).jumped g' pc).frag i = { g'.frag i with pc := pc, target := true, gate := s.cycle + h.stall.val + 3 } := by
    show (g'.setFrag i _).frag i = _
    simp [exOf]
  obtain ⟨-, -, hslot, hsame, hfree, hothers, hcounts, hrest⟩ := hi
  refine ⟨by rw [hf], by rw [hf], fun n => ?_, by rw [hf]; exact hsame, by rw [hf]; exact hfree, fun j hj => ?_, hcounts, hrest⟩
  · rw [hf]; exact hslot n
  · rw [← hothers j hj]
    show (g'.setFrag i _).frag j = _
    simp [hj]

/-- The fragment issues without a result and goes to pc: its group, which may hold a new knot, is written back, and packets may follow. -/
def Goes (s : State) (k i : Nat) (h : Hdr) (o : Answer) (g0 : Group) (pc gate : Nat) (covers : Bool) : Prop :=
  ∃ t g', o = .next t ∧ OthersTraced s t (.grp k i) g' ∧ IssuedTo g0 g' i pc gate h covers ∧
    Pending g0 g' i (s.cycle + 2) h covers fun l => l = []

theorem goes_of_issuedTo {pc gate : Nat} (t : Turn s (.grp k i) g i) (hg : SameButKnots g g1) (hi : IssuedTo g1 g' i pc gate h covers)
    (hp : Pending g1 g' i (s.cycle + 2) h covers fun l => l = []) {p : Prog} (hp' : ∀ u, Tells k u (runAll u (p u))) :
    Goes s k i h ((Prog.seq (Prog.grp (.grp k i) g') p).go s) g1 pc gate covers := by
  refine ⟨_, g', rfl, ?_, hi, hp⟩
  rw [runAll_seq]
  exact othersTraced_of_tells t (hg.sameOwners.trans hi.sameOwners) (hp' _)

/-- The fragment goes on to the next instruction. -/
theorem goes_next (t : Turn s (.grp k i) g i) (hg : SameButKnots g g1) (len : Nat) (covers : Bool) {p : Prog} (hp : ∀ u, Tells k u (runAll u (p u))) :
    Goes s k i h ((Prog.seq (Prog.grp (.grp k i) ((exOf s (.grp k i) g1 i h len).plainG covers)) p).go s) g1 ((g.frag i).pc + len)
      (s.cycle + h.stall.val + 1) covers :=
  goes_of_issuedTo t hg (by rw [← hg.frag]; exact issued_fixedG ..) (pending_fixedG _ _ _ _ _ _ _ _ _ rfl) hp

/-- The fragment goes to a target. -/
theorem goes_target (t : Turn s (.grp k i) g i) (hg : SameButKnots g g1) (len pc : Nat) (covers : Bool) {p : Prog} (hp : ∀ u, Tells k u (runAll u (p u))) :
    let x := exOf s (.grp k i) g1 i h len
    Goes s k i h ((Prog.seq (Prog.grp (.grp k i) (x.jumped (x.plainG covers) pc)) p).go s) g1 pc (s.cycle + h.stall.val + 3) covers := by
  intro x
  have hpend := pending_fixedG s (.grp k i) g1 i h len 2 covers [] (R := fun l => l = []) rfl
  exact goes_of_issuedTo t hg (issuedTo_jumped (issued_fixedG ..)) ⟨hpend.entry⟩ hp

end

/-! ## BRD and KNOT -/

/-- What BRD does once its knot, if any, is pushed (R144). -/
def brdGo (y : Ex) (t pc : Nat) : Prog :=
  let g0 := y.plainG (t != 0)
  if t = y.f.mask then Prog.seq (Prog.grp y.w (y.jumped g0 pc)) (Prog.traceTaken y.w y.i true)
  else if t = 0 then Prog.seq (Prog.grp y.w g0) (Prog.traceTaken y.w y.i false)
  else
    let gate := y.cyc + y.h.stall.val
    let low := bit t (lowest y.f.mask)
    Prog.seq
      (Prog.gh y.w (GH.split { g := g0, hs := [] } y.i t (mDiff y.f.mask t) pc (y.f.pc + 12) (gate + 3) (gate + 1) true false))
      (Prog.traceSplit y.w y.i (y.g.freeFrags.headD 16) 0 (!low) (if low then mDiff y.f.mask t else t))

section
variable {s : State} {k i : Nat} {g g1 : Group} {h : Hdr} {off : BitVec 32} {a : SReg}

theorem pushKnot_eq {len pc n : Nat} {p : Ex → Prog} (hn : g.freeKnot = some n) (hpc : pc % 4 = 0) :
    (exOf s (.grp k i) g i h len).pushKnot pc p = p (exOf s (.grp k i) (pushedKnot g i n pc) i h len) := by
  have hx : (exOf s (.grp k i) g i h len).g.freeKnot = some n := hn
  simp only [Ex.pushKnot, hx]
  rw [Nat.div_mul_cancel (Nat.dvd_of_mod_eq_zero hpc)]
  rfl

theorem exec_brd (t : Turn s (.grp k i) g i) (c : Calm s (.grp k i) g) (ha : a.val = 0) :
    exec (.brd h off a) s = (brdGo (exOf s (.grp k i) g i h 12) (active g i h) (relTarget (g.frag i).pc off)).go s := by
  show execBrd h off a s = _
  unfold execBrd
  rw [issue_eq t, only_grp_eq]
  simp only [Prog.go]
  rw [check_eq c]
  simp only [Prog.on, if_pos ha]
  rfl

theorem exec_brd_push {n : Nat} (t : Turn s (.grp k i) g i) (c : Calm s (.grp k i) g) (ha : a.val ≠ 0) (hlt : (g.readS a.val).toNat < 2 ^ 32)
    (h4 : (g.readS a.val).toNat % 4 = 0) (htext : (g.readS a.val).toNat < (s.textOf g).length) (hn : g.freeKnot = some n) :
    exec (.brd h off a) s =
      (brdGo (exOf s (.grp k i) (pushedKnot g i n (g.readS a.val).toNat) i h 12) (active g i h) (relTarget (g.frag i).pc off)).go s := by
  have hok : (decide (4294967296 ≤ (g.readS a.val).toNat) || (g.readS a.val).toNat % 4 != 0 || decide ((s.textOf g).length ≤ (g.readS a.val).toNat)) = false := by
    simp [h4]; omega
  show execBrd h off a s = _
  unfold execBrd
  rw [issue_eq t, only_grp_eq]
  simp only [Prog.go]
  rw [check_eq c]
  simp only [Prog.on, if_neg ha]
  rw [show (exOf s (.grp k i) g i h 12).g = g from rfl, hok, pushKnot_eq hn h4]
  rfl

theorem goes_brdGo_all (t : Turn s (.grp k i) g i) (hg : SameButKnots g g1) {pc : Nat} (hm : (g.frag i).mask ≠ 0) :
    Goes s k i h ((brdGo (exOf s (.grp k i) g1 i h 12) (g.frag i).mask pc).go s) g1 pc (s.cycle + h.stall.val + 3) true := by
  have hrun : brdGo (exOf s (.grp k i) g1 i h 12) (g.frag i).mask pc = (let y := exOf s (.grp k i) g1 i h 12
      Prog.seq (Prog.grp (.grp k i) (y.jumped (y.plainG true) pc)) (Prog.traceTaken (.grp k i) i true)) := by
    have hy : (g.frag i).mask = (exOf s (.grp k i) g1 i h 12).f.mask := by rw [← hg.frag]; rfl
    have hne : ((g.frag i).mask != 0) = true := bne_iff_ne.2 hm
    simp only [brdGo, if_pos hy, hne]
    rfl
  rw [hrun]
  exact goes_target t hg 12 pc true fun u => tells_trace ..

theorem goes_brdGo_none (t : Turn s (.grp k i) g i) (hg : SameButKnots g g1) {pc : Nat} (hm : (g.frag i).mask ≠ 0) :
    Goes s k i h ((brdGo (exOf s (.grp k i) g1 i h 12) 0 pc).go s) g1 ((g.frag i).pc + 12) (s.cycle + h.stall.val + 1) false := by
  have hrun : brdGo (exOf s (.grp k i) g1 i h 12) 0 pc = (let y := exOf s (.grp k i) g1 i h 12
      Prog.seq (Prog.grp (.grp k i) (y.plainG false)) (Prog.traceTaken (.grp k i) i false)) := by
    have hy : ¬ 0 = (exOf s (.grp k i) g1 i h 12).f.mask := by
      rw [show (exOf s (.grp k i) g1 i h 12).f = g1.frag i from rfl, hg.frag]; exact hm.symm
    simp only [brdGo, if_neg hy, if_true]
    rfl
  rw [hrun]
  exact goes_next t hg 12 false fun u => tells_trace ..

end

end Sys2Proof.Spec
end

section
/-! SUPPORT. The split of a fragment (R128): what the two parts hold, and what stays. -/

namespace Sys2Proof.Spec
open Sys2Proof.Machine

/-! ## Path slots (R132) -/

/-- Two groups that differ in path slots and in the waiting order alone. -/
structure SameButSlots (g g' : Group) : Prop where
  frag : ∀ x, { g'.frag x with slot := (g.frag x).slot, iss := (g.frag x).iss } = g.frag x
  rest : { g' with frags := g.frags, waiting := g.waiting } = g

theorem SameButSlots.refl (g : Group) : SameButSlots g g := ⟨fun _ => rfl, rfl⟩

theorem SameButSlots.trans {g g1 g2 : Group} (h1 : SameButSlots g g1) (h2 : SameButSlots g1 g2) : SameButSlots g g2 where
  frag x := by
    have e := h1.frag x
    rw [← h2.frag x] at e
    exact e
  rest := by
    have e := h1.rest
    rw [← h2.rest] at e
    exact e

theorem sameButSlots_waiting (g : Group) (w : List Nat) : SameButSlots g { g with waiting := w } := ⟨fun _ => rfl, rfl⟩

/-- A fragment takes a slot. -/
theorem sameButSlots_take (g : Group) (w : List Nat) (i n : Nat) :
    SameButSlots g ({ g with waiting := w }.setFrag i { g.frag i with slot := n, iss := 0 }) where
  frag x := by
    have hx : ({ g with waiting := w }.setFrag i { g.frag i with slot := n, iss := 0 }).frag x = if x = i then { g.frag i with slot := n, iss := 0 } else g.frag x :=
      Tab.get_put ..
    rw [hx]
    split
    · next h => rw [h]
    · rfl
  rest := rfl

theorem sameButSlots_fill (g : Group) (n : Nat) : SameButSlots g (g.fill n) := by
  induction n generalizing g with
  | zero => exact .refl g
  | succ n ih =>
    unfold Group.fill
    split
    · exact (sameButSlots_take ..).trans (ih _)
    · exact .refl g

theorem sameButSlots_enqueue (g : Group) (i : Nat) : SameButSlots g (g.enqueue i) :=
  (sameButSlots_waiting g _).trans (sameButSlots_fill ..)

/-! ## The two parts -/

/-- A part of a fragment as it goes on: its lanes, its PC and its stall gate. -/
structure Part where
  mask : Nat
  pc : Nat
  gate : Nat
  target : Bool

/-- What the entry of a fragment holds once it keeps a part alone. -/
def keptPart (f : Frag) (p : Part) : Frag := { f with mask := p.mask, pc := p.pc, target := p.target, gate := p.gate }

/-- The new fragment: copies of the counters, the youngest age, no slot yet (R128). -/
def newPart (g : Group) (i : Nat) (p : Part) : Frag :=
  { fst := .live, slot := 0, kix := 0, born := g.births, mask := p.mask, pc := p.pc, gate := p.gate, sb := (g.frag i).sb, iss := 0, holdSince := none,
    hold := .none, target := p.target, sbm := (g.frag i).sbm }

/-- Fragment i keeps one part, and a new fragment j has the other. -/
def parted (g : Group) (i j : Nat) (keep new : Part) : Group :=
  ({ g with births := g.births + 1 }.setFrag j (newPart g i new)).setFrag i (keptPart (g.frag i) keep)

theorem frag_parted {g : Group} {i j : Nat} {keep new : Part} (x : Nat) :
    (parted g i j keep new).frag x = if x = i then keptPart (g.frag i) keep else if x = j then newPart g i new else g.frag x :=
  (Tab.get_put ..).trans (if_congr Iff.rfl rfl (Tab.get_put ..))

/-- The entry keeps the part that holds the lowest lane (R128), and the new fragment takes a slot or a place in the waiting order (R132). -/
theorem split_eq {g : Group} {i j : Nat} {es : List Nat} (hj : g.freeFrags = j :: es) (hij : i ≠ j) (A B : Part) :
    GH.split { g := g, hs := [] } i A.mask B.mask A.pc B.pc A.gate B.gate A.target B.target =
      { g := (if bit A.mask (lowest (g.frag i).mask) then parted g i j A B else parted g i j B A).enqueue j, hs := [.fork i j] } := by
  have hhead : ({ g := g, hs := [] } : GH).g.freeFrags.headD 16 = j := by
    show g.freeFrags.headD 16 = j
    rw [hj]; rfl
  have hfrag : ∀ p : Part, ({ g with births := g.births + 1 }.setFrag j (newPart g i p)).frag i = g.frag i := fun p =>
    (Tab.get_put ..).trans (if_neg hij)
  unfold GH.split
  simp only [hhead]
  cases bit A.mask (lowest (g.frag i).mask) with
  | true => exact congrArg (fun f => GH.mk ((Group.setFrag _ i (keptPart f A)).enqueue j) _) (hfrag B)
  | false => exact congrArg (fun f => GH.mk ((Group.setFrag _ i (keptPart f B)).enqueue j) _) (hfrag A)

/-- What a fragment holds as a part of another. -/
def IsPart (f : Frag) (p : Part) : Prop := f.fst = .live ∧ f.mask = p.mask ∧ f.pc = p.pc ∧ f.gate = p.gate

/-- The fields of a fragment that a change of slots leaves. -/
theorem SameButSlots.fields {g g' : Group} (h : SameButSlots g g') (x : Nat) : (g'.frag x).fst = (g.frag x).fst ∧ (g'.frag x).mask = (g.frag x).mask ∧
    (g'.frag x).pc = (g.frag x).pc ∧ (g'.frag x).gate = (g.frag x).gate ∧ (g'.frag x).born = (g.frag x).born ∧ (g'.frag x).sb = (g.frag x).sb := by
  have e := h.frag x
  exact ⟨(congrArg Frag.fst e :), (congrArg Frag.mask e :), (congrArg Frag.pc e :), (congrArg Frag.gate e :), (congrArg Frag.born e :), (congrArg Frag.sb e :)⟩

/-- Group g' is g after fragment i split: part A stands at entry e and part B at entry e'. -/
structure SplitInto (g g' : Group) (i j e e' : Nat) (A B : Part) : Prop where
  partA : IsPart (g'.frag e) A
  partB : IsPart (g'.frag e') B
  born : (g'.frag i).born = (g.frag i).born ∧ (g'.frag j).born = g.births ∧ g'.births = g.births + 1
  slots : (g'.frag i).sb = (g.frag i).sb ∧ (g'.frag j).sb = (g.frag i).sb
  others : ∀ x, x ≠ i → x ≠ j → (g'.frag x).fst = (g.frag x).fst ∧ (g'.frag x).mask = (g.frag x).mask ∧ (g'.frag x).pc = (g.frag x).pc
  rest : { g' with frags := g.frags, waiting := g.waiting, births := g.births, pend := g.pend } = g

theorem splitInto_parted {g g' : Group} {i j : Nat} {keep new : Part} (hlive : (g.frag i).fst = .live) (hij : i ≠ j)
    (hg : SameButSlots (parted g i j keep new) g') (hs : List Heir) : SplitInto g (g'.heirs hs) i j i j keep new := by
  have hi : (parted g i j keep new).frag i = keptPart (g.frag i) keep := by rw [frag_parted, if_pos rfl]
  have hj : (parted g i j keep new).frag j = newPart g i new := by rw [frag_parted, if_neg hij.symm, if_pos rfl]
  obtain ⟨fi, mi, pi, gi, bi, si⟩ := hg.fields i
  obtain ⟨fj, mj, pj, gj, bj, sj⟩ := hg.fields j
  rw [hi] at fi mi pi gi bi si
  rw [hj] at fj mj pj gj bj sj
  refine ⟨⟨fi.trans hlive, mi, pi, gi⟩, ⟨fj, mj, pj, gj⟩, ⟨bi, bj, (congrArg Group.births hg.rest :)⟩, ⟨si, sj⟩, fun x hxi hxj => ?_, ?_⟩
  · obtain ⟨fx, mx, px, -⟩ := hg.fields x
    rw [frag_parted, if_neg hxi, if_neg hxj] at fx mx px
    exact ⟨fx, mx, px⟩
  · have e := hg.rest
    exact congrArg (fun y : Group => { y with frags := g.frags, waiting := g.waiting, births := g.births, pend := g.pend }) e

theorem SplitInto.swap {g g' : Group} {i j e e' : Nat} {A B : Part} (h : SplitInto g g' i j e e' A B) : SplitInto g g' i j e' e B A :=
  ⟨h.partB, h.partA, h.born, h.slots, h.others, h.rest⟩

/-- The split of a live fragment with a free entry (R128). -/
theorem splitInto_split {g : Group} {i j : Nat} {es : List Nat} (hlive : (g.frag i).fst = .live) (hj : g.freeFrags = j :: es) (A B : Part) :
    let y := GH.split { g := g, hs := [] } i A.mask B.mask A.pc B.pc A.gate B.gate A.target B.target
    let low := bit A.mask (lowest (g.frag i).mask)
    y.hs = [.fork i j] ∧ SplitInto g (y.g.heirs y.hs) i j (if low then i else j) (if low then j else i) A B := by
  intro y low
  have hij : i ≠ j := by
    rintro rfl
    have hfree := List.mem_filter.1 (hj ▸ List.mem_cons_self : i ∈ g.freeFrags)
    rw [hlive] at hfree
    exact absurd hfree.2 (by decide)
  have hy : y = _ := split_eq hj hij A B
  rw [hy]
  refine ⟨rfl, ?_⟩
  cases hlow : low with
  | true =>
    rw [show bit A.mask (lowest (g.frag i).mask) = true from hlow]
    exact splitInto_parted hlive hij (sameButSlots_enqueue ..) _
  | false =>
    rw [show bit A.mask (lowest (g.frag i).mask) = false from hlow]
    exact (splitInto_parted hlive hij (sameButSlots_enqueue ..) _).swap

end Sys2Proof.Spec
end

section
/-! SUPPORT. Transfers that some lanes of a fragment take (R111, R128, R144). -/

namespace Sys2Proof.Spec
open Sys2Proof.Machine

/-! ## A split that is written back -/

/-- The holders of counters change in operations alone. -/
theorem runAll_heirs (w : Issuer) (hs : List Heir) (u : State) : { runAll u (Prog.heirs w hs u) with ops := u.ops } = u := by
  have hops : ∀ (l : List Effect) (v : State), (∀ e ∈ l, ∃ n o, e = .ops n o) → { runAll v l with ops := v.ops } = v := fun l => by
    induction l with
    | nil => exact fun v _ => rfl
    | cons e l ih =>
      intro v hl
      obtain ⟨n, o, rfl⟩ := hl e List.mem_cons_self
      exact congrArg (fun x : State => { x with ops := v.ops }) (ih (Effect.run v (.ops n o)) fun e he => hl e (List.mem_cons_of_mem _ he))
  refine hops _ u fun e he => ?_
  unfold Prog.heirs at he
  split at he
  · exact absurd he List.not_mem_nil
  · obtain ⟨⟨n, p⟩, -, hp⟩ := List.mem_filterMap.1 he
    cases p with
    | none => cases hp
    | some o =>
      dsimp only at hp
      split at hp
      · exact ⟨_, _, (Option.some.inj hp).symm⟩
      · cases hp

/-- A group that has split is written back. -/
theorem runAll_gh_fork (s : State) (k i a b : Nat) (y : Group) :
    let u := runAll s (Prog.gh (.grp k i) { g := y, hs := [.fork a b] } s)
    (∀ j, u.groupsAt j = if j = k then y.heirs [.fork a b] else s.groupsAt j) ∧ { u with groups := s.groups, ops := s.ops } = s := by
  have hu : runAll s (Prog.gh (.grp k i) { g := y, hs := [.fork a b] } s) =
      (let v := runAll s (Prog.grp (.grp k i) (y.heirs [.fork a b]) s)
       runAll v (Prog.heirs (.grp k i) [.fork a b] v)) := by
    simp only [Prog.gh, Prog.ghTold, runAll_all_cons, runAll_all_nil]
    rfl
  rw [hu]
  have hr := runAll_heirs (.grp k i) [.fork a b] (runAll s (Prog.grp (.grp k i) (y.heirs [.fork a b]) s))
  exact ⟨fun j => (congrArg (fun x : State => x.groupsAt j) hr).trans (Tab.get_put ..), congrArg (fun x : State => { x with groups := s.groups, ops := s.ops }) hr⟩

/-- The split of a transfer to pc that the lanes T take, and its packet. -/
def splitProg (x : Ex) (T pc reason : Nat) : Prog :=
  let gate := x.cyc + x.h.stall.val
  let low := bit T (lowest x.f.mask)
  Prog.seq (Prog.gh x.w (GH.split { g := x.plainG true, hs := [] } x.i T (mDiff x.f.mask T) pc (x.f.pc + x.len) (gate + 3) (gate + 1) true false))
    (Prog.traceSplit x.w x.i (x.g.freeFrags.headD 16) reason (!low) (if low then mDiff x.f.mask T else T))

/-- What a transfer leaves that the lanes T of fragment i take and the others do not; j is the lowest free entry. -/
def Splits (s : State) (k i j : Nat) (g : Group) (h : Hdr) (o : Answer) (T tgt len : Nat) (knots : Tab Knot) (pushes : Nat) : Prop :=
  let f := g.frag i
  ∃ t, o = .next t ∧
    let g' := t.groupsAt k
    let low := bit T (lowest f.mask)
    let e := if low then i else j
    let e' := if low then j else i
    ((g'.frag e).fst = .live ∧ (g'.frag e).mask = T ∧ (g'.frag e).pc = tgt ∧
      (g'.frag e).gate = s.cycle + h.stall.val + 3) ∧
    ((g'.frag e').fst = .live ∧ (g'.frag e').mask = mDiff f.mask T ∧ (g'.frag e').pc = f.pc + len ∧
      (g'.frag e').gate = s.cycle + h.stall.val + 1) ∧
    ((g'.frag i).born = f.born ∧ (g'.frag j).born = g.births ∧ g'.births = g.births + 1) ∧
    (∀ n, (g'.frag i).slotAt n = f.slotAt n + (if n = h.sbs.val ∧ n ≠ 0 then 1 else 0) ∧ (g'.frag j).slotAt n = (g'.frag i).slotAt n) ∧
    (∀ x, x ≠ i → x ≠ j → (g'.frag x).fst = (g.frag x).fst ∧ (g'.frag x).mask = (g.frag x).mask ∧ (g'.frag x).pc = (g.frag x).pc) ∧
    (g'.v = g.v ∧ g'.s = g.s ∧ g'.p = g.p ∧ g'.q = g.q ∧ g'.pres = g.pres ∧ g'.knots = knots ∧ g'.pushes = pushes) ∧
    (∀ x, x ≠ k → t.groupsAt x = s.groupsAt x) ∧ Traced s t (.grp k i) ∧
    { t with groups := s.groups, ops := s.ops, mem := s.mem, traces := s.traces } = s

/-- A group with what a split changes put back as it stands in g. -/
def restored (g g' : Group) : Group :=
  { g' with frags := g.frags, waiting := g.waiting, births := g.births, pend := g.pend, retired := g.retired, clk := g.clk, knots := g.knots, pushes := g.pushes }

theorem freeFrags_congr {g g' : Group} (h : ∀ x, (g'.frag x).fst = (g.frag x).fst) : g'.freeFrags = g.freeFrags := by
  simp only [Group.freeFrags, h]

theorem SplitInto.sameOwners {g g' : Group} {i j e e' : Nat} {A B : Part} (h : SplitInto g g' i j e e' A B) : SameOwners g g' :=
  ⟨(congrArg Group.live h.rest :), (congrArg Group.handler h.rest :), (congrArg Group.owners h.rest :)⟩

section
variable {s : State} {k i j : Nat} {g g1 : Group} {h : Hdr} {es : List Nat}

/-- What a transfer that some lanes take runs to: the two parts in a group that is written back, and packets. -/
theorem splitProg_run (t : Turn s (.grp k i) g i) (hj : g.freeFrags = j :: es) (hg : SameButKnots g g1) (len T pc reason : Nat) {q : Prog}
    (hq : ∀ u, Tells k u (runAll u (q u))) :
    let x := exOf s (.grp k i) g1 i h len
    let low := bit T (lowest (g.frag i).mask)
    ∃ y v, (Prog.seq (splitProg x T pc reason) q).go s = .next v ∧
      Tells k (runAll s (Prog.gh (.grp k i) { g := y, hs := [.fork i j] } s)) v ∧
      SplitInto (x.plainG true) (y.heirs [.fork i j]) i j (if low then i else j) (if low then j else i)
        ⟨T, pc, s.cycle + h.stall.val + 3, true⟩ ⟨mDiff (g.frag i).mask T, (g.frag i).pc + len, s.cycle + h.stall.val + 1, false⟩ := by
  intro x low
  have hiss : Issued g1 (x.plainG true) i len s.cycle h true := issued_fixedG ..
  obtain ⟨hfst, hm, -⟩ := hiss.same
  rw [hg.frag] at hfst hm
  have hfree : (x.plainG true).freeFrags = j :: es := by
    rw [← hj]
    refine freeFrags_congr fun z => ?_
    by_cases hz : z = i
    · rw [hz]; exact hfst
    · rw [hiss.others z hz, hg.frag]
  have hf : x.f = g.frag i := by rw [← hg.frag]; rfl
  obtain ⟨hhs, hsplit⟩ := splitInto_split (hfst.trans t.live) hfree ⟨T, pc, s.cycle + h.stall.val + 3, true⟩
    ⟨mDiff x.f.mask T, x.f.pc + len, s.cycle + h.stall.val + 1, false⟩
  generalize hy : GH.split _ _ _ _ _ _ _ _ _ _ = y at hhs hsplit
  obtain ⟨yg, yhs⟩ := y
  dsimp only at hhs hsplit
  subst hhs
  rw [hm, hf] at hsplit
  refine ⟨yg, _, rfl, ?_, hsplit⟩
  rw [runAll_seq, splitProg, runAll_seq, ← hy]
  exact (tells_trace ..).trans (hq _)

/-- A fragment with a free entry splits, and further packets may follow. -/
theorem splits_splitProg (t : Turn s (.grp k i) g i) (hj : g.freeFrags = j :: es) (hg : SameButKnots g g1) (len T pc reason : Nat) {q : Prog}
    (hq : ∀ u, Tells k u (runAll u (q u))) :
    Splits s k i j g h ((Prog.seq (splitProg (exOf s (.grp k i) g1 i h len) T pc reason) q).go s) T pc len g1.knots g1.pushes := by
  obtain ⟨y, v, hv, htells, hsplit⟩ := splitProg_run t hj hg len T pc reason hq
  have hiss : Issued g1 ((exOf s (.grp k i) g1 i h len).plainG true) i len s.cycle h true := issued_fixedG ..
  generalize (exOf s (.grp k i) g1 i h len).plainG true = g0 at hiss hsplit
  obtain ⟨-, -, -, hborn, -⟩ := hiss.same
  rw [hg.frag] at hborn
  obtain ⟨hgroups, hrest⟩ := runAll_gh_fork s k i i j y
  generalize runAll s (Prog.gh (.grp k i) { g := y, hs := [.fork i j] } s) = u at hgroups hrest htells
  have hvg : v.groups = u.groups := (congrArg State.groups htells.rest :)
  have hgk : v.groupsAt k = y.heirs [.fork i j] := by
    rw [State.groupsAt, hvg]; exact (hgroups k).trans (if_pos rfl)
  have howners : SameOwners (s.groupsAt k) (y.heirs [.fork i j]) := by
    have hgrp : s.groupsAt k = g := by cases t; rfl
    rw [hgrp]
    exact hg.sameOwners.trans (hiss.sameOwners.trans hsplit.sameOwners)
  obtain ⟨hA, hB, hbirth, hslots, hothers, hkept⟩ := hsplit
  have hg' : { g1 with knots := g.knots, pushes := g.pushes } = g := hg
  have hall1 : restored g g1 = g := (congrArg (restored g) hg' :)
  have hall0 : restored g g0 = restored g g1 := (congrArg (restored g) hiss.rest :)
  have hall : restored g (y.heirs [.fork i j]) = restored g g0 := (congrArg (restored g) hkept :)
  rw [hall0, hall1] at hall
  have hpushed : (y.heirs [.fork i j]).knots = g1.knots ∧ (y.heirs [.fork i j]).pushes = g1.pushes :=
    ⟨(congrArg Group.knots hkept :).trans (congrArg Group.knots hiss.rest :), (congrArg Group.pushes hkept :).trans (congrArg Group.pushes hiss.rest :)⟩
  have hbirths : g0.births = g.births := by
    have e : g0.births = g1.births := (congrArg Group.births hiss.rest :)
    exact e.trans (congrArg Group.births hg' :)
  refine ⟨v, hv, ?_⟩
  dsimp only
  rw [hgk]
  refine ⟨hA, hB, ⟨hbirth.1.trans hborn, hbirth.2.1.trans ?_, hbirth.2.2.trans ?_⟩, fun n => ⟨?_, ?_⟩, fun x hxi hxj => ?_, ?_, fun x hx => ?_,
    traced_of_tells howners hgroups hrest htells, ?_⟩
  · exact hbirths
  · rw [hbirths]
  · rw [Frag.slotAt, hslots.1]
    have := hiss.slot n
    rw [hg.frag] at this
    simpa [Frag.slotAt] using this
  · rw [Frag.slotAt, Frag.slotAt, hslots.1, hslots.2]
  · obtain ⟨e1, e2, e3⟩ := hothers x hxi hxj
    have ex : g0.frag x = g.frag x := by rw [hiss.others x hxi, hg.frag]
    rw [e1, e2, e3, ex]
    exact ⟨rfl, rfl, rfl⟩
  · exact ⟨(congrArg Group.v hall :), (congrArg Group.s hall :), (congrArg Group.p hall :), (congrArg Group.q hall :), (congrArg Group.pres hall :), hpushed⟩
  · rw [State.groupsAt, hvg]
    exact (hgroups x).trans (if_neg hx)
  · have e := congrArg (fun w : State => { w with groups := s.groups, ops := s.ops, mem := s.mem, traces := s.traces }) htells.rest
    exact e.trans (congrArg (fun w : State => { w with mem := s.mem, traces := s.traces }) hrest :)

end

end Sys2Proof.Spec
end

section
/-! SUPPORT. The instructions of divergence (R144, R145) and of group-wide transfer (R111), as they run. -/

namespace Sys2Proof.Spec
open Sys2Proof.Machine

theorem go_seq_skip (p : Prog) (s : State) : (Prog.seq p Prog.skip).go s = p.go s := by
  simp only [Prog.go, runAll_seq, runAll_skip]

section
variable {s : State} {k i j : Nat} {g g1 : Group} {h : Hdr} {off : BitVec 32} {a : SReg}

/-! ## KNOT -/

theorem exec_knot_idle (t : Turn s (.grp k i) g i) (c : Calm s (.grp k i) g) (hz : active g i h = 0) :
    exec (.knot h off) s = (Prog.seq (Prog.grp (.grp k i) ((exOf s (.grp k i) g i h 12).plainG false)) Prog.skip).go s := by
  have hz' : (exOf s (.grp k i) g i h 12).act = 0 := hz
  show execKnot h off s = _
  unfold execKnot
  rw [issue_eq t, only_grp_eq, go_seq_skip]
  simp only [Prog.go]
  rw [check_eq c]
  simp only [Prog.on, if_pos hz']
  rfl

theorem exec_knot_push {n : Nat} (t : Turn s (.grp k i) g i) (c : Calm s (.grp k i) g) (hz : active g i h ≠ 0)
    (h4 : relTarget (g.frag i).pc off % 4 = 0) (htext : relTarget (g.frag i).pc off < (s.textOf g).length) (hn : g.freeKnot = some n) :
    exec (.knot h off) s = (Prog.seq (Prog.grp (.grp k i)
      ((exOf s (.grp k i) (pushedKnot g i n (relTarget (g.frag i).pc off)) i h 12).plainG true)) Prog.skip).go s := by
  have hz' : ¬ (exOf s (.grp k i) g i h 12).act = 0 := hz
  have htext' : ¬ (s.textOf (exOf s (.grp k i) g i h 12).g).length ≤ relTarget (exOf s (.grp k i) g i h 12).f.pc off := Nat.not_le.2 htext
  show execKnot h off s = _
  unfold execKnot
  rw [issue_eq t, only_grp_eq, go_seq_skip]
  simp only [Prog.go]
  rw [check_eq c]
  simp only [Prog.on, if_neg hz', if_neg htext']
  rw [show (exOf s (.grp k i) g i h 12).f.pc = (g.frag i).pc from rfl, pushKnot_eq hn h4]
  rfl

/-! ## Splits -/

theorem brdGo_split (hg : SameButKnots g g1) {T pc : Nat} (hz : T ≠ 0) (hm : T ≠ (g.frag i).mask) :
    brdGo (exOf s (.grp k i) g1 i h 12) T pc = splitProg (exOf s (.grp k i) g1 i h 12) T pc 0 := by
  have hm' : ¬ T = (exOf s (.grp k i) g1 i h 12).f.mask := by
    rw [show (exOf s (.grp k i) g1 i h 12).f = g1.frag i from rfl, hg.frag]; exact hm
  have hne : (T != 0) = true := bne_iff_ne.2 hz
  simp only [brdGo, if_neg hm', if_neg hz, hne]
  rfl

/-- A transfer whose guard holds in some class slots of the fragment, but not in all (R111). -/
theorem transfer_split {len pc : Nat} (hz : g.actQ (g.frag i).mask h ≠ 0) (hall : g.actQ (g.frag i).mask h ≠ g.classMask (g.frag i).mask) :
    let x := exOf s (.grp k i) g i h len
    x.transfer pc [] = splitProg x (maskWhere fun l => bit (g.frag i).mask l && bit (g.actQ (g.frag i).mask h) (g.clsOf l)) pc 1 := by
  intro x
  have hz' : ¬ x.actQ = 0 := hz
  have hall' : ¬ x.actQ = x.g.classMask x.f.mask := hall
  have hne : (x.actQ != 0) = true := bne_iff_ne.2 hz
  simp only [Ex.transfer, if_neg hall', if_neg hz', hne, List.isEmpty_nil, Bool.true_or, if_true]
  rfl

/-- A transfer that splits tells of no guard. -/
theorem traceGuarded_split {len : Nat} (hz : g.actQ (g.frag i).mask h ≠ 0) (hall : g.actQ (g.frag i).mask h ≠ g.classMask (g.frag i).mask) :
    (exOf s (.grp k i) g i h len).traceGuarded = Prog.skip := by
  have hz' : ((exOf s (.grp k i) g i h len).actQ == 0) = false := beq_eq_false_iff_ne.2 hz
  have hall' : ((exOf s (.grp k i) g i h len).actQ == (exOf s (.grp k i) g i h len).g.classMask (exOf s (.grp k i) g i h len).f.mask) = false :=
    beq_eq_false_iff_ne.2 hall
  simp only [Ex.traceGuarded, hz', hall', Bool.or_self, Bool.and_false]
  rfl

theorem exec_bra (t : Turn s (.grp k i) g i) (c : Calm s (.grp k i) g) : exec (.bra h off) s =
    (let x := exOf s (.grp k i) g i h 12
     Prog.seq (x.transfer (relTarget (g.frag i).pc off) []) x.traceGuarded).go s := by
  show execBra h off s = _
  unfold execBra
  rw [issue_eq t, only_both_eq]
  simp only [Prog.go]
  rw [check_eq c]
  rfl

/-- The check of a register target that passes (R111). -/
theorem jumpTo_eq {len : Nat} {p : Nat → Prog} (hlt : (g.readS a.val).toNat < 2 ^ 32) (h4 : (g.readS a.val).toNat % 4 = 0)
    (htext : (g.readS a.val).toNat < (s.textOf g).length) : (exOf s (.grp k i) g i h len).jumpTo a p s = p (g.readS a.val).toNat s := by
  have hok : (decide (4294967296 ≤ (g.readS a.val).toNat) || (g.readS a.val).toNat % 4 != 0 || decide ((s.textOf g).length ≤ (g.readS a.val).toNat)) = false := by
    simp [h4]; omega
  simp only [Ex.jumpTo, Prog.on]
  rw [show (exOf s (.grp k i) g i h len).g = g from rfl, hok, Bool.and_false]
  rfl

theorem exec_jmp (t : Turn s (.grp k i) g i) (c : Calm s (.grp k i) g) (hlt : (g.readS a.val).toNat < 2 ^ 32) (h4 : (g.readS a.val).toNat % 4 = 0)
    (htext : (g.readS a.val).toNat < (s.textOf g).length) : exec (.jmp h a) s =
    (let x := exOf s (.grp k i) g i h 8
     Prog.seq (x.transfer (g.readS a.val).toNat []) (Prog.when (x.actQ != 0) (Prog.traceInd x.w x.jumper (g.readS a.val).toNat))).go s := by
  show execJmp h a s = _
  unfold execJmp
  rw [issue_eq t, only_both_eq]
  simp only [Prog.go]
  rw [check_eq c, jumpTo_eq hlt h4 htext]

theorem exec_ret (t : Turn s (.grp k i) g i) (c : Calm s (.grp k i) g) (hlt : (g.readS a.val).toNat < 2 ^ 32) (h4 : (g.readS a.val).toNat % 4 = 0)
    (htext : (g.readS a.val).toNat < (s.textOf g).length) : exec (.ret h a) s =
    (let x := exOf s (.grp k i) g i h 8
     Prog.all [x.transfer (g.readS a.val).toNat [], x.traceGuarded, Prog.when (x.actQ != 0) (Prog.traceInd x.w x.jumper (g.readS a.val).toNat)]).go s := by
  show execRet h a s = _
  unfold execRet
  rw [issue_eq t, only_both_eq]
  simp only [Prog.go]
  rw [check_eq c, jumpTo_eq hlt h4 htext]

theorem tells_skip (u : State) : Tells k u (runAll u (Prog.skip u)) := .refl k u

theorem tells_when {b : Bool} {p : Prog} (hp : ∀ u, Tells k u (runAll u (p u))) (u : State) : Tells k u (runAll u (Prog.when b p u)) := by
  cases b with
  | false => exact .refl k u
  | true => exact hp u

theorem tells_seq {p q : Prog} (hp : ∀ u, Tells k u (runAll u (p u))) (hq : ∀ u, Tells k u (runAll u (q u))) (u : State) :
    Tells k u (runAll u (Prog.seq p q u)) := by
  rw [runAll_seq]
  exact (hp u).trans (hq _)

variable {es : List Nat}

/-- BRD that some lanes take. -/
theorem splits_brdGo (t : Turn s (.grp k i) g i) (hj : g.freeFrags = j :: es) (hg : SameButKnots g g1) {T pc : Nat} (hz : T ≠ 0)
    (hm : T ≠ (g.frag i).mask) :
    Splits s k i j g h ((brdGo (exOf s (.grp k i) g1 i h 12) T pc).go s) T pc 12 g1.knots g1.pushes := by
  rw [brdGo_split hg hz hm, ← go_seq_skip]
  exact splits_splitProg t hj hg 12 T pc 0 tells_skip

end

/-- Settles O20: BRD and KNOT push before they go on, and every transfer that splits writes back the same two parts. -/
theorem divergence : Obligations.Divergence := by
  refine ⟨?moves, ?splits⟩
  case moves =>
    intro s k i g h off a t c f T target v pushed goes
    refine ⟨fun hm hT ha => ?_, fun hm hT ha => ?_, fun n ha hlt h4 htext hn => ⟨fun hm hT => ?_, fun hm hT => ?_⟩, fun n hT h4 htext hn => ?_, fun hT => ?_⟩
    · rw [exec_brd t c ha, show active g i h = f.mask from hT]
      exact goes_brdGo_all t (.refl g) hm
    · rw [exec_brd t c ha, show active g i h = 0 from hT]
      exact goes_brdGo_none t (.refl g) hm
    · rw [exec_brd_push t c ha hlt h4 htext hn, show active g i h = f.mask from hT]
      exact goes_brdGo_all t (sameButKnots_pushed ..) hm
    · rw [exec_brd_push t c ha hlt h4 htext hn, show active g i h = 0 from hT]
      exact goes_brdGo_none t (sameButKnots_pushed ..) hm
    · rw [exec_knot_push t c hT h4 htext hn]
      exact goes_next t (sameButKnots_pushed ..) 12 true tells_skip
    · rw [exec_knot_idle t c hT]
      exact goes_next t (.refl g) 12 false tells_skip
  case splits =>
    intro s k i j g h off a es t c hj f splits T target
    refine ⟨fun hz hm ha => ?_, fun n hz hm ha hlt h4 htext hn => ?_, ?_⟩
    · rw [exec_brd t c ha]
      exact splits_brdGo t hj (.refl g) hz hm
    · rw [exec_brd_push t c ha hlt h4 htext hn]
      exact splits_brdGo t hj (sameButKnots_pushed ..) hz hm
    · rintro _ rfl hz hall slots v
      have hind : ∀ (b : Bool) (e : Nat) (u : State), Tells k u (runAll u (Prog.when b (Prog.traceInd (.grp k i) e v) u)) := fun b e =>
        tells_when fun u => tells_trace ..
      refine ⟨?_, fun hlt h4 htext => ⟨?_, ?_⟩⟩
      · rw [exec_bra t c]
        simp only [transfer_split hz hall, traceGuarded_split hz hall]
        exact splits_splitProg t hj (.refl g) 12 slots target 1 tells_skip
      · rw [exec_jmp t c hlt h4 htext]
        simp only [transfer_split hz hall]
        exact splits_splitProg t hj (.refl g) 8 slots v 1 (hind _ _)
      · rw [exec_ret t c hlt h4 htext]
        simp only [transfer_split hz hall, traceGuarded_split hz hall]
        exact splits_splitProg t hj (.refl g) 8 slots v 1 (tells_seq tells_skip (tells_seq (hind _ _) tells_skip))

end Sys2Proof.Spec
end
